-- ==== Sys2Proof/Word.lean ====
section
/-! DEFINITION. The word types of the Orchava 5800: bytes of the common store and of link messages, and the 32-bit frame index. -/

namespace Sys2Proof

/-- One byte of the common store or of a link message. -/
abbrev Byte := BitVec 8

/-- The frame index, "a 32-bit count that wraps" (About this manual, Conventions). -/
abbrev FrameIndex := BitVec 32

/-- The common store is 4 MiB (About this manual). -/
abbrev storeSize : Nat := 4194304

end Sys2Proof
end

