-- ==== Sys2Proof/Syntax.lean ====
section
/-! DEFINITION. The commands of the 5800: one constructor of Instr per row of spec/opcode_table.json, with the operands that the row's event carries in from outside the engine. -/

namespace Sys2Proof

/-- What the control computer wrote into the common store, through the PCIe window it shares with the five registers,
since its previous register access: (address, byte) pairs in the order written.  The table has no row for a plain store
access of the control computer, so these writes ride on its register accesses (log entry 2). -/
abbrev HostWrites := List Host.Cell

/-- One line of a router SWITCH REPORT (91H): destination, level, result (applied or fault) and source number, as the
message carries them. -/
structure ReportLine where
  dest   : Byte
  level  : Byte
  fault  : Bool
  number : Byte
deriving DecidableEq, Repr

/-- One key event of a panel REPLY: the key number as the message carries it, and whether it is a PRESS. -/
structure KeyEvent where
  key   : Byte
  press : Bool
deriving DecidableEq, Repr

/-- A panel REPLY (83H): address, echoed bit, the model code (present in answer to an IDENT POLL) and the key events.  `ahead` is no part of the message:
it says that its presses of TAKE are taken ahead of the take notices of this frame (R136 leaves the order open; log entry 46). -/
structure PanelReply where
  address : Byte
  echo    : Bool
  code    : Option (BitVec 16)
  events  : List KeyEvent
  ahead   : Bool := false
deriving DecidableEq, Repr

/-- A run of bytes on a link.  `late` says that they answer an attempt, a READ, a ping, a poll or a wait that is over (log entry 42): the messages
themselves name none. -/
structure LinkBytes where
  late  : Bool
  bytes : List Byte
deriving DecidableEq, Repr

/-- The commands and events of spec/opcode_table.json, in the table's order.  `gpi` is the level of the sixteen contact
inputs (bit set: contact closed) at the boundary that the command may make; `elapsed` is the number of oscillator ticks since the last
timed event of the RTU; `pre` is the control computer's writes to the common store made before its register access.  -/
inductive Instr where
  | powerOnReset
  | frameBoundary (gpi : BitVec 16)
  | referencePulse (elapsed : Nat) (gpi : BitVec 16)
  | referenceWindowClose
  | anchorWrite (pre : HostWrites) (value : BitVec 32)
  | post (pre : HostWrites) (slot : Fin 8)
  | withdraw (pre : HostWrites) (slot : Fin 8)
  | start (pre : HostWrites) (elapsed : Nat) (gpi : BitVec 16) (freeze : Bool) (mask : BitVec 5)
  | runClear (pre : HostWrites) (freeze : Bool) (mask : BitVec 5)
  | freezeSet (pre : HostWrites) (mask : BitVec 5)
  | freezeClear (pre : HostWrites) (mask : BitVec 5)
  | engineReset (pre : HostWrites) (restart : Bool) (mask : BitVec 5)
  | interfaceRestart (pre : HostWrites) (mask : BitVec 5)
  | noticeEnableWrite (pre : HostWrites) (mask : BitVec 5)
  | noticeClear (pre : HostWrites) (causes : BitVec 5)
  | statusWrite (pre : HostWrites) (value : BitVec 32)
  | enterHalted (elapsed : Nat) (gpi : BitVec 16)
  | stripStart
  | orderOfUnknownKind
  | timeSet
  | cueSet
  | cueClear
  | destSet
  | salvoSet
  | stepSet
  | take
  | cancel
  | protect
  | release
  | salvoFire
  | salvoReadDone
  | panelSet
  | keymapLoad
  | keymapReadDone
  | lampSet
  | portSet
  | groupSet
  | ifbSet
  | talkForce
  | tallySet
  | tallyForce
  | gpiSet
  | armAck
  | armAckTimeout
  | switchReport (lines : List ReportLine)
  | switchReportTimeout
  | mirrorRewriteEnd
  | readAnswer (dest : Byte) (level : Byte) (number : Byte)
  | readTimeout
  | pingAnswer
  | pingTimeout
  | fabricMessageIgnored (message : LinkBytes)
  | reply (link : Fin 4) (message : PanelReply)
  | pollWindowClose (link : Fin 4)
  | probeAnswer (link : Fin 4) (address : Byte) (code : BitVec 16)
  | probeTimeout (link : Fin 4)
  | autoLatchThreshold
  | refusalFlashEnd
  | ack
  | refuse
  | talkWriteTimeout
  | talkMessageIgnored (message : LinkBytes)
  | panelMessageIgnored (link : Fin 4) (message : LinkBytes)
deriving DecidableEq, Repr

end Sys2Proof
end

