-- ==== Sys2Proof/Decode.lean ====
section
/-! DEFINITION. The commands that words spell: the table gives none of its rows any bits. -/

namespace Sys2Proof

/-- The command that a word of the opcode table spells.  No row of the table carries an encoding (every row's field list is empty), so no word spells a
command (log entry 6). -/
def decodeTableWord (_nbits _w : Nat) : Option Instr := none

end Sys2Proof
end

