-- ==== Sys2Proof/Config.lean ====
section
/-! DEFINITION. What the manual leaves open: the byte that unwritten common store reads as, and the free values. -/

namespace Sys2Proof.Config

/-- What a byte of the common store that nothing has written reads as.  DESIGN CHOICE (unsafe): the manual gives no
contents of the store at power-on (log entry 1). -/
abbrev blankByte : Byte := 0

/-- FREE VALUE: a byte the manual requires the engine to write without saying what it is.  It has no body, so nothing can be
proved of it; it is applied to a running count, so each use is a fresh value (log entry 3). -/
opaque freeByte : Nat → Byte

/-- FREE VALUE: the moment, during the read of a salvo list or key map, at which the reader reads the byte at an address.  It has no body; it is
applied to a running count and the address, so each byte of each read has a moment of its own (log entry 17). -/
opaque freeMoment : Nat → Nat → Nat

/-- FREE VALUE: the oscillator ticks since the last timed event, where a start comes with a command that does not bring them (log entry 40). -/
opaque freeTicks : Nat → Nat

/-- FREE VALUE: the levels of the contact inputs, where a start comes with a command that does not bring them (log entry 40). -/
opaque freeContacts : Nat → BitVec 16

/-- FREE VALUE: whether an identifying poll carries the lamps of a panel that has left ONLINE, or whose map was loaded while it was not ONLINE.  It
has no body: R125 and R129 say that it carries what an ordinary poll carries, R127 and R133 that the image is sent when the panel is ONLINE (log entry
45). -/
opaque heldLampsSent : Bool

end Sys2Proof.Config
end

