-- ==== Sys2Proof/Machine/State.lean ====
section
/-! DEFINITION. The state of the 5800 as plain data: one record per block (RTU, XPE, TLY, TKE, PNC, CSI), the run state and CONTROL, the common store and the queue of waiting commands, with the value of each after power-on reset. -/

namespace Sys2Proof.Machine

/-- Why the machine stops with a fault. -/
inductive Fault where
  /-- Raised by a command of the control computer whose `pre` names an address outside the 4 MiB of the common store: no
  such byte exists.  Safe: the model stops, and claims nothing about what the window does there (log entry 4). -/
  | outsideStore (address : Nat)
deriving DecidableEq, Repr

/-- Why the machine refuses a command. -/
inductive Refusal where
  /-- Raised by exec for a command that has no meaning in the model.  Safe: the model stops.  No arm of exec answers so. -/
  | notModelled (mnemonic : String)
deriving DecidableEq, Repr

/-! ### Values shared by the blocks (About this manual, Conventions) -/

/-- A source: PARK, or a router input 0..127. -/
inductive Source where
  | park
  | input (n : Fin 128)
deriving DecidableEq, Repr

/-- The three switched levels. -/
inductive Level where
  | v | a | b
deriving DecidableEq, Repr

/-- A level mask: bit 0 V, bit 1 A, bit 2 B. -/
abbrev LevelMask := BitVec 3

/-- A colour set: bit 0 R, bit 1 G, bit 2 Y. -/
abbrev ColourSet := BitVec 3

/-- A set of talk ports: bit p for port p. -/
abbrev PortSet := BitVec 32

/-- The four drive lines of a tally channel: bit i for line i. -/
abbrev Lines := BitVec 4

/-- A timecode label hh:mm:ss:ff. -/
structure Label where
  hh : Nat
  mm : Nat
  ss : Nat
  ff : Nat
deriving DecidableEq, Repr

/-- The owner of a protect, and the identity of a requester (R27): a panel or an application tag. -/
inductive Owner where
  | panel (n : Fin 24)
  | app (tag : Fin 16)
deriving DecidableEq, Repr

/-- A requester (R27, R37): its identity and the privilege level it acts with when its request is taken. -/
structure Requester where
  owner : Owner
  level : Fin 4
deriving DecidableEq, Repr

/-- The cause an XPT report carries (R26). -/
inductive Cause where
  | take | salvo | cue | step | readback
deriving DecidableEq, Repr

/-- The state of an equipment link. -/
inductive LinkState where
  | down | up
deriving DecidableEq, Repr

/-- The lamp state of a panel key. -/
inductive Lamp where
  | off | on | flash | alt
deriving DecidableEq, Repr

/-- The outcome codes of R158. -/
inductive Code where
  | done | doneClamped | queued
  | refusedKind | refusedArg | refusedAddress | refusedProtected | refusedNotOwner | refusedFull
  | refusedLate | refusedLabel | refusedSalvo | refusedStale
  | withdrawn | skipped
deriving DecidableEq, Repr

/-! ### Reference and Timecode Unit (Frame Time and Timecode) -/

/-- The seven frame rates. -/
inductive Rate where
  | r24 | r25 | r30 | r30df | r50 | r60 | r60df
deriving DecidableEq, Repr

/-- The reference state (R4 to R6). -/
inductive RefState where
  | free | locked | flywheel
deriving DecidableEq, Repr

/-- The action of a cue (R14). -/
inductive CueAction where
  | report
  | fire (salvo : Fin 16)
deriving DecidableEq, Repr

/-- The repeat field of a cue (R14). -/
inductive CueRepeat where
  | once | every
deriving DecidableEq, Repr

/-- The state of a cue (R14). -/
inductive CueState where
  | empty | armed | spent
deriving DecidableEq, Repr

/-- A cue record (R14).  `enables`: bit 0 H, bit 1 M, bit 2 S, bit 3 F. -/
structure Cue where
  label     : Label
  enables   : BitVec 4
  action    : CueAction
  repeats   : CueRepeat
  requester : Requester
  state     : CueState
deriving DecidableEq, Repr

/-- The RTU.  `now` is the model's own count of oscillator ticks since power-on, against which the expected instant E is
held; `count` is the frame scaler. -/
structure Rtu where
  rate     : Rate
  now      : Nat
  count    : Nat
  expected : Option Nat
  good     : Nat
  missing  : Nat
  ref      : RefState
  frame    : FrameIndex
  label    : Label
  jam      : Option Label
  cues     : Vector Cue 16
deriving DecidableEq, Repr

/-! ### Crosspoint Engine (Destinations and the Crosspoint Map; Takes, Salvos and the Switch Point) -/

/-- The entry states of R23's table of the map. -/
inductive EntryState where
  | unknown | known | uncertain | mismatch
deriving DecidableEq, Repr

/-- A map entry: the current source and why the engine believes it. -/
structure MapEntry where
  source : Source
  state  : EntryState
deriving DecidableEq, Repr

/-- The kind of a destination (R20). -/
inductive DestKind where
  | plain | onair | preview | iso | keyed | reentry
deriving DecidableEq, Repr

/-- A protect (R27). -/
structure Protect where
  level : Fin 4
  owner : Owner
deriving DecidableEq, Repr

/-- A destination record (R20). -/
structure Destination where
  present  : LevelMask
  kind     : DestKind
  reentry  : Option (Fin 128)
  redGpi   : Option (Fin 16)
  greenGpi : Option (Fin 16)
  entryV   : MapEntry
  entryA   : MapEntry
  entryB   : MapEntry
  protect  : Option Protect
  depth    : Bool
  loop     : Bool
deriving DecidableEq, Repr

/-- One crosspoint to be switched: a destination level and its source. -/
structure Crosspoint where
  dest   : Fin 64
  level  : Level
  source : Source
deriving DecidableEq, Repr

/-- A unit of the take queue (R41): the entries admitted by one request. -/
structure TakeUnit where
  due       : Option FrameIndex
  requester : Requester
  cause     : Cause
  salvo     : Option (Fin 16)
  entries   : List Crosspoint
deriving DecidableEq, Repr

/-- An entry of the armed set, marked with its late count (R53). -/
structure ArmedEntry where
  xpt       : Crosspoint
  requester : Requester
  cause     : Cause
  salvo     : Option (Fin 16)
  late      : Nat
deriving DecidableEq, Repr

/-- A salvo record that is defined (R46). -/
structure SalvoRecord where
  address : Nat
  count   : Nat
deriving DecidableEq, Repr

/-- Where the outcome of a fire request goes (R47): the waiting order, a panel key, a cue's CUE report stamped with the
matching frame, or nowhere (the order's strip was ended by an interface restart, R160). -/
inductive FireOrigin where
  | order
  | key (panel : Fin 24) (key : Fin 48)
  | cue (n : Fin 16) (frame : FrameIndex) (label : Label)
  | orphan
deriving DecidableEq, Repr

/-- A fire request whose salvo number and due form have passed (R47). -/
structure FireRequest where
  salvo     : Fin 16
  due       : Option FrameIndex
  requester : Requester
  cause     : Cause
  origin    : FireOrigin
deriving DecidableEq, Repr

/-- The read in progress in the salvo reader: its request, the record's address and count as taken at its beginning, and how many replaced
bytes (`State.replaced`) were listed then. -/
structure SalvoRead where
  request : FireRequest
  address : Nat
  count   : Nat
  mark    : Nat
deriving DecidableEq, Repr

/-- The order of a step group (R50). -/
inductive StepOrder where
  | linear | interleaved
deriving DecidableEq, Repr

/-- A step group (R50). -/
structure StepGroup where
  sources : Vector Source 4
  order   : StepOrder
deriving DecidableEq, Repr

/-- The XPE.  `reportWait` is the frame whose switch report is awaited (R52); `ackWait`, an arm message not yet
acknowledged (R55); `sweep`, the crosspoint of the READ outstanding while a sweep is in progress (R33); `pingWait`, a PING
not yet answered (R59); `reading` and `fires`, the salvo reader and the requests waiting behind it (R47). -/
structure Xpe where
  dests      : Vector Destination 64
  queue      : List TakeUnit
  armed      : List ArmedEntry
  link       : LinkState
  reportWait : Option FrameIndex
  ackWait    : Bool
  sweep      : Option (Fin 64 × Level)
  pingWait   : Bool
  salvos     : Vector (Option SalvoRecord) 16
  reading    : Option SalvoRead
  fires      : List FireRequest
  steps      : Vector StepGroup 8
deriving DecidableEq, Repr

/-! ### Tally Resolver (Tally Resolution; Tally Channels and the Tally Port) -/

/-- A GPI record (R64): the level at the last boundary sampled (true: ASSERTED) and the report flag. -/
structure Gpi where
  asserted : Bool
  reports  : Bool
deriving DecidableEq, Repr

/-- The frame inputs of the latest boundary (R63): its frame index, GPI sample and talk snapshot. -/
structure FrameInputs where
  frame    : FrameIndex
  sample   : BitVec 16
  snapshot : PortSet
deriving DecidableEq, Repr

/-- The lamp mode of a tally channel (R76). -/
inductive LampMode where
  | single | triple
deriving DecidableEq, Repr

/-- The polarity of a tally channel (R83): `upright` is the manual's TRUE. -/
inductive Polarity where
  | upright | inverted
deriving DecidableEq, Repr

/-- A tally channel record (R76). -/
structure Channel where
  source   : Option (Fin 128)
  mask     : ColourSet
  mode     : LampMode
  call     : Option (Fin 32)
  polarity : Polarity
  master   : Option (Fin 64)
  force    : Option ColourSet
deriving DecidableEq, Repr

/-- The TLY.  `prevDepth` and `prevLoop` are the flags of the previous resolution (R71), bit d for destination d;
`image` is the port image, the drive of each channel's four lines (set: ON); `portFrames` is the model's own count of port frames
sent since power-on. -/
structure Tly where
  tally      : Vector ColourSet 128
  gpi        : Vector Gpi 16
  inputs     : Option FrameInputs
  prevDepth  : BitVec 64
  prevLoop   : BitVec 64
  channels   : Vector Channel 64
  outputs    : Vector Lines 64
  image      : Vector Lines 64
  portFrames : Nat
deriving DecidableEq, Repr

/-! ### Talk Engine (Talk Keys; Talk Levels and the Talk Matrix) -/

/-- The kind of a talk port (R88). -/
inductive PortKind where
  | station | camera | ifb | line
deriving DecidableEq, Repr

/-- A talk port record (R88). -/
structure Port where
  kind    : PortKind
  outTrim : Int
  inTrim  : Int
  dim     : Int
  enable  : Bool
  isolate : Bool
deriving DecidableEq, Repr

/-- The selector position of an IFB record (R112). -/
inductive Selector where
  | d1 | d2
deriving DecidableEq, Repr

/-- An IFB record (R91).  It is defined when `port` is present; the other fields are held as the bytes written, because
an IFB_SET that undefines a record stores them unchecked. -/
structure Ifb where
  port     : Option (Fin 32)
  d1       : Byte
  d2       : Byte
  own      : Byte
  level    : Byte
  depth    : Byte
  selector : Selector
deriving DecidableEq, Repr

/-- The state of a talk key (R92). -/
inductive KeyState where
  | idle
  | pending (press : FrameIndex)
  | held | latched | closing
deriving DecidableEq, Repr

/-- An active talk path with the keys that give it (R101). -/
structure TalkPath where
  talker   : Fin 32
  listener : Fin 32
  keys     : List (Fin 24 × Fin 48)
deriving DecidableEq, Repr

/-- The value of a programme feed: port, coefficient and selector position (R111). -/
structure Feed where
  port     : Option (Fin 32)
  coeff    : BitVec 16
  selector : Selector
deriving DecidableEq, Repr

/-- The key of a coefficient queue entry (R114). -/
inductive TalkKey where
  | xpt (talker listener : Fin 32)
  | feed (i : Fin 8)
deriving DecidableEq, Repr

/-- The value of a coefficient queue entry (R114). -/
inductive TalkValue where
  | coeff (c : BitVec 16)
  | feed (f : Feed)
deriving DecidableEq, Repr

/-- An entry of the coefficient queue (R114). -/
structure TalkEntry where
  key   : TalkKey
  value : TalkValue
deriving DecidableEq, Repr

/-- What is in flight on the talk link: a write of an entry as it then stood, or a probe (R115, R116). -/
inductive Flight where
  | write (entry : TalkEntry)
  | probe
deriving DecidableEq, Repr

/-- The TKE.  `latchDue` is present when the boundary that began this frame has reached the TKE and its PENDING keys have not yet been
examined; it holds the auto-latch threshold of each panel as it stood at that boundary (R95; log entry 9). -/
structure Tke where
  ports    : Vector Port 32
  groups   : Vector PortSet 8
  ifbs     : Vector Ifb 8
  keys     : Vector (Vector KeyState 48) 24
  paths    : List TalkPath
  talking  : PortSet
  incoming : PortSet
  target   : Vector (Vector (BitVec 16) 32) 32
  feeds    : Vector Feed 8
  queue    : List TalkEntry
  link     : LinkState
  flight   : Option Flight
  fails    : Nat
  latchDue : Option (Vector Nat 24)
deriving DecidableEq, Repr

/-! ### Panel Network Controller (Panels and Panel Links) -/

/-- The state of a panel (R122). -/
inductive PanelState where
  | absent | joining | online | wrongModel | lost
deriving DecidableEq, Repr

/-- The router mode of a panel (R122). -/
inductive RouterMode where
  | direct | preset
deriving DecidableEq, Repr

/-- The functions of a key (R132). -/
inductive KeyFunction where
  | none | report | select | source | take | step | salvo | protect | talk
deriving DecidableEq, Repr

/-- A key assignment entry (R132): the function and the entry's bytes as written (the gain of a TALK entry as clamped). -/
structure KeyEntry where
  fn     : KeyFunction
  arg    : Byte
  target : Byte
  mask   : Byte
  mode   : Byte
  gain   : Byte
  lamp   : Byte
deriving DecidableEq, Repr

/-- A step walk (R134). -/
structure Walk where
  group  : Fin 8
  origin : Fin 4
  count  : Fin 4
deriving DecidableEq, Repr

/-- A selection record (R134).  `guard`: true is VALID. -/
structure Selection where
  dest   : Option (Fin 64 × LevelMask)
  preset : Option Source
  guard  : Bool
  walk   : Option Walk
deriving DecidableEq, Repr

/-- Everything the PNC holds for one panel: the panel record (R122), its key map (R132), its selection (R134), the lamp
image, lamp set, full-image flag and refusal-flash timers, whether a probe is due (R124), and whether the lamps are held: the panel has left ONLINE, or
had its map loaded while it was not ONLINE, and is not yet ONLINE (again) (R127, R133); and whether a take notice of this frame has broken its guard, so that
a press of TAKE may still be taken ahead of the notice (R136; the model's own, log entry 46). -/
structure Panel where
  enabled   : Bool
  model     : BitVec 16
  level     : Fin 4
  station   : Option (Fin 32)
  mode      : RouterMode
  threshold : Nat
  state     : PanelState
  missed    : Nat
  bit       : Bool
  map       : Vector KeyEntry 48
  selection : Selection
  image     : Vector Lamp 48
  lampSet   : List (Fin 48)
  full      : Bool
  timers    : Vector Nat 48
  probeDue  : Bool
  held      : Bool
  noticed   : Bool
deriving DecidableEq, Repr

/-- The message outstanding on a panel link (R128): a poll with what it carried, or a probe. -/
inductive Outstanding where
  | poll (panel : Fin 24) (ident : Bool) (bit : Bool) (full : Bool) (carried : List (Fin 48 × Lamp))
  | probe (panel : Fin 24) (ident : Bool)
deriving DecidableEq, Repr

/-- The poll state of a panel link: the outstanding message and the round position (0 is the lowest address). -/
structure PanelLink where
  out   : Option Outstanding
  round : Fin 6
deriving DecidableEq, Repr

/-- A KEYMAP_LOAD read in progress (R133).  `forOrder`: its outcome is still wanted by the running strip (R160); `mark`: how many replaced bytes
(`State.replaced`) were listed when it began. -/
structure MapRead where
  panel    : Fin 24
  address  : Nat
  forOrder : Bool
  mark     : Nat
deriving DecidableEq, Repr

/-- The PNC.  `flashEnds` lists the keys whose refusal-flash timer fell to 0 at the boundary that began this frame and whose
lamp has not yet been derived again (R141; log entry 9). -/
structure Pnc where
  panels    : Vector Panel 24
  links     : Vector PanelLink 4
  mapReads  : List MapRead
  flashEnds : List (Fin 24 × Fin 48)
deriving DecidableEq, Repr

/-! ### Common Store Interface (Orders and Strips; Journal, Mirrors and Notices) -/

/-- A window of the common store (R147). -/
structure Window where
  base : Nat
  size : Nat
deriving DecidableEq, Repr

/-- The anchor copy (R148, R149). -/
structure AnchorCopy where
  address   : Nat
  orders    : Window
  reports   : Window
  journal   : Nat
  mirror    : Nat
  threshold : Nat
deriving DecidableEq, Repr

/-- A slot in the post queue with the copy of its header taken at posting (R150, R151). -/
structure Posted where
  slot    : Fin 8
  stopOn  : Bool
  salvo   : Bool
  address : Nat
  count   : Nat
deriving DecidableEq, Repr

/-- The running strip (R153, R154): its slot, its next order, its counts, whether it stops after the order it is working on
(R152, R157), and, while that order's block answers later, the frame in which the block took it. -/
structure Running where
  slot      : Posted
  next      : Nat
  processed : Nat
  refused   : Nat
  stop      : Bool
  waiting   : Option FrameIndex
deriving DecidableEq, Repr

/-- The freeze state of the mirrors (R167). -/
inductive FreezeState where
  | live | freezing | frozen
deriving DecidableEq, Repr

/-- The mirror writer (R166).  `writing` is the mirror base of the rewrite in progress; `waiting`, the frame index and label of
the resolution whose rewrite waits behind it; `written`, the table entries as the previous rewrite left them. -/
structure Mirror where
  count    : BitVec 32
  writing  : Option Nat
  waiting  : Option (FrameIndex × Label)
  complete : Bool
  freeze   : FreezeState
  written  : List (Nat × List Byte)
deriving DecidableEq, Repr

/-- The CSI.  `notice`: bit 0 STRIP_DONE, 1 BAD_POST, 2 BAD_ANCHOR, 3 JOURNAL, 4 FROZEN. -/
structure Csi where
  anchor     : BitVec 22
  copy       : Option AnchorCopy
  posts      : List Posted
  running    : Option Running
  writeIndex : BitVec 8
  gap        : Nat
  saturated  : Bool
  mirror     : Mirror
  notice     : BitVec 5
deriving DecidableEq, Repr

/-- The held bits of CONTROL (R170). -/
structure Control where
  run    : Bool
  freeze : Bool
  mask   : BitVec 5
deriving DecidableEq, Repr

/-- The run states (Engine Run States). -/
inductive RunState where
  | halted | sweep | running | halting
deriving DecidableEq, Repr

/-- The common store as a list of (address, byte) pairs: addresses strictly rising and below `storeSize`, no byte equal to
`Config.blankByte`, which every unlisted address reads as. -/
abbrev Memory := List Host.Cell

/-- The whole machine.  `replaced` lists, oldest first, the bytes of the common store that writes have replaced while a salvo list or a key map was
being read, each with its address (R47, R133; log entry 17); `pending` is the queue of waiting commands, first in first out; `freeCount` is the
model's own count of free values used (log entry 3). -/
structure State where
  control   : Control
  runState  : RunState
  rtu       : Rtu
  xpe       : Xpe
  tly       : Tly
  tke       : Tke
  pnc       : Pnc
  csi       : Csi
  store     : Memory
  replaced  : List Host.Cell
  pending   : List Instr
  freeCount : Nat
deriving DecidableEq, Repr

/-! ### Values after power-on reset -/

/-- A cue after power-on reset (R19). -/
def Cue.reset : Cue :=
  { label := ⟨0, 0, 0, 0⟩, enables := 15, action := .report, repeats := .once, requester := ⟨.app 0, 0⟩, state := .empty }

/-- The RTU after power-on reset (R19). -/
def Rtu.reset : Rtu :=
  { rate := .r25, now := 0, count := 0, expected := none, good := 0, missing := 0, ref := .free, frame := 0,
    label := ⟨0, 0, 0, 0⟩, jam := none, cues := Vector.replicate 16 Cue.reset }

/-- A map entry after power-on reset (R35). -/
def MapEntry.reset : MapEntry := { source := .park, state := .unknown }

/-- A destination after power-on reset (R35). -/
def Destination.reset : Destination :=
  { present := 7, kind := .plain, reentry := none, redGpi := none, greenGpi := none, entryV := MapEntry.reset,
    entryA := MapEntry.reset, entryB := MapEntry.reset, protect := none, depth := false, loop := false }

/-- The XPE after power-on reset (R35, R61). -/
def Xpe.reset : Xpe :=
  { dests := Vector.replicate 64 Destination.reset, queue := [], armed := [], link := .down, reportWait := none,
    ackWait := false, sweep := none, pingWait := false, salvos := Vector.replicate 16 none, reading := none, fires := [],
    steps := Vector.replicate 8 { sources := Vector.replicate 4 .park, order := .linear } }

/-- A tally channel after power-on reset (R87). -/
def Channel.reset : Channel :=
  { source := none, mask := 7, mode := .single, call := none, polarity := .upright, master := none, force := none }

/-- The TLY after power-on reset (R74, R75, R87); the port frame sent at the reset (R86) is counted. -/
def Tly.reset : Tly :=
  { tally := Vector.replicate 128 0, gpi := Vector.replicate 16 { asserted := false, reports := false }, inputs := none,
    prevDepth := 0, prevLoop := 0, channels := Vector.replicate 64 Channel.reset, outputs := Vector.replicate 64 0,
    image := Vector.replicate 64 0, portFrames := 1 }

/-- A talk port after power-on reset (R106, R120). -/
def Port.reset : Port :=
  { kind := .station, outTrim := 0, inTrim := 0, dim := 0, enable := true, isolate := false }

/-- An IFB record after power-on reset (R106, R120): undefined, d1 0, d2 and own source absent (FEH), programme level 0, depth FULL
(FFH), selector D1. -/
def Ifb.reset : Ifb :=
  { port := none, d1 := 0, d2 := 0xFE, own := 0xFE, level := 0, depth := 0xFF, selector := .d1 }

/-- A programme feed with no port: coefficient 0, selector D1 (R111). -/
def Feed.silent : Feed := { port := none, coeff := 0, selector := .d1 }

/-- The TKE after power-on reset (R106, R121). -/
def Tke.reset : Tke :=
  { ports := Vector.replicate 32 Port.reset, groups := Vector.replicate 8 0, ifbs := Vector.replicate 8 Ifb.reset,
    keys := Vector.replicate 24 (Vector.replicate 48 .idle), paths := [], talking := 0, incoming := 0,
    target := Vector.replicate 32 (Vector.replicate 32 0), feeds := Vector.replicate 8 Feed.silent, queue := [],
    link := .up, flight := none, fails := 0, latchDue := none }

/-- A key assignment entry after power-on reset (R145). -/
def KeyEntry.reset : KeyEntry :=
  { fn := .none, arg := 0, target := 0, mask := 1, mode := 0, gain := 0, lamp := 0 }

/-- A selection record that holds nothing (R146). -/
def Selection.cleared : Selection := { dest := none, preset := none, guard := false, walk := none }

/-- A panel after power-on reset (R145, R146). -/
def Panel.reset : Panel :=
  { enabled := false, model := 0, level := 3, station := none, mode := .direct, threshold := 12, state := .absent,
    missed := 0, bit := false, map := Vector.replicate 48 KeyEntry.reset, selection := Selection.cleared,
    image := Vector.replicate 48 .off, lampSet := [], full := false, timers := Vector.replicate 48 0, probeDue := false,
    held := false, noticed := false }

/-- The PNC after power-on reset (R145, R146). -/
def Pnc.reset : Pnc :=
  { panels := Vector.replicate 24 Panel.reset, links := Vector.replicate 4 { out := none, round := 0 }, mapReads := [],
    flashEnds := [] }

/-- The mirror writer after power-on reset (R169). -/
def Mirror.reset : Mirror :=
  { count := 0, writing := none, waiting := none, complete := true, freeze := .live, written := [] }

/-- The CSI after power-on reset (R147, R160, R165, R169). -/
def Csi.reset : Csi :=
  { anchor := 0, copy := none, posts := [], running := none, writeIndex := 0, gap := 0, saturated := false,
    mirror := Mirror.reset, notice := 0 }

/-- The machine after power-on reset (R176): HALTED, CONTROL clear, every block at its power-on values, nothing listed in the
common store and no command waiting. -/
def State.reset : State :=
  { control := { run := false, freeze := false, mask := 0 }, runState := .halted, rtu := Rtu.reset, xpe := Xpe.reset,
    tly := Tly.reset, tke := Tke.reset, pnc := Pnc.reset, csi := Csi.reset, store := [], replaced := [], pending := [],
    freeCount := 0 }

end Sys2Proof.Machine
end

