-- ==== Sys2Proof/Machine/Ops.lean ====
section
/-! DEFINITION. The named operations every block uses: bytes and words, tables, the common store, NOTICE causes, and the
journal. -/

namespace Sys2Proof.Machine

/-! ### Bytes and words (Common Store Formats: multi-byte values are little-endian) -/

/-- The two bytes of a 16-bit value, low byte first. -/
def le16 (n : Nat) : List Byte := [BitVec.ofNat 8 n, BitVec.ofNat 8 (n / 256)]

/-- The four bytes of a 32-bit value, low byte first. -/
def le32 (n : Nat) : List Byte :=
  [BitVec.ofNat 8 n, BitVec.ofNat 8 (n / 256), BitVec.ofNat 8 (n / 65536), BitVec.ofNat 8 (n / 16777216)]

/-- One bit as a number. -/
def bit (b : Bool) : Nat := if b then 1 else 0

/-- Frame `f` minus frame `g`, read as a signed 32-bit value (About this manual, Conventions). -/
def frameDiff (f g : FrameIndex) : Int := (f - g).toInt

/-- The nearer end of the range `lo..hi` (R107, R158). -/
def clampInt (lo hi x : Int) : Int := if x < lo then lo else if hi < x then hi else x

/-- 1 when clamping to `lo..hi` changes the value: one field clamped (R158). -/
def clampedCount (lo hi x : Int) : Nat := if clampInt lo hi x = x then 0 else 1

/-- A number that names one of `n` things, or nothing. -/
def finOf (n : Nat) (x : Nat) : Option (Fin n) := if h : x < n then some ⟨x, h⟩ else none

/-! ### Tables -/

/-- A table with entry `i` replaced. -/
def upd {α : Type} {n : Nat} (v : Vector α n) (i : Fin n) (x : α) : Vector α n := v.set i.1 x i.2

/-- A table made of one entry per number. -/
def tabulate {α : Type} {n : Nat} (f : Fin n → α) : Vector α n := Vector.ofFn f

/-! ### The common store -/

/-- The byte at address `a`: the listed byte, or what unwritten store reads as. -/
def storeRead : Memory → Nat → Byte
  | [], _ => Config.blankByte
  | c :: m, a => if c.1 = a then c.2 else storeRead m a

/-- Puts byte `b` at address `a`, keeping the list's form. -/
def storeInsert : Memory → Nat → Byte → Memory
  | [], a, b => if b = Config.blankByte then [] else [(a, b)]
  | c :: m, a, b =>
    if a < c.1 then (if b = Config.blankByte then c :: m else (a, b) :: c :: m)
    else if a = c.1 then (if b = Config.blankByte then m else (a, b) :: m)
    else c :: storeInsert m a b

/-- Writes one byte.  Beyond the 4 MiB there is no byte to write. -/
def storeWrite (m : Memory) (a : Nat) (b : Byte) : Memory := if a < storeSize then storeInsert m a b else m

/-- Writes a run of bytes from address `a` upwards. -/
def storeWrites : Memory → Nat → List Byte → Memory
  | m, _, [] => m
  | m, a, b :: bs => storeWrites (storeWrite m a b) (a + 1) bs

/-- Reads a run of `n` bytes from address `a` upwards. -/
def storeReads (m : Memory) (a n : Nat) : List Byte := (List.range n).map (fun i => storeRead m (a + i))

/-- The 16-bit value at address `a`. -/
def storeRead16 (m : Memory) (a : Nat) : Nat := (storeRead m a).toNat + 256 * (storeRead m (a + 1)).toNat

/-- The 32-bit value at address `a`. -/
def storeRead32 (m : Memory) (a : Nat) : Nat := storeRead16 m a + 65536 * storeRead16 m (a + 2)

/-- The canonical form from address `lo` upwards: strictly rising, inside the store, no blank byte listed. -/
def wfFrom : Nat → Memory → Bool
  | _, [] => true
  | lo, c :: m => decide (lo ≤ c.1) && decide (c.1 < storeSize) && decide (c.2 ≠ Config.blankByte) && wfFrom (c.1 + 1) m

/-- The canonical form of the common store: equal contents are equal lists. -/
def Memory.wf (m : Memory) : Bool := wfFrom 0 m

/-- Writes a run of bytes of the common store. -/
def State.put (s : State) (a : Nat) (bs : List Byte) : State := { s with store := storeWrites s.store a bs }

/-- The control computer's writes to the common store, in the order it made them. -/
def hostWrite (m : Memory) : HostWrites → Memory
  | [] => m
  | c :: cs => hostWrite (storeWrite m c.1 c.2) cs

/-- The first of the control computer's writes that lies outside the common store. -/
def hostOutside : HostWrites → Option Nat
  | [] => none
  | c :: cs => if c.1 < storeSize then hostOutside cs else some c.1

/-! ### Lists that are read while they are written (R47, R133) -/

/-- The bytes that a run of writes replaces, oldest first, each with its address. -/
def replacedBy : Memory → List Host.Cell → List Host.Cell
  | _, [] => []
  | m, c :: cs => (c.1, storeRead m c.1) :: replacedBy (storeWrite m c.1 c.2) cs

/-- A salvo list or a key map is being read. -/
def State.reading (s : State) : Bool := s.xpe.reading.isSome || !s.pnc.mapReads.isEmpty

/-- Makes a run of writes to the common store; while a salvo list or key map is being read, the bytes they replace are listed. -/
def State.withWrites (s : State) (w : List Host.Cell) : State :=
  { s with store := hostWrite s.store w, replaced := if s.reading then s.replaced ++ replacedBy s.store w else s.replaced }

/-- The values that the byte at address `a` had and lost since a read began with `mark` replaced bytes listed, oldest first. -/
def State.lostSince (s : State) (mark a : Nat) : List Byte :=
  ((s.replaced.drop mark).filter fun c => decide (c.1 = a)).map fun c => c.2

/-- The byte at address `a` as a read that began with `mark` replaced bytes listed found it: where the byte was written during the read, the manual
leaves open whether the reader came before or after the write, and the moment is a free value (log entry 17). -/
def State.readByte (s : State) (mark a : Nat) : Byte :=
  match s.lostSince mark a with
  | [] => storeRead s.store a
  | b :: bs => (b :: bs).getD (Config.freeMoment s.freeCount a % (bs.length + 2)) (storeRead s.store a)

/-- A run of `n` bytes from address `a` as a read found it. -/
def State.readRun (s : State) (mark a n : Nat) : List Byte := (List.range n).map fun i => s.readByte mark (a + i)

/-- A read is over: its free values are used, and the list of replaced bytes goes when no other read is in progress. -/
def State.readOver (s : State) : State :=
  { s with replaced := if s.reading then s.replaced else [], freeCount := s.freeCount + 1 }

/-- Takes a register access of the control computer: its earlier writes to the common store first, then the access. -/
def landed (pre : HostWrites) (s : State) (access : State → State) : Host.Outcome State Fault Refusal :=
  match hostOutside pre with
  | some a => .fault (.outsideStore a)
  | none => .next (access (s.withWrites pre))

/-! ### Notices (R168) -/

/-- The five causes of the NOTICE register, in bit order. -/
inductive Notice where
  | stripDone | badPost | badAnchor | journal | frozen
deriving DecidableEq, Repr

/-- The bit of a cause. -/
def Notice.mask : Notice → BitVec 5
  | .stripDone => 1
  | .badPost => 2
  | .badAnchor => 4
  | .journal => 8
  | .frozen => 16

/-- Raises a cause: it becomes pending (R168). -/
def raise (n : Notice) (s : State) : State := { s with csi := { s.csi with notice := s.csi.notice ||| n.mask } }

/-! ### Encodings shared by the layouts (Common Store Formats) -/

/-- The byte of a source: 0..127, or FFH for PARK. -/
def Source.byte : Source → Byte
  | .park => 0xFF
  | .input n => BitVec.ofNat 8 n.1

/-- The source a byte names: 0..127, or FFH for PARK. -/
def sourceOf (x : Nat) : Option Source := if x = 255 then some .park else (finOf 128 x).map .input

/-- The number of a level: 0 V, 1 A, 2 B. -/
def Level.num : Level → Nat
  | .v => 0
  | .a => 1
  | .b => 2

/-- The level a byte names. -/
def levelOf (x : Nat) : Option Level :=
  if x = 0 then some .v else if x = 1 then some .a else if x = 2 then some .b else none

/-- The three levels in the order V, A, B. -/
def levels : List Level := [.v, .a, .b]

/-- Whether a mask holds a level. -/
def hasLevel (m : LevelMask) (l : Level) : Bool := m.getLsbD l.num

/-- The byte of an owner: 00H..17H for a panel, 80H..8FH for an application tag. -/
def Owner.byte : Owner → Byte
  | .panel n => BitVec.ofNat 8 n.1
  | .app t => BitVec.ofNat 8 (128 + t.1)

/-- The code byte of an outcome (Order records). -/
def Code.byte : Code → Byte
  | .done => 0x01
  | .doneClamped => 0x02
  | .queued => 0x03
  | .refusedKind => 0x10
  | .refusedArg => 0x11
  | .refusedAddress => 0x12
  | .refusedProtected => 0x13
  | .refusedNotOwner => 0x14
  | .refusedFull => 0x15
  | .refusedLate => 0x16
  | .refusedLabel => 0x17
  | .refusedSalvo => 0x18
  | .refusedStale => 0x19
  | .withdrawn => 0x20
  | .skipped => 0x21

/-- Whether a code is a refusal (R158). -/
def Code.isRefusal : Code → Bool
  | .refusedKind | .refusedArg | .refusedAddress | .refusedProtected | .refusedNotOwner | .refusedFull | .refusedLate
  | .refusedLabel | .refusedSalvo | .refusedStale => true
  | .done | .doneClamped | .queued | .withdrawn | .skipped => false

/-- The four bytes of a label. -/
def Label.bytes (l : Label) : List Byte :=
  [BitVec.ofNat 8 l.hh, BitVec.ofNat 8 l.mm, BitVec.ofNat 8 l.ss, BitVec.ofNat 8 l.ff]

/-- The code of an XPT report's cause. -/
def Cause.num : Cause → Nat
  | .take => 0
  | .salvo => 1
  | .cue => 2
  | .step => 3
  | .readback => 4

/-- The code of a panel state. -/
def PanelState.num : PanelState → Nat
  | .absent => 0
  | .joining => 1
  | .online => 2
  | .wrongModel => 3
  | .lost => 4

/-- The code of a reference state. -/
def RefState.num : RefState → Nat
  | .free => 0
  | .locked => 1
  | .flywheel => 2

/-- The code of a link state. -/
def LinkState.num : LinkState → Nat
  | .down => 0
  | .up => 1

/-! ### The journal (R161 to R164) -/

/-- The outcomes of a TAKE_DONE report (R57). -/
inductive TakeOutcome where
  | applied | mismatch | fabricFault | fabricTimeout | protectFailed | superseded | cancelled | dropped
deriving DecidableEq, Repr

/-- The code of a TAKE_DONE outcome. -/
def TakeOutcome.num : TakeOutcome → Nat
  | .applied => 1
  | .mismatch => 2
  | .fabricFault => 3
  | .fabricTimeout => 4
  | .protectFailed => 5
  | .superseded => 6
  | .cancelled => 7
  | .dropped => 8

/-- The action of a PROTECT report. -/
inductive ProtectAction where
  | set | cleared | demoted
deriving DecidableEq, Repr

/-- The code of a PROTECT action. -/
def ProtectAction.num : ProtectAction → Nat
  | .set => 0
  | .cleared => 1
  | .demoted => 2

/-- The wait of the fabric link that ran out (R58). -/
inductive FabricWait where
  | switchReport | armAck | readAnswer
deriving DecidableEq, Repr

/-- The code of a fabric wait. -/
def FabricWait.num : FabricWait → Nat
  | .switchReport => 0
  | .armAck => 1
  | .readAnswer => 2

/-- The report kinds of the journal, with the fields of each. -/
inductive Report where
  | key (panel : Fin 24) (key : Fin 48) (what : Byte)
  | takeDone (tag : Fin 16) (dest : Fin 64) (level : Level) (outcome : TakeOutcome) (late : Nat)
  | xpt (dest : Fin 64) (level : Level) (old new : Source) (cause : Cause)
  | protect (dest : Fin 64) (protect : Protect) (action : ProtectAction)
  | panel (panel : Fin 24) (state : PanelState)
  | cue (n : Fin 16) (result : Byte)
  | ref (state : RefState)
  | fabricDown (wait : FabricWait)
  | fabricUp
  | mismatch (dest : Fin 64) (level : Level) (armed : Option Source) (applied : Byte)
  | flag (dest : Fin 64) (loop : Bool) (value : Bool)
  | talkLink (state : LinkState)
  | gpi (input : Fin 16) (asserted : Bool)
  | gap (count : Nat) (saturated : Bool)
deriving DecidableEq, Repr

/-- The late count as a report carries it, saturating at 65535. -/
def lateField (n : Nat) : Nat := if n < 65535 then n else 65535

/-- The kind byte and the field bytes F1..F7 of a report (Journal records); fields not listed are 0.  DESIGN CHOICE: bits 7..1 of a GAP record's F3, for
which the layout gives no meaning, are 0 (log entry 57). -/
def Report.fields : Report → Byte × List Byte
  | .key p k w => (1, [BitVec.ofNat 8 p.1, BitVec.ofNat 8 k.1, w, 0, 0, 0, 0])
  | .takeDone t d l o n =>
    (2, [BitVec.ofNat 8 t.1, BitVec.ofNat 8 d.1, BitVec.ofNat 8 l.num, BitVec.ofNat 8 o.num,
      BitVec.ofNat 8 (lateField n), BitVec.ofNat 8 (lateField n / 256), 0])
  | .xpt d l o n c =>
    (3, [BitVec.ofNat 8 d.1, BitVec.ofNat 8 l.num, o.byte, n.byte, BitVec.ofNat 8 c.num, 0, 0])
  | .protect d p a => (4, [BitVec.ofNat 8 d.1, p.owner.byte, BitVec.ofNat 8 p.level.1, BitVec.ofNat 8 a.num, 0, 0, 0])
  | .panel p st => (5, [BitVec.ofNat 8 p.1, BitVec.ofNat 8 st.num, 0, 0, 0, 0, 0])
  | .cue n r => (6, [BitVec.ofNat 8 n.1, r, 0, 0, 0, 0, 0])
  | .ref st => (7, [BitVec.ofNat 8 st.num, 0, 0, 0, 0, 0, 0])
  | .fabricDown w => (8, [0, BitVec.ofNat 8 w.num, 0, 0, 0, 0, 0])
  | .fabricUp => (8, [1, 0, 0, 0, 0, 0, 0])
  | .mismatch d l armed applied =>
    (8, [2, BitVec.ofNat 8 d.1, BitVec.ofNat 8 l.num, (armed.map Source.byte).getD 0xFE, applied, 0, 0])
  | .flag d l v => (8, [3, BitVec.ofNat 8 d.1, BitVec.ofNat 8 (bit l), BitVec.ofNat 8 (bit v), 0, 0, 0])
  | .talkLink st => (9, [BitVec.ofNat 8 st.num, 0, 0, 0, 0, 0, 0])
  | .gpi n a => (10, [BitVec.ofNat 8 n.1, BitVec.ofNat 8 (bit a), 0, 0, 0, 0, 0])
  | .gap n sat => (11, [BitVec.ofNat 8 n, BitVec.ofNat 8 (n / 256), BitVec.ofNat 8 (bit sat), 0, 0, 0, 0])

/-- The 16 bytes of a journal record: the kind, F1..F3, the frame index, the label and F4..F7. -/
def Report.record (r : Report) (frame : FrameIndex) (label : Label) : List Byte :=
  r.fields.1 :: (r.fields.2.take 3 ++ le32 frame.toNat ++ label.bytes ++ r.fields.2.drop 3)

/-- The journal read index, as the anchor block holds it (R161). -/
def readIndex (c : AnchorCopy) (m : Memory) : BitVec 8 := storeRead m (c.address + 0x1C)

/-- The unread count (W - RI) modulo 256 (R161). -/
def unread (c : AnchorCopy) (s : State) : Nat := (s.csi.writeIndex - readIndex c s.store).toNat

/-- Writes one record at W, advances W, writes W into the anchor block and compares the new unread count with the notice
threshold (R161, R162, R164). -/
def putRecord (c : AnchorCopy) (rec : List Byte) (s : State) : State :=
  let m := storeWrites s.store (c.journal + 16 * s.csi.writeIndex.toNat) rec
  let w := s.csi.writeIndex + 1
  let s1 := { s with store := storeWrite m (c.address + 0x1E) w, csi := { s.csi with writeIndex := w } }
  if c.threshold ≤ unread c s1 then raise .journal s1 else s1

/-- Sets the gap count and saturated flag and writes the count into the anchor block (R162). -/
def setGap (c : AnchorCopy) (n : Nat) (sat : Bool) (s : State) : State :=
  { s with store := storeWrites s.store (c.address + 0x20) (le16 n), csi := { s.csi with gap := n, saturated := sat } }

/-- Hands a report, stamped with a frame index and label, to the CSI (R162): dropped while the anchor copy is not valid;
written at W; written behind a GAP record; or dropped and counted.  DESIGN CHOICE: a drop that finds the count at 65535 writes its two bytes at 20H
again, though the count does not change (log entry 56). -/
def report (r : Report) (frame : FrameIndex) (label : Label) (s : State) : State :=
  match s.csi.copy with
  | none => s
  | some c =>
    if s.csi.gap = 0 ∧ unread c s ≤ 254 then putRecord c (r.record frame label) s
    else if 0 < s.csi.gap ∧ unread c s ≤ 253 then
      putRecord c (r.record frame label)
        (setGap c 0 false (putRecord c ((Report.gap s.csi.gap s.csi.saturated).record frame label) s))
    else if s.csi.gap < 65535 then setGap c (s.csi.gap + 1) s.csi.saturated s
    else setGap c s.csi.gap true s

/-- A report stamped with the current frame and its label. -/
def reportNow (r : Report) (s : State) : State := report r s.rtu.frame s.rtu.label s

end Sys2Proof.Machine
end

