-- ==== Sys2Proof/Machine/Timecode.lean ====
section
/-! DEFINITION. Rates, timecode succession, label checks, label counts and due frames (R1, R9 to R11, R39, R40). -/

namespace Sys2Proof.Machine

/-- The frame period in oscillator ticks (Frame rates). -/
def Rate.period : Rate → Nat
  | .r24 => 1125000
  | .r25 => 1080000
  | .r30 => 900000
  | .r30df => 900900
  | .r50 => 540000
  | .r60 => 450000
  | .r60df => 450450

/-- The window half-width: one sixteenth of the period, any fraction of a tick dropped. -/
def Rate.halfWidth (r : Rate) : Nat := r.period / 16

/-- The half period, the limit used at relock (R6). -/
def Rate.halfPeriod (r : Rate) : Nat := r.period / 2

/-- The base rate R. -/
def Rate.base : Rate → Nat
  | .r24 => 24
  | .r25 => 25
  | .r30 | .r30df => 30
  | .r50 => 50
  | .r60 | .r60df => 60

/-- The labels skipped at the start of a minute, D. -/
def Rate.drop : Rate → Nat
  | .r30df => 2
  | .r60df => 4
  | .r24 | .r25 | .r30 | .r50 | .r60 => 0

/-- The day frames of a rate (R11): 86,400 × R − D × 1,296. -/
def Rate.dayFrames (r : Rate) : Nat := 86400 * r.base - r.drop * 1296

/-- The rate a rate code names (Anchor block). -/
def rateOf (x : Nat) : Option Rate :=
  if x = 0 then some .r24 else if x = 1 then some .r25 else if x = 2 then some .r30 else if x = 3 then some .r30df
  else if x = 4 then some .r50 else if x = 5 then some .r60 else if x = 6 then some .r60df else none

/-- The first label of the minute that begins when minute `mm` rises to `hh`:`mm` (R9, step 5). -/
def minuteStart (r : Rate) (hh mm : Nat) : Label :=
  { hh := hh, mm := mm, ss := 0, ff := if mm % 10 = 0 then 0 else r.drop }

/-- The successor of a label under a rate (R9). -/
def successor (r : Rate) (l : Label) : Label :=
  if l.ff + 1 < r.base then { l with ff := l.ff + 1 }
  else if l.ss + 1 < 60 then { l with ss := l.ss + 1, ff := 0 }
  else if l.mm + 1 < 60 then minuteStart r l.hh (l.mm + 1)
  else if l.hh + 1 < 24 then minuteStart r (l.hh + 1) 0
  else minuteStart r 0 0

/-- A label is well formed under a rate when each field lies in its range (R10). -/
def Label.wellFormed (r : Rate) (l : Label) : Bool :=
  decide (l.hh < 24) && decide (l.mm < 60) && decide (l.ss < 60) && decide (l.ff < r.base)

/-- A label that a drop-frame rate skips (R10). -/
def Label.skipped (r : Rate) (l : Label) : Bool :=
  decide (l.ss = 0) && decide (l.ff < r.drop) && decide (l.mm % 10 ≠ 0)

/-- The count of a label: its position in the day (R11). -/
def Label.count (r : Rate) (l : Label) : Nat :=
  r.base * (3600 * l.hh + 60 * l.mm + l.ss) + l.ff - r.drop * ((60 * l.hh + l.mm) - (60 * l.hh + l.mm) / 10)

/-- The two-step check of a label that an order carries (R10): the refusal code, or none. -/
def labelRefusal (r : Rate) (l : Label) : Option Code :=
  if l.wellFormed r then (if l.skipped r then some .refusedLabel else none) else some .refusedArg

/-- A label rewritten at a rate change (R2): ff clamped to R − 1, then moved to D where the clamped label is skipped. -/
def rewriteLabel (r : Rate) (l : Label) : Label :=
  let l1 := { l with ff := if l.ff < r.base then l.ff else r.base - 1 }
  if l1.skipped r then { l1 with ff := r.drop } else l1

/-- A due form (R37). -/
inductive DueForm where
  | now
  | atFrame (f : FrameIndex)
  | atLabel (l : Label)
deriving DecidableEq, Repr

/-- The frames from label `n` forward to label `l`, modulo the day frames (R40). -/
def labelDelta (r : Rate) (l n : Label) : Nat :=
  (((l.count r : Int) - (n.count r : Int)) % (r.dayFrames : Int)).toNat

/-- The due frame that a due form fixes, or the refusal it meets, for a request taken in frame `k` with label `n` (R39, R40).  A due
form outside its list is refused with REFUSED_ARG (R177). -/
def dueFrame (r : Rate) (k : FrameIndex) (n : Label) (form : Option DueForm) : Except Code (Option FrameIndex) :=
  match form with
  | none => .error .refusedArg
  | some .now => .ok none
  | some (.atFrame f) => if 2 ≤ frameDiff f k then .ok (some f) else .error .refusedLate
  | some (.atLabel l) =>
    match labelRefusal r l with
    | some c => .error c
    | none =>
      if labelDelta r l n ≤ 1 ∨ r.dayFrames < 2 * labelDelta r l n then .error .refusedLate
      else .ok (some (k + BitVec.ofNat 32 (labelDelta r l n)))

end Sys2Proof.Machine
end

