-- ==== Sys2Proof/Machine/Operands.lean ====
section
/-! DEFINITION. The layouts the engine reads: order records and their arguments, key assignment entries, salvo list entries, the
anchor block, slot headers and the link messages (Common Store Formats, R177, R178). -/

namespace Sys2Proof.Machine

/-! ### Order records -/

/-- The 32 bytes of an order record. -/
abbrev OrderRecord := List Byte

/-- Byte `i` of a record, as a number. -/
def ob (r : OrderRecord) (i : Nat) : Nat := (r.getD i 0).toNat

/-- Byte `i` of a record as a signed level step. -/
def signedAt (r : OrderRecord) (i : Nat) : Int := (r.getD i 0).toInt

/-- The 32-bit value at byte `i` of a record. -/
def ob32 (r : OrderRecord) (i : Nat) : Nat := ob r i + 256 * ob r (i + 1) + 65536 * ob r (i + 2) + 16777216 * ob r (i + 3)

/-- The label at byte `i` of a record. -/
def labelAt (r : OrderRecord) (i : Nat) : Label := ⟨ob r i, ob r (i + 1), ob r (i + 2), ob r (i + 3)⟩

/-- The kind byte. -/
def orderKind (r : OrderRecord) : Nat := ob r 0

/-- The requester of an order: its owner tag and privilege level; none when either is out of range (R154, step 3). -/
def orderRequester (r : OrderRecord) : Option Requester :=
  match finOf 16 (ob r 1), finOf 4 (ob r 2) with
  | some t, some l => some { owner := .app t, level := l }
  | _, _ => none

/-- A one-byte optional number below `n`: absent (FEH), present, or out of range (R177). -/
def optionalOf (n : Nat) (x : Nat) : Option (Option (Fin n)) :=
  if x = 254 then some none else (finOf n x).map some

/-- A non-empty level mask; an empty mask is out of range, and so (DEDUCED, log entry 20) is an unlisted bit. -/
def maskOf (x : Nat) : Option LevelMask := if 0 < x ∧ x < 8 then some (BitVec.ofNat 3 x) else none

/-- A colour set, which may be empty; DEDUCED: an unlisted bit is out of range (log entry 20). -/
def colourOf (x : Nat) : Option ColourSet := if x < 8 then some (BitVec.ofNat 3 x) else none

/-- A two-valued field: 0 or 1. -/
def flagOf (x : Nat) : Option Bool := if x = 0 then some false else if x = 1 then some true else none

/-- The due form of an order: the form at 07H and its value at 08H. -/
def dueFormOf (r : OrderRecord) : Option DueForm :=
  if ob r 7 = 0 then some .now
  else if ob r 7 = 1 then some (.atFrame (BitVec.ofNat 32 (ob32 r 8)))
  else if ob r 7 = 2 then some (.atLabel (labelAt r 8))
  else none

/-- The kind of a destination. -/
def destKindOf (x : Nat) : Option DestKind :=
  if x = 0 then some .plain else if x = 1 then some .onair else if x = 2 then some .preview else if x = 3 then some .iso
  else if x = 4 then some .keyed else if x = 5 then some .reentry else none

/-- The code of a destination's kind. -/
def DestKind.num : DestKind → Nat
  | .plain => 0
  | .onair => 1
  | .preview => 2
  | .iso => 3
  | .keyed => 4
  | .reentry => 5

/-- The configuration fields DEST_SET writes (R22). -/
structure DestConfig where
  present  : LevelMask
  kind     : DestKind
  reentry  : Option (Fin 128)
  redGpi   : Option (Fin 16)
  greenGpi : Option (Fin 16)
deriving DecidableEq, Repr

/-- The destination and configuration of a DEST_SET that passes the checks of R22. -/
def destSetArgs (r : OrderRecord) : Option (Fin 64 × DestConfig) := do
  let d ← finOf 64 (ob r 4)
  let m ← maskOf (ob r 5)
  let k ← destKindOf (ob r 6)
  let s ← optionalOf 128 (ob r 7)
  let red ← optionalOf 16 (ob r 8)
  let green ← optionalOf 16 (ob r 9)
  if k = .reentry ∧ s = none then none
  else some (d, { present := m, kind := k, reentry := s, redGpi := red, greenGpi := green })

/-- The cue and record fields of a CUE_SET that passes the REFUSED_ARG checks of R14 under a rate; the requester is filled from the
order. -/
def cueSetArgs (rate : Rate) (req : Requester) (r : OrderRecord) : Option (Fin 16 × Cue) := do
  let n ← finOf 16 (ob r 4)
  let act ← (if ob r 6 = 0 then some CueAction.report
    else if ob r 6 = 1 then (finOf 16 (ob r 7)).map CueAction.fire else none)
  let rep ← (if ob r 8 = 0 then some CueRepeat.once else if ob r 8 = 1 then some CueRepeat.every else none)
  let l := labelAt r 12
  let e := ob r 5
  if e = 0 ∨ 15 < e then none
  else if (e.testBit 0 ∧ 24 ≤ l.hh) ∨ (e.testBit 1 ∧ 60 ≤ l.mm) ∨ (e.testBit 2 ∧ 60 ≤ l.ss) ∨ (e.testBit 3 ∧ rate.base ≤ l.ff) then none
  else some (n, { label := l, enables := BitVec.ofNat 4 e, action := act, repeats := rep, requester := req, state := .armed })

/-- The group and record of a STEP_SET that passes the checks of R50. -/
def stepSetArgs (r : OrderRecord) : Option (Fin 8 × StepGroup) := do
  let g ← finOf 8 (ob r 4)
  let o ← (if ob r 5 = 0 then some StepOrder.linear else if ob r 5 = 1 then some StepOrder.interleaved else none)
  let s0 ← sourceOf (ob r 6)
  let s1 ← sourceOf (ob r 7)
  let s2 ← sourceOf (ob r 8)
  let s3 ← sourceOf (ob r 9)
  some (g, { sources := #v[s0, s1, s2, s3], order := o })

/-- The configuration fields PANEL_SET writes (R123), the threshold as given. -/
structure PanelConfig where
  enabled   : Bool
  level     : Fin 4
  station   : Option (Fin 32)
  mode      : RouterMode
  threshold : Nat
  model     : BitVec 16
deriving DecidableEq, Repr

/-- The panel and configuration of a PANEL_SET that passes the checks of R123. -/
def panelSetArgs (r : OrderRecord) : Option (Fin 24 × PanelConfig) := do
  let p ← finOf 24 (ob r 4)
  let en ← flagOf (ob r 5)
  let l ← finOf 4 (ob r 6)
  let st ← optionalOf 32 (ob r 7)
  let m ← (if ob r 8 = 0 then some RouterMode.direct else if ob r 8 = 1 then some RouterMode.preset else none)
  if l = 0 then none
  else some (p,
    { enabled := en, level := l, station := st, mode := m, threshold := ob r 9,
      model := BitVec.ofNat 16 (ob r 10 + 256 * ob r 11) })

/-- The lamp state a byte names. -/
def lampOfByte (x : Nat) : Option Lamp :=
  if x = 0 then some .off else if x = 1 then some .on else if x = 2 then some .flash else if x = 3 then some .alt else none

/-- The kind of a talk port. -/
def portKindOf (x : Nat) : Option PortKind :=
  if x = 0 then some .station else if x = 1 then some .camera else if x = 2 then some .ifb
  else if x = 3 then some .line else none

/-- The code of a talk port's kind. -/
def PortKind.num : PortKind → Nat
  | .station => 0
  | .camera => 1
  | .ifb => 2
  | .line => 3

/-- The port and record of a PORT_SET whose fields are in their lists, its level fields clamped (R89, R107), with the number of fields
clamped.  DEDUCED: a bit of 09H that the table gives to no field is out of range (log entry 20). -/
def portSetArgs (r : OrderRecord) : Option (Fin 32 × Port × Nat) := do
  let p ← finOf 32 (ob r 4)
  let k ← portKindOf (ob r 5)
  if 4 ≤ ob r 9 then none
  else some (p,
    { kind := k, outTrim := clampInt (-24) 24 (signedAt r 6), inTrim := clampInt (-60) 24 (signedAt r 7),
      dim := clampInt 0 60 (signedAt r 8), enable := (ob r 9).testBit 0, isolate := (ob r 9).testBit 1 },
    clampedCount (-24) 24 (signedAt r 6) + clampedCount (-60) 24 (signedAt r 7) + clampedCount 0 60 (signedAt r 8))

/-- The configuration fields TALLY_SET writes (R77). -/
structure ChannelConfig where
  source   : Option (Fin 128)
  mask     : ColourSet
  mode     : LampMode
  call     : Option (Fin 32)
  polarity : Polarity
  master   : Option (Fin 64)
deriving DecidableEq, Repr

/-- The channel and configuration of a TALLY_SET whose fields are in their lists (R77, checks 1 to 5). -/
def tallySetArgs (r : OrderRecord) : Option (Fin 64 × ChannelConfig) := do
  let c ← finOf 64 (ob r 4)
  let s ← optionalOf 128 (ob r 5)
  let m ← colourOf (ob r 6)
  let lm ← (if ob r 7 = 0 then some LampMode.single else if ob r 7 = 1 then some LampMode.triple else none)
  let call ← optionalOf 32 (ob r 8)
  let pol ← (if ob r 9 = 0 then some Polarity.upright else if ob r 9 = 1 then some Polarity.inverted else none)
  let ms ← optionalOf 64 (ob r 10)
  some (c, { source := s, mask := m, mode := lm, call := call, polarity := pol, master := ms })

/-- The channel and force value of a TALLY_FORCE (R78).  DEDUCED: with NONE the colour set at 06H is not read, so no code there refuses the order (log
entry 20). -/
def tallyForceArgs (r : OrderRecord) : Option (Fin 64 × Option ColourSet) := do
  let c ← finOf 64 (ob r 4)
  if ob r 5 = 0 then some (c, none)
  else if ob r 5 = 1 then (colourOf (ob r 6)).map (fun s => (c, some s))
  else none

/-! ### IFB records (R91): the bytes as held, read as numbers -/

/-- The programme destination d1. -/
def Ifb.dest1 (i : Ifb) : Option (Fin 64) := finOf 64 i.d1.toNat

/-- The alternate destination d2, if present. -/
def Ifb.dest2 (i : Ifb) : Option (Fin 64) := finOf 64 i.d2.toNat

/-- The own source, if present. -/
def Ifb.ownSource (i : Ifb) : Option (Fin 128) := finOf 128 i.own.toNat

/-- The interrupt depth: a number of level steps, or none for FULL (FFH). -/
def Ifb.depthSteps (i : Ifb) : Option Nat := if i.depth = 0xFF then none else some i.depth.toNat

/-! ### Key assignment entries (R132, R133) -/

/-- The target of a TALK key. -/
inductive TalkTarget where
  | port (p : Fin 32)
  | group (g : Fin 8)
  | ifb (i : Fin 8)
deriving DecidableEq, Repr

/-- The mode of a TALK key (R94). -/
inductive TalkMode where
  | momentary | latching | auto
deriving DecidableEq, Repr

/-- What a key does, read from its entry. -/
inductive KeyAction where
  | none
  | report (lamp : Lamp)
  | select (dest : Fin 64) (mask : LevelMask)
  | source (s : Source)
  | take
  | step (group : Fin 8)
  | salvo (n : Fin 16)
  | protect
  | talk (target : TalkTarget) (mode : TalkMode) (gain : Int)
deriving DecidableEq, Repr

/-- The target a TALK entry names. -/
def talkTargetOf (kind arg : Nat) : Option TalkTarget :=
  if kind = 0 then (finOf 32 arg).map .port
  else if kind = 1 then (finOf 8 arg).map .group
  else if kind = 2 then (finOf 8 arg).map .ifb
  else none

/-- The talk mode a byte names. -/
def talkModeOf (x : Nat) : Option TalkMode :=
  if x = 0 then some .momentary else if x = 1 then some .latching else if x = 2 then some .auto else none

/-- What an entry's function and the fields it uses say; none when one of them is out of range for the function (R133). -/
def KeyEntry.meaning (e : KeyEntry) : Option KeyAction :=
  match e.fn with
  | .none => some .none
  | .report => (lampOfByte e.lamp.toNat).map .report
  | .select =>
    match finOf 64 e.arg.toNat, maskOf e.mask.toNat with
    | some d, some m => some (.select d m)
    | _, _ => none
  | .source => (sourceOf e.arg.toNat).map .source
  | .take => some .take
  | .step => (finOf 8 e.arg.toNat).map .step
  | .salvo => (finOf 16 e.arg.toNat).map .salvo
  | .protect => some .protect
  | .talk =>
    match talkTargetOf e.target.toNat e.arg.toNat, talkModeOf e.mode.toNat with
    | some t, some m => some (.talk t m e.gain.toInt)
    | _, _ => none

/-- What a key does.  A loaded map holds only entries with a meaning. -/
def KeyEntry.action (e : KeyEntry) : KeyAction := e.meaning.getD .none

/-- The function a byte names. -/
def keyFunctionOf (x : Nat) : Option KeyFunction :=
  if x = 0 then some .none else if x = 1 then some .report else if x = 2 then some .select else if x = 3 then some .source
  else if x = 4 then some .take else if x = 5 then some .step else if x = 6 then some .salvo
  else if x = 7 then some .protect else if x = 8 then some .talk else none

/-- The gain byte of an entry as stored: clamped to −40..0 for a TALK entry, as written for the others (R107, R132). -/
def storedGain (fn : KeyFunction) (g : Byte) : Byte :=
  if fn = .talk then BitVec.ofInt 8 (clampInt (-40) 0 g.toInt) else g

/-- The entry in 16 bytes of a key map, or none when R133 refuses the map for it.  `noTalk`: the panel's station port is of kind
IFB. -/
def keyEntryOf (noTalk : Bool) (r : List Byte) : Option KeyEntry := do
  let fn ← keyFunctionOf (ob r 0)
  let e : KeyEntry :=
    { fn := fn, arg := r.getD 1 0, target := r.getD 2 0, mask := r.getD 3 0, mode := r.getD 4 0,
      gain := storedGain fn (r.getD 5 0), lamp := r.getD 6 0 }
  if fn = .talk ∧ noTalk = true then none
  else if e.meaning.isSome then some e else none

/-- 1 when the key gain of an entry is clamped. -/
def gainClamped (r : List Byte) : Nat :=
  if keyFunctionOf (ob r 0) = some .talk then clampedCount (-40) 0 (signedAt r 5) else 0

/-! ### Salvo lists (R46, R47) -/

/-- One take of a salvo list or SALVO strip: destination, mask and source as written. -/
structure RawTake where
  dest   : Nat
  mask   : Nat
  source : Nat
deriving DecidableEq, Repr

/-- A 16-byte salvo list entry. -/
def salvoEntryOf (r : List Byte) : RawTake := { dest := ob r 0, mask := ob r 1, source := ob r 2 }

/-- The take of a TAKE order record. -/
def orderTakeOf (r : OrderRecord) : RawTake := { dest := ob r 4, mask := ob r 5, source := ob r 6 }

/-! ### Anchor block and slot headers (R147, R150) -/

/-- What the engine reads of the anchor block at a start. -/
structure AnchorBlock where
  rateCode  : Nat
  orders    : Window
  reports   : Window
  journal   : Nat
  mirror    : Nat
  readIndex : Nat
  threshold : Nat
deriving DecidableEq, Repr

/-- The anchor block at an address. -/
def anchorBlockAt (m : Memory) (a : Nat) : AnchorBlock :=
  { rateCode := (storeRead m a).toNat
    orders := ⟨storeRead32 m (a + 0x04), storeRead32 m (a + 0x08)⟩
    reports := ⟨storeRead32 m (a + 0x0C), storeRead32 m (a + 0x10)⟩
    journal := storeRead32 m (a + 0x14)
    mirror := storeRead32 m (a + 0x18)
    readIndex := (storeRead m (a + 0x1C)).toNat
    threshold := (storeRead m (a + 0x1D)).toNat }

/-- The run `base .. base + size` lies wholly inside a window. -/
def Window.holds (w : Window) (base size : Nat) : Bool := decide (w.base ≤ base) && decide (base + size ≤ w.base + w.size)

/-- Two runs share no byte. -/
def disjointRuns (a m b n : Nat) : Bool := decide (a + m ≤ b) || decide (b + n ≤ a)

/-- A window's base and size are multiples of 64, its size is not zero, and it lies inside the store (R148, check 3). -/
def Window.sound (w : Window) : Bool :=
  decide (w.base % 64 = 0) && decide (w.size % 64 = 0) && decide (0 < w.size) && decide (w.base + w.size ≤ storeSize)

/-- The size of the anchor block. -/
abbrev anchorSize : Nat := 192

/-- The size of the journal ring. -/
abbrev journalSize : Nat := 4096

/-- The size of the mirror tables. -/
abbrev mirrorSize : Nat := 3008

/-- The checks of a start (R148), in the manual's order. -/
def anchorChecks (a : Nat) (b : AnchorBlock) : Bool :=
  (decide (a % 64 = 0) && decide (a + anchorSize ≤ storeSize)) &&
  (rateOf b.rateCode).isSome &&
  (b.orders.sound && b.reports.sound) &&
  disjointRuns b.orders.base b.orders.size b.reports.base b.reports.size &&
  b.reports.holds a anchorSize &&
  (decide (b.journal % 64 = 0) && b.reports.holds b.journal journalSize) &&
  (decide (b.mirror % 64 = 0) && b.reports.holds b.mirror mirrorSize) &&
  (disjointRuns a anchorSize b.journal journalSize && disjointRuns a anchorSize b.mirror mirrorSize &&
    disjointRuns b.journal journalSize b.mirror mirrorSize) &&
  (decide (1 ≤ b.threshold) && decide (b.threshold ≤ 255) && decide (b.readIndex ≤ 255))

/-- The address of the header of a slot. -/
def slotAddress (c : AnchorCopy) (slot : Fin 8) : Nat := c.address + 0x40 + 16 * slot.1

/-- The post of a slot that its header describes, when it may be posted (R151): READY, a count of 1..256, an address that is a
multiple of 32 and a list wholly inside the order window. -/
def postable (c : AnchorCopy) (m : Memory) (slot : Fin 8) : Option Posted :=
  let h := slotAddress c slot
  let flags := (storeRead m (h + 1)).toNat
  let count := storeRead16 m (h + 2)
  let address := storeRead32 m (h + 4)
  if storeRead m h = 1 ∧ 1 ≤ count ∧ count ≤ 256 ∧ address % 32 = 0 ∧ c.orders.holds address (32 * count) = true then
    some { slot := slot, stopOn := flags.testBit 0, salvo := flags.testBit 1, address := address, count := count }
  else none

/-! ### Link messages (R178) -/

/-- A message of the router. -/
inductive FabricMessage where
  | armAck
  | switchReport (lines : List ReportLine)
  | readAnswer (dest level number : Byte)
  | pingAnswer
deriving DecidableEq, Repr

/-- The lines of a switch report; none when the length does not agree with the count. -/
def reportLines : Nat → List Byte → Option (List ReportLine)
  | 0, [] => some []
  | n + 1, d :: l :: r :: x :: rest =>
    (reportLines n rest).map (fun t => { dest := d, level := l, fault := r != 0, number := x } :: t)
  | _, _ => none

/-- The router message in a run of bytes; none when its type is unknown or its length does not agree with its count (R178).  DESIGN CHOICE: an ARM ACK, a
READ ANSWER or a PING ANSWER, which carry no count, with bytes over or missing is no message and is ignored whole (log entry 23).  DESIGN CHOICE: the count,
destination, level, result and source number take one byte each (log entry 55). -/
def fabricMessage : List Byte → Option FabricMessage
  | [] => none
  | t :: rest =>
    if t = 0x90 then (if rest = [] then some .armAck else none)
    else if t = 0x91 then
      match rest with
      | [] => none
      | n :: body => if n.toNat ≤ 48 then (reportLines n.toNat body).map .switchReport else none
    else if t = 0x92 then
      match rest with
      | [d, l, x] => some (.readAnswer d l x)
      | _ => none
    else if t = 0x93 then (if rest = [] then some .pingAnswer else none)
    else none

/-- A message of the matrix: true for ACK, false for REFUSE.  DESIGN CHOICE: either with further bytes is no message and is ignored whole, though it carries
no count for R178 to judge by (log entry 23). -/
def talkMessage (m : List Byte) : Option Bool :=
  if m = [0xA0] then some true else if m = [0xA1] then some false else none

/-- A message of a panel. -/
inductive PanelMessage where
  | probeAnswer (address : Byte) (code : BitVec 16)
  | reply (r : PanelReply)
deriving DecidableEq, Repr

/-- The key events of a reply; none when the length does not agree with the count.  DESIGN CHOICE: such a reply is no message (log entry 23). -/
def replyEvents : Nat → List Byte → Option (List KeyEvent)
  | 0, [] => some []
  | n + 1, k :: e :: rest =>
    match flagOf e.toNat, replyEvents n rest with
    | some release, some t => some ({ key := k, press := !release } :: t)
    | _, _ => none
  | _, _ => none

/-- A 16-bit value in two bytes, low byte first. -/
def word16 (lo hi : Byte) : BitVec 16 := BitVec.ofNat 16 (lo.toNat + 256 * hi.toNat)

/-- The panel message in a run of bytes; `ident` says whether the poll outstanding asks for the model code.  DESIGN CHOICE: a run whose
length does not agree with its layout or its count of events is no message, and is ignored whole (R178 says so of the fabric and talk links only; log
entry 23).  DESIGN CHOICE: the address, the echoed bit, the count, the key number and PRESS or RELEASE take one byte each, the model code two (log entry 55). -/
def panelMessage (ident : Bool) : List Byte → Option PanelMessage
  | [] => none
  | t :: rest =>
    if t = 0x81 then
      match rest with
      | [a, lo, hi] => some (.probeAnswer a (word16 lo hi))
      | _ => none
    else if t = 0x83 then
      match ident, rest with
      | false, a :: e :: n :: body =>
        match flagOf e.toNat, replyEvents n.toNat body with
        | some echo, some ev => some (.reply { address := a, echo := echo, code := none, events := ev })
        | _, _ => none
      | true, a :: e :: lo :: hi :: n :: body =>
        match flagOf e.toNat, replyEvents n.toNat body with
        | some echo, some ev => some (.reply { address := a, echo := echo, code := some (word16 lo hi), events := ev })
        | _, _ => none
      | _, _ => none
    else none

end Sys2Proof.Machine
end

