-- ==== Sys2Proof/Machine/Flags.lean ====
section
/-! DEFINITION. What the control computer reads in the registers, and the interrupt line: views computed from the state (R168, R170, R171,
Registers). -/

namespace Sys2Proof.Machine

/-- The number of a run state in STATUS. -/
def RunState.num : RunState → Nat
  | .halted => 0
  | .sweep => 1
  | .running => 2
  | .halting => 3

/-- The STATUS register (R171), laid out as Common Store Formats gives.  DESIGN CHOICE: bits 15..9 and 31..27, which its table does not list, read 0 (log
entry 54). -/
def State.status (s : State) : BitVec 32 :=
  BitVec.ofNat 32 (s.runState.num + 4 * bit s.csi.copy.isSome + 8 * s.rtu.ref.num + 32 * s.xpe.link.num
    + 64 * bit s.xpe.sweep.isSome + 128 * s.tke.link.num + 256 * bit (decide (s.csi.mirror.freeze = .frozen))
    + 65536 * s.tke.queue.length)

/-- The CONTROL register as it reads back (R170): RUN, FREEZE and the mask; ERS and IRS read 0.  DESIGN CHOICE: bits 7..4 and 31..13, which the table
does not list, read 0 (log entry 54). -/
def State.controlWord (s : State) : BitVec 32 :=
  BitVec.ofNat 32 (bit s.control.run + 2 * bit s.control.freeze + 256 * s.control.mask.toNat)

/-- The NOTICE register (R168).  DESIGN CHOICE: bits 31..5, which the table does not list, read 0 (log entry 54). -/
def State.noticeWord (s : State) : BitVec 32 := s.csi.notice.zeroExtend 32

/-- The ANCHOR register: bits 31..22 read back as 0. -/
def State.anchorWord (s : State) : BitVec 32 := s.csi.anchor.zeroExtend 32

/-- The interrupt line (R168): asserted while any pending cause has its bit set in the enable mask. -/
def State.interrupt (s : State) : Bool := s.csi.notice &&& s.control.mask != 0

/-- SWEEP or RUNNING: the run states in which strips start, panels are probed and their events are taken. -/
def State.serving (s : State) : Bool := decide (s.runState = .sweep) || decide (s.runState = .running)

end Sys2Proof.Machine
end

