-- ==== Sys2Proof/Machine/Talk.lean ====
section
/-! DEFINITION. Talk paths, levels and the talk link: the derivation of the derived sets (R100 to R102), the level law (R108 to R111),
selectors (R112), the coefficient queue (R113, R114) and the talk link (R115 to R118). -/

namespace Sys2Proof.Machine

/-! ### Ports, panels and keys -/

/-- The panel record of panel `p`. -/
def State.panel (s : State) (p : Fin 24) : Panel := s.pnc.panels[p]

/-- Replaces the record of panel `p`. -/
def State.setPanel (s : State) (p : Fin 24) (x : Panel) : State := { s with pnc := { s.pnc with panels := upd s.pnc.panels p x } }

/-- The state of key `k` of panel `p`. -/
def State.keyState (s : State) (p : Fin 24) (k : Fin 48) : KeyState := s.tke.keys[p][k]

/-- What key `k` of panel `p` does, by its assignment entry. -/
def State.keyAction (s : State) (p : Fin 24) (k : Fin 48) : KeyAction := (s.panel p).map[k].action

/-- The active states: PENDING, HELD and LATCHED (R92). -/
def KeyState.active : KeyState → Bool
  | .pending _ => true
  | .held => true
  | .latched => true
  | .idle => false
  | .closing => false

/-- A station port is usable when it is present and not of kind IFB (R92). -/
def State.usableStation (s : State) (p : Fin 24) : Bool :=
  match (s.panel p).station with
  | none => false
  | some a => decide (s.tke.ports[a].kind ≠ .ifb)

/-- A port set from its members. -/
def portSetOf (f : Fin 32 → Bool) : PortSet := BitVec.ofFnLE f

/-- Membership of a port in a set. -/
def hasPort (ps : PortSet) (p : Fin 32) : Bool := ps.getLsbD p.1

/-- The target set of a talk key, from the tables as they stand (R100). -/
def State.targetSet (s : State) : TalkTarget → PortSet
  | .port p => portSetOf (fun q => decide (q = p))
  | .group g => s.tke.groups[g]
  | .ifb i =>
    match s.tke.ifbs[i].port with
    | none => 0
    | some p => portSetOf (fun q => decide (q = p))

/-- An active key as a derivation sees it. -/
structure ActiveKey where
  station : Fin 32
  panel   : Fin 24
  key     : Fin 48
  targets : PortSet
  gain    : Int
deriving DecidableEq, Repr

/-- The active keys of a panel that has a station port. -/
def State.activeKeysOf (s : State) (p : Fin 24) : List ActiveKey :=
  match (s.panel p).station with
  | none => []
  | some a =>
    (List.finRange 48).filterMap fun k =>
      if (s.keyState p k).active then
        match s.keyAction p k with
        | .talk t _ g => some { station := a, panel := p, key := k, targets := s.targetSet t, gain := g }
        | _ => some { station := a, panel := p, key := k, targets := 0, gain := 0 }
      else none

/-- The active keys of every panel. -/
def State.activeKeys (s : State) : List ActiveKey := (List.finRange 24).flatMap s.activeKeysOf

/-! ### The derived sets (R101, R102) -/

/-- The active keys that give a path from `a` to `b`. -/
def givingKeys (act : List ActiveKey) (a b : Fin 32) : List ActiveKey :=
  act.filter fun k => decide (k.station = a) && hasPort k.targets b

/-- The path from `a` to `b`, when it is active (R101). -/
def pathOf (ports : Vector Port 32) (act : List ActiveKey) (a b : Fin 32) : Option TalkPath :=
  if a ≠ b ∧ givingKeys act a b ≠ [] ∧ ports[a].enable = true ∧ ports[b].isolate = false then
    some { talker := a, listener := b, keys := (givingKeys act a b).map fun k => (k.panel, k.key) }
  else none

/-- Every active path, by talker and then by listener. -/
def pathsOf (ports : Vector Port 32) (act : List ActiveKey) : List TalkPath :=
  (List.finRange 32).flatMap fun a => (List.finRange 32).filterMap fun b => pathOf ports act a b

/-- The talking set (R102). -/
def talkingOf (act : List ActiveKey) : PortSet := portSetOf fun a => act.any fun k => decide (k.station = a)

/-- The incoming-talk set (R102). -/
def incomingOf (paths : List TalkPath) : PortSet := portSetOf fun b => paths.any fun p => decide (p.listener = b)

/-- Finds the derived sets afresh and replaces them (R103). -/
def deriveSets (s : State) : State :=
  { s with tke :=
    { s.tke with
      paths := pathsOf s.tke.ports s.activeKeys
      talking := talkingOf s.activeKeys
      incoming := incomingOf (pathsOf s.tke.ports s.activeKeys) } }

/-! ### The level law (R108 to R110) -/

/-- The table M of the level law (R110). -/
def lawTable : List Nat := [16384, 17355, 18383, 19472, 20626, 21848, 23143, 24514, 25967, 27506, 29135, 30862]

/-- The level law for a level in −120..+24 (R110). -/
def levelLaw (g : Int) : Nat :=
  let q := g / 12
  let m := lawTable.getD (g % 12).toNat 0
  if 0 ≤ q then min 65535 (m * 2 ^ q.toNat) else (m + 2 ^ ((-q).toNat - 1)) / 2 ^ (-q).toNat

/-- The coefficient of a raw sum: clamped to +24 above, OFF below −120 (R109), else by the law. -/
def coefficient (g : Int) : BitVec 16 := if g < -120 then 0 else BitVec.ofNat 16 (levelLaw (if 24 < g then 24 else g))

/-- The key gain of a path: the largest among its giving keys (R108). -/
def State.pathGain (s : State) (p : TalkPath) : Int :=
  match p.keys.map (fun k => match s.keyAction k.1 k.2 with | .talk _ _ g => g | _ => 0) with
  | [] => 0
  | g :: gs => gs.foldl max g

/-- The raw sum of a path (R108): dim applies when the listener is talking. -/
def State.rawSum (s : State) (p : TalkPath) : Int :=
  s.tke.ports[p.talker].outTrim + s.pathGain p + s.tke.ports[p.listener].inTrim
    - (if hasPort s.tke.talking p.listener then s.tke.ports[p.listener].dim else 0)

/-- The coefficient the level law gives a crosspoint for the derived sets (R108, R113): 0 without an active path. -/
def State.xptCoeff (s : State) (a b : Fin 32) : BitVec 16 :=
  match s.tke.paths.find? (fun p => decide (p.talker = a) && decide (p.listener = b)) with
  | none => 0
  | some p => coefficient (s.rawSum p)

/-- The coefficient of a defined record's programme feed (R111). -/
def State.feedCoeff (s : State) (i : Ifb) (port : Fin 32) : BitVec 16 :=
  let g := i.level.toInt + s.tke.ports[port].inTrim
  if hasPort s.tke.incoming port then
    match i.depthSteps with
    | none => 0
    | some d => coefficient (g - d)
  else coefficient g

/-- The programme feed of record `i` (R111). -/
def State.feedValue (s : State) (i : Fin 8) : Feed :=
  match s.tke.ifbs[i].port with
  | none => Feed.silent
  | some p => { port := some p, coeff := s.feedCoeff s.tke.ifbs[i] p, selector := s.tke.ifbs[i].selector }

/-! ### The target table and the coefficient queue (R113, R114) -/

/-- Enters a key with its value: an entry for the key takes the value in place, or a new entry is added at the tail (R114). -/
def enterKey (q : List TalkEntry) (e : TalkEntry) : List TalkEntry :=
  if q.any (fun x => decide (x.key = e.key)) then q.map (fun x => if x.key = e.key then e else x) else q ++ [e]

/-- The 1,024 crosspoints in the fixed order of R113. -/
def allXpts : List (Fin 32 × Fin 32) := (List.finRange 32).flatMap fun a => (List.finRange 32).map fun b => (a, b)

/-- The queue entry of a crosspoint. -/
def xptEntry (a b : Fin 32) (c : BitVec 16) : TalkEntry := { key := .xpt a b, value := .coeff c }

/-- The queue entry of a feed. -/
def feedEntry (i : Fin 8) (f : Feed) : TalkEntry := { key := .feed i, value := .feed f }

/-- The crosspoints whose new value differs from the target table, as queue entries in the fixed order. -/
def State.changedXpts (s : State) : List TalkEntry :=
  allXpts.filterMap fun x =>
    if s.tke.target[x.1][x.2] = s.xptCoeff x.1 x.2 then none else some (xptEntry x.1 x.2 (s.xptCoeff x.1 x.2))

/-- The feeds among `which` whose new value differs from the target table, as queue entries in order. -/
def State.changedFeeds (s : State) (which : Fin 8 → Bool) : List TalkEntry :=
  (List.finRange 8).filterMap fun i =>
    if which i = true ∧ s.tke.feeds[i] ≠ s.feedValue i then some (feedEntry i (s.feedValue i)) else none

/-- Recomputes every crosspoint of the target table, entering those that changed into the queue (R113). -/
def enterXpts (s : State) : State :=
  { s with tke :=
    { s.tke with
      target := tabulate fun a => tabulate fun b => s.xptCoeff a b
      queue := s.changedXpts.foldl enterKey s.tke.queue } }

/-- Recomputes the feeds among `which`, entering those that changed into the queue (R113). -/
def enterFeeds (which : Fin 8 → Bool) (s : State) : State :=
  { s with tke :=
    { s.tke with
      feeds := tabulate fun i => if which i then s.feedValue i else s.tke.feeds[i]
      queue := (s.changedFeeds which).foldl enterKey s.tke.queue } }

/-- Recomputes the whole target table from the state as it stands without entering any key (R121, engine reset). -/
def retarget (s : State) : State :=
  { s with tke :=
    { s.tke with target := tabulate fun a => tabulate fun b => s.xptCoeff a b, feeds := tabulate fun i => s.feedValue i } }

/-- A full refresh (R117): every crosspoint and every feed is entered with its value in the target table. -/
def fullRefresh (s : State) : State :=
  { s with tke :=
    { s.tke with
      queue := (allXpts.map (fun x => xptEntry x.1 x.2 s.tke.target[x.1][x.2])
        ++ (List.finRange 8).map (fun i => feedEntry i s.tke.feeds[i])).foldl enterKey s.tke.queue } }

/-- While the talk link is UP and nothing is in flight, the head entry is written at once; in HALTED no write is made (R115,
R118). -/
def talkSend (s : State) : State :=
  match s.tke.queue with
  | [] => s
  | e :: _ =>
    if s.tke.link = .up ∧ s.tke.flight = none ∧ s.runState ≠ .halted then
      { s with tke := { s.tke with flight := some (.write e) } }
    else s

/-- The retry a DOWN link makes at a boundary in SWEEP, RUNNING or HALTING: the head entry, or a probe when the queue is empty
(R116). -/
def talkRetry (s : State) : State :=
  if s.tke.link = .down ∧ s.tke.flight = none ∧ s.runState ≠ .halted then
    { s with tke := { s.tke with flight := some (match s.tke.queue with | [] => .probe | e :: _ => .write e) } }
  else s

/-! ### Selectors (R112) -/

/-- The source a map entry gives its readers: none when UNKNOWN (R24). -/
def MapEntry.gives (e : MapEntry) : Option Source := if e.state = .unknown then none else some e.source

/-- The map entry of a destination at a level. -/
def Destination.entry (d : Destination) : Level → MapEntry
  | .v => d.entryV
  | .a => d.entryA
  | .b => d.entryB

/-- A destination with the map entry of a level replaced. -/
def Destination.setEntry (d : Destination) (l : Level) (e : MapEntry) : Destination :=
  match l with
  | .v => { d with entryV := e }
  | .a => { d with entryA := e }
  | .b => { d with entryB := e }

/-- The selector position of a defined record, from the map (R112). -/
def State.selectorOf (s : State) (i : Ifb) : Selector :=
  match i.dest1, i.dest2, i.ownSource with
  | some d1, some _, some own =>
    if hasLevel s.xpe.dests[d1].present .a = true ∧ s.xpe.dests[d1].entryA.gives = some (.input own) then .d2 else .d1
  | _, _, _ => .d1

/-- Evaluates the selector of every defined record, recomputes their feeds and lets the link write (R112, R113). -/
def evaluateSelectors (s : State) : State :=
  let s1 := { s with tke :=
    { s.tke with ifbs := tabulate fun i =>
      if s.tke.ifbs[i].port.isSome then { s.tke.ifbs[i] with selector := s.selectorOf s.tke.ifbs[i] } else s.tke.ifbs[i] } }
  talkSend (enterFeeds (fun i => s1.tke.ifbs[i].port.isSome) s1)

/-! ### Answers on the talk link (R115 to R118) -/

/-- The head entry leaves the queue when its value is the one that was written (R115). -/
def dropWritten (e : TalkEntry) (q : List TalkEntry) : List TalkEntry :=
  match q with
  | [] => []
  | h :: t => if h = e then t else h :: t

/-- The queue after a flight succeeds: a written entry leaves if unchanged, a probe changes nothing. -/
def afterFlight (f : Flight) (q : List TalkEntry) : List TalkEntry :=
  match f with
  | .write e => dropWritten e q
  | .probe => q

/-- What is in flight has been acknowledged: the count of failures is 0, and a written entry has left the queue if it still stood as written. -/
def landFlight (f : Flight) (s : State) : State :=
  { s with tke := { s.tke with flight := none, fails := 0, queue := afterFlight f s.tke.queue } }

/-- The talk link becomes UP, with a TALK_LINK report (R117). -/
def talkLinkUp (s : State) : State := reportNow (.talkLink .up) { s with tke := { s.tke with link := .up } }

/-- The matrix acknowledges what is in flight (R115, R117): on an UP link the written entry leaves or is written again; on a DOWN link
the retry brings the link UP with a TALK_LINK report and a full refresh.  DESIGN CHOICE: an ACK names no attempt, so one that comes as this row
is within the 200 us of the attempt in flight; one that is late for its attempt, which R115 ignores, comes as TALK_MESSAGE_IGNORED with its flag late,
whatever is in flight then (log entry 42). -/
def talkAcknowledged (s : State) : State :=
  match s.tke.flight with
  | none => s
  | some f =>
    if s.tke.link = .up then talkSend (landFlight f s) else talkSend (fullRefresh (talkLinkUp (landFlight f s)))

/-- An attempt fails (R115, R116): the same entry is written again after the first and second failure; the third takes the link DOWN; a
failed retry of a DOWN link leaves everything as it was. -/
def talkFailed (s : State) : State :=
  match s.tke.flight with
  | none => s
  | some _ =>
    let s1 := { s with tke := { s.tke with flight := none } }
    if s.tke.link = .down then s1
    else if s.tke.fails + 1 < 3 then talkSend { s1 with tke := { s1.tke with fails := s.tke.fails + 1 } }
    else reportNow (.talkLink .down) { s1 with tke := { s1.tke with fails := 0, link := .down } }

end Sys2Proof.Machine
end

