-- ==== Sys2Proof/Machine/Lamps.lean ====
section
/-! DEFINITION. Panel lamps and what re-derives them (R104, R129, R141, R142), a whole derivation with its hand-over to the lamps (R103),
force-offs (R97) and changes of the selection record (R134, R136). -/

namespace Sys2Proof.Machine

/-! ### The lamp of a key (R104, R142) -/

/-- The first of V, A and B that is both in a mask and present at a destination (R142). -/
def firstLevel (m p : LevelMask) : Option Level := levels.find? fun l => hasLevel m l && hasLevel p l

/-- The source that is current for a selection (R142). -/
def State.currentSource (s : State) (sel : Selection) : Option Source :=
  match sel.dest with
  | none => none
  | some (d, m) =>
    match firstLevel m s.xpe.dests[d].present with
    | none => none
    | some l => (s.xpe.dests[d].entry l).gives

/-- Whether the source tally table gives a source the colour R; PARK has no colours. -/
def State.sourceRed (s : State) : Source → Bool
  | .park => false
  | .input n => s.tly.tally[n].getLsbD 0

/-- Whether an entry of a salvo number is in the take queue or the armed set (R41). -/
def State.salvoActive (s : State) (n : Fin 16) : Bool :=
  s.xpe.queue.any (fun u => decide (u.salvo = some n) && !u.entries.isEmpty) || s.xpe.armed.any (fun a => decide (a.salvo = some n))

/-- A path is active from some port of a talk target's set to the station port of a panel (R104). -/
def State.calledBy (s : State) (p : Fin 24) (t : TalkTarget) : Bool :=
  match (s.panel p).station with
  | none => false
  | some a => s.tke.paths.any fun x => decide (x.listener = a) && hasPort (s.targetSet t) x.talker

/-- The lamp of a talk key (R104): an IDLE or CLOSING key on a panel with no usable station port is OFF. -/
def State.talkLamp (s : State) (p : Fin 24) (k : Fin 48) (t : TalkTarget) : Lamp :=
  if (s.keyState p k).active then .on
  else if s.usableStation p = true ∧ s.calledBy p t = true then .flash
  else .off

/-- The lamp of a PROTECT key (R142). -/
def State.protectLamp (s : State) (p : Fin 24) : Lamp :=
  match (s.panel p).selection.dest with
  | none => .off
  | some (d, _) =>
    match s.xpe.dests[d].protect with
    | none => .off
    | some x => if x.owner = .panel p then .on else .flash

/-- The lamp of a SOURCE key (R142). -/
def State.sourceLamp (s : State) (p : Fin 24) (x : Source) : Lamp :=
  if (s.panel p).selection.preset = some x then .flash
  else if s.currentSource (s.panel p).selection = some x then (if s.sourceRed x then .alt else .on)
  else .off

/-- The lamp a key's function gives it (R142). -/
def State.functionLamp (s : State) (p : Fin 24) (k : Fin 48) : Lamp :=
  match s.keyAction p k with
  | .none => .off
  | .report l => l
  | .select d m => if (s.panel p).selection.dest = some (d, m) then .on else .off
  | .source x => s.sourceLamp p x
  | .take => if (s.panel p).selection.preset.isSome then .flash else .off
  | .step g => if (s.panel p).selection.walk.map Walk.group = some g then .on else .off
  | .salvo n => if s.salvoActive n then .on else .off
  | .protect => s.protectLamp p
  | .talk t _ _ => s.talkLamp p k t

/-- The lamp of a key: a running refusal flash overrides what its function gives (R141, R142). -/
def State.lampOf (s : State) (p : Fin 24) (k : Fin 48) : Lamp :=
  if 0 < (s.panel p).timers[k] then .flash else s.functionLamp p k

/-! ### Deriving lamps (R129, R142) -/

/-- The lamp image of a panel with the keys among `which` derived. -/
def State.relit (s : State) (p : Fin 24) (which : Fin 48 → Bool) : Vector Lamp 48 :=
  tabulate fun k => if which k then s.lampOf p k else (s.panel p).image[k]

/-- The keys of a panel whose lamp an image changes and that are not yet in the lamp set. -/
def newlyChanged (x : Panel) (image : Vector Lamp 48) : List (Fin 48) :=
  (List.finRange 48).filter fun k => decide (image[k] ≠ x.image[k]) && !x.lampSet.contains k

/-- A panel with a new lamp image: each key whose state differs enters the lamp set at its tail, once (R129).  DESIGN CHOICE: keys that one derivation
changes together enter by rising key number (log entry 41). -/
def Panel.withImage (x : Panel) (image : Vector Lamp 48) : Panel :=
  { x with image := image, lampSet := x.lampSet ++ newlyChanged x image }

/-- Derives the lamps of the keys among `which` of one panel (R142). -/
def relight (p : Fin 24) (which : Fin 48 → Bool) (s : State) : State :=
  s.setPanel p ((s.panel p).withImage (s.relit p which))

/-- Derives every lamp of a panel if it is ONLINE. -/
def derivePanel (p : Fin 24) (s : State) : State :=
  if (s.panel p).state = .online then relight p (fun _ => true) s else s

/-- Does something for every panel, lowest number first. -/
def forPanels (f : Fin 24 → State → State) (s : State) : State := (List.finRange 24).foldl (fun s p => f p s) s

/-- Derives the lamps of every ONLINE panel. -/
def deriveLamps (s : State) : State := forPanels derivePanel s

/-- Relights the talk keys of an ONLINE panel from the paths handed over (R103, step 2). -/
def relightTalk (p : Fin 24) (s : State) : State :=
  if (s.panel p).state = .online then relight p (fun k => decide ((s.panel p).map[k].fn = .talk)) s else s

/-! ### Derivations and force-offs (R97, R103) -/

/-- A derivation (R103): the derived sets afresh, the changed coefficients into the queue, the link's write, then the talk lamps. -/
def derivation (s : State) : State :=
  forPanels relightTalk (talkSend (enterFeeds (fun _ => true) (enterXpts (deriveSets s))))

/-- Puts the keys among `which` into IDLE as one change, dropping their press frames. -/
def idleKeys (which : Fin 24 → Fin 48 → Bool) (s : State) : State :=
  { s with tke :=
    { s.tke with keys := tabulate fun p => tabulate fun k => if which p k then .idle else s.tke.keys[p][k] } }

/-- Whether any key among `which` is not IDLE. -/
def anyBusy (which : Fin 24 → Fin 48 → Bool) (s : State) : Bool :=
  (List.finRange 24).any fun p => (List.finRange 48).any fun k => which p k && decide (s.keyState p k ≠ .idle)

/-- A force-off (R97): the keys become IDLE together, and one derivation follows when at least one changed (R103). -/
def forceOff (which : Fin 24 → Fin 48 → Bool) (s : State) : State :=
  if anyBusy which s then derivation (idleKeys which s) else s

/-- Every key of one panel. -/
def ofPanel (p : Fin 24) : Fin 24 → Fin 48 → Bool := fun q _ => decide (q = p)

/-! ### Selections, guards and refusals (R134, R136, R141) -/

/-- A change of a panel's selection record, after which its lamps are derived again (R134). -/
def reselect (p : Fin 24) (f : Selection → Selection) (s : State) : State :=
  derivePanel p (s.setPanel p { s.panel p with selection := f (s.panel p).selection })

/-- A selection with its preset removed and so its guard broken. -/
def Selection.noPreset (x : Selection) : Selection := { x with preset := none, guard := false }

/-- A selection with its step walk cleared. -/
def Selection.noWalk (x : Selection) : Selection := { x with walk := none }

/-- Whether a take notice for destination `d` from `owner` breaks the guard of panel `p` (R136). -/
def State.guardBroken (s : State) (d : Fin 64) (owner : Owner) (p : Fin 24) : Bool :=
  decide ((s.panel p).mode = .preset) && decide (owner ≠ .panel p) && (s.panel p).selection.guard
    && (s.panel p).selection.preset.isSome && decide ((s.panel p).selection.dest.map Prod.fst = some d)

/-- A take notice breaks the guard of one panel (R136), which a press of TAKE in this frame may still be taken ahead of. -/
def breakGuard (p : Fin 24) (s : State) : State :=
  reselect p (fun x => { x with guard := false }) (s.setPanel p { s.panel p with noticed := true })

/-- A take notice (R44, R136).  DESIGN CHOICE: it breaks the guards in the step that admits the unit; a press of TAKE that is taken ahead of it comes as a
REPLY that says so (log entry 46). -/
def takeNotice (owner : Owner) (d : Fin 64) (s : State) : State :=
  forPanels (fun p s => if s.guardBroken d owner p then breakGuard p s else s) s

/-- A refusal of a request that a panel key made (R140, R141): the key's timer is set to 16, its lamp in the image is FLASH, whatever the panel's state
(DEDUCED, log entry 30), and a KEY report carries the refusal code.  DEDUCED: the report has the frame in which the refusal reaches the PNC, also where
the press came in an earlier one (log entry 48). -/
def refuseKey (p : Fin 24) (k : Fin 48) (c : Code) (s : State) : State :=
  let s1 := s.setPanel p { s.panel p with timers := upd (s.panel p).timers k 16 }
  reportNow (.key p k c.byte) (relight p (fun j => decide (j = k)) s1)

end Sys2Proof.Machine
end

