-- ==== Sys2Proof/Machine/Takes.lean ====
section
/-! DEFINITION. Take requests, the take queue, protects, the load and the map (R23 to R31, R37 to R45, R48, R51, R53, R54, R56,
R57). -/

namespace Sys2Proof.Machine

/-! ### Protects (R27 to R31) -/

/-- A requester at a level beats a protect when its level is numerically below the protect level (R27). -/
def beats (level : Fin 4) (p : Protect) : Bool := decide (level < p.level)

/-- Whether a protect lets a requester through: it is absent, or the requester is its owner or beats it (R38, R54). -/
def protectAllows (p : Option Protect) (owner : Owner) (level : Fin 4) : Bool :=
  match p with
  | none => true
  | some x => decide (x.owner = owner) || beats level x

/-- The destination record of destination `d`. -/
def State.dest (s : State) (d : Fin 64) : Destination := s.xpe.dests[d]

/-- Replaces the record of destination `d`. -/
def State.setDest (s : State) (d : Fin 64) (x : Destination) : State := { s with xpe := { s.xpe with dests := upd s.xpe.dests d x } }

/-- A PROTECT request (R28). -/
def requestProtect (d : Fin 64) (r : Requester) (s : State) : State × Code :=
  if protectAllows (s.dest d).protect r.owner r.level then
    (reportNow (.protect d ⟨r.level, r.owner⟩ .set) (s.setDest d { s.dest d with protect := some ⟨r.level, r.owner⟩ }), .done)
  else (s, .refusedProtected)

/-- A RELEASE request (R29). -/
def requestRelease (d : Fin 64) (r : Requester) (s : State) : State × Code :=
  match (s.dest d).protect with
  | none => (s, .done)
  | some p =>
    if protectAllows (some p) r.owner r.level then
      (reportNow (.protect d p .cleared) (s.setDest d { s.dest d with protect := none }), .done)
    else (s, .refusedNotOwner)

/-- Clears one destination's protect when a panel owns it at a level numerically below its new level (R31). -/
def demoteDest (p : Fin 24) (level : Fin 4) (d : Fin 64) (s : State) : State :=
  match (s.dest d).protect with
  | none => s
  | some x =>
    if x.owner = .panel p ∧ x.level < level then
      reportNow (.protect d x .demoted) (s.setDest d { s.dest d with protect := none })
    else s

/-- A demotion request (R31).  DESIGN CHOICE: the destinations, and so their PROTECT reports, are taken from 0 to 63 (log entry 41). -/
def demote (p : Fin 24) (level : Fin 4) (s : State) : State :=
  (List.finRange 64).foldl (fun s d => demoteDest p level d s) s

/-! ### The take queue (R41, R42) -/

/-- The number of entries in a run of units. -/
def entryCount (q : List TakeUnit) : Nat := (q.map fun u => u.entries.length).sum

/-- A crosspoint is for a destination level. -/
def Crosspoint.isFor (x : Crosspoint) (d : Fin 64) (l : Level) : Bool := decide (x.dest = d) && decide (x.level = l)

/-- Removes the entries that satisfy `out`; a unit left with no entries disappears (R42, R45). -/
def removeEntries (out : Crosspoint → Bool) (q : List TakeUnit) : List TakeUnit :=
  (q.map fun u => { u with entries := u.entries.filter fun x => !out x }).filter fun u => !u.entries.isEmpty

/-- The queue entries, each with its unit. -/
def queuedEntries (q : List TakeUnit) : List (TakeUnit × Crosspoint) := q.flatMap fun u => u.entries.map fun x => (u, x)

/-- The queued entry for a destination level, with its unit. -/
def queuedFor (q : List TakeUnit) (d : Fin 64) (l : Level) : Option (TakeUnit × Crosspoint) :=
  (queuedEntries q).find? fun e => e.2.isFor d l

/-- A TAKE_DONE report for an entry, when its requester is an application tag (R57). -/
def takeDone (r : Requester) (x : Crosspoint) (o : TakeOutcome) (late : Nat) (s : State) : State :=
  match r.owner with
  | .panel _ => s
  | .app t => reportNow (.takeDone t x.dest x.level o late) s

/-- Whether a new unit takes the place of an entry: it names the entry's destination level. -/
def replaces (new : List Crosspoint) (x : Crosspoint) : Bool := new.any fun n => x.isFor n.dest n.level

/-- The queue after the entries that a new unit supersedes are removed and the unit is appended (R42). -/
def admittedQueue (q : List TakeUnit) (u : TakeUnit) : List TakeUnit := removeEntries (replaces u.entries) q ++ [u]

/-- The entries that a new unit supersedes (R42).  DESIGN CHOICE: they, and so their SUPERSEDED reports, come in the order of the new unit's entries (log
entry 41). -/
def supersededBy (q : List TakeUnit) (new : List Crosspoint) : List (TakeUnit × Crosspoint) :=
  new.filterMap fun n => queuedFor q n.dest n.level

/-- The destinations a unit touches, each once, in the order of its entries (R44). -/
def touchedDests (new : List Crosspoint) : List (Fin 64) := new.foldl (fun ds x => if ds.contains x.dest then ds else ds ++ [x.dest]) []

/-- Admits a unit that has passed its other checks, or refuses it with REFUSED_FULL (R42, R44).  DESIGN CHOICE: the reports of the entries it supersedes
come in the order of its own entries (log entry 41).  DESIGN CHOICE: the take notices are dealt with in the admitting step, and a TAKE press taken between the
admission and the notice comes as a REPLY that says so (R136; log entry 46). -/
def admitUnit (u : TakeUnit) (s : State) : State × Code :=
  if 64 < entryCount (admittedQueue s.xpe.queue u) then (s, .refusedFull)
  else
    let s1 := { s with xpe := { s.xpe with queue := admittedQueue s.xpe.queue u } }
    let s2 := (supersededBy s.xpe.queue u.entries).foldl (fun s e => takeDone e.1.requester e.2 .superseded 0 s) s1
    ((touchedDests u.entries).foldl (fun s d => takeNotice u.requester.owner d s) s2, .queued)

/-- The entries of one take at the levels of its mask that its destination has (R38, check 2; R41).  DESIGN CHOICE: they stand in the unit in the order
V, A, B (log entry 41). -/
def takeEntries (dests : Vector Destination 64) (d : Fin 64) (m : LevelMask) (x : Source) : List Crosspoint :=
  (levels.filter fun l => hasLevel m l && hasLevel dests[d].present l).map fun l => { dest := d, level := l, source := x }

/-- A decision with the number of entries admitted: 0 unless the unit was QUEUED. -/
def withCount (n : Nat) (x : State × Code) : State × Code × Nat := (x.1, x.2, if x.2 = .queued then n else 0)

/-- A single take whose destination, mask and source exist (R38, checks 2 to 5), with the number of entries admitted. -/
def requestTake (d : Fin 64) (m : LevelMask) (x : Source) (form : Option DueForm) (r : Requester) (c : Cause) (s : State) :
    State × Code × Nat :=
  let es := takeEntries s.xpe.dests d m x
  if es = [] then (s, .refusedArg, 0)
  else
    match dueFrame s.rtu.rate s.rtu.frame s.rtu.label form with
    | .error e => (s, e, 0)
    | .ok due =>
      if protectAllows (s.dest d).protect r.owner r.level then
        withCount es.length (admitUnit { due := due, requester := r, cause := c, salvo := none, entries := es } s)
      else (s, .refusedProtected, 0)

/-- Removes the queued entries for a destination at the levels of a mask, each with TAKE_DONE CANCELLED (R23, R45); with the number
removed.  DESIGN CHOICE: the reports are made in queue order, head first (log entry 41). -/
def cancelEntries (d : Fin 64) (m : LevelMask) (s : State) : State × Nat :=
  let out := (queuedEntries s.xpe.queue).filter fun e => decide (e.2.dest = d) && hasLevel m e.2.level
  let s1 := { s with xpe :=
    { s.xpe with queue := removeEntries (fun x => decide (x.dest = d) && hasLevel m x.level) s.xpe.queue } }
  (out.foldl (fun s e => takeDone e.1.requester e.2 .cancelled 0 s) s1, out.length)

/-! ### Salvo lists (R47 to R49) -/

/-- The entries of one take of a salvo list; none when R47 refuses the list for it. -/
def rawEntries (dests : Vector Destination 64) (t : RawTake) : Option (List Crosspoint) :=
  match finOf 64 t.dest, maskOf t.mask, sourceOf t.source with
  | some d, some m, some x => if takeEntries dests d m x = [] then none else some (takeEntries dests d m x)
  | _, _, _ => none

/-- The entries of a whole salvo list, none when one take is refused.  DESIGN CHOICE: they stand in the unit take by take in the list's order, each
take's levels V, A, B (log entry 41). -/
def listEntries (dests : Vector Destination 64) : List RawTake → Option (List Crosspoint)
  | [] => some []
  | t :: ts =>
    match rawEntries dests t, listEntries dests ts with
    | some a, some b => some (a ++ b)
    | _, _ => none

/-- No two entries are for the same destination level. -/
def distinctEntries : List Crosspoint → Bool
  | [] => true
  | x :: xs => xs.all (fun y => !y.isFor x.dest x.level) && distinctEntries xs

/-- The checks of a salvo list (R47): the entries of the salvo, or none for REFUSED_SALVO. -/
def salvoEntries (dests : Vector Destination 64) (ts : List RawTake) : Option (List Crosspoint) :=
  match listEntries dests ts with
  | none => none
  | some es => if distinctEntries es = true ∧ es.length ≤ 48 then some es else none

/-- A salvo whose list has passed R47 is decided against protects and the queue (R48), with the number of entries admitted. -/
def decideSalvo (es : List Crosspoint) (due : Option FrameIndex) (r : Requester) (c : Cause) (n : Option (Fin 16)) (s : State) :
    State × Code × Nat :=
  if es.all (fun x => protectAllows (s.dest x.dest).protect r.owner r.level) then
    withCount es.length (admitUnit { due := due, requester := r, cause := c, salvo := n, entries := es } s)
  else (s, .refusedProtected, 0)

/-! ### Step groups (R50, R51) -/

/-- The position a walk reaches at step `n` from its origin (R50). -/
def stepPosition (o : StepOrder) (origin : Fin 4) (n : Nat) : Fin 4 :=
  match o with
  | .linear => Fin.ofNat 4 (origin.1 + n)
  | .interleaved => Fin.ofNat 4 (origin.1 ^^^ (n % 4))

/-- The lowest position of a group that holds the destination's current V source, or none (R51). -/
def State.walkOrigin (s : State) (g : Fin 8) (d : Fin 64) : Option (Fin 4) :=
  if hasLevel (s.dest d).present .v then
    match (s.dest d).entryV.gives with
    | none => none
    | some x => (List.finRange 4).find? fun i => decide (s.xpe.steps[g].sources[i] = x)
  else none

/-! ### The load (R53 to R55) -/

/-- The level a requester has now: a panel's is the one in its record (R54). -/
def State.levelNow (s : State) (r : Requester) : Fin 4 :=
  match r.owner with
  | .panel p => (s.panel p).level
  | .app _ => r.level

/-- Every entry of a unit passes protection as it stands now (R54). -/
def State.unitAllowed (s : State) (u : TakeUnit) : Bool :=
  u.entries.all fun x => protectAllows (s.dest x.dest).protect u.requester.owner (s.levelNow u.requester)

/-- A unit is due for boundary `k` (R53): NOW, or its due frame is at or before `k`. -/
def dueFor (k : FrameIndex) (u : TakeUnit) : Bool :=
  match u.due with
  | none => true
  | some f => decide (0 ≤ frameDiff k f)

/-- The late count of a unit loaded for boundary `k` (R53). -/
def lateCount (k : FrameIndex) (u : TakeUnit) : Nat :=
  match u.due with
  | none => 0
  | some f => (frameDiff k f).toNat

/-- The entries of a unit as the armed set takes them. -/
def armedEntries (k : FrameIndex) (u : TakeUnit) : List ArmedEntry :=
  u.entries.map fun x => { xpt := x, requester := u.requester, cause := u.cause, salvo := u.salvo, late := lateCount k u }

/-- What a load does with the queue: the units that stay, the entries that are armed, and the units that protection removes. -/
structure LoadPlan where
  kept    : List TakeUnit
  armed   : List ArmedEntry
  removed : List TakeUnit
deriving DecidableEq, Repr

/-- The walk of a load for boundary `k` with `used` entries armed so far (R53, R54): a unit not due is passed over; one that protection
stops is removed; one that fits is armed whole; the first due unit that does not fit stops the load. -/
def planLoad (allowed : TakeUnit → Bool) (k : FrameIndex) : Nat → List TakeUnit → LoadPlan
  | _, [] => { kept := [], armed := [], removed := [] }
  | used, u :: us =>
    if dueFor k u = false then
      { planLoad allowed k used us with kept := u :: (planLoad allowed k used us).kept }
    else if allowed u = false then
      { planLoad allowed k used us with removed := u :: (planLoad allowed k used us).removed }
    else if used + u.entries.length ≤ 48 then
      { planLoad allowed k (used + u.entries.length) us with
        armed := armedEntries k u ++ (planLoad allowed k (used + u.entries.length) us).armed }
    else { kept := u :: us, armed := [], removed := [] }

/-- The TAKE_DONE reports of a unit's entries.  DESIGN CHOICE: they are made in the order of the unit's entries (log entry 41). -/
def unitDone (o : TakeOutcome) (u : TakeUnit) (s : State) : State := u.entries.foldl (fun s x => takeDone u.requester x o 0 s) s

/-- The load for boundary `k` (R53): made when RUNNING with the link UP, no sweep and the armed set empty; an arm message is sent, and its
acknowledgement awaited, when an entry is armed; an empty load sends none and ends no wait (R55). -/
def load (k : FrameIndex) (s : State) : State :=
  if s.runState = .running ∧ s.xpe.link = .up ∧ s.xpe.sweep = none ∧ s.xpe.armed = [] then
    let p := planLoad s.unitAllowed k 0 s.xpe.queue
    p.removed.foldl (fun s u => unitDone .protectFailed u s)
      { s with xpe := { s.xpe with queue := p.kept, armed := p.armed, ackWait := s.xpe.ackWait || !p.armed.isEmpty } }
  else s

/-! ### The map (R25, R26, R56) -/

/-- Changes a map entry and makes the XPT report when its current source changes (R25, R26). -/
def setMapEntry (d : Fin 64) (l : Level) (e : MapEntry) (c : Cause) (s : State) : State :=
  let old := ((s.dest d).entry l).source
  let s1 := s.setDest d ((s.dest d).setEntry l e)
  if e.source = old then s1 else reportNow (.xpt d l old e.source c) s1

/-- A mismatch (R25): the entry becomes MISMATCH, taking the number's source if it names one, with a FABRIC report.  DESIGN CHOICE: the XPT report of
a changed source comes before the FABRIC report (log entry 41). -/
def mapMismatch (d : Fin 64) (l : Level) (armed : Option Source) (x : Byte) (c : Cause) (s : State) : State :=
  let src := (sourceOf x.toNat).getD ((s.dest d).entry l).source
  reportNow (.mismatch d l armed x) (setMapEntry d l ⟨src, .mismatch⟩ c s)

/-- The first line of a switch report for a destination level (R56). -/
def lineFor (lines : List ReportLine) (d : Fin 64) (l : Level) : Option ReportLine :=
  lines.find? fun x => decide (x.dest.toNat = d.1) && decide (x.level.toNat = l.num)

/-- Deals with one armed entry by its line of the switch report (R56, R57).  DESIGN CHOICE: the TAKE_DONE report comes after the reports of the map
(log entry 41). -/
def settleArmed (lines : List ReportLine) (a : ArmedEntry) (s : State) : State :=
  match lineFor lines a.xpt.dest a.xpt.level with
  | none => takeDone a.requester a.xpt .fabricFault a.late s
  | some ln =>
    if ln.fault then takeDone a.requester a.xpt .fabricFault a.late s
    else if sourceOf ln.number.toNat = some a.xpt.source then
      takeDone a.requester a.xpt .applied a.late (setMapEntry a.xpt.dest a.xpt.level ⟨a.xpt.source, .known⟩ a.cause s)
    else
      takeDone a.requester a.xpt .mismatch a.late
        (mapMismatch a.xpt.dest a.xpt.level (some a.xpt.source) ln.number a.cause s)

/-- A map entry after contact with the router is lost, or after an engine reset (R25). -/
def MapEntry.doubted (e : MapEntry) : MapEntry :=
  match e.state with
  | .known => { e with state := .uncertain }
  | .mismatch => { e with state := .uncertain }
  | .unknown => e
  | .uncertain => e

/-- A destination whose three map entries are doubted. -/
def Destination.doubted (d : Destination) : Destination :=
  { d with entryV := d.entryV.doubted, entryA := d.entryA.doubted, entryB := d.entryB.doubted }

/-- Every map entry doubted. -/
def doubtMap (s : State) : State := { s with xpe := { s.xpe with dests := tabulate fun d => s.xpe.dests[d].doubted } }

end Sys2Proof.Machine
end

