-- ==== Sys2Proof/Machine/Tally.lean ====
section
/-! DEFINITION. Tally: GPI sampling (R64, R65), the resolution of colours and flags (R67 to R71), and the tally channels and port (R76 to
R85). -/

namespace Sys2Proof.Machine

/-! ### GPI inputs (R64) -/

/-- Input `i` of a GPI sample is ASSERTED. -/
def asserted (sample : BitVec 16) (i : Fin 16) : Bool := sample.getLsbD i.1

/-- Takes the sample of one input: a change is recorded, and reported when the report flag is set (R64). -/
def sampleGpi (sample : BitVec 16) (i : Fin 16) (s : State) : State :=
  if s.tly.gpi[i].asserted = asserted sample i then s
  else
    let s1 := { s with tly := { s.tly with gpi := upd s.tly.gpi i { s.tly.gpi[i] with asserted := asserted sample i } } }
    if s.tly.gpi[i].reports then reportNow (.gpi i (asserted sample i)) s1 else s1

/-- The boundary reaches the TLY (R63, R64, R66): the inputs are sampled, and the sample and the talk snapshot become the frame
inputs.  DESIGN CHOICE: the GPI reports of one sample are made by rising input number (log entry 41). -/
def sampleInputs (sample : BitVec 16) (s : State) : State :=
  let s1 := (List.finRange 16).foldl (fun s i => sampleGpi sample i s) s
  { s1 with tly := { s1.tly with inputs := some { frame := s1.rtu.frame, sample := sample, snapshot := s1.tke.incoming } } }

/-! ### Seeds and re-entry (R67 to R69) -/

/-- The source a destination carries, for resolution (R67). -/
def Destination.carried (d : Destination) : Option (Fin 128) :=
  if hasLevel d.present .v then
    match d.entryV.gives with
    | some (.input n) => some n
    | some .park => none
    | none => none
  else none

/-- A GPI field is present and its input ASSERTED. -/
def gpiLit (sample : BitVec 16) (g : Option (Fin 16)) : Bool :=
  match g with
  | none => false
  | some i => asserted sample i

/-- The seed of a destination that carries a source (R68). -/
def Destination.seed (sample : BitVec 16) (d : Destination) : ColourSet :=
  match d.kind with
  | .onair => 1
  | .preview => 2
  | .iso => 4
  | .keyed => BitVec.ofNat 3 (bit (gpiLit sample d.redGpi) + 2 * bit (gpiLit sample d.greenGpi))
  | .plain => 0
  | .reentry => 0

/-- A destination that carries a source, as the resolution reads it: its source, and either its seed or its re-entry source. -/
structure Carrier where
  dest    : Fin 64
  source  : Fin 128
  seed    : ColourSet
  reentry : Option (Fin 128)
deriving DecidableEq, Repr

/-- How the resolution reads one destination, when it carries a source. -/
def carrierOf (sample : BitVec 16) (i : Fin 64) (d : Destination) : Option Carrier :=
  d.carried.map fun x =>
    { dest := i, source := x, seed := d.seed sample, reentry := if d.kind = .reentry then d.reentry else none }

/-- Every destination that carries a source. -/
def carriers (sample : BitVec 16) (dests : Vector Destination 64) : List Carrier :=
  (List.finRange 64).filterMap fun i => carrierOf sample i dests[i]

/-- What following a chain finds: colours, and the destinations marked for DEPTH and for LOOP. -/
structure Found where
  colours : ColourSet
  depth   : BitVec 64
  loop    : BitVec 64
deriving DecidableEq, Repr

/-- Nothing found. -/
def Found.nothing : Found := ⟨0, 0, 0⟩

/-- The union of two findings. -/
def Found.union (x y : Found) : Found := ⟨x.colours ||| y.colours, x.depth ||| y.depth, x.loop ||| y.loop⟩

/-- The union of a run of findings. -/
def unionAll (xs : List Found) : Found := xs.foldl Found.union Found.nothing

/-- The set of one destination. -/
def destBit (d : Fin 64) : BitVec 64 := BitVec.twoPow 64 d.1

/-- What a destination contributes at a hop, given what its re-entry source finds at the next hop, or none at hop 4 (R69). -/
def contribution (next : Option (Fin 128 → Found)) (chain : List (Fin 64)) (c : Carrier) : Found :=
  match c.reentry with
  | none => ⟨c.seed, 0, 0⟩
  | some x =>
    if chain.contains c.dest then ⟨0, 0, destBit c.dest⟩
    else
      match next with
      | none => ⟨0, destBit c.dest, 0⟩
      | some f => f x

/-- What is found at source `x` with `left` hops left before hop 4 (R69). -/
def follow (cs : List Carrier) : Nat → List (Fin 64) → Fin 128 → Found
  | 0, chain, x => unionAll ((cs.filter fun c => decide (c.source = x)).map (contribution none chain))
  | left + 1, chain, x =>
    unionAll ((cs.filter fun c => decide (c.source = x)).map fun c =>
      contribution (some (follow cs left (chain ++ [c.dest]))) chain c)

/-- What the resolution finds for a source: hop 0, the empty chain, hop 4 the last (R69). -/
def findSource (cs : List Carrier) (x : Fin 128) : Found := follow cs 4 [] x

/-- What the resolution finds, source by source. -/
def findAll (cs : List Carrier) : List Found := (List.finRange 128).map (findSource cs)

/-- The source tally table of a list of findings. -/
def tallyOf (fs : List Found) : Vector ColourSet 128 := tabulate fun x => (fs.getD x.1 Found.nothing).colours

/-! ### Flags (R71) -/

/-- Membership of a destination in a set. -/
def hasDest (m : BitVec 64) (d : Fin 64) : Bool := m.getLsbD d.1

/-- Rewrites the DEPTH and LOOP flags of every destination. -/
def writeFlags (depth loop : BitVec 64) (dests : Vector Destination 64) : Vector Destination 64 :=
  tabulate fun d => { dests[d] with depth := hasDest depth d, loop := hasDest loop d }

/-- Reports the flags of one destination that changed from the previous resolution, DEPTH before LOOP (R71). -/
def reportFlags (oldDepth oldLoop depth loop : BitVec 64) (d : Fin 64) (s : State) : State :=
  let s1 := if hasDest depth d = hasDest oldDepth d then s else reportNow (.flag d false (hasDest depth d)) s
  if hasDest loop d = hasDest oldLoop d then s1 else reportNow (.flag d true (hasDest loop d)) s1

/-- Writes the tally table and the flags of a resolution, and reports the flags that changed (R70, R71). -/
def writeResolution (fs : List Found) (s : State) : State :=
  let all := unionAll fs
  let s1 := { s with
    xpe := { s.xpe with dests := writeFlags all.depth all.loop s.xpe.dests }
    tly := { s.tly with tally := tallyOf fs, prevDepth := all.depth, prevLoop := all.loop } }
  (List.finRange 64).foldl (fun s' d => reportFlags s.tly.prevDepth s.tly.prevLoop all.depth all.loop d s') s1

/-! ### Channels and the port (R79 to R85) -/

/-- The shown set of a channel that is not a follower (R79). -/
def Channel.shown (tally : Vector ColourSet 128) (c : Channel) : ColourSet :=
  match c.force with
  | some f => f
  | none =>
    match c.source with
    | none => 0
    | some x => tally[x] &&& c.mask

/-- Frame `k` is in the flash phase (R81). -/
def flashPhase (k : FrameIndex) : Bool := decide (k.toNat / 8 % 2 = 0)

/-- A channel's call lamp is lit: it is called, and the frame is in the flash phase (R81). -/
def Channel.calls (snapshot : PortSet) (k : FrameIndex) (c : Channel) : Bool :=
  match c.call with
  | none => false
  | some p => hasPort snapshot p && flashPhase k

/-- The logical lines that a channel's own fields give (R80, R81). -/
def Channel.lines (tally : Vector ColourSet 128) (snapshot : PortSet) (k : FrameIndex) (c : Channel) : Lines :=
  match c.mode with
  | .triple => BitVec.ofNat 4 ((c.shown tally).toNat + 8 * bit (c.calls snapshot k))
  | .single => BitVec.ofNat 4 (bit (decide (c.shown tally ≠ 0) || c.calls snapshot k))

/-- The logical lines of every channel: a follower's are its master's (R82, R84). -/
def channelOutputs (channels : Vector Channel 64) (tally : Vector ColourSet 128) (snapshot : PortSet) (k : FrameIndex) : Vector Lines 64 :=
  tabulate fun i =>
    match channels[i].master with
    | none => channels[i].lines tally snapshot k
    | some m => channels[m].lines tally snapshot k

/-- The physical drive of a channel's lines (R83). -/
def drive (p : Polarity) (l : Lines) : Lines :=
  match p with
  | .upright => l
  | .inverted => ~~~l

/-- The port image that channel outputs give (R83, R85). -/
def portImage (channels : Vector Channel 64) (outputs : Vector Lines 64) : Vector Lines 64 :=
  tabulate fun i => drive channels[i].polarity outputs[i]

/-- The channels are computed and the port frame is sent (R72, steps 1 and 2). -/
def driveLamps (snapshot : PortSet) (k : FrameIndex) (s : State) : State :=
  let out := channelOutputs s.tly.channels s.tly.tally snapshot k
  { s with tly :=
    { s.tly with outputs := out, image := portImage s.tly.channels out, portFrames := s.tly.portFrames + 1 } }

/-- A resolution up to and with its hand-over of the tally table to the PNC (R69 to R72, steps 1 to 3). -/
def resolve (i : FrameInputs) (s : State) : State :=
  deriveLamps (driveLamps i.snapshot i.frame (writeResolution (findAll (carriers i.sample s.xpe.dests)) s))

end Sys2Proof.Machine
end

