-- ==== Sys2Proof/Machine/Mirrors.lean ====
section
/-! DEFINITION. The mirror tables, their rewrites and the freeze (R166, R167, Mirror tables). -/

namespace Sys2Proof.Machine

/-- An entry of the mirror tables: its offset from the mirror base, and its bytes. -/
abbrev MirrorEntry := Nat × List Byte

/-- A small number as a byte. -/
def num8 (n : Nat) : Byte := BitVec.ofNat 8 n

/-- An optional number as a byte: FEH when absent. -/
def optByte {n : Nat} (x : Option (Fin n)) : Byte := (x.map fun i => num8 i.1).getD 0xFE

/-- The code of an entry state. -/
def EntryState.num : EntryState → Nat
  | .unknown => 0
  | .known => 1
  | .uncertain => 2
  | .mismatch => 3

/-- The source and state of a map entry. -/
def MapEntry.bytes (e : MapEntry) : List Byte := [e.source.byte, num8 e.state.num]

/-- The crosspoint map entry of a destination.  The manual gives no value for the protect level of an unprotected destination: `free` is written. -/
def mapMirror (free : Byte) (d : Destination) : List Byte :=
  d.entryV.bytes ++ d.entryA.bytes ++ d.entryB.bytes ++
    [num8 d.present.toNat, num8 d.kind.num, (d.protect.map fun p => p.owner.byte).getD 0xFE,
      (d.protect.map fun p => num8 p.level.1).getD free]

/-- The code of a talk key's state. -/
def KeyState.num : KeyState → Nat
  | .idle => 0
  | .pending _ => 1
  | .held => 2
  | .latched => 3
  | .closing => 4

/-- The listeners to whom talker `a` has an active path. -/
def State.pathMask (s : State) (a : Fin 32) : PortSet :=
  portSetOf fun b => s.tke.paths.any fun p => decide (p.talker = a) && decide (p.listener = b)

/-- The entry of a talk port.  DESIGN CHOICE: bits 7..4 of its second byte are written as 0 (log entry 57). -/
def State.portMirror (s : State) (p : Fin 32) : List Byte :=
  [num8 s.tke.ports[p].kind.num,
    num8 (bit s.tke.ports[p].enable + 2 * bit s.tke.ports[p].isolate + 4 * bit (hasPort s.tke.talking p)
      + 8 * bit (hasPort s.tke.incoming p))]

/-- The entry of a panel. -/
def panelMirror (x : Panel) : List Byte :=
  [num8 x.state.num, num8 (bit x.enabled), num8 x.level.1, optByte x.station,
    num8 (match x.mode with | .direct => 0 | .preset => 1), num8 x.threshold] ++ le16 x.model.toNat

/-- The entries of the crosspoint map and destination flags.  DESIGN CHOICE: bits 7..2 of a flags byte are written as 0 (log entry 57). -/
def destMirrors (free : Fin 64 → Byte) (s : State) : List MirrorEntry :=
  ((List.finRange 64).map fun d => (0x20 + 16 * d.1, mapMirror (free d) (s.dest d))) ++
  ((List.finRange 64).map fun d => (0x420 + d.1, [num8 (bit (s.dest d).depth + 2 * bit (s.dest d).loop)]))

/-- The entries of the source tally and channel outputs.  DESIGN CHOICE: bits 7..4 of a channel's byte of logical lines, for which the layout gives no
meaning, are written as 0 (log entry 57). -/
def tallyMirrors (s : State) : List MirrorEntry :=
  ((List.finRange 128).map fun x => (0x460 + x.1, [num8 s.tly.tally[x].toNat])) ++
  ((List.finRange 64).map fun c => (0x4E0 + 2 * c.1,
    [num8 s.tly.outputs[c].toNat, (s.tly.channels[c].force.map fun f => num8 f.toNat).getD 0xFF]))

/-- The entries of the talk ports, paths and keys. -/
def talkMirrors (s : State) : List MirrorEntry :=
  ((List.finRange 32).map fun p => (0x560 + 4 * p.1, s.portMirror p)) ++
  ((List.finRange 32).map fun a => (0x5E0 + 4 * a.1, le32 (s.pathMask a).toNat)) ++
  ((List.finRange 24).flatMap fun n => (List.finRange 48).map fun j => (0x660 + 48 * n.1 + j.1, [num8 (s.keyState n j).num]))

/-- The entries of the panels and the occupancy. -/
def panelMirrors (s : State) : List MirrorEntry :=
  ((List.finRange 24).map fun p => (0xAE0 + 8 * p.1, panelMirror (s.panel p))) ++
  [(0xBA0, [num8 (entryCount s.xpe.queue), num8 s.xpe.armed.length])]

/-- Every entry of every mirror table, as it stands (R166). -/
def mirrorEntries (free : Fin 64 → Byte) (s : State) : List MirrorEntry :=
  destMirrors free s ++ tallyMirrors s ++ talkMirrors s ++ panelMirrors s

/-- The entries to write, given the same entries as the previous rewrite left them: those that changed (R166). -/
def changedEntries : List MirrorEntry → List MirrorEntry → List MirrorEntry → List MirrorEntry
  | e :: es, n :: ns, o :: os => if n = o then changedEntries es ns os else e :: changedEntries es ns os
  | es, _, [] => es
  | [], _, _ => []
  | es, [], _ => es

/-- Writes entries at a mirror base. -/
def writeEntries (base : Nat) (es : List MirrorEntry) (m : Memory) : Memory :=
  es.foldl (fun m e => storeWrites m (base + e.1) e.2) m

/-- The header of a rewrite: its opening count, the frame index and label of the resolution, and the reference and link states. -/
def State.mirrorHeader (s : State) (count : BitVec 32) (frame : FrameIndex) (label : Label) : List Byte :=
  le32 count.toNat ++ le32 frame.toNat ++ label.bytes ++
    [num8 s.rtu.ref.num, num8 s.xpe.link.num, num8 s.tke.link.num]

/-- The free bytes of the next rewrite (log entry 3). -/
def State.freeLevel (s : State) (d : Fin 64) : Byte := Config.freeByte (64 * s.freeCount + d.1)

/-- The entries a rewrite writes: all when it is complete, else those that changed since the previous one (R166). -/
def State.rewriteEntries (s : State) : List MirrorEntry :=
  if s.csi.mirror.complete then mirrorEntries s.freeLevel s
  else changedEntries (mirrorEntries s.freeLevel s) (mirrorEntries (fun _ => 0) s) s.csi.mirror.written

/-- A rewrite of the mirrors begins (R166, steps 1 to 3): the opening count, the header and the table entries are written. -/
def startRewrite (c : AnchorCopy) (frame : FrameIndex) (label : Label) (s : State) : State :=
  let n := s.csi.mirror.count + 1
  { s with
    store := writeEntries c.mirror s.rewriteEntries (storeWrites s.store c.mirror (s.mirrorHeader n frame label))
    freeCount := s.freeCount + 1
    csi :=
      { s.csi with mirror :=
        { s.csi.mirror with
          count := n, writing := some c.mirror, complete := false, written := mirrorEntries (fun _ => 0) s } } }

/-- The TLY tells the CSI that the resolution of a frame is complete (R72, step 4; R166). -/
def onResolution (frame : FrameIndex) (label : Label) (s : State) : State :=
  match s.csi.copy with
  | none => s
  | some c =>
    if s.csi.mirror.freeze = .live then
      match s.csi.mirror.writing with
      | none => startRewrite c frame label s
      | some _ => { s with csi := { s.csi with mirror := { s.csi.mirror with waiting := some (frame, label) } } }
    else s

/-- The mirrors become FROZEN: NOTICE FROZEN is raised, and no rewrite waits (R167). -/
def becomeFrozen (s : State) : State :=
  raise .frozen { s with csi := { s.csi with mirror := { s.csi.mirror with freeze := .frozen, waiting := none } } }

/-- A waiting rewrite starts, if there is one (R166).  DEDUCED: in every run state; one that still waits when HALTED is entered writes the picture of the
last resolution (log entry 28). -/
def startWaiting (s : State) : State :=
  match s.csi.copy, s.csi.mirror.waiting with
  | some c, some w => startRewrite c w.1 w.2 { s with csi := { s.csi with mirror := { s.csi.mirror with waiting := none } } }
  | _, _ => s

/-- The rewrite in progress writes its closing count and ends (R166, step 4; R167). -/
def endRewrite (s : State) : State :=
  match s.csi.mirror.writing with
  | none => s
  | some base =>
    let s1 := { s with
      store := storeWrites s.store (base + 0x1C) (le32 s.csi.mirror.count.toNat)
      csi := { s.csi with mirror := { s.csi.mirror with writing := none } } }
    match s.csi.mirror.freeze with
    | .freezing => becomeFrozen s1
    | .frozen => s1
    | .live => startWaiting s1

/-- The mirrors are FREEZING behind the rewrite in progress, and a rewrite that waits behind it is dropped (R167). -/
def becomeFreezing (s : State) : State :=
  { s with csi := { s.csi with mirror := { s.csi.mirror with freeze := .freezing, waiting := none } } }

/-- FREEZE becomes set (R167). -/
def freezeMirrors (s : State) : State :=
  match s.csi.mirror.freeze with
  | .live => if s.csi.mirror.writing = none then becomeFrozen s else becomeFreezing s
  | .freezing => s
  | .frozen => s

/-- FREEZE becomes clear (R167): the next rewrite is complete. -/
def thawMirrors (s : State) : State :=
  { s with csi := { s.csi with mirror := { s.csi.mirror with freeze := .live, complete := true } } }

end Sys2Proof.Machine
end

