-- ==== Sys2Proof/Machine/Strips.lean ====
section
/-! DEFINITION. Strips and the salvo reader: outcome words, counts and the end of a strip (R152 to R158), the order a strip is working on
(R154), fire requests and their outcomes (R47, R48, R139, R140). -/

namespace Sys2Proof.Machine

/-! ### Headers and outcome words -/

/-- The slot is in the engine's hands (R150). -/
def State.inHands (s : State) (slot : Fin 8) : Bool :=
  s.csi.posts.any (fun p => decide (p.slot = slot)) || (s.csi.running.any fun r => decide (r.slot.slot = slot))

/-- Writes the state byte of a slot header. -/
def writeSlotState (slot : Fin 8) (x : Byte) (s : State) : State :=
  match s.csi.copy with
  | none => s
  | some c => s.put (slotAddress c slot) [x]

/-- Writes the processed and refused counts of a slot header. -/
def writeCounts (slot : Fin 8) (processed refused : Nat) (s : State) : State :=
  match s.csi.copy with
  | none => s
  | some c => s.put (slotAddress c slot + 8) (le16 processed ++ le16 refused)

/-- The address of order `i` of a posted list. -/
def orderAddress (p : Posted) (i : Nat) : Nat := p.address + 32 * i

/-- The bytes of an outcome word, each with its address: the code, the detail and the frame index of completion; 1AH and 1BH are left (Order
records). -/
def outcomeCells (a : Nat) (c : Code) (detail : Nat) (frame : FrameIndex) : List Host.Cell :=
  [(a + 0x18, c.byte), (a + 0x19, BitVec.ofNat 8 detail), (a + 0x1C, frame.extractLsb' 0 8), (a + 0x1D, frame.extractLsb' 8 8),
    (a + 0x1E, frame.extractLsb' 16 8), (a + 0x1F, frame.extractLsb' 24 8)]

/-- Writes an outcome word.  It lies in the order window, where a list that is being read may lie too. -/
def writeOutcome (a : Nat) (c : Code) (detail : Nat) (frame : FrameIndex) (s : State) : State :=
  s.withWrites (outcomeCells a c detail frame)

/-- Writes the same outcome word into the orders `i, i+1, …` of a list, `n` of them (R152, R155, R156). -/
def writeOutcomes (p : Posted) (c : Code) (detail : Nat) (frame : FrameIndex) : Nat → Nat → State → State
  | _, 0, s => s
  | i, n + 1, s => writeOutcomes p c detail frame (i + 1) n (writeOutcome (orderAddress p i) c detail frame s)

/-- A slot becomes DONE with its final counts, and STRIP_DONE is raised (R152, R157). -/
def slotDone (slot : Fin 8) (s : State) : State := raise .stripDone (writeSlotState slot 4 s)

/-- The running strip ends (R157). -/
def endStrip (r : Running) (s : State) : State :=
  slotDone r.slot.slot { s with csi := { s.csi with running := none } }

/-- The rest of a strip's orders get one outcome, and the strip ends (R152, R155, R157). -/
def endWith (c : Code) (r : Running) (s : State) : State :=
  endStrip r (writeOutcomes r.slot c 0 s.rtu.frame r.next (r.slot.count - r.next) s)

/-- The running strip after an order has its outcome: its counts, and the next order. -/
def Running.after (r : Running) (c : Code) : Running :=
  { r with next := r.next + 1, processed := r.processed + 1, refused := r.refused + bit c.isRefusal, waiting := none }

/-- The order a strip is working on gets its outcome (R154, steps 5 and 6); then a strip marked to stop, which may have been marked before it began on
this order (log entry 43), ends with its later orders WITHDRAWN (R152, R157), a refusal under STOP_ON_REFUSAL ends it with them SKIPPED (R155), and the last order ends it. -/
def finishOrder (r : Running) (c : Code) (detail : Nat) (frame : FrameIndex) (s : State) : State :=
  let r1 := r.after c
  let s1 := writeCounts r.slot.slot r1.processed r1.refused (writeOutcome (orderAddress r.slot r.next) c detail frame s)
  let s2 := { s1 with csi := { s1.csi with running := some r1 } }
  if r.stop = true then endWith .withdrawn r1 s2
  else if r.slot.stopOn = true ∧ c.isRefusal = true then endWith .skipped r1 s2
  else if r.slot.count ≤ r1.next then endStrip r1 s2
  else s2

/-- The order the running strip is working on, when it is not waiting for an outcome: the strip and the record as it stands
(R154, step 1). -/
def State.currentOrder (s : State) : Option (Running × OrderRecord) :=
  match s.csi.running with
  | none => none
  | some r =>
    if r.waiting = none then some (r, storeReads s.store (orderAddress r.slot r.next) 32) else none

/-- What a block answers to an order: an outcome with its detail, or that it answers later (R154). -/
inductive Answer where
  | outcome (c : Code) (detail : Nat)
  | later
deriving DecidableEq, Repr

/-- The strip takes a block's answer to its order. -/
def takeAnswer (r : Running) (x : State × Answer) : State :=
  match x.2 with
  | .outcome c d => finishOrder r c d x.1.rtu.frame x.1
  | .later => x.1

/-- Marks the order of the running strip as waiting for a later outcome, with the frame in which its block took it. -/
def markWaiting (s : State) : State :=
  { s with csi := { s.csi with running := s.csi.running.map fun r => { r with waiting := some s.rtu.frame } } }

/-- Works the next order of the running strip when it is of kind `kind` (R154): its owner tag and level are checked, and its block decides
it.  When no strip is running, its order is waiting, or its next order is of another kind, this step is not the strip's and nothing
happens (log entry 5). -/
def workOrder (kind : Nat) (block : Requester → OrderRecord → State → State × Answer) (s : State) : State :=
  match s.currentOrder with
  | none => s
  | some (r, rec) =>
    if orderKind rec = kind then
      match orderRequester rec with
      | none => finishOrder r .refusedArg 0 s.rtu.frame s
      | some q => takeAnswer r (block q rec s)
    else s

/-! ### Fire requests and the salvo reader (R47, R48) -/

/-- The outcome of a fire request goes to where the request came from (R47): the waiting order's outcome word, a panel key's flash and
KEY report when it is a refusal, or the cue's CUE report. -/
def fireOutcome (q : FireRequest) (c : Code) (n : Nat) (s : State) : State :=
  match q.origin with
  | .order =>
    match s.csi.running with
    | none => s
    | some r => finishOrder r c n (r.waiting.getD s.rtu.frame) s
  | .key p k => if c.isRefusal then refuseKey p k c s else s
  | .cue i f l => report (.cue i c.byte) f l s
  | .orphan => s

/-- A salvo record's list lies wholly inside the order window (R46, R47). -/
def State.inOrderWindow (s : State) (a n : Nat) : Bool :=
  match s.csi.copy with
  | none => false
  | some c => c.orders.holds a n

/-- The reader begins on the next fire request (R47): the record is taken as it stands; before any read a request for an undefined record, or
for a list outside the order window, is refused with REFUSED_SALVO, and the request behind it is begun. -/
def beginReads : List FireRequest → State → State
  | [], s => { s with xpe := { s.xpe with fires := [] } }
  | q :: qs, s =>
    match s.xpe.salvos[q.salvo] with
    | none => beginReads qs (fireOutcome q .refusedSalvo 0 s)
    | some x =>
      if s.inOrderWindow x.address (16 * x.count) then
        { s with xpe := { s.xpe with reading := some { request := q, address := x.address, count := x.count, mark := s.replaced.length }, fires := qs } }
      else beginReads qs (fireOutcome q .refusedSalvo 0 s)

/-- A fire request whose number and due form have passed joins the reader's requests (R47): it waits behind a read in progress, or is
begun at once. -/
def fire (q : FireRequest) (s : State) : State :=
  match s.xpe.reading with
  | some _ => { s with xpe := { s.xpe with fires := s.xpe.fires ++ [q] } }
  | none => beginReads (s.xpe.fires ++ [q]) s

/-- The takes of the salvo list that a read found in the common store. -/
def State.salvoList (s : State) (x : SalvoRead) : List RawTake :=
  (List.range x.count).map fun i => salvoEntryOf (s.readRun x.mark (x.address + 16 * i) 16)

/-- The list that was read is judged and the salvo decided (R47, R48). -/
def decideRead (x : SalvoRead) (list : List RawTake) (s : State) : State × Code × Nat :=
  match salvoEntries s.xpe.dests list with
  | none => (s, .refusedSalvo, 0)
  | some es => decideSalvo es x.request.due x.request.requester x.request.cause (some x.request.salvo) s

/-- The salvo reader ends its read (R47, R48): the salvo is decided, its outcome delivered, and the next request begun.  DESIGN CHOICE: the
TAKE_DONE reports SUPERSEDED that the admission makes (XPE) stand before the CUE report QUEUED of a cue's salvo (RTU); R163 lets either come first (log
entry 41). -/
def finishRead (s : State) : State :=
  match s.xpe.reading with
  | none => s
  | some x =>
    let d := decideRead x (s.salvoList x) { s with xpe := { s.xpe with reading := none } }.readOver
    let s1 := fireOutcome x.request d.2.1 d.2.2 d.1
    beginReads s1.xpe.fires s1

end Sys2Proof.Machine
end

