-- ==== Sys2Proof/Machine/Panels.lean ====
section
/-! DEFINITION. Panel states (R124 to R127), key events (R93, R94, R131, R134 to R140), polling and replies (R128 to R130) and key maps
(R133). -/

namespace Sys2Proof.Machine

/-! ### Panel states (R125 to R127) -/

/-- The effects of leaving ONLINE (R127), the state already changed: every key is forced off with the derivation that follows, the preset, guard and
walk go, every refusal-flash timer of the panel is set to 0, and its lamps are held until it is ONLINE again. -/
def leaveOnline (p : Fin 24) (s : State) : State :=
  let s1 := forceOff (ofPanel p) s
  s1.setPanel p
    { s1.panel p with
      selection := { (s1.panel p).selection with preset := none, guard := false, walk := none }
      timers := Vector.replicate 48 0
      held := true }

/-- The record of a panel that enters a state: JOINING clears the missed-reply count and the sequence bit (R125); ONLINE sets the full-image flag,
and the lamps are held no longer (R127). -/
def Panel.enter (x : Panel) (st : PanelState) : Panel :=
  match st with
  | .joining => { x with state := .joining, missed := 0, bit := false }
  | .online => { x with state := .online, full := true, held := false }
  | .absent => { x with state := .absent }
  | .wrongModel => { x with state := .wrongModel }
  | .lost => { x with state := .lost }

/-- A change of a panel's state with its effects and its PANEL report (R127). -/
def changePanel (p : Fin 24) (st : PanelState) (s : State) : State :=
  let old := (s.panel p).state
  let s1 := s.setPanel p ((s.panel p).enter st)
  let s2 := if old = .online ∧ st ≠ .online then leaveOnline p s1 else s1
  let s3 := if st = .online then derivePanel p s2 else s2
  if st = old then s3 else reportNow (.panel p st) s3

/-! ### Talk key events (R93, R94) -/

/-- The state an admitted press or release moves a key to (R94). -/
def keyMove (mode : TalkMode) (k : FrameIndex) (press : Bool) (st : KeyState) : KeyState :=
  match st, press with
  | .idle, true =>
    match mode with
    | .momentary => .held
    | .latching => .latched
    | .auto => .pending k
  | .pending _, false => .latched
  | .held, false => .idle
  | .latched, true => .closing
  | .closing, false => .idle
  | st, _ => st

/-- Moves a key's state; a change starts a derivation (R103). -/
def setKey (p : Fin 24) (k : Fin 48) (st : KeyState) (s : State) : State :=
  if s.keyState p k = st then s
  else derivation { s with tke := { s.tke with keys := upd s.tke.keys p (upd s.tke.keys[p] k st) } }

/-- A press or release of a talk key, of an ONLINE panel, taken by the TKE in SWEEP or RUNNING (R93). -/
def talkEvent (p : Fin 24) (k : Fin 48) (mode : TalkMode) (press : Bool) (s : State) : State :=
  if press = true ∧ s.keyState p k = .idle ∧ s.usableStation p = false then refuseKey p k .refusedArg s
  else setKey p k (keyMove mode s.rtu.frame press (s.keyState p k)) s

/-! ### Key presses (R134 to R140) -/

/-- The requester that a panel is, with the level in its record (R27). -/
def State.panelRequester (s : State) (p : Fin 24) : Requester := { owner := .panel p, level := (s.panel p).level }

/-- After a take request of a panel key: QUEUED clears the step walk, a refusal flashes the key (R135, R137).  DESIGN CHOICE: the panel's lamps are
derived again after QUEUED also when it held no walk to clear (log entry 50). -/
def afterTake (p : Fin 24) (k : Fin 48) (x : State × Code × Nat) : State :=
  if x.2.1 = .queued then reselect p Selection.noWalk x.1 else refuseKey p k x.2.1 x.1

/-- A press of a SOURCE key (R135). -/
def sourcePress (p : Fin 24) (k : Fin 48) (x : Source) (s : State) : State :=
  match (s.panel p).selection.dest with
  | none => refuseKey p k .refusedArg s
  | some (d, m) =>
    match (s.panel p).mode with
    | .direct => afterTake p k (requestTake d m x (some .now) (s.panelRequester p) .take s)
    | .preset => reselect p (fun y => { y with preset := some x, guard := true }) s

/-- A press of a TAKE key (R137): the preset is removed and its guard broken as the press is dealt with.  DESIGN CHOICE: the panel's lamps are derived
again also when it held no preset to remove (log entry 50).  DESIGN CHOICE: `ahead` says that the press is taken ahead of the take notices of this frame, so
that a guard which one of them has broken still counts as VALID (R136; log entry 46). -/
def takePress (ahead : Bool) (p : Fin 24) (k : Fin 48) (s : State) : State :=
  let sel := (s.panel p).selection
  let s1 := reselect p Selection.noPreset s
  match sel.preset with
  | none => refuseKey p k .refusedStale s1
  | some x =>
    if sel.guard || (ahead && (s.panel p).noticed) then
      match sel.dest with
      | none => refuseKey p k .refusedArg s1
      | some (d, m) => afterTake p k (requestTake d m x (some .now) (s1.panelRequester p) .take s1)
    else refuseKey p k .refusedStale s1

/-- The walk a STEP press for group `g` works on: the panel's own walk when it is on `g`, or one set up afresh (R138). -/
def State.walkFor (s : State) (p : Fin 24) (g : Fin 8) (d : Fin 64) : Walk :=
  match (s.panel p).selection.walk with
  | some w =>
    if w.group = g then w
    else match s.walkOrigin g d with
    | some o => { group := g, origin := o, count := 0 }
    | none => { group := g, origin := 0, count := 3 }
  | none =>
    match s.walkOrigin g d with
    | some o => { group := g, origin := o, count := 0 }
    | none => { group := g, origin := 0, count := 3 }

/-- A press of a STEP key (R138).  DESIGN CHOICE: the panel's lamps are derived again also when its walk goes on unchanged and the request is refused (log
entry 50). -/
def stepPress (p : Fin 24) (k : Fin 48) (g : Fin 8) (s : State) : State :=
  match (s.panel p).selection.dest with
  | none => refuseKey p k .refusedArg s
  | some (d, m) =>
    let w := s.walkFor p g d
    let pos := stepPosition s.xpe.steps[g].order w.origin (w.count.1 + 1)
    let s1 := reselect p (fun y => { y with walk := some w }) s
    let x := requestTake d m s.xpe.steps[g].sources[pos] (some .now) (s1.panelRequester p) .step s1
    if x.2.1 = .queued then reselect p (fun y => { y with walk := some { w with count := w.count + 1 } }) x.1
    else refuseKey p k x.2.1 x.1

/-- A press of a PROTECT key (R139). -/
def protectPress (p : Fin 24) (k : Fin 48) (s : State) : State :=
  match (s.panel p).selection.dest with
  | none => refuseKey p k .refusedArg s
  | some (d, _) =>
    let x := if ((s.dest d).protect.map Protect.owner) = some (.panel p) then requestRelease d (s.panelRequester p) s
      else requestProtect d (s.panelRequester p) s
    if x.2.isRefusal then refuseKey p k x.2 x.1 else x.1

/-- A press of a SALVO key (R139). -/
def salvoPress (p : Fin 24) (k : Fin 48) (n : Fin 16) (s : State) : State :=
  fire { salvo := n, due := none, requester := s.panelRequester p, cause := .salvo, origin := .key p k } s

/-- A press of a key, by its function (R134 to R140); `ahead` is for a TAKE key. -/
def keyPress (ahead : Bool) (p : Fin 24) (k : Fin 48) (s : State) : State :=
  match s.keyAction p k with
  | .none => s
  | .report _ => reportNow (.key p k 0) s
  | .select d m => reselect p (fun _ => { dest := some (d, m), preset := none, guard := false, walk := none }) s
  | .source x => sourcePress p k x s
  | .take => takePress ahead p k s
  | .step g => stepPress p k g s
  | .salvo n => salvoPress p k n s
  | .protect => protectPress p k s
  | .talk _ mode _ => talkEvent p k mode true s

/-- A release of a key: only REPORT and TALK keys act on it (R134 to R140). -/
def keyRelease (p : Fin 24) (k : Fin 48) (s : State) : State :=
  match s.keyAction p k with
  | .report _ => reportNow (.key p k 1) s
  | .talk _ mode _ => talkEvent p k mode false s
  | .none | .select _ _ | .source _ | .take | .step _ | .salvo _ | .protect => s

/-- An event of a taken reply (R131): ignored when, as it is dealt with, the panel is not ONLINE, the engine is HALTING or HALTED, or the key's
function is NONE. -/
def keyEvent (ahead : Bool) (p : Fin 24) (k : Fin 48) (press : Bool) (s : State) : State :=
  if (s.panel p).state = .online ∧ s.serving = true then
    if press then keyPress ahead p k s else keyRelease p k s
  else s

/-! ### Polling (R128, R129) -/

/-- The panel at an address of a link (R122); `i` is 0 at address 1. -/
def panelAt (link : Fin 4) (i : Fin 6) : Fin 24 := ⟨6 * link.1 + i.1, by omega⟩

/-- The link a panel is on (R122). -/
def linkOf (p : Fin 24) : Fin 4 := ⟨p.1 / 6, by omega⟩

/-- The address of a panel on its link (R122). -/
def addressOf (p : Fin 24) : Byte := BitVec.ofNat 8 (p.1 % 6 + 1)

/-- A panel that is polled: enabled and JOINING or ONLINE (R128). -/
def Panel.polled (x : Panel) : Bool := x.enabled && (decide (x.state = .joining) || decide (x.state = .online))

/-- A panel that may be probed: enabled and ABSENT, LOST or WRONG_MODEL (R124). -/
def Panel.probed (x : Panel) : Bool :=
  x.enabled && (decide (x.state = .absent) || decide (x.state = .lost) || decide (x.state = .wrongModel))

/-- A poll of the panel carries lamp states.  DESIGN CHOICE: R127, R133 and R125, R129 differ on the identifying poll of a panel that has left ONLINE, or
whose map was loaded while it was not ONLINE: whether it does is a free value (log entry 45). -/
def Panel.sendsLamps (x : Panel) : Bool := !x.held || Config.heldLampsSent

/-- A poll of the panel carries the full image (R129). -/
def Panel.sendsImage (x : Panel) : Bool := x.full && x.sendsLamps

/-- The lamp states a poll carries (R129): the whole image, or the first 16 keys of the lamp set; none where the lamps are not sent. -/
def Panel.carries (x : Panel) : List (Fin 48 × Lamp) :=
  if x.sendsLamps then
    if x.full then (List.finRange 48).map fun k => (k, x.image[k]) else (x.lampSet.take 16).map fun k => (k, x.image[k])
  else []

/-- The round of a link, from a position on to the address before it (R128). -/
def roundFrom (r : Fin 6) : List (Fin 6) := (List.finRange 6).map fun i => r + i

/-- Replaces the poll state of a link. -/
def State.setLink (s : State) (link : Fin 4) (x : PanelLink) : State := { s with pnc := { s.pnc with links := upd s.pnc.links link x } }

/-- The panel of a link that is due for a probe now (R124). -/
def State.dueProbe (s : State) (link : Fin 4) : Option (Fin 24) :=
  if s.serving then
    ((List.finRange 6).map (panelAt link)).find? fun p => (s.panel p).probeDue && (s.panel p).probed
  else none

/-- The next panel of a link's round (R128). -/
def State.nextPoll (s : State) (link : Fin 4) : Option (Fin 6) :=
  (roundFrom s.pnc.links[link].round).find? fun i => (s.panel (panelAt link i)).polled

/-- Sends the next message of a link when none is outstanding and the engine is not HALTED (R128): a due probe, or else the next poll of the
round.  DESIGN CHOICE: whether the identifying poll of a panel whose lamps are held carries them is a free value (log entry 45). -/
def serveLink (link : Fin 4) (s : State) : State :=
  if s.pnc.links[link].out = none ∧ s.runState ≠ .halted then
    match s.dueProbe link with
    | some p =>
      (s.setPanel p { s.panel p with probeDue := false }).setLink link
        { s.pnc.links[link] with out := some (.probe p (decide ((s.panel p).state = .wrongModel))) }
    | none =>
      match s.nextPoll link with
      | none => s
      | some i =>
        let x := s.panel (panelAt link i)
        s.setLink link
          { out := some (.poll (panelAt link i) (decide (x.state = .joining)) x.bit x.sendsImage x.carries), round := i + 1 }
  else s

/-- The message outstanding on a link ends. -/
def endMessage (link : Fin 4) (s : State) : State := s.setLink link { s.pnc.links[link] with out := none }

/-! ### Replies (R125, R126, R130, R131) -/

/-- Key numbers of a reply, in order; none when one is above 47 (R130). -/
def eventKeys : List KeyEvent → Option (List (Fin 48 × Bool))
  | [] => some []
  | e :: es =>
    match finOf 48 e.key.toNat, eventKeys es with
    | some k, some t => some ((k, e.press) :: t)
    | _, _ => none

/-- The poll that a reply answers, with the reply's events, when the reply is taken (R130, R178): a poll of the addressed panel is outstanding, the
echo is the poll's bit, a model code is there just when the poll asked for it, and there are at most 8 events with keys 0..47. -/
def State.answeredPoll (s : State) (link : Fin 4) (m : PanelReply) :
    Option (Fin 24 × Bool × Bool × List (Fin 48 × Lamp) × List (Fin 48 × Bool)) :=
  match s.pnc.links[link].out with
  | some (.poll p ident b full carried) =>
    if m.address = addressOf p ∧ m.echo = b ∧ m.code.isSome = ident ∧ m.events.length ≤ 8 then
      (eventKeys m.events).map fun ev => (p, ident, full, carried, ev)
    else none
  | _ => none

/-- A key leaves the lamp set when a poll carried the state its image still holds (R130). -/
def Panel.confirmed (x : Panel) (full : Bool) (carried : List (Fin 48 × Lamp)) : Panel :=
  { x with
    missed := 0
    bit := !x.bit
    lampSet := x.lampSet.filter fun k => !(carried.any fun c => decide (c.1 = k) && decide (c.2 = x.image[k]))
    full := x.full && !full }

/-- The model code of an identifying poll's reply, or of an identifying probe's answer, is judged (R125). -/
def judge (p : Fin 24) (code : BitVec 16) (s : State) : State :=
  if code = (s.panel p).model then changePanel p .online s
  else if (s.panel p).state = .wrongModel then s
  else changePanel p .wrongModel s

/-- A reply is taken (R130, R131): the poll ends, the count, bit, lamp set and full-image flag follow; a JOINING panel is identified, outside HALTED
(R128); the events are dealt with in order, but those of an identifying poll's reply are ignored (R125).  DESIGN CHOICE: the link is served, and so sends
its next message, after the events, so that a poll carries the lamps they changed (log entry 51).  DESIGN CHOICE: the reply to an
identifying poll that was sent before the panel last became JOINING, and is taken after it, is judged like any other (log entry 47). -/
def takeReply (ahead : Bool) (link : Fin 4) (p : Fin 24) (ident full : Bool) (carried : List (Fin 48 × Lamp)) (ev : List (Fin 48 × Bool))
    (code : Option (BitVec 16)) (s : State) : State :=
  let s1 := endMessage link s
  let s2 := s1.setPanel p ((s1.panel p).confirmed full carried)
  let s3 :=
    if ident then
      match code with
      | some c => if (s2.panel p).state = .joining ∧ s2.runState ≠ .halted then judge p c s2 else s2
      | none => s2
    else ev.foldl (fun s e => keyEvent ahead p e.1 e.2 s) s2
  serveLink link s3

/-- A REPLY arrives on a panel link (R130): taken, or ignored as if it had not arrived. -/
def receiveReply (link : Fin 4) (m : PanelReply) (s : State) : State :=
  match s.answeredPoll link m with
  | some (p, ident, full, carried, ev) => takeReply m.ahead link p ident full carried ev m.code s
  | none => s

/-- A PROBE ANSWER arrives (R124, R125, R178): ignored unless it answers the probe outstanding; in HALTED it changes no panel state (R128), and a disabled
panel stays ABSENT. -/
def receiveProbeAnswer (link : Fin 4) (address : Byte) (code : BitVec 16) (s : State) : State :=
  match s.pnc.links[link].out with
  | some (.probe p _) =>
    if address = addressOf p then
      let s1 := endMessage link s
      let s2 :=
        if (s.panel p).enabled = true ∧ s.runState ≠ .halted then
          match (s.panel p).state with
          | .absent => changePanel p .joining s1
          | .lost => changePanel p .joining s1
          | .wrongModel => judge p code s1
          | .joining => s1
          | .online => s1
        else s1
      serveLink link s2
    else s
  | _ => s

/-- A panel with its missed-reply count set. -/
def setMissed (p : Fin 24) (n : Nat) (s : State) : State := s.setPanel p { s.panel p with missed := n }

/-- A poll's window closes without a taken reply (R126, R130): the count rises, and at 3 the panel becomes LOST; in HALTED it is not counted (R128). -/
def closePoll (link : Fin 4) (s : State) : State :=
  match s.pnc.links[link].out with
  | some (.poll p _ _ _ _) =>
    let s1 := endMessage link s
    let s2 :=
      if (s.panel p).polled = true ∧ s.runState ≠ .halted then
        let n := (s.panel p).missed + 1
        if n < 3 then setMissed p n s1 else changePanel p .lost (setMissed p 3 s1)
      else s1
    serveLink link s2
  | _ => s

/-- A probe is not answered in time (R124, R125): nothing changes, but a WRONG_MODEL panel becomes LOST with a missed-reply count of 3. -/
def closeProbe (link : Fin 4) (s : State) : State :=
  match s.pnc.links[link].out with
  | some (.probe p _) =>
    let s1 := endMessage link s
    let s2 :=
      if (s.panel p).state = .wrongModel ∧ (s.panel p).enabled = true ∧ s.runState ≠ .halted then
        changePanel p .lost (setMissed p 3 s1)
      else s1
    serveLink link s2
  | _ => s

/-! ### Key maps (R133) -/

/-- The 16 bytes of each of the 48 entries of the key map that a read found in the common store. -/
def State.mapBytes (s : State) (x : MapRead) : List (List Byte) := (List.range 48).map fun k => s.readRun x.mark (x.address + 16 * k) 16

/-- The panel's station port is present and of kind IFB (R133). -/
def State.stationIsIfb (s : State) (p : Fin 24) : Bool :=
  match (s.panel p).station with
  | none => false
  | some a => decide (s.tke.ports[a].kind = .ifb)

/-- The entries of a map, or none when the whole map is refused (R133). -/
def mapEntries (noTalk : Bool) : List (List Byte) → Option (List KeyEntry)
  | [] => some []
  | r :: rs =>
    match keyEntryOf noTalk r, mapEntries noTalk rs with
    | some e, some es => some (e :: es)
    | _, _ => none

/-- The key map made of a list of entries. -/
def mapOf (es : List KeyEntry) : Vector KeyEntry 48 := tabulate fun k => es.getD k.1 KeyEntry.reset

/-- An accepted KEYMAP_LOAD (R133, steps 1 to 5).  The lamps of a panel that is not ONLINE are held until it is, since R133 sends its image after that
(log entry 45). -/
def loadMap (p : Fin 24) (es : List KeyEntry) (s : State) : State :=
  let s1 := forceOff (ofPanel p) s
  let s2 := s1.setPanel p
    { s1.panel p with
      map := mapOf es, selection := Selection.cleared, timers := Vector.replicate 48 0, full := true,
      held := (s1.panel p).held || decide ((s1.panel p).state ≠ .online) }
  relight p (fun _ => true) s2

/-- The outcome of a map read goes to the order that waits for it, if its strip still runs (R154, R160). -/
def mapOutcome (x : MapRead) (c : Code) (n : Nat) (s : State) : State :=
  if x.forOrder then
    match s.csi.running with
    | none => s
    | some r => finishOrder r c n (r.waiting.getD s.rtu.frame) s
  else s

/-- The number of entries of a map whose key gain is clamped. -/
def mapClamps (rs : List (List Byte)) : Nat := (rs.map gainClamped).sum

/-- DONE, or DONE_CLAMPED with the number of values clamped (R158). -/
def doneCode (clamped : Nat) : Code := if clamped = 0 then .done else .doneClamped

/-- The map read ends (R133). -/
def finishMapRead (s : State) : State :=
  match s.pnc.mapReads with
  | [] => s
  | x :: rest =>
    let s1 := { s with pnc := { s.pnc with mapReads := rest } }.readOver
    let rs := s.mapBytes x
    match mapEntries (s.stationIsIfb x.panel) rs with
    | none => mapOutcome x .refusedArg 0 s1
    | some es => mapOutcome x (doneCode (mapClamps rs)) (mapClamps rs) (loadMap x.panel es s1)

end Sys2Proof.Machine
end

