-- ==== Sys2Proof/Machine/Boundary.lean ====
section
/-! DEFINITION. The fabric link (R32 to R34, R52, R58 to R60), what a frame boundary does in every block (R8, R16, R17, R95, R124, R141), and the
reference monitor (R3 to R7). -/

namespace Sys2Proof.Machine

/-! ### A settled map (R52, R63) -/

/-- When the TLY holds the inputs of frame `k`, the resolution runs, up to and with its hand-over of the tally table (R63, R72, steps 1 to 3). -/
def runResolution (k : FrameIndex) (s : State) : State :=
  match s.tly.inputs with
  | none => s
  | some i => if i.frame = k then resolve i s else s

/-- When the resolution for frame `k` has run, the CSI is told (R63, R72, step 4). -/
def tellResolution (k : FrameIndex) (s : State) : State :=
  match s.tly.inputs with
  | none => s
  | some i => if i.frame = k then onResolution s.rtu.frame s.rtu.label s else s

/-- The settled map of frame `k` is handed over (R52): the selectors are evaluated, the lamps derived, and the resolution runs. -/
def handOverMap (k : FrameIndex) (s : State) : State := runResolution k (deriveLamps (evaluateSelectors s))

/-- The map for frame `k` is declared settled (R52): it is handed over, and the CSI is told of the resolution it brings. -/
def declareSettled (k : FrameIndex) (s : State) : State := tellResolution k (handOverMap k s)

/-- The TAKE_DONE reports of a run of armed entries, with their late counts (R58).  DESIGN CHOICE: they are made in the order of the armed set (log
entry 41). -/
def armedDone (o : TakeOutcome) (es : List ArmedEntry) (s : State) : State :=
  es.foldl (fun s a => takeDone a.requester a.xpt o a.late s) s

/-- The fabric link is lost (R58): the armed set times out, the map is doubted unless a sweep was in progress, the link goes DOWN with a FABRIC report,
and an open frame is declared settled. -/
def linkLost (w : FabricWait) (s : State) : State :=
  if s.xpe.link = .up then
    let s1 := armedDone .fabricTimeout s.xpe.armed s
    let s2 := { s1 with xpe := { s1.xpe with armed := [] } }
    let s3 := if s.xpe.sweep = none then doubtMap s2 else s2
    let s4 := reportNow (.fabricDown w) { s3 with xpe :=
      { s3.xpe with sweep := none, link := .down, reportWait := none, ackWait := false } }
    match s.xpe.reportWait with
    | none => s4
    | some k => declareSettled k s4
  else s

/-- A switch report with these lines is one that is awaited (R52). -/
def State.awaitsReport (s : State) (lines : List ReportLine) : Bool :=
  s.xpe.reportWait.isSome && decide (s.xpe.link = .up) && decide (lines.length ≤ 48)

/-- A switch report arrives (R52, R53, R56): ignored unless one is awaited; else each armed entry is dealt with, the armed set is emptied, the
map is declared settled, and the load for the next boundary is made, ahead of the mirror rewrite, whose tables so count the loaded entries as armed
(R55; log entry 27).  DESIGN CHOICE: the armed entries, and so their reports, are taken in the order
of the armed set (log entry 41); a report that names more than 48 lines is no switch report of the
format; it is ignored, and the wait goes on (log entry 23). -/
def receiveReport (lines : List ReportLine) (s : State) : State :=
  match s.xpe.reportWait with
  | none => s
  | some k =>
    if s.awaitsReport lines then
      let s1 := s.xpe.armed.foldl (fun s a => settleArmed lines a s) s
      let s2 := { s1 with xpe := { s1.xpe with armed := [], reportWait := none } }
      tellResolution k (load (k + 1) (handOverMap k s2))
    else s

/-- The switch report's 2 ms run out (R58). -/
def reportTimeout (s : State) : State := if s.xpe.reportWait.isSome then linkLost .switchReport s else s

/-- The router acknowledges the arm message (R55). -/
def receiveArmAck (s : State) : State := { s with xpe := { s.xpe with ackWait := false } }

/-- The arm message's 1 ms runs out (R58). -/
def armTimeout (s : State) : State := if s.xpe.ackWait then linkLost .armAck s else s

/-! ### Sweeps and pings (R32 to R34, R59, R60) -/

/-- The crosspoint a sweep reads after one, in its fixed order (R33). -/
def sweepNext (d : Fin 64) : Level → Option (Fin 64 × Level)
  | .v => some (d, .a)
  | .a => some (d, .b)
  | .b => (finOf 64 (d.1 + 1)).map fun e => (e, .v)

/-- A sweep begins at destination 0, level V (R32, R33). -/
def startSweep (s : State) : State := { s with xpe := { s.xpe with sweep := some (0, .v) } }

/-- A sweep answer changes the map entry (R25). -/
def readBack (d : Fin 64) (l : Level) (number : Byte) (s : State) : State :=
  match sourceOf number.toNat with
  | some x => setMapEntry d l ⟨x, .known⟩ .readback s
  | none => mapMismatch d l none number .readback s

/-- The sweep goes on to its next READ, or finishes: SWEEP then becomes RUNNING (R33, R34). -/
def sweepOn (d : Fin 64) (l : Level) (s : State) : State :=
  match sweepNext d l with
  | some x => { s with xpe := { s.xpe with sweep := some x } }
  | none =>
    { s with xpe := { s.xpe with sweep := none }, runState := if s.runState = .sweep then .running else s.runState }

/-- A READ ANSWER arrives (R33, R34, R178): ignored unless it names the READ outstanding.  DESIGN CHOICE: the message names no READ but by its crosspoint, so
one that comes as this row is the answer of the READ outstanding; the answer of a READ that an abandoned sweep sent, which R34 ignores also while a new
sweep has the same crosspoint outstanding, comes as FABRIC_MESSAGE_IGNORED with its flag late (log entry 42). -/
def receiveRead (dest level number : Byte) (s : State) : State :=
  match s.xpe.sweep with
  | none => s
  | some (d, l) =>
    if dest.toNat = d.1 ∧ level.toNat = l.num then sweepOn d l (readBack d l number s) else s

/-- A READ's 1 ms runs out (R33, R58). -/
def readTimeout (s : State) : State := if s.xpe.sweep.isSome then linkLost .readAnswer s else s

/-- A ping is answered (R60): the link becomes UP with a FABRIC report, and a sweep starts in SWEEP or RUNNING. -/
def receivePing (s : State) : State :=
  if s.xpe.pingWait = true ∧ s.xpe.link = .down then
    let s1 := reportNow .fabricUp { s with xpe := { s.xpe with link := .up, pingWait := false } }
    if s.serving then startSweep s1 else s1
  else s

/-- A ping's 1 ms runs out (R59): nothing else changes. -/
def pingTimeout (s : State) : State := { s with xpe := { s.xpe with pingWait := false } }

/-- Boundary `k` reaches the XPE (R52, R59): an UP link awaits a switch report, outside HALTED; a DOWN link is pinged, and outside HALTED its map is
declared settled. -/
def xpeBoundary (s : State) : State :=
  match s.xpe.link with
  | .up =>
    if s.runState = .halted then s else { s with xpe := { s.xpe with reportWait := some s.rtu.frame } }
  | .down =>
    let s1 := { s with xpe := { s.xpe with pingWait := true } }
    if s.runState = .halted then s1 else declareSettled s.rtu.frame s1

/-! ### Cues (R16, R17) -/

/-- A cue's fields fit a label: every enabled field is equal (R16). -/
def Cue.fits (c : Cue) (l : Label) : Bool :=
  (!c.enables.getLsbD 0 || decide (c.label.hh = l.hh)) && (!c.enables.getLsbD 1 || decide (c.label.mm = l.mm)) &&
  (!c.enables.getLsbD 2 || decide (c.label.ss = l.ss)) && (!c.enables.getLsbD 3 || decide (c.label.ff = l.ff))

/-- Replaces cue `n`. -/
def State.setCue (s : State) (n : Fin 16) (c : Cue) : State := { s with rtu := { s.rtu with cues := upd s.rtu.cues n c } }

/-- A cue after it has matched (R17). -/
def Cue.matched (c : Cue) : Cue :=
  match c.repeats with
  | .once => { c with state := .spent }
  | .every => c

/-- One cue is compared with the look-ahead label, and a match dealt with (R16, R17). -/
def cueMatch (ahead : Label) (n : Fin 16) (s : State) : State :=
  let c := s.rtu.cues[n]
  if c.state = .armed ∧ c.fits ahead = true then
    let s1 := s.setCue n c.matched
    match c.action with
    | .report => reportNow (.cue n 0) s1
    | .fire x =>
      fire { salvo := x, due := some (s.rtu.frame + 2), requester := c.requester, cause := .cue,
             origin := .cue n s.rtu.frame s.rtu.label } s1
  else s

/-- The look-ahead label: succession applied twice to the frame's label (R16). -/
def State.lookAhead (s : State) : Label := successor s.rtu.rate (successor s.rtu.rate s.rtu.label)

/-- The cues are compared at a boundary while RUNNING, lowest number first (R16, R17). -/
def compareCues (s : State) : State :=
  if s.runState = .running then (List.finRange 16).foldl (fun x n => cueMatch s.lookAhead n x) s else s

/-! ### Talk keys and panels at a boundary (R95, R124, R141) -/

/-- A key's state after the examination of boundary `k` with its panel's threshold (R95). -/
def KeyState.examined (st : KeyState) (k : FrameIndex) (threshold : Nat) : KeyState :=
  match st with
  | .pending p => if (threshold : Int) ≤ frameDiff k p then .held else .pending p
  | .idle => .idle
  | .held => .held
  | .latched => .latched
  | .closing => .closing

/-- The TKE examines every PENDING key for the boundary that began this frame, with the thresholds as they stood at it (R95), once. -/
def examineKeys (s : State) : State :=
  match s.tke.latchDue with
  | none => s
  | some ts =>
    { s with tke :=
      { s.tke with
        latchDue := none
        keys := tabulate fun p => tabulate fun k => (s.tke.keys[p][k]).examined s.rtu.frame ts[p] } }

/-- The end of one refusal flash: the lamps of an ONLINE panel are derived again (R142); of any other panel, the key's lamp alone (R141; DEDUCED, log
entry 30). -/
def endFlash (p : Fin 24) (k : Fin 48) (s : State) : State :=
  relight p (fun j => decide ((s.panel p).state = .online ∨ j = k)) s

/-- The end of the refusal flashes that the last boundary brought to 0 (R141, R142). -/
def endFlashes (s : State) : State :=
  s.pnc.flashEnds.foldl (fun s x => endFlash x.1 x.2 s) { s with pnc := { s.pnc with flashEnds := [] } }

/-- The keys of a panel whose timer is at 1, and so falls to 0 now. -/
def Panel.endingFlashes (x : Panel) : List (Fin 48) := (List.finRange 48).filter fun k => decide (x.timers[k] = 1)

/-- Every refusal-flash timer above 0 falls by one (R141), and no press of TAKE is taken ahead of a notice of the frame that ends (log entry 46). -/
def tickTimers (s : State) : State :=
  { s with pnc :=
    { s.pnc with
      panels := tabulate fun p => { s.panel p with timers := tabulate fun k => (s.panel p).timers[k] - 1, noticed := false }
      flashEnds := (List.finRange 24).flatMap fun p => (s.panel p).endingFlashes.map fun k => (p, k) } }

/-- The panel whose number is the frame index modulo 32 becomes due for a probe, if it may be probed in SWEEP or RUNNING, and its link is served
(R124, R128). -/
def probeDue (s : State) : State :=
  match finOf 24 (s.rtu.frame.toNat % 32) with
  | none => s
  | some p =>
    if s.serving = true ∧ (s.panel p).probed = true then
      serveLink (linkOf p) (s.setPanel p { s.panel p with probeDue := true })
    else s

/-! ### The boundary (R8) -/

/-- The label of the next frame: the jam label, or the successor (R8). -/
def Rtu.nextLabel (r : Rtu) : Label := r.jam.getD (successor r.rate r.label)

/-- The RTU advances the frame index and labels the new frame (R8, R12). -/
def nextFrame (s : State) : State :=
  { s with rtu := { s.rtu with frame := s.rtu.frame + 1, label := s.rtu.nextLabel, jam := none } }

/-- The boundary reaches the TKE: the retry of a DOWN link, and the examination of its PENDING keys, with the thresholds as they stand, becomes due
(R95, R116). -/
def tkeBoundary (s : State) : State :=
  talkRetry { s with tke := { s.tke with latchDue := some (tabulate fun p => (s.panel p).threshold) } }

/-- A frame boundary in every block (R8), after what was left of the last one (R95, R141). -/
def makeBoundary (gpi : BitVec 16) (s : State) : State :=
  xpeBoundary (probeDue (tickTimers (tkeBoundary (sampleInputs gpi (compareCues (nextFrame (endFlashes (examineKeys s))))))))

/-! ### The reference monitor (R3 to R7) -/

/-- Sets the RTU's record. -/
def State.setRtu (s : State) (r : Rtu) : State := { s with rtu := r }

/-- The oscillator advances. -/
def Rtu.advance (r : Rtu) (ticks : Nat) : Rtu := { r with now := r.now + ticks, count := r.count + ticks }

/-- The scaler reaches the period of the rate in use and makes a boundary (R1, R8). -/
def scalerBoundary (gpi : BitVec 16) (s : State) : State :=
  makeBoundary gpi (s.setRtu { s.rtu with now := s.rtu.now + (s.rtu.rate.period - s.rtu.count), count := 0 })

/-- A pulse now lies inside the monitor's window (R3). -/
def Rtu.inWindow (r : Rtu) : Bool :=
  match r.expected with
  | none => false
  | some e => decide (e ≤ r.now + r.rate.halfWidth) && decide (r.now ≤ e + r.rate.halfWidth)

/-- The monitor after a good pulse (R3). -/
def Rtu.goodPulse (r : Rtu) : Rtu :=
  { r with good := min 8 (r.good + 1), missing := 0, expected := some (r.now + r.rate.period) }

/-- The monitor after a stray pulse (R3). -/
def Rtu.strayPulse (r : Rtu) : Rtu :=
  match r.ref with
  | .locked => r
  | .free => { r with good := 0, expected := some (r.now + r.rate.period) }
  | .flywheel => { r with good := 0, expected := some (r.now + r.rate.period) }

/-- In LOCKED, a good pulse is early while the scaler has not yet made the boundary at the expected instant (R5). -/
def Rtu.pulseEarly (r : Rtu) : Bool :=
  match r.expected with
  | none => false
  | some e => decide (r.now < e) || decide (r.rate.period ≤ r.count)

/-- A change of the reference state, with its REF report (R7). -/
def changeRef (x : RefState) (s : State) : State :=
  if s.rtu.ref = x then s else reportNow (.ref x) (s.setRtu { s.rtu with ref := x })

/-- The scaler count restarts at 0. -/
def restartCount (s : State) : State := s.setRtu { s.rtu with count := 0 }

/-- A pulse arrives at the reference input `elapsed` ticks after the last timed event (R3 to R6). -/
def referencePulse (elapsed : Nat) (gpi : BitVec 16) (s : State) : State :=
  let r := s.rtu.advance elapsed
  if r.inWindow then
    let s1 := s.setRtu r.goodPulse
    match r.ref with
    | .locked => if r.pulseEarly then makeBoundary gpi (restartCount s1) else restartCount s1
    | .free | .flywheel =>
      if r.goodPulse.good = 8 then
        let s2 := restartCount (changeRef .locked s1)
        if r.rate.halfPeriod ≤ r.count then makeBoundary gpi s2 else s2
      else s1
  else s.setRtu r.strayPulse

/-- The reference window closes with no good pulse in it (R3, R5): the time moves on to the closing instant.  Without an expected instant there is no
window to close (log entry 5). -/
def windowClose (s : State) : State :=
  match s.rtu.expected with
  | none => s
  | some e =>
    let r := s.rtu.advance (e + s.rtu.rate.halfWidth - s.rtu.now)
    let n := min 2 (r.missing + 1)
    let s1 := s.setRtu { r with missing := n, good := 0, expected := some (e + r.rate.period) }
    if r.ref = .locked ∧ n = 2 then changeRef .flywheel s1 else s1

end Sys2Proof.Machine
end

