-- ==== Sys2Proof/Machine/Start.lean ====
section
/-! DEFINITION. The run states (R172 to R176): the start, HALTING and HALTED, the three resets, CONTROL writes (R170), posts, withdraws and the start of
a strip (R151 to R153, R156). -/

namespace Sys2Proof.Machine

/-! ### The start (R2, R144, R148, R172) -/

/-- The anchor copy a start takes from the block (R148). -/
def AnchorBlock.copy (b : AnchorBlock) (a : Nat) : AnchorCopy :=
  { address := a, orders := b.orders, reports := b.reports, journal := b.journal, mirror := b.mirror, threshold := b.threshold }

/-- The anchor address or a window differs from the copy it replaces (R148). -/
def copyMoved (old : Option AnchorCopy) (c : AnchorCopy) : Bool :=
  match old with
  | none => true
  | some o => decide (o.address ≠ c.address) || decide (o.orders ≠ c.orders) || decide (o.reports ≠ c.reports)

/-- Takes the anchor copy, emptying the post queue when it moved (R148). -/
def takeCopy (c : AnchorCopy) (s : State) : State :=
  { s with csi := { s.csi with copy := some c, posts := if copyMoved s.csi.copy c then [] else s.csi.posts } }

/-- A rate change (R2): the new rate, FREE with its REF report, a cleared monitor, and the label and jam request rewritten. -/
def changeRate (r : Rate) (s : State) : State :=
  changeRef .free (s.setRtu
    { s.rtu with
      rate := r, expected := none, good := 0, missing := 0, label := rewriteLabel r s.rtu.label
      jam := s.rtu.jam.map (rewriteLabel r) })

/-- A panel at a start (R144): a due probe of before is dropped; an enabled panel that is ONLINE, JOINING or WRONG_MODEL becomes JOINING. -/
def rejoin (p : Fin 24) (s : State) : State :=
  let s1 := s.setPanel p { s.panel p with probeDue := false }
  if (s.panel p).enabled = true ∧
      ((s.panel p).state = .online ∨ (s.panel p).state = .joining ∨ (s.panel p).state = .wrongModel) then
    changePanel p .joining s1
  else s1

/-- The engine becomes SWEEP: a sweep starts if the fabric link is UP, the talk link writes, and the panel links begin to serve (R32, R117, R128,
R172). -/
def enterSweep (s : State) : State :=
  let s1 := { s with runState := .sweep }
  let s2 := if s.xpe.link = .up then startSweep s1 else s1
  (List.finRange 4).foldl (fun s l => serveLink l s) (talkSend s2)

/-- The next rewrite of the mirrors is complete (R166). -/
def nextComplete (s : State) : State := { s with csi := { s.csi with mirror := { s.csi.mirror with complete := true } } }

/-- The actions of a start that passed every check (R172), in the order in which the rule lists them.  DESIGN CHOICE: the panels that become JOINING, and so their PANEL reports,
are taken by rising panel number, and the REF report of a rate change comes before them (log entry 41). -/
def startActions (r : Rate) (c : AnchorCopy) (s : State) : State :=
  let s1 := takeCopy c s
  let s2 := if r = s.rtu.rate then s1 else changeRate r s1
  enterSweep (nextComplete (fullRefresh (forPanels rejoin s2)))

/-- The boundary a rate change makes at once when the count has already reached the new period (R2). -/
def overdueBoundary (r : Rate) (old : Rate) (gpi : BitVec 16) (s : State) : State :=
  if r ≠ old ∧ r.period ≤ s.rtu.count then makeBoundary gpi (restartCount s) else s

/-- Clears CONTROL RUN. -/
def clearRun (s : State) : State := { s with control := { s.control with run := false } }

/-- A start (R172): the anchor block is checked (R148); a failed start raises BAD_ANCHOR and clears RUN. -/
def tryStart (gpi : BitVec 16) (s : State) : State :=
  let b := anchorBlockAt s.store s.csi.anchor.toNat
  match rateOf b.rateCode with
  | none => clearRun (raise .badAnchor s)
  | some r =>
    if anchorChecks s.csi.anchor.toNat b then
      overdueBoundary r s.rtu.rate gpi (startActions r (b.copy s.csi.anchor.toNat) s)
    else clearRun (raise .badAnchor s)

/-- The oscillator advances before a timed event. -/
def advance (ticks : Nat) (s : State) : State := s.setRtu (s.rtu.advance ticks)

/-! ### CONTROL writes (R170) -/

/-- The enable mask takes the written value (R170, step 4). -/
def setMask (m : BitVec 5) (s : State) : State := { s with control := { s.control with mask := m } }

/-- FREEZE takes the written value; a change acts as R167 gives (R170, step 3). -/
def setFreezeBit (f : Bool) (s : State) : State :=
  if s.control.freeze = f then s
  else
    let s1 := { s with control := { s.control with freeze := f } }
    if f then freezeMirrors s1 else thawMirrors s1

/-- RUN becomes set (R170, R172, R174): in HALTED a start is taken; in HALTING the bit is held. -/
def setRun (gpi : BitVec 16) (s : State) : State :=
  let s1 := { s with control := { s.control with run := true } }
  if s.control.run = false ∧ s.runState = .halted then tryStart gpi s1 else s1

/-- The running strip is marked to stop after the order it is working on (R152, R157).  DEDUCED: between two orders, that is the order it would work
next (log entry 43). -/
def stopStrip (s : State) : State :=
  { s with csi := { s.csi with running := s.csi.running.map fun r => { r with stop := true } } }

/-- The conditions for entering HALTED hold (R174). -/
def State.mayHalt (s : State) : Bool :=
  decide (s.csi.running = none) && decide (s.xpe.armed = []) && (decide (s.tke.queue = []) || decide (s.tke.link = .down))

/-- The engine becomes HALTED (R174): a sweep in progress is abandoned, and no switch report is awaited. -/
def halt (s : State) : State := { s with runState := .halted, xpe := { s.xpe with sweep := none, reportWait := none } }

/-- The engine enters HALTED when the conditions of R174 hold in HALTING, and a start is taken if RUN is set.  Otherwise nothing happens
(log entry 5). -/
def enterHalted (elapsed : Nat) (gpi : BitVec 16) (s : State) : State :=
  if s.runState = .halting ∧ s.mayHalt = true then
    if s.control.run then tryStart gpi (advance elapsed (halt s)) else halt s
  else s

/-- The ticks since the last timed event, at an event that does not bring them: a free value that does not reach the next boundary of the scaler (log
entry 40). -/
def State.freeElapsed (s : State) : Nat :=
  if s.rtu.count < s.rtu.rate.period then Config.freeTicks s.freeCount % (s.rtu.rate.period - s.rtu.count) else 0

/-- The conditions of R174 are examined: at the first moment they all hold in HALTING the engine enters HALTED, and takes a start if RUN is set.  The
event that made them hold brings no time and no contacts, so a start has free values for them (log entry 40). -/
def examineHalting (s : State) : State :=
  if s.control.run then
    if s.runState = .halting ∧ s.mayHalt = true then
      enterHalted s.freeElapsed (Config.freeContacts s.freeCount) { s with freeCount := s.freeCount + 1 }
    else s
  else enterHalted 0 0 s

/-- An event that can make a condition of R174 true, and the examination that follows it when it was taken. -/
def examinedAfter (taken : Bool) (event : State → State) (s : State) : State := if taken then examineHalting (event s) else event s

/-- The engine becomes HALTING (R105, R173): the running strip is marked to stop, every talk key is forced off, and the conditions for HALTED are
examined (R174). -/
def enterHalting (s : State) : State := examineHalting (forceOff (fun _ _ => true) (stopStrip { s with runState := .halting }))

/-- RUN becomes clear (R170, R173): in SWEEP or RUNNING the engine becomes HALTING. -/
def runCleared (s : State) : State :=
  let s1 := clearRun s
  if s.serving then enterHalting s1 else s1

/-! ### Resets (R175, R176) -/

/-- The journal is reset (R165): while the anchor copy is valid, W takes the read index and is written, and the gap count is written as 0. -/
def resetJournal (s : State) : State :=
  match s.csi.copy with
  | none => { s with csi := { s.csi with gap := 0, saturated := false } }
  | some c =>
    let w := readIndex c s.store
    setGap c 0 false
      { s with store := storeWrite s.store (c.address + 0x1E) w, csi := { s.csi with writeIndex := w } }

/-- The CSI at an engine reset (R160, R165, R169).  DESIGN CHOICE: the next rewrite is complete from the reset on, so a rewrite that still waits at the reset
writes every entry, though R169 says "as the first after the next start" (log entry 53). -/
def resetCsi (s : State) : State :=
  let s1 := resetJournal s
  { s1 with csi := { s1.csi with posts := [], running := none, mirror := { s1.csi.mirror with complete := true } } }

/-- A destination at an engine reset (R35): the map is doubted and the protect is gone. -/
def Destination.afterReset (d : Destination) : Destination := { d.doubted with protect := none }

/-- The XPE at an engine reset (R35, R61): the take queue's application entries get TAKE_DONE DROPPED.  DESIGN CHOICE: the reports are made in queue
order, head first (log entry 41). -/
def resetXpe (s : State) : State :=
  let s1 := { s with xpe :=
    { s.xpe with
      dests := tabulate fun d => s.xpe.dests[d].afterReset
      queue := [], armed := [], reportWait := none, ackWait := false, sweep := none, pingWait := false, reading := none
      fires := [] } }
  s.xpe.queue.foldl (fun s u => unitDone .dropped u s) s1

/-- The TKE at an engine reset (R106, R121): every key IDLE, the derived sets and the target table afresh, the queue and the flight gone. -/
def resetTke (s : State) : State :=
  let s1 := retarget (deriveSets (idleKeys (fun _ _ => true) s))
  { s1 with tke := { s1.tke with queue := [], flight := none, fails := 0 } }

/-- A panel at an engine reset (R146). -/
def Panel.afterReset (x : Panel) : Panel :=
  { x with
    selection := Selection.cleared, lampSet := [], full := false, timers := Vector.replicate 48 0, probeDue := false,
    noticed := false }

/-- The PNC at an engine reset (R146). -/
def resetPnc (s : State) : State :=
  { s with pnc :=
    { panels := tabulate fun p => (s.panel p).afterReset
      links := Vector.replicate 4 { out := none, round := 0 }
      mapReads := []
      flashEnds := [] } }

/-- The engine reset (R175): the journal first (R165), then every block, leaving the engine HALTED with RUN clear. -/
def resetEngine (s : State) : State :=
  let s1 := resetPnc (resetTke (resetXpe (resetCsi s)))
  { s1 with runState := .halted, control := { s1.control with run := false }, replaced := [] }

/-- A fire request whose strip an interface restart ended (R160). -/
def FireRequest.orphaned (q : FireRequest) : FireRequest := if q.origin = .order then { q with origin := .orphan } else q

/-- The orders that the blocks are still working on no longer have a strip (R160). -/
def orphanOrders (s : State) : State :=
  { s with
    xpe :=
      { s.xpe with
        reading := s.xpe.reading.map fun x => { x with request := x.request.orphaned }
        fires := s.xpe.fires.map FireRequest.orphaned }
    pnc := { s.pnc with mapReads := s.pnc.mapReads.map fun x => { x with forOrder := false } } }

/-- The interface restart (R176): the CSI alone restarts (R160, R165, R169). -/
def restartInterface (s : State) : State :=
  let s1 := resetJournal (orphanOrders s)
  { s1 with
    control := { s1.control with freeze := false }
    csi :=
      { s1.csi with
        posts := [], running := none, notice := 0
        mirror := { s1.csi.mirror with writing := none, waiting := none, complete := true, freeze := .live } } }

/-- Power-on reset (R176): every block at its power-on values.  The engine writes nothing to the common store, and the commands that wait go on
waiting (log entry 1). -/
def powerOn (s : State) : State :=
  { State.reset with store := s.store, pending := s.pending, freeCount := s.freeCount }

/-! ### Posts and withdraws (R151, R152) -/

/-- A post (R151): QUEUED, or refused with BAD_POST. -/
def postSlot (slot : Fin 8) (s : State) : State :=
  if s.serving = true ∧ s.inHands slot = false then
    match s.csi.copy.bind fun c => postable c s.store slot with
    | none => raise .badPost s
    | some p => writeSlotState slot 2 { s with csi := { s.csi with posts := s.csi.posts ++ [p] } }
  else raise .badPost s

/-- A withdraw of a slot in the post queue (R152). -/
def withdrawQueued (p : Posted) (s : State) : State :=
  let s1 := { s with csi := { s.csi with posts := s.csi.posts.filter fun q => decide (q.slot ≠ p.slot) } }
  slotDone p.slot (writeCounts p.slot 0 0 (writeOutcomes p .withdrawn 0 s.rtu.frame 0 p.count s1))

/-- A withdraw (R152).  DEDUCED: a running strip taken between two orders still works the next one, then stops (log entry 43). -/
def withdrawSlot (slot : Fin 8) (s : State) : State :=
  match s.csi.posts.find? fun p => decide (p.slot = slot) with
  | some p => withdrawQueued p s
  | none =>
    match s.csi.running with
    | none => s
    | some r => if r.slot.slot = slot then stopStrip s else s

/-! ### Starting a strip (R49, R153, R156) -/

/-- The order records of a posted list. -/
def stripRecords (m : Memory) (p : Posted) : List OrderRecord := (List.range p.count).map fun i => storeReads m (orderAddress p i) 32

/-- The due form bytes of a TAKE order that must agree in a SALVO strip; the value of NOW is not read (R49). -/
def dueBytes (r : OrderRecord) : Nat × Nat := (ob r 7, if ob r 7 = 0 then 0 else ob32 r 8)

/-- Every record agrees with the first (R49, R156). -/
def agree {α : Type} [DecidableEq α] (f : OrderRecord → α) : List OrderRecord → Bool
  | [] => true
  | r :: rs => rs.all fun x => decide (f x = f r)

/-- The CSI's check of a SALVO strip (R156): TAKE orders only, one owner tag and level, at most 48. -/
def salvoStripSound (rs : List OrderRecord) : Bool :=
  rs.all (fun r => decide (orderKind r = 7)) && agree (fun r => (ob r 1, ob r 2)) rs && decide (rs.length ≤ 48)

/-- The XPE's decision on a SALVO strip's takes (R49). -/
def decideStrip (rs : List OrderRecord) (q : Requester) (s : State) : State × Code × Nat :=
  match salvoEntries s.xpe.dests (rs.map orderTakeOf) with
  | none => (s, .refusedSalvo, 0)
  | some es =>
    if agree dueBytes rs then
      match dueFrame s.rtu.rate s.rtu.frame s.rtu.label (dueFormOf (rs.headD [])) with
      | .error e => (s, e, 0)
      | .ok due => decideSalvo es due q .salvo none s
    else (s, .refusedSalvo, 0)

/-- The outcome of a SALVO strip (R49, R156): refused by the CSI, or decided by the XPE. -/
def salvoStrip (rs : List OrderRecord) (s : State) : State × Code × Nat :=
  if salvoStripSound rs then
    match orderRequester (rs.headD []) with
    | none => (s, .refusedArg, 0)
    | some q => decideStrip rs q s
  else (s, .refusedSalvo, 0)

/-- A SALVO strip is one step (R156, R157): its outcome goes to every order, and it ends. -/
def runSalvoStrip (p : Posted) (s : State) : State :=
  let x := salvoStrip (stripRecords s.store p) s
  slotDone p.slot (writeCounts p.slot p.count (if x.2.1.isRefusal then p.count else 0)
    (writeOutcomes p x.2.1 x.2.2 s.rtu.frame 0 p.count x.1))

/-- The running strip at its start (R153). -/
def Posted.begin (p : Posted) : Running := { slot := p, next := 0, processed := 0, refused := 0, stop := false, waiting := none }

/-- A strip starts (R153): the head slot becomes the running strip, or is done at once when it is a SALVO strip (R156).  When no strip can start, nothing
happens (log entry 5). -/
def startStrip (s : State) : State :=
  match s.csi.posts with
  | [] => s
  | p :: rest =>
    if s.csi.running = none ∧ s.serving = true then
      let s1 := writeCounts p.slot 0 0 (writeSlotState p.slot 3 { s with csi := { s.csi with posts := rest } })
      if p.salvo then runSalvoStrip p s1
      else { s1 with csi := { s1.csi with running := some p.begin } }
    else s

end Sys2Proof.Machine
end

