-- ==== Sys2Proof/Machine/FabricCommands.lean ====
section
/-! DEFINITION. The meanings of what arrives, or does not arrive, on the fabric link (R33, R52 to R60, R178), and of SALVO_READ_DONE. -/

namespace Sys2Proof.Machine

/-- SALVO_READ_DONE (R47, R48). -/
def execSalvoReadDone (s : State) : Host.Outcome State Fault Refusal := .next (examinedAfter s.xpe.reading.isSome finishRead s)

/-- ARM_ACK (R55). -/
def execArmAck (s : State) : Host.Outcome State Fault Refusal := .next (receiveArmAck s)

/-- ARM_ACK_TIMEOUT (R58). -/
def execArmAckTimeout (s : State) : Host.Outcome State Fault Refusal := .next (examinedAfter s.xpe.ackWait armTimeout s)

/-- A switch report is taken, when it is awaited; in HALTING the armed set it empties may let the engine enter HALTED (R174). -/
def takeReport (lines : List ReportLine) (s : State) : State := examinedAfter (s.awaitsReport lines) (receiveReport lines) s

/-- SWITCH_REPORT (R52, R56). -/
def execSwitchReport (lines : List ReportLine) (s : State) : Host.Outcome State Fault Refusal := .next (takeReport lines s)

/-- SWITCH_REPORT_TIMEOUT (R58). -/
def execSwitchReportTimeout (s : State) : Host.Outcome State Fault Refusal := .next (examinedAfter s.xpe.reportWait.isSome reportTimeout s)

/-- READ_ANSWER (R33), to the READ outstanding (log entry 42). -/
def execReadAnswer (dest level number : Byte) (s : State) : Host.Outcome State Fault Refusal := .next (receiveRead dest level number s)

/-- READ_TIMEOUT (R58). -/
def execReadTimeout (s : State) : Host.Outcome State Fault Refusal := .next (examinedAfter s.xpe.sweep.isSome readTimeout s)

/-- PING_ANSWER (R60). -/
def execPingAnswer (s : State) : Host.Outcome State Fault Refusal := .next (receivePing s)

/-- PING_TIMEOUT (R59). -/
def execPingTimeout (s : State) : Host.Outcome State Fault Refusal := .next (pingTimeout s)

/-- A message of the router goes to the wait it answers; one that is not awaited changes nothing there (R178). -/
def receiveFabric (m : FabricMessage) (s : State) : State :=
  match m with
  | .armAck => receiveArmAck s
  | .switchReport lines => takeReport lines s
  | .readAnswer d l x => receiveRead d l x s
  | .pingAnswer => receivePing s

/-- FABRIC_MESSAGE_IGNORED (R34, R178): a run of bytes on the fabric link.  One that is no message, or is not awaited, is ignored, and so is one that
answers a wait, a ping or a READ that is over, whatever is awaited now; one that answers what is awaited is the message it is (log entries 5 and 42). -/
def execFabricMessageIgnored (message : LinkBytes) (s : State) : Host.Outcome State Fault Refusal :=
  if message.late then .next s
  else match fabricMessage message.bytes with
    | none => .next s
    | some m => .next (receiveFabric m s)

end Sys2Proof.Machine
end

