-- ==== Sys2Proof/Machine/HostCommands.lean ====
section
/-! DEFINITION. The meanings of the control computer's register accesses (R147, R151, R152, R167 to R173), and of ENTER_HALTED, STRIP_START and
MIRROR_REWRITE_END. -/

namespace Sys2Proof.Machine

/-- A write to ANCHOR (R147): bits 31..22 are not read, and outside HALTED the write is ignored. -/
def writeAnchor (value : BitVec 32) (s : State) : State :=
  if s.runState = .halted then { s with csi := { s.csi with anchor := value.truncate 22 } } else s

/-- ANCHOR_WRITE (R147). -/
def execAnchorWrite (pre : HostWrites) (value : BitVec 32) (s : State) : Host.Outcome State Fault Refusal :=
  landed pre s (writeAnchor value)

/-- POST (R151). -/
def execPost (pre : HostWrites) (slot : Fin 8) (s : State) : Host.Outcome State Fault Refusal := landed pre s (postSlot slot)

/-- WITHDRAW (R152). -/
def execWithdraw (pre : HostWrites) (slot : Fin 8) (s : State) : Host.Outcome State Fault Refusal := landed pre s (withdrawSlot slot)

/-- START (R170, R172): a CONTROL write that sets RUN, with the FREEZE bit and the enable mask it gives.  DESIGN CHOICE: FREEZE and the
mask are taken before RUN (log entry 11). -/
def execStart (pre : HostWrites) (elapsed : Nat) (gpi : BitVec 16) (freeze : Bool) (mask : BitVec 5) (s : State) :
    Host.Outcome State Fault Refusal :=
  landed pre s (fun s => setRun gpi (setFreezeBit freeze (setMask mask (advance elapsed s))))

/-- RUN_CLEAR (R170, R173): a CONTROL write that clears RUN, with the FREEZE bit and the enable mask it gives.  DESIGN CHOICE: FREEZE and the
mask are taken before RUN (log entry 11). -/
def execRunClear (pre : HostWrites) (freeze : Bool) (mask : BitVec 5) (s : State) : Host.Outcome State Fault Refusal :=
  landed pre s (fun s => runCleared (setFreezeBit freeze (setMask mask s)))

/-- FREEZE_SET (R167, R170): a CONTROL write that sets FREEZE, with RUN as held. -/
def execFreezeSet (pre : HostWrites) (mask : BitVec 5) (s : State) : Host.Outcome State Fault Refusal :=
  landed pre s (fun s => setFreezeBit true (setMask mask s))

/-- FREEZE_CLEAR (R167, R170): a CONTROL write that clears FREEZE, with RUN as held. -/
def execFreezeClear (pre : HostWrites) (mask : BitVec 5) (s : State) : Host.Outcome State Fault Refusal :=
  landed pre s (fun s => setFreezeBit false (setMask mask s))

/-- ENGINE_RESET (R170, R175): a CONTROL write with ERS, and with IRS when `restart` is set; the interface restart is taken after the engine reset. -/
def execEngineReset (pre : HostWrites) (restart : Bool) (mask : BitVec 5) (s : State) : Host.Outcome State Fault Refusal :=
  landed pre s (fun s => setMask mask (if restart then restartInterface (resetEngine s) else resetEngine s))

/-- INTERFACE_RESTART (R170, R176): a CONTROL write with IRS and without ERS.  It ends the running strip, so a HALTING engine may enter HALTED (R174). -/
def execInterfaceRestart (pre : HostWrites) (mask : BitVec 5) (s : State) : Host.Outcome State Fault Refusal :=
  landed pre s (fun s => examineHalting (setMask mask (restartInterface s)))

/-- NOTICE_ENABLE_WRITE (R168, R170): a CONTROL write with RUN and FREEZE as held. -/
def execNoticeEnableWrite (pre : HostWrites) (mask : BitVec 5) (s : State) : Host.Outcome State Fault Refusal :=
  landed pre s (setMask mask)

/-- Clears each cause written as 1 (R168). -/
def clearCauses (causes : BitVec 5) (s : State) : State := { s with csi := { s.csi with notice := s.csi.notice &&& ~~~causes } }

/-- NOTICE_CLEAR (R168): a write to NOTICE. -/
def execNoticeClear (pre : HostWrites) (causes : BitVec 5) (s : State) : Host.Outcome State Fault Refusal :=
  landed pre s (clearCauses causes)

/-- STATUS_WRITE (R171): STATUS is read-only, so the value written has no effect. -/
def execStatusWrite (pre : HostWrites) (_value : BitVec 32) (s : State) : Host.Outcome State Fault Refusal := landed pre s id

/-- ENTER_HALTED (R174). -/
def execEnterHalted (elapsed : Nat) (gpi : BitVec 16) (s : State) : Host.Outcome State Fault Refusal := .next (enterHalted elapsed gpi s)

/-- STRIP_START (R153, R156). -/
def execStripStart (s : State) : Host.Outcome State Fault Refusal := .next (startStrip s)

/-- MIRROR_REWRITE_END (R166, R167). -/
def execMirrorRewriteEnd (s : State) : Host.Outcome State Fault Refusal := .next (endRewrite s)

end Sys2Proof.Machine
end

