-- ==== Sys2Proof/Machine/Blocks.lean ====
section
/-! DEFINITION. What each order's owning block decides (The orders, R154): its checks in order, its effects and its answer. -/

namespace Sys2Proof.Machine

/-- An order refused. -/
def refused (c : Code) (s : State) : State × Answer := (s, .outcome c 0)

/-- An order done, with nothing clamped. -/
def done (s : State) : State × Answer := (s, .outcome .done 0)

/-- An order done, with the number of values clamped (R158). -/
def doneClamped (n : Nat) (s : State) : State × Answer := (s, .outcome (doneCode n) n)

/-! ### RTU -/

/-- TIME_SET (R12). -/
def timeSet (_ : Requester) (r : OrderRecord) (s : State) : State × Answer :=
  match labelRefusal s.rtu.rate (labelAt r 4) with
  | some c => refused c s
  | none => done (s.setRtu { s.rtu with jam := some (labelAt r 4) })

/-- CUE_SET (R14). -/
def cueSet (q : Requester) (r : OrderRecord) (s : State) : State × Answer :=
  match cueSetArgs s.rtu.rate q r with
  | none => refused .refusedArg s
  | some (n, c) =>
    if c.enables = 15 ∧ c.label.skipped s.rtu.rate = true then refused .refusedLabel s else done (s.setCue n c)

/-- CUE_CLEAR (R15). -/
def cueClear (_ : Requester) (r : OrderRecord) (s : State) : State × Answer :=
  match finOf 16 (ob r 4) with
  | none => refused .refusedArg s
  | some n => done (s.setCue n { s.rtu.cues[n] with state := .empty })

/-! ### XPE -/

/-- A destination with the configuration DEST_SET writes (R22). -/
def Destination.configured (d : Destination) (c : DestConfig) : Destination :=
  { d with present := c.present, kind := c.kind, reentry := c.reentry, redGpi := c.redGpi, greenGpi := c.greenGpi }

/-- DEST_SET (R22, R23): the queued entries of a removed level are cancelled. -/
def destSet (_ : Requester) (r : OrderRecord) (s : State) : State × Answer :=
  match destSetArgs r with
  | none => refused .refusedArg s
  | some (d, c) => done (cancelEntries d ((s.dest d).present &&& ~~~c.present) (s.setDest d ((s.dest d).configured c))).1

/-- Replaces a salvo record. -/
def State.setSalvo (s : State) (n : Fin 16) (x : Option SalvoRecord) : State := { s with xpe := { s.xpe with salvos := upd s.xpe.salvos n x } }

/-- SALVO_SET (R46). -/
def salvoSet (_ : Requester) (r : OrderRecord) (s : State) : State × Answer :=
  match finOf 16 (ob r 4) with
  | none => refused .refusedArg s
  | some n =>
    if 48 < ob r 5 then refused .refusedArg s
    else if ob r 5 = 0 then done (s.setSalvo n none)
    else if ob32 r 8 % 16 = 0 ∧ s.inOrderWindow (ob32 r 8) (16 * ob r 5) = true then
      done (s.setSalvo n (some { address := ob32 r 8, count := ob r 5 }))
    else refused .refusedAddress s

/-- STEP_SET (R50). -/
def stepSet (_ : Requester) (r : OrderRecord) (s : State) : State × Answer :=
  match stepSetArgs r with
  | none => refused .refusedArg s
  | some (g, x) => done { s with xpe := { s.xpe with steps := upd s.xpe.steps g x } }

/-- The destination and level mask that a TAKE or CANCEL names. -/
def destMaskOf (r : OrderRecord) : Option (Fin 64 × LevelMask) :=
  match finOf 64 (ob r 4), maskOf (ob r 5) with
  | some d, some m => some (d, m)
  | _, _ => none

/-- TAKE (R38). -/
def take (q : Requester) (r : OrderRecord) (s : State) : State × Answer :=
  match destMaskOf r, sourceOf (ob r 6) with
  | some (d, m), some x =>
    let y := requestTake d m x (dueFormOf r) q .take s
    (y.1, .outcome y.2.1 y.2.2)
  | _, _ => refused .refusedArg s

/-- CANCEL (R45). -/
def cancel (_ : Requester) (r : OrderRecord) (s : State) : State × Answer :=
  match destMaskOf r with
  | none => refused .refusedArg s
  | some (d, m) =>
    let y := cancelEntries d m s
    (y.1, .outcome .done y.2)

/-- PROTECT (R28). -/
def protect (q : Requester) (r : OrderRecord) (s : State) : State × Answer :=
  match finOf 64 (ob r 4) with
  | none => refused .refusedArg s
  | some d =>
    let y := requestProtect d q s
    (y.1, .outcome y.2 0)

/-- RELEASE (R29). -/
def release (q : Requester) (r : OrderRecord) (s : State) : State × Answer :=
  match finOf 64 (ob r 4) with
  | none => refused .refusedArg s
  | some d =>
    let y := requestRelease d q s
    (y.1, .outcome y.2 0)

/-- SALVO_FIRE (R47): a request whose salvo number and due form pass waits for the salvo reader. -/
def salvoFire (q : Requester) (r : OrderRecord) (s : State) : State × Answer :=
  match finOf 16 (ob r 4) with
  | none => refused .refusedArg s
  | some n =>
    match dueFrame s.rtu.rate s.rtu.frame s.rtu.label (dueFormOf r) with
    | .error e => refused e s
    | .ok due => (fire { salvo := n, due := due, requester := q, cause := .salvo, origin := .order } (markWaiting s), .later)

/-! ### PNC -/

/-- A panel with the six fields PANEL_SET writes (R123). -/
def Panel.configured (x : Panel) (c : PanelConfig) : Panel :=
  { x with
    enabled := c.enabled, model := c.model, level := c.level, station := c.station, mode := c.mode
    threshold := (clampInt 4 50 c.threshold).toNat }

/-- PANEL_SET's demotion request (R31, R123 step 1).  DESIGN CHOICE: a PROTECT lamp whose protect it clears is not derived again by this; it waits for
the next derivation of its panel, at the latest the next settled map (log entry 52). -/
def panelDemotion (p : Fin 24) (old new : Fin 4) (s : State) : State := if old < new then demote p new s else s

/-- PANEL_SET's change of the station port (R123 step 2): every key of the panel is forced off, and a derivation follows. -/
def panelStation (p : Fin 24) (changed : Bool) (s : State) : State := if changed then derivation (idleKeys (ofPanel p) s) else s

/-- PANEL_SET's change of the router mode (R123 step 3). -/
def panelMode (p : Fin 24) (changed : Bool) (s : State) : State := if changed then reselect p Selection.noPreset s else s

/-- PANEL_SET's changes of the panel's state (R123 steps 4 to 6).  DESIGN CHOICE: a panel that is JOINING already when its expected model code changes enters
JOINING again, so its missed-reply count and sequence bit become 0; its state does not change, so no PANEL report is made (log entry 58). -/
def panelState (p : Fin 24) (old : Panel) (c : PanelConfig) (s : State) : State :=
  if old.enabled = true ∧ c.enabled = false then
    changePanel p .absent (s.setPanel p { s.panel p with probeDue := false })
  else if old.enabled = true ∧ c.enabled = true ∧ old.model ≠ c.model ∧ (old.state = .joining ∨ old.state = .online) then
    changePanel p .joining s
  else s

/-- PANEL_SET (R123).  The lamps it derives are those of R142's list: by the derivation after the force-off and by the change of router
mode; DESIGN CHOICE: a change of level derives none (log entry 52).  DESIGN CHOICE: the PROTECT reports of the demotion stand before the PANEL report of a
changed state, in the order of R123's steps; R163 lets the reports of two blocks come either first (log entry 41). -/
def panelSet (_ : Requester) (r : OrderRecord) (s : State) : State × Answer :=
  match panelSetArgs r with
  | none => refused .refusedArg s
  | some (p, c) =>
    let old := s.panel p
    let s1 := panelDemotion p old.level c.level (s.setPanel p (old.configured c))
    let s2 := panelMode p (decide (old.mode ≠ c.mode)) (panelStation p (decide (old.station ≠ c.station)) s1)
    doneClamped (clampedCount 4 50 c.threshold) (panelState p old c s2)

/-- KEYMAP_LOAD (R133): the panel number, then the address; then the read begins. -/
def keymapLoad (_ : Requester) (r : OrderRecord) (s : State) : State × Answer :=
  match finOf 24 (ob r 4) with
  | none => refused .refusedArg s
  | some p =>
    if ob32 r 8 % 16 = 0 ∧ s.inOrderWindow (ob32 r 8) 768 = true then
      let s1 := markWaiting s
      ({ s1 with pnc := { s1.pnc with mapReads := s1.pnc.mapReads ++ [{ panel := p, address := ob32 r 8, forOrder := true, mark := s1.replaced.length }] } },
        .later)
    else refused .refusedAddress s

/-- A panel with the host lamp value of a key's entry written (R143). -/
def Panel.withLamp (x : Panel) (k : Fin 48) (lamp : Byte) : Panel := { x with map := upd x.map k { x.map[k] with lamp := lamp } }

/-- LAMP_SET (R143). -/
def lampSet (_ : Requester) (r : OrderRecord) (s : State) : State × Answer :=
  match finOf 24 (ob r 4), finOf 48 (ob r 5), lampOfByte (ob r 6) with
  | some p, some k, some _ =>
    if (s.panel p).map[k].fn = .report then
      done (derivePanel p (s.setPanel p ((s.panel p).withLamp k (r.getD 6 0))))
    else refused .refusedArg s
  | _, _, _ => refused .refusedArg s

/-! ### TKE -/

/-- A defined IFB record, other than `except`, names a port (R89, R91). -/
def State.namedByIfb (s : State) (p : Fin 32) (other : Fin 8 → Bool) : Bool :=
  (List.finRange 8).any fun i => other i && decide (s.tke.ifbs[i].port = some p)

/-- PORT_SET (R89): a station port that becomes an IFB port forces off its panels' keys.  DESIGN CHOICE: the keys of all these panels are forced off
together, with one derivation, not panel by panel (log entry 49). -/
def portSet (_ : Requester) (r : OrderRecord) (s : State) : State × Answer :=
  match portSetArgs r with
  | none => refused .refusedArg s
  | some (p, x, n) =>
    if x.kind ≠ .ifb ∧ s.namedByIfb p (fun _ => true) = true then refused .refusedArg s
    else
      let s1 := { s with tke := { s.tke with ports := upd s.tke.ports p x } }
      let s2 := if x.kind = .ifb then forceOff (fun q _ => decide ((s.panel q).station = some p)) s1 else s1
      doneClamped n (derivation s2)

/-- GROUP_SET (R90). -/
def groupSet (_ : Requester) (r : OrderRecord) (s : State) : State × Answer :=
  match finOf 8 (ob r 4) with
  | none => refused .refusedArg s
  | some g => done (derivation { s with tke := { s.tke with groups := upd s.tke.groups g (BitVec.ofNat 32 (ob32 r 8)) } })

/-- The interrupt depth byte as stored: FULL, or clamped to 120 (R107). -/
def storedDepth (x : Byte) : Byte := if x = 0xFF ∨ x.toNat ≤ 120 then x else 120

/-- The fields of an IFB_SET that gives a port, its level fields clamped (R91, R107). -/
def ifbFields (p : Fin 32) (r : OrderRecord) : Ifb :=
  { port := some p, d1 := r.getD 6 0, d2 := r.getD 7 0, own := r.getD 8 0
    level := BitVec.ofInt 8 (clampInt (-60) 0 (signedAt r 9)), depth := storedDepth (r.getD 10 0), selector := .d1 }

/-- The number of fields an IFB_SET clamps. -/
def ifbClamps (r : OrderRecord) : Nat :=
  clampedCount (-60) 0 (signedAt r 9) + (if storedDepth (r.getD 10 0) = r.getD 10 0 then 0 else 1)

/-- The port of an IFB_SET that gives one, when its checks pass (R91, checks 2 to 6). -/
def State.ifbPort (s : State) (i : Fin 8) (r : OrderRecord) : Option (Fin 32) := do
  let p ← finOf 32 (ob r 5)
  let _ ← finOf 64 (ob r 6)
  let _ ← optionalOf 64 (ob r 7)
  let _ ← optionalOf 128 (ob r 8)
  if s.tke.ports[p].kind = .ifb ∧ s.namedByIfb p (fun j => decide (j ≠ i)) = false then some p else none

/-- Replaces an IFB record. -/
def State.setIfb (s : State) (i : Fin 8) (x : Ifb) : State := { s with tke := { s.tke with ifbs := upd s.tke.ifbs i x } }

/-- IFB_SET (R91, R112, R113): an undefining order stores its other fields as written; a defining one evaluates the selector.  DESIGN CHOICE: the evaluation
comes first and the derivation then recomputes what both touch, so changed crosspoints enter the coefficient queue before the record's feed, whose
evaluation enters nothing of its own (log entry 44). -/
def ifbSet (_ : Requester) (r : OrderRecord) (s : State) : State × Answer :=
  match finOf 8 (ob r 4) with
  | none => refused .refusedArg s
  | some i =>
    if ob r 5 = 254 then
      done (derivation (s.setIfb i
        { s.tke.ifbs[i] with
          port := none, d1 := r.getD 6 0, d2 := r.getD 7 0, own := r.getD 8 0, level := r.getD 9 0, depth := r.getD 10 0 }))
    else
      match s.ifbPort i r with
      | none => refused .refusedArg s
      | some p =>
        doneClamped (ifbClamps r)
          (derivation (s.setIfb i { ifbFields p r with selector := s.selectorOf (ifbFields p r) }))

/-- One key of one panel. -/
def oneKey (p : Fin 24) (k : Fin 48) : Fin 24 → Fin 48 → Bool := fun q j => decide (q = p) && decide (j = k)

/-- The panel and key of a TALK_FORCE, and whether it is ON. -/
def talkForceArgs (r : OrderRecord) : Option (Fin 24 × Fin 48 × Bool) :=
  match finOf 24 (ob r 4), finOf 48 (ob r 5), flagOf (ob r 6) with
  | some p, some k, some on => some (p, k, on)
  | _, _, _ => none

/-- TALK_FORCE (R98). -/
def talkForce (_ : Requester) (r : OrderRecord) (s : State) : State × Answer :=
  match talkForceArgs r with
  | none => refused .refusedArg s
  | some (p, k, on) =>
    if (s.panel p).map[k].fn ≠ .talk then refused .refusedArg s
    else if on = false then done (forceOff (oneKey p k) s)
    else if (s.panel p).state = .online ∧ s.usableStation p = true ∧ s.runState ≠ .halting then done (setKey p k .latched s)
    else refused .refusedArg s

/-! ### TLY -/

/-- A channel with the six fields TALLY_SET writes (R77). -/
def Channel.configured (c : Channel) (x : ChannelConfig) : Channel :=
  { c with source := x.source, mask := x.mask, mode := x.mode, call := x.call, polarity := x.polarity, master := x.master }

/-- The master a TALLY_SET gives may be the channel's (R77, checks 6 to 8). -/
def State.masterAllowed (s : State) (c : Fin 64) (m : Option (Fin 64)) : Bool :=
  match m with
  | none => true
  | some m =>
    decide (m ≠ c) && s.tly.channels[m].master.isNone &&
      (List.finRange 64).all fun j => decide (j = c) || decide (s.tly.channels[j].master ≠ some c)

/-- Replaces a tally channel record. -/
def State.setChannel (s : State) (c : Fin 64) (x : Channel) : State := { s with tly := { s.tly with channels := upd s.tly.channels c x } }

/-- TALLY_SET (R77). -/
def tallySet (_ : Requester) (r : OrderRecord) (s : State) : State × Answer :=
  match tallySetArgs r with
  | none => refused .refusedArg s
  | some (c, x) =>
    if s.masterAllowed c x.master then done (s.setChannel c (s.tly.channels[c].configured x)) else refused .refusedArg s

/-- TALLY_FORCE (R78). -/
def tallyForce (_ : Requester) (r : OrderRecord) (s : State) : State × Answer :=
  match tallyForceArgs r with
  | none => refused .refusedArg s
  | some (c, f) => done (s.setChannel c { s.tly.channels[c] with force := f })

/-- GPI_SET (R65): a set flag makes one report of the current level. -/
def gpiSet (_ : Requester) (r : OrderRecord) (s : State) : State × Answer :=
  match finOf 16 (ob r 4), flagOf (ob r 5) with
  | some i, some f =>
    let s1 := { s with tly := { s.tly with gpi := upd s.tly.gpi i { s.tly.gpi[i] with reports := f } } }
    done (if f then reportNow (.gpi i s.tly.gpi[i].asserted) s1 else s1)
  | _, _ => refused .refusedArg s

end Sys2Proof.Machine
end

