-- ==== Sys2Proof/Machine/OrderCommands.lean ====
section
/-! DEFINITION. The meanings of the orders: the running strip works its next order, of the command's kind, through its owning block (R154). -/

namespace Sys2Proof.Machine

/-- The kinds of order that the manual lists (Order records). -/
def listedKind (x : Nat) : Bool := decide (1 ≤ x) && decide (x ≤ 21)

/-- The running strip's next order is refused with REFUSED_KIND when its kind is not listed (R154, step 2). -/
def refuseKind (s : State) : State :=
  match s.currentOrder with
  | none => s
  | some (r, rec) => if listedKind (orderKind rec) then s else finishOrder r .refusedKind 0 s.rtu.frame s

/-- ORDER_OF_UNKNOWN_KIND (R154). -/
def execOrderOfUnknownKind (s : State) : Host.Outcome State Fault Refusal := .next (examinedAfter s.csi.running.isSome refuseKind s)

/-- The running strip works its next order when it is of kind `kind` (R154); where that ends the strip, the engine may enter HALTED (R174). -/
def runOrder (kind : Nat) (block : Requester → OrderRecord → State → State × Answer) (s : State) : State :=
  examinedAfter s.csi.running.isSome (workOrder kind block) s

/-- TIME_SET (R12, R154). -/
def execTimeSet (s : State) : Host.Outcome State Fault Refusal := .next (runOrder 1 timeSet s)

/-- CUE_SET (R14, R154). -/
def execCueSet (s : State) : Host.Outcome State Fault Refusal := .next (runOrder 2 cueSet s)

/-- CUE_CLEAR (R15, R154). -/
def execCueClear (s : State) : Host.Outcome State Fault Refusal := .next (runOrder 3 cueClear s)

/-- DEST_SET (R22, R23, R154). -/
def execDestSet (s : State) : Host.Outcome State Fault Refusal := .next (runOrder 4 destSet s)

/-- SALVO_SET (R46, R154). -/
def execSalvoSet (s : State) : Host.Outcome State Fault Refusal := .next (runOrder 5 salvoSet s)

/-- STEP_SET (R50, R154). -/
def execStepSet (s : State) : Host.Outcome State Fault Refusal := .next (runOrder 6 stepSet s)

/-- TAKE (R38, R154). -/
def execTake (s : State) : Host.Outcome State Fault Refusal := .next (runOrder 7 take s)

/-- CANCEL (R45, R154). -/
def execCancel (s : State) : Host.Outcome State Fault Refusal := .next (runOrder 8 cancel s)

/-- PROTECT (R28, R154). -/
def execProtect (s : State) : Host.Outcome State Fault Refusal := .next (runOrder 9 protect s)

/-- RELEASE (R29, R154). -/
def execRelease (s : State) : Host.Outcome State Fault Refusal := .next (runOrder 10 release s)

/-- SALVO_FIRE (R47, R154). -/
def execSalvoFire (s : State) : Host.Outcome State Fault Refusal := .next (runOrder 11 salvoFire s)

/-- PANEL_SET (R123, R154). -/
def execPanelSet (s : State) : Host.Outcome State Fault Refusal := .next (runOrder 12 panelSet s)

/-- KEYMAP_LOAD (R133, R154). -/
def execKeymapLoad (s : State) : Host.Outcome State Fault Refusal := .next (runOrder 13 keymapLoad s)

/-- LAMP_SET (R143, R154). -/
def execLampSet (s : State) : Host.Outcome State Fault Refusal := .next (runOrder 14 lampSet s)

/-- PORT_SET (R89, R154). -/
def execPortSet (s : State) : Host.Outcome State Fault Refusal := .next (runOrder 15 portSet s)

/-- GROUP_SET (R90, R154). -/
def execGroupSet (s : State) : Host.Outcome State Fault Refusal := .next (runOrder 16 groupSet s)

/-- IFB_SET (R91, R154). -/
def execIfbSet (s : State) : Host.Outcome State Fault Refusal := .next (runOrder 17 ifbSet s)

/-- TALK_FORCE (R98, R154). -/
def execTalkForce (s : State) : Host.Outcome State Fault Refusal := .next (runOrder 18 talkForce s)

/-- TALLY_SET (R77, R154). -/
def execTallySet (s : State) : Host.Outcome State Fault Refusal := .next (runOrder 19 tallySet s)

/-- TALLY_FORCE (R78, R154). -/
def execTallyForce (s : State) : Host.Outcome State Fault Refusal := .next (runOrder 20 tallyForce s)

/-- GPI_SET (R65, R154). -/
def execGpiSet (s : State) : Host.Outcome State Fault Refusal := .next (runOrder 21 gpiSet s)

end Sys2Proof.Machine
end

