-- ==== Sys2Proof/Machine/PanelCommands.lean ====
section
/-! DEFINITION. The meanings of what arrives, or does not arrive, on the panel links (R124 to R131, R178), and of KEYMAP_READ_DONE. -/

namespace Sys2Proof.Machine

/-- KEYMAP_READ_DONE (R133); where its order was the last of a strip, the engine may enter HALTED (R174). -/
def execKeymapReadDone (s : State) : Host.Outcome State Fault Refusal := .next (examinedAfter (!s.pnc.mapReads.isEmpty) finishMapRead s)

/-- REPLY (R130). -/
def execReply (link : Fin 4) (message : PanelReply) (s : State) : Host.Outcome State Fault Refusal := .next (receiveReply link message s)

/-- POLL_WINDOW_CLOSE (R126). -/
def execPollWindowClose (link : Fin 4) (s : State) : Host.Outcome State Fault Refusal := .next (closePoll link s)

/-- PROBE_ANSWER (R124, R125). -/
def execProbeAnswer (link : Fin 4) (address : Byte) (code : BitVec 16) (s : State) : Host.Outcome State Fault Refusal :=
  .next (receiveProbeAnswer link address code s)

/-- PROBE_TIMEOUT (R124, R125). -/
def execProbeTimeout (link : Fin 4) (s : State) : Host.Outcome State Fault Refusal := .next (closeProbe link s)

/-- The message outstanding on a link asks for the model code in its reply. -/
def State.asksCode (s : State) (link : Fin 4) : Bool :=
  match s.pnc.links[link].out with
  | some (.poll _ ident _ _ _) => ident
  | _ => false

/-- PANEL_MESSAGE_IGNORED (R178): a run of bytes on a panel link.  One that is no message, or answers nothing outstanding, is ignored, and so is one
that answers a poll or probe that is over, whatever is outstanding now; one that answers the poll or probe outstanding is the answer to it (log
entries 5 and 42). -/
def execPanelMessageIgnored (link : Fin 4) (message : LinkBytes) (s : State) : Host.Outcome State Fault Refusal :=
  if message.late then .next s
  else match panelMessage (s.asksCode link) message.bytes with
    | none => .next s
    | some (.probeAnswer a c) => .next (receiveProbeAnswer link a c s)
    | some (.reply r) => .next (receiveReply link r s)

end Sys2Proof.Machine
end

