-- ==== Sys2Proof/Machine/RtuCommands.lean ====
section
/-! DEFINITION. The meanings of POWER_ON_RESET, FRAME_BOUNDARY, REFERENCE_PULSE, REFERENCE_WINDOW_CLOSE, AUTO_LATCH_THRESHOLD and
REFUSAL_FLASH_END. -/

namespace Sys2Proof.Machine

/-- POWER_ON_RESET (R176). -/
def execPowerOnReset (s : State) : Host.Outcome State Fault Refusal := .next (powerOn s)

/-- FRAME_BOUNDARY (R8): the scaler count reaches the frame period. -/
def execFrameBoundary (gpi : BitVec 16) (s : State) : Host.Outcome State Fault Refusal := .next (scalerBoundary gpi s)

/-- REFERENCE_PULSE (R3 to R6). -/
def execReferencePulse (elapsed : Nat) (gpi : BitVec 16) (s : State) : Host.Outcome State Fault Refusal :=
  .next (referencePulse elapsed gpi s)

/-- REFERENCE_WINDOW_CLOSE (R3, R5). -/
def execReferenceWindowClose (s : State) : Host.Outcome State Fault Refusal := .next (windowClose s)

/-- AUTO_LATCH_THRESHOLD (R95): the boundary that began this frame examines the PENDING keys. -/
def execAutoLatchThreshold (s : State) : Host.Outcome State Fault Refusal := .next (examineKeys s)

/-- REFUSAL_FLASH_END (R141): the lamps of the flashes that the boundary ended are derived again. -/
def execRefusalFlashEnd (s : State) : Host.Outcome State Fault Refusal := .next (endFlashes s)

end Sys2Proof.Machine
end

