-- ==== Sys2Proof/Machine/TalkCommands.lean ====
section
/-! DEFINITION. The meanings of what arrives, or does not arrive, on the talk link (R115 to R118, R178). -/

namespace Sys2Proof.Machine

/-- The matrix acknowledges; in HALTING the queue that is then empty may let the engine enter HALTED (R174). -/
def takeAck (s : State) : State := examinedAfter s.tke.flight.isSome talkAcknowledged s

/-- An attempt fails; in HALTING the link that is then DOWN may let the engine enter HALTED (R174). -/
def takeFailure (s : State) : State := examinedAfter s.tke.flight.isSome talkFailed s

/-- ACK (R115, R117), within the 200 us of the attempt in flight (log entry 42). -/
def execAck (s : State) : Host.Outcome State Fault Refusal := .next (takeAck s)

/-- REFUSE (R115, R116), within the 200 us of the attempt in flight (log entry 42). -/
def execRefuse (s : State) : Host.Outcome State Fault Refusal := .next (takeFailure s)

/-- TALK_WRITE_TIMEOUT (R115, R116). -/
def execTalkWriteTimeout (s : State) : Host.Outcome State Fault Refusal := .next (takeFailure s)

/-- TALK_MESSAGE_IGNORED (R115, R178): a run of bytes on the talk link.  One that is no message, or finds nothing in flight, is ignored, and so is an ACK
or REFUSE that comes after the 200 us of the attempt it answers, whatever is in flight now; one that answers the attempt in flight is the answer to
it (log entries 5 and 42). -/
def execTalkMessageIgnored (message : LinkBytes) (s : State) : Host.Outcome State Fault Refusal :=
  if message.late then .next s
  else match talkMessage message.bytes with
    | none => .next s
    | some true => .next (takeAck s)
    | some false => .next (takeFailure s)

end Sys2Proof.Machine
end

