-- ==== Sys2Proof/Machine/Dispatch.lean ====
section
/-! DEFINITION. The dispatch of a command to its meaning: one arm per constructor of Instr, in the table's order. -/

namespace Sys2Proof.Machine

def exec (i : Instr) (s : State) : Host.Outcome State Fault Refusal :=
  match i with
  | .powerOnReset => Sys2Proof.Machine.execPowerOnReset s
  | .frameBoundary gpi => Sys2Proof.Machine.execFrameBoundary gpi s
  | .referencePulse elapsed gpi => Sys2Proof.Machine.execReferencePulse elapsed gpi s
  | .referenceWindowClose => Sys2Proof.Machine.execReferenceWindowClose s
  | .anchorWrite pre value => Sys2Proof.Machine.execAnchorWrite pre value s
  | .post pre slot => Sys2Proof.Machine.execPost pre slot s
  | .withdraw pre slot => Sys2Proof.Machine.execWithdraw pre slot s
  | .start pre elapsed gpi freeze mask => Sys2Proof.Machine.execStart pre elapsed gpi freeze mask s
  | .runClear pre freeze mask => Sys2Proof.Machine.execRunClear pre freeze mask s
  | .freezeSet pre mask => Sys2Proof.Machine.execFreezeSet pre mask s
  | .freezeClear pre mask => Sys2Proof.Machine.execFreezeClear pre mask s
  | .engineReset pre restart mask => Sys2Proof.Machine.execEngineReset pre restart mask s
  | .interfaceRestart pre mask => Sys2Proof.Machine.execInterfaceRestart pre mask s
  | .noticeEnableWrite pre mask => Sys2Proof.Machine.execNoticeEnableWrite pre mask s
  | .noticeClear pre causes => Sys2Proof.Machine.execNoticeClear pre causes s
  | .statusWrite pre value => Sys2Proof.Machine.execStatusWrite pre value s
  | .enterHalted elapsed gpi => Sys2Proof.Machine.execEnterHalted elapsed gpi s
  | .stripStart => Sys2Proof.Machine.execStripStart s
  | .orderOfUnknownKind => Sys2Proof.Machine.execOrderOfUnknownKind s
  | .timeSet => Sys2Proof.Machine.execTimeSet s
  | .cueSet => Sys2Proof.Machine.execCueSet s
  | .cueClear => Sys2Proof.Machine.execCueClear s
  | .destSet => Sys2Proof.Machine.execDestSet s
  | .salvoSet => Sys2Proof.Machine.execSalvoSet s
  | .stepSet => Sys2Proof.Machine.execStepSet s
  | .take => Sys2Proof.Machine.execTake s
  | .cancel => Sys2Proof.Machine.execCancel s
  | .protect => Sys2Proof.Machine.execProtect s
  | .release => Sys2Proof.Machine.execRelease s
  | .salvoFire => Sys2Proof.Machine.execSalvoFire s
  | .salvoReadDone => Sys2Proof.Machine.execSalvoReadDone s
  | .panelSet => Sys2Proof.Machine.execPanelSet s
  | .keymapLoad => Sys2Proof.Machine.execKeymapLoad s
  | .keymapReadDone => Sys2Proof.Machine.execKeymapReadDone s
  | .lampSet => Sys2Proof.Machine.execLampSet s
  | .portSet => Sys2Proof.Machine.execPortSet s
  | .groupSet => Sys2Proof.Machine.execGroupSet s
  | .ifbSet => Sys2Proof.Machine.execIfbSet s
  | .talkForce => Sys2Proof.Machine.execTalkForce s
  | .tallySet => Sys2Proof.Machine.execTallySet s
  | .tallyForce => Sys2Proof.Machine.execTallyForce s
  | .gpiSet => Sys2Proof.Machine.execGpiSet s
  | .armAck => Sys2Proof.Machine.execArmAck s
  | .armAckTimeout => Sys2Proof.Machine.execArmAckTimeout s
  | .switchReport lines => Sys2Proof.Machine.execSwitchReport lines s
  | .switchReportTimeout => Sys2Proof.Machine.execSwitchReportTimeout s
  | .mirrorRewriteEnd => Sys2Proof.Machine.execMirrorRewriteEnd s
  | .readAnswer dest level number => Sys2Proof.Machine.execReadAnswer dest level number s
  | .readTimeout => Sys2Proof.Machine.execReadTimeout s
  | .pingAnswer => Sys2Proof.Machine.execPingAnswer s
  | .pingTimeout => Sys2Proof.Machine.execPingTimeout s
  | .fabricMessageIgnored message => Sys2Proof.Machine.execFabricMessageIgnored message s
  | .reply link message => Sys2Proof.Machine.execReply link message s
  | .pollWindowClose link => Sys2Proof.Machine.execPollWindowClose link s
  | .probeAnswer link address code => Sys2Proof.Machine.execProbeAnswer link address code s
  | .probeTimeout link => Sys2Proof.Machine.execProbeTimeout link s
  | .autoLatchThreshold => Sys2Proof.Machine.execAutoLatchThreshold s
  | .refusalFlashEnd => Sys2Proof.Machine.execRefusalFlashEnd s
  | .ack => Sys2Proof.Machine.execAck s
  | .refuse => Sys2Proof.Machine.execRefuse s
  | .talkWriteTimeout => Sys2Proof.Machine.execTalkWriteTimeout s
  | .talkMessageIgnored message => Sys2Proof.Machine.execTalkMessageIgnored message s
  | .panelMessageIgnored link message => Sys2Proof.Machine.execPanelMessageIgnored link message s

end Sys2Proof.Machine
end

