-- ==== Sys2Proof/WellFormed.lean ====
section
/-! DEFINITION. Well-formed commands: what the outside of the engine can send. -/

namespace Sys2Proof

/-- The control computer's writes to the common store that ride on a command; no writes for the others. -/
def Instr.pre : Instr → HostWrites
  | .anchorWrite pre _ => pre
  | .post pre _ => pre
  | .withdraw pre _ => pre
  | .start pre _ _ _ _ => pre
  | .runClear pre _ _ => pre
  | .freezeSet pre _ => pre
  | .freezeClear pre _ => pre
  | .engineReset pre _ _ => pre
  | .interfaceRestart pre _ => pre
  | .noticeEnableWrite pre _ => pre
  | .noticeClear pre _ => pre
  | .statusWrite pre _ => pre
  | .powerOnReset | .frameBoundary _ | .referencePulse _ _ | .referenceWindowClose | .enterHalted _ _ | .stripStart
  | .orderOfUnknownKind | .timeSet | .cueSet | .cueClear | .destSet | .salvoSet | .stepSet | .take | .cancel | .protect
  | .release | .salvoFire | .salvoReadDone | .panelSet | .keymapLoad | .keymapReadDone | .lampSet | .portSet | .groupSet
  | .ifbSet | .talkForce | .tallySet | .tallyForce | .gpiSet | .armAck | .armAckTimeout | .switchReport _
  | .switchReportTimeout | .mirrorRewriteEnd | .readAnswer _ _ _ | .readTimeout | .pingAnswer | .pingTimeout
  | .fabricMessageIgnored _ | .reply _ _ | .pollWindowClose _ | .probeAnswer _ _ _ | .probeTimeout _ | .autoLatchThreshold
  | .refusalFlashEnd | .ack | .refuse | .talkWriteTimeout | .talkMessageIgnored _ | .panelMessageIgnored _ _ => []

/-- Every write of the control computer lies inside the common store. -/
def writesInside (w : HostWrites) : Bool := w.all fun c => decide (c.1 < storeSize)

/-- The counts of a link message fit the message: a SWITCH REPORT has at most 48 lines, a REPLY's event count is one byte. -/
def Instr.countsFit : Instr → Bool
  | .switchReport lines => decide (lines.length ≤ 48)
  | .reply _ m => decide (m.events.length ≤ 255)
  | .powerOnReset | .frameBoundary _ | .referencePulse _ _ | .referenceWindowClose | .anchorWrite _ _ | .post _ _
  | .withdraw _ _ | .start _ _ _ _ _ | .runClear _ _ _ | .freezeSet _ _ | .freezeClear _ _ | .engineReset _ _ _
  | .interfaceRestart _ _ | .noticeEnableWrite _ _ | .noticeClear _ _ | .statusWrite _ _ | .enterHalted _ _ | .stripStart
  | .orderOfUnknownKind | .timeSet | .cueSet | .cueClear | .destSet | .salvoSet | .stepSet | .take | .cancel | .protect
  | .release | .salvoFire | .salvoReadDone | .panelSet | .keymapLoad | .keymapReadDone | .lampSet | .portSet | .groupSet
  | .ifbSet | .talkForce | .tallySet | .tallyForce | .gpiSet | .armAck | .armAckTimeout
  | .switchReportTimeout | .mirrorRewriteEnd | .readAnswer _ _ _ | .readTimeout | .pingAnswer | .pingTimeout
  | .fabricMessageIgnored _ | .pollWindowClose _ | .probeAnswer _ _ _ | .probeTimeout _ | .autoLatchThreshold
  | .refusalFlashEnd | .ack | .refuse | .talkWriteTimeout | .talkMessageIgnored _ | .panelMessageIgnored _ _ => true

/-- A well-formed command. -/
def Instr.wellFormed (i : Instr) : Bool := writesInside i.pre && i.countsFit

end Sys2Proof
end

