-- ==== Sys2Proof/Safety.lean ====
section
/-! DEFINITION. What a safe state is: the invariants the manual states of the whole machine, and the terms the statements use. -/

namespace Sys2Proof.Machine

/-! ### Terms of the statements -/

/-- The running strip is at an order of kind `kind`: strip `r`, record `rec`, requester `q` (R154, steps 1 to 3). -/
def State.working (s : State) (kind : Nat) (r : Running) (rec : OrderRecord) (q : Requester) : Prop :=
  s.currentOrder = some (r, rec) ∧ orderKind rec = kind ∧ orderRequester rec = some q

/-- Two crosspoints are for different destination levels. -/
def Crosspoint.differs (x y : Crosspoint) : Prop := x.dest ≠ y.dest ∨ x.level ≠ y.level

/-- Frames from `g` to `f` are at least `n`, read as a signed value. -/
def atLeast (n : Nat) (f g : FrameIndex) : Prop := (n : Int) ≤ frameDiff f g

/-- Byte `b` gives the optional number `x`: the number, or FEH when it is absent (Encodings shared by the layouts). -/
def optionalByte {n : Nat} (b : Nat) (x : Option (Fin n)) : Prop := (b = 254 ∧ x = none) ∨ ∃ i, x = some i ∧ b = i.1

/-- Byte `b` gives the source `x`: its number, or FFH for PARK (Encodings shared by the layouts). -/
def sourceByte (b : Nat) (x : Source) : Prop := (b = 255 ∧ x = .park) ∨ ∃ i, x = .input i ∧ b = i.1

/-! #### Due forms (R37, R39, R40) -/

/-- The label at 08H of an order is well formed under the rate in use (R10). -/
def State.dueLabelFormed (s : State) (rec : OrderRecord) : Prop :=
  ob rec 8 < 24 ∧ ob rec 9 < 60 ∧ ob rec 10 < 60 ∧ ob rec 11 < s.rtu.rate.base

/-- The label at 08H of an order is one that the rate in use skips (R10). -/
def State.dueLabelSkipped (s : State) (rec : OrderRecord) : Prop := ob rec 10 = 0 ∧ ob rec 11 < s.rtu.rate.drop ∧ ob rec 9 % 10 ≠ 0

/-- The label at 08H of an order lies `n` frames ahead of the current frame's label, modulo the day frames (R40). -/
def State.dueLabelAhead (s : State) (rec : OrderRecord) (n : Nat) : Prop :=
  n < s.rtu.rate.dayFrames ∧ (n + s.rtu.label.count s.rtu.rate) % s.rtu.rate.dayFrames = (labelAt rec 8).count s.rtu.rate % s.rtu.rate.dayFrames

/-- The due form at 07H of an order, with its value at 08H, fixes the due frame `due` for a request taken now: none for NOW (R39, R40). -/
def State.dueFixed (s : State) (rec : OrderRecord) (due : Option FrameIndex) : Prop :=
  let f := BitVec.ofNat 32 (ob32 rec 8)
  (ob rec 7 = 0 ∧ due = none) ∨ (ob rec 7 = 1 ∧ 2 ≤ (f - s.rtu.frame).toInt ∧ due = some f) ∨
  (ob rec 7 = 2 ∧ s.dueLabelFormed rec ∧ ¬ s.dueLabelSkipped rec ∧
    ∃ n, s.dueLabelAhead rec n ∧ 2 ≤ n ∧ 2 * n ≤ s.rtu.rate.dayFrames ∧ due = some (s.rtu.frame + BitVec.ofNat 32 n))

/-- The due form at 07H of an order, with its value at 08H, is refused with `c` for a request taken now (R39, R40, R177). -/
def State.dueRefused (s : State) (rec : OrderRecord) (c : Code) : Prop :=
  (3 ≤ ob rec 7 ∧ c = .refusedArg) ∨ (ob rec 7 = 1 ∧ (BitVec.ofNat 32 (ob32 rec 8) - s.rtu.frame).toInt < 2 ∧ c = .refusedLate) ∨
  (ob rec 7 = 2 ∧ ¬ s.dueLabelFormed rec ∧ c = .refusedArg) ∨ (ob rec 7 = 2 ∧ s.dueLabelFormed rec ∧ s.dueLabelSkipped rec ∧ c = .refusedLabel) ∨
  (ob rec 7 = 2 ∧ s.dueLabelFormed rec ∧ ¬ s.dueLabelSkipped rec ∧
    ∃ n, s.dueLabelAhead rec n ∧ (n < 2 ∨ s.rtu.rate.dayFrames < 2 * n) ∧ c = .refusedLate)

/-! #### Salvo lists and take notices (R44, R47, R136) -/

/-- A take of a salvo list, by its three bytes, names `l` and the destination has it. -/
def State.keepsLevel (s : State) (y : RawTake) (l : Level) : Bool := y.mask.testBit l.num && (s.dest (Fin.ofNat 64 y.dest)).present.getLsbD l.num

/-- The entries that the takes of a salvo give, take by take and level by level (R47; their order is the model's choice, log entry 41). -/
def State.salvoTakes (s : State) (list : List RawTake) : List Crosspoint :=
  list.flatMap fun y => ([Level.v, .a, .b].filter fun l => s.keepsLevel y l).map fun l =>
    { dest := Fin.ofNat 64 y.dest, level := l, source := if y.source = 255 then .park else .input (Fin.ofNat 128 y.source) }

/-- A list is a salvo (R47): each take names a destination 0..63, a source 0..127 or PARK and a non-empty mask, and keeps a level; no two entries are for one
destination level, and there are at most 48. -/
def State.isSalvo (s : State) (list : List RawTake) : Prop :=
  (∀ y ∈ list, y.dest < 64 ∧ 1 ≤ y.mask ∧ y.mask ≤ 7 ∧ (y.source < 128 ∨ y.source = 255) ∧
    [Level.v, .a, .b].filter (s.keepsLevel y) ≠ []) ∧
  (s.salvoTakes list).Pairwise Crosspoint.differs ∧ (s.salvoTakes list).length ≤ 48

/-- The take queue when unit `u` is admitted (R42): every entry for a destination level that `u` has an entry for has left it, units left empty are gone, and `u`
has joined the tail. -/
def State.queueWith (s : State) (u : TakeUnit) : List TakeUnit :=
  ((s.xpe.queue.map fun v => { v with entries := v.entries.filter fun y => !(u.entries.any fun e => decide (e.dest = y.dest ∧ e.level = y.level)) }).filter
    fun v => !v.entries.isEmpty) ++ [u]

/-- The number of entries of a queue. -/
def entriesIn (q : List TakeUnit) : Nat := (q.map fun u => u.entries.length).sum

/-- A state after the TAKE_DONE reports SUPERSEDED of an admission with the entries `es`, one for each replaced entry of an application (R42, R57; their order
is the model's choice, log entry 41). -/
def State.tellSuperseded (s : State) (es : List Crosspoint) : State :=
  let queued := s.xpe.queue.flatMap fun u => u.entries.map fun y => (u.requester.owner, y)
  (es.filterMap fun e => queued.find? fun y => decide (y.2.dest = e.dest ∧ y.2.level = e.level)).foldl (fun v y => match y.1 with
    | .panel _ => v
    | .app tag => report (.takeDone tag y.2.dest y.2.level .superseded 0) s.rtu.frame s.rtu.label v) s

/-- Destination `d` lets requester `q` through (R30): it has no protect, or `q` is its owner or beats it. -/
def State.lets (s : State) (d : Fin 64) (q : Requester) : Prop :=
  (s.dest d).protect = none ∨ ∃ y, (s.dest d).protect = some y ∧ (y.owner = q.owner ∨ q.level < y.level)

/-- The take notices of a unit that `owner` asked for on the destinations `named` lead from the panels of `s` to those of `t` (R44, R136): each other panel in
PRESET mode that holds a preset with a VALID guard on one of them has its guard BROKEN, with its lamps derived if it is ONLINE, and no other panel changes. -/
def State.guardsAfter (s t : State) (owner : Owner) (named : Fin 64 → Prop) : Prop :=
  ∀ o : Fin 24, let x := s.panel o
    let y := t.panel o
    let breaks := x.mode = .preset ∧ owner ≠ .panel o ∧ x.selection.guard = true ∧ x.selection.preset ≠ none ∧
      ∃ d m, x.selection.dest = some (d, m) ∧ named d
    (breaks → y = { x with selection := { x.selection with guard := false }, noticed := true, image := y.image, lampSet := y.lampSet } ∧
      (x.state = .online → ∀ k : Fin 48, y.image[k] = t.lampOf o k ∧ (k ∈ y.lampSet ↔ k ∈ x.lampSet ∨ t.lampOf o k ≠ x.image[k])) ∧
      (x.state ≠ .online → y.image = x.image ∧ y.lampSet = x.lampSet)) ∧
    (¬ breaks → y = x)

/-! #### Key maps (R132, R133) -/

/-- A key map entry that R133 refuses, by its bytes; `onIfb`: the panel's station port is of kind IFB. -/
def keyEntryBad (onIfb : Prop) (r : List Byte) : Prop :=
  9 ≤ ob r 0 ∨ (ob r 0 = 1 ∧ 4 ≤ ob r 6) ∨ (ob r 0 = 2 ∧ (64 ≤ ob r 1 ∨ ob r 3 = 0 ∨ 8 ≤ ob r 3)) ∨
  (ob r 0 = 3 ∧ 128 ≤ ob r 1 ∧ ob r 1 ≠ 255) ∨ (ob r 0 = 5 ∧ 8 ≤ ob r 1) ∨ (ob r 0 = 6 ∧ 16 ≤ ob r 1) ∨
  (ob r 0 = 8 ∧ (onIfb ∨ 3 ≤ ob r 2 ∨ (ob r 2 = 0 ∧ 32 ≤ ob r 1) ∨ (ob r 2 ≠ 0 ∧ 8 ≤ ob r 1) ∨ 3 ≤ ob r 4))

/-- A key map entry as its bytes give it: a TALK entry's gain is clamped to −40..0 (R107, R132). -/
def keyEntryFrom (r : List Byte) (e : KeyEntry) : Prop :=
  [KeyFunction.none, .report, .select, .source, .take, .step, .salvo, .protect, .talk][ob r 0]? = some e.fn ∧
  e.arg = r.getD 1 0 ∧ e.target = r.getD 2 0 ∧ e.mask = r.getD 3 0 ∧ e.mode = r.getD 4 0 ∧ e.lamp = r.getD 6 0 ∧
  (ob r 0 ≠ 8 → e.gain = r.getD 5 0) ∧ (ob r 0 = 8 → e.gain.toInt = max (-40) (min 0 (r.getD 5 0).toInt))

/-! #### Talk (R92, R100 to R102, R108 to R111) -/

/-- Key `k` of panel `p` is a TALK key with port `b` in its target set, by its entry's bytes (R100, R132). -/
def State.keyReaches (s : State) (p : Fin 24) (k : Fin 48) (b : Fin 32) : Prop :=
  let e := (s.panel p).map[k]
  e.fn = .talk ∧ e.mode.toNat ≤ 2 ∧
  ((e.target = 0 ∧ e.arg.toNat = b.1) ∨
    (e.target = 1 ∧ ∃ g : Fin 8, e.arg.toNat = g.1 ∧ s.tke.groups[g].getLsbD b.1 = true) ∨
    (e.target = 2 ∧ ∃ i : Fin 8, e.arg.toNat = i.1 ∧ s.tke.ifbs[i].port = some b))

/-- Key `k` of panel `p` is PENDING, HELD or LATCHED, and the panel's station port is `a` (R92). -/
def State.keyTalks (s : State) (p : Fin 24) (k : Fin 48) (a : Fin 32) : Prop :=
  (s.panel p).station = some a ∧ ((∃ f, s.keyState p k = .pending f) ∨ s.keyState p k = .held ∨ s.keyState p k = .latched)

/-- The path from `a` to `b` is active (R101). -/
def State.pathStands (s : State) (a b : Fin 32) : Prop :=
  a ≠ b ∧ (∃ p k, s.keyTalks p k a ∧ s.keyReaches p k b) ∧ s.tke.ports[a].enable = true ∧ s.tke.ports[b].isolate = false

/-- `c` is the coefficient of the sum `g` (R109, R110): 0 below −120, and else what the law's table gives for `g`, or for +24 where it is above. -/
def lawGives (g : Int) (c : BitVec 16) : Prop :=
  (g < -120 → c = 0) ∧
  (-120 ≤ g → ∃ (q : Int) (r : Fin 12), min g 24 = 12 * q + r.1 ∧
    let m := [16384, 17355, 18383, 19472, 20626, 21848, 23143, 24514, 25967, 27506, 29135, 30862].getD r.1 0
    (∀ n : Nat, q = n → c.toNat = min 65535 (m * 2 ^ n)) ∧ ∀ n : Nat, q = -(n : Int) - 1 → c.toNat = (m + 2 ^ n) / 2 ^ (n + 1))

/-- The derived sets and the target table are what the keys, the tables and the level law give now (R101, R102, R108 to R111, R113): the active paths with the
keys that give them, the talking and the incoming-talk set, and each crosspoint's and each feed's value. -/
def State.talkDerived (s : State) : Prop :=
  ((∀ a b : Fin 32, (∃ x ∈ s.tke.paths, x.talker = a ∧ x.listener = b) ↔ s.pathStands a b) ∧
    (s.tke.paths.map fun x => (x.talker, x.listener)).Nodup ∧
    ∀ x ∈ s.tke.paths, ∀ p k, (p, k) ∈ x.keys ↔ s.keyTalks p k x.talker ∧ s.keyReaches p k x.listener) ∧
  (∀ a : Fin 32, s.tke.talking.getLsbD a.1 = true ↔ ∃ p k, s.keyTalks p k a) ∧
  (∀ b : Fin 32, s.tke.incoming.getLsbD b.1 = true ↔ ∃ a, s.pathStands a b) ∧
  (∀ a b : Fin 32, (¬ s.pathStands a b → s.tke.target[a][b] = 0) ∧
    (s.pathStands a b → ∀ p k, s.keyTalks p k a → s.keyReaches p k b →
      (∀ q j, s.keyTalks q j a → s.keyReaches q j b → (s.panel q).map[j].gain.toInt ≤ (s.panel p).map[k].gain.toInt) →
      lawGives (s.tke.ports[a].outTrim + (s.panel p).map[k].gain.toInt + s.tke.ports[b].inTrim
        - (if s.tke.talking.getLsbD b.1 = true then s.tke.ports[b].dim else 0)) s.tke.target[a][b])) ∧
  ∀ i : Fin 8, (s.tke.ifbs[i].port = none → s.tke.feeds[i] = ⟨none, 0, .d1⟩) ∧
    ∀ b, s.tke.ifbs[i].port = some b → s.tke.feeds[i].port = some b ∧ s.tke.feeds[i].selector = s.tke.ifbs[i].selector ∧
      let g := s.tke.ifbs[i].level.toInt + s.tke.ports[b].inTrim
      (s.tke.incoming.getLsbD b.1 = false → lawGives g s.tke.feeds[i].coeff) ∧
      (s.tke.incoming.getLsbD b.1 = true → s.tke.ifbs[i].depth = 0xFF → s.tke.feeds[i].coeff = 0) ∧
      (s.tke.incoming.getLsbD b.1 = true → s.tke.ifbs[i].depth ≠ 0xFF → lawGives (g - s.tke.ifbs[i].depth.toNat) s.tke.feeds[i].coeff)

/-- The map puts the selector of a defined IFB record to D2: d2 and the own source are present, and d1 has level A, whose entry gives the own source
(R112). -/
def State.selectsD2 (s : State) (i : Ifb) : Prop :=
  i.d2.toNat < 64 ∧ ∃ (d : Fin 64) (own : Fin 128), i.d1.toNat = d.1 ∧ i.own.toNat = own.1 ∧ (s.dest d).present.getLsbD 1 = true ∧
    (s.dest d).entryA.state ≠ .unknown ∧ (s.dest d).entryA.source = .input own

/-- `x` is the source that is current for a selection: what the entry at the first of V, A and B gives that is both in its mask and present at its
destination (R142). -/
def State.showsSource (s : State) (sel : Selection) (x : Source) : Prop :=
  ∃ (d : Fin 64) (m : LevelMask) (l : Level), sel.dest = some (d, m) ∧ (m &&& (s.dest d).present).getLsbD l.num = true ∧
    (∀ j, j < l.num → (m &&& (s.dest d).present).getLsbD j = false) ∧ ((s.dest d).entry l).state ≠ .unknown ∧ ((s.dest d).entry l).source = x

/-- The engine is HALTING and the three conditions of R174 for entering HALTED hold. -/
def State.haltsNow (s : State) : Prop :=
  s.runState = .halting ∧ s.csi.running = none ∧ s.xpe.armed = [] ∧ (s.tke.queue = [] ∨ s.tke.link = .down)

/-- Destination `d` carries source `x` for resolution: it has a V level, whose entry is not UNKNOWN and holds `x` (R67). -/
def State.carriesSource (s : State) (d : Fin 64) (x : Fin 128) : Prop :=
  (s.dest d).present.getLsbD 0 = true ∧ (s.dest d).entryV.state ≠ .unknown ∧ (s.dest d).entryV.source = .input x

/-- The re-entries of a chain lead from source `x` to source `y`: each destination of the chain is REENTRY, carries the source reached so far, and
leads on to its re-entry source (R69). -/
def State.reentryChain (s : State) : List (Fin 64) → Fin 128 → Fin 128 → Prop
  | [], x, y => x = y
  | d :: ds, x, y =>
    s.carriesSource d x ∧ (s.dest d).kind = .reentry ∧ ∃ z, (s.dest d).reentry = some z ∧ s.reentryChain ds z y

/-- Destination `d` seeds colour `i` (0 R, 1 G, 2 Y) with the contacts `gpi` (R68). -/
def State.seeds (s : State) (gpi : BitVec 16) (d : Fin 64) (i : Fin 3) : Prop :=
  (i = 0 ∧ ((s.dest d).kind = .onair ∨ ((s.dest d).kind = .keyed ∧ ∃ n : Fin 16, (s.dest d).redGpi = some n ∧ gpi.getLsbD n.1 = true))) ∨
  (i = 1 ∧ ((s.dest d).kind = .preview ∨ ((s.dest d).kind = .keyed ∧ ∃ n : Fin 16, (s.dest d).greenGpi = some n ∧ gpi.getLsbD n.1 = true))) ∨
  (i = 2 ∧ (s.dest d).kind = .iso)

/-- The mirror tables at `base` of a store show the destinations and tallies of a state (Mirror tables, from 020H to 55FH). -/
def State.mirrorsShowTallies (s : State) (m : Memory) (base : Nat) : Prop :=
  (∀ d : Fin 64, let a := base + 0x20 + 16 * d.1
    (∀ l : Level, storeRead m (a + 2 * l.num) = ((s.dest d).entry l).source.byte ∧
      storeRead m (a + 2 * l.num + 1) = num8 ((s.dest d).entry l).state.num) ∧
    storeRead m (a + 6) = (s.dest d).present.zeroExtend 8 ∧ storeRead m (a + 7) = num8 (s.dest d).kind.num ∧
    ((s.dest d).protect = none → storeRead m (a + 8) = 0xFE) ∧
    (∀ p, (s.dest d).protect = some p → storeRead m (a + 8) = p.owner.byte ∧ storeRead m (a + 9) = num8 p.level.1) ∧
    storeRead m (base + 0x420 + d.1) = num8 (bit (s.dest d).depth + 2 * bit (s.dest d).loop)) ∧
  (∀ x : Fin 128, storeRead m (base + 0x460 + x.1) = s.tly.tally[x].zeroExtend 8) ∧
  ∀ c : Fin 64, storeRead m (base + 0x4E0 + 2 * c.1) = s.tly.outputs[c].zeroExtend 8 ∧
    storeRead m (base + 0x4E0 + 2 * c.1 + 1) = match s.tly.channels[c].force with
      | none => 0xFF
      | some f => f.zeroExtend 8

/-- A rewrite that leads from the store `m` to the store `n` leaves alone each entry of the mirror tables at `base` that the states `s` and `w` have in common
(R166). -/
def State.mirrorsLeave (s w : State) (m n : Memory) (base : Nat) : Prop :=
  let same := fun a len : Nat => ∀ j, j < len → storeRead n (base + a + j) = storeRead m (base + a + j)
  (∀ d : Fin 64, (∀ l : Level, (s.dest d).entry l = (w.dest d).entry l) → (s.dest d).present = (w.dest d).present → (s.dest d).kind = (w.dest d).kind →
    (s.dest d).protect = (w.dest d).protect → same (0x20 + 16 * d.1) 16) ∧
  (∀ d : Fin 64, (s.dest d).depth = (w.dest d).depth → (s.dest d).loop = (w.dest d).loop → same (0x420 + d.1) 1) ∧
  (∀ x : Fin 128, s.tly.tally[x] = w.tly.tally[x] → same (0x460 + x.1) 1) ∧
  (∀ c : Fin 64, s.tly.outputs[c] = w.tly.outputs[c] → s.tly.channels[c].force = w.tly.channels[c].force → same (0x4E0 + 2 * c.1) 2) ∧
  (∀ p : Fin 32, s.tke.ports[p].kind = w.tke.ports[p].kind → s.tke.ports[p].enable = w.tke.ports[p].enable →
    s.tke.ports[p].isolate = w.tke.ports[p].isolate → s.tke.talking.getLsbD p.1 = w.tke.talking.getLsbD p.1 →
    s.tke.incoming.getLsbD p.1 = w.tke.incoming.getLsbD p.1 → same (0x560 + 4 * p.1) 4) ∧
  (∀ a : Fin 32, (∀ b : Fin 32, (∃ x ∈ s.tke.paths, x.talker = a ∧ x.listener = b) ↔ ∃ x ∈ w.tke.paths, x.talker = a ∧ x.listener = b) →
    same (0x5E0 + 4 * a.1) 4) ∧
  (∀ (p : Fin 24) (k : Fin 48), (s.keyState p k).num = (w.keyState p k).num → same (0x660 + 48 * p.1 + k.1) 1) ∧
  (∀ p : Fin 24, (s.panel p).state = (w.panel p).state → (s.panel p).enabled = (w.panel p).enabled → (s.panel p).level = (w.panel p).level →
    (s.panel p).station = (w.panel p).station → (s.panel p).mode = (w.panel p).mode → (s.panel p).threshold = (w.panel p).threshold →
    (s.panel p).model = (w.panel p).model → same (0xAE0 + 8 * p.1) 8) ∧
  (entriesIn s.xpe.queue = entriesIn w.xpe.queue → s.xpe.armed.length = w.xpe.armed.length → same 0xBA0 4)

/-- The mirror tables at `base` of a store show the talk ports, paths and keys, the panels and the occupancy of a state (Mirror tables, from 560H to
BA3H). -/
def State.mirrorsShowPanels (s : State) (m : Memory) (base : Nat) : Prop :=
  (∀ p : Fin 32, let b := storeRead m (base + 0x560 + 4 * p.1 + 1)
    storeRead m (base + 0x560 + 4 * p.1) = num8 s.tke.ports[p].kind.num ∧ b.getLsbD 0 = s.tke.ports[p].enable ∧
    b.getLsbD 1 = s.tke.ports[p].isolate ∧ b.getLsbD 2 = s.tke.talking.getLsbD p.1 ∧ b.getLsbD 3 = s.tke.incoming.getLsbD p.1) ∧
  (∀ a b : Fin 32, (storeRead m (base + 0x5E0 + 4 * a.1 + b.1 / 8)).getLsbD (b.1 % 8) = true ↔
    ∃ x ∈ s.tke.paths, x.talker = a ∧ x.listener = b) ∧
  (∀ (p : Fin 24) (k : Fin 48), storeRead m (base + 0x660 + 48 * p.1 + k.1) = match s.keyState p k with
    | .idle => 0
    | .pending _ => 1
    | .held => 2
    | .latched => 3
    | .closing => 4) ∧
  (∀ p : Fin 24, let a := base + 0xAE0 + 8 * p.1
    storeRead m a = num8 (s.panel p).state.num ∧ storeRead m (a + 1) = num8 (bit (s.panel p).enabled) ∧
    storeRead m (a + 2) = num8 (s.panel p).level.1 ∧ storeRead m (a + 3) = optByte (s.panel p).station ∧
    storeRead m (a + 4) = (if (s.panel p).mode = .direct then 0 else 1) ∧ storeRead m (a + 5) = num8 (s.panel p).threshold ∧
    storeRead16 m (a + 6) = (s.panel p).model.toNat) ∧
  storeRead m (base + 0xBA0) = num8 (entriesIn s.xpe.queue) ∧ storeRead m (base + 0xBA1) = num8 s.xpe.armed.length

/-! ### Invariants -/

/-- The common store is in its canonical form. -/
def State.storeSound (s : State) : Prop := s.store.wf = true

/-- The labels that frames carry or will carry exist: well formed and not skipped under the rate in use (R10). -/
def State.labelsSound (s : State) : Prop :=
  (s.rtu.label.wellFormed s.rtu.rate = true ∧ s.rtu.label.skipped s.rtu.rate = false) ∧
  ∀ l, s.rtu.jam = some l → l.wellFormed s.rtu.rate = true ∧ l.skipped s.rtu.rate = false

/-- The reference monitor's counts keep their ranges, and only a LOCKED monitor stands at 8 good pulses (R3 to R6). -/
def State.monitorSound (s : State) : Prop :=
  s.rtu.good ≤ 8 ∧ s.rtu.missing ≤ 2 ∧ (s.rtu.ref ≠ .locked → s.rtu.good < 8)

/-- The take queue holds at most 64 entries, no two for one destination level (R41), and each at a level that its destination has (R23, R38, R45). -/
def State.queueSound (s : State) : Prop :=
  entryCount s.xpe.queue ≤ 64 ∧ ((s.xpe.queue.flatMap fun u => u.entries).Pairwise Crosspoint.differs) ∧
  ∀ u ∈ s.xpe.queue, ∀ x ∈ u.entries, hasLevel (s.dest x.dest).present x.level = true

/-- The armed set holds at most 48 entries, and no two for one destination level (R53). -/
def State.armedSound (s : State) : Prop :=
  s.xpe.armed.length ≤ 48 ∧ ((s.xpe.armed.map fun a => a.xpt).Pairwise Crosspoint.differs)

/-- While the fabric link is DOWN nothing is armed, swept or awaited but a ping; nothing is armed during a sweep; in HALTED no switch report is awaited,
no sweep runs and nothing is armed (R34, R52, R58, R174). -/
def State.fabricSound (s : State) : Prop :=
  (s.xpe.link = .down → s.xpe.armed = [] ∧ s.xpe.sweep = none ∧ s.xpe.reportWait = none ∧ s.xpe.ackWait = false) ∧
  (s.xpe.sweep ≠ none → s.xpe.armed = []) ∧
  (s.runState = .halted → s.xpe.armed = [] ∧ s.xpe.sweep = none ∧ s.xpe.reportWait = none)

/-- No follower copies a follower, and no channel is its own master (R77). -/
def State.mastersSound (s : State) : Prop :=
  ∀ c m : Fin 64, s.tly.channels[c].master = some m → m ≠ c ∧ s.tly.channels[m].master = none

/-- The coefficient queue holds no two entries for one key, and at most 1,032 (R114). -/
def State.coefficientsSound (s : State) : Prop :=
  (s.tke.queue.map fun e => e.key).Nodup ∧ s.tke.queue.length ≤ 1032

/-- A defined IFB record names a port of kind IFB, and no two name the same one (R91). -/
def State.ifbsSound (s : State) : Prop :=
  (∀ (i : Fin 8) (p : Fin 32), s.tke.ifbs[i].port = some p → s.tke.ports[p].kind = .ifb) ∧
  ∀ (i j : Fin 8) (p : Fin 32), s.tke.ifbs[i].port = some p → s.tke.ifbs[j].port = some p → i = j

/-- The level terms of the ports keep their ranges (R107), and every panel's threshold its own (R122). -/
def State.rangesSound (s : State) : Prop :=
  (∀ p : Fin 32, (-24 ≤ s.tke.ports[p].outTrim ∧ s.tke.ports[p].outTrim ≤ 24) ∧
    (-60 ≤ s.tke.ports[p].inTrim ∧ s.tke.ports[p].inTrim ≤ 24) ∧ (0 ≤ s.tke.ports[p].dim ∧ s.tke.ports[p].dim ≤ 60)) ∧
  ∀ p : Fin 24, 4 ≤ (s.panel p).threshold ∧ (s.panel p).threshold ≤ 50

/-- A panel that is not ONLINE has every talk key IDLE and holds no preset, one that is ONLINE does not hold its lamps back (R127), and a guard is VALID
only while a preset is present (R97, R134). -/
def State.panelsSound (s : State) : Prop :=
  (∀ p : Fin 24, (s.panel p).state ≠ .online → (∀ k : Fin 48, s.keyState p k = .idle) ∧ (s.panel p).selection.preset = none) ∧
  (∀ p : Fin 24, (s.panel p).state = .online → (s.panel p).held = false) ∧
  ∀ p : Fin 24, (s.panel p).selection.guard = true → (s.panel p).selection.preset ≠ none

/-- A lamp set holds each key once, no refusal-flash timer is above 16, a key's lamp in the image is FLASH while its timer runs, and no missed-reply count
is above 3 (R122, R129, R141). -/
def State.lampsSound (s : State) : Prop :=
  ∀ p : Fin 24, (s.panel p).lampSet.Nodup ∧ (s.panel p).missed ≤ 3 ∧ ∀ k : Fin 48, (s.panel p).timers[k] ≤ 16 ∧
    (0 < (s.panel p).timers[k] → (s.panel p).image[k] = .flash)

/-- The post queue holds each slot at most once, and not the running one (R151). -/
def State.postsSound (s : State) : Prop :=
  (s.csi.posts.map fun p => p.slot).Nodup ∧
  ∀ r, s.csi.running = some r → ∀ p ∈ s.csi.posts, p.slot ≠ r.slot.slot

/-- The gap count keeps its range, and the saturated flag is set only at its end (R162). -/
def State.gapSound (s : State) : Prop := s.csi.gap ≤ 65535 ∧ (s.csi.saturated = true → s.csi.gap = 65535)

/-- The mirrors are frozen or freezing only under the FREEZE bit, and freezing only while a rewrite is in progress (R167). -/
def State.freezeSound (s : State) : Prop :=
  (s.csi.mirror.freeze ≠ .live → s.control.freeze = true) ∧ (s.csi.mirror.freeze = .freezing → s.csi.mirror.writing ≠ none)

end Sys2Proof.Machine
end

