-- ==== Sys2Proof/Certificates/Slice0/Obligations.lean ====
section
/-! DEFINITION. The statements for the provers: what each command and the whole machine do, by the rules of the manual. -/

open Sys2Proof Sys2Proof.Machine

/-! ### The queue and the reset -/

/-- A step runs the command at the front of the queue on the state with the queue's rest; on an empty queue the block idles (the queue is the
model's own, log entry 7). -/
def Obligations.StepRunsFrontOfQueue : Prop :=
  (∀ (c : Instr) (rest : List Instr) (s : State), step { s with pending := c :: rest } = exec c { s with pending := rest }) ∧
  ∀ s : State, s.pending = [] → step s = .next s

/-- No command touches the queue of waiting commands (the queue is the model's own, log entry 7). -/
def Obligations.CommandsKeepQueue : Prop :=
  ∀ (c : Instr) (s t : State), exec c s = .next t → t.pending = s.pending

/-- POWER_ON_RESET gives every block the values of its table (R19, R35, R61, R74, R75, R87, R106, R120, R121, R145, R146, R160, R165, R169, R176).
That the common store and the queue stay as they are is the model's choice (log entry 1), as are the bytes of a key entry that R145 does not
give (log entry 36: the TALK target kind, 0) and the values of the model's own fields (log entry 36). -/
def Obligations.PowerOnResetValues : Prop :=
  ∀ s : State, ∃ t, exec .powerOnReset s = .next t ∧
    (t.runState = .halted ∧ t.control = { run := false, freeze := false, mask := 0 }) ∧
    (t.rtu.rate = .r25 ∧ t.rtu.count = 0 ∧ t.rtu.ref = .free ∧ t.rtu.expected = none ∧ t.rtu.good = 0 ∧ t.rtu.missing = 0 ∧
      t.rtu.frame = 0 ∧ t.rtu.label = ⟨0, 0, 0, 0⟩ ∧ t.rtu.jam = none ∧
      ∀ n : Fin 16, t.rtu.cues[n] =
        { label := ⟨0, 0, 0, 0⟩, enables := 15, action := .report, repeats := .once, requester := ⟨.app 0, 0⟩, state := .empty }) ∧
    (∀ d : Fin 64, t.dest d =
      { present := 7, kind := .plain, reentry := none, redGpi := none, greenGpi := none, entryV := ⟨.park, .unknown⟩,
        entryA := ⟨.park, .unknown⟩, entryB := ⟨.park, .unknown⟩, protect := none, depth := false, loop := false }) ∧
    (t.xpe.queue = [] ∧ t.xpe.armed = [] ∧ t.xpe.link = .down ∧ t.xpe.sweep = none ∧ t.xpe.reportWait = none ∧
      t.xpe.ackWait = false ∧ t.xpe.pingWait = false ∧ t.xpe.reading = none ∧ t.xpe.fires = [] ∧ (∀ n : Fin 16, t.xpe.salvos[n] = none) ∧
      ∀ g : Fin 8, t.xpe.steps[g].order = .linear ∧ ∀ i : Fin 4, t.xpe.steps[g].sources[i] = .park) ∧
    ((∀ x : Fin 128, t.tly.tally[x] = 0) ∧ (∀ i : Fin 16, t.tly.gpi[i] = ⟨false, false⟩) ∧ t.tly.inputs = none ∧
      t.tly.prevDepth = 0 ∧ t.tly.prevLoop = 0 ∧ t.tly.portFrames = 1 ∧
      (∀ c : Fin 64, t.tly.channels[c] = ⟨none, 7, .single, none, .upright, none, none⟩ ∧ t.tly.outputs[c] = 0 ∧
        t.tly.image[c] = 0)) ∧
    ((∀ p : Fin 32, t.tke.ports[p] = ⟨.station, 0, 0, 0, true, false⟩) ∧ (∀ g : Fin 8, t.tke.groups[g] = 0) ∧
      (∀ i : Fin 8, t.tke.ifbs[i] = { port := none, d1 := 0, d2 := 0xFE, own := 0xFE, level := 0, depth := 0xFF, selector := .d1 } ∧
        t.tke.ifbs[i].dest2 = none ∧ t.tke.ifbs[i].ownSource = none ∧ t.tke.ifbs[i].depthSteps = none ∧
        t.tke.feeds[i] = { port := none, coeff := 0, selector := .d1 }) ∧
      (∀ (p : Fin 24) (k : Fin 48), t.keyState p k = .idle) ∧ t.tke.paths = [] ∧ t.tke.talking = 0 ∧ t.tke.incoming = 0 ∧
      (∀ a b : Fin 32, t.tke.target[a][b] = 0) ∧ t.tke.queue = [] ∧ t.tke.flight = none ∧ t.tke.fails = 0 ∧ t.tke.link = .up) ∧
    ((∀ l : Fin 4, t.pnc.links[l] = { out := none, round := 0 }) ∧ t.pnc.mapReads = []) ∧
    (t.rtu.now = 0 ∧ t.tke.latchDue = none ∧ t.pnc.flashEnds = [] ∧ (∀ p : Fin 24, (t.panel p).probeDue = false) ∧
      t.csi.mirror.written = [] ∧ t.replaced = [] ∧ t.freeCount = s.freeCount) ∧
    (∀ p : Fin 24, (t.panel p).enabled = false ∧ (t.panel p).model = 0 ∧ (t.panel p).level = 3 ∧ (t.panel p).station = none ∧
      (t.panel p).mode = .direct ∧ (t.panel p).threshold = 12 ∧ (t.panel p).state = .absent ∧ (t.panel p).missed = 0 ∧
      (t.panel p).bit = false ∧ (t.panel p).selection = ⟨none, none, false, none⟩ ∧ (t.panel p).lampSet = [] ∧
      (t.panel p).full = false ∧ (t.panel p).held = false ∧
      ∀ k : Fin 48, (t.panel p).map[k] = ⟨.none, 0, 0, 1, 0, 0, 0⟩ ∧ (t.panel p).image[k] = .off ∧ (t.panel p).timers[k] = 0) ∧
    (t.csi.anchor = 0 ∧ t.csi.copy = none ∧ t.csi.posts = [] ∧ t.csi.running = none ∧ t.csi.writeIndex = 0 ∧ t.csi.gap = 0 ∧
      t.csi.saturated = false ∧ t.csi.notice = 0 ∧ t.csi.mirror.count = 0 ∧ t.csi.mirror.writing = none ∧
      t.csi.mirror.waiting = none ∧ t.csi.mirror.complete = true ∧ t.csi.mirror.freeze = .live) ∧
    t.store = s.store ∧ t.pending = s.pending

/-- Every invariant of the model holds at reset. -/
def Obligations.InvariantsHoldAtReset : Prop :=
  State.reset.storeSound ∧ State.reset.labelsSound ∧ State.reset.monitorSound ∧ (State.reset.queueSound ∧ State.reset.armedSound) ∧
  State.reset.fabricSound ∧ State.reset.mastersSound ∧ State.reset.coefficientsSound ∧ State.reset.ifbsSound ∧
  State.reset.rangesSound ∧ State.reset.panelsSound ∧ State.reset.lampsSound ∧ State.reset.postsSound ∧ State.reset.gapSound ∧
  State.reset.freezeSound

/-! ### Invariants that every step keeps -/

/-- Every step keeps the common store in its canonical form (the form is the model's own, log entry 1). -/
def Obligations.StepKeepsStoreCanonical : Prop :=
  ∀ s t : State, s.storeSound → step s = .next t → t.storeSound

/-- Every step keeps the labels of frames well formed and not skipped, and the reference monitor's counts in their ranges (R3 to R6, R10). -/
def Obligations.StepKeepsFrameTime : Prop :=
  ∀ s t : State, s.labelsSound → s.monitorSound → step s = .next t → t.labelsSound ∧ t.monitorSound

/-- Every step keeps the take queue at 64 entries or fewer and the armed set at 48 or fewer, neither with two entries for one destination level, and
every queued entry at a level that its destination has (R23, R38, R41, R45, R53). -/
def Obligations.StepKeepsTakes : Prop :=
  ∀ s t : State, s.queueSound → s.armedSound → step s = .next t → t.queueSound ∧ t.armedSound

/-- Every step keeps a DOWN fabric link, a sweep and HALTED free of armed takes and of waits they cannot have (R34, R52, R58, R174). -/
def Obligations.StepKeepsFabricQuiet : Prop :=
  ∀ s t : State, s.fabricSound → step s = .next t → t.fabricSound

/-- Every step keeps every follower one step from a channel that is not a follower (R77), every defined IFB record on an IFB port of its own (R89, R91), and the
ports' level terms and the panels' thresholds in their ranges (R107, R122). -/
def Obligations.StepKeepsConfiguration : Prop :=
  ∀ s t : State, s.mastersSound → s.ifbsSound → s.rangesSound → step s = .next t → t.mastersSound ∧ t.ifbsSound ∧ t.rangesSound

/-- Every step keeps the coefficient queue at 1,032 entries or fewer, no two for one key (R114). -/
def Obligations.StepKeepsCoefficientQueue : Prop :=
  ∀ s t : State, s.coefficientsSound → step s = .next t → t.coefficientsSound

/-- Every step keeps a panel that is not ONLINE silent (every key IDLE, no preset), an ONLINE one from holding its lamps back, a guard VALID only over a preset, each key once in a lamp set, the timers at 16 or
less, FLASH in the image while a key's timer runs (that so on a panel that is not ONLINE too is the model's reading, log entry 30), and the missed-reply counts at 3 or less (R97, R122, R127, R129, R134, R141). -/
def Obligations.StepKeepsPanels : Prop :=
  ∀ s t : State, s.panelsSound → s.lampsSound → step s = .next t → t.panelsSound ∧ t.lampsSound

/-- Every step keeps each slot at most once in the post queue with the running slot out of it (R151), the gap count and its saturated flag in step (R162), and the freeze
state under the FREEZE bit with FREEZING over a rewrite in progress (R167). -/
def Obligations.StepKeepsInterface : Prop :=
  ∀ s t : State, s.postsSound → s.gapSound → s.freezeSound → step s = .next t → t.postsSound ∧ t.gapSound ∧ t.freezeSound

/-! ### Rules of the whole machine -/

/-- Only ANCHOR_WRITE in HALTED and the power-on reset change the ANCHOR register (R147); the rate in use changes only by the power-on reset or by a start: CONTROL RUN set in
HALTED, or HALTED entered from HALTING with RUN held (R2, R174), at whatever event that comes. -/
def Obligations.OnlyTheirCommandsMoveAnchorAndRate : Prop :=
  ∀ (c : Instr) (s t : State), exec c s = .next t →
    (t.csi.anchor ≠ s.csi.anchor → c = .powerOnReset ∨ (s.runState = .halted ∧ ∃ pre v, c = .anchorWrite pre v)) ∧
    (t.rtu.rate ≠ s.rtu.rate → c = .powerOnReset ∨ (s.runState = .halted ∧ ∃ pre e g f m, c = .start pre e g f m) ∨
      (s.runState = .halting ∧ s.control.run = true))

/-- In HALTED, where no switch report is awaited, the tally port holds: no command but the power-on reset and a start changes the source tally table, the channel outputs or the
port image, or sends a port frame (R73, R86). -/
def Obligations.HaltedHoldsTallies : Prop :=
  ∀ (c : Instr) (s t : State), exec c s = .next t → s.runState = .halted → s.fabricSound → c ≠ .powerOnReset →
    (∀ pre e g f m, c ≠ .start pre e g f m) →
    t.tly.tally = s.tly.tally ∧ t.tly.outputs = s.tly.outputs ∧ t.tly.image = s.tly.image ∧ t.tly.portFrames = s.tly.portFrames

/-- Before the first successful start the engine writes nothing to the common store: the control computer's own writes are all that changes it
(R149). -/
def Obligations.NothingWrittenBeforeFirstStart : Prop :=
  ∀ (c : Instr) (s t : State), exec c s = .next t → s.csi.copy = none → s.csi.posts = [] → s.csi.running = none →
    s.csi.mirror.writing = none → t.csi.copy = none → t.store = hostWrite s.store c.pre

/-- A command of the control computer that names an address outside the common store stops (the model's choice, log entry 4); every other command
answers a next state. -/
def Obligations.OnlyOutsideWritesStop : Prop :=
  ∀ (c : Instr) (s : State), (writesInside c.pre = true → ∃ t, exec c s = .next t) ∧
    (writesInside c.pre = false → ∃ a, storeSize ≤ a ∧ exec c s = .fault (.outsideStore a))

/-! ### Frame time -/

/-- FRAME_BOUNDARY advances the frame index by exactly one, gives the jam label or the successor, removes the jam request and restarts the scaler (R1, R8, R12); the rate, the reference
state, the monitor, the run state and CONTROL are unchanged.  That the oscillator's time moves on to the instant of the boundary is the model's reading (log entry 10). -/
def Obligations.BoundaryNumbersFrame : Prop :=
  ∀ (gpi : BitVec 16) (s : State), ∃ t, exec (.frameBoundary gpi) s = .next t ∧
    t.rtu.frame = s.rtu.frame + 1 ∧ t.rtu.label = s.rtu.jam.getD (successor s.rtu.rate s.rtu.label) ∧ t.rtu.jam = none ∧
    t.rtu.count = 0 ∧ t.rtu.now = s.rtu.now + (s.rtu.rate.period - s.rtu.count) ∧ t.rtu.rate = s.rtu.rate ∧ t.rtu.ref = s.rtu.ref ∧
    t.rtu.expected = s.rtu.expected ∧ t.rtu.good = s.rtu.good ∧ t.rtu.missing = s.rtu.missing ∧ t.runState = s.runState ∧
    t.control = s.control ∧ t.csi.anchor = s.csi.anchor ∧ t.csi.copy = s.csi.copy ∧ t.csi.posts = s.csi.posts ∧
    t.tke.ports = s.tke.ports ∧ t.tke.groups = s.tke.groups ∧ t.tke.paths = s.tke.paths ∧ t.tly.channels = s.tly.channels

/-- At FRAME_BOUNDARY the TLY samples the GPI inputs into the records, in every run state, and keeps the sample and the talk snapshot under the new frame index (R64, R66); an UP fabric link
awaits the new frame's switch report outside HALTED, and a DOWN link is pinged in every run state (R52, R59); the armed set and a sweep go on.  Where no cue is compared that is ARMED and no map is settled, the journal takes just one GPI report for each input that changed and
whose report flag is set, with its new level and stamped with the new frame and its label, by rising input number (the model's choice, log entry 41).  No press of TAKE is taken ahead of a
take notice of the frame that ended (the model's choice, log entry 46). -/
def Obligations.BoundarySamplesAndServes : Prop :=
  ∀ (gpi : BitVec 16) (s : State), ∃ t, exec (.frameBoundary gpi) s = .next t ∧
    t.tly.inputs = some { frame := s.rtu.frame + 1, sample := gpi, snapshot := s.tke.incoming } ∧
    (∀ i : Fin 16, t.tly.gpi[i].asserted = gpi.getLsbD i.1 ∧ t.tly.gpi[i].reports = s.tly.gpi[i].reports) ∧
    t.xpe.link = s.xpe.link ∧ t.xpe.armed = s.xpe.armed ∧ t.xpe.sweep = s.xpe.sweep ∧ t.xpe.queue = s.xpe.queue ∧
    (s.xpe.link = .up → t.xpe.pingWait = s.xpe.pingWait ∧
      t.xpe.reportWait = if s.runState = .halted then s.xpe.reportWait else some (s.rtu.frame + 1)) ∧
    (s.xpe.link = .down → t.xpe.pingWait = true ∧ t.xpe.reportWait = s.xpe.reportWait) ∧ (∀ p : Fin 24, (t.panel p).noticed = false) ∧
    (s.xpe.link = .up ∨ s.runState = .halted → (s.runState = .running → ∀ n : Fin 16, s.rtu.cues[n].state ≠ .armed) →
      let now := s.rtu.jam.getD (successor s.rtu.rate s.rtu.label)
      let told := (List.finRange 16).foldl (fun v i =>
        if s.tly.gpi[i].reports = true ∧ gpi.getLsbD i.1 ≠ s.tly.gpi[i].asserted then report (.gpi i (gpi.getLsbD i.1)) (s.rtu.frame + 1) now v else v) s;
      t.csi = told.csi ∧ t.store = told.store)

/-- At FRAME_BOUNDARY an ARMED ONCE cue becomes SPENT when the engine is RUNNING and every enabled field equals the look-ahead label's, the second
successor of the new frame's label; an EVERY cue that matches stays ARMED, and so does every cue that does not; every cue keeps its fields (R16, R17).  A match sends a fire request due
two frames after the new frame, behind a read in progress in the order of cue numbers, or, with the reader idle, to begin its read; a salvo that is undefined is refused at once, in the boundary's own step (the model's reading, log entry 18); a REPORT cue, and a cue so refused, make
a CUE report stamped with the new frame and its label.  The number of replaced bytes held beside a read is the model's own (log entry 17). -/
def Obligations.BoundaryComparesCues : Prop :=
  ∀ (gpi : BitVec 16) (s : State), ∃ t, exec (.frameBoundary gpi) s = .next t ∧
    let now := s.rtu.jam.getD (successor s.rtu.rate s.rtu.label)
    let ahead := successor s.rtu.rate (successor s.rtu.rate now)
    let fits := fun c : Cue => (c.enables.getLsbD 0 = true → c.label.hh = ahead.hh) ∧ (c.enables.getLsbD 1 = true → c.label.mm = ahead.mm) ∧
      (c.enables.getLsbD 2 = true → c.label.ss = ahead.ss) ∧ (c.enables.getLsbD 3 = true → c.label.ff = ahead.ff)
    let matching := fun n : Fin 16 => s.runState = .running ∧ s.rtu.cues[n].state = .armed ∧ fits s.rtu.cues[n]
    let request := fun n x : Fin 16 =>
      ({ salvo := x, due := some (s.rtu.frame + 3), requester := s.rtu.cues[n].requester, cause := .cue, origin := .cue n (s.rtu.frame + 1) now } : FireRequest)
    (∀ n : Fin 16, (matching n ∧ s.rtu.cues[n].repeats = .once → t.rtu.cues[n] = { s.rtu.cues[n] with state := .spent }) ∧
      (matching n ∧ s.rtu.cues[n].repeats = .every → t.rtu.cues[n] = s.rtu.cues[n] ∧ t.rtu.cues[n].state = .armed) ∧
      (¬ matching n → t.rtu.cues[n] = s.rtu.cues[n])) ∧
    (s.xpe.reading ≠ none → ∃ sent : List FireRequest, t.xpe.fires = s.xpe.fires ++ sent ∧ t.xpe.reading = s.xpe.reading ∧
      (∀ q, q ∈ sent ↔ ∃ n x, matching n ∧ s.rtu.cues[n].action = .fire x ∧ q = request n x) ∧
      sent.Pairwise fun a b => ∃ i j : Fin 16, i < j ∧ a.origin = .cue i (s.rtu.frame + 1) now ∧ b.origin = .cue j (s.rtu.frame + 1) now) ∧
    ∀ n : Fin 16, matching n → (∀ m : Fin 16, m ≠ n → s.rtu.cues[m].state ≠ .armed) → s.xpe.link = .up → (∀ i : Fin 16, s.tly.gpi[i].reports = false) →
      let made := fun code : Byte => report (.cue n code) (s.rtu.frame + 1) now s
      (s.rtu.cues[n].action = .report → t.csi = (made 0).csi ∧ t.store = (made 0).store ∧ t.xpe.fires = s.xpe.fires ∧ t.xpe.reading = s.xpe.reading) ∧
      ∀ x : Fin 16, s.rtu.cues[n].action = .fire x → s.xpe.reading = none → s.xpe.fires = [] →
        (s.xpe.salvos[x] = none → t.csi = (made 0x18).csi ∧ t.store = (made 0x18).store ∧ t.xpe.reading = none ∧ t.xpe.fires = []) ∧
        ∀ v c, s.xpe.salvos[x] = some v → s.csi.copy = some c → c.orders.base ≤ v.address →
          v.address + 16 * v.count ≤ c.orders.base + c.orders.size →
          t.xpe.reading = some { request := request n x, address := v.address, count := v.count, mark := s.replaced.length } ∧ t.xpe.fires = [] ∧
            t.csi = s.csi ∧ t.store = s.store

/-- REFERENCE_PULSE: a pulse inside the window is good, one outside is stray, with the counts and the expected instant of R3's table; a good pulse that brings the count to 8 makes FREE and
FLYWHEEL LOCKED (R4, R6), and no other pulse changes the reference state.  A stray pulse, and a good one short of the lock, makes no boundary and no report, so no REF report either (R7). -/
def Obligations.PulseMovesMonitor : Prop :=
  ∀ (elapsed : Nat) (gpi : BitVec 16) (s : State), ∃ t, exec (.referencePulse elapsed gpi) s = .next t ∧
    let now := s.rtu.now + elapsed
    let w := s.rtu.rate.period / 16
    t.rtu.now = now ∧ t.rtu.rate = s.rtu.rate ∧ t.runState = s.runState ∧ t.control = s.control ∧
    ((∃ e, s.rtu.expected = some e ∧ e ≤ now + w ∧ now ≤ e + w) →
      t.rtu.good = min 8 (s.rtu.good + 1) ∧ t.rtu.missing = 0 ∧ t.rtu.expected = some (now + s.rtu.rate.period) ∧
      t.rtu.ref = (if 8 ≤ s.rtu.good + 1 then .locked else s.rtu.ref) ∧
      (s.rtu.ref ≠ .locked → s.rtu.good < 7 → t.csi = s.csi ∧ t.store = s.store ∧ t.rtu.frame = s.rtu.frame ∧ t.rtu.count = s.rtu.count + elapsed)) ∧
    ((∀ e, s.rtu.expected = some e → now + w < e ∨ e + w < now) →
      t.rtu.missing = s.rtu.missing ∧ t.rtu.ref = s.rtu.ref ∧ t.rtu.frame = s.rtu.frame ∧ t.rtu.label = s.rtu.label ∧
      t.rtu.count = s.rtu.count + elapsed ∧ t.rtu.jam = s.rtu.jam ∧ t.rtu.cues = s.rtu.cues ∧ t.xpe = s.xpe ∧ t.tly = s.tly ∧
      t.tke = s.tke ∧ t.pnc = s.pnc ∧ t.csi = s.csi ∧ t.store = s.store ∧
      (s.rtu.ref = .locked → t.rtu.good = s.rtu.good ∧ t.rtu.expected = s.rtu.expected) ∧
      (s.rtu.ref ≠ .locked → t.rtu.good = 0 ∧ t.rtu.expected = some (now + s.rtu.rate.period)))

/-- A good REFERENCE_PULSE aligns the frame.  At the relock, the pulse that brings the count to 8 in FREE or FLYWHEEL makes a boundary when the scaler count is at least half the period, and none
below it (R6).  In LOCKED a pulse before the expected instant makes the boundary at once, and one at or after it, with the scaler's boundary made, makes none (R5); that "made" is read off the count
being below the period is the model's reading (log entry 10).  The count restarts either way.  The relock makes one REF report for LOCKED (R7), before the boundary it may make; that it carries the frame in which the
pulse came is the model's choice (log entry 14).  A pulse in LOCKED makes no REF report. -/
def Obligations.GoodPulseAlignsFrame : Prop :=
  ∀ (elapsed : Nat) (gpi : BitVec 16) (s : State) (e : Nat), s.rtu.expected = some e →
    e ≤ s.rtu.now + elapsed + s.rtu.rate.period / 16 → s.rtu.now + elapsed ≤ e + s.rtu.rate.period / 16 →
    (s.rtu.ref ≠ .locked → s.rtu.good = 7 → ∃ t, exec (.referencePulse elapsed gpi) s = .next t ∧ t.rtu.ref = .locked ∧ t.rtu.count = 0 ∧
      t.rtu.frame = (if s.rtu.rate.period / 2 ≤ s.rtu.count + elapsed then s.rtu.frame + 1 else s.rtu.frame) ∧
      ∃ u, t = (if s.rtu.rate.period / 2 ≤ s.rtu.count + elapsed then makeBoundary gpi u else u) ∧ u.rtu.frame = s.rtu.frame ∧ u.rtu.label = s.rtu.label ∧
        u.csi = (report (.ref .locked) s.rtu.frame s.rtu.label s).csi ∧ u.store = (report (.ref .locked) s.rtu.frame s.rtu.label s).store) ∧
    (s.rtu.ref = .locked → s.rtu.count + elapsed < s.rtu.rate.period → ∃ t, exec (.referencePulse elapsed gpi) s = .next t ∧
      t.rtu.ref = .locked ∧ t.rtu.count = 0 ∧
      t.rtu.frame = (if s.rtu.now + elapsed < e then s.rtu.frame + 1 else s.rtu.frame) ∧
      ∃ u, t = (if s.rtu.now + elapsed < e then makeBoundary gpi u else u) ∧ u.csi = s.csi ∧ u.store = s.store)

/-- REFERENCE_WINDOW_CLOSE with an expected instant (R3, R5): the missing count rises to 2 at most, the good count becomes 0, the instant advances by the period, and in LOCKED the second miss makes
FLYWHEEL, with a REF report of it in the current frame (R7), and nothing else makes a report; no boundary is made.  That the good count becomes 0 outside LOCKED too, and that the time moves on to the window's end, is the model's reading (log entry 10);
with no expected instant there is no window to close, and nothing happens (log entry 5). -/
def Obligations.EmptyWindowCounts : Prop :=
  (∀ s : State, s.rtu.expected = none → exec .referenceWindowClose s = .next s) ∧
  ∀ (s : State) (e : Nat), s.rtu.expected = some e → ∃ t, exec .referenceWindowClose s = .next t ∧
    t.rtu = { s.rtu with
      now := s.rtu.now + (e + s.rtu.rate.period / 16 - s.rtu.now)
      count := s.rtu.count + (e + s.rtu.rate.period / 16 - s.rtu.now)
      missing := min 2 (s.rtu.missing + 1)
      good := 0
      expected := some (e + s.rtu.rate.period)
      ref := if s.rtu.ref = .locked ∧ 1 ≤ s.rtu.missing then .flywheel else s.rtu.ref } ∧
    t.xpe = s.xpe ∧ t.tly = s.tly ∧ t.tke = s.tke ∧ t.pnc = s.pnc ∧ t.runState = s.runState ∧ t.control = s.control ∧
    let u := if s.rtu.ref = .locked ∧ 1 ≤ s.rtu.missing then report (.ref .flywheel) s.rtu.frame s.rtu.label s else s
    t.csi = u.csi ∧ t.store = u.store

/-- R11: the count of a label, its range, and its rise by one at each succession but the last of the day. -/
def Obligations.LabelCounts : Prop :=
  (Rate.r24.dayFrames = 2073600 ∧ Rate.r25.dayFrames = 2160000 ∧ Rate.r30.dayFrames = 2592000 ∧ Rate.r30df.dayFrames = 2589408 ∧
    Rate.r50.dayFrames = 4320000 ∧ Rate.r60.dayFrames = 5184000 ∧ Rate.r60df.dayFrames = 5178816) ∧
  ∀ (r : Rate) (l : Label), l.wellFormed r = true → l.skipped r = false →
    (r.drop = 0 → l.count r = r.base * (3600 * l.hh + 60 * l.mm + l.ss) + l.ff) ∧
    (r.drop ≠ 0 → (l.count r : Int) = (r.base * (3600 * l.hh + 60 * l.mm + l.ss) + l.ff : Int)
      - r.drop * ((60 * l.hh + l.mm : Int) - ((60 * l.hh + l.mm) / 10 : Nat))) ∧
    l.count r < r.dayFrames ∧
    (l ≠ ⟨23, 59, 59, r.base - 1⟩ → (successor r l).count r = l.count r + 1) ∧
    (l = ⟨23, 59, 59, r.base - 1⟩ → (successor r l).count r = 0)

/-- The due frame of AT_LABEL carries the label when no jam or rate change intervenes: succession from the current label, applied as many times as the due frame is
ahead, reaches the label (R40). -/
def Obligations.DueLabelIsReached : Prop :=
  ∀ (r : Rate) (k f : FrameIndex) (n l : Label), n.wellFormed r = true → n.skipped r = false →
    dueFrame r k n (some (.atLabel l)) = .ok (some f) → 2 ≤ (f - k).toNat ∧ Nat.repeat (successor r) (f - k).toNat n = l

/-- The examination of PENDING keys (R95): AUTO_LATCH_THRESHOLD moves to HELD just the PENDING keys pressed at least so many frames before this frame as their panel's threshold was at the boundary that began it, and changes no
other key and nothing else; it is due once a frame, when a boundary has reached the TKE (log entry 9).  Refusal flashes (R141, R142): a boundary lowers every timer above 0 by one, and REFUSAL_FLASH_END derives again every lamp of each ONLINE panel that has a
key whose timer the boundary brought to 0, the lamp of each such key of any other panel, and no other lamp.  A refusal sets the key's timer to 16 and its lamp to FLASH, on a panel in any state, and makes one KEY report with the code in the current frame (R140).  That this
holds on a panel that is not ONLINE too, and that the frame is the refusal's, is the model's reading (log entries 30 and 48).
The lamp that is derived (R104, R141, R142): FLASH while the timer runs; else the key function's: SELECT ON on its own selection; SOURCE FLASH on the preset, ON or, when red, ALT on the current source; TAKE FLASH over a preset; STEP ON with a walk of its
group; SALVO ON while an entry of its number is queued or armed; PROTECT ON or FLASH by the protect's owner; REPORT the host's lamp; TALK ON in an active state, FLASH while its target calls; OFF otherwise. -/
def Obligations.ThresholdsAndFlashes : Prop :=
  (∀ (s : State) (ts : Vector Nat 24), s.tke.latchDue = some ts → ∃ t, exec .autoLatchThreshold s = .next t ∧
    t = { s with tke := { s.tke with latchDue := none, keys := t.tke.keys } } ∧
    ∀ (p : Fin 24) (k : Fin 48),
      (∀ f, s.keyState p k = .pending f → t.keyState p k = if (ts[p] : Int) ≤ (s.rtu.frame - f).toInt then .held else .pending f) ∧
      ((∀ f, s.keyState p k ≠ .pending f) → t.keyState p k = s.keyState p k)) ∧
  (∀ s : State, s.tke.latchDue = none → exec .autoLatchThreshold s = .next s) ∧
  (∀ (gpi : BitVec 16) (s : State), (s.xpe.reading = none → s.xpe.fires = []) → ∃ t, exec (.frameBoundary gpi) s = .next t ∧
    (∃ ts, t.tke.latchDue = some ts ∧ ∀ p : Fin 24, ts[p] = (s.panel p).threshold) ∧
    ∀ (p : Fin 24) (k : Fin 48), (t.panel p).timers[k] = (s.panel p).timers[k] - 1 ∧
      ((p, k) ∈ t.pnc.flashEnds ↔ (s.panel p).timers[k] = 1)) ∧
  (∀ s : State, ∃ t, exec .refusalFlashEnd s = .next t ∧ t = { s with pnc := { s.pnc with panels := t.pnc.panels, flashEnds := [] } } ∧
    ∀ p : Fin 24, (t.panel p).timers = (s.panel p).timers ∧ (t.panel p).state = (s.panel p).state ∧
      (t.panel p).selection = (s.panel p).selection ∧
      ((∃ k : Fin 48, (p, k) ∈ s.pnc.flashEnds) → (s.panel p).state = .online → ∀ k : Fin 48, (t.panel p).image[k] = s.lampOf p k ∧
        (k ∈ (t.panel p).lampSet ↔ k ∈ (s.panel p).lampSet ∨ s.lampOf p k ≠ (s.panel p).image[k])) ∧
      ((s.panel p).state ≠ .online → ∀ k : Fin 48,
        ((p, k) ∈ s.pnc.flashEnds → (t.panel p).image[k] = s.lampOf p k) ∧ ((p, k) ∉ s.pnc.flashEnds → (t.panel p).image[k] = (s.panel p).image[k]) ∧
        (k ∈ (t.panel p).lampSet ↔ k ∈ (s.panel p).lampSet ∨ ((p, k) ∈ s.pnc.flashEnds ∧ s.lampOf p k ≠ (s.panel p).image[k]))) ∧
      ((∀ k : Fin 48, (p, k) ∉ s.pnc.flashEnds) → t.panel p = s.panel p)) ∧
  (∀ (s : State) (p : Fin 24) (k : Fin 48) (c : Code), let t := refuseKey p k c s
    (t.panel p).timers = upd (s.panel p).timers k 16 ∧ (t.panel p).image = upd (s.panel p).image k .flash ∧
      (t.panel p).lampSet = (if (s.panel p).image[k] = .flash ∨ k ∈ (s.panel p).lampSet then (s.panel p).lampSet else (s.panel p).lampSet ++ [k]) ∧
      (t.panel p).state = (s.panel p).state ∧ (t.panel p).selection = (s.panel p).selection ∧ (∀ o : Fin 24, o ≠ p → t.panel o = s.panel o) ∧
      t.csi = (report (.key p k c.byte) s.rtu.frame s.rtu.label s).csi ∧ t.store = (report (.key p k c.byte) s.rtu.frame s.rtu.label s).store ∧
      t.rtu = s.rtu ∧ t.xpe = s.xpe ∧ t.tly = s.tly ∧ t.tke = s.tke ∧ t.runState = s.runState) ∧
  ∀ (s : State) (p : Fin 24) (k : Fin 48), let lamp := s.lampOf p k
    let sel := (s.panel p).selection
    let red := fun x : Source => ∃ n : Fin 128, x = .input n ∧ s.tly.tally[n].getLsbD 0 = true
    (0 < (s.panel p).timers[k] → lamp = .flash) ∧
    ((s.panel p).timers[k] = 0 →
      (s.keyAction p k = .none → lamp = .off) ∧ (∀ l, s.keyAction p k = .report l → lamp = l) ∧
      (∀ d m, s.keyAction p k = .select d m → lamp = if sel.dest = some (d, m) then .on else .off) ∧
      (∀ x, s.keyAction p k = .source x → (sel.preset = some x → lamp = .flash) ∧
        (sel.preset ≠ some x → s.showsSource sel x → (red x → lamp = .alt) ∧ (¬ red x → lamp = .on)) ∧
        (sel.preset ≠ some x → ¬ s.showsSource sel x → lamp = .off)) ∧
      (s.keyAction p k = .take → lamp = if sel.preset = none then .off else .flash) ∧
      (∀ g, s.keyAction p k = .step g → ((∃ w, sel.walk = some w ∧ w.group = g) → lamp = .on) ∧
        ((∀ w, sel.walk = some w → w.group ≠ g) → lamp = .off)) ∧
      (∀ n, s.keyAction p k = .salvo n → let active := (∃ u ∈ s.xpe.queue, u.salvo = some n ∧ u.entries ≠ []) ∨ ∃ a ∈ s.xpe.armed, a.salvo = some n
        (active → lamp = .on) ∧ (¬ active → lamp = .off)) ∧
      (s.keyAction p k = .protect → (sel.dest = none → lamp = .off) ∧ ∀ d m, sel.dest = some (d, m) →
        ((s.dest d).protect = none → lamp = .off) ∧
        ∀ y, (s.dest d).protect = some y → lamp = if y.owner = .panel p then .on else .flash) ∧
      ∀ target mode gain, s.keyAction p k = .talk target mode gain →
        let calls := s.usableStation p = true ∧ ∃ x ∈ s.tke.paths, (s.panel p).station = some x.listener ∧ (s.targetSet target).getLsbD x.talker.1 = true
        ((s.keyState p k).active = true → lamp = .on) ∧ ((s.keyState p k).active = false → (calls → lamp = .flash) ∧ (¬ calls → lamp = .off)))

/-! ### Registers of the control computer -/

/-- ANCHOR_WRITE in HALTED replaces the address by bits 21..0 of the value, and in any other run state is ignored (R147); NOTICE_ENABLE_WRITE sets the mask, NOTICE_CLEAR clears the causes written as 1, and
STATUS_WRITE is ignored (R168, R170, R171); the interrupt line is asserted just while a pending cause is enabled.  STATUS, CONTROL (with ERS and IRS read as 0), NOTICE and ANCHOR read as
their bit places say; that the bits with no place in STATUS, CONTROL and NOTICE read 0 is the model's choice (log entry 54).  That the control computer's writes to the common store ride on these accesses is the model's choice (log entry 2). -/
def Obligations.RegisterWrites : Prop :=
  (∀ (pre : HostWrites) (v : BitVec 32) (s : State), writesInside pre = true → ∃ a : BitVec 22,
    exec (.anchorWrite pre v) s = .next { s.withWrites pre with csi := { s.csi with anchor := a } } ∧
    a.toNat = if s.runState = .halted then v.toNat % 4194304 else s.csi.anchor.toNat) ∧
  (∀ (pre : HostWrites) (mask : BitVec 5) (s : State), writesInside pre = true →
    exec (.noticeEnableWrite pre mask) s = .next { s.withWrites pre with control := { s.control with mask := mask } }) ∧
  (∀ (pre : HostWrites) (causes : BitVec 5) (s : State), writesInside pre = true → ∃ n : BitVec 5,
    exec (.noticeClear pre causes) s = .next { s.withWrites pre with csi := { s.csi with notice := n } } ∧
    ∀ i : Fin 5, n.getLsbD i.1 = (s.csi.notice.getLsbD i.1 && !causes.getLsbD i.1)) ∧
  (∀ (pre : HostWrites) (v : BitVec 32) (s : State), writesInside pre = true →
    exec (.statusWrite pre v) s = .next (s.withWrites pre)) ∧
  ∀ s : State, (s.interrupt = true ↔ ∃ i : Fin 5, s.csi.notice.getLsbD i.1 = true ∧ s.control.mask.getLsbD i.1 = true) ∧
    (s.status.extractLsb' 0 2 = (match s.runState with | .halted => 0 | .sweep => 1 | .running => 2 | .halting => 3) ∧
      s.status.getLsbD 2 = s.csi.copy.isSome ∧
      s.status.extractLsb' 3 2 = (match s.rtu.ref with | .free => 0 | .locked => 1 | .flywheel => 2) ∧
      s.status.getLsbD 5 = decide (s.xpe.link = .up) ∧ s.status.getLsbD 6 = s.xpe.sweep.isSome ∧
      s.status.getLsbD 7 = decide (s.tke.link = .up) ∧ s.status.getLsbD 8 = decide (s.csi.mirror.freeze = .frozen) ∧
      s.status.extractLsb' 9 7 = 0 ∧ (s.tke.queue.length ≤ 1032 → (s.status.extractLsb' 16 16).toNat = s.tke.queue.length)) ∧
    (s.controlWord.getLsbD 0 = s.control.run ∧ s.controlWord.getLsbD 1 = s.control.freeze ∧ s.controlWord.extractLsb' 2 6 = 0 ∧
      s.controlWord.extractLsb' 8 5 = s.control.mask ∧ s.controlWord.extractLsb' 13 19 = 0) ∧
    (s.noticeWord.extractLsb' 0 5 = s.csi.notice ∧ s.noticeWord.extractLsb' 5 27 = 0) ∧
    s.anchorWord.extractLsb' 0 22 = s.csi.anchor ∧ s.anchorWord.extractLsb' 22 10 = 0

/-- POST (R151): in SWEEP or RUNNING, a slot that is not in the engine's hands, with a READY header whose count, address and list are as R151 asks, becomes QUEUED and goes to the tail of the post queue with a copy of its
header, and nothing else changes; any other post raises BAD_POST and changes nothing else.  That the flag bits of a header other than its two listed ones are not read is the model's inference (log entry 20). -/
def Obligations.PostTakesReadySlot : Prop :=
  ∀ (pre : HostWrites) (slot : Fin 8) (s : State) (c : AnchorCopy), writesInside pre = true → s.csi.copy = some c →
    let m := hostWrite s.store pre
    let h := c.address + 0x40 + 16 * slot.1
    let good := (s.runState = .sweep ∨ s.runState = .running) ∧ (∀ p ∈ s.csi.posts, p.slot ≠ slot) ∧
      (∀ r, s.csi.running = some r → r.slot.slot ≠ slot) ∧ storeRead m h = 1 ∧ 1 ≤ storeRead16 m (h + 2) ∧
      storeRead16 m (h + 2) ≤ 256 ∧ storeRead32 m (h + 4) % 32 = 0 ∧ c.orders.base ≤ storeRead32 m (h + 4) ∧
      storeRead32 m (h + 4) + 32 * storeRead16 m (h + 2) ≤ c.orders.base + c.orders.size
    (good → exec (.post pre slot) s = .next { s.withWrites pre with
      store := storeWrites m h [2]
      csi := { s.csi with posts := s.csi.posts ++ [
        { slot := slot, stopOn := (storeRead m (h + 1)).getLsbD 0, salvo := (storeRead m (h + 1)).getLsbD 1, address := storeRead32 m (h + 4), count := storeRead16 m (h + 2) }] } }) ∧
    (¬ good → exec (.post pre slot) s = .next { s.withWrites pre with csi := { s.csi with notice := s.csi.notice ||| 2 } })

/-- WITHDRAW (R152): a queued slot leaves the post queue; each of its orders has WITHDRAWN in its outcome word, its header's counts are 0 and its state DONE, STRIP_DONE is pending, and no other byte of the common store changes; a running one is
marked to stop; a slot that is not in the engine's hands is left alone.  That a running strip taken between two orders still works the next is the model's reading (log entry 43).  That the withdrawn orders' outcome words carry detail 0 and the current frame is the model's choice (log entry 24). -/
def Obligations.WithdrawBySlot : Prop :=
  ∀ (pre : HostWrites) (slot : Fin 8) (s : State), writesInside pre = true →
    ((∃ p ∈ s.csi.posts, p.slot = slot) → ∃ t, exec (.withdraw pre slot) s = .next t ∧
      t.csi = { s.csi with posts := s.csi.posts.filter (fun p => decide (p.slot ≠ slot)), notice := s.csi.notice ||| 1 } ∧
      t.rtu = s.rtu ∧ t.xpe = s.xpe ∧ t.tly = s.tly ∧ t.tke = s.tke ∧ t.pnc = s.pnc ∧ t.runState = s.runState ∧ t.control = s.control ∧
      (∀ x, (∀ p ∈ s.csi.posts, p.slot = slot → ∀ i, i < p.count → x ≠ p.address + 32 * i + 0x18 ∧ x ≠ p.address + 32 * i + 0x19 ∧
          (x < p.address + 32 * i + 0x1C ∨ p.address + 32 * i + 0x20 ≤ x)) →
        (∀ c, s.csi.copy = some c → let h := c.address + 0x40 + 16 * slot.1
          x ≠ h ∧ (x < h + 8 ∨ h + 12 ≤ x)) →
        storeRead t.store x = storeRead (hostWrite s.store pre) x) ∧
      ∀ (p : Posted) (c : AnchorCopy), p ∈ s.csi.posts → p.slot = slot → s.postsSound → s.csi.copy = some c → s.store.wf = true →
        let h := c.address + 0x40 + 16 * slot.1
        p.address + 32 * p.count ≤ 4194304 → h + 16 ≤ 4194304 → (p.address + 32 * p.count ≤ h ∨ h + 16 ≤ p.address) →
        (∀ i, i < p.count → let o := p.address + 32 * i
          storeRead t.store (o + 0x18) = 0x20 ∧ storeRead t.store (o + 0x19) = 0 ∧
          ∀ j : Fin 4, storeRead t.store (o + 0x1C + j.1) = s.rtu.frame.extractLsb' (8 * j.1) 8) ∧
        storeRead t.store h = 4 ∧ storeRead16 t.store (h + 8) = 0 ∧ storeRead16 t.store (h + 10) = 0) ∧
    ((∀ p ∈ s.csi.posts, p.slot ≠ slot) → ∀ r, s.csi.running = some r → r.slot.slot = slot →
      exec (.withdraw pre slot) s = .next { s.withWrites pre with csi := { s.csi with running := some { r with stop := true } } }) ∧
    ((∀ p ∈ s.csi.posts, p.slot ≠ slot) → (∀ r, s.csi.running = some r → r.slot.slot ≠ slot) →
      exec (.withdraw pre slot) s = .next (s.withWrites pre))

/-- The checks of a start are R148's nine; START on a block that fails one raises BAD_ANCHOR and clears RUN, and the engine stays HALTED with nothing else changed but the enable mask and the FREEZE bit that the write gives (R170, R172): the mirrors are as FREEZE_SET or
FREEZE_CLEAR with that mask alone would leave them, by the value of the bit.  That the oscillator's ticks come with the command is the model's choice (log entry 10). -/
def Obligations.BadAnchorStopsStart : Prop :=
  (∀ (a : Nat) (b : AnchorBlock), anchorChecks a b = true ↔
    (a % 64 = 0 ∧ a + 192 ≤ 4194304) ∧ b.rateCode ≤ 6 ∧
    ((b.orders.base % 64 = 0 ∧ b.orders.size % 64 = 0 ∧ b.orders.size ≠ 0 ∧ b.orders.base + b.orders.size ≤ 4194304) ∧
      (b.reports.base % 64 = 0 ∧ b.reports.size % 64 = 0 ∧ b.reports.size ≠ 0 ∧ b.reports.base + b.reports.size ≤ 4194304)) ∧
    (b.orders.base + b.orders.size ≤ b.reports.base ∨ b.reports.base + b.reports.size ≤ b.orders.base) ∧
    (b.reports.base ≤ a ∧ a + 192 ≤ b.reports.base + b.reports.size) ∧
    (b.journal % 64 = 0 ∧ b.reports.base ≤ b.journal ∧ b.journal + 4096 ≤ b.reports.base + b.reports.size) ∧
    (b.mirror % 64 = 0 ∧ b.reports.base ≤ b.mirror ∧ b.mirror + 3008 ≤ b.reports.base + b.reports.size) ∧
    ((a + 192 ≤ b.journal ∨ b.journal + 4096 ≤ a) ∧ (a + 192 ≤ b.mirror ∨ b.mirror + 3008 ≤ a) ∧
      (b.journal + 4096 ≤ b.mirror ∨ b.mirror + 3008 ≤ b.journal)) ∧
    (1 ≤ b.threshold ∧ b.threshold ≤ 255 ∧ b.readIndex ≤ 255)) ∧
  ∀ (pre : HostWrites) (elapsed : Nat) (gpi : BitVec 16) (freeze : Bool) (mask : BitVec 5) (s : State), writesInside pre = true →
    s.runState = .halted → s.control.run = false →
    anchorChecks s.csi.anchor.toNat (anchorBlockAt (hostWrite s.store pre) s.csi.anchor.toNat) = false →
    (freeze = s.control.freeze → exec (.start pre elapsed gpi freeze mask) s = .next { s.withWrites pre with
      rtu := { s.rtu with now := s.rtu.now + elapsed, count := s.rtu.count + elapsed }
      control := { s.control with mask := mask }
      csi := { s.csi with notice := s.csi.notice ||| 4 } }) ∧
    ∃ u, exec (if freeze = true then .freezeSet pre mask else .freezeClear pre mask) s = .next u ∧
      u.control = { s.control with freeze := freeze, mask := mask } ∧
      exec (.start pre elapsed gpi freeze mask) s = .next { u with
        rtu := { s.rtu with now := s.rtu.now + elapsed, count := s.rtu.count + elapsed }
        csi := { u.csi with notice := u.csi.notice ||| 4 } }

/-- START on a sound block (R148, R172): the engine is SWEEP with RUN set and the anchor copy taken; the post queue is emptied just when the address or a window moved; every enabled panel that was ONLINE, JOINING or WRONG_MODEL is JOINING with a missed-reply
count and sequence bit of 0; a sweep starts if the fabric link is UP, every crosspoint and feed stands in the coefficient queue with its target value, and the next mirror rewrite is complete.  The rate in use leaves the RTU undisturbed; another rate is taken (R2): FREE, the
monitor cleared, the label and the jam request rewritten, the cues kept, and a boundary made at once when the count has reached the new period.  The reports of the start are a REF report for FREE where the rate changes and the state was not FREE (R7), with
the label as rewritten (the model's choice, log entry 14), then a PANEL report for each panel that was ONLINE or WRONG_MODEL, by rising number (that order, with the REF report first, is the model's choice, log entry 41).  A write that changes the FREEZE bit too leaves the mirrors as FREEZE_SET or FREEZE_CLEAR with the mask alone would, before the start; that
FREEZE and the mask act before RUN within one write is the model's choice, as the manual gives no order there (log entry 11).  That the overdue boundary follows the other start actions, and so comes in SWEEP, is the model's choice (log entry 15), as is that the oscillator's ticks come with the command (log entry 10). -/
def Obligations.StartEntersSweep : Prop :=
  ∀ (pre : HostWrites) (elapsed : Nat) (gpi : BitVec 16) (freeze : Bool) (mask : BitVec 5) (s : State) (r : Rate), writesInside pre = true →
    s.runState = .halted → s.control.run = false →
    let b := anchorBlockAt (hostWrite s.store pre) s.csi.anchor.toNat
    let overdue := r ≠ s.rtu.rate ∧ r.period ≤ s.rtu.count + elapsed
    let rewritten := fun l : Label => let f := min l.ff (r.base - 1)
      if l.ss = 0 ∧ f < r.drop ∧ l.mm % 10 ≠ 0 then { l with ff := r.drop } else { l with ff := f }
    anchorChecks s.csi.anchor.toNat b = true → rateOf b.rateCode = some r →
    ∃ u, exec (if freeze = true then .freezeSet pre mask else .freezeClear pre mask) s = .next u ∧
    ∃ t, exec (.start pre elapsed gpi freeze mask) s = .next t ∧ t.runState = .sweep ∧
      t.control = { s.control with run := true, freeze := freeze, mask := mask } ∧
      t.csi.copy = some { address := s.csi.anchor.toNat, orders := b.orders, reports := b.reports, journal := b.journal, mirror := b.mirror, threshold := b.threshold } ∧
      (∀ o, s.csi.copy = some o → o.address = s.csi.anchor.toNat → o.orders = b.orders → o.reports = b.reports →
        t.csi.posts = s.csi.posts) ∧
      (s.csi.copy = none → t.csi.posts = []) ∧
      (∀ o, s.csi.copy = some o → o.address ≠ s.csi.anchor.toNat ∨ o.orders ≠ b.orders ∨ o.reports ≠ b.reports →
        t.csi.posts = []) ∧
      (∀ p : Fin 24, (s.panel p).enabled = true →
        (s.panel p).state = .online ∨ (s.panel p).state = .joining ∨ (s.panel p).state = .wrongModel →
        (t.panel p).state = .joining ∧ (t.panel p).missed = 0 ∧ (t.panel p).bit = false) ∧
      (∀ p : Fin 24, (s.panel p).enabled = false ∨ (s.panel p).state = .absent ∨ (s.panel p).state = .lost →
        (t.panel p).state = (s.panel p).state) ∧
      (¬ overdue → t.xpe = { s.xpe with sweep := if s.xpe.link = .up then some (0, .v) else s.xpe.sweep } ∧ t.tly = s.tly ∧
        (∀ a b : Fin 32, { key := .xpt a b, value := .coeff t.tke.target[a][b] } ∈ t.tke.queue) ∧
        (∀ i : Fin 8, { key := .feed i, value := .feed t.tke.feeds[i] } ∈ t.tke.queue) ∧
        t.csi.mirror = { u.csi.mirror with complete := true }) ∧
      (r = s.rtu.rate → t.rtu = { s.rtu with now := s.rtu.now + elapsed, count := s.rtu.count + elapsed }) ∧
      (r ≠ s.rtu.rate → t.rtu.rate = r ∧ t.rtu.ref = .free ∧ t.rtu.expected = none ∧ t.rtu.good = 0 ∧ t.rtu.missing = 0 ∧
        t.rtu.now = s.rtu.now + elapsed ∧ t.rtu.cues = s.rtu.cues ∧
        (¬ overdue → t.rtu.count = s.rtu.count + elapsed ∧ t.rtu.frame = s.rtu.frame ∧ t.rtu.label = rewritten s.rtu.label ∧
          t.rtu.jam = s.rtu.jam.map rewritten) ∧
        (overdue → t.rtu.count = 0 ∧ t.rtu.frame = s.rtu.frame + 1 ∧ t.rtu.jam = none ∧
          t.rtu.label = (s.rtu.jam.map rewritten).getD (successor r (rewritten s.rtu.label)) ∧ t.tly.inputs = some { frame := s.rtu.frame + 1, sample := gpi, snapshot := t.tke.incoming } ∧
          (s.xpe.link = .up → t.xpe.sweep = some (0, .v) ∧ t.xpe.reportWait = some (s.rtu.frame + 1)))) ∧
      let label := if r = s.rtu.rate then s.rtu.label else rewritten s.rtu.label
      let taken := { u with csi := { u.csi with copy := t.csi.copy } }
      let changed := if r ≠ s.rtu.rate ∧ s.rtu.ref ≠ .free then report (.ref .free) s.rtu.frame label taken else taken
      let made := (List.finRange 24).foldl (fun (v : State) (p : Fin 24) =>
        if (s.panel p).enabled = true ∧ ((s.panel p).state = .online ∨ (s.panel p).state = .wrongModel) then report (.panel p .joining) s.rtu.frame label v
        else v) changed
      ∃ v, t = (if overdue then makeBoundary gpi (restartCount v) else v) ∧ v.store = made.store ∧ v.csi.writeIndex = made.csi.writeIndex ∧
        v.csi.gap = made.csi.gap ∧ v.csi.saturated = made.csi.saturated ∧ v.csi.notice = made.csi.notice

/-- RUN_CLEAR in SWEEP or RUNNING (R105, R173): HALTING, or HALTED at once when no strip runs, nothing is armed and the coefficient queue is empty or its link DOWN (R174), the running strip marked to stop, every talk key IDLE, and no path, talking or incoming-talk
port left when some key was not IDLE; the RTU and the TLY are unchanged, and so is the XPE, but that HALTED abandons a sweep and awaits no switch report.  In HALTED and HALTING only the bit changes.  START outside HALTED only holds the bit (R170, R174), and so does one
in HALTED with RUN set already (the model's reading, log entry 35).  A write that changes the FREEZE bit too leaves the mirrors and NOTICE as FREEZE_SET or FREEZE_CLEAR with the mask alone would, before RUN acts; that order within one write is the model's choice (log entry 11), and that the oscillator's ticks come with the command is the model's choice (log entry 10). -/
def Obligations.RunClearHalts : Prop :=
  (∀ (pre : HostWrites) (elapsed : Nat) (gpi : BitVec 16) (freeze : Bool) (mask : BitVec 5) (s : State), writesInside pre = true →
    s.runState ≠ .halted ∨ s.control.run = true →
    ∃ u, exec (if freeze = true then .freezeSet pre mask else .freezeClear pre mask) s = .next u ∧
      exec (.start pre elapsed gpi freeze mask) s = .next { u with
        rtu := { s.rtu with now := s.rtu.now + elapsed, count := s.rtu.count + elapsed }
        control := { s.control with run := true, freeze := freeze, mask := mask } }) ∧
  ∀ (pre : HostWrites) (freeze : Bool) (mask : BitVec 5) (s : State), writesInside pre = true →
    ∃ u, exec (if freeze = true then .freezeSet pre mask else .freezeClear pre mask) s = .next u ∧
    ((s.runState = .sweep ∨ s.runState = .running) → ∃ t, exec (.runClear pre freeze mask) s = .next t ∧
      let quiet := s.csi.running = none ∧ s.xpe.armed = [] ∧ (t.tke.queue = [] ∨ t.tke.link = .down)
      (quiet → t.runState = .halted ∧ t.xpe = { s.xpe with sweep := none, reportWait := none }) ∧ (¬ quiet → t.runState = .halting ∧ t.xpe = s.xpe) ∧
      t.control = { s.control with run := false, freeze := freeze, mask := mask } ∧
      t.csi = { u.csi with running := s.csi.running.map (fun r => { r with stop := true }) } ∧
      (∀ (p : Fin 24) (k : Fin 48), t.keyState p k = .idle) ∧
      ((∃ (p : Fin 24) (k : Fin 48), s.keyState p k ≠ .idle) → t.tke.paths = [] ∧ t.tke.talking = 0 ∧ t.tke.incoming = 0) ∧
      t.rtu = s.rtu ∧ t.tly = s.tly ∧ t.store = hostWrite s.store pre) ∧
    ((s.runState = .halted ∨ s.runState = .halting) → exec (.runClear pre freeze mask) s =
      .next { u with control := { s.control with run := false, freeze := freeze, mask := mask } })

/-- FREEZE_SET, FREEZE_CLEAR and MIRROR_REWRITE_END (R166, R167, R170): with the mirrors LIVE and no rewrite in progress FREEZE makes them FROZEN at once, with NOTICE FROZEN; with one in progress, FREEZING, and a rewrite that waits is dropped; clearing makes them LIVE and the
next rewrite complete.  The rewrite in progress ends by writing its closing count; in FREEZING the mirrors become FROZEN then, while in LIVE a waiting one starts: it writes its header, and every entry of
every table when it is complete, no entry when none has changed, and nothing outside the tables.  An incomplete rewrite of which the previous one left the picture of a state w writes only the entries in which the two differ, and where the tables showed w they show the new picture after it (the bits of an entry that its layout gives no meaning are 0, the
model's choice, log entry 57).  A resolution (here that of a boundary with the fabric link DOWN, outside HALTED) starts a rewrite for its frame in LIVE, or with one in
progress waits in place of any that waits already; in FREEZING or FROZEN, and with no valid anchor copy, it starts none.  That nothing happens where no rewrite is in progress is the model's choice (log entry 5). -/
def Obligations.FreezeStopsMirrors : Prop :=
  (∀ (pre : HostWrites) (mask : BitVec 5) (s : State), writesInside pre = true →
    (s.control.freeze = false → s.csi.mirror.freeze = .live → s.csi.mirror.writing = none →
      exec (.freezeSet pre mask) s = .next { s.withWrites pre with
        control := { s.control with freeze := true, mask := mask }
        csi := { s.csi with notice := s.csi.notice ||| 16, mirror := { s.csi.mirror with freeze := .frozen, waiting := none } } }) ∧
    (s.control.freeze = false → s.csi.mirror.freeze = .live → s.csi.mirror.writing ≠ none →
      exec (.freezeSet pre mask) s = .next { s.withWrites pre with
        control := { s.control with freeze := true, mask := mask }
        csi := { s.csi with mirror := { s.csi.mirror with freeze := .freezing, waiting := none } } }) ∧
    (s.control.freeze = true → exec (.freezeSet pre mask) s = .next { s.withWrites pre with control := { s.control with mask := mask } }) ∧
    (s.control.freeze = true → exec (.freezeClear pre mask) s = .next { s.withWrites pre with
      control := { s.control with freeze := false, mask := mask }
      csi := { s.csi with mirror := { s.csi.mirror with freeze := .live, complete := true } } }) ∧
    (s.control.freeze = false → exec (.freezeClear pre mask) s = .next { s.withWrites pre with control := { s.control with mask := mask } })) ∧
  (∀ (s : State) (base : Nat), s.csi.mirror.writing = some base →
    let m := storeWrites s.store (base + 0x1C) ((List.range 4).map fun i => s.csi.mirror.count.extractLsb' (8 * i) 8)
    (s.csi.mirror.freeze = .freezing → exec .mirrorRewriteEnd s = .next { s with
      store := m
      csi := { s.csi with notice := s.csi.notice ||| 16, mirror := { s.csi.mirror with writing := none, freeze := .frozen, waiting := none } } }) ∧
    (s.csi.mirror.freeze = .frozen ∨ (s.csi.mirror.freeze = .live ∧ s.csi.mirror.waiting = none) → exec .mirrorRewriteEnd s = .next { s with
      store := m
      csi := { s.csi with mirror := { s.csi.mirror with writing := none } } }) ∧
    (∀ c f l, s.csi.mirror.freeze = .live → s.csi.mirror.waiting = some (f, l) → s.csi.copy = some c →
      ∃ t, exec .mirrorRewriteEnd s = .next t ∧ t.csi.mirror.writing = some c.mirror ∧ t.csi.mirror.waiting = none ∧
        t.csi.mirror.count = s.csi.mirror.count + 1 ∧ t.csi.mirror.complete = false ∧ t.csi.mirror.freeze = .live ∧
        t.csi.mirror.written = mirrorEntries (fun _ => 0) s ∧
        t.csi.notice = s.csi.notice ∧ t.rtu = s.rtu ∧ t.xpe = s.xpe ∧ t.tly = s.tly ∧ t.tke = s.tke ∧ t.pnc = s.pnc ∧
        (s.store.wf = true → base + 3008 ≤ 4194304 → c.mirror + 3008 ≤ 4194304 →
          (storeRead32 t.store c.mirror = (s.csi.mirror.count + 1).toNat ∧ storeRead32 t.store (c.mirror + 4) = f.toNat ∧
            (∀ i : Fin 4, storeRead t.store (c.mirror + 8 + i.1) = l.bytes.getD i.1 0) ∧
            storeRead t.store (c.mirror + 12) = num8 s.rtu.ref.num ∧ storeRead t.store (c.mirror + 13) = num8 s.xpe.link.num ∧
            storeRead t.store (c.mirror + 14) = num8 s.tke.link.num) ∧
          (s.csi.mirror.complete = true → s.mirrorsShowTallies t.store c.mirror ∧ s.mirrorsShowPanels t.store c.mirror) ∧
          (∀ w : State, s.csi.mirror.complete = false → s.csi.mirror.written = mirrorEntries (fun _ => 0) w →
            (w.mirrorsShowTallies m c.mirror → s.mirrorsShowTallies t.store c.mirror) ∧ (w.mirrorsShowPanels m c.mirror → s.mirrorsShowPanels t.store c.mirror) ∧
            s.mirrorsLeave w m t.store c.mirror) ∧
          (s.csi.mirror.complete = false → s.csi.mirror.written = mirrorEntries (fun _ => 0) s → ∀ x, (x < base + 28 ∨ base + 32 ≤ x) →
            (x < c.mirror ∨ c.mirror + 15 ≤ x) → storeRead t.store x = storeRead s.store x) ∧
          ∀ x, (x < base + 28 ∨ base + 32 ≤ x) → (x < c.mirror ∨ c.mirror + 0xBA4 ≤ x) → storeRead t.store x = storeRead s.store x))) ∧
  (∀ s : State, s.csi.mirror.writing = none → exec .mirrorRewriteEnd s = .next s) ∧
  ∀ (gpi : BitVec 16) (s : State), s.xpe.link = .down → s.runState ≠ .halted → ∃ t, exec (.frameBoundary gpi) s = .next t ∧
    (s.csi.copy = none ∨ s.csi.mirror.freeze ≠ .live → t.csi.mirror = s.csi.mirror) ∧
    ∀ c, s.csi.copy = some c → s.csi.mirror.freeze = .live →
      (∀ b, s.csi.mirror.writing = some b → t.csi.mirror = { s.csi.mirror with waiting := some (s.rtu.frame + 1, t.rtu.label) }) ∧
      (s.csi.mirror.writing = none → t.csi.mirror.writing = some c.mirror ∧ t.csi.mirror.waiting = s.csi.mirror.waiting ∧
        t.csi.mirror.count = s.csi.mirror.count + 1 ∧ t.csi.mirror.complete = false ∧ t.csi.mirror.freeze = .live ∧
        t.csi.mirror.written = mirrorEntries (fun _ => 0) t ∧
        (s.store.wf = true → c.mirror + 3008 ≤ 4194304 →
          (storeRead32 t.store c.mirror = (s.csi.mirror.count + 1).toNat ∧ storeRead32 t.store (c.mirror + 4) = (s.rtu.frame + 1).toNat ∧
            (∀ i : Fin 4, storeRead t.store (c.mirror + 8 + i.1) = t.rtu.label.bytes.getD i.1 0) ∧
            storeRead t.store (c.mirror + 12) = num8 s.rtu.ref.num ∧ storeRead t.store (c.mirror + 13) = 0 ∧
            storeRead t.store (c.mirror + 14) = num8 s.tke.link.num) ∧
          (s.csi.mirror.complete = true → t.mirrorsShowTallies t.store c.mirror ∧ t.mirrorsShowPanels t.store c.mirror) ∧
          ∀ w : State, s.csi.mirror.complete = false → s.csi.mirror.written = mirrorEntries (fun _ => 0) w → (s.xpe.reading = none → s.xpe.fires = []) →
            (c.journal + 4096 ≤ c.mirror ∨ c.mirror + 3008 ≤ c.journal) → (c.address + 192 ≤ c.mirror ∨ c.mirror + 3008 ≤ c.address) →
            (w.mirrorsShowTallies s.store c.mirror → t.mirrorsShowTallies t.store c.mirror) ∧
            (w.mirrorsShowPanels s.store c.mirror → t.mirrorsShowPanels t.store c.mirror) ∧ t.mirrorsLeave w s.store t.store c.mirror))

/-- ENGINE_RESET (R175): HALTED with RUN clear; the queues, the armed set, the coefficient queue, the post queue and the running strip empty; the waits, the sweep, the salvo
reader and the messages outstanding ended; every talk key IDLE with no path left; every protect absent and no map entry KNOWN or MISMATCH, each with its source; the RTU, the
tallies, the links, the anchor copy and the configuration of ports, groups and IFB records unchanged; an interface
restart written with it is taken after it (R170).  While the anchor copy is valid the journal is reset first (R165): the write index takes the read index and is written, the gap count is written as 0 and the saturated flag is clear; then each
entry of the take queue from an application makes a TAKE_DONE report DROPPED from the reset index (R61), in the order of the queue (the model's choice, log entry 41).  No other report is made. -/
def Obligations.EngineResetEmptiesQueues : Prop :=
  ∀ (pre : HostWrites) (mask : BitVec 5) (s : State), writesInside pre = true → ∃ t,
    exec (.engineReset pre false mask) s = .next t ∧ t.runState = .halted ∧ t.control = { s.control with run := false, mask := mask } ∧
    (t.xpe.queue = [] ∧ t.xpe.armed = [] ∧ t.xpe.reportWait = none ∧ t.xpe.ackWait = false ∧ t.xpe.sweep = none ∧
      t.xpe.pingWait = false ∧ t.xpe.reading = none ∧ t.xpe.fires = [] ∧ t.xpe.link = s.xpe.link ∧ t.xpe.salvos = s.xpe.salvos ∧
      t.xpe.steps = s.xpe.steps) ∧
    (∀ (d : Fin 64) (l : Level), (t.dest d).protect = none ∧ ((t.dest d).entry l).source = ((s.dest d).entry l).source ∧
      ((t.dest d).entry l).state = (if ((s.dest d).entry l).state = .unknown then .unknown else .uncertain)) ∧
    (t.tke.queue = [] ∧ t.tke.flight = none ∧ t.tke.fails = 0 ∧ t.tke.paths = [] ∧ t.tke.talking = 0 ∧ t.tke.incoming = 0 ∧
      (∀ (p : Fin 24) (k : Fin 48), t.keyState p k = .idle) ∧ t.tke.link = s.tke.link ∧ t.tke.ports = s.tke.ports ∧
      t.tke.groups = s.tke.groups ∧ t.tke.ifbs = s.tke.ifbs) ∧
    ((∀ l : Fin 4, t.pnc.links[l].out = none) ∧ t.pnc.mapReads = [] ∧
      ∀ p : Fin 24, (t.panel p).selection = Selection.cleared ∧ (t.panel p).lampSet = [] ∧ (t.panel p).full = false ∧
        (t.panel p).image = (s.panel p).image ∧ (t.panel p).state = (s.panel p).state ∧ (t.panel p).map = (s.panel p).map) ∧
    (t.csi.posts = [] ∧ t.csi.running = none ∧ t.csi.copy = s.csi.copy ∧ t.csi.anchor = s.csi.anchor ∧
      t.csi.mirror.freeze = s.csi.mirror.freeze) ∧
    (s.csi.copy = none → t.csi.writeIndex = s.csi.writeIndex ∧ t.csi.gap = 0 ∧ t.csi.saturated = false ∧ t.csi.notice = s.csi.notice ∧
      t.store = hostWrite s.store pre) ∧
    (∀ c, s.csi.copy = some c → ∃ u, (u.csi.copy = some c ∧ u.csi.gap = 0 ∧ u.csi.saturated = false ∧ u.csi.notice = s.csi.notice ∧
        u.csi.writeIndex = storeRead (hostWrite s.store pre) (c.address + 0x1C)) ∧
      (s.store.wf = true → c.address + 192 ≤ 4194304 → storeRead u.store (c.address + 0x1E) = u.csi.writeIndex ∧ storeRead16 u.store (c.address + 0x20) = 0 ∧
        ∀ x, x ≠ c.address + 0x1E → x ≠ c.address + 0x20 → x ≠ c.address + 0x21 → storeRead u.store x = storeRead (hostWrite s.store pre) x) ∧
      let made := (s.xpe.queue.flatMap fun q => q.entries.map fun x => (q.requester.owner, x)).foldl (fun v e =>
        match e.1 with
        | .panel _ => v
        | .app tag => report (.takeDone tag e.2.dest e.2.level .dropped 0) s.rtu.frame s.rtu.label v) u
      t.store = made.store ∧ t.csi.writeIndex = made.csi.writeIndex ∧ t.csi.gap = made.csi.gap ∧ t.csi.saturated = made.csi.saturated ∧
        t.csi.notice = made.csi.notice) ∧
    t.rtu = s.rtu ∧ t.tly = s.tly ∧ t.replaced = [] ∧
    exec (.engineReset pre true mask) s = exec (.interfaceRestart [] mask) t

/-- INTERFACE_RESTART (R160, R165, R169, R176): the post queue and the running strip end, the notices, FREEZE and the gap count clear, the rewrite in progress is abandoned and
the next is complete; the write index takes the read index, and no other byte of the store changes but the write index and the gap count; CONTROL RUN and every block but the CSI go on, the salvo reader with its address and count, the fire requests
and the map reads included, with nowhere to answer to where an order of the ended strip asked (the model's form of that, log entry 19).  In HALTING the conditions of HALTED are then examined (R174), where the whole of what that brings is said beside ENTER_HALTED. -/
def Obligations.InterfaceRestartIsCsiAlone : Prop :=
  ∀ (pre : HostWrites) (mask : BitVec 5) (s : State), writesInside pre = true → ∃ t,
    exec (.interfaceRestart pre mask) s = .next (examineHalting t) ∧ (s.runState ≠ .halting → examineHalting t = t) ∧
    t.control = { run := s.control.run, freeze := false, mask := mask } ∧
    t.csi.posts = [] ∧ t.csi.running = none ∧ t.csi.notice = 0 ∧ t.csi.gap = 0 ∧ t.csi.saturated = false ∧
    t.csi.writeIndex = (match s.csi.copy with
      | none => s.csi.writeIndex
      | some c => storeRead (hostWrite s.store pre) (c.address + 0x1C)) ∧
    t.csi.mirror = { s.csi.mirror with writing := none, waiting := none, complete := true, freeze := .live } ∧
    t.csi.copy = s.csi.copy ∧ t.csi.anchor = s.csi.anchor ∧ t.runState = s.runState ∧ t.rtu = s.rtu ∧ t.tly = s.tly ∧
    t.tke = s.tke ∧
    (s.csi.copy = none → t.store = hostWrite s.store pre) ∧
    (∀ c, s.csi.copy = some c → s.store.wf = true → c.address + 192 ≤ 4194304 →
      storeRead t.store (c.address + 0x1E) = t.csi.writeIndex ∧ storeRead16 t.store (c.address + 0x20) = 0 ∧
      ∀ x, x ≠ c.address + 0x1E → x ≠ c.address + 0x20 → x ≠ c.address + 0x21 → storeRead t.store x = storeRead (hostWrite s.store pre) x) ∧
    let goesOn := fun q : FireRequest => { q with origin := if q.origin = .order then .orphan else q.origin }
    t.xpe = { s.xpe with reading := t.xpe.reading, fires := s.xpe.fires.map goesOn } ∧
    (s.xpe.reading = none → t.xpe.reading = none) ∧
    (∀ x, s.xpe.reading = some x → t.xpe.reading = some { x with request := goesOn x.request }) ∧
    t.pnc = { s.pnc with mapReads := s.pnc.mapReads.map fun x => { x with forOrder := false } }

/-- ENTER_HALTED enters HALTED just when the engine is HALTING, no strip runs, the armed set is empty, and the coefficient queue is empty or the talk link DOWN; the sweep and the wait for a switch report end, and with RUN held a start is taken
at once (R174).  Otherwise nothing happens (log entry 5).  The examination that ends every event which can make one of these true enters HALTED at the first moment they hold in the same way; with RUN held the start has the time and the contacts as free
values, the time short of the scaler's next boundary (the model's choice, log entry 40). -/
def Obligations.HaltedEnteredWhenQuiet : Prop :=
  (∀ (elapsed : Nat) (gpi : BitVec 16) (s : State),
    let quiet := s.runState = .halting ∧ s.csi.running = none ∧ s.xpe.armed = [] ∧ (s.tke.queue = [] ∨ s.tke.link = .down)
    (quiet → s.control.run = false → exec (.enterHalted elapsed gpi) s =
      .next { s with runState := .halted, xpe := { s.xpe with sweep := none, reportWait := none } }) ∧
    (quiet → s.control.run = true → ∃ t, exec (.enterHalted elapsed gpi) s = .next t ∧
      let sound := anchorChecks s.csi.anchor.toNat (anchorBlockAt s.store s.csi.anchor.toNat)
      t.runState = (if sound = true then .sweep else .halted) ∧ t.control = { s.control with run := sound }) ∧
    (¬ quiet → exec (.enterHalted elapsed gpi) s = .next s)) ∧
  ∀ u : State,
    (¬ u.haltsNow → examineHalting u = u) ∧
    (u.haltsNow → u.control.run = false →
      examineHalting u = { u with runState := .halted, xpe := { u.xpe with sweep := none, reportWait := none } }) ∧
    (u.haltsNow → u.control.run = true → ∃ elapsed gpi, (u.rtu.count < u.rtu.rate.period → u.rtu.count + elapsed < u.rtu.rate.period) ∧
      exec (.enterHalted elapsed gpi) { u with freeCount := u.freeCount + 1 } = .next (examineHalting u))

/-! ### Strips and orders -/

/-- STRIP_START (R153): in SWEEP or RUNNING with no strip running, the head slot leaves the post queue, its header is RUNNING with counts 0, and its first order is next; a strip
that cannot start does not (log entry 5). -/
def Obligations.StripStarts : Prop :=
  ∀ s : State,
    (∀ p rest c, s.csi.posts = p :: rest → s.csi.running = none → (s.runState = .sweep ∨ s.runState = .running) → p.salvo = false →
      s.csi.copy = some c → exec .stripStart s = .next { s with
        store := storeWrites (storeWrites s.store (c.address + 0x40 + 16 * p.slot.1) [3]) (c.address + 0x40 + 16 * p.slot.1 + 8)
          [0, 0, 0, 0]
        csi := { s.csi with
          posts := rest
          running := some { slot := p, next := 0, processed := 0, refused := 0, stop := false, waiting := none } } }) ∧
    (s.csi.posts = [] ∨ s.csi.running ≠ none ∨ s.runState = .halting ∨ s.runState = .halted → exec .stripStart s = .next s)

/-- A SALVO strip is one step (R49, R156), after which no strip is left running, every order's outcome word holds the one outcome, the header is DONE with the count processed, and STRIP_DONE is pending.  One that is not TAKE orders only, of one owner tag and level, at most 48, is refused
with REFUSED_SALVO, and one whose tag or level is out of range with REFUSED_ARG; takes that R47 refuses, and due forms that differ, earn REFUSED_SALVO, a due form that fails its own code, and a protect REFUSED_PROTECTED; a refused strip leaves the router's state as it was.  Else one unit
without a salvo number, of cause SALVO, is queued, with the number of entries as the detail, a TAKE_DONE report SUPERSEDED for each entry of an application that it replaces, and its take notices break the VALID guards of PRESET panels on its destinations (R44, R136).  The order of its
entries, and so of those reports, and that due forms agree by their bytes but for the value of NOW, are the model's choices (log entries 41 and 33); that a mask with a bit above V, A and B is out of range is its inference (log entry 20). -/
def Obligations.SalvoStripQueuesOneUnit : Prop :=
  ∀ (s : State) (p : Posted) (rest : List Posted) (c : AnchorCopy),
    s.csi.posts = p :: rest → s.csi.running = none → (s.runState = .sweep ∨ s.runState = .running) → p.salvo = true → 1 ≤ p.count →
    s.csi.copy = some c →
    let h := c.address + 0x40 + 16 * p.slot.1
    let m := storeWrites (storeWrites s.store h [3]) (h + 8) [0, 0, 0, 0]
    let rs := (List.range p.count).map fun i => storeReads m (p.address + 32 * i) 32
    let first := storeReads m p.address 32
    let sound := (∀ r ∈ rs, ob r 0 = 7 ∧ ob r 1 = ob first 1 ∧ ob r 2 = ob first 2) ∧ p.count ≤ 48
    let placed := s.store.wf = true ∧ p.address + 32 * p.count ≤ 4194304 ∧ h + 16 ≤ 4194304 ∧
      (p.address + 32 * p.count ≤ h ∨ h + 16 ≤ p.address)
    let ended := fun (t told : State) (code : Byte) (detail refusals : Nat) =>
      t.csi = { told.csi with posts := rest, notice := told.csi.notice ||| 1 } ∧ t.rtu = s.rtu ∧ t.tly = s.tly ∧ t.tke = s.tke ∧
      t.runState = s.runState ∧ t.control = s.control ∧
      (placed → (∀ i, i < p.count → let o := p.address + 32 * i
          storeRead t.store (o + 0x18) = code ∧ storeRead t.store (o + 0x19) = num8 detail ∧
          ∀ j : Fin 4, storeRead t.store (o + 0x1C + j.1) = s.rtu.frame.extractLsb' (8 * j.1) 8) ∧
        storeRead t.store h = 4 ∧ storeRead16 t.store (h + 8) = p.count % 65536 ∧ storeRead16 t.store (h + 10) = refusals % 65536 ∧
        ∀ x, (x < h ∨ h + 16 ≤ x) → (x < p.address ∨ p.address + 32 * p.count ≤ x) → storeRead t.store x = storeRead told.store x)
    let refusedWith := fun code : Byte => ∃ t, exec .stripStart s = .next t ∧ ended t s code 0 p.count ∧ t.xpe = s.xpe ∧ t.pnc = s.pnc
    (¬ sound → refusedWith 0x18) ∧
    (sound → 16 ≤ ob first 1 ∨ 4 ≤ ob first 2 → refusedWith 0x11) ∧
    ∀ (tag : Fin 16) (level : Fin 4), sound → ob first 1 = tag.1 → ob first 2 = level.1 →
      let q : Requester := ⟨.app tag, level⟩
      let list := rs.map fun r => ({ dest := ob r 4, mask := ob r 5, source := ob r 6 } : RawTake)
      let alike := ∀ r ∈ rs, ob r 7 = ob first 7 ∧ (ob r 7 = 0 ∨ ob32 r 8 = ob32 first 8)
      (¬ s.isSalvo list → refusedWith 0x18) ∧
      (s.isSalvo list → ¬ alike → refusedWith 0x18) ∧
      (s.isSalvo list → alike →
        (∀ e, s.dueRefused first e → refusedWith e.byte) ∧
        ∀ due, s.dueFixed first due → let es := s.salvoTakes list
          let u : TakeUnit := { due := due, requester := q, cause := .salvo, salvo := none, entries := es }
          ((∃ x ∈ es, ¬ s.lets x.dest q) → refusedWith 0x13) ∧
          ((∀ x ∈ es, s.lets x.dest q) → 64 < entriesIn (s.queueWith u) → refusedWith 0x15) ∧
          ((∀ x ∈ es, s.lets x.dest q) → entriesIn (s.queueWith u) ≤ 64 → ∃ t, exec .stripStart s = .next t ∧
            ended t (s.tellSuperseded es) 3 es.length 0 ∧ t.xpe = { s.xpe with queue := s.queueWith u } ∧
            s.guardsAfter t q.owner fun d => ∃ x ∈ es, x.dest = d))

/-- The strip's own checks of an order (R154, steps 2 and 3): ORDER_OF_UNKNOWN_KIND refuses, with REFUSED_KIND, an order whose kind byte is 0 or above 15H; an order of a listed kind whose owner tag or level is out of range is refused with
REFUSED_ARG before its block sees it.  A command of another kind than the order's is none of the strip's steps, and changes nothing (log entry 5). -/
def Obligations.OrderKindsAndRequesters : Prop :=
  ∀ (s : State) (r : Running) (rec : OrderRecord), s.currentOrder = some (r, rec) →
    ((ob rec 0 = 0 ∨ 0x15 < ob rec 0) → exec .orderOfUnknownKind s = .next (examineHalting (finishOrder r .refusedKind 0 s.rtu.frame s))) ∧
    ((1 ≤ ob rec 0 ∧ ob rec 0 ≤ 0x15) → exec .orderOfUnknownKind s = .next s) ∧
    ∀ x ∈ [(Instr.timeSet, 1), (.cueSet, 2), (.cueClear, 3), (.destSet, 4), (.salvoSet, 5), (.stepSet, 6), (.take, 7), (.cancel, 8),
        (.protect, 9), (.release, 10), (.salvoFire, 11), (.panelSet, 12), (.keymapLoad, 13), (.lampSet, 14), (.portSet, 15),
        (.groupSet, 16), (.ifbSet, 17), (.talkForce, 18), (.tallySet, 19), (.tallyForce, 20), (.gpiSet, 21)],
      (ob rec 0 = x.2 → (16 ≤ ob rec 1 ∨ 4 ≤ ob rec 2) → exec x.1 s = .next (examineHalting (finishOrder r .refusedArg 0 s.rtu.frame s))) ∧
      (ob rec 0 ≠ x.2 → exec x.1 s = .next s)

/-- An order gets its outcome (R154, steps 5 and 6; R155, R157): the code, the detail and the frame index are written into its outcome word, and the counts rise and are written into the header; no other byte of the
common store changes, 1AH and 1BH among them, but for the end of the strip.  The last order, a mark to stop and a refusal under STOP_ON_REFUSAL end the strip: its header is DONE, STRIP_DONE is pending, and the orders left get WITHDRAWN or SKIPPED.  Every other block is
as it was. -/
def Obligations.OrderOutcomeIsWritten : Prop :=
  ∀ (r : Running) (c : Code) (n : Nat) (f : FrameIndex) (s : State) (a : AnchorCopy), s.store.wf = true → s.csi.copy = some a →
    let o := r.slot.address + 32 * r.next
    let h := a.address + 0x40 + 16 * r.slot.slot.1
    r.next < r.slot.count → r.slot.address + 32 * r.slot.count ≤ 4194304 → h + 16 ≤ 4194304 →
    (r.slot.address + 32 * r.slot.count ≤ h ∨ h + 16 ≤ r.slot.address) →
    let t := finishOrder r c n f s
    let k := if c.isRefusal = true then r.refused + 1 else r.refused
    let ends := r.stop = true ∨ (r.slot.stopOn = true ∧ c.isRefusal = true) ∨ r.slot.count = r.next + 1
    (storeRead t.store (o + 0x18) = c.byte ∧ storeRead t.store (o + 0x19) = BitVec.ofNat 8 n ∧
      storeRead t.store (o + 0x1A) = storeRead s.store (o + 0x1A) ∧ storeRead t.store (o + 0x1B) = storeRead s.store (o + 0x1B) ∧
      (∀ i : Fin 4, storeRead t.store (o + 0x1C + i.1) = f.extractLsb' (8 * i.1) 8) ∧
      storeRead16 t.store (h + 8) = (r.processed + 1) % 65536 ∧ storeRead16 t.store (h + 10) = k % 65536) ∧
    (t.rtu = s.rtu ∧ t.xpe = s.xpe ∧ t.tly = s.tly ∧ t.tke = s.tke ∧ t.pnc = s.pnc ∧ t.runState = s.runState ∧ t.control = s.control) ∧
    (¬ ends → t.csi = { s.csi with running := some { r with next := r.next + 1, processed := r.processed + 1, refused := k, waiting := none } }) ∧
    (∀ x, x ≠ o + 0x18 → x ≠ o + 0x19 → (x < o + 0x1C ∨ o + 0x20 ≤ x) → (x < h + 8 ∨ h + 12 ≤ x) →
      (ends → x ≠ h ∧ ∀ i, r.next < i → i < r.slot.count → let w := r.slot.address + 32 * i
        x ≠ w + 0x18 ∧ x ≠ w + 0x19 ∧ (x < w + 0x1C ∨ w + 0x20 ≤ x)) →
      storeRead t.store x = storeRead s.store x) ∧
    (ends → t.csi = { s.csi with running := none, notice := s.csi.notice ||| 1 } ∧ storeRead t.store h = 4 ∧
      ∀ i, r.next < i → i < r.slot.count →
        storeRead t.store (r.slot.address + 32 * i + 0x18) = if r.stop = true then 0x20 else 0x21)

/-- TIME_SET, CUE_SET and CUE_CLEAR in a strip (R10, R12, R14, R15): the checked label becomes the jam request; the checked cue is written and ARMED with the order's requester; the named cue becomes EMPTY and keeps its fields.  A cue's disabled fields are stored unchecked.  A label, or an enabled field, out of
range is refused with REFUSED_ARG, and a skipped one with REFUSED_LABEL. -/
def Obligations.TimeAndCueOrders : Prop :=
  ∀ (s : State) (r : Running) (rec : OrderRecord) (q : Requester),
    (s.working 1 r rec q → (labelAt rec 4).wellFormed s.rtu.rate = true → (labelAt rec 4).skipped s.rtu.rate = false →
      exec .timeSet s = .next (examineHalting (finishOrder r .done 0 s.rtu.frame { s with rtu := { s.rtu with jam := some (labelAt rec 4) } }))) ∧
    (s.working 1 r rec q → (labelAt rec 4).wellFormed s.rtu.rate = true → (labelAt rec 4).skipped s.rtu.rate = true →
      exec .timeSet s = .next (examineHalting (finishOrder r .refusedLabel 0 s.rtu.frame s))) ∧
    (s.working 1 r rec q → (labelAt rec 4).wellFormed s.rtu.rate = false →
      exec .timeSet s = .next (examineHalting (finishOrder r .refusedArg 0 s.rtu.frame s))) ∧
    (s.working 2 r rec q → ∀ (n : Fin 16) (act : CueAction), ob rec 4 = n.1 → 1 ≤ ob rec 5 → ob rec 5 ≤ 15 →
      ((ob rec 6 = 0 ∧ act = .report) ∨ (ob rec 6 = 1 ∧ ∃ x : Fin 16, ob rec 7 = x.1 ∧ act = .fire x)) → ob rec 8 ≤ 1 →
      let inRange := (Nat.testBit (ob rec 5) 0 = true → ob rec 12 < 24) ∧ (Nat.testBit (ob rec 5) 1 = true → ob rec 13 < 60) ∧
        (Nat.testBit (ob rec 5) 2 = true → ob rec 14 < 60) ∧ (Nat.testBit (ob rec 5) 3 = true → ob rec 15 < s.rtu.rate.base)
      let cue : Cue := { label := labelAt rec 12, enables := BitVec.ofNat 4 (ob rec 5), action := act, repeats := if ob rec 8 = 0 then .once else .every, requester := q, state := .armed }
      (¬ inRange → exec .cueSet s = .next (examineHalting (finishOrder r .refusedArg 0 s.rtu.frame s))) ∧
      (inRange → (labelAt rec 12).skipped s.rtu.rate = false ∨ ob rec 5 ≠ 15 →
        exec .cueSet s = .next (examineHalting (finishOrder r .done 0 s.rtu.frame { s with rtu := { s.rtu with cues := upd s.rtu.cues n cue } }))) ∧
      (inRange → (labelAt rec 12).skipped s.rtu.rate = true → ob rec 5 = 15 →
        exec .cueSet s = .next (examineHalting (finishOrder r .refusedLabel 0 s.rtu.frame s)))) ∧
    (s.working 2 r rec q → (16 ≤ ob rec 4 ∨ ob rec 5 = 0 ∨ 2 ≤ ob rec 6 ∨ (ob rec 6 = 1 ∧ 16 ≤ ob rec 7) ∨ 2 ≤ ob rec 8) →
      exec .cueSet s = .next (examineHalting (finishOrder r .refusedArg 0 s.rtu.frame s))) ∧
    (s.working 3 r rec q → ∀ n : Fin 16, ob rec 4 = n.1 →
      exec .cueClear s = .next (examineHalting (finishOrder r .done 0 s.rtu.frame
        { s with rtu := { s.rtu with cues := upd s.rtu.cues n { s.rtu.cues[n] with state := .empty } } }))) ∧
    (s.working 3 r rec q → 16 ≤ ob rec 4 → exec .cueClear s = .next (examineHalting (finishOrder r .refusedArg 0 s.rtu.frame s)))

/-- DEST_SET, SALVO_SET and STEP_SET in a strip (R22, R23, R46, R50): the checked fields are written whole; a destination keeps its map entries, protect and flags, and the queued entries for the levels it loses leave the queue, each with a
TAKE_DONE report CANCELLED when its requester is an application, in the order of the take queue (the model's choice, log entry 41); an undefining SALVO_SET undefines its record.  Fields out of range are refused with REFUSED_ARG, and a list out of place with REFUSED_ADDRESS.  The fields of a
DEST_SET are the destination, a non-empty level mask, a kind, an optional re-entry source, which a REENTRY destination must have, and two optional GPIs; those of a STEP_SET its group, order and four sources.  That a level mask with a bit above V, A and B is out of range is the model's inference (log entry 20). -/
def Obligations.RouterConfigurationOrders : Prop :=
  ∀ (s : State) (r : Running) (rec : OrderRecord) (q : Requester),
    (s.working 4 r rec q → ∀ (d : Fin 64) (c : DestConfig), ob rec 4 = d.1 → ob rec 5 = c.present.toNat → c.present ≠ 0 →
      [DestKind.plain, .onair, .preview, .iso, .keyed, .reentry][ob rec 6]? = some c.kind → optionalByte (ob rec 7) c.reentry → optionalByte (ob rec 8) c.redGpi →
      optionalByte (ob rec 9) c.greenGpi → ¬ (c.kind = .reentry ∧ c.reentry = none) →
      ∃ t, exec .destSet s = .next (examineHalting (finishOrder r .done 0 s.rtu.frame t)) ∧
        let lost := fun x : Crosspoint => decide (x.dest = d) && ((s.dest d).present.getLsbD x.level.num && !c.present.getLsbD x.level.num)
        t.xpe = { s.xpe with
          dests := upd s.xpe.dests d { s.dest d with present := c.present, kind := c.kind, reentry := c.reentry, redGpi := c.redGpi, greenGpi := c.greenGpi }
          queue := (s.xpe.queue.map fun u => { u with entries := u.entries.filter fun x => !lost x }).filter fun u => !u.entries.isEmpty } ∧
        (let told := (s.xpe.queue.flatMap fun u => (u.entries.filter lost).map fun x => (u.requester.owner, x)).foldl (fun v e => match e.1 with
            | .panel _ => v
            | .app tag => report (.takeDone tag e.2.dest e.2.level .cancelled 0) s.rtu.frame s.rtu.label v) s;
          t.csi = told.csi ∧ t.store = told.store) ∧
        t.rtu = s.rtu ∧ t.tly = s.tly ∧ t.tke = s.tke ∧ t.pnc = s.pnc ∧ t.runState = s.runState) ∧
    (s.working 4 r rec q → (64 ≤ ob rec 4 ∨ ob rec 5 = 0 ∨ 8 ≤ ob rec 5 ∨ 6 ≤ ob rec 6 ∨ (128 ≤ ob rec 7 ∧ ob rec 7 ≠ 254) ∨ (16 ≤ ob rec 8 ∧ ob rec 8 ≠ 254) ∨
      (16 ≤ ob rec 9 ∧ ob rec 9 ≠ 254) ∨ (ob rec 6 = 5 ∧ ob rec 7 = 254)) →
      exec .destSet s = .next (examineHalting (finishOrder r .refusedArg 0 s.rtu.frame s))) ∧
    (s.working 5 r rec q → ∀ n : Fin 16, ob rec 4 = n.1 → ob rec 5 = 0 →
      exec .salvoSet s = .next (examineHalting (finishOrder r .done 0 s.rtu.frame { s with xpe := { s.xpe with salvos := upd s.xpe.salvos n none } }))) ∧
    (s.working 5 r rec q → ∀ (n : Fin 16) (a : AnchorCopy), ob rec 4 = n.1 → 1 ≤ ob rec 5 → ob rec 5 ≤ 48 → s.csi.copy = some a →
      let fits := ob32 rec 8 % 16 = 0 ∧ a.orders.base ≤ ob32 rec 8 ∧ ob32 rec 8 + 16 * ob rec 5 ≤ a.orders.base + a.orders.size
      (fits → exec .salvoSet s = .next (examineHalting (finishOrder r .done 0 s.rtu.frame { s with xpe :=
        { s.xpe with salvos := upd s.xpe.salvos n (some { address := ob32 rec 8, count := ob rec 5 }) } }))) ∧
      (¬ fits → exec .salvoSet s = .next (examineHalting (finishOrder r .refusedAddress 0 s.rtu.frame s)))) ∧
    (s.working 5 r rec q → (16 ≤ ob rec 4 ∨ 48 < ob rec 5) → exec .salvoSet s = .next (examineHalting (finishOrder r .refusedArg 0 s.rtu.frame s))) ∧
    (s.working 6 r rec q → ∀ (g : Fin 8) (x0 x1 x2 x3 : Source), ob rec 4 = g.1 → ob rec 5 ≤ 1 → sourceByte (ob rec 6) x0 →
      sourceByte (ob rec 7) x1 → sourceByte (ob rec 8) x2 → sourceByte (ob rec 9) x3 →
      let group : StepGroup := { sources := #v[x0, x1, x2, x3], order := if ob rec 5 = 0 then .linear else .interleaved }
      exec .stepSet s = .next (examineHalting (finishOrder r .done 0 s.rtu.frame { s with xpe := { s.xpe with steps := upd s.xpe.steps g group } }))) ∧
    (s.working 6 r rec q → (8 ≤ ob rec 4 ∨ 2 ≤ ob rec 5 ∨ ∃ i, 6 ≤ i ∧ i ≤ 9 ∧ 128 ≤ ob rec i ∧ ob rec i ≠ 255) →
      exec .stepSet s = .next (examineHalting (finishOrder r .refusedArg 0 s.rtu.frame s)))

/-- TAKE in a strip (R38, R42).  Passing R38's checks, the unit of one entry per named level that the destination has joins the tail of the queue, after the entries it supersedes have left it, each with a TAKE_DONE report SUPERSEDED to an application; the outcome is QUEUED with the number of entries,
and its take notice breaks the VALID guards of PRESET panels on the destination (R44, R136).  A refused TAKE leaves every block as it was: a field out of range or no level left, REFUSED_ARG; a due form that is unlisted or whose label is malformed, REFUSED_ARG, whose label the rate skips,
REFUSED_LABEL, or whose frame is less than two frames, or by its label more than half a day, ahead, REFUSED_LATE (R39, R40); a protect against the requester, REFUSED_PROTECTED; a queue that would hold more than 64 entries, REFUSED_FULL.  That the entries of the unit, and so those
reports, come in the order of the levels V, A, B is the model's choice (log entry 41); that a mask with a bit above those three is out of range is its inference (log entry 20). -/
def Obligations.TakeIsDecided : Prop :=
  ∀ (s : State) (r : Running) (rec : OrderRecord) (q : Requester), s.working 7 r rec q →
    let refusedWith := fun c : Code => exec .take s = .next (examineHalting (finishOrder r c 0 s.rtu.frame s))
    ((64 ≤ ob rec 4 ∨ ob rec 5 = 0 ∨ 8 ≤ ob rec 5 ∨ (128 ≤ ob rec 6 ∧ ob rec 6 ≠ 255)) → refusedWith .refusedArg) ∧
    ∀ (d : Fin 64) (m : LevelMask) (x : Source), ob rec 4 = d.1 → m ≠ 0 → ob rec 5 = m.toNat → sourceByte (ob rec 6) x →
      (m &&& (s.dest d).present = 0 → refusedWith .refusedArg) ∧
      (m &&& (s.dest d).present ≠ 0 →
        (∀ c, s.dueRefused rec c → refusedWith c) ∧
        ∀ due, s.dueFixed rec due →
          let es := ([Level.v, .a, .b].filter fun l => m.getLsbD l.num && (s.dest d).present.getLsbD l.num).map fun l =>
            ({ dest := d, level := l, source := x } : Crosspoint)
          let u : TakeUnit := { due := due, requester := q, cause := .take, salvo := none, entries := es }
          (¬ s.lets d q → refusedWith .refusedProtected) ∧
          (s.lets d q → 64 < entriesIn (s.queueWith u) → refusedWith .refusedFull) ∧
          (s.lets d q → entriesIn (s.queueWith u) ≤ 64 →
            ∃ t, exec .take s = .next (examineHalting (finishOrder r .queued es.length s.rtu.frame t)) ∧
              t.xpe = { s.xpe with queue := s.queueWith u } ∧ t.csi = (s.tellSuperseded es).csi ∧ t.store = (s.tellSuperseded es).store ∧
              s.guardsAfter t q.owner (fun o => o = d) ∧ t.rtu = s.rtu ∧ t.tly = s.tly ∧ t.tke = s.tke ∧ t.runState = s.runState ∧ t.control = s.control))

/-- CANCEL in a strip (R45): a destination above 63 or an empty mask is refused with REFUSED_ARG; otherwise every queued entry for that destination at a level in the mask leaves the queue, whoever its requester was and whatever protects there are, each with a TAKE_DONE report
CANCELLED when its requester is an application; units left empty go; the armed set and the destinations are untouched; the order is DONE with the number of entries removed, 0..3.  That the reports come in the order of the take queue is the model's choice (log entry 41).  No entry
can exist for a level that the destination lacks. -/
def Obligations.CancelRemovesEntries : Prop :=
  ∀ (s : State) (r : Running) (rec : OrderRecord) (q : Requester), s.working 8 r rec q →
    ((64 ≤ ob rec 4 ∨ ob rec 5 = 0) → exec .cancel s = .next (examineHalting (finishOrder r .refusedArg 0 s.rtu.frame s))) ∧
    ∀ (d : Fin 64) (m : LevelMask), ob rec 4 = d.1 → m ≠ 0 → ob rec 5 = m.toNat →
      let hit := fun x : Crosspoint => decide (x.dest = d) && hasLevel m x.level
      let out := s.xpe.queue.flatMap fun u => (u.entries.filter hit).map fun x => (u.requester.owner, x)
      let queue := (s.xpe.queue.map fun u => { u with entries := u.entries.filter fun x => !hit x }).filter fun u => !u.entries.isEmpty
      exec .cancel s = .next (examineHalting (finishOrder r .done out.length s.rtu.frame (out.foldl (fun u e =>
        match e.1 with
        | .panel _ => u
        | .app tag => report (.takeDone tag e.2.dest e.2.level .cancelled 0) s.rtu.frame s.rtu.label u) { s with xpe := { s.xpe with queue := queue } }))) ∧
      (s.queueSound → out.length ≤ 3 ∧ ∀ e ∈ out, hasLevel (s.dest d).present e.2.level = true)

/-- PROTECT in a strip, by R28's table: absent, the owner's, or beaten, the protect becomes the requester's at the requester's level, with a PROTECT report; else REFUSED_PROTECTED and unchanged.  RELEASE (R29): no protect, DONE and unchanged; the owner or one
who beats it removes it, with a PROTECT report; else REFUSED_NOT_OWNER and unchanged.  A destination above 63 is refused with REFUSED_ARG.  The same decisions hold for
a panel's PROTECT key, whose refusal flashes the key, and neither touches the take queue or the armed set. -/
def Obligations.ProtectAndRelease : Prop :=
  ∀ (s : State) (r : Running) (rec : OrderRecord) (q : Requester),
    (64 ≤ ob rec 4 → (s.working 9 r rec q → exec .protect s = .next (examineHalting (finishOrder r .refusedArg 0 s.rtu.frame s))) ∧
      (s.working 10 r rec q → exec .release s = .next (examineHalting (finishOrder r .refusedArg 0 s.rtu.frame s)))) ∧
    ∀ d : Fin 64, ob rec 4 = d.1 →
      let mayPass := (s.dest d).protect = none ∨ ∃ p, (s.dest d).protect = some p ∧ (p.owner = q.owner ∨ q.level < p.level)
      (s.working 9 r rec q → mayPass → exec .protect s = .next (examineHalting (finishOrder r .done 0 s.rtu.frame
        (report (.protect d ⟨q.level, q.owner⟩ .set) s.rtu.frame s.rtu.label
          (s.setDest d { s.dest d with protect := some ⟨q.level, q.owner⟩ }))))) ∧
      (s.working 9 r rec q → ¬ mayPass → exec .protect s = .next (examineHalting (finishOrder r .refusedProtected 0 s.rtu.frame s))) ∧
      (s.working 10 r rec q → (s.dest d).protect = none → exec .release s = .next (examineHalting (finishOrder r .done 0 s.rtu.frame s))) ∧
      (s.working 10 r rec q → ∀ p, (s.dest d).protect = some p → p.owner = q.owner ∨ q.level < p.level →
        exec .release s = .next (examineHalting (finishOrder r .done 0 s.rtu.frame
          (report (.protect d p .cleared) s.rtu.frame s.rtu.label (s.setDest d { s.dest d with protect := none }))))) ∧
      (s.working 10 r rec q → ¬ mayPass → exec .release s = .next (examineHalting (finishOrder r .refusedNotOwner 0 s.rtu.frame s))) ∧
      ((requestProtect d q s).1.xpe.queue = s.xpe.queue ∧ (requestProtect d q s).1.xpe.armed = s.xpe.armed ∧
        (requestRelease d q s).1.xpe.queue = s.xpe.queue ∧ (requestRelease d q s).1.xpe.armed = s.xpe.armed) ∧
      (mayPass → requestProtect d q s = (report (.protect d ⟨q.level, q.owner⟩ .set) s.rtu.frame s.rtu.label
        (s.setDest d { s.dest d with protect := some ⟨q.level, q.owner⟩ }), .done)) ∧
      (¬ mayPass → requestProtect d q s = (s, .refusedProtected) ∧ requestRelease d q s = (s, .refusedNotOwner)) ∧
      ((s.dest d).protect = none → requestRelease d q s = (s, .done)) ∧
      (∀ p, (s.dest d).protect = some p → p.owner = q.owner ∨ q.level < p.level → requestRelease d q s =
        (report (.protect d p .cleared) s.rtu.frame s.rtu.label (s.setDest d { s.dest d with protect := none }), .done)) ∧
      ∀ (p : Fin 24) (k : Fin 48) (m : LevelMask), (s.panel p).selection.dest = some (d, m) → q = { owner := .panel p, level := (s.panel p).level } →
        let x := if ((s.dest d).protect.map fun y => y.owner) = some (.panel p) then requestRelease d q s else requestProtect d q s
        protectPress p k s = if x.2 = .done then x.1 else refuseKey p k x.2 x.1

/-- SALVO_FIRE in a strip (R47): a number out of range or a due form that fails is refused; else, with the reader idle, a record that is undefined or whose list lies outside the order window is refused at once with REFUSED_SALVO (the model's reading, log entry 18), and any other
begins its read while the order waits; behind a read in progress the request waits.  SALVO_READ_DONE then decides the list for whoever asked: refused whole with REFUSED_SALVO when it is no salvo, REFUSED_PROTECTED under a protect, or REFUSED_FULL when the queue would hold more
than 64 entries; else one unit that carries the salvo number is queued (R47, R48), with a TAKE_DONE report SUPERSEDED for each entry of an application that it replaces and with the take notices (R44, R136).  The outcome, QUEUED or the refusal, goes into the order's outcome word, with the number of entries, or into
the cue's CUE report, which stands after the SUPERSEDED reports (the model's choice, log entry 41); at a panel's SALVO key a refusal starts a flash and makes a KEY report with its code, stamped with the frame of the outcome (log entry 48), also where the panel is no longer ONLINE
(log entry 30); a request that an interface restart left goes to nobody (log entry 19).  Then the read for the request that waits behind begins, or it is refused with REFUSED_SALVO at once and the next one is begun (log entry 18).  The list is what the store holds; where a byte
was written while the read was in progress, it is the byte before or after a write, and which is left free (log entry 17).  The order of the unit's entries is the model's choice (log entry 41); that a list entry's mask with a bit above V, A and B is refused is its inference (log entry 20). -/
def Obligations.SalvoFireAndRead : Prop :=
  let refusedTo := fun (y : FireRequest) (code : Code) (byte : Byte) (u w : State) => w.xpe = u.xpe ∧
    (∀ r f, y.origin = .order → u.csi.running = some r → r.waiting = some f → w = finishOrder r code 0 f u) ∧
    (∀ n f l, y.origin = .cue n f l → w = report (.cue n byte) f l u) ∧
    (∀ p k, y.origin = .key p k → (w.panel p).timers[k] = 16 ∧ (w.panel p).image[k] = .flash ∧
      w.csi = (report (.key p k byte) u.rtu.frame u.rtu.label u).csi ∧ w.store = (report (.key p k byte) u.rtu.frame u.rtu.label u).store ∧
      w.tke = u.tke ∧ w.tly = u.tly ∧ w.rtu = u.rtu) ∧
    (y.origin = .orphan → w = u)
  (∀ (s : State) (r : Running) (rec : OrderRecord) (q : Requester), s.working 11 r rec q →
    (16 ≤ ob rec 4 → exec .salvoFire s = .next (examineHalting (finishOrder r .refusedArg 0 s.rtu.frame s))) ∧
    ∀ n : Fin 16, ob rec 4 = n.1 →
      (∀ e, s.dueRefused rec e → exec .salvoFire s = .next (examineHalting (finishOrder r e 0 s.rtu.frame s))) ∧
      ∀ due, s.dueFixed rec due →
        let request : FireRequest := { salvo := n, due := due, requester := q, cause := .salvo, origin := .order }
        let waits := { s.csi with running := some { r with waiting := some s.rtu.frame } }
        (s.xpe.reading ≠ none → exec .salvoFire s = .next { s with csi := waits, xpe := { s.xpe with fires := s.xpe.fires ++ [request] } }) ∧
        (s.xpe.reading = none → s.xpe.fires = [] →
          (s.xpe.salvos[n] = none → exec .salvoFire s = .next (examineHalting (finishOrder r .refusedSalvo 0 s.rtu.frame s))) ∧
          ∀ x c, s.xpe.salvos[n] = some x → s.csi.copy = some c →
            let inside := c.orders.base ≤ x.address ∧ x.address + 16 * x.count ≤ c.orders.base + c.orders.size
            (¬ inside → exec .salvoFire s = .next (examineHalting (finishOrder r .refusedSalvo 0 s.rtu.frame s))) ∧
            (inside → exec .salvoFire s = .next { s with
              csi := waits
              xpe := { s.xpe with reading := some { request := request, address := x.address, count := x.count, mark := s.replaced.length } } }))) ∧
  (∀ (s : State) (x : SalvoRead), s.xpe.reading = some x →
    let idle := { s with xpe := { s.xpe with reading := none } }.readOver
    let list := s.salvoList x
    let es := s.salvoTakes list
    let passes := ∀ y ∈ es, s.lets y.dest x.request.requester
    let unit : TakeUnit := { due := x.request.due, requester := x.request.requester, cause := x.request.cause, salvo := some x.request.salvo, entries := es }
    let ends := fun w : State => exec .salvoReadDone s = .next (examineHalting (beginReads s.xpe.fires w))
    let refused := fun (code : Code) (byte : Byte) => ∃ w, ends w ∧ refusedTo x.request code byte idle w
    (¬ s.isSalvo list → refused .refusedSalvo 0x18) ∧
    (s.isSalvo list → ¬ passes → refused .refusedProtected 0x13) ∧
    (s.isSalvo list → passes → 64 < entriesIn (s.queueWith unit) → refused .refusedFull 0x15) ∧
    (s.isSalvo list → passes → entriesIn (s.queueWith unit) ≤ 64 →
      let made := s.tellSuperseded es
      ∃ t v, ends t ∧
        t.xpe = { s.xpe with reading := none, queue := s.queueWith unit } ∧ t.tke = s.tke ∧ t.tly = s.tly ∧ t.rtu = s.rtu ∧
        s.guardsAfter t x.request.requester.owner (fun d => ∃ y ∈ es, y.dest = d) ∧
        v.csi = made.csi ∧ v.store = made.store ∧
        (∀ r f, x.request.origin = .order → s.csi.running = some r → r.waiting = some f → t = finishOrder r .queued es.length f v) ∧
        (∀ n f l, x.request.origin = .cue n f l → t = report (.cue n 0x03) f l v) ∧
        ((∃ p k, x.request.origin = .key p k) ∨ x.request.origin = .orphan → t = v)) ∧
    list.length = x.count ∧
    ∀ (i : Nat) (y : RawTake), list[i]? = some y → let a := x.address + 16 * i
      let found := fun (n v : Nat) => v = (storeRead s.store (a + n)).toNat ∨ ∃ b ∈ s.lostSince x.mark (a + n), v = b.toNat
      found 0 y.dest ∧ found 1 y.mask ∧ found 2 y.source ∧
      ((∀ n, n < 3 → s.lostSince x.mark (a + n) = []) → y.dest = (storeRead s.store a).toNat ∧ y.mask = (storeRead s.store (a + 1)).toNat ∧
        y.source = (storeRead s.store (a + 2)).toNat)) ∧
  (∀ s : State, beginReads [] s = { s with xpe := { s.xpe with fires := [] } }) ∧
  (∀ (s : State) (y : FireRequest) (rest : List FireRequest),
    let inside := fun v : SalvoRecord => ∃ c, s.csi.copy = some c ∧ c.orders.base ≤ v.address ∧ v.address + 16 * v.count ≤ c.orders.base + c.orders.size
    (∀ v, s.xpe.salvos[y.salvo] = some v → inside v → beginReads (y :: rest) s = { s with xpe := { s.xpe with
      reading := some { request := y, address := v.address, count := v.count, mark := s.replaced.length }, fires := rest } }) ∧
    ((∀ v, s.xpe.salvos[y.salvo] = some v → ¬ inside v) → ∃ w, beginReads (y :: rest) s = beginReads rest w ∧ refusedTo y .refusedSalvo 0x18 s w)) ∧
  ∀ s : State, s.xpe.reading = none → exec .salvoReadDone s = .next s

/-- PANEL_SET, LAMP_SET and KEYMAP_LOAD in a strip (R31, R123, R133, R143).  PANEL_SET writes the six fields, the threshold clamped; a privilege level that rises numerically drops the protects the panel holds below it; a changed station port makes its keys IDLE; a changed router
mode drops its preset; disabling makes it ABSENT, and a changed model code of a JOINING or ONLINE panel makes it JOINING with no reply missed and a sequence bit of 0 (that one JOINING already enters it again is the model's choice, log entry 58); leaving ONLINE clears its keys, timers, preset and walk.  Each protect so dropped makes a PROTECT report "demoted", by rising destination number, and then a change of the panel's state a PANEL report (both orders
are the model's choice, log entry 41), and nothing else a report.  LAMP_SET writes a REPORT key's host lamp value and shows it on an ONLINE panel.  KEYMAP_LOAD begins a read while the order waits; the mark of the read is the model's own (log entry 17). -/
def Obligations.PanelOrders : Prop :=
  ∀ (s : State) (r : Running) (rec : OrderRecord) (q : Requester),
    (s.working 12 r rec q → (24 ≤ ob rec 4 ∨ 2 ≤ ob rec 5 ∨ ob rec 6 = 0 ∨ 4 ≤ ob rec 6 ∨ (32 ≤ ob rec 7 ∧ ob rec 7 ≠ 254) ∨ 2 ≤ ob rec 8) →
      exec .panelSet s = .next (examineHalting (finishOrder r .refusedArg 0 s.rtu.frame s))) ∧
    (s.working 12 r rec q → ∀ (p : Fin 24) (c : PanelConfig), ob rec 4 = p.1 → ob rec 5 = bit c.enabled → 1 ≤ ob rec 6 → ob rec 6 = c.level.1 →
      optionalByte (ob rec 7) c.station → ob rec 8 ≤ 1 → c.mode = (if ob rec 8 = 0 then .direct else .preset) → c.threshold = ob rec 9 →
      c.model.toNat = ob rec 10 + 256 * ob rec 11 →
      ∃ t, exec .panelSet s = .next (examineHalting (if 4 ≤ c.threshold ∧ c.threshold ≤ 50 then finishOrder r .done 0 s.rtu.frame t else finishOrder r .doneClamped 1 s.rtu.frame t)) ∧
        ((t.panel p).enabled = c.enabled ∧ (t.panel p).model = c.model ∧ (t.panel p).level = c.level ∧ (t.panel p).station = c.station ∧
          (t.panel p).mode = c.mode ∧ (t.panel p).threshold = max 4 (min 50 c.threshold) ∧ (t.panel p).map = (s.panel p).map) ∧
        (t.panel p).state = (if (s.panel p).enabled = true ∧ c.enabled = false then .absent
          else if (s.panel p).enabled = true ∧ (s.panel p).model ≠ c.model ∧ ((s.panel p).state = .joining ∨ (s.panel p).state = .online)
          then .joining else (s.panel p).state) ∧
        (c.enabled = true → (s.panel p).enabled = true → (s.panel p).model ≠ c.model → (s.panel p).state = .joining ∨ (s.panel p).state = .online →
          (t.panel p).missed = 0 ∧ (t.panel p).bit = false) ∧
        ((s.panel p).state = .online → (t.panel p).state ≠ .online → (∀ k : Fin 48, t.keyState p k = .idle ∧ (t.panel p).timers[k] = 0) ∧
          (t.panel p).selection = { (s.panel p).selection with preset := none, guard := false, walk := none }) ∧
        (let demoted := (List.finRange 64).foldl (fun v d => match (s.dest d).protect with
            | none => v
            | some x => if x.owner = .panel p ∧ (s.panel p).level < c.level ∧ x.level < c.level
                then report (.protect d x .demoted) s.rtu.frame s.rtu.label v else v) s
          let told := if (t.panel p).state = (s.panel p).state then demoted else report (.panel p (t.panel p).state) s.rtu.frame s.rtu.label demoted;
          t.csi = told.csi ∧ t.store = told.store) ∧
        ((s.panel p).station ≠ c.station → t.talkDerived ∧ ∀ k : Fin 48, t.keyState p k = .idle) ∧
        ((s.panel p).mode ≠ c.mode → (t.panel p).selection.preset = none ∧ (t.panel p).selection.guard = false) ∧
        (∀ d : Fin 64, (t.dest d).protect = match (s.dest d).protect with
          | none => none
          | some x => if x.owner = .panel p ∧ (s.panel p).level < c.level ∧ x.level < c.level then none else some x) ∧
        (∀ o : Fin 24, o ≠ p → (t.panel o).state = (s.panel o).state ∧ (t.panel o).selection = (s.panel o).selection ∧
          ∀ k : Fin 48, t.keyState o k = s.keyState o k) ∧
        t.rtu = s.rtu ∧ t.tly = s.tly ∧ t.runState = s.runState ∧ t.xpe.queue = s.xpe.queue ∧ t.xpe.armed = s.xpe.armed) ∧
    (s.working 14 r rec q → ∀ (p : Fin 24) (k : Fin 48) (l : Lamp), ob rec 4 = p.1 → ob rec 5 = k.1 → [Lamp.off, .on, .flash, .alt][ob rec 6]? = some l →
      ((s.panel p).map[k].fn ≠ .report → exec .lampSet s = .next (examineHalting (finishOrder r .refusedArg 0 s.rtu.frame s))) ∧
      ((s.panel p).map[k].fn = .report → ∃ t, exec .lampSet s = .next (examineHalting (finishOrder r .done 0 s.rtu.frame t)) ∧
        (t.panel p).map = upd (s.panel p).map k { (s.panel p).map[k] with lamp := rec.getD 6 0 } ∧
        ((s.panel p).state = .online → (s.panel p).timers[k] = 0 → (t.panel p).image[k] = l) ∧
        ((s.panel p).state ≠ .online → (t.panel p).image = (s.panel p).image) ∧
        (∀ o : Fin 24, o ≠ p → t.panel o = s.panel o) ∧ t.rtu = s.rtu ∧ t.xpe = s.xpe ∧ t.tly = s.tly ∧ t.tke = s.tke ∧ t.csi = s.csi)) ∧
    (s.working 14 r rec q → (24 ≤ ob rec 4 ∨ 48 ≤ ob rec 5 ∨ 4 ≤ ob rec 6) → exec .lampSet s = .next (examineHalting (finishOrder r .refusedArg 0 s.rtu.frame s))) ∧
    (s.working 13 r rec q → 24 ≤ ob rec 4 → exec .keymapLoad s = .next (examineHalting (finishOrder r .refusedArg 0 s.rtu.frame s))) ∧
    (s.working 13 r rec q → ∀ (p : Fin 24) (c : AnchorCopy), ob rec 4 = p.1 → s.csi.copy = some c →
      let fits := ob32 rec 8 % 16 = 0 ∧ c.orders.base ≤ ob32 rec 8 ∧ ob32 rec 8 + 768 ≤ c.orders.base + c.orders.size
      (¬ fits → exec .keymapLoad s = .next (examineHalting (finishOrder r .refusedAddress 0 s.rtu.frame s))) ∧
      (fits → exec .keymapLoad s = .next { s with
        csi := { s.csi with running := some { r with waiting := some s.rtu.frame } }
        pnc := { s.pnc with mapReads := s.pnc.mapReads ++ [{ panel := p, address := ob32 rec 8, forOrder := true, mark := s.replaced.length }] } }))

/-- KEYMAP_READ_DONE (R133): a map with an entry that R133 refuses (an unlisted function, a used field out of range, a TALK entry of a panel whose station port is an IFB port) is refused whole with REFUSED_ARG and changes nothing of the panel; any other replaces the map, with every key of the panel IDLE, its selection record cleared, its timers 0 and the full-image flag set (its lamps
held back where it is not ONLINE, log entry 45), and the order is DONE, or DONE_CLAMPED with the number of clamped gains.  The map is what the store holds; where a byte was written while the read was in progress, it is the byte before or after a write, and which is left free (log
entry 17).  With no map read in progress nothing happens (log entry 5).  That a SELECT entry's mask with a bit above V, A and B is out of range is the model's inference (log entry 20). -/
def Obligations.KeymapReadLoadsWhole : Prop :=
  (∀ s : State, s.pnc.mapReads = [] → exec .keymapReadDone s = .next s) ∧
  ∀ (s : State) (x : MapRead) (rest : List MapRead) (r : Running) (f : FrameIndex), s.pnc.mapReads = x :: rest → x.forOrder = true →
    s.csi.running = some r → r.waiting = some f →
    let bytes := s.mapBytes x
    let onIfb := ∃ a, (s.panel x.panel).station = some a ∧ s.tke.ports[a].kind = .ifb
    let idle := { s with pnc := { s.pnc with mapReads := rest } }.readOver
    ((∀ i, i < 768 → s.lostSince x.mark (x.address + i) = []) → bytes = (List.range 48).map fun k => storeReads s.store (x.address + 16 * k) 16) ∧
    (∀ k i : Nat, k < 48 → i < 16 → let b := (bytes.getD k []).getD i 0
      b = storeRead s.store (x.address + 16 * k + i) ∨ b ∈ s.lostSince x.mark (x.address + 16 * k + i)) ∧
    (bytes.length = 48 ∧ ∀ b ∈ bytes, b.length = 16) ∧
    ((∃ k, k < 48 ∧ keyEntryBad onIfb (bytes.getD k [])) →
      exec .keymapReadDone s = .next (examineHalting (finishOrder r .refusedArg 0 f idle))) ∧
    ((∀ k, k < 48 → ¬ keyEntryBad onIfb (bytes.getD k [])) →
      let n := (bytes.filter fun b => decide (ob b 0 = 8 ∧ ((b.getD 5 0).toInt < -40 ∨ 0 < (b.getD 5 0).toInt))).length
      ∃ t, exec .keymapReadDone s = .next (examineHalting (finishOrder r (if n = 0 then .done else .doneClamped) n f t)) ∧
        t.pnc.mapReads = rest ∧
        (∀ k : Fin 48, keyEntryFrom (bytes.getD k.1 []) (t.panel x.panel).map[k] ∧ t.keyState x.panel k = .idle ∧ (t.panel x.panel).timers[k] = 0) ∧
        (t.panel x.panel).selection = ⟨none, none, false, none⟩ ∧ (t.panel x.panel).full = true ∧
        (t.panel x.panel).held = ((s.panel x.panel).held || decide ((s.panel x.panel).state ≠ .online)) ∧
        (t.panel x.panel).state = (s.panel x.panel).state ∧
        (∀ o : Fin 24, o ≠ x.panel → (t.panel o).map = (s.panel o).map ∧ (t.panel o).selection = (s.panel o).selection ∧
          ∀ k : Fin 48, t.keyState o k = s.keyState o k) ∧
        t.rtu = s.rtu ∧ t.xpe = s.xpe ∧ t.tly = s.tly ∧ t.csi = s.csi)

/-- PORT_SET, GROUP_SET, IFB_SET and TALK_FORCE in a strip (R89 to R91, R98, R103).  A field out of its range, a port of a defining IFB_SET that is no IFB port or that another record names, and a force ON that is not allowed are refused with REFUSED_ARG.  Each record is written whole, its level fields clamped, and the paths, the talking and incoming-talk sets and the target table are then what the keys, the tables and the level law give; a port
that becomes an IFB port makes the keys of the panels stationed on it IDLE; a port that a defined IFB record names keeps its kind.  An accepted defining IFB_SET evaluates the record's selector
(R112): D2 just when d2 and the own source are present and d1's A entry gives the own source; an undefining one leaves it.  TALK_FORCE OFF makes the key IDLE; ON makes it LATCHED, on an ONLINE panel with a usable station port, outside HALTING.  That a
PORT_SET with a bit set in 09H that the table gives to no field (bits 2 to 7) is refused with REFUSED_ARG is the model's inference from the rule on unlisted codes in Common Store Formats (log entry 20). -/
def Obligations.TalkOrders : Prop :=
  ∀ (s : State) (r : Running) (rec : OrderRecord) (q : Requester),
    (s.working 15 r rec q → (32 ≤ ob rec 4 ∨ 4 ≤ ob rec 5 ∨ 4 ≤ ob rec 9) → exec .portSet s = .next (examineHalting (finishOrder r .refusedArg 0 s.rtu.frame s))) ∧
    (s.working 15 r rec q → ∀ (p : Fin 32) (x : Port), ob rec 4 = p.1 → [PortKind.station, .camera, .ifb, .line][ob rec 5]? = some x.kind → ob rec 9 < 4 →
      x.outTrim = max (-24) (min 24 (rec.getD 6 0).toInt) → x.inTrim = max (-60) (min 24 (rec.getD 7 0).toInt) →
      x.dim = max 0 (min 60 (rec.getD 8 0).toInt) → x.enable = (rec.getD 9 0).getLsbD 0 → x.isolate = (rec.getD 9 0).getLsbD 1 →
      let n := (if x.outTrim = (rec.getD 6 0).toInt then 0 else 1) + (if x.inTrim = (rec.getD 7 0).toInt then 0 else 1) +
        (if x.dim = (rec.getD 8 0).toInt then 0 else 1)
      (x.kind ≠ .ifb → (∃ i : Fin 8, s.tke.ifbs[i].port = some p) → exec .portSet s = .next (examineHalting (finishOrder r .refusedArg 0 s.rtu.frame s))) ∧
      ((x.kind = .ifb ∨ ∀ i : Fin 8, s.tke.ifbs[i].port ≠ some p) →
        ∃ t, exec .portSet s = .next (examineHalting (finishOrder r (if n = 0 then .done else .doneClamped) n s.rtu.frame t)) ∧
          t.tke.ports = upd s.tke.ports p x ∧ t.tke.groups = s.tke.groups ∧ t.tke.ifbs = s.tke.ifbs ∧ t.talkDerived ∧
          (∀ (o : Fin 24) (k : Fin 48), t.keyState o k =
            if x.kind = .ifb ∧ (s.panel o).station = some p then .idle else s.keyState o k) ∧
          t.rtu = s.rtu ∧ t.xpe = s.xpe ∧ t.tly = s.tly ∧ t.csi = s.csi)) ∧
    (s.working 16 r rec q → 8 ≤ ob rec 4 → exec .groupSet s = .next (examineHalting (finishOrder r .refusedArg 0 s.rtu.frame s))) ∧
    (s.working 16 r rec q → ∀ g : Fin 8, ob rec 4 = g.1 →
      ∃ t, exec .groupSet s = .next (examineHalting (finishOrder r .done 0 s.rtu.frame t)) ∧
        t.tke.groups = upd s.tke.groups g (BitVec.ofNat 32 (ob32 rec 8)) ∧ t.tke.ports = s.tke.ports ∧ t.tke.ifbs = s.tke.ifbs ∧
        t.tke.keys = s.tke.keys ∧ t.talkDerived ∧ t.rtu = s.rtu ∧ t.xpe = s.xpe ∧ t.tly = s.tly ∧ t.csi = s.csi) ∧
    (s.working 17 r rec q → (8 ≤ ob rec 4 ∨ (ob rec 5 ≠ 254 ∧ (32 ≤ ob rec 5 ∨ 64 ≤ ob rec 6 ∨ (64 ≤ ob rec 7 ∧ ob rec 7 ≠ 254) ∨ (128 ≤ ob rec 8 ∧ ob rec 8 ≠ 254)))) →
      exec .ifbSet s = .next (examineHalting (finishOrder r .refusedArg 0 s.rtu.frame s))) ∧
    (s.working 17 r rec q → ∀ i : Fin 8, ob rec 4 = i.1 →
      (ob rec 5 = 254 → ∃ t, exec .ifbSet s = .next (examineHalting (finishOrder r .done 0 s.rtu.frame t)) ∧
        t.tke.ifbs[i] = { s.tke.ifbs[i] with port := none, d1 := rec.getD 6 0, d2 := rec.getD 7 0, own := rec.getD 8 0, level := rec.getD 9 0, depth := rec.getD 10 0 } ∧
        (∀ j : Fin 8, j ≠ i → t.tke.ifbs[j] = s.tke.ifbs[j]) ∧ t.tke.feeds[i] = ⟨none, 0, .d1⟩ ∧ t.talkDerived ∧ t.tke.keys = s.tke.keys ∧
        t.tke.ports = s.tke.ports ∧ t.rtu = s.rtu ∧ t.xpe = s.xpe ∧ t.tly = s.tly ∧ t.csi = s.csi) ∧
      (∀ p : Fin 32, ob rec 5 = p.1 → ob rec 6 < 64 → (ob rec 7 = 254 ∨ ob rec 7 < 64) → (ob rec 8 = 254 ∨ ob rec 8 < 128) →
        (s.tke.ports[p].kind ≠ .ifb ∨ (∃ j : Fin 8, j ≠ i ∧ s.tke.ifbs[j].port = some p) →
          exec .ifbSet s = .next (examineHalting (finishOrder r .refusedArg 0 s.rtu.frame s))) ∧
        (s.tke.ports[p].kind = .ifb → (∀ j : Fin 8, j ≠ i → s.tke.ifbs[j].port ≠ some p) →
          let n := (if -60 ≤ (rec.getD 9 0).toInt ∧ (rec.getD 9 0).toInt ≤ 0 then 0 else 1) + (if ob rec 10 ≤ 120 ∨ ob rec 10 = 255 then 0 else 1)
          ∃ t, exec .ifbSet s = .next (examineHalting (finishOrder r (if n = 0 then .done else .doneClamped) n s.rtu.frame t)) ∧
            t.tke.ifbs[i].port = some p ∧ t.tke.ifbs[i].d1.toNat = ob rec 6 ∧ t.tke.ifbs[i].d2.toNat = ob rec 7 ∧
            t.tke.ifbs[i].own.toNat = ob rec 8 ∧ t.tke.ifbs[i].level.toInt = max (-60) (min 0 (rec.getD 9 0).toInt) ∧
            t.tke.ifbs[i].depth.toNat = (if ob rec 10 = 255 then 255 else min 120 (ob rec 10)) ∧
            (s.selectsD2 t.tke.ifbs[i] → t.tke.ifbs[i].selector = .d2) ∧ (¬ s.selectsD2 t.tke.ifbs[i] → t.tke.ifbs[i].selector = .d1) ∧
            (∀ j : Fin 8, j ≠ i → t.tke.ifbs[j] = s.tke.ifbs[j]) ∧ t.talkDerived ∧ t.tke.keys = s.tke.keys ∧
            t.tke.ports = s.tke.ports ∧ t.rtu = s.rtu ∧ t.xpe = s.xpe ∧ t.tly = s.tly ∧ t.csi = s.csi))) ∧
    (s.working 18 r rec q → (24 ≤ ob rec 4 ∨ 48 ≤ ob rec 5 ∨ 2 ≤ ob rec 6) → exec .talkForce s = .next (examineHalting (finishOrder r .refusedArg 0 s.rtu.frame s))) ∧
    (s.working 18 r rec q → ∀ (p : Fin 24) (k : Fin 48), ob rec 4 = p.1 → ob rec 5 = k.1 →
      let allowed := (s.panel p).state = .online ∧ (∃ a, (s.panel p).station = some a ∧ s.tke.ports[a].kind ≠ .ifb) ∧ s.runState ≠ .halting
      ((s.panel p).map[k].fn ≠ .talk ∨ (ob rec 6 = 1 ∧ ¬ allowed) → ob rec 6 ≤ 1 →
        exec .talkForce s = .next (examineHalting (finishOrder r .refusedArg 0 s.rtu.frame s))) ∧
      ((s.panel p).map[k].fn = .talk → (ob rec 6 = 0 ∨ (ob rec 6 = 1 ∧ allowed)) →
        ∃ t, exec .talkForce s = .next (examineHalting (finishOrder r .done 0 s.rtu.frame t)) ∧
          t.keyState p k = (if ob rec 6 = 0 then .idle else .latched) ∧
          (∀ (o : Fin 24) (j : Fin 48), (o, j) ≠ (p, k) → t.keyState o j = s.keyState o j) ∧
          (t.keyState p k ≠ s.keyState p k → t.talkDerived) ∧ (t.keyState p k = s.keyState p k → t = s) ∧
          t.rtu = s.rtu ∧ t.xpe = s.xpe ∧ t.tly = s.tly ∧ t.csi = s.csi))

/-- TALLY_SET, TALLY_FORCE and GPI_SET in a strip (R65, R77, R78): the six fields of a channel are written, or REFUSED_ARG where the master is the channel itself, a follower, or the channel is some channel's master; the force value is written; the report flag is
written, and when it is set the input's current level is reported.  That TALLY_FORCE NONE is DONE whatever stands in the byte of the colours, which is then not read, and that a colour byte with a bit above the three is out of range, are the model's inferences (log entry 20). -/
def Obligations.TallyOrders : Prop :=
  ∀ (s : State) (r : Running) (rec : OrderRecord) (q : Requester),
    (s.working 19 r rec q → (64 ≤ ob rec 4 ∨ (128 ≤ ob rec 5 ∧ ob rec 5 ≠ 254) ∨ 8 ≤ ob rec 6 ∨ 2 ≤ ob rec 7 ∨ (32 ≤ ob rec 8 ∧ ob rec 8 ≠ 254) ∨ 2 ≤ ob rec 9 ∨
      (64 ≤ ob rec 10 ∧ ob rec 10 ≠ 254)) → exec .tallySet s = .next (examineHalting (finishOrder r .refusedArg 0 s.rtu.frame s))) ∧
    (s.working 19 r rec q → ∀ (c : Fin 64) (x : ChannelConfig), ob rec 4 = c.1 → optionalByte (ob rec 5) x.source → ob rec 6 = x.mask.toNat → ob rec 7 ≤ 1 →
      x.mode = (if ob rec 7 = 0 then .single else .triple) → optionalByte (ob rec 8) x.call → ob rec 9 ≤ 1 →
      x.polarity = (if ob rec 9 = 0 then .upright else .inverted) → optionalByte (ob rec 10) x.master →
      let sound := ∀ m, x.master = some m → m ≠ c ∧ s.tly.channels[m].master = none ∧ ∀ j : Fin 64, j ≠ c → s.tly.channels[j].master ≠ some c
      let channel : Channel := { source := x.source, mask := x.mask, mode := x.mode, call := x.call, polarity := x.polarity, master := x.master, force := s.tly.channels[c].force }
      (sound → exec .tallySet s = .next (examineHalting (finishOrder r .done 0 s.rtu.frame { s with tly := { s.tly with channels := upd s.tly.channels c channel } }))) ∧
      (¬ sound → exec .tallySet s = .next (examineHalting (finishOrder r .refusedArg 0 s.rtu.frame s)))) ∧
    (s.working 20 r rec q → ∀ c : Fin 64, ob rec 4 = c.1 →
      (∀ f : Option ColourSet, (ob rec 5 = 0 ∧ f = none) ∨ (ob rec 5 = 1 ∧ ob rec 6 < 8 ∧ f = some (BitVec.ofNat 3 (ob rec 6))) →
        exec .tallyForce s = .next (examineHalting (finishOrder r .done 0 s.rtu.frame
          { s with tly := { s.tly with channels := upd s.tly.channels c { s.tly.channels[c] with force := f } } })))) ∧
    (s.working 20 r rec q → (64 ≤ ob rec 4 ∨ 2 ≤ ob rec 5 ∨ (ob rec 5 = 1 ∧ 8 ≤ ob rec 6)) → exec .tallyForce s = .next (examineHalting (finishOrder r .refusedArg 0 s.rtu.frame s))) ∧
    (s.working 21 r rec q → (16 ≤ ob rec 4 ∨ 2 ≤ ob rec 5) → exec .gpiSet s = .next (examineHalting (finishOrder r .refusedArg 0 s.rtu.frame s))) ∧
    (s.working 21 r rec q → ∀ i : Fin 16, ob rec 4 = i.1 →
      (ob rec 5 = 0 → exec .gpiSet s = .next (examineHalting (finishOrder r .done 0 s.rtu.frame
        { s with tly := { s.tly with gpi := upd s.tly.gpi i { s.tly.gpi[i] with reports := false } } }))) ∧
      (ob rec 5 = 1 → exec .gpiSet s = .next (examineHalting (finishOrder r .done 0 s.rtu.frame (report (.gpi i s.tly.gpi[i].asserted) s.rtu.frame s.rtu.label
        { s with tly := { s.tly with gpi := upd s.tly.gpi i { s.tly.gpi[i] with reports := true } } })))))

/-! ### The fabric link -/

/-- SWITCH_REPORT awaited for frame `k` (R52 to R54, R56): each armed destination level is dealt with by the report's first line for it, every other map entry is as it was, the armed set empties and the wait ends; then, when RUNNING with no sweep, the load for the next boundary
walks the queue: a unit not due stays, a due one that protection stops leaves it, a due one that fits is armed whole in queue order with its late count, and the first due one that does not fit in 48 stops the load, itself and all behind it staying.  A report that is not awaited
changes nothing, nor does one of more than 48 lines (log entry 23).  In the order of the armed set (the model's choice, log entry 41, as is the order of one entry's reports) each entry makes an XPT report when its source changed (R26), a FABRIC report on a mismatch, and a
TAKE_DONE report for an application (R57); then the settled map is handed over, which evaluates the selectors (R112) and resolves the tallies; and the load, made after that and ahead of the mirror rewrite (the model's choice, log entry 27), reports a unit that protection stops, PROTECTED (R54).  The rewrite for the
frame then starts, or waits, with the loaded entries counted as armed (R55).  A load that arms
an entry sends the arm message, and its acknowledgement is awaited from then on; one that arms none awaits none anew (R55).  In HALTING the conditions of HALTED are then examined (R174). -/
def Obligations.SwitchReportSettlesTakes : Prop :=
  (∀ (lines : List ReportLine) (s : State), s.xpe.reportWait = none ∨ s.xpe.link = .down ∨ 48 < lines.length →
    exec (.switchReport lines) s = .next s) ∧
  ∀ (lines : List ReportLine) (s : State) (k : FrameIndex), s.xpe.reportWait = some k → s.xpe.link = .up → lines.length ≤ 48 → s.armedSound →
    ∃ t, exec (.switchReport lines) s = .next (examineHalting t) ∧ (s.runState ≠ .halting → examineHalting t = t) ∧ t.xpe.reportWait = none ∧ t.xpe.link = .up ∧ t.xpe.sweep = s.xpe.sweep ∧
      (let done := fun (o : Owner) (x : Crosspoint) (what : TakeOutcome) (late : Nat) (v : State) => match o with
          | .panel _ => v
          | .app tag => report (.takeDone tag x.dest x.level what late) s.rtu.frame s.rtu.label v
        let dealt := fun (v : State) (a : ArmedEntry) =>
          let old := ((s.dest a.xpt.dest).entry a.xpt.level).source
          let ends := fun (what : TakeOutcome) (v : State) => done a.requester.owner a.xpt what a.late v
          let switched := fun (x : Source) => if x = old then v else report (.xpt a.xpt.dest a.xpt.level old x a.cause) s.rtu.frame s.rtu.label v
          match lines.find? fun x => decide (x.dest.toNat = a.xpt.dest.1 ∧ x.level.toNat = a.xpt.level.num) with
          | none => ends .fabricFault v
          | some ln =>
            if ln.fault = true then ends .fabricFault v
            else if sourceOf ln.number.toNat = some a.xpt.source then ends .applied (switched a.xpt.source)
            else ends .mismatch (report (.mismatch a.xpt.dest a.xpt.level (some a.xpt.source) ln.number) s.rtu.frame s.rtu.label
              (switched ((sourceOf ln.number.toNat).getD old)))
        let made := s.xpe.armed.foldl dealt s
        ∃ u v, u.csi = made.csi ∧ u.store = made.store ∧ u.rtu = s.rtu ∧ u.tly = s.tly ∧ v = load (k + 1) (handOverMap k u) ∧ t = tellResolution k v ∧
          (s.runState ≠ .running ∨ s.xpe.sweep ≠ none → v = handOverMap k u) ∧
          (∀ i c, s.tly.inputs = some i → i.frame = k → s.csi.copy = some c → s.csi.mirror.freeze = .live →
            (∀ b, s.csi.mirror.writing = some b →
              t = { v with csi := { v.csi with mirror := { s.csi.mirror with waiting := some (s.rtu.frame, s.rtu.label) } } }) ∧
            (s.csi.mirror.writing = none → t = startRewrite c s.rtu.frame s.rtu.label v ∧
              (s.csi.mirror.complete = true → s.store.wf = true → c.mirror + 3008 ≤ 4194304 →
                t.mirrorsShowTallies t.store c.mirror ∧ t.mirrorsShowPanels t.store c.mirror))) ∧
          let stopped := s.xpe.queue.filter fun q => (match q.due with | none => true | some f => decide (0 ≤ (k + 1 - f).toInt)) &&
            !q.entries.all fun x => protectAllows (s.dest x.dest).protect q.requester.owner (s.levelNow q.requester)
          let passed := s.xpe.queue.filter fun q => (match q.due with | none => true | some f => decide (0 ≤ (k + 1 - f).toInt)) &&
            q.entries.all fun x => protectAllows (s.dest x.dest).protect q.requester.owner (s.levelNow q.requester)
          let told := (stopped.flatMap fun q => q.entries.map fun x => (q.requester.owner, x)).foldl (fun v e => done e.1 e.2 .protectFailed 0 v) (handOverMap k u)
          s.runState = .running → s.xpe.sweep = none → (passed.flatMap fun q => q.entries).length ≤ 48 → v.csi = told.csi ∧ v.store = told.store) ∧
      (∀ i : Fin 8, (s.tke.ifbs[i].port = none → t.tke.ifbs[i] = s.tke.ifbs[i]) ∧ (s.tke.ifbs[i].port ≠ none →
        (t.selectsD2 s.tke.ifbs[i] → t.tke.ifbs[i] = { s.tke.ifbs[i] with selector := .d2 }) ∧
        (¬ t.selectsD2 s.tke.ifbs[i] → t.tke.ifbs[i] = { s.tke.ifbs[i] with selector := .d1 }))) ∧
      (∀ a ∈ s.xpe.armed, (t.dest a.xpt.dest).entry a.xpt.level =
        match lines.find? fun x => decide (x.dest.toNat = a.xpt.dest.1 ∧ x.level.toNat = a.xpt.level.num) with
        | none => (s.dest a.xpt.dest).entry a.xpt.level
        | some ln =>
          if ln.fault = true then (s.dest a.xpt.dest).entry a.xpt.level
          else if sourceOf ln.number.toNat = some a.xpt.source then ⟨a.xpt.source, .known⟩
          else ⟨(sourceOf ln.number.toNat).getD ((s.dest a.xpt.dest).entry a.xpt.level).source, .mismatch⟩) ∧
      (∀ (d : Fin 64) (l : Level), (∀ a ∈ s.xpe.armed, a.xpt.dest ≠ d ∨ a.xpt.level ≠ l) → (t.dest d).entry l = (s.dest d).entry l) ∧
      (∀ d : Fin 64, (t.dest d).protect = (s.dest d).protect ∧ (t.dest d).present = (s.dest d).present) ∧
      (s.runState ≠ .running ∨ s.xpe.sweep ≠ none → t.xpe.armed = [] ∧ t.xpe.queue = s.xpe.queue) ∧
      (t.xpe.armed.length ≤ 48 ∧ ∀ a ∈ t.xpe.armed, ∃ u ∈ s.xpe.queue, a.xpt ∈ u.entries ∧
        (∀ f, u.due = some f → 0 ≤ (k + 1 - f).toInt ∧ a.late = (k + 1 - f).toInt) ∧ (u.due = none → a.late = 0) ∧
        protectAllows (s.dest a.xpt.dest).protect u.requester.owner (s.levelNow u.requester) = true) ∧
      (let due := fun u : TakeUnit => match u.due with
          | none => true
          | some f => decide (0 ≤ (k + 1 - f).toInt)
        let allowed := fun u : TakeUnit =>
          u.entries.all fun x => protectAllows (s.dest x.dest).protect u.requester.owner (s.levelNow u.requester)
        let arms := fun u : TakeUnit => u.entries.map fun x => ({ xpt := x, requester := u.requester, cause := u.cause, salvo := u.salvo, late := (match u.due with | none => 0 | some f => (k + 1 - f).toInt.toNat) } : ArmedEntry)
        let armed := fun us : List TakeUnit => (us.filter fun u => due u && allowed u).flatMap arms
        let stays := fun us : List TakeUnit => us.filter fun u => !due u
        s.runState = .running → s.xpe.sweep = none →
          ((armed s.xpe.queue).length ≤ 48 → t.xpe.armed = armed s.xpe.queue ∧ t.xpe.queue = stays s.xpe.queue) ∧
          (∀ before u after, s.xpe.queue = before ++ u :: after → due u = true → allowed u = true → (armed before).length + u.entries.length ≤ 48 →
            (∃ more, t.xpe.armed = armed before ++ arms u ++ more) ∧ ∃ rest, t.xpe.queue = stays before ++ rest ∧ rest.Sublist after) ∧
          (∀ before u after, s.xpe.queue = before ++ u :: after → due u = true → allowed u = true → (armed before).length ≤ 48 →
            48 < (armed before).length + u.entries.length → t.xpe.armed = armed before ∧ t.xpe.queue = stays before ++ u :: after)) ∧
      (t.xpe.armed ≠ [] → t.xpe.ackWait = true) ∧ (t.xpe.armed = [] → t.xpe.ackWait = s.xpe.ackWait) ∧
      t.rtu = s.rtu ∧ t.runState = s.runState ∧ t.control = s.control

/-- The waits of the fabric link (R55, R58 to R60).  ARM_ACK ends the wait for it.  A wait that runs out on an UP link (ARM_ACK_TIMEOUT, SWITCH_REPORT_TIMEOUT, READ_TIMEOUT) takes the link DOWN: nothing is armed, swept or awaited, every source and the take queue are kept,
and outside a sweep every KNOWN or MISMATCH entry is UNCERTAIN.  A loss makes a TAKE_DONE report FABRIC_TIMEOUT with its late count for each armed entry of an application, in the order of the armed set (the model's choice, log entry 41), then the FABRIC report that names the wait,
and an open frame is then declared settled.  PING_ANSWER to a ping on a DOWN link takes it UP, with a FABRIC report, and a sweep started in SWEEP or RUNNING; PING_TIMEOUT ends the wait alone.  In HALTING the conditions of HALTED are examined after a loss (R174).  Where what runs out or answers is not awaited, nothing
happens (log entry 5). -/
def Obligations.FabricWaits : Prop :=
  (∀ s : State, exec .armAck s = .next { s with xpe := { s.xpe with ackWait := false } }) ∧
  (∀ s : State, exec .pingTimeout s = .next { s with xpe := { s.xpe with pingWait := false } }) ∧
  (∀ (s : State) (c : Instr) (w : FabricWait), (c = .armAckTimeout ∧ w = .armAck ∧ s.xpe.ackWait = true) ∨
      (c = .switchReportTimeout ∧ w = .switchReport ∧ s.xpe.reportWait ≠ none) ∨ (c = .readTimeout ∧ w = .readAnswer ∧ s.xpe.sweep ≠ none) →
      s.xpe.link = .up → ∃ t, exec c s = .next (examineHalting t) ∧ (s.runState ≠ .halting → examineHalting t = t) ∧
    t.xpe.link = .down ∧ t.xpe.armed = [] ∧ t.xpe.sweep = none ∧ t.xpe.reportWait = none ∧ t.xpe.ackWait = false ∧
    t.xpe.queue = s.xpe.queue ∧ t.xpe.pingWait = s.xpe.pingWait ∧ t.xpe.salvos = s.xpe.salvos ∧ t.xpe.steps = s.xpe.steps ∧
    (∀ (d : Fin 64) (l : Level), (t.dest d).protect = (s.dest d).protect ∧ ((t.dest d).entry l).source = ((s.dest d).entry l).source ∧
      (s.xpe.sweep ≠ none → ((t.dest d).entry l).state = ((s.dest d).entry l).state) ∧
      (s.xpe.sweep = none → ((t.dest d).entry l).state = if ((s.dest d).entry l).state = .unknown then .unknown else .uncertain)) ∧
    (let made := report (.fabricDown w) s.rtu.frame s.rtu.label (s.xpe.armed.foldl (fun u a =>
        match a.requester.owner with
        | .panel _ => u
        | .app tag => report (.takeDone tag a.xpt.dest a.xpt.level .fabricTimeout a.late) s.rtu.frame s.rtu.label u) s)
      ∃ v, v.csi = made.csi ∧ v.store = made.store ∧ v.rtu = s.rtu ∧ v.tly = s.tly ∧ t = match s.xpe.reportWait with
        | none => v
        | some k => declareSettled k v) ∧
    t.rtu = s.rtu ∧ t.runState = s.runState ∧ t.control = s.control) ∧
  (∀ (s : State) (c : Instr), (c = .armAckTimeout ∧ s.xpe.ackWait = false) ∨ (c = .switchReportTimeout ∧ s.xpe.reportWait = none) ∨
    (c = .readTimeout ∧ s.xpe.sweep = none) → exec c s = .next s) ∧
  (∀ s : State, s.xpe.pingWait = true → s.xpe.link = .down → ∃ t, exec .pingAnswer s = .next t ∧
    t.xpe = { s.xpe with link := .up, pingWait := false, sweep := if s.runState = .sweep ∨ s.runState = .running then some (0, .v) else s.xpe.sweep } ∧
    t.csi = (report .fabricUp s.rtu.frame s.rtu.label s).csi ∧ t.store = (report .fabricUp s.rtu.frame s.rtu.label s).store ∧
    t.rtu = s.rtu ∧ t.tly = s.tly ∧ t.tke = s.tke ∧ t.pnc = s.pnc ∧ t.runState = s.runState ∧ t.control = s.control) ∧
  ∀ s : State, s.xpe.pingWait = false ∨ s.xpe.link = .up → exec .pingAnswer s = .next s

/-- READ_ANSWER to the READ outstanding (R25, R33, R34): the map entry takes the answered source and is KNOWN, or keeps its source and is MISMATCH for a number that is no source; a changed source makes an XPT report with the cause READBACK (R26), a mismatch a FABRIC report, and
nothing else a report; the sweep goes on to the next crosspoint in the fixed order, and the answer for destination 63 at level B ends it, which makes SWEEP RUNNING.  An answer to anything else changes nothing (R178).  That an answer of this row which names the crosspoint of the
READ outstanding is the answer to it is the model's choice (log entry 42). -/
def Obligations.SweepReadsInOrder : Prop :=
  ∀ (dest level number : Byte) (s : State),
    (∀ (d : Fin 64) (l : Level), s.xpe.sweep = some (d, l) → dest.toNat = d.1 → level.toNat = l.num →
      ∃ t, exec (.readAnswer dest level number) s = .next t ∧
        ((t.dest d).entry l = match sourceOf number.toNat with
          | some x => ⟨x, .known⟩
          | none => ⟨((s.dest d).entry l).source, .mismatch⟩) ∧
        (let old := ((s.dest d).entry l).source
          let made := match sourceOf number.toNat with
            | none => report (.mismatch d l none number) s.rtu.frame s.rtu.label s
            | some x => if x = old then s else report (.xpt d l old x .readback) s.rtu.frame s.rtu.label s
          t.csi = made.csi ∧ t.store = made.store) ∧
        (∀ (e : Fin 64) (m : Level), e ≠ d ∨ m ≠ l → (t.dest e).entry m = (s.dest e).entry m) ∧
        (l = .v → t.xpe.sweep = some (d, .a)) ∧ (l = .a → t.xpe.sweep = some (d, .b)) ∧
        (l = .b → ∀ e : Fin 64, e.1 = d.1 + 1 → t.xpe.sweep = some (e, .v)) ∧
        (l = .b → d = 63 → t.xpe.sweep = none ∧ t.runState = if s.runState = .sweep then .running else s.runState) ∧
        (l ≠ .b ∨ d ≠ 63 → t.runState = s.runState) ∧
        t.xpe.queue = s.xpe.queue ∧ t.xpe.armed = s.xpe.armed ∧ t.xpe.link = s.xpe.link ∧ t.xpe.reportWait = s.xpe.reportWait ∧
        t.rtu = s.rtu ∧ t.tly = s.tly ∧ t.tke = s.tke ∧ t.pnc = s.pnc ∧ t.control = s.control) ∧
    ((∀ (d : Fin 64) (l : Level), s.xpe.sweep = some (d, l) → dest.toNat ≠ d.1 ∨ level.toNat ≠ l.num) →
      exec (.readAnswer dest level number) s = .next s)

/-- A run of bytes on a link that is no message of it, or that answers nothing outstanding, is ignored (R178).  Bytes that are late for what they answer are ignored whatever is outstanding
(R34, R115).  That the command says whether they are late, and that others which do answer what is outstanding are the answer, is the model's choice (log entries 5 and 42).
So is that an ARM ACK, a READ ANSWER, a PING ANSWER, an ACK or a REFUSE, which carry no count, with bytes over or missing is no message (log entry 23), and the widths of the fields (log entry 55). -/
def Obligations.UnawaitedMessagesIgnored : Prop :=
  (∀ (m : List Byte) (link : Fin 4) (s : State), exec (.fabricMessageIgnored ⟨true, m⟩) s = .next s ∧ exec (.talkMessageIgnored ⟨true, m⟩) s = .next s ∧
    exec (.panelMessageIgnored link ⟨true, m⟩) s = .next s) ∧
  (∀ (m : List Byte) (s : State), (fabricMessage m = none ∨
      (s.xpe.reportWait = none ∧ s.xpe.sweep = none ∧ s.xpe.pingWait = false ∧ s.xpe.ackWait = false)) →
    exec (.fabricMessageIgnored ⟨false, m⟩) s = .next s) ∧
  (∀ (m : List Byte) (s : State), (s.tke.flight = none ∨ (m ≠ [0xA0] ∧ m ≠ [0xA1])) → exec (.talkMessageIgnored ⟨false, m⟩) s = .next s) ∧
  (∀ (link : Fin 4) (m : List Byte) (s : State), (s.pnc.links[link].out = none ∨ ∀ b rest, m = b :: rest → b ≠ 0x81 ∧ b ≠ 0x83) →
    exec (.panelMessageIgnored link ⟨false, m⟩) s = .next s) ∧
  ∀ s : State, exec (.fabricMessageIgnored ⟨false, [0x90]⟩) s = exec .armAck s ∧ exec (.fabricMessageIgnored ⟨false, [0x93]⟩) s = exec .pingAnswer s ∧
    (∀ d l x : Byte, exec (.fabricMessageIgnored ⟨false, [0x92, d, l, x]⟩) s = exec (.readAnswer d l x) s) ∧
    exec (.talkMessageIgnored ⟨false, [0xA0]⟩) s = exec .ack s ∧ exec (.talkMessageIgnored ⟨false, [0xA1]⟩) s = exec .refuse s ∧
    ∀ (link : Fin 4) (a lo hi : Byte), exec (.panelMessageIgnored link ⟨false, [0x81, a, lo, hi]⟩) s =
      exec (.probeAnswer link a (hi ++ lo)) s

/-! ### The panel links -/

/-- REPLY and POLL_WINDOW_CLOSE (R125, R126, R128, R130).  A reply from the polled address that echoes the poll's bit, without key events, ends the poll: the missed-reply count is 0, the sequence bit toggles, the keys whose carried state still stands leave the lamp set; and
outside HALTED a JOINING panel that answers an identifying poll is ONLINE with its own model code and WRONG_MODEL with another, also where the poll was sent before it last became JOINING (the model's choice, log entry 47).  Any other address or echo changes nothing.  A poll that
is not answered counts a miss, and the third makes the panel LOST; in HALTED none is counted.  Each change of state makes a PANEL report (R127), and a reply or a miss without one makes no report.  A panel that leaves ONLINE holds its lamps back until it is ONLINE again, when the
whole image is to be sent.  The link that is then free sends its next message.  A reply whose events are all ignored (R131), as those of an identifying poll's reply, of a panel that is not ONLINE, in HALTING or HALTED, and of keys without a function are, does just what it would
do without them; one with a key above 47 is ignored whole (R130). -/
def Obligations.PollsAndReplies : Prop :=
  ∀ (s : State) (link : Fin 4) (p : Fin 24) (ident b full : Bool) (carried : List (Fin 48 × Lamp)),
    s.pnc.links[link].out = some (.poll p ident b full carried) →
    (∀ m : PanelReply, m.address = addressOf p → m.echo = b → m.code.isSome = ident → m.events = [] →
      ∃ t, exec (.reply link m) s = .next t ∧ (∃ u, t = serveLink link u ∧ u.pnc.links = upd s.pnc.links link { s.pnc.links[link] with out := none }) ∧
        (t.panel p).missed = 0 ∧ (t.panel p).bit = (!(s.panel p).bit) ∧
        (ident = false → t.csi = s.csi ∧ t.store = s.store ∧ (t.panel p).state = (s.panel p).state ∧ (t.panel p).full = ((s.panel p).full && !full) ∧
          (t.panel p).image = (s.panel p).image ∧ (t.panel p).selection = (s.panel p).selection ∧
          ∀ k : Fin 48, k ∈ (t.panel p).lampSet ↔ k ∈ (s.panel p).lampSet ∧ (k, (s.panel p).image[k]) ∉ carried) ∧
        (∀ c, m.code = some c → (t.panel p).state =
          (if (s.panel p).state = .joining ∧ s.runState ≠ .halted then (if c = (s.panel p).model then .online else .wrongModel)
            else (s.panel p).state) ∧
          (let made := if (s.panel p).state = .joining ∧ s.runState ≠ .halted
              then report (.panel p (if c = (s.panel p).model then .online else .wrongModel)) s.rtu.frame s.rtu.label s else s;
            t.csi = made.csi ∧ t.store = made.store) ∧
          ((s.panel p).state = .joining → s.runState ≠ .halted → c = (s.panel p).model → (t.panel p).full = true ∧ (t.panel p).held = false)) ∧
        (∀ o : Fin 24, o ≠ p → (t.panel o).state = (s.panel o).state ∧ (t.panel o).missed = (s.panel o).missed ∧
          (t.panel o).bit = (s.panel o).bit) ∧
        t.tke = s.tke ∧ t.xpe = s.xpe ∧ t.tly = s.tly ∧ t.rtu = s.rtu ∧ t.runState = s.runState) ∧
    (∀ m : PanelReply, m.address = addressOf p → m.echo = b → m.code.isSome = ident → m.events.length ≤ 8 → (∀ e ∈ m.events, e.key.toNat < 48) →
      (ident = true ∨ (s.panel p).state ≠ .online ∨ s.runState = .halting ∨ s.runState = .halted ∨
        ∀ e ∈ m.events, ∀ k : Fin 48, e.key.toNat = k.1 → (s.panel p).map[k].fn = .none) →
      exec (.reply link m) s = exec (.reply link { m with events := [] }) s) ∧
    (∀ m : PanelReply, m.address ≠ addressOf p ∨ m.echo ≠ b ∨ 8 < m.events.length ∨ (∃ e ∈ m.events, 48 ≤ e.key.toNat) → exec (.reply link m) s = .next s) ∧
    ((s.panel p).enabled = true → (s.panel p).state = .joining ∨ (s.panel p).state = .online → ∃ t, exec (.pollWindowClose link) s = .next t ∧
      (∃ u, t = serveLink link u ∧ u.pnc.links = upd s.pnc.links link { s.pnc.links[link] with out := none }) ∧
      (s.runState ≠ .halted → (s.panel p).missed < 2 →
        (t.panel p).missed = (s.panel p).missed + 1 ∧ (t.panel p).state = (s.panel p).state ∧ t.tke = s.tke ∧ t.csi = s.csi ∧ t.store = s.store) ∧
      (s.runState ≠ .halted → 2 ≤ (s.panel p).missed → (t.panel p).missed = 3 ∧ (t.panel p).state = .lost ∧
        t.csi = (report (.panel p .lost) s.rtu.frame s.rtu.label s).csi ∧ t.store = (report (.panel p .lost) s.rtu.frame s.rtu.label s).store ∧
        ((s.panel p).state = .online → (∀ k : Fin 48, t.keyState p k = .idle) ∧ (t.panel p).held = true ∧ (t.panel p).selection =
          { (s.panel p).selection with preset := none, guard := false, walk := none })) ∧
      (s.runState = .halted → t = { s with pnc := { s.pnc with links := upd s.pnc.links link { s.pnc.links[link] with out := none } } }) ∧
      t.xpe = s.xpe ∧ t.tly = s.tly ∧ t.rtu = s.rtu ∧ t.runState = s.runState)

/-- PROBE_ANSWER and PROBE_TIMEOUT (R124, R125, R128).  Outside HALTED, an enabled panel that answers its probe goes from ABSENT or LOST to JOINING with its count and bit 0, and from WRONG_MODEL to ONLINE when the code is its own; one that does not answer goes from WRONG_MODEL to
LOST with a count of 3, and stays as it was from ABSENT or LOST; each change makes a PANEL report (R127), and nothing else a report.  In HALTED no panel's state changes, and an answer that is not the probe's changes nothing.  A link that is free outside HALTED sends next, in
SWEEP or RUNNING, the probe that is due at its lowest address, an identifying one to a WRONG_MODEL panel; else it polls the next panel of its round that is enabled and JOINING or ONLINE, identifying a JOINING one, with the panel's sequence bit and the whole lamp image or the
first 16 keys of the lamp set (R124, R128, R129).  Where the panel has left ONLINE, or had a map loaded, and is not ONLINE since, whether its identifying poll carries the lamps is a free value, as the rules differ (log entry 45). -/
def Obligations.ProbesFindPanels : Prop :=
  (∀ (s : State) (link : Fin 4) (p : Fin 24) (ident : Bool), s.pnc.links[link].out = some (.probe p ident) →
      (∀ code : BitVec 16, ∃ t, exec (.probeAnswer link (addressOf p) code) s = .next t ∧
        ((s.panel p).enabled = true → s.runState ≠ .halted → (s.panel p).state = .absent ∨ (s.panel p).state = .lost →
          (t.panel p).state = .joining ∧ (t.panel p).missed = 0 ∧ (t.panel p).bit = false) ∧
        ((s.panel p).enabled = true → s.runState ≠ .halted → (s.panel p).state = .wrongModel →
          (t.panel p).state = if code = (s.panel p).model then .online else .wrongModel) ∧
        (let told := (s.panel p).enabled = true ∧ s.runState ≠ .halted
          let made := if told ∧ ((s.panel p).state = .absent ∨ (s.panel p).state = .lost) then report (.panel p .joining) s.rtu.frame s.rtu.label s
            else if told ∧ (s.panel p).state = .wrongModel ∧ code = (s.panel p).model then report (.panel p .online) s.rtu.frame s.rtu.label s else s;
          t.csi = made.csi ∧ t.store = made.store) ∧
        (s.runState = .halted → ∀ o : Fin 24, (t.panel o).state = (s.panel o).state) ∧
        (∀ o : Fin 24, o ≠ p → (t.panel o).state = (s.panel o).state ∧ (t.panel o).missed = (s.panel o).missed) ∧
        t.tke = s.tke ∧ t.xpe = s.xpe ∧ t.tly = s.tly ∧ t.rtu = s.rtu ∧ t.runState = s.runState) ∧
      (∀ (a : Byte) (code : BitVec 16), a ≠ addressOf p → exec (.probeAnswer link a code) s = .next s) ∧
      ∃ t, exec (.probeTimeout link) s = .next t ∧
        (t.panel p).state = (if (s.panel p).state = .wrongModel ∧ (s.panel p).enabled = true ∧ s.runState ≠ .halted then .lost else (s.panel p).state) ∧
        ((s.panel p).state = .wrongModel → (s.panel p).enabled = true → s.runState ≠ .halted → (t.panel p).missed = 3) ∧
        (let made := if (s.panel p).state = .wrongModel ∧ (s.panel p).enabled = true ∧ s.runState ≠ .halted then report (.panel p .lost) s.rtu.frame s.rtu.label s else s;
          t.csi = made.csi ∧ t.store = made.store) ∧
        (∀ o : Fin 24, o ≠ p → (t.panel o).state = (s.panel o).state ∧ (t.panel o).missed = (s.panel o).missed) ∧
        t.tke = s.tke ∧ t.xpe = s.xpe ∧ t.tly = s.tly ∧ t.rtu = s.rtu ∧ t.runState = s.runState) ∧
  ∀ (u : State) (link : Fin 4),
    let x := fun i : Fin 6 => u.panel (panelAt link i)
    let due := fun i : Fin 6 => (u.runState = .sweep ∨ u.runState = .running) ∧ (x i).probeDue = true ∧ (x i).enabled = true ∧
      ((x i).state = .absent ∨ (x i).state = .lost ∨ (x i).state = .wrongModel)
    let polled := fun i : Fin 6 => (x i).enabled = true ∧ ((x i).state = .joining ∨ (x i).state = .online)
    (u.pnc.links[link].out ≠ none ∨ u.runState = .halted → serveLink link u = u) ∧
    (u.pnc.links[link].out = none → u.runState ≠ .halted →
      (∀ i : Fin 6, due i → (∀ j, j < i → ¬ due j) → serveLink link u =
        (u.setPanel (panelAt link i) { x i with probeDue := false }).setLink link
          { u.pnc.links[link] with out := some (.probe (panelAt link i) (decide ((x i).state = .wrongModel))) }) ∧
      ((∀ i, ¬ due i) →
        (∀ n : Fin 6, polled (u.pnc.links[link].round + n) → (∀ m, m < n → ¬ polled (u.pnc.links[link].round + m)) →
          let i := u.pnc.links[link].round + n
          let sends := (!(x i).held) || Config.heldLampsSent
          let keys := if sends = false then [] else if (x i).full = true then List.finRange 48 else (x i).lampSet.take 16
          serveLink link u = u.setLink link { out := some (.poll (panelAt link i) (decide ((x i).state = .joining)) (x i).bit ((x i).full && sends) (keys.map fun k => (k, (x i).image[k]))), round := i + 1 }) ∧
        ((∀ i, ¬ polled i) → serveLink link u = u)))

/-- R94: a key event of a TALK key, by REPLY of an ONLINE panel in SWEEP or RUNNING, moves the key by the table and no other key, but for a press in IDLE with a station port that is not usable (R93), which leaves the key
IDLE and flashes it; several events of the key in one reply move it one after the other, in reply order. -/
def Obligations.TalkKeyMoves : Prop :=
  ∀ (s : State) (link : Fin 4) (p : Fin 24) (k : Fin 48) (b full press : Bool) (carried : List (Fin 48 × Lamp)) (target : TalkTarget)
    (mode : TalkMode) (gain : Int),
    s.pnc.links[link].out = some (.poll p false b full carried) → (s.panel p).state = .online →
    (s.runState = .sweep ∨ s.runState = .running) → s.keyAction p k = .talk target mode gain →
    let moves := fun (x : KeyState) (press : Bool) => match x, press with
      | .idle, true =>
        match mode with
        | .momentary => .held
        | .latching => .latched
        | .auto => .pending s.rtu.frame
      | .pending _, false => .latched
      | .held, false => .idle
      | .latched, true => .closing
      | .closing, false => .idle
      | x, _ => x
    (∀ events : List Bool, events.length ≤ 8 → s.usableStation p = true → ∃ t, exec (.reply link { address := addressOf p, echo := b, code := none, events :=
        (events.map fun press => { key := BitVec.ofNat 8 k.1, press := press }) }) s = .next t ∧ t.keyState p k = events.foldl moves (s.keyState p k) ∧
      ∀ (o : Fin 24) (j : Fin 48), (o, j) ≠ (p, k) → t.keyState o j = s.keyState o j) ∧
    ∃ t, exec (.reply link { address := addressOf p, echo := b, code := none, events := [{ key := BitVec.ofNat 8 k.1, press := press }] }) s = .next t ∧
      (∀ (o : Fin 24) (j : Fin 48), (o, j) ≠ (p, k) → t.keyState o j = s.keyState o j) ∧
      (s.usableStation p = true ∨ press = false ∨ s.keyState p k ≠ .idle → t.keyState p k = moves (s.keyState p k) press) ∧
      (t.keyState p k ≠ s.keyState p k → t.talkDerived) ∧
      (s.usableStation p = false → press = true → s.keyState p k = .idle → t.keyState p k = .idle ∧ (t.panel p).timers[k] = 16 ∧
        (t.panel p).image[k] = .flash) ∧
      t.xpe = s.xpe ∧ t.tly = s.tly ∧ t.rtu = s.rtu ∧ t.runState = s.runState

/-- Router keys pressed on an ONLINE panel in SWEEP or RUNNING (R134 to R140).  SELECT selects and drops the preset, guard and walk; SOURCE in PRESET mode holds a VALID preset; SOURCE in DIRECT mode, TAKE with a VALID guard and STEP ask for a take as the panel, and a QUEUED one
breaks the VALID guards of the other PRESET-mode panels on its destination in the very step of the press (the model's choice, log entry 46); its unit joins the queue behind what it leaves of it, with a TAKE_DONE report SUPERSEDED for each entry of an application that it replaces,
in the order of the unit's levels V, A, B (log entry 41).  A TAKE press that its reply says is taken ahead of the take notices of this frame finds VALID also a guard that one of them has broken (R136, log entry 46).  STEP goes on with the walk of its group or sets one up, and
moves it on when QUEUED.  SALVO asks for a fire, PROTECT releases the panel's own protect or asks for one, REPORT makes KEY reports.  A refusal flashes the key and makes a KEY report with its code: no selection, a stale preset, a protect, a full queue, and an undefined salvo,
that one too in the press's own step (the model's reading, log entry 18). -/
def Obligations.RouterKeysPressed : Prop :=
  ∀ (s : State) (link : Fin 4) (p : Fin 24) (k : Fin 48) (b full ahead : Bool) (carried : List (Fin 48 × Lamp)),
    s.pnc.links[link].out = some (.poll p false b full carried) → (s.panel p).state = .online → (s.runState = .sweep ∨ s.runState = .running) →
    let event := fun down : Bool =>
      Instr.reply link { address := addressOf p, echo := b, code := none, events := [{ key := BitVec.ofNat 8 k.1, press := down }], ahead := ahead }
    let sel := (s.panel p).selection
    let me : Requester := ⟨.panel p, (s.panel p).level⟩
    let keyReport := fun (t : State) (what : Byte) =>
      let u := report (.key p k what) s.rtu.frame s.rtu.label s
      t.csi = u.csi ∧ t.store = u.store
    let still := fun t : State => t.tke = s.tke ∧ t.rtu = s.rtu ∧ t.tly = s.tly ∧ t.runState = s.runState
    let refusedAs := fun (code : Byte) (after : Selection) => ∃ t, exec (event true) s = .next t ∧ (t.panel p).timers[k] = 16 ∧ (t.panel p).image[k] = .flash ∧
      keyReport t code ∧ (t.panel p).selection = after ∧ t.xpe = s.xpe ∧ still t
    let unit := fun (d : Fin 64) (m : LevelMask) (x : Source) (cause : Cause) => ({ due := none, requester := me, cause := cause, salvo := none, entries :=
      ([Level.v, .a, .b].filter fun l => m.getLsbD l.num && (s.dest d).present.getLsbD l.num).map fun l => ({ dest := d, level := l, source := x } : Crosspoint) } : TakeUnit)
    let takes := fun (d : Fin 64) (m : LevelMask) (x : Source) (cause : Cause) (after : Selection) => ∃ t, exec (event true) s = .next t ∧
      t.xpe = { s.xpe with queue := s.queueWith (unit d m x cause) } ∧ (t.panel p).selection = after ∧ still t ∧
      (let told := s.tellSuperseded (unit d m x cause).entries; t.csi = told.csi ∧ t.store = told.store) ∧
      ∀ o : Fin 24, o ≠ p →
        let breaks := (s.panel o).mode = .preset ∧ (s.panel o).selection.guard = true ∧ (s.panel o).selection.preset ≠ none ∧
          (s.panel o).selection.dest.map Prod.fst = some d
        (breaks → (t.panel o).selection = { (s.panel o).selection with guard := false } ∧ (t.panel o).noticed = true) ∧
        (¬ breaks → (t.panel o).selection = (s.panel o).selection ∧ (t.panel o).noticed = (s.panel o).noticed)
    let may := fun (d : Fin 64) (m : LevelMask) => m &&& (s.dest d).present ≠ 0 ∧ s.lets d me
    let held := fun (d : Fin 64) (m : LevelMask) (x : Source) => entriesIn (s.queueWith (unit d m x .take))
    let free := fun (d : Fin 64) (m : LevelMask) (x : Source) => may d m ∧ held d m x ≤ 64
    let full := fun (d : Fin 64) (m : LevelMask) (x : Source) => may d m ∧ 64 < held d m x
    let barred := fun (d : Fin 64) (m : LevelMask) => m &&& (s.dest d).present ≠ 0 ∧ ¬ s.lets d me
    (∀ d m, s.keyAction p k = .select d m → ∃ t, exec (event true) s = .next t ∧
      (t.panel p).selection = { dest := some (d, m), preset := none, guard := false, walk := none } ∧ t.xpe = s.xpe ∧ t.csi = s.csi ∧ still t) ∧
    (sel.dest = none → ((∃ x, s.keyAction p k = .source x) ∨ (∃ g, s.keyAction p k = .step g) ∨ s.keyAction p k = .protect) → refusedAs 0x11 sel) ∧
    (∀ x d m, s.keyAction p k = .source x → sel.dest = some (d, m) →
      ((s.panel p).mode = .preset → ∃ t, exec (event true) s = .next t ∧ (t.panel p).selection = { sel with preset := some x, guard := true } ∧
        t.xpe = s.xpe ∧ t.csi = s.csi ∧ still t) ∧
      ((s.panel p).mode = .direct → free d m x → takes d m x .take { sel with walk := none }) ∧
      ((s.panel p).mode = .direct → full d m x → refusedAs 0x15 sel) ∧
      ((s.panel p).mode = .direct → barred d m → refusedAs 0x13 sel)) ∧
    (s.keyAction p k = .take →
      let valid := sel.guard = true ∨ (ahead = true ∧ (s.panel p).noticed = true)
      (¬ valid ∨ sel.preset = none → refusedAs 0x19 { sel with preset := none, guard := false }) ∧
      ∀ x d m, sel.preset = some x → valid → sel.dest = some (d, m) →
        (free d m x → takes d m x .take { sel with preset := none, guard := false, walk := none }) ∧
        (full d m x → refusedAs 0x15 { sel with preset := none, guard := false }) ∧
        (barred d m → refusedAs 0x13 { sel with preset := none, guard := false })) ∧
    (∀ g d m w, s.keyAction p k = .step g → sel.dest = some (d, m) →
      let holds := fun i : Fin 4 => (s.dest d).present.getLsbD 0 = true ∧ (s.dest d).entryV.state ≠ .unknown ∧ s.xpe.steps[g].sources[i] = (s.dest d).entryV.source
      ((sel.walk = some w ∧ w.group = g) ∨ ((∀ v, sel.walk = some v → v.group ≠ g) ∧ w.group = g ∧
        ((holds w.origin ∧ (∀ j, j < w.origin → ¬ holds j) ∧ w.count = 0) ∨ ((∀ j, ¬ holds j) ∧ w.origin = 0 ∧ w.count = 3)))) →
      ∀ i : Fin 4, (s.xpe.steps[g].order = .linear → i.1 = (w.origin.1 + w.count.1 + 1) % 4) →
        (s.xpe.steps[g].order = .interleaved → i.1 = w.origin.1 ^^^ ((w.count.1 + 1) % 4)) →
        (full d m s.xpe.steps[g].sources[i] → refusedAs 0x15 { sel with walk := some w }) ∧
        (free d m s.xpe.steps[g].sources[i] → takes d m s.xpe.steps[g].sources[i] .step { sel with walk := some { w with count := w.count + 1 } }) ∧
        (barred d m → refusedAs 0x13 { sel with walk := some w })) ∧
    (∀ n, s.keyAction p k = .salvo n →
      let request : FireRequest := { salvo := n, due := none, requester := me, cause := .salvo, origin := .key p k }
      (s.xpe.reading ≠ none → ∃ t, exec (event true) s = .next t ∧ t.xpe = { s.xpe with fires := s.xpe.fires ++ [request] } ∧ t.csi = s.csi ∧ still t) ∧
      (s.xpe.reading = none → s.xpe.fires = [] → (s.xpe.salvos[n] = none → refusedAs 0x18 sel) ∧
        ∀ v c, s.xpe.salvos[n] = some v → s.csi.copy = some c → c.orders.base ≤ v.address → v.address + 16 * v.count ≤ c.orders.base + c.orders.size →
          ∃ t, exec (event true) s = .next t ∧ t.csi = s.csi ∧ still t ∧
            t.xpe = { s.xpe with reading := some { request := request, address := v.address, count := v.count, mark := s.replaced.length } })) ∧
    (∀ d m, s.keyAction p k = .protect → sel.dest = some (d, m) →
      (∀ y, (s.dest d).protect = some y → y.owner = .panel p → ∃ t, exec (event true) s = .next t ∧
        t.xpe = { s.xpe with dests := upd s.xpe.dests d { s.dest d with protect := none } } ∧ still t) ∧
      ((s.dest d).protect = none ∨ (∃ y, (s.dest d).protect = some y ∧ y.owner ≠ .panel p ∧ (s.panel p).level < y.level) →
        ∃ t, exec (event true) s = .next t ∧ still t ∧
          t.xpe = { s.xpe with dests := upd s.xpe.dests d { s.dest d with protect := some ⟨(s.panel p).level, .panel p⟩ } }) ∧
      (∀ y, (s.dest d).protect = some y → y.owner ≠ .panel p → y.level ≤ (s.panel p).level → refusedAs 0x13 sel)) ∧
    ∀ lamp down, s.keyAction p k = .report lamp → ∃ t, exec (event down) s = .next t ∧ keyReport t (if down = true then 0 else 1) ∧
      (t.panel p).selection = sel ∧ t.xpe = s.xpe ∧ still t

/-! ### The talk link -/

/-- ACK, REFUSE and TALK_WRITE_TIMEOUT (R115 to R118).  On an UP link ACK clears the count of failures, and the written entry leaves the queue unless it changed meanwhile; the first and second failure count; the third takes the link DOWN and keeps the queue; and the head entry is
written at once wherever the link is UP outside HALTED.  The third failure makes a TALK_LINK report.  On a DOWN link ACK takes the link UP with a TALK_LINK report and a full refresh, and a failure changes nothing but the flight; a boundary outside HALTED makes one
retry of it, the head entry or a probe of an empty queue (R116), by the queue as it stands before the boundary's own settled map enters a feed (the model's choice, log entry 12).  With nothing in flight nothing happens, nor at an
ACK that is late for its attempt.  That an ACK of this row is timely for the attempt in flight, and a late one comes as an ignored message marked so, is the model's choice (log entry 42).  In HALTING the conditions of HALTED are examined after each (R174). -/
def Obligations.TalkLinkAnswers : Prop :=
  ∀ s : State,
    let sent := fun q : List TalkEntry => match q with
      | [] => none
      | e :: _ => if s.runState = .halted then none else some (Flight.write e)
    (∀ e h rest, s.tke.flight = some (.write e) → s.tke.link = .up → s.tke.queue = h :: rest →
      let queue := if h = e then rest else s.tke.queue
      exec .ack s = .next (examineHalting { s with tke := { s.tke with fails := 0, queue := queue, flight := sent queue } })) ∧
    (∀ f, s.tke.flight = some f → s.tke.link = .down → ∃ t, exec .ack s = .next (examineHalting t) ∧ t.tke.link = .up ∧ t.tke.fails = 0 ∧
      (∀ a b : Fin 32, { key := .xpt a b, value := .coeff s.tke.target[a][b] } ∈ t.tke.queue) ∧
      (∀ i : Fin 8, { key := .feed i, value := .feed s.tke.feeds[i] } ∈ t.tke.queue) ∧ t.tke.target = s.tke.target ∧
      t.tke.feeds = s.tke.feeds ∧ t.csi = (report (.talkLink .up) s.rtu.frame s.rtu.label s).csi ∧
      t.store = (report (.talkLink .up) s.rtu.frame s.rtu.label s).store ∧ t.tke.flight = sent t.tke.queue ∧ t.tke.keys = s.tke.keys ∧ t.tke.paths = s.tke.paths ∧
      t.rtu = s.rtu ∧ t.xpe = s.xpe ∧ t.tly = s.tly ∧ t.pnc = s.pnc) ∧
    exec (.talkMessageIgnored ⟨true, [0xA0]⟩) s = .next s ∧
    ∀ c, c = .refuse ∨ c = .talkWriteTimeout →
      (∀ f, s.tke.flight = some f → s.tke.link = .up → s.tke.fails < 2 →
        exec c s = .next (examineHalting { s with tke := { s.tke with fails := s.tke.fails + 1, flight := sent s.tke.queue } })) ∧
      (∀ f, s.tke.flight = some f → s.tke.link = .up → 2 ≤ s.tke.fails → ∃ t, exec c s = .next (examineHalting t) ∧
        t.csi = (report (.talkLink .down) s.rtu.frame s.rtu.label s).csi ∧ t.store = (report (.talkLink .down) s.rtu.frame s.rtu.label s).store ∧
        t.tke = { s.tke with fails := 0, flight := none, link := .down } ∧ t.rtu = s.rtu ∧ t.xpe = s.xpe ∧ t.tly = s.tly ∧ t.pnc = s.pnc) ∧
      (∀ f, s.tke.flight = some f → s.tke.link = .down → exec c s = .next (examineHalting { s with tke := { s.tke with flight := none } })) ∧
      (s.tke.flight = none → exec c s = .next s ∧ exec .ack s = .next s) ∧
      ∀ gpi : BitVec 16, s.tke.link = .down → ∃ t, exec (.frameBoundary gpi) s = .next t ∧ t.tke.link = .down ∧ t.tke.fails = s.tke.fails ∧
        (s.tke.flight ≠ none ∨ s.runState = .halted → t.tke.flight = s.tke.flight) ∧
        (s.tke.flight = none → s.runState ≠ .halted → t.tke.flight = some (match s.tke.queue with
          | [] => .probe
          | e :: _ => .write e))

/-! ### Tallies and the journal -/

/-- A map declared settled for a frame whose inputs the TLY holds, at a switch report, at a link loss or at a FRAME_BOUNDARY with the fabric link DOWN outside HALTED, runs the resolution (R52, R63, R67, R68, R70 to R72, R79 to R83): with no REENTRY destination, a source is red
just when an ONAIR destination, or a KEYED one with its red GPI asserted, carries it at V, green for PREVIEW or a green GPI, and yellow for ISO, and no flag is set; in general a source has every colour that up to four re-entries lead it to, a REENTRY destination met at the fifth
is marked for DEPTH, and one met again for LOOP (R69); a TRIPLE channel lights its forced colours, or its source's masked colours and its call line, a SINGLE one its line 0, a follower copies its master; the drive follows each channel's polarity; and one port frame is sent.  Each
flag that differs from the last resolution's makes a FABRIC report, destination by destination, DEPTH before LOOP, ahead of the mirror rewrite (R71, R72).  With no inputs held for the frame nothing is resolved. -/
def Obligations.DownBoundaryResolvesTallies : Prop :=
  let settles := fun (gpi : BitVec 16) (incoming : PortSet) (frame : FrameIndex) (s t : State) =>
    t.tly.portFrames = s.tly.portFrames + 1 ∧
    ((∀ d : Fin 64, (s.dest d).kind ≠ .reentry) →
      let carries := fun (d : Fin 64) (x : Fin 128) => (s.dest d).present.getLsbD 0 = true ∧ (s.dest d).entryV.state ≠ .unknown ∧
        (s.dest d).entryV.source = .input x
      (∀ x : Fin 128,
        (t.tly.tally[x].getLsbD 0 = true ↔ ∃ d : Fin 64, carries d x ∧ ((s.dest d).kind = .onair ∨
          ((s.dest d).kind = .keyed ∧ ∃ i : Fin 16, (s.dest d).redGpi = some i ∧ gpi.getLsbD i.1 = true))) ∧
        (t.tly.tally[x].getLsbD 1 = true ↔ ∃ d : Fin 64, carries d x ∧ ((s.dest d).kind = .preview ∨
          ((s.dest d).kind = .keyed ∧ ∃ i : Fin 16, (s.dest d).greenGpi = some i ∧ gpi.getLsbD i.1 = true))) ∧
        (t.tly.tally[x].getLsbD 2 = true ↔ ∃ d : Fin 64, carries d x ∧ (s.dest d).kind = .iso)) ∧
      ∀ d : Fin 64, (t.dest d).depth = false ∧ (t.dest d).loop = false) ∧
    (∀ (x : Fin 128) (i : Fin 3), t.tly.tally[x].getLsbD i.1 = true ↔ ∃ (chain : List (Fin 64)) (y : Fin 128) (e : Fin 64), chain.Nodup ∧ chain.length ≤ 4 ∧
      s.reentryChain chain x y ∧ s.carriesSource e y ∧ s.seeds gpi e i) ∧
    (∀ d : Fin 64, let meets := fun (chain : List (Fin 64)) => chain.Nodup ∧ (∃ x y, s.reentryChain chain x y ∧ s.carriesSource d y) ∧
        (s.dest d).kind = .reentry ∧ (s.dest d).reentry ≠ none
      ((t.dest d).depth = true ↔ ∃ chain, meets chain ∧ chain.length = 4 ∧ d ∉ chain) ∧
      ((t.dest d).loop = true ↔ ∃ chain, meets chain ∧ chain.length ≤ 4 ∧ d ∈ chain)) ∧
    (∀ c : Fin 64, s.tly.channels[c].master = none →
      let shown : ColourSet := match s.tly.channels[c].force, s.tly.channels[c].source with
        | some f, _ => f
        | none, none => 0
        | none, some x => t.tly.tally[x] &&& s.tly.channels[c].mask
      let calls := ∃ p : Fin 32, s.tly.channels[c].call = some p ∧ incoming.getLsbD p.1 = true ∧ frame.toNat / 8 % 2 = 0
      (s.tly.channels[c].mode = .triple → (∀ i : Fin 3, t.tly.outputs[c].getLsbD i.1 = shown.getLsbD i.1) ∧
        (t.tly.outputs[c].getLsbD 3 = true ↔ calls)) ∧
      (s.tly.channels[c].mode = .single → (t.tly.outputs[c] = 1 ∨ t.tly.outputs[c] = 0) ∧ (t.tly.outputs[c] = 1 ↔ shown ≠ 0 ∨ calls))) ∧
    (∀ c m : Fin 64, s.tly.channels[c].master = some m → s.tly.channels[m].master = none → t.tly.outputs[c] = t.tly.outputs[m]) ∧
    ∀ c : Fin 64, t.tly.image[c] = if s.tly.channels[c].polarity = .upright then t.tly.outputs[c] else ~~~t.tly.outputs[c]
  (∀ (k : FrameIndex) (s : State) (i : FrameInputs), s.tly.inputs = some i → i.frame = k → let t := declareSettled k s
    settles i.sample i.snapshot k s t ∧
    let told := (List.finRange 64).foldl (fun v d =>
      let u := if (t.dest d).depth = s.tly.prevDepth.getLsbD d.1 then v else report (.flag d false (t.dest d).depth) s.rtu.frame s.rtu.label v
      if (t.dest d).loop = s.tly.prevLoop.getLsbD d.1 then u else report (.flag d true (t.dest d).loop) s.rtu.frame s.rtu.label u) s
    (∀ d : Fin 64, t.tly.prevDepth.getLsbD d.1 = (t.dest d).depth ∧ t.tly.prevLoop.getLsbD d.1 = (t.dest d).loop) ∧
    (∃ v, v.csi = told.csi ∧ v.store = told.store ∧ t = onResolution s.rtu.frame s.rtu.label v) ∧
    (s.csi.mirror.freeze ≠ .live ∨ s.csi.mirror.writing ≠ none → t.store = told.store) ∧
    t.csi.writeIndex = told.csi.writeIndex ∧ t.csi.gap = told.csi.gap ∧ t.csi.saturated = told.csi.saturated ∧ t.csi.notice = told.csi.notice) ∧
  (∀ (k : FrameIndex) (s : State), s.tly.inputs = none ∨ (∃ i, s.tly.inputs = some i ∧ i.frame ≠ k) →
    (declareSettled k s).tly = s.tly ∧ (declareSettled k s).xpe = s.xpe ∧ (declareSettled k s).csi = s.csi ∧ (declareSettled k s).store = s.store) ∧
  ∀ (gpi : BitVec 16) (s : State), s.xpe.link = .down → s.runState ≠ .halted → ∃ u, exec (.frameBoundary gpi) s = .next (declareSettled (s.rtu.frame + 1) u) ∧
    settles gpi s.tke.incoming (s.rtu.frame + 1) s (declareSettled (s.rtu.frame + 1) u) ∧
    u.tly.inputs = some { frame := s.rtu.frame + 1, sample := gpi, snapshot := s.tke.incoming } ∧ u.xpe.dests = s.xpe.dests ∧
    u.tly.channels = s.tly.channels ∧ u.tly.prevDepth = s.tly.prevDepth ∧ u.tly.prevLoop = s.tly.prevLoop ∧ u.rtu.frame = s.rtu.frame + 1

/-- A report handed to the CSI (R161, R162, R164): dropped while the anchor copy is not valid; with room and no gap, written whole at W; with room for two after a gap, written behind a GAP record that carries the count and clears it; else dropped and counted, saturating at 65535; that a drop at 65535 writes the unchanged count again is the model's choice (log entry 56).
NOTICE JOURNAL follows the threshold, and no other block changes.  The 16 bytes of a record are the kind, F1 to F3, the frame index, the label and F4 to F7, with the fields that the table of kinds lists, and 0 elsewhere (Journal records); that the bits of a GAP record's F3 above bit 0 are 0 is the model's choice (log entry 57). -/
def Obligations.JournalTakesReports : Prop :=
  (∀ (x : Report) (f : FrameIndex) (l : Label) (s : State),
      ((report x f l s).rtu = s.rtu ∧ (report x f l s).xpe = s.xpe ∧ (report x f l s).tly = s.tly ∧ (report x f l s).tke = s.tke ∧
        (report x f l s).pnc = s.pnc ∧ (report x f l s).runState = s.runState) ∧
      (s.csi.copy = none → report x f l s = s) ∧
      ∀ c : AnchorCopy, s.csi.copy = some c → s.store.wf = true → c.journal + 4096 ≤ 4194304 → c.address + 192 ≤ 4194304 →
        (c.journal + 4096 ≤ c.address ∨ c.address + 192 ≤ c.journal) →
        let w := s.csi.writeIndex
        let unread := (w - storeRead s.store (c.address + 0x1C)).toNat
        let t := report x f l s
        (s.csi.gap = 0 → unread ≤ 254 →
          t.csi = { s.csi with writeIndex := w + 1, notice := if c.threshold ≤ (w + 1 - storeRead s.store (c.address + 0x1C)).toNat then s.csi.notice ||| 8 else s.csi.notice } ∧
          (∀ i : Fin 16, storeRead t.store (c.journal + 16 * w.toNat + i.1) = (x.record f l).getD i.1 0) ∧
          storeRead t.store (c.address + 0x1E) = w + 1 ∧
          ∀ a, (a < c.journal + 16 * w.toNat ∨ c.journal + 16 * w.toNat + 16 ≤ a) → a ≠ c.address + 0x1E →
            storeRead t.store a = storeRead s.store a) ∧
        (0 < s.csi.gap → unread ≤ 253 →
          t.csi.writeIndex = w + 2 ∧ t.csi.gap = 0 ∧ t.csi.saturated = false ∧
          (∀ i : Fin 16, storeRead t.store (c.journal + 16 * w.toNat + i.1) =
              ((Report.gap s.csi.gap s.csi.saturated).record f l).getD i.1 0 ∧
            storeRead t.store (c.journal + 16 * (w + 1).toNat + i.1) = (x.record f l).getD i.1 0) ∧
          storeRead16 t.store (c.address + 0x20) = 0) ∧
        ((s.csi.gap = 0 ∧ unread = 255) ∨ (0 < s.csi.gap ∧ 254 ≤ unread) → s.csi.gap ≤ 65535 →
          t.csi = { s.csi with gap := min 65535 (s.csi.gap + 1), saturated := s.csi.saturated || decide (s.csi.gap = 65535) } ∧
          storeRead16 t.store (c.address + 0x20) = t.csi.gap ∧
          ∀ a, a ≠ c.address + 0x20 → a ≠ c.address + 0x21 → storeRead t.store a = storeRead s.store a)) ∧
  ∀ (f : FrameIndex) (l : Label),
    let layout := fun (x : Report) (kind f1 f2 f3 f4 f5 f6 f7 : Byte) => x.record f l =
      [kind, f1, f2, f3, f.extractLsb' 0 8, f.extractLsb' 8 8, f.extractLsb' 16 8, f.extractLsb' 24 8, num8 l.hh, num8 l.mm, num8 l.ss, num8 l.ff, f4, f5, f6, f7]
    (∀ p k w, layout (.key p k w) 1 (num8 p.1) (num8 k.1) w 0 0 0 0) ∧
    (∀ tag d lv o n, let late := min n 65535
      layout (.takeDone tag d lv o n) 2 (num8 tag.1) (num8 d.1) (num8 lv.num) (num8 o.num) (num8 (late % 256)) (num8 (late / 256)) 0) ∧
    (∀ d lv x y cause, layout (.xpt d lv x y cause) 3 (num8 d.1) (num8 lv.num) x.byte y.byte (num8 cause.num) 0 0) ∧
    (∀ d p a, layout (.protect d p a) 4 (num8 d.1) p.owner.byte (num8 p.level.1) (num8 a.num) 0 0 0) ∧
    (∀ p st, layout (.panel p st) 5 (num8 p.1) (num8 st.num) 0 0 0 0 0) ∧ (∀ n w, layout (.cue n w) 6 (num8 n.1) w 0 0 0 0 0) ∧
    (∀ st, layout (.ref st) 7 (num8 st.num) 0 0 0 0 0 0) ∧ (∀ w, layout (.fabricDown w) 8 0 (num8 w.num) 0 0 0 0 0) ∧ layout .fabricUp 8 1 0 0 0 0 0 0 ∧
    (∀ d lv x n, layout (.mismatch d lv (some x) n) 8 2 (num8 d.1) (num8 lv.num) x.byte n 0 0 ∧ layout (.mismatch d lv none n) 8 2 (num8 d.1) (num8 lv.num) 0xFE n 0 0) ∧
    (∀ d lv w, layout (.flag d lv w) 8 3 (num8 d.1) (if lv = true then 1 else 0) (if w = true then 1 else 0) 0 0 0) ∧
    (∀ st, layout (.talkLink st) 9 (num8 st.num) 0 0 0 0 0 0) ∧ (∀ i a, layout (.gpi i a) 10 (num8 i.1) (if a = true then 1 else 0) 0 0 0 0 0) ∧
    ∀ n w, layout (.gap n w) 11 (num8 n) (num8 (n / 256)) (if w = true then 1 else 0) 0 0 0 0
end

