-- ==== Sys2Proof/Laws/State.lean ====
section
/-! SUPPORT. One lemma per field per update of the state record, and folds that keep a view of the state. -/

namespace Sys2Proof.Machine

/-! ### Tables -/

/-- Reading a replaced entry gives the new one; every other entry is as before. -/
theorem upd_get {α : Type} {n : Nat} (v : Vector α n) (i j : Fin n) (x : α) :
    (upd v i x)[j.1] = if i = j then x else v[j.1] := by
  rcases i with ⟨i, hi⟩
  rcases j with ⟨j, hj⟩
  simp only [upd, Vector.getElem_set, Fin.mk.injEq]

/-- The replaced entry. -/
@[simp] theorem upd_same {α : Type} {n : Nat} (v : Vector α n) (i : Fin n) (x : α) : (upd v i x)[i.1] = x := by
  rw [upd_get, if_pos rfl]

/-- The other entries. -/
theorem upd_other {α : Type} {n : Nat} (v : Vector α n) {i j : Fin n} (x : α) (h : i ≠ j) : (upd v i x)[j.1] = v[j.1] := by
  rw [upd_get, if_neg h]

/-- An entry of a table made of one entry per number. -/
@[simp] theorem tabulate_get {α : Type} {n : Nat} (f : Fin n → α) (i : Fin n) : (tabulate f)[i.1] = f i := by
  simp [tabulate]

/-! ### Folds -/

/-- A fold keeps a view that each of its steps keeps. -/
theorem foldl_keeps {α β γ : Type} (g : β → γ) (f : β → α → β) (h : ∀ b a, g (f b a) = g b) (l : List α) (b : β) :
    g (l.foldl f b) = g b := by
  induction l generalizing b with
  | nil => rfl
  | cons a l ih => rw [List.foldl_cons, ih, h]

/-- A fold keeps a property that each of its steps keeps. -/
theorem foldl_invariant {α β : Type} (p : β → Prop) (f : β → α → β) (h : ∀ b a, p b → p (f b a)) (l : List α) (b : β)
    (hb : p b) : p (l.foldl f b) := by
  induction l generalizing b with
  | nil => exact hb
  | cons a l ih => exact ih _ (h b a hb)

/-- Doing something for every panel keeps a view that it keeps for each. -/
theorem forPanels_keeps {γ : Type} (g : State → γ) (f : Fin 24 → State → State) (h : ∀ p s, g (f p s) = g s) (s : State) :
    g (forPanels f s) = g s := foldl_keeps g _ (fun b a => h a b) _ _

/-! ### Panels and links -/

/-- The record of a panel after one is replaced. -/
theorem setPanel_panel (s : State) (p q : Fin 24) (x : Panel) : (s.setPanel p x).panel q = if p = q then x else s.panel q := by
  simp only [State.setPanel, State.panel, Fin.getElem_fin, upd_get]

/-- The replaced panel record. -/
@[simp] theorem setPanel_same (s : State) (p : Fin 24) (x : Panel) : (s.setPanel p x).panel p = x := by
  simp [setPanel_panel]

/-- Replacing a panel record touches the PNC's panel table only. -/
@[simp] theorem setPanel_frame (s : State) (p : Fin 24) (x : Panel) :
    (s.setPanel p x).control = s.control ∧ (s.setPanel p x).runState = s.runState ∧ (s.setPanel p x).rtu = s.rtu ∧
    (s.setPanel p x).xpe = s.xpe ∧ (s.setPanel p x).tly = s.tly ∧ (s.setPanel p x).tke = s.tke ∧
    (s.setPanel p x).csi = s.csi ∧ (s.setPanel p x).store = s.store ∧ (s.setPanel p x).pending = s.pending ∧
    (s.setPanel p x).freeCount = s.freeCount ∧ (s.setPanel p x).pnc.links = s.pnc.links ∧
    (s.setPanel p x).pnc.mapReads = s.pnc.mapReads ∧ (s.setPanel p x).pnc.flashEnds = s.pnc.flashEnds := by
  simp [State.setPanel]

/-- Replacing the poll state of a link touches the PNC's link table only. -/
@[simp] theorem setLink_frame (s : State) (l : Fin 4) (x : PanelLink) :
    (s.setLink l x).control = s.control ∧ (s.setLink l x).runState = s.runState ∧ (s.setLink l x).rtu = s.rtu ∧
    (s.setLink l x).xpe = s.xpe ∧ (s.setLink l x).tly = s.tly ∧ (s.setLink l x).tke = s.tke ∧
    (s.setLink l x).csi = s.csi ∧ (s.setLink l x).store = s.store ∧ (s.setLink l x).pending = s.pending ∧
    (s.setLink l x).freeCount = s.freeCount ∧ (s.setLink l x).pnc.panels = s.pnc.panels ∧
    (s.setLink l x).pnc.mapReads = s.pnc.mapReads ∧ (s.setLink l x).pnc.flashEnds = s.pnc.flashEnds := by
  simp [State.setLink]

/-- The poll state of a link after one is replaced. -/
theorem setLink_links (s : State) (l k : Fin 4) (x : PanelLink) :
    (s.setLink l x).pnc.links[k] = if l = k then x else s.pnc.links[k] := by
  simp only [State.setLink, Fin.getElem_fin, upd_get]

/-- A panel's record does not depend on the links. -/
@[simp] theorem setLink_panel (s : State) (l : Fin 4) (x : PanelLink) (p : Fin 24) : (s.setLink l x).panel p = s.panel p := rfl

/-! ### Destinations, cues, channels -/

/-- Replacing a destination record touches the XPE's destination table only. -/
@[simp] theorem setDest_frame (s : State) (d : Fin 64) (x : Destination) :
    (s.setDest d x).control = s.control ∧ (s.setDest d x).runState = s.runState ∧ (s.setDest d x).rtu = s.rtu ∧
    (s.setDest d x).tly = s.tly ∧ (s.setDest d x).tke = s.tke ∧ (s.setDest d x).pnc = s.pnc ∧
    (s.setDest d x).csi = s.csi ∧ (s.setDest d x).store = s.store ∧ (s.setDest d x).pending = s.pending ∧
    (s.setDest d x).freeCount = s.freeCount ∧ (s.setDest d x).xpe = { s.xpe with dests := upd s.xpe.dests d x } := by
  simp [State.setDest]

/-- The record of a destination after one is replaced. -/
theorem setDest_dest (s : State) (d e : Fin 64) (x : Destination) : (s.setDest d x).dest e = if d = e then x else s.dest e := by
  simp only [State.setDest, State.dest, Fin.getElem_fin, upd_get]

/-- The replaced destination record. -/
@[simp] theorem setDest_same (s : State) (d : Fin 64) (x : Destination) : (s.setDest d x).dest d = x := by simp [setDest_dest]

/-- Setting the RTU's record. -/
@[simp] theorem setRtu_frame (s : State) (r : Rtu) :
    (s.setRtu r).control = s.control ∧ (s.setRtu r).runState = s.runState ∧ (s.setRtu r).rtu = r ∧
    (s.setRtu r).xpe = s.xpe ∧ (s.setRtu r).tly = s.tly ∧ (s.setRtu r).tke = s.tke ∧ (s.setRtu r).pnc = s.pnc ∧
    (s.setRtu r).csi = s.csi ∧ (s.setRtu r).store = s.store ∧ (s.setRtu r).pending = s.pending ∧
    (s.setRtu r).freeCount = s.freeCount := by
  simp [State.setRtu]

/-- The map entry of a destination after one level's is replaced. -/
theorem setEntry_entry (d : Destination) (l m : Level) (e : MapEntry) : (d.setEntry l e).entry m = if l = m then e else d.entry m := by
  cases l <;> cases m <;> rfl

end Sys2Proof.Machine
end

