-- ==== Sys2Proof/Laws/Frames.lean ====
section
/-! SUPPORT. One frame lemma per shared operation: which parts of the state it leaves unchanged. -/

namespace Sys2Proof.Machine

/-! ### Store, journal and notices -/

/-- What `s.put` leaves unchanged. -/
@[simp] theorem put_frame (s : State) (a : Nat) (bs : List Byte) :
    (s.put a bs).control = s.control ∧ (s.put a bs).runState = s.runState ∧ (s.put a bs).rtu = s.rtu ∧
    (s.put a bs).xpe = s.xpe ∧ (s.put a bs).tly = s.tly ∧ (s.put a bs).tke = s.tke ∧ (s.put a bs).pnc = s.pnc ∧
    (s.put a bs).csi = s.csi ∧ (s.put a bs).pending = s.pending ∧ (s.put a bs).freeCount = s.freeCount := by
  simp [State.put]

/-- What `raise` leaves unchanged. -/
@[simp] theorem raise_frame (n : Notice) (s : State) :
    (raise n s).control = s.control ∧ (raise n s).runState = s.runState ∧ (raise n s).rtu = s.rtu ∧ (raise n s).xpe = s.xpe ∧
    (raise n s).tly = s.tly ∧ (raise n s).tke = s.tke ∧ (raise n s).pnc = s.pnc ∧ (raise n s).store = s.store ∧
    (raise n s).pending = s.pending ∧ (raise n s).freeCount = s.freeCount ∧ (raise n s).csi.anchor = s.csi.anchor ∧
    (raise n s).csi.copy = s.csi.copy ∧ (raise n s).csi.posts = s.csi.posts ∧ (raise n s).csi.running = s.csi.running ∧
    (raise n s).csi.mirror = s.csi.mirror := by
  simp [raise]

/-- What `putRecord` leaves unchanged. -/
@[simp] theorem putRecord_frame (c : AnchorCopy) (rec : List Byte) (s : State) :
    (putRecord c rec s).control = s.control ∧ (putRecord c rec s).runState = s.runState ∧ (putRecord c rec s).rtu = s.rtu ∧
    (putRecord c rec s).xpe = s.xpe ∧ (putRecord c rec s).tly = s.tly ∧ (putRecord c rec s).tke = s.tke ∧
    (putRecord c rec s).pnc = s.pnc ∧ (putRecord c rec s).pending = s.pending ∧ (putRecord c rec s).freeCount = s.freeCount ∧
    (putRecord c rec s).csi.anchor = s.csi.anchor ∧ (putRecord c rec s).csi.copy = s.csi.copy ∧
    (putRecord c rec s).csi.posts = s.csi.posts ∧ (putRecord c rec s).csi.running = s.csi.running ∧
    (putRecord c rec s).csi.mirror = s.csi.mirror := by
  simp only [putRecord]
  split <;> simp

/-- What `setGap` leaves unchanged. -/
@[simp] theorem setGap_frame (c : AnchorCopy) (n : Nat) (sat : Bool) (s : State) :
    (setGap c n sat s).control = s.control ∧ (setGap c n sat s).runState = s.runState ∧ (setGap c n sat s).rtu = s.rtu ∧
    (setGap c n sat s).xpe = s.xpe ∧ (setGap c n sat s).tly = s.tly ∧ (setGap c n sat s).tke = s.tke ∧
    (setGap c n sat s).pnc = s.pnc ∧ (setGap c n sat s).pending = s.pending ∧ (setGap c n sat s).freeCount = s.freeCount ∧
    (setGap c n sat s).csi.anchor = s.csi.anchor ∧ (setGap c n sat s).csi.copy = s.csi.copy ∧
    (setGap c n sat s).csi.posts = s.csi.posts ∧ (setGap c n sat s).csi.running = s.csi.running ∧
    (setGap c n sat s).csi.mirror = s.csi.mirror := by
  simp [setGap]

/-- What `report` leaves unchanged. -/
@[simp] theorem report_frame (r : Report) (f : FrameIndex) (l : Label) (s : State) :
    (report r f l s).control = s.control ∧ (report r f l s).runState = s.runState ∧ (report r f l s).rtu = s.rtu ∧
    (report r f l s).xpe = s.xpe ∧ (report r f l s).tly = s.tly ∧ (report r f l s).tke = s.tke ∧
    (report r f l s).pnc = s.pnc ∧ (report r f l s).pending = s.pending ∧ (report r f l s).freeCount = s.freeCount ∧
    (report r f l s).csi.anchor = s.csi.anchor ∧ (report r f l s).csi.copy = s.csi.copy ∧
    (report r f l s).csi.posts = s.csi.posts ∧ (report r f l s).csi.running = s.csi.running ∧
    (report r f l s).csi.mirror = s.csi.mirror := by
  unfold report
  repeat' split
  all_goals simp

/-- What `reportNow` leaves unchanged. -/
@[simp] theorem reportNow_frame (r : Report) (s : State) :
    (reportNow r s).control = s.control ∧ (reportNow r s).runState = s.runState ∧ (reportNow r s).rtu = s.rtu ∧
    (reportNow r s).xpe = s.xpe ∧ (reportNow r s).tly = s.tly ∧ (reportNow r s).tke = s.tke ∧ (reportNow r s).pnc = s.pnc ∧
    (reportNow r s).pending = s.pending ∧ (reportNow r s).freeCount = s.freeCount ∧
    (reportNow r s).csi.anchor = s.csi.anchor ∧ (reportNow r s).csi.copy = s.csi.copy ∧
    (reportNow r s).csi.posts = s.csi.posts ∧ (reportNow r s).csi.running = s.csi.running ∧
    (reportNow r s).csi.mirror = s.csi.mirror := by
  simp [reportNow]

/-! ### Talk -/

/-- What `deriveSets` leaves unchanged. -/
@[simp] theorem deriveSets_frame (s : State) :
    (deriveSets s).control = s.control ∧ (deriveSets s).runState = s.runState ∧ (deriveSets s).rtu = s.rtu ∧
    (deriveSets s).xpe = s.xpe ∧ (deriveSets s).tly = s.tly ∧ (deriveSets s).pnc = s.pnc ∧ (deriveSets s).csi = s.csi ∧
    (deriveSets s).store = s.store ∧ (deriveSets s).pending = s.pending ∧ (deriveSets s).freeCount = s.freeCount := by
  simp [deriveSets]

/-- What `enterXpts` leaves unchanged. -/
@[simp] theorem enterXpts_frame (s : State) :
    (enterXpts s).control = s.control ∧ (enterXpts s).runState = s.runState ∧ (enterXpts s).rtu = s.rtu ∧
    (enterXpts s).xpe = s.xpe ∧ (enterXpts s).tly = s.tly ∧ (enterXpts s).pnc = s.pnc ∧ (enterXpts s).csi = s.csi ∧
    (enterXpts s).store = s.store ∧ (enterXpts s).pending = s.pending ∧ (enterXpts s).freeCount = s.freeCount := by
  simp [enterXpts]

/-- What `retarget` leaves unchanged. -/
@[simp] theorem retarget_frame (s : State) :
    (retarget s).control = s.control ∧ (retarget s).runState = s.runState ∧ (retarget s).rtu = s.rtu ∧
    (retarget s).xpe = s.xpe ∧ (retarget s).tly = s.tly ∧ (retarget s).pnc = s.pnc ∧ (retarget s).csi = s.csi ∧
    (retarget s).store = s.store ∧ (retarget s).pending = s.pending ∧ (retarget s).freeCount = s.freeCount := by
  simp [retarget]

/-- What `fullRefresh` leaves unchanged. -/
@[simp] theorem fullRefresh_frame (s : State) :
    (fullRefresh s).control = s.control ∧ (fullRefresh s).runState = s.runState ∧ (fullRefresh s).rtu = s.rtu ∧
    (fullRefresh s).xpe = s.xpe ∧ (fullRefresh s).tly = s.tly ∧ (fullRefresh s).pnc = s.pnc ∧ (fullRefresh s).csi = s.csi ∧
    (fullRefresh s).store = s.store ∧ (fullRefresh s).pending = s.pending ∧ (fullRefresh s).freeCount = s.freeCount := by
  simp [fullRefresh]

/-- What `enterFeeds` leaves unchanged. -/
@[simp] theorem enterFeeds_frame (w : Fin 8 → Bool) (s : State) :
    (enterFeeds w s).control = s.control ∧ (enterFeeds w s).runState = s.runState ∧ (enterFeeds w s).rtu = s.rtu ∧
    (enterFeeds w s).xpe = s.xpe ∧ (enterFeeds w s).tly = s.tly ∧ (enterFeeds w s).pnc = s.pnc ∧
    (enterFeeds w s).csi = s.csi ∧ (enterFeeds w s).store = s.store ∧ (enterFeeds w s).pending = s.pending ∧
    (enterFeeds w s).freeCount = s.freeCount := by
  simp [enterFeeds]

/-- What `talkSend` leaves unchanged. -/
@[simp] theorem talkSend_frame (s : State) :
    (talkSend s).control = s.control ∧ (talkSend s).runState = s.runState ∧ (talkSend s).rtu = s.rtu ∧
    (talkSend s).xpe = s.xpe ∧ (talkSend s).tly = s.tly ∧ (talkSend s).pnc = s.pnc ∧ (talkSend s).csi = s.csi ∧
    (talkSend s).store = s.store ∧ (talkSend s).pending = s.pending ∧ (talkSend s).freeCount = s.freeCount := by
  unfold talkSend
  repeat' split
  all_goals simp

/-- What `talkRetry` leaves unchanged. -/
@[simp] theorem talkRetry_frame (s : State) :
    (talkRetry s).control = s.control ∧ (talkRetry s).runState = s.runState ∧ (talkRetry s).rtu = s.rtu ∧
    (talkRetry s).xpe = s.xpe ∧ (talkRetry s).tly = s.tly ∧ (talkRetry s).pnc = s.pnc ∧ (talkRetry s).csi = s.csi ∧
    (talkRetry s).store = s.store ∧ (talkRetry s).pending = s.pending ∧ (talkRetry s).freeCount = s.freeCount := by
  unfold talkRetry
  repeat' split
  all_goals simp

/-- What `evaluateSelectors` leaves unchanged. -/
@[simp] theorem evaluateSelectors_frame (s : State) :
    (evaluateSelectors s).control = s.control ∧ (evaluateSelectors s).runState = s.runState ∧
    (evaluateSelectors s).rtu = s.rtu ∧ (evaluateSelectors s).xpe = s.xpe ∧ (evaluateSelectors s).tly = s.tly ∧
    (evaluateSelectors s).pnc = s.pnc ∧ (evaluateSelectors s).csi = s.csi ∧ (evaluateSelectors s).store = s.store ∧
    (evaluateSelectors s).pending = s.pending ∧ (evaluateSelectors s).freeCount = s.freeCount := by
  simp [evaluateSelectors]

/-- What `landFlight` leaves unchanged. -/
@[simp] theorem landFlight_frame (f : Flight) (s : State) :
    (landFlight f s).control = s.control ∧ (landFlight f s).runState = s.runState ∧ (landFlight f s).rtu = s.rtu ∧
    (landFlight f s).xpe = s.xpe ∧ (landFlight f s).tly = s.tly ∧ (landFlight f s).pnc = s.pnc ∧
    (landFlight f s).csi = s.csi ∧ (landFlight f s).store = s.store ∧ (landFlight f s).pending = s.pending ∧
    (landFlight f s).freeCount = s.freeCount := by
  simp [landFlight]

/-- What `talkLinkUp` leaves unchanged. -/
@[simp] theorem talkLinkUp_frame (s : State) :
    (talkLinkUp s).control = s.control ∧ (talkLinkUp s).runState = s.runState ∧ (talkLinkUp s).rtu = s.rtu ∧
    (talkLinkUp s).xpe = s.xpe ∧ (talkLinkUp s).tly = s.tly ∧ (talkLinkUp s).pnc = s.pnc ∧
    (talkLinkUp s).pending = s.pending ∧ (talkLinkUp s).freeCount = s.freeCount ∧ (talkLinkUp s).csi.anchor = s.csi.anchor ∧
    (talkLinkUp s).csi.copy = s.csi.copy ∧ (talkLinkUp s).csi.posts = s.csi.posts ∧
    (talkLinkUp s).csi.running = s.csi.running ∧ (talkLinkUp s).csi.mirror = s.csi.mirror := by
  simp [talkLinkUp]

/-- What `talkAcknowledged` leaves unchanged. -/
@[simp] theorem talkAcknowledged_frame (s : State) :
    (talkAcknowledged s).control = s.control ∧ (talkAcknowledged s).runState = s.runState ∧
    (talkAcknowledged s).rtu = s.rtu ∧ (talkAcknowledged s).xpe = s.xpe ∧ (talkAcknowledged s).tly = s.tly ∧
    (talkAcknowledged s).pnc = s.pnc ∧ (talkAcknowledged s).pending = s.pending ∧
    (talkAcknowledged s).freeCount = s.freeCount ∧ (talkAcknowledged s).csi.anchor = s.csi.anchor ∧
    (talkAcknowledged s).csi.copy = s.csi.copy ∧ (talkAcknowledged s).csi.posts = s.csi.posts ∧
    (talkAcknowledged s).csi.running = s.csi.running ∧ (talkAcknowledged s).csi.mirror = s.csi.mirror := by
  unfold talkAcknowledged
  repeat' split
  all_goals simp

/-- What `talkFailed` leaves unchanged. -/
@[simp] theorem talkFailed_frame (s : State) :
    (talkFailed s).control = s.control ∧ (talkFailed s).runState = s.runState ∧ (talkFailed s).rtu = s.rtu ∧
    (talkFailed s).xpe = s.xpe ∧ (talkFailed s).tly = s.tly ∧ (talkFailed s).pnc = s.pnc ∧
    (talkFailed s).pending = s.pending ∧ (talkFailed s).freeCount = s.freeCount ∧ (talkFailed s).csi.anchor = s.csi.anchor ∧
    (talkFailed s).csi.copy = s.csi.copy ∧ (talkFailed s).csi.posts = s.csi.posts ∧
    (talkFailed s).csi.running = s.csi.running ∧ (talkFailed s).csi.mirror = s.csi.mirror := by
  unfold talkFailed
  repeat' split
  all_goals simp

/-! ### Lamps and keys -/

/-- What `relight` leaves unchanged. -/
@[simp] theorem relight_frame (p : Fin 24) (w : Fin 48 → Bool) (s : State) :
    (relight p w s).control = s.control ∧ (relight p w s).runState = s.runState ∧ (relight p w s).rtu = s.rtu ∧
    (relight p w s).xpe = s.xpe ∧ (relight p w s).tly = s.tly ∧ (relight p w s).tke = s.tke ∧ (relight p w s).csi = s.csi ∧
    (relight p w s).store = s.store ∧ (relight p w s).pending = s.pending ∧ (relight p w s).freeCount = s.freeCount := by
  simp [relight]

/-- What `derivePanel` leaves unchanged. -/
@[simp] theorem derivePanel_frame (p : Fin 24) (s : State) :
    (derivePanel p s).control = s.control ∧ (derivePanel p s).runState = s.runState ∧ (derivePanel p s).rtu = s.rtu ∧
    (derivePanel p s).xpe = s.xpe ∧ (derivePanel p s).tly = s.tly ∧ (derivePanel p s).tke = s.tke ∧
    (derivePanel p s).csi = s.csi ∧ (derivePanel p s).store = s.store ∧ (derivePanel p s).pending = s.pending ∧
    (derivePanel p s).freeCount = s.freeCount := by
  unfold derivePanel
  repeat' split
  all_goals simp

/-- What `relightTalk` leaves unchanged. -/
@[simp] theorem relightTalk_frame (p : Fin 24) (s : State) :
    (relightTalk p s).control = s.control ∧ (relightTalk p s).runState = s.runState ∧ (relightTalk p s).rtu = s.rtu ∧
    (relightTalk p s).xpe = s.xpe ∧ (relightTalk p s).tly = s.tly ∧ (relightTalk p s).tke = s.tke ∧
    (relightTalk p s).csi = s.csi ∧ (relightTalk p s).store = s.store ∧ (relightTalk p s).pending = s.pending ∧
    (relightTalk p s).freeCount = s.freeCount := by
  unfold relightTalk
  repeat' split
  all_goals simp

/-- What `deriveLamps` leaves unchanged. -/
@[simp] theorem deriveLamps_frame (s : State) :
    (deriveLamps s).control = s.control ∧ (deriveLamps s).runState = s.runState ∧ (deriveLamps s).rtu = s.rtu ∧
    (deriveLamps s).xpe = s.xpe ∧ (deriveLamps s).tly = s.tly ∧ (deriveLamps s).tke = s.tke ∧ (deriveLamps s).csi = s.csi ∧
    (deriveLamps s).store = s.store ∧ (deriveLamps s).pending = s.pending ∧ (deriveLamps s).freeCount = s.freeCount := by
  have h := foldl_keeps (fun x : State => (x.control, x.runState, x.rtu, x.xpe, x.tly, x.tke, x.csi, x.store, x.pending, x.freeCount))
    (fun s p => derivePanel p s) (by intros; simp) (List.finRange 24) s
  simpa [deriveLamps, forPanels] using h

/-- What `idleKeys` leaves unchanged. -/
@[simp] theorem idleKeys_frame (w : Fin 24 → Fin 48 → Bool) (s : State) :
    (idleKeys w s).control = s.control ∧ (idleKeys w s).runState = s.runState ∧ (idleKeys w s).rtu = s.rtu ∧
    (idleKeys w s).xpe = s.xpe ∧ (idleKeys w s).tly = s.tly ∧ (idleKeys w s).pnc = s.pnc ∧ (idleKeys w s).csi = s.csi ∧
    (idleKeys w s).store = s.store ∧ (idleKeys w s).pending = s.pending ∧ (idleKeys w s).freeCount = s.freeCount := by
  simp [idleKeys]

/-- What `derivation` leaves unchanged. -/
@[simp] theorem derivation_frame (s : State) :
    (derivation s).control = s.control ∧ (derivation s).runState = s.runState ∧ (derivation s).rtu = s.rtu ∧
    (derivation s).xpe = s.xpe ∧ (derivation s).tly = s.tly ∧ (derivation s).csi = s.csi ∧ (derivation s).store = s.store ∧
    (derivation s).pending = s.pending ∧ (derivation s).freeCount = s.freeCount := by
  have h := foldl_keeps (fun x : State => (x.control, x.runState, x.rtu, x.xpe, x.tly, x.csi, x.store, x.pending, x.freeCount))
    (fun s p => relightTalk p s) (by intros; simp) (List.finRange 24) (talkSend (enterFeeds (fun _ => true) (enterXpts (deriveSets s))))
  simpa [derivation, forPanels] using h

/-- What `forceOff` leaves unchanged. -/
@[simp] theorem forceOff_frame (w : Fin 24 → Fin 48 → Bool) (s : State) :
    (forceOff w s).control = s.control ∧ (forceOff w s).runState = s.runState ∧ (forceOff w s).rtu = s.rtu ∧
    (forceOff w s).xpe = s.xpe ∧ (forceOff w s).tly = s.tly ∧ (forceOff w s).csi = s.csi ∧ (forceOff w s).store = s.store ∧
    (forceOff w s).pending = s.pending ∧ (forceOff w s).freeCount = s.freeCount := by
  unfold forceOff
  repeat' split
  all_goals simp

/-- What `reselect` leaves unchanged. -/
@[simp] theorem reselect_frame (p : Fin 24) (f : Selection → Selection) (s : State) :
    (reselect p f s).control = s.control ∧ (reselect p f s).runState = s.runState ∧ (reselect p f s).rtu = s.rtu ∧
    (reselect p f s).xpe = s.xpe ∧ (reselect p f s).tly = s.tly ∧ (reselect p f s).tke = s.tke ∧
    (reselect p f s).csi = s.csi ∧ (reselect p f s).store = s.store ∧ (reselect p f s).pending = s.pending ∧
    (reselect p f s).freeCount = s.freeCount := by
  simp [reselect]

/-- What `breakGuard` leaves unchanged. -/
@[simp] theorem breakGuard_frame (p : Fin 24) (s : State) :
    (breakGuard p s).control = s.control ∧ (breakGuard p s).runState = s.runState ∧ (breakGuard p s).rtu = s.rtu ∧
    (breakGuard p s).xpe = s.xpe ∧ (breakGuard p s).tly = s.tly ∧ (breakGuard p s).tke = s.tke ∧ (breakGuard p s).csi = s.csi ∧
    (breakGuard p s).store = s.store ∧ (breakGuard p s).pending = s.pending ∧ (breakGuard p s).freeCount = s.freeCount := by
  simp [breakGuard]

/-- What `takeNotice` leaves unchanged. -/
@[simp] theorem takeNotice_frame (o : Owner) (d : Fin 64) (s : State) :
    (takeNotice o d s).control = s.control ∧ (takeNotice o d s).runState = s.runState ∧ (takeNotice o d s).rtu = s.rtu ∧
    (takeNotice o d s).xpe = s.xpe ∧ (takeNotice o d s).tly = s.tly ∧ (takeNotice o d s).tke = s.tke ∧
    (takeNotice o d s).csi = s.csi ∧ (takeNotice o d s).store = s.store ∧ (takeNotice o d s).pending = s.pending ∧
    (takeNotice o d s).freeCount = s.freeCount := by
  have h := foldl_keeps (fun x : State => (x.control, x.runState, x.rtu, x.xpe, x.tly, x.tke, x.csi, x.store, x.pending, x.freeCount))
    (fun s p => if s.guardBroken d o p then breakGuard p s else s) (by intros; split <;> simp) (List.finRange 24) s
  simpa [takeNotice, forPanels] using h

/-- What `refuseKey` leaves unchanged. -/
@[simp] theorem refuseKey_frame (p : Fin 24) (k : Fin 48) (c : Code) (s : State) :
    (refuseKey p k c s).control = s.control ∧ (refuseKey p k c s).runState = s.runState ∧ (refuseKey p k c s).rtu = s.rtu ∧
    (refuseKey p k c s).xpe = s.xpe ∧ (refuseKey p k c s).tly = s.tly ∧ (refuseKey p k c s).tke = s.tke ∧
    (refuseKey p k c s).pending = s.pending ∧ (refuseKey p k c s).freeCount = s.freeCount ∧
    (refuseKey p k c s).csi.anchor = s.csi.anchor ∧ (refuseKey p k c s).csi.copy = s.csi.copy ∧
    (refuseKey p k c s).csi.posts = s.csi.posts ∧ (refuseKey p k c s).csi.running = s.csi.running ∧
    (refuseKey p k c s).csi.mirror = s.csi.mirror := by
  simp [refuseKey]

/-! ### Destinations, takes and the map -/

/-- What `requestProtect` leaves unchanged. -/
@[simp] theorem requestProtect_frame (d : Fin 64) (r : Requester) (s : State) :
    ((requestProtect d r s).1).control = s.control ∧ ((requestProtect d r s).1).runState = s.runState ∧
    ((requestProtect d r s).1).rtu = s.rtu ∧ ((requestProtect d r s).1).tly = s.tly ∧
    ((requestProtect d r s).1).tke = s.tke ∧ ((requestProtect d r s).1).pnc = s.pnc ∧
    ((requestProtect d r s).1).pending = s.pending ∧ ((requestProtect d r s).1).freeCount = s.freeCount ∧
    ((requestProtect d r s).1).csi.anchor = s.csi.anchor ∧ ((requestProtect d r s).1).csi.copy = s.csi.copy ∧
    ((requestProtect d r s).1).csi.posts = s.csi.posts ∧ ((requestProtect d r s).1).csi.running = s.csi.running ∧
    ((requestProtect d r s).1).csi.mirror = s.csi.mirror := by
  unfold requestProtect
  repeat' split
  all_goals simp

/-- What `requestRelease` leaves unchanged. -/
@[simp] theorem requestRelease_frame (d : Fin 64) (r : Requester) (s : State) :
    ((requestRelease d r s).1).control = s.control ∧ ((requestRelease d r s).1).runState = s.runState ∧
    ((requestRelease d r s).1).rtu = s.rtu ∧ ((requestRelease d r s).1).tly = s.tly ∧
    ((requestRelease d r s).1).tke = s.tke ∧ ((requestRelease d r s).1).pnc = s.pnc ∧
    ((requestRelease d r s).1).pending = s.pending ∧ ((requestRelease d r s).1).freeCount = s.freeCount ∧
    ((requestRelease d r s).1).csi.anchor = s.csi.anchor ∧ ((requestRelease d r s).1).csi.copy = s.csi.copy ∧
    ((requestRelease d r s).1).csi.posts = s.csi.posts ∧ ((requestRelease d r s).1).csi.running = s.csi.running ∧
    ((requestRelease d r s).1).csi.mirror = s.csi.mirror := by
  unfold requestRelease
  repeat' split
  all_goals simp

/-- What `demoteDest` leaves unchanged. -/
@[simp] theorem demoteDest_frame (p : Fin 24) (l : Fin 4) (d : Fin 64) (s : State) :
    (demoteDest p l d s).control = s.control ∧ (demoteDest p l d s).runState = s.runState ∧
    (demoteDest p l d s).rtu = s.rtu ∧ (demoteDest p l d s).tly = s.tly ∧ (demoteDest p l d s).tke = s.tke ∧
    (demoteDest p l d s).pnc = s.pnc ∧ (demoteDest p l d s).pending = s.pending ∧
    (demoteDest p l d s).freeCount = s.freeCount ∧ (demoteDest p l d s).csi.anchor = s.csi.anchor ∧
    (demoteDest p l d s).csi.copy = s.csi.copy ∧ (demoteDest p l d s).csi.posts = s.csi.posts ∧
    (demoteDest p l d s).csi.running = s.csi.running ∧ (demoteDest p l d s).csi.mirror = s.csi.mirror := by
  unfold demoteDest
  repeat' split
  all_goals simp

/-- What `demote` leaves unchanged. -/
@[simp] theorem demote_frame (p : Fin 24) (l : Fin 4) (s : State) :
    (demote p l s).control = s.control ∧ (demote p l s).runState = s.runState ∧ (demote p l s).rtu = s.rtu ∧
    (demote p l s).tly = s.tly ∧ (demote p l s).tke = s.tke ∧ (demote p l s).pnc = s.pnc ∧
    (demote p l s).pending = s.pending ∧ (demote p l s).freeCount = s.freeCount ∧ (demote p l s).csi.anchor = s.csi.anchor ∧
    (demote p l s).csi.copy = s.csi.copy ∧ (demote p l s).csi.posts = s.csi.posts ∧
    (demote p l s).csi.running = s.csi.running ∧ (demote p l s).csi.mirror = s.csi.mirror := by
  have h := foldl_keeps (fun x : State => (x.control, x.runState, x.rtu, x.tly, x.tke, x.pnc, x.pending, x.freeCount, x.csi.anchor, x.csi.copy, x.csi.posts, x.csi.running, x.csi.mirror))
    (fun s d => demoteDest p l d s) (by intros; simp) (List.finRange 64) s
  simpa [demote] using h

/-- What `takeDone` leaves unchanged. -/
@[simp] theorem takeDone_frame (r : Requester) (x : Crosspoint) (o : TakeOutcome) (n : Nat) (s : State) :
    (takeDone r x o n s).control = s.control ∧ (takeDone r x o n s).runState = s.runState ∧
    (takeDone r x o n s).rtu = s.rtu ∧ (takeDone r x o n s).xpe = s.xpe ∧ (takeDone r x o n s).tly = s.tly ∧
    (takeDone r x o n s).tke = s.tke ∧ (takeDone r x o n s).pnc = s.pnc ∧ (takeDone r x o n s).pending = s.pending ∧
    (takeDone r x o n s).freeCount = s.freeCount ∧ (takeDone r x o n s).csi.anchor = s.csi.anchor ∧
    (takeDone r x o n s).csi.copy = s.csi.copy ∧ (takeDone r x o n s).csi.posts = s.csi.posts ∧
    (takeDone r x o n s).csi.running = s.csi.running ∧ (takeDone r x o n s).csi.mirror = s.csi.mirror := by
  unfold takeDone
  repeat' split
  all_goals simp

/-- What `admitUnit` leaves unchanged. -/
@[simp] theorem admitUnit_frame (u : TakeUnit) (s : State) :
    ((admitUnit u s).1).control = s.control ∧ ((admitUnit u s).1).runState = s.runState ∧ ((admitUnit u s).1).rtu = s.rtu ∧
    ((admitUnit u s).1).tly = s.tly ∧ ((admitUnit u s).1).tke = s.tke ∧ ((admitUnit u s).1).pending = s.pending ∧
    ((admitUnit u s).1).freeCount = s.freeCount ∧ ((admitUnit u s).1).csi.anchor = s.csi.anchor ∧
    ((admitUnit u s).1).csi.copy = s.csi.copy ∧ ((admitUnit u s).1).csi.posts = s.csi.posts ∧
    ((admitUnit u s).1).csi.running = s.csi.running ∧ ((admitUnit u s).1).csi.mirror = s.csi.mirror := by
  have h1 := fun (l : List (TakeUnit × Crosspoint)) (b : State) => foldl_keeps
    (fun x : State => (x.control, x.runState, x.rtu, x.tly, x.tke, x.pending, x.freeCount, x.csi.anchor, x.csi.copy, x.csi.posts,
      x.csi.running, x.csi.mirror)) (fun s e => takeDone e.1.requester e.2 .superseded 0 s) (by intros; simp) l b
  have h2 := fun (l : List (Fin 64)) (b : State) => foldl_keeps
    (fun x : State => (x.control, x.runState, x.rtu, x.tly, x.tke, x.pending, x.freeCount, x.csi.anchor, x.csi.copy, x.csi.posts,
      x.csi.running, x.csi.mirror)) (fun s d => takeNotice u.requester.owner d s) (by intros; simp) l b
  simp only [Prod.mk.injEq] at h1 h2
  unfold admitUnit
  split
  · simp
  · simp [h1, h2]

/-- What `requestTake` leaves unchanged. -/
@[simp] theorem requestTake_frame (d : Fin 64) (m : LevelMask) (x : Source) (fm : Option DueForm) (r : Requester) (c : Cause) (s : State) :
    ((requestTake d m x fm r c s).1).control = s.control ∧ ((requestTake d m x fm r c s).1).runState = s.runState ∧
    ((requestTake d m x fm r c s).1).rtu = s.rtu ∧ ((requestTake d m x fm r c s).1).tly = s.tly ∧
    ((requestTake d m x fm r c s).1).tke = s.tke ∧ ((requestTake d m x fm r c s).1).pending = s.pending ∧
    ((requestTake d m x fm r c s).1).freeCount = s.freeCount ∧ ((requestTake d m x fm r c s).1).csi.anchor = s.csi.anchor ∧
    ((requestTake d m x fm r c s).1).csi.copy = s.csi.copy ∧ ((requestTake d m x fm r c s).1).csi.posts = s.csi.posts ∧
    ((requestTake d m x fm r c s).1).csi.running = s.csi.running ∧
    ((requestTake d m x fm r c s).1).csi.mirror = s.csi.mirror := by
  simp only [requestTake, withCount]
  repeat' split
  all_goals simp

/-- What `cancelEntries` leaves unchanged. -/
@[simp] theorem cancelEntries_frame (d : Fin 64) (m : LevelMask) (s : State) :
    ((cancelEntries d m s).1).control = s.control ∧ ((cancelEntries d m s).1).runState = s.runState ∧
    ((cancelEntries d m s).1).rtu = s.rtu ∧ ((cancelEntries d m s).1).tly = s.tly ∧ ((cancelEntries d m s).1).tke = s.tke ∧
    ((cancelEntries d m s).1).pnc = s.pnc ∧ ((cancelEntries d m s).1).pending = s.pending ∧
    ((cancelEntries d m s).1).freeCount = s.freeCount ∧ ((cancelEntries d m s).1).csi.anchor = s.csi.anchor ∧
    ((cancelEntries d m s).1).csi.copy = s.csi.copy ∧ ((cancelEntries d m s).1).csi.posts = s.csi.posts ∧
    ((cancelEntries d m s).1).csi.running = s.csi.running ∧ ((cancelEntries d m s).1).csi.mirror = s.csi.mirror := by
  have h1 := fun (l : List (TakeUnit × Crosspoint)) (b : State) => foldl_keeps
    (fun x : State => (x.control, x.runState, x.rtu, x.tly, x.tke, x.pnc, x.pending, x.freeCount, x.csi.anchor, x.csi.copy, x.csi.posts,
      x.csi.running, x.csi.mirror)) (fun s e => takeDone e.1.requester e.2 .cancelled 0 s) (by intros; simp) l b
  simp only [Prod.mk.injEq] at h1
  simp [cancelEntries, h1]

/-- What `decideSalvo` leaves unchanged. -/
@[simp] theorem decideSalvo_frame (es : List Crosspoint) (due : Option FrameIndex) (r : Requester) (c : Cause) (n : Option (Fin 16)) (s : State) :
    ((decideSalvo es due r c n s).1).control = s.control ∧ ((decideSalvo es due r c n s).1).runState = s.runState ∧
    ((decideSalvo es due r c n s).1).rtu = s.rtu ∧ ((decideSalvo es due r c n s).1).tly = s.tly ∧
    ((decideSalvo es due r c n s).1).tke = s.tke ∧ ((decideSalvo es due r c n s).1).pending = s.pending ∧
    ((decideSalvo es due r c n s).1).freeCount = s.freeCount ∧ ((decideSalvo es due r c n s).1).csi.anchor = s.csi.anchor ∧
    ((decideSalvo es due r c n s).1).csi.copy = s.csi.copy ∧ ((decideSalvo es due r c n s).1).csi.posts = s.csi.posts ∧
    ((decideSalvo es due r c n s).1).csi.running = s.csi.running ∧
    ((decideSalvo es due r c n s).1).csi.mirror = s.csi.mirror := by
  simp only [decideSalvo, withCount]
  repeat' split
  all_goals simp

/-- What `unitDone` leaves unchanged. -/
@[simp] theorem unitDone_frame (o : TakeOutcome) (u : TakeUnit) (s : State) :
    (unitDone o u s).control = s.control ∧ (unitDone o u s).runState = s.runState ∧ (unitDone o u s).rtu = s.rtu ∧
    (unitDone o u s).xpe = s.xpe ∧ (unitDone o u s).tly = s.tly ∧ (unitDone o u s).tke = s.tke ∧
    (unitDone o u s).pnc = s.pnc ∧ (unitDone o u s).pending = s.pending ∧ (unitDone o u s).freeCount = s.freeCount ∧
    (unitDone o u s).csi.anchor = s.csi.anchor ∧ (unitDone o u s).csi.copy = s.csi.copy ∧
    (unitDone o u s).csi.posts = s.csi.posts ∧ (unitDone o u s).csi.running = s.csi.running ∧
    (unitDone o u s).csi.mirror = s.csi.mirror := by
  have h := foldl_keeps (fun x : State => (x.control, x.runState, x.rtu, x.xpe, x.tly, x.tke, x.pnc, x.pending, x.freeCount, x.csi.anchor, x.csi.copy, x.csi.posts, x.csi.running, x.csi.mirror))
    (fun s x => takeDone u.requester x o 0 s) (by intros; simp) u.entries s
  simpa [unitDone] using h

/-- What `load` leaves unchanged. -/
@[simp] theorem load_frame (k : FrameIndex) (s : State) :
    (load k s).control = s.control ∧ (load k s).runState = s.runState ∧ (load k s).rtu = s.rtu ∧ (load k s).tly = s.tly ∧
    (load k s).tke = s.tke ∧ (load k s).pnc = s.pnc ∧ (load k s).pending = s.pending ∧ (load k s).freeCount = s.freeCount ∧
    (load k s).csi.anchor = s.csi.anchor ∧ (load k s).csi.copy = s.csi.copy ∧ (load k s).csi.posts = s.csi.posts ∧
    (load k s).csi.running = s.csi.running ∧ (load k s).csi.mirror = s.csi.mirror := by
  have h1 := fun (l : List TakeUnit) (b : State) => foldl_keeps
    (fun x : State => (x.control, x.runState, x.rtu, x.tly, x.tke, x.pnc, x.pending, x.freeCount, x.csi.anchor, x.csi.copy, x.csi.posts,
      x.csi.running, x.csi.mirror)) (fun s u => unitDone .protectFailed u s) (by intros; simp) l b
  simp only [Prod.mk.injEq] at h1
  simp only [load]
  split
  · simp [h1]
  · simp

/-- What `setMapEntry` leaves unchanged. -/
@[simp] theorem setMapEntry_frame (d : Fin 64) (l : Level) (e : MapEntry) (c : Cause) (s : State) :
    (setMapEntry d l e c s).control = s.control ∧ (setMapEntry d l e c s).runState = s.runState ∧
    (setMapEntry d l e c s).rtu = s.rtu ∧ (setMapEntry d l e c s).tly = s.tly ∧ (setMapEntry d l e c s).tke = s.tke ∧
    (setMapEntry d l e c s).pnc = s.pnc ∧ (setMapEntry d l e c s).pending = s.pending ∧
    (setMapEntry d l e c s).freeCount = s.freeCount ∧ (setMapEntry d l e c s).csi.anchor = s.csi.anchor ∧
    (setMapEntry d l e c s).csi.copy = s.csi.copy ∧ (setMapEntry d l e c s).csi.posts = s.csi.posts ∧
    (setMapEntry d l e c s).csi.running = s.csi.running ∧ (setMapEntry d l e c s).csi.mirror = s.csi.mirror := by
  simp only [setMapEntry]
  split <;> simp

/-- What `mapMismatch` leaves unchanged. -/
@[simp] theorem mapMismatch_frame (d : Fin 64) (l : Level) (a : Option Source) (x : Byte) (c : Cause) (s : State) :
    (mapMismatch d l a x c s).control = s.control ∧ (mapMismatch d l a x c s).runState = s.runState ∧
    (mapMismatch d l a x c s).rtu = s.rtu ∧ (mapMismatch d l a x c s).tly = s.tly ∧ (mapMismatch d l a x c s).tke = s.tke ∧
    (mapMismatch d l a x c s).pnc = s.pnc ∧ (mapMismatch d l a x c s).pending = s.pending ∧
    (mapMismatch d l a x c s).freeCount = s.freeCount ∧ (mapMismatch d l a x c s).csi.anchor = s.csi.anchor ∧
    (mapMismatch d l a x c s).csi.copy = s.csi.copy ∧ (mapMismatch d l a x c s).csi.posts = s.csi.posts ∧
    (mapMismatch d l a x c s).csi.running = s.csi.running ∧ (mapMismatch d l a x c s).csi.mirror = s.csi.mirror := by
  simp [mapMismatch]

/-- What `settleArmed` leaves unchanged. -/
@[simp] theorem settleArmed_frame (ls : List ReportLine) (a : ArmedEntry) (s : State) :
    (settleArmed ls a s).control = s.control ∧ (settleArmed ls a s).runState = s.runState ∧
    (settleArmed ls a s).rtu = s.rtu ∧ (settleArmed ls a s).tly = s.tly ∧ (settleArmed ls a s).tke = s.tke ∧
    (settleArmed ls a s).pnc = s.pnc ∧ (settleArmed ls a s).pending = s.pending ∧
    (settleArmed ls a s).freeCount = s.freeCount ∧ (settleArmed ls a s).csi.anchor = s.csi.anchor ∧
    (settleArmed ls a s).csi.copy = s.csi.copy ∧ (settleArmed ls a s).csi.posts = s.csi.posts ∧
    (settleArmed ls a s).csi.running = s.csi.running ∧ (settleArmed ls a s).csi.mirror = s.csi.mirror := by
  unfold settleArmed
  repeat' split
  all_goals simp

/-- What `doubtMap` leaves unchanged. -/
@[simp] theorem doubtMap_frame (s : State) :
    (doubtMap s).control = s.control ∧ (doubtMap s).runState = s.runState ∧ (doubtMap s).rtu = s.rtu ∧
    (doubtMap s).tly = s.tly ∧ (doubtMap s).tke = s.tke ∧ (doubtMap s).pnc = s.pnc ∧ (doubtMap s).csi = s.csi ∧
    (doubtMap s).store = s.store ∧ (doubtMap s).pending = s.pending ∧ (doubtMap s).freeCount = s.freeCount := by
  simp [doubtMap]

/-! ### Strips and the salvo reader -/

/-- What `writeSlotState` leaves unchanged. -/
@[simp] theorem writeSlotState_frame (n : Fin 8) (x : Byte) (s : State) :
    (writeSlotState n x s).control = s.control ∧ (writeSlotState n x s).runState = s.runState ∧
    (writeSlotState n x s).rtu = s.rtu ∧ (writeSlotState n x s).xpe = s.xpe ∧ (writeSlotState n x s).tly = s.tly ∧
    (writeSlotState n x s).tke = s.tke ∧ (writeSlotState n x s).pnc = s.pnc ∧ (writeSlotState n x s).csi = s.csi ∧
    (writeSlotState n x s).pending = s.pending ∧ (writeSlotState n x s).freeCount = s.freeCount := by
  unfold writeSlotState
  repeat' split
  all_goals simp

/-- What `writeCounts` leaves unchanged. -/
@[simp] theorem writeCounts_frame (n : Fin 8) (a b : Nat) (s : State) :
    (writeCounts n a b s).control = s.control ∧ (writeCounts n a b s).runState = s.runState ∧
    (writeCounts n a b s).rtu = s.rtu ∧ (writeCounts n a b s).xpe = s.xpe ∧ (writeCounts n a b s).tly = s.tly ∧
    (writeCounts n a b s).tke = s.tke ∧ (writeCounts n a b s).pnc = s.pnc ∧ (writeCounts n a b s).csi = s.csi ∧
    (writeCounts n a b s).pending = s.pending ∧ (writeCounts n a b s).freeCount = s.freeCount := by
  unfold writeCounts
  repeat' split
  all_goals simp

/-- What a run of writes to the common store leaves unchanged. -/
@[simp] theorem withWrites_frame (s : State) (w : List Host.Cell) :
    (s.withWrites w).control = s.control ∧ (s.withWrites w).runState = s.runState ∧ (s.withWrites w).rtu = s.rtu ∧
    (s.withWrites w).xpe = s.xpe ∧ (s.withWrites w).tly = s.tly ∧ (s.withWrites w).tke = s.tke ∧
    (s.withWrites w).pnc = s.pnc ∧ (s.withWrites w).csi = s.csi ∧ (s.withWrites w).store = hostWrite s.store w ∧
    (s.withWrites w).pending = s.pending ∧ (s.withWrites w).freeCount = s.freeCount := by
  simp [State.withWrites]

/-- While nothing is being read, a run of writes changes the common store alone. -/
theorem withWrites_idle {s : State} (w : List Host.Cell) (h : s.reading = false) :
    s.withWrites w = { s with store := hostWrite s.store w } := by
  simp [State.withWrites, h]

/-- What `writeOutcome` leaves unchanged. -/
@[simp] theorem writeOutcome_frame (a : Nat) (c : Code) (n : Nat) (f : FrameIndex) (s : State) :
    (writeOutcome a c n f s).control = s.control ∧ (writeOutcome a c n f s).runState = s.runState ∧
    (writeOutcome a c n f s).rtu = s.rtu ∧ (writeOutcome a c n f s).xpe = s.xpe ∧ (writeOutcome a c n f s).tly = s.tly ∧
    (writeOutcome a c n f s).tke = s.tke ∧ (writeOutcome a c n f s).pnc = s.pnc ∧ (writeOutcome a c n f s).csi = s.csi ∧
    (writeOutcome a c n f s).pending = s.pending ∧ (writeOutcome a c n f s).freeCount = s.freeCount := by
  simp [writeOutcome]

/-- What `writeOutcomes` leaves unchanged. -/
@[simp] theorem writeOutcomes_frame (p : Posted) (c : Code) (n : Nat) (f : FrameIndex) (i k : Nat) (s : State) :
    (writeOutcomes p c n f i k s).control = s.control ∧ (writeOutcomes p c n f i k s).runState = s.runState ∧
    (writeOutcomes p c n f i k s).rtu = s.rtu ∧ (writeOutcomes p c n f i k s).xpe = s.xpe ∧
    (writeOutcomes p c n f i k s).tly = s.tly ∧ (writeOutcomes p c n f i k s).tke = s.tke ∧
    (writeOutcomes p c n f i k s).pnc = s.pnc ∧ (writeOutcomes p c n f i k s).csi = s.csi ∧
    (writeOutcomes p c n f i k s).pending = s.pending ∧ (writeOutcomes p c n f i k s).freeCount = s.freeCount := by
  induction k generalizing i s with
  | zero => simp [writeOutcomes]
  | succ k ih => simp [writeOutcomes, ih]

/-- What `slotDone` leaves unchanged. -/
@[simp] theorem slotDone_frame (n : Fin 8) (s : State) :
    (slotDone n s).control = s.control ∧ (slotDone n s).runState = s.runState ∧ (slotDone n s).rtu = s.rtu ∧
    (slotDone n s).xpe = s.xpe ∧ (slotDone n s).tly = s.tly ∧ (slotDone n s).tke = s.tke ∧ (slotDone n s).pnc = s.pnc ∧
    (slotDone n s).pending = s.pending ∧ (slotDone n s).freeCount = s.freeCount ∧ (slotDone n s).csi.anchor = s.csi.anchor ∧
    (slotDone n s).csi.copy = s.csi.copy ∧ (slotDone n s).csi.posts = s.csi.posts ∧
    (slotDone n s).csi.running = s.csi.running ∧ (slotDone n s).csi.mirror = s.csi.mirror := by
  simp [slotDone]

/-- What `endStrip` leaves unchanged. -/
@[simp] theorem endStrip_frame (r : Running) (s : State) :
    (endStrip r s).control = s.control ∧ (endStrip r s).runState = s.runState ∧ (endStrip r s).rtu = s.rtu ∧
    (endStrip r s).xpe = s.xpe ∧ (endStrip r s).tly = s.tly ∧ (endStrip r s).tke = s.tke ∧ (endStrip r s).pnc = s.pnc ∧
    (endStrip r s).pending = s.pending ∧ (endStrip r s).freeCount = s.freeCount ∧ (endStrip r s).csi.anchor = s.csi.anchor ∧
    (endStrip r s).csi.copy = s.csi.copy ∧ (endStrip r s).csi.posts = s.csi.posts ∧
    (endStrip r s).csi.mirror = s.csi.mirror ∧ (endStrip r s).csi.running = none := by
  simp [endStrip]

/-- What `endWith` leaves unchanged. -/
@[simp] theorem endWith_frame (c : Code) (r : Running) (s : State) :
    (endWith c r s).control = s.control ∧ (endWith c r s).runState = s.runState ∧ (endWith c r s).rtu = s.rtu ∧
    (endWith c r s).xpe = s.xpe ∧ (endWith c r s).tly = s.tly ∧ (endWith c r s).tke = s.tke ∧ (endWith c r s).pnc = s.pnc ∧
    (endWith c r s).pending = s.pending ∧ (endWith c r s).freeCount = s.freeCount ∧
    (endWith c r s).csi.anchor = s.csi.anchor ∧ (endWith c r s).csi.copy = s.csi.copy ∧
    (endWith c r s).csi.posts = s.csi.posts ∧ (endWith c r s).csi.mirror = s.csi.mirror ∧
    (endWith c r s).csi.running = none := by
  simp [endWith]

/-- What `finishOrder` leaves unchanged. -/
@[simp] theorem finishOrder_frame (r : Running) (c : Code) (n : Nat) (f : FrameIndex) (s : State) :
    (finishOrder r c n f s).control = s.control ∧ (finishOrder r c n f s).runState = s.runState ∧
    (finishOrder r c n f s).rtu = s.rtu ∧ (finishOrder r c n f s).xpe = s.xpe ∧ (finishOrder r c n f s).tly = s.tly ∧
    (finishOrder r c n f s).tke = s.tke ∧ (finishOrder r c n f s).pnc = s.pnc ∧ (finishOrder r c n f s).pending = s.pending ∧
    (finishOrder r c n f s).freeCount = s.freeCount ∧ (finishOrder r c n f s).csi.anchor = s.csi.anchor ∧
    (finishOrder r c n f s).csi.copy = s.csi.copy ∧ (finishOrder r c n f s).csi.posts = s.csi.posts ∧
    (finishOrder r c n f s).csi.mirror = s.csi.mirror := by
  simp only [finishOrder]
  repeat' split
  all_goals simp

/-- What `markWaiting` leaves unchanged. -/
@[simp] theorem markWaiting_frame (s : State) :
    (markWaiting s).control = s.control ∧ (markWaiting s).runState = s.runState ∧ (markWaiting s).rtu = s.rtu ∧
    (markWaiting s).xpe = s.xpe ∧ (markWaiting s).tly = s.tly ∧ (markWaiting s).tke = s.tke ∧ (markWaiting s).pnc = s.pnc ∧
    (markWaiting s).store = s.store ∧ (markWaiting s).pending = s.pending ∧ (markWaiting s).freeCount = s.freeCount ∧
    (markWaiting s).csi.anchor = s.csi.anchor ∧ (markWaiting s).csi.copy = s.csi.copy ∧
    (markWaiting s).csi.posts = s.csi.posts ∧ (markWaiting s).csi.mirror = s.csi.mirror := by
  simp [markWaiting]

/-- What `fireOutcome` leaves unchanged. -/
@[simp] theorem fireOutcome_frame (q : FireRequest) (c : Code) (n : Nat) (s : State) :
    (fireOutcome q c n s).control = s.control ∧ (fireOutcome q c n s).runState = s.runState ∧
    (fireOutcome q c n s).rtu = s.rtu ∧ (fireOutcome q c n s).xpe = s.xpe ∧ (fireOutcome q c n s).tly = s.tly ∧
    (fireOutcome q c n s).tke = s.tke ∧ (fireOutcome q c n s).pending = s.pending ∧
    (fireOutcome q c n s).freeCount = s.freeCount ∧ (fireOutcome q c n s).csi.anchor = s.csi.anchor ∧
    (fireOutcome q c n s).csi.copy = s.csi.copy ∧ (fireOutcome q c n s).csi.posts = s.csi.posts ∧
    (fireOutcome q c n s).csi.mirror = s.csi.mirror := by
  unfold fireOutcome
  repeat' split
  all_goals simp

/-- What `beginReads` leaves unchanged. -/
@[simp] theorem beginReads_frame (qs : List FireRequest) (s : State) :
    (beginReads qs s).control = s.control ∧ (beginReads qs s).runState = s.runState ∧ (beginReads qs s).rtu = s.rtu ∧
    (beginReads qs s).tly = s.tly ∧ (beginReads qs s).tke = s.tke ∧ (beginReads qs s).pending = s.pending ∧
    (beginReads qs s).freeCount = s.freeCount ∧ (beginReads qs s).csi.anchor = s.csi.anchor ∧
    (beginReads qs s).csi.copy = s.csi.copy ∧ (beginReads qs s).csi.posts = s.csi.posts ∧
    (beginReads qs s).csi.mirror = s.csi.mirror := by
  induction qs generalizing s with
  | nil => simp [beginReads]
  | cons q qs ih =>
    unfold beginReads
    repeat' split
    all_goals simp [ih]

/-- What `fire` leaves unchanged. -/
@[simp] theorem fire_frame (q : FireRequest) (s : State) :
    (fire q s).control = s.control ∧ (fire q s).runState = s.runState ∧ (fire q s).rtu = s.rtu ∧ (fire q s).tly = s.tly ∧
    (fire q s).tke = s.tke ∧ (fire q s).pending = s.pending ∧ (fire q s).freeCount = s.freeCount ∧
    (fire q s).csi.anchor = s.csi.anchor ∧ (fire q s).csi.copy = s.csi.copy ∧ (fire q s).csi.posts = s.csi.posts ∧
    (fire q s).csi.mirror = s.csi.mirror := by
  unfold fire
  repeat' split
  all_goals simp

/-- What `decideRead` leaves unchanged. -/
@[simp] theorem decideRead_frame (x : SalvoRead) (l : List RawTake) (s : State) :
    ((decideRead x l s).1).control = s.control ∧ ((decideRead x l s).1).runState = s.runState ∧
    ((decideRead x l s).1).rtu = s.rtu ∧ ((decideRead x l s).1).tly = s.tly ∧ ((decideRead x l s).1).tke = s.tke ∧
    ((decideRead x l s).1).pending = s.pending ∧ ((decideRead x l s).1).freeCount = s.freeCount ∧
    ((decideRead x l s).1).csi.anchor = s.csi.anchor ∧ ((decideRead x l s).1).csi.copy = s.csi.copy ∧
    ((decideRead x l s).1).csi.posts = s.csi.posts ∧ ((decideRead x l s).1).csi.running = s.csi.running ∧
    ((decideRead x l s).1).csi.mirror = s.csi.mirror := by
  simp only [decideRead]
  split <;> simp

/-- What the end of a read leaves unchanged. -/
@[simp] theorem readOver_frame (s : State) :
    s.readOver.control = s.control ∧ s.readOver.runState = s.runState ∧ s.readOver.rtu = s.rtu ∧ s.readOver.xpe = s.xpe ∧
    s.readOver.tly = s.tly ∧ s.readOver.tke = s.tke ∧ s.readOver.pnc = s.pnc ∧ s.readOver.csi = s.csi ∧
    s.readOver.store = s.store ∧ s.readOver.pending = s.pending ∧ s.readOver.freeCount = s.freeCount + 1 := by
  simp [State.readOver]

/-- What `finishRead` leaves unchanged. -/
@[simp] theorem finishRead_frame (s : State) :
    (finishRead s).control = s.control ∧ (finishRead s).runState = s.runState ∧ (finishRead s).rtu = s.rtu ∧
    (finishRead s).tly = s.tly ∧ (finishRead s).tke = s.tke ∧ (finishRead s).pending = s.pending ∧
    (finishRead s).csi.anchor = s.csi.anchor ∧
    (finishRead s).csi.copy = s.csi.copy ∧ (finishRead s).csi.posts = s.csi.posts ∧
    (finishRead s).csi.mirror = s.csi.mirror := by
  simp only [finishRead]
  split <;> simp

/-! ### Panels -/

/-- What `leaveOnline` leaves unchanged. -/
@[simp] theorem leaveOnline_frame (p : Fin 24) (s : State) :
    (leaveOnline p s).control = s.control ∧ (leaveOnline p s).runState = s.runState ∧ (leaveOnline p s).rtu = s.rtu ∧
    (leaveOnline p s).xpe = s.xpe ∧ (leaveOnline p s).tly = s.tly ∧ (leaveOnline p s).csi = s.csi ∧
    (leaveOnline p s).store = s.store ∧ (leaveOnline p s).pending = s.pending ∧
    (leaveOnline p s).freeCount = s.freeCount := by
  simp [leaveOnline]

/-- What `changePanel` leaves unchanged. -/
@[simp] theorem changePanel_frame (p : Fin 24) (st : PanelState) (s : State) :
    (changePanel p st s).control = s.control ∧ (changePanel p st s).runState = s.runState ∧
    (changePanel p st s).rtu = s.rtu ∧ (changePanel p st s).xpe = s.xpe ∧ (changePanel p st s).tly = s.tly ∧
    (changePanel p st s).pending = s.pending ∧ (changePanel p st s).freeCount = s.freeCount ∧
    (changePanel p st s).csi.anchor = s.csi.anchor ∧ (changePanel p st s).csi.copy = s.csi.copy ∧
    (changePanel p st s).csi.posts = s.csi.posts ∧ (changePanel p st s).csi.running = s.csi.running ∧
    (changePanel p st s).csi.mirror = s.csi.mirror := by
  simp only [changePanel]
  repeat' split
  all_goals simp

/-- What `setKey` leaves unchanged. -/
@[simp] theorem setKey_frame (p : Fin 24) (k : Fin 48) (st : KeyState) (s : State) :
    (setKey p k st s).control = s.control ∧ (setKey p k st s).runState = s.runState ∧ (setKey p k st s).rtu = s.rtu ∧
    (setKey p k st s).xpe = s.xpe ∧ (setKey p k st s).tly = s.tly ∧ (setKey p k st s).csi = s.csi ∧
    (setKey p k st s).store = s.store ∧ (setKey p k st s).pending = s.pending ∧
    (setKey p k st s).freeCount = s.freeCount := by
  unfold setKey
  repeat' split
  all_goals simp

/-- What `talkEvent` leaves unchanged. -/
@[simp] theorem talkEvent_frame (p : Fin 24) (k : Fin 48) (m : TalkMode) (b : Bool) (s : State) :
    (talkEvent p k m b s).control = s.control ∧ (talkEvent p k m b s).runState = s.runState ∧
    (talkEvent p k m b s).rtu = s.rtu ∧ (talkEvent p k m b s).xpe = s.xpe ∧ (talkEvent p k m b s).tly = s.tly ∧
    (talkEvent p k m b s).pending = s.pending ∧ (talkEvent p k m b s).freeCount = s.freeCount ∧
    (talkEvent p k m b s).csi.anchor = s.csi.anchor ∧ (talkEvent p k m b s).csi.copy = s.csi.copy ∧
    (talkEvent p k m b s).csi.posts = s.csi.posts ∧ (talkEvent p k m b s).csi.running = s.csi.running ∧
    (talkEvent p k m b s).csi.mirror = s.csi.mirror := by
  unfold talkEvent
  repeat' split
  all_goals simp

/-- What `sourcePress` leaves unchanged. -/
@[simp] theorem sourcePress_frame (p : Fin 24) (k : Fin 48) (x : Source) (s : State) :
    (sourcePress p k x s).control = s.control ∧ (sourcePress p k x s).runState = s.runState ∧
    (sourcePress p k x s).rtu = s.rtu ∧ (sourcePress p k x s).tly = s.tly ∧ (sourcePress p k x s).tke = s.tke ∧
    (sourcePress p k x s).pending = s.pending ∧ (sourcePress p k x s).freeCount = s.freeCount ∧
    (sourcePress p k x s).csi.anchor = s.csi.anchor ∧ (sourcePress p k x s).csi.copy = s.csi.copy ∧
    (sourcePress p k x s).csi.posts = s.csi.posts ∧ (sourcePress p k x s).csi.running = s.csi.running ∧
    (sourcePress p k x s).csi.mirror = s.csi.mirror := by
  simp only [sourcePress, afterTake]
  repeat' split
  all_goals simp

/-- What `takePress` leaves unchanged. -/
@[simp] theorem takePress_frame (ahead : Bool) (p : Fin 24) (k : Fin 48) (s : State) :
    (takePress ahead p k s).control = s.control ∧ (takePress ahead p k s).runState = s.runState ∧ (takePress ahead p k s).rtu = s.rtu ∧
    (takePress ahead p k s).tly = s.tly ∧ (takePress ahead p k s).tke = s.tke ∧ (takePress ahead p k s).pending = s.pending ∧
    (takePress ahead p k s).freeCount = s.freeCount ∧ (takePress ahead p k s).csi.anchor = s.csi.anchor ∧
    (takePress ahead p k s).csi.copy = s.csi.copy ∧ (takePress ahead p k s).csi.posts = s.csi.posts ∧
    (takePress ahead p k s).csi.running = s.csi.running ∧ (takePress ahead p k s).csi.mirror = s.csi.mirror := by
  simp only [takePress, afterTake]
  repeat' split
  all_goals simp

/-- What `stepPress` leaves unchanged. -/
@[simp] theorem stepPress_frame (p : Fin 24) (k : Fin 48) (g : Fin 8) (s : State) :
    (stepPress p k g s).control = s.control ∧ (stepPress p k g s).runState = s.runState ∧ (stepPress p k g s).rtu = s.rtu ∧
    (stepPress p k g s).tly = s.tly ∧ (stepPress p k g s).tke = s.tke ∧ (stepPress p k g s).pending = s.pending ∧
    (stepPress p k g s).freeCount = s.freeCount ∧ (stepPress p k g s).csi.anchor = s.csi.anchor ∧
    (stepPress p k g s).csi.copy = s.csi.copy ∧ (stepPress p k g s).csi.posts = s.csi.posts ∧
    (stepPress p k g s).csi.running = s.csi.running ∧ (stepPress p k g s).csi.mirror = s.csi.mirror := by
  simp only [stepPress]
  repeat' split
  all_goals simp

/-- What `protectPress` leaves unchanged. -/
@[simp] theorem protectPress_frame (p : Fin 24) (k : Fin 48) (s : State) :
    (protectPress p k s).control = s.control ∧ (protectPress p k s).runState = s.runState ∧
    (protectPress p k s).rtu = s.rtu ∧ (protectPress p k s).tly = s.tly ∧ (protectPress p k s).tke = s.tke ∧
    (protectPress p k s).pending = s.pending ∧ (protectPress p k s).freeCount = s.freeCount ∧
    (protectPress p k s).csi.anchor = s.csi.anchor ∧ (protectPress p k s).csi.copy = s.csi.copy ∧
    (protectPress p k s).csi.posts = s.csi.posts ∧ (protectPress p k s).csi.running = s.csi.running ∧
    (protectPress p k s).csi.mirror = s.csi.mirror := by
  simp only [protectPress]
  repeat' split
  all_goals simp

/-- What `salvoPress` leaves unchanged. -/
@[simp] theorem salvoPress_frame (p : Fin 24) (k : Fin 48) (n : Fin 16) (s : State) :
    (salvoPress p k n s).control = s.control ∧ (salvoPress p k n s).runState = s.runState ∧
    (salvoPress p k n s).rtu = s.rtu ∧ (salvoPress p k n s).tly = s.tly ∧ (salvoPress p k n s).tke = s.tke ∧
    (salvoPress p k n s).pending = s.pending ∧ (salvoPress p k n s).freeCount = s.freeCount ∧
    (salvoPress p k n s).csi.anchor = s.csi.anchor ∧ (salvoPress p k n s).csi.copy = s.csi.copy ∧
    (salvoPress p k n s).csi.posts = s.csi.posts ∧ (salvoPress p k n s).csi.mirror = s.csi.mirror := by
  simp [salvoPress]

/-- What `keyPress` leaves unchanged. -/
@[simp] theorem keyPress_frame (ahead : Bool) (p : Fin 24) (k : Fin 48) (s : State) :
    (keyPress ahead p k s).control = s.control ∧ (keyPress ahead p k s).runState = s.runState ∧ (keyPress ahead p k s).rtu = s.rtu ∧
    (keyPress ahead p k s).tly = s.tly ∧ (keyPress ahead p k s).pending = s.pending ∧ (keyPress ahead p k s).freeCount = s.freeCount ∧
    (keyPress ahead p k s).csi.anchor = s.csi.anchor ∧ (keyPress ahead p k s).csi.copy = s.csi.copy ∧
    (keyPress ahead p k s).csi.posts = s.csi.posts ∧ (keyPress ahead p k s).csi.mirror = s.csi.mirror := by
  unfold keyPress
  repeat' split
  all_goals simp

/-- What `keyRelease` leaves unchanged. -/
@[simp] theorem keyRelease_frame (p : Fin 24) (k : Fin 48) (s : State) :
    (keyRelease p k s).control = s.control ∧ (keyRelease p k s).runState = s.runState ∧ (keyRelease p k s).rtu = s.rtu ∧
    (keyRelease p k s).xpe = s.xpe ∧ (keyRelease p k s).tly = s.tly ∧ (keyRelease p k s).pending = s.pending ∧
    (keyRelease p k s).freeCount = s.freeCount ∧ (keyRelease p k s).csi.anchor = s.csi.anchor ∧
    (keyRelease p k s).csi.copy = s.csi.copy ∧ (keyRelease p k s).csi.posts = s.csi.posts ∧
    (keyRelease p k s).csi.mirror = s.csi.mirror := by
  unfold keyRelease
  repeat' split
  all_goals simp

/-- What `keyEvent` leaves unchanged. -/
@[simp] theorem keyEvent_frame (ahead : Bool) (p : Fin 24) (k : Fin 48) (b : Bool) (s : State) :
    (keyEvent ahead p k b s).control = s.control ∧ (keyEvent ahead p k b s).runState = s.runState ∧ (keyEvent ahead p k b s).rtu = s.rtu ∧
    (keyEvent ahead p k b s).tly = s.tly ∧ (keyEvent ahead p k b s).pending = s.pending ∧ (keyEvent ahead p k b s).freeCount = s.freeCount ∧
    (keyEvent ahead p k b s).csi.anchor = s.csi.anchor ∧ (keyEvent ahead p k b s).csi.copy = s.csi.copy ∧
    (keyEvent ahead p k b s).csi.posts = s.csi.posts ∧ (keyEvent ahead p k b s).csi.mirror = s.csi.mirror := by
  unfold keyEvent
  repeat' split
  all_goals simp

/-- What `serveLink` leaves unchanged. -/
@[simp] theorem serveLink_frame (l : Fin 4) (s : State) :
    (serveLink l s).control = s.control ∧ (serveLink l s).runState = s.runState ∧ (serveLink l s).rtu = s.rtu ∧
    (serveLink l s).xpe = s.xpe ∧ (serveLink l s).tly = s.tly ∧ (serveLink l s).tke = s.tke ∧ (serveLink l s).csi = s.csi ∧
    (serveLink l s).store = s.store ∧ (serveLink l s).pending = s.pending ∧ (serveLink l s).freeCount = s.freeCount := by
  unfold serveLink
  repeat' split
  all_goals simp

/-- What `endMessage` leaves unchanged. -/
@[simp] theorem endMessage_frame (l : Fin 4) (s : State) :
    (endMessage l s).control = s.control ∧ (endMessage l s).runState = s.runState ∧ (endMessage l s).rtu = s.rtu ∧
    (endMessage l s).xpe = s.xpe ∧ (endMessage l s).tly = s.tly ∧ (endMessage l s).tke = s.tke ∧
    (endMessage l s).csi = s.csi ∧ (endMessage l s).store = s.store ∧ (endMessage l s).pending = s.pending ∧
    (endMessage l s).freeCount = s.freeCount := by
  simp [endMessage]

/-- What `judge` leaves unchanged. -/
@[simp] theorem judge_frame (p : Fin 24) (c : BitVec 16) (s : State) :
    (judge p c s).control = s.control ∧ (judge p c s).runState = s.runState ∧ (judge p c s).rtu = s.rtu ∧
    (judge p c s).xpe = s.xpe ∧ (judge p c s).tly = s.tly ∧ (judge p c s).pending = s.pending ∧
    (judge p c s).freeCount = s.freeCount ∧ (judge p c s).csi.anchor = s.csi.anchor ∧ (judge p c s).csi.copy = s.csi.copy ∧
    (judge p c s).csi.posts = s.csi.posts ∧ (judge p c s).csi.running = s.csi.running ∧
    (judge p c s).csi.mirror = s.csi.mirror := by
  unfold judge
  repeat' split
  all_goals simp

/-- What `takeReply` leaves unchanged. -/
@[simp] theorem takeReply_frame (ahead : Bool) (l : Fin 4) (p : Fin 24) (i f : Bool) (ca : List (Fin 48 × Lamp)) (ev : List (Fin 48 × Bool))
    (co : Option (BitVec 16)) (s : State) :
    (takeReply ahead l p i f ca ev co s).control = s.control ∧ (takeReply ahead l p i f ca ev co s).runState = s.runState ∧
    (takeReply ahead l p i f ca ev co s).rtu = s.rtu ∧ (takeReply ahead l p i f ca ev co s).tly = s.tly ∧
    (takeReply ahead l p i f ca ev co s).pending = s.pending ∧ (takeReply ahead l p i f ca ev co s).freeCount = s.freeCount ∧
    (takeReply ahead l p i f ca ev co s).csi.anchor = s.csi.anchor ∧ (takeReply ahead l p i f ca ev co s).csi.copy = s.csi.copy ∧
    (takeReply ahead l p i f ca ev co s).csi.posts = s.csi.posts ∧ (takeReply ahead l p i f ca ev co s).csi.mirror = s.csi.mirror := by
  have h1 := fun (b : State) => foldl_keeps
    (fun x : State => (x.control, x.runState, x.rtu, x.tly, x.pending, x.freeCount, x.csi.anchor, x.csi.copy, x.csi.posts,
      x.csi.mirror)) (fun s e => keyEvent ahead p e.1 e.2 s) (by intros; simp) ev b
  simp only [Prod.mk.injEq] at h1
  simp only [takeReply]
  repeat' split
  all_goals simp [h1]

/-- What `receiveReply` leaves unchanged. -/
@[simp] theorem receiveReply_frame (l : Fin 4) (m : PanelReply) (s : State) :
    (receiveReply l m s).control = s.control ∧ (receiveReply l m s).runState = s.runState ∧
    (receiveReply l m s).rtu = s.rtu ∧ (receiveReply l m s).tly = s.tly ∧ (receiveReply l m s).pending = s.pending ∧
    (receiveReply l m s).freeCount = s.freeCount ∧ (receiveReply l m s).csi.anchor = s.csi.anchor ∧
    (receiveReply l m s).csi.copy = s.csi.copy ∧ (receiveReply l m s).csi.posts = s.csi.posts ∧
    (receiveReply l m s).csi.mirror = s.csi.mirror := by
  unfold receiveReply
  repeat' split
  all_goals simp

/-- What `receiveProbeAnswer` leaves unchanged. -/
@[simp] theorem receiveProbeAnswer_frame (l : Fin 4) (a : Byte) (c : BitVec 16) (s : State) :
    (receiveProbeAnswer l a c s).control = s.control ∧ (receiveProbeAnswer l a c s).runState = s.runState ∧
    (receiveProbeAnswer l a c s).rtu = s.rtu ∧ (receiveProbeAnswer l a c s).xpe = s.xpe ∧
    (receiveProbeAnswer l a c s).tly = s.tly ∧ (receiveProbeAnswer l a c s).pending = s.pending ∧
    (receiveProbeAnswer l a c s).freeCount = s.freeCount ∧ (receiveProbeAnswer l a c s).csi.anchor = s.csi.anchor ∧
    (receiveProbeAnswer l a c s).csi.copy = s.csi.copy ∧ (receiveProbeAnswer l a c s).csi.posts = s.csi.posts ∧
    (receiveProbeAnswer l a c s).csi.running = s.csi.running ∧ (receiveProbeAnswer l a c s).csi.mirror = s.csi.mirror := by
  simp only [receiveProbeAnswer]
  repeat' split
  all_goals simp

/-- What `setMissed` leaves unchanged. -/
@[simp] theorem setMissed_frame (p : Fin 24) (n : Nat) (s : State) :
    (setMissed p n s).control = s.control ∧ (setMissed p n s).runState = s.runState ∧ (setMissed p n s).rtu = s.rtu ∧
    (setMissed p n s).xpe = s.xpe ∧ (setMissed p n s).tly = s.tly ∧ (setMissed p n s).tke = s.tke ∧
    (setMissed p n s).csi = s.csi ∧ (setMissed p n s).store = s.store ∧ (setMissed p n s).pending = s.pending ∧
    (setMissed p n s).freeCount = s.freeCount := by
  simp [setMissed]

/-- What `closePoll` leaves unchanged. -/
@[simp] theorem closePoll_frame (l : Fin 4) (s : State) :
    (closePoll l s).control = s.control ∧ (closePoll l s).runState = s.runState ∧ (closePoll l s).rtu = s.rtu ∧
    (closePoll l s).xpe = s.xpe ∧ (closePoll l s).tly = s.tly ∧ (closePoll l s).pending = s.pending ∧
    (closePoll l s).freeCount = s.freeCount ∧ (closePoll l s).csi.anchor = s.csi.anchor ∧
    (closePoll l s).csi.copy = s.csi.copy ∧ (closePoll l s).csi.posts = s.csi.posts ∧
    (closePoll l s).csi.running = s.csi.running ∧ (closePoll l s).csi.mirror = s.csi.mirror := by
  simp only [closePoll]
  repeat' split
  all_goals simp

/-- What `closeProbe` leaves unchanged. -/
@[simp] theorem closeProbe_frame (l : Fin 4) (s : State) :
    (closeProbe l s).control = s.control ∧ (closeProbe l s).runState = s.runState ∧ (closeProbe l s).rtu = s.rtu ∧
    (closeProbe l s).xpe = s.xpe ∧ (closeProbe l s).tly = s.tly ∧ (closeProbe l s).pending = s.pending ∧
    (closeProbe l s).freeCount = s.freeCount ∧ (closeProbe l s).csi.anchor = s.csi.anchor ∧
    (closeProbe l s).csi.copy = s.csi.copy ∧ (closeProbe l s).csi.posts = s.csi.posts ∧
    (closeProbe l s).csi.running = s.csi.running ∧ (closeProbe l s).csi.mirror = s.csi.mirror := by
  simp only [closeProbe]
  repeat' split
  all_goals simp

/-- What `loadMap` leaves unchanged. -/
@[simp] theorem loadMap_frame (p : Fin 24) (es : List KeyEntry) (s : State) :
    (loadMap p es s).control = s.control ∧ (loadMap p es s).runState = s.runState ∧ (loadMap p es s).rtu = s.rtu ∧
    (loadMap p es s).xpe = s.xpe ∧ (loadMap p es s).tly = s.tly ∧ (loadMap p es s).csi = s.csi ∧
    (loadMap p es s).store = s.store ∧ (loadMap p es s).pending = s.pending ∧ (loadMap p es s).freeCount = s.freeCount := by
  simp [loadMap]

/-- What `mapOutcome` leaves unchanged. -/
@[simp] theorem mapOutcome_frame (x : MapRead) (c : Code) (n : Nat) (s : State) :
    (mapOutcome x c n s).control = s.control ∧ (mapOutcome x c n s).runState = s.runState ∧
    (mapOutcome x c n s).rtu = s.rtu ∧ (mapOutcome x c n s).xpe = s.xpe ∧ (mapOutcome x c n s).tly = s.tly ∧
    (mapOutcome x c n s).tke = s.tke ∧ (mapOutcome x c n s).pnc = s.pnc ∧ (mapOutcome x c n s).pending = s.pending ∧
    (mapOutcome x c n s).freeCount = s.freeCount ∧ (mapOutcome x c n s).csi.anchor = s.csi.anchor ∧
    (mapOutcome x c n s).csi.copy = s.csi.copy ∧ (mapOutcome x c n s).csi.posts = s.csi.posts ∧
    (mapOutcome x c n s).csi.mirror = s.csi.mirror := by
  unfold mapOutcome
  repeat' split
  all_goals simp

/-- What `finishMapRead` leaves unchanged. -/
@[simp] theorem finishMapRead_frame (s : State) :
    (finishMapRead s).control = s.control ∧ (finishMapRead s).runState = s.runState ∧ (finishMapRead s).rtu = s.rtu ∧
    (finishMapRead s).xpe = s.xpe ∧ (finishMapRead s).tly = s.tly ∧ (finishMapRead s).pending = s.pending ∧
    (finishMapRead s).csi.anchor = s.csi.anchor ∧
    (finishMapRead s).csi.copy = s.csi.copy ∧ (finishMapRead s).csi.posts = s.csi.posts ∧
    (finishMapRead s).csi.mirror = s.csi.mirror := by
  simp only [finishMapRead]
  repeat' split
  all_goals simp

/-! ### Tally and mirrors -/

/-- What `sampleGpi` leaves unchanged. -/
@[simp] theorem sampleGpi_frame (x : BitVec 16) (i : Fin 16) (s : State) :
    (sampleGpi x i s).control = s.control ∧ (sampleGpi x i s).runState = s.runState ∧ (sampleGpi x i s).rtu = s.rtu ∧
    (sampleGpi x i s).xpe = s.xpe ∧ (sampleGpi x i s).tke = s.tke ∧ (sampleGpi x i s).pnc = s.pnc ∧
    (sampleGpi x i s).pending = s.pending ∧ (sampleGpi x i s).freeCount = s.freeCount ∧
    (sampleGpi x i s).csi.anchor = s.csi.anchor ∧ (sampleGpi x i s).csi.copy = s.csi.copy ∧
    (sampleGpi x i s).csi.posts = s.csi.posts ∧ (sampleGpi x i s).csi.running = s.csi.running ∧
    (sampleGpi x i s).csi.mirror = s.csi.mirror := by
  simp only [sampleGpi]
  repeat' split
  all_goals simp

/-- What `sampleInputs` leaves unchanged. -/
@[simp] theorem sampleInputs_frame (x : BitVec 16) (s : State) :
    (sampleInputs x s).control = s.control ∧ (sampleInputs x s).runState = s.runState ∧ (sampleInputs x s).rtu = s.rtu ∧
    (sampleInputs x s).xpe = s.xpe ∧ (sampleInputs x s).tke = s.tke ∧ (sampleInputs x s).pnc = s.pnc ∧
    (sampleInputs x s).pending = s.pending ∧ (sampleInputs x s).freeCount = s.freeCount ∧
    (sampleInputs x s).csi.anchor = s.csi.anchor ∧ (sampleInputs x s).csi.copy = s.csi.copy ∧
    (sampleInputs x s).csi.posts = s.csi.posts ∧ (sampleInputs x s).csi.running = s.csi.running ∧
    (sampleInputs x s).csi.mirror = s.csi.mirror := by
  have h1 := fun (l : List (Fin 16)) (b : State) => foldl_keeps
    (fun x : State => (x.control, x.runState, x.rtu, x.xpe, x.tke, x.pnc, x.pending, x.freeCount, x.csi.anchor, x.csi.copy, x.csi.posts,
      x.csi.running, x.csi.mirror)) (fun s i => sampleGpi x i s) (by intros; simp) l b
  simp only [Prod.mk.injEq] at h1
  simp [sampleInputs, h1]

/-- What `reportFlags` leaves unchanged. -/
@[simp] theorem reportFlags_frame (a b c e : BitVec 64) (d : Fin 64) (s : State) :
    (reportFlags a b c e d s).control = s.control ∧ (reportFlags a b c e d s).runState = s.runState ∧
    (reportFlags a b c e d s).rtu = s.rtu ∧ (reportFlags a b c e d s).xpe = s.xpe ∧ (reportFlags a b c e d s).tly = s.tly ∧
    (reportFlags a b c e d s).tke = s.tke ∧ (reportFlags a b c e d s).pnc = s.pnc ∧
    (reportFlags a b c e d s).pending = s.pending ∧ (reportFlags a b c e d s).freeCount = s.freeCount ∧
    (reportFlags a b c e d s).csi.anchor = s.csi.anchor ∧ (reportFlags a b c e d s).csi.copy = s.csi.copy ∧
    (reportFlags a b c e d s).csi.posts = s.csi.posts ∧ (reportFlags a b c e d s).csi.running = s.csi.running ∧
    (reportFlags a b c e d s).csi.mirror = s.csi.mirror := by
  simp only [reportFlags]
  repeat' split
  all_goals simp

/-- What `writeResolution` leaves unchanged. -/
@[simp] theorem writeResolution_frame (fs : List Found) (s : State) :
    (writeResolution fs s).control = s.control ∧ (writeResolution fs s).runState = s.runState ∧
    (writeResolution fs s).rtu = s.rtu ∧ (writeResolution fs s).tke = s.tke ∧ (writeResolution fs s).pnc = s.pnc ∧
    (writeResolution fs s).pending = s.pending ∧ (writeResolution fs s).freeCount = s.freeCount ∧
    (writeResolution fs s).csi.anchor = s.csi.anchor ∧ (writeResolution fs s).csi.copy = s.csi.copy ∧
    (writeResolution fs s).csi.posts = s.csi.posts ∧ (writeResolution fs s).csi.running = s.csi.running ∧
    (writeResolution fs s).csi.mirror = s.csi.mirror := by
  have h1 := fun (a b c e : BitVec 64) (l : List (Fin 64)) (z : State) => foldl_keeps
    (fun x : State => (x.control, x.runState, x.rtu, x.tke, x.pnc, x.pending, x.freeCount, x.csi.anchor, x.csi.copy, x.csi.posts,
      x.csi.running, x.csi.mirror)) (fun s d => reportFlags a b c e d s) (by intros; simp) l z
  simp only [Prod.mk.injEq] at h1
  simp [writeResolution, h1]

/-- What `driveLamps` leaves unchanged. -/
@[simp] theorem driveLamps_frame (p : PortSet) (k : FrameIndex) (s : State) :
    (driveLamps p k s).control = s.control ∧ (driveLamps p k s).runState = s.runState ∧ (driveLamps p k s).rtu = s.rtu ∧
    (driveLamps p k s).xpe = s.xpe ∧ (driveLamps p k s).tke = s.tke ∧ (driveLamps p k s).pnc = s.pnc ∧
    (driveLamps p k s).csi = s.csi ∧ (driveLamps p k s).store = s.store ∧ (driveLamps p k s).pending = s.pending ∧
    (driveLamps p k s).freeCount = s.freeCount := by
  simp [driveLamps]

/-- What `resolve` leaves unchanged. -/
@[simp] theorem resolve_frame (i : FrameInputs) (s : State) :
    (resolve i s).control = s.control ∧ (resolve i s).runState = s.runState ∧ (resolve i s).rtu = s.rtu ∧
    (resolve i s).tke = s.tke ∧ (resolve i s).pending = s.pending ∧ (resolve i s).freeCount = s.freeCount ∧
    (resolve i s).csi.anchor = s.csi.anchor ∧ (resolve i s).csi.copy = s.csi.copy ∧ (resolve i s).csi.posts = s.csi.posts ∧
    (resolve i s).csi.running = s.csi.running ∧ (resolve i s).csi.mirror = s.csi.mirror := by
  simp [resolve]

/-- What `startRewrite` leaves unchanged. -/
@[simp] theorem startRewrite_frame (c : AnchorCopy) (f : FrameIndex) (l : Label) (s : State) :
    (startRewrite c f l s).control = s.control ∧ (startRewrite c f l s).runState = s.runState ∧
    (startRewrite c f l s).rtu = s.rtu ∧ (startRewrite c f l s).xpe = s.xpe ∧ (startRewrite c f l s).tly = s.tly ∧
    (startRewrite c f l s).tke = s.tke ∧ (startRewrite c f l s).pnc = s.pnc ∧ (startRewrite c f l s).pending = s.pending ∧
    (startRewrite c f l s).csi.anchor = s.csi.anchor ∧ (startRewrite c f l s).csi.copy = s.csi.copy ∧
    (startRewrite c f l s).csi.posts = s.csi.posts ∧ (startRewrite c f l s).csi.running = s.csi.running := by
  simp [startRewrite]

/-- What `onResolution` leaves unchanged. -/
@[simp] theorem onResolution_frame (f : FrameIndex) (l : Label) (s : State) :
    (onResolution f l s).control = s.control ∧ (onResolution f l s).runState = s.runState ∧
    (onResolution f l s).rtu = s.rtu ∧ (onResolution f l s).xpe = s.xpe ∧ (onResolution f l s).tly = s.tly ∧
    (onResolution f l s).tke = s.tke ∧ (onResolution f l s).pnc = s.pnc ∧ (onResolution f l s).pending = s.pending ∧
    (onResolution f l s).csi.anchor = s.csi.anchor ∧ (onResolution f l s).csi.copy = s.csi.copy ∧
    (onResolution f l s).csi.posts = s.csi.posts ∧ (onResolution f l s).csi.running = s.csi.running := by
  unfold onResolution
  repeat' split
  all_goals simp

/-- What `becomeFreezing` leaves unchanged. -/
@[simp] theorem becomeFreezing_frame (s : State) :
    (becomeFreezing s).control = s.control ∧ (becomeFreezing s).runState = s.runState ∧ (becomeFreezing s).rtu = s.rtu ∧
    (becomeFreezing s).xpe = s.xpe ∧ (becomeFreezing s).tly = s.tly ∧ (becomeFreezing s).tke = s.tke ∧ (becomeFreezing s).pnc = s.pnc ∧
    (becomeFreezing s).store = s.store ∧ (becomeFreezing s).pending = s.pending ∧ (becomeFreezing s).freeCount = s.freeCount ∧
    (becomeFreezing s).csi.anchor = s.csi.anchor ∧ (becomeFreezing s).csi.copy = s.csi.copy ∧
    (becomeFreezing s).csi.posts = s.csi.posts ∧ (becomeFreezing s).csi.running = s.csi.running := by
  simp [becomeFreezing]

/-- What `becomeFrozen` leaves unchanged. -/
@[simp] theorem becomeFrozen_frame (s : State) :
    (becomeFrozen s).control = s.control ∧ (becomeFrozen s).runState = s.runState ∧ (becomeFrozen s).rtu = s.rtu ∧
    (becomeFrozen s).xpe = s.xpe ∧ (becomeFrozen s).tly = s.tly ∧ (becomeFrozen s).tke = s.tke ∧
    (becomeFrozen s).pnc = s.pnc ∧ (becomeFrozen s).store = s.store ∧ (becomeFrozen s).pending = s.pending ∧
    (becomeFrozen s).freeCount = s.freeCount ∧ (becomeFrozen s).csi.anchor = s.csi.anchor ∧
    (becomeFrozen s).csi.copy = s.csi.copy ∧ (becomeFrozen s).csi.posts = s.csi.posts ∧
    (becomeFrozen s).csi.running = s.csi.running := by
  simp [becomeFrozen]

/-- What `startWaiting` leaves unchanged. -/
@[simp] theorem startWaiting_frame (s : State) :
    (startWaiting s).control = s.control ∧ (startWaiting s).runState = s.runState ∧ (startWaiting s).rtu = s.rtu ∧
    (startWaiting s).xpe = s.xpe ∧ (startWaiting s).tly = s.tly ∧ (startWaiting s).tke = s.tke ∧
    (startWaiting s).pnc = s.pnc ∧ (startWaiting s).pending = s.pending ∧ (startWaiting s).csi.anchor = s.csi.anchor ∧
    (startWaiting s).csi.copy = s.csi.copy ∧ (startWaiting s).csi.posts = s.csi.posts ∧
    (startWaiting s).csi.running = s.csi.running := by
  unfold startWaiting
  repeat' split
  all_goals simp

/-- What `endRewrite` leaves unchanged. -/
@[simp] theorem endRewrite_frame (s : State) :
    (endRewrite s).control = s.control ∧ (endRewrite s).runState = s.runState ∧ (endRewrite s).rtu = s.rtu ∧
    (endRewrite s).xpe = s.xpe ∧ (endRewrite s).tly = s.tly ∧ (endRewrite s).tke = s.tke ∧ (endRewrite s).pnc = s.pnc ∧
    (endRewrite s).pending = s.pending ∧ (endRewrite s).csi.anchor = s.csi.anchor ∧ (endRewrite s).csi.copy = s.csi.copy ∧
    (endRewrite s).csi.posts = s.csi.posts ∧ (endRewrite s).csi.running = s.csi.running := by
  simp only [endRewrite]
  repeat' split
  all_goals simp

/-- What `freezeMirrors` leaves unchanged. -/
@[simp] theorem freezeMirrors_frame (s : State) :
    (freezeMirrors s).control = s.control ∧ (freezeMirrors s).runState = s.runState ∧ (freezeMirrors s).rtu = s.rtu ∧
    (freezeMirrors s).xpe = s.xpe ∧ (freezeMirrors s).tly = s.tly ∧ (freezeMirrors s).tke = s.tke ∧
    (freezeMirrors s).pnc = s.pnc ∧ (freezeMirrors s).store = s.store ∧ (freezeMirrors s).pending = s.pending ∧
    (freezeMirrors s).freeCount = s.freeCount ∧ (freezeMirrors s).csi.anchor = s.csi.anchor ∧
    (freezeMirrors s).csi.copy = s.csi.copy ∧ (freezeMirrors s).csi.posts = s.csi.posts ∧
    (freezeMirrors s).csi.running = s.csi.running := by
  unfold freezeMirrors
  repeat' split
  all_goals simp

/-- What `thawMirrors` leaves unchanged. -/
@[simp] theorem thawMirrors_frame (s : State) :
    (thawMirrors s).control = s.control ∧ (thawMirrors s).runState = s.runState ∧ (thawMirrors s).rtu = s.rtu ∧
    (thawMirrors s).xpe = s.xpe ∧ (thawMirrors s).tly = s.tly ∧ (thawMirrors s).tke = s.tke ∧ (thawMirrors s).pnc = s.pnc ∧
    (thawMirrors s).store = s.store ∧ (thawMirrors s).pending = s.pending ∧ (thawMirrors s).freeCount = s.freeCount ∧
    (thawMirrors s).csi.anchor = s.csi.anchor ∧ (thawMirrors s).csi.copy = s.csi.copy ∧
    (thawMirrors s).csi.posts = s.csi.posts ∧ (thawMirrors s).csi.running = s.csi.running := by
  simp [thawMirrors]

/-! ### Boundaries and the fabric link -/

/-- What `runResolution` leaves unchanged. -/
@[simp] theorem runResolution_frame (k : FrameIndex) (s : State) :
    (runResolution k s).control = s.control ∧ (runResolution k s).runState = s.runState ∧ (runResolution k s).rtu = s.rtu ∧
    (runResolution k s).tke = s.tke ∧ (runResolution k s).pending = s.pending ∧
    (runResolution k s).csi.anchor = s.csi.anchor ∧ (runResolution k s).csi.copy = s.csi.copy ∧
    (runResolution k s).csi.posts = s.csi.posts ∧ (runResolution k s).csi.running = s.csi.running := by
  unfold runResolution
  repeat' split
  all_goals simp

/-- What `tellResolution` leaves unchanged. -/
@[simp] theorem tellResolution_frame (k : FrameIndex) (s : State) :
    (tellResolution k s).control = s.control ∧ (tellResolution k s).runState = s.runState ∧ (tellResolution k s).rtu = s.rtu ∧
    (tellResolution k s).xpe = s.xpe ∧ (tellResolution k s).tly = s.tly ∧ (tellResolution k s).tke = s.tke ∧
    (tellResolution k s).pnc = s.pnc ∧ (tellResolution k s).pending = s.pending ∧
    (tellResolution k s).csi.anchor = s.csi.anchor ∧ (tellResolution k s).csi.copy = s.csi.copy ∧
    (tellResolution k s).csi.posts = s.csi.posts ∧ (tellResolution k s).csi.running = s.csi.running := by
  unfold tellResolution
  repeat' split
  all_goals simp

/-- What `handOverMap` leaves unchanged. -/
@[simp] theorem handOverMap_frame (k : FrameIndex) (s : State) :
    (handOverMap k s).control = s.control ∧ (handOverMap k s).runState = s.runState ∧
    (handOverMap k s).rtu = s.rtu ∧ (handOverMap k s).pending = s.pending ∧
    (handOverMap k s).csi.anchor = s.csi.anchor ∧ (handOverMap k s).csi.copy = s.csi.copy ∧
    (handOverMap k s).csi.posts = s.csi.posts ∧ (handOverMap k s).csi.running = s.csi.running := by
  simp [handOverMap]

/-- What `declareSettled` leaves unchanged. -/
@[simp] theorem declareSettled_frame (k : FrameIndex) (s : State) :
    (declareSettled k s).control = s.control ∧ (declareSettled k s).runState = s.runState ∧
    (declareSettled k s).rtu = s.rtu ∧ (declareSettled k s).pending = s.pending ∧
    (declareSettled k s).csi.anchor = s.csi.anchor ∧ (declareSettled k s).csi.copy = s.csi.copy ∧
    (declareSettled k s).csi.posts = s.csi.posts ∧ (declareSettled k s).csi.running = s.csi.running := by
  simp [declareSettled]

/-- What `armedDone` leaves unchanged. -/
@[simp] theorem armedDone_frame (o : TakeOutcome) (es : List ArmedEntry) (s : State) :
    (armedDone o es s).control = s.control ∧ (armedDone o es s).runState = s.runState ∧ (armedDone o es s).rtu = s.rtu ∧
    (armedDone o es s).xpe = s.xpe ∧ (armedDone o es s).tly = s.tly ∧ (armedDone o es s).tke = s.tke ∧
    (armedDone o es s).pnc = s.pnc ∧ (armedDone o es s).pending = s.pending ∧ (armedDone o es s).freeCount = s.freeCount ∧
    (armedDone o es s).csi.anchor = s.csi.anchor ∧ (armedDone o es s).csi.copy = s.csi.copy ∧
    (armedDone o es s).csi.posts = s.csi.posts ∧ (armedDone o es s).csi.running = s.csi.running ∧
    (armedDone o es s).csi.mirror = s.csi.mirror := by
  have h := foldl_keeps (fun x : State => (x.control, x.runState, x.rtu, x.xpe, x.tly, x.tke, x.pnc, x.pending, x.freeCount, x.csi.anchor, x.csi.copy, x.csi.posts, x.csi.running, x.csi.mirror))
    (fun s a => takeDone a.requester a.xpt o a.late s) (by intros; simp) es s
  simpa [armedDone] using h

/-- What `linkLost` leaves unchanged. -/
@[simp] theorem linkLost_frame (w : FabricWait) (s : State) :
    (linkLost w s).control = s.control ∧ (linkLost w s).runState = s.runState ∧ (linkLost w s).rtu = s.rtu ∧
    (linkLost w s).pending = s.pending ∧ (linkLost w s).csi.anchor = s.csi.anchor ∧ (linkLost w s).csi.copy = s.csi.copy ∧
    (linkLost w s).csi.posts = s.csi.posts ∧ (linkLost w s).csi.running = s.csi.running := by
  simp only [linkLost]
  repeat' split
  all_goals simp

/-- What `receiveReport` leaves unchanged. -/
@[simp] theorem receiveReport_frame (ls : List ReportLine) (s : State) :
    (receiveReport ls s).control = s.control ∧ (receiveReport ls s).runState = s.runState ∧
    (receiveReport ls s).rtu = s.rtu ∧ (receiveReport ls s).pending = s.pending ∧
    (receiveReport ls s).csi.anchor = s.csi.anchor ∧ (receiveReport ls s).csi.copy = s.csi.copy ∧
    (receiveReport ls s).csi.posts = s.csi.posts ∧ (receiveReport ls s).csi.running = s.csi.running := by
  have h1 := fun (l : List ArmedEntry) (b : State) => foldl_keeps
    (fun x : State => (x.control, x.runState, x.rtu, x.pending, x.csi.anchor, x.csi.copy, x.csi.posts, x.csi.running))
    (fun s a => settleArmed ls a s) (by intros; simp) l b
  simp only [Prod.mk.injEq] at h1
  simp only [receiveReport]
  repeat' split
  all_goals simp [h1]

/-- What `reportTimeout` leaves unchanged. -/
@[simp] theorem reportTimeout_frame (s : State) :
    (reportTimeout s).control = s.control ∧ (reportTimeout s).runState = s.runState ∧ (reportTimeout s).rtu = s.rtu ∧
    (reportTimeout s).pending = s.pending ∧ (reportTimeout s).csi.anchor = s.csi.anchor ∧
    (reportTimeout s).csi.copy = s.csi.copy ∧ (reportTimeout s).csi.posts = s.csi.posts ∧
    (reportTimeout s).csi.running = s.csi.running := by
  unfold reportTimeout
  repeat' split
  all_goals simp

/-- What `receiveArmAck` leaves unchanged. -/
@[simp] theorem receiveArmAck_frame (s : State) :
    (receiveArmAck s).control = s.control ∧ (receiveArmAck s).runState = s.runState ∧ (receiveArmAck s).rtu = s.rtu ∧
    (receiveArmAck s).tly = s.tly ∧ (receiveArmAck s).tke = s.tke ∧ (receiveArmAck s).pnc = s.pnc ∧
    (receiveArmAck s).csi = s.csi ∧ (receiveArmAck s).store = s.store ∧ (receiveArmAck s).pending = s.pending ∧
    (receiveArmAck s).freeCount = s.freeCount := by
  simp [receiveArmAck]

/-- What `armTimeout` leaves unchanged. -/
@[simp] theorem armTimeout_frame (s : State) :
    (armTimeout s).control = s.control ∧ (armTimeout s).runState = s.runState ∧ (armTimeout s).rtu = s.rtu ∧
    (armTimeout s).pending = s.pending ∧ (armTimeout s).csi.anchor = s.csi.anchor ∧ (armTimeout s).csi.copy = s.csi.copy ∧
    (armTimeout s).csi.posts = s.csi.posts ∧ (armTimeout s).csi.running = s.csi.running := by
  unfold armTimeout
  repeat' split
  all_goals simp

/-- What `startSweep` leaves unchanged. -/
@[simp] theorem startSweep_frame (s : State) :
    (startSweep s).control = s.control ∧ (startSweep s).runState = s.runState ∧ (startSweep s).rtu = s.rtu ∧
    (startSweep s).tly = s.tly ∧ (startSweep s).tke = s.tke ∧ (startSweep s).pnc = s.pnc ∧ (startSweep s).csi = s.csi ∧
    (startSweep s).store = s.store ∧ (startSweep s).pending = s.pending ∧ (startSweep s).freeCount = s.freeCount := by
  simp [startSweep]

/-- What `readBack` leaves unchanged. -/
@[simp] theorem readBack_frame (d : Fin 64) (l : Level) (x : Byte) (s : State) :
    (readBack d l x s).control = s.control ∧ (readBack d l x s).runState = s.runState ∧ (readBack d l x s).rtu = s.rtu ∧
    (readBack d l x s).tly = s.tly ∧ (readBack d l x s).tke = s.tke ∧ (readBack d l x s).pnc = s.pnc ∧
    (readBack d l x s).pending = s.pending ∧ (readBack d l x s).freeCount = s.freeCount ∧
    (readBack d l x s).csi.anchor = s.csi.anchor ∧ (readBack d l x s).csi.copy = s.csi.copy ∧
    (readBack d l x s).csi.posts = s.csi.posts ∧ (readBack d l x s).csi.running = s.csi.running ∧
    (readBack d l x s).csi.mirror = s.csi.mirror := by
  unfold readBack
  repeat' split
  all_goals simp

/-- What `sweepOn` leaves unchanged. -/
@[simp] theorem sweepOn_frame (d : Fin 64) (l : Level) (s : State) :
    (sweepOn d l s).control = s.control ∧ (sweepOn d l s).rtu = s.rtu ∧ (sweepOn d l s).tly = s.tly ∧
    (sweepOn d l s).tke = s.tke ∧ (sweepOn d l s).pnc = s.pnc ∧ (sweepOn d l s).csi = s.csi ∧
    (sweepOn d l s).store = s.store ∧ (sweepOn d l s).pending = s.pending ∧ (sweepOn d l s).freeCount = s.freeCount := by
  unfold sweepOn
  repeat' split
  all_goals simp

/-- What `receiveRead` leaves unchanged. -/
@[simp] theorem receiveRead_frame (d l x : Byte) (s : State) :
    (receiveRead d l x s).control = s.control ∧ (receiveRead d l x s).rtu = s.rtu ∧ (receiveRead d l x s).tly = s.tly ∧
    (receiveRead d l x s).tke = s.tke ∧ (receiveRead d l x s).pnc = s.pnc ∧ (receiveRead d l x s).pending = s.pending ∧
    (receiveRead d l x s).freeCount = s.freeCount ∧ (receiveRead d l x s).csi.anchor = s.csi.anchor ∧
    (receiveRead d l x s).csi.copy = s.csi.copy ∧ (receiveRead d l x s).csi.posts = s.csi.posts ∧
    (receiveRead d l x s).csi.running = s.csi.running ∧ (receiveRead d l x s).csi.mirror = s.csi.mirror := by
  unfold receiveRead
  repeat' split
  all_goals simp

/-- What `readTimeout` leaves unchanged. -/
@[simp] theorem readTimeout_frame (s : State) :
    (readTimeout s).control = s.control ∧ (readTimeout s).runState = s.runState ∧ (readTimeout s).rtu = s.rtu ∧
    (readTimeout s).pending = s.pending ∧ (readTimeout s).csi.anchor = s.csi.anchor ∧ (readTimeout s).csi.copy = s.csi.copy ∧
    (readTimeout s).csi.posts = s.csi.posts ∧ (readTimeout s).csi.running = s.csi.running := by
  unfold readTimeout
  repeat' split
  all_goals simp

/-- What `receivePing` leaves unchanged. -/
@[simp] theorem receivePing_frame (s : State) :
    (receivePing s).control = s.control ∧ (receivePing s).runState = s.runState ∧ (receivePing s).rtu = s.rtu ∧
    (receivePing s).tly = s.tly ∧ (receivePing s).tke = s.tke ∧ (receivePing s).pnc = s.pnc ∧
    (receivePing s).pending = s.pending ∧ (receivePing s).freeCount = s.freeCount ∧
    (receivePing s).csi.anchor = s.csi.anchor ∧ (receivePing s).csi.copy = s.csi.copy ∧
    (receivePing s).csi.posts = s.csi.posts ∧ (receivePing s).csi.running = s.csi.running ∧
    (receivePing s).csi.mirror = s.csi.mirror := by
  simp only [receivePing]
  repeat' split
  all_goals simp

/-- What `pingTimeout` leaves unchanged. -/
@[simp] theorem pingTimeout_frame (s : State) :
    (pingTimeout s).control = s.control ∧ (pingTimeout s).runState = s.runState ∧ (pingTimeout s).rtu = s.rtu ∧
    (pingTimeout s).tly = s.tly ∧ (pingTimeout s).tke = s.tke ∧ (pingTimeout s).pnc = s.pnc ∧ (pingTimeout s).csi = s.csi ∧
    (pingTimeout s).store = s.store ∧ (pingTimeout s).pending = s.pending ∧ (pingTimeout s).freeCount = s.freeCount := by
  simp [pingTimeout]

/-- What `xpeBoundary` leaves unchanged. -/
@[simp] theorem xpeBoundary_frame (s : State) :
    (xpeBoundary s).control = s.control ∧ (xpeBoundary s).runState = s.runState ∧ (xpeBoundary s).rtu = s.rtu ∧
    (xpeBoundary s).pending = s.pending ∧ (xpeBoundary s).csi.anchor = s.csi.anchor ∧ (xpeBoundary s).csi.copy = s.csi.copy ∧
    (xpeBoundary s).csi.posts = s.csi.posts ∧ (xpeBoundary s).csi.running = s.csi.running := by
  simp only [xpeBoundary]
  repeat' split
  all_goals simp

/-- What `s.setCue` leaves unchanged. -/
@[simp] theorem setCue_frame (s : State) (n : Fin 16) (c : Cue) :
    (s.setCue n c).control = s.control ∧ (s.setCue n c).runState = s.runState ∧ (s.setCue n c).xpe = s.xpe ∧
    (s.setCue n c).tly = s.tly ∧ (s.setCue n c).tke = s.tke ∧ (s.setCue n c).pnc = s.pnc ∧ (s.setCue n c).csi = s.csi ∧
    (s.setCue n c).store = s.store ∧ (s.setCue n c).pending = s.pending ∧ (s.setCue n c).freeCount = s.freeCount ∧
    (s.setCue n c).rtu = { s.rtu with cues := upd s.rtu.cues n c } := by
  simp [State.setCue]

/-- What `cueMatch` leaves unchanged. -/
@[simp] theorem cueMatch_frame (a : Label) (n : Fin 16) (s : State) :
    (cueMatch a n s).control = s.control ∧ (cueMatch a n s).runState = s.runState ∧ (cueMatch a n s).tly = s.tly ∧
    (cueMatch a n s).tke = s.tke ∧ (cueMatch a n s).pending = s.pending ∧ (cueMatch a n s).freeCount = s.freeCount ∧
    (cueMatch a n s).csi.anchor = s.csi.anchor ∧ (cueMatch a n s).csi.copy = s.csi.copy ∧
    (cueMatch a n s).csi.posts = s.csi.posts ∧ (cueMatch a n s).csi.mirror = s.csi.mirror := by
  simp only [cueMatch]
  repeat' split
  all_goals simp

/-- What `compareCues` leaves unchanged. -/
@[simp] theorem compareCues_frame (s : State) :
    (compareCues s).control = s.control ∧ (compareCues s).runState = s.runState ∧ (compareCues s).tly = s.tly ∧
    (compareCues s).tke = s.tke ∧ (compareCues s).pending = s.pending ∧ (compareCues s).freeCount = s.freeCount ∧
    (compareCues s).csi.anchor = s.csi.anchor ∧ (compareCues s).csi.copy = s.csi.copy ∧
    (compareCues s).csi.posts = s.csi.posts ∧ (compareCues s).csi.mirror = s.csi.mirror := by
  have h1 := fun (a : Label) (l : List (Fin 16)) (b : State) => foldl_keeps
    (fun x : State => (x.control, x.runState, x.tly, x.tke, x.pending, x.freeCount, x.csi.anchor, x.csi.copy, x.csi.posts,
      x.csi.mirror)) (fun s n => cueMatch a n s) (by intros; simp) l b
  simp only [Prod.mk.injEq] at h1
  unfold compareCues
  split <;> simp [h1]

/-- What `examineKeys` leaves unchanged. -/
@[simp] theorem examineKeys_frame (s : State) :
    (examineKeys s).control = s.control ∧ (examineKeys s).runState = s.runState ∧ (examineKeys s).rtu = s.rtu ∧
    (examineKeys s).xpe = s.xpe ∧ (examineKeys s).tly = s.tly ∧ (examineKeys s).pnc = s.pnc ∧ (examineKeys s).csi = s.csi ∧
    (examineKeys s).store = s.store ∧ (examineKeys s).pending = s.pending ∧ (examineKeys s).freeCount = s.freeCount := by
  unfold examineKeys
  repeat' split
  all_goals simp

/-- What `endFlash` leaves unchanged. -/
@[simp] theorem endFlash_frame (p : Fin 24) (k : Fin 48) (s : State) :
    (endFlash p k s).control = s.control ∧ (endFlash p k s).runState = s.runState ∧ (endFlash p k s).rtu = s.rtu ∧
    (endFlash p k s).xpe = s.xpe ∧ (endFlash p k s).tly = s.tly ∧ (endFlash p k s).tke = s.tke ∧ (endFlash p k s).csi = s.csi ∧
    (endFlash p k s).store = s.store ∧ (endFlash p k s).pending = s.pending ∧ (endFlash p k s).freeCount = s.freeCount := by
  simp [endFlash]

/-- What `endFlashes` leaves unchanged. -/
@[simp] theorem endFlashes_frame (s : State) :
    (endFlashes s).control = s.control ∧ (endFlashes s).runState = s.runState ∧ (endFlashes s).rtu = s.rtu ∧
    (endFlashes s).xpe = s.xpe ∧ (endFlashes s).tly = s.tly ∧ (endFlashes s).tke = s.tke ∧ (endFlashes s).csi = s.csi ∧
    (endFlashes s).store = s.store ∧ (endFlashes s).pending = s.pending ∧ (endFlashes s).freeCount = s.freeCount := by
  have h1 := fun (l : List (Fin 24 × Fin 48)) (b : State) => foldl_keeps
    (fun x : State => (x.control, x.runState, x.rtu, x.xpe, x.tly, x.tke, x.csi, x.store, x.pending, x.freeCount))
    (fun s x => endFlash x.1 x.2 s) (by intros; simp) l b
  simp only [Prod.mk.injEq] at h1
  simp [endFlashes, h1]

/-- What `tickTimers` leaves unchanged. -/
@[simp] theorem tickTimers_frame (s : State) :
    (tickTimers s).control = s.control ∧ (tickTimers s).runState = s.runState ∧ (tickTimers s).rtu = s.rtu ∧
    (tickTimers s).xpe = s.xpe ∧ (tickTimers s).tly = s.tly ∧ (tickTimers s).tke = s.tke ∧ (tickTimers s).csi = s.csi ∧
    (tickTimers s).store = s.store ∧ (tickTimers s).pending = s.pending ∧ (tickTimers s).freeCount = s.freeCount := by
  simp [tickTimers]

/-- What `probeDue` leaves unchanged. -/
@[simp] theorem probeDue_frame (s : State) :
    (probeDue s).control = s.control ∧ (probeDue s).runState = s.runState ∧ (probeDue s).rtu = s.rtu ∧
    (probeDue s).xpe = s.xpe ∧ (probeDue s).tly = s.tly ∧ (probeDue s).tke = s.tke ∧ (probeDue s).csi = s.csi ∧
    (probeDue s).store = s.store ∧ (probeDue s).pending = s.pending ∧ (probeDue s).freeCount = s.freeCount := by
  unfold probeDue
  repeat' split
  all_goals simp

/-- What `nextFrame` leaves unchanged. -/
@[simp] theorem nextFrame_frame (s : State) :
    (nextFrame s).control = s.control ∧ (nextFrame s).runState = s.runState ∧ (nextFrame s).xpe = s.xpe ∧
    (nextFrame s).tly = s.tly ∧ (nextFrame s).tke = s.tke ∧ (nextFrame s).pnc = s.pnc ∧ (nextFrame s).csi = s.csi ∧
    (nextFrame s).store = s.store ∧ (nextFrame s).pending = s.pending ∧ (nextFrame s).freeCount = s.freeCount := by
  simp [nextFrame]

/-- What `tkeBoundary` leaves unchanged. -/
@[simp] theorem tkeBoundary_frame (s : State) :
    (tkeBoundary s).control = s.control ∧ (tkeBoundary s).runState = s.runState ∧ (tkeBoundary s).rtu = s.rtu ∧
    (tkeBoundary s).xpe = s.xpe ∧ (tkeBoundary s).tly = s.tly ∧ (tkeBoundary s).pnc = s.pnc ∧ (tkeBoundary s).csi = s.csi ∧
    (tkeBoundary s).store = s.store ∧ (tkeBoundary s).pending = s.pending ∧ (tkeBoundary s).freeCount = s.freeCount := by
  simp [tkeBoundary]

/-- What `makeBoundary` leaves unchanged. -/
@[simp] theorem makeBoundary_frame (g : BitVec 16) (s : State) :
    (makeBoundary g s).control = s.control ∧ (makeBoundary g s).runState = s.runState ∧
    (makeBoundary g s).pending = s.pending ∧ (makeBoundary g s).csi.anchor = s.csi.anchor ∧
    (makeBoundary g s).csi.copy = s.csi.copy ∧ (makeBoundary g s).csi.posts = s.csi.posts := by
  simp [makeBoundary]

/-- What `scalerBoundary` leaves unchanged. -/
@[simp] theorem scalerBoundary_frame (g : BitVec 16) (s : State) :
    (scalerBoundary g s).control = s.control ∧ (scalerBoundary g s).runState = s.runState ∧
    (scalerBoundary g s).pending = s.pending ∧ (scalerBoundary g s).csi.anchor = s.csi.anchor ∧
    (scalerBoundary g s).csi.copy = s.csi.copy ∧ (scalerBoundary g s).csi.posts = s.csi.posts := by
  simp [scalerBoundary]

/-- What `changeRef` leaves unchanged. -/
@[simp] theorem changeRef_frame (x : RefState) (s : State) :
    (changeRef x s).control = s.control ∧ (changeRef x s).runState = s.runState ∧ (changeRef x s).xpe = s.xpe ∧
    (changeRef x s).tly = s.tly ∧ (changeRef x s).tke = s.tke ∧ (changeRef x s).pnc = s.pnc ∧
    (changeRef x s).pending = s.pending ∧ (changeRef x s).freeCount = s.freeCount ∧
    (changeRef x s).csi.anchor = s.csi.anchor ∧ (changeRef x s).csi.copy = s.csi.copy ∧
    (changeRef x s).csi.posts = s.csi.posts ∧ (changeRef x s).csi.running = s.csi.running ∧
    (changeRef x s).csi.mirror = s.csi.mirror := by
  unfold changeRef
  repeat' split
  all_goals simp

/-- What `restartCount` leaves unchanged. -/
@[simp] theorem restartCount_frame (s : State) :
    (restartCount s).control = s.control ∧ (restartCount s).runState = s.runState ∧ (restartCount s).xpe = s.xpe ∧
    (restartCount s).tly = s.tly ∧ (restartCount s).tke = s.tke ∧ (restartCount s).pnc = s.pnc ∧
    (restartCount s).csi = s.csi ∧ (restartCount s).store = s.store ∧ (restartCount s).pending = s.pending ∧
    (restartCount s).freeCount = s.freeCount := by
  simp [restartCount]

/-- What `referencePulse` leaves unchanged. -/
@[simp] theorem referencePulse_frame (e : Nat) (g : BitVec 16) (s : State) :
    (referencePulse e g s).control = s.control ∧ (referencePulse e g s).runState = s.runState ∧
    (referencePulse e g s).pending = s.pending ∧ (referencePulse e g s).csi.anchor = s.csi.anchor ∧
    (referencePulse e g s).csi.copy = s.csi.copy ∧ (referencePulse e g s).csi.posts = s.csi.posts := by
  simp only [referencePulse]
  repeat' split
  all_goals simp

/-- What `windowClose` leaves unchanged. -/
@[simp] theorem windowClose_frame (s : State) :
    (windowClose s).control = s.control ∧ (windowClose s).runState = s.runState ∧ (windowClose s).xpe = s.xpe ∧
    (windowClose s).tly = s.tly ∧ (windowClose s).tke = s.tke ∧ (windowClose s).pnc = s.pnc ∧
    (windowClose s).pending = s.pending ∧ (windowClose s).freeCount = s.freeCount ∧
    (windowClose s).csi.anchor = s.csi.anchor ∧ (windowClose s).csi.copy = s.csi.copy ∧
    (windowClose s).csi.posts = s.csi.posts ∧ (windowClose s).csi.running = s.csi.running ∧
    (windowClose s).csi.mirror = s.csi.mirror := by
  simp only [windowClose]
  repeat' split
  all_goals simp

/-! ### Starts, resets and CONTROL -/

/-- What `takeCopy` leaves unchanged. -/
@[simp] theorem takeCopy_frame (c : AnchorCopy) (s : State) :
    (takeCopy c s).control = s.control ∧ (takeCopy c s).runState = s.runState ∧ (takeCopy c s).rtu = s.rtu ∧
    (takeCopy c s).xpe = s.xpe ∧ (takeCopy c s).tly = s.tly ∧ (takeCopy c s).tke = s.tke ∧ (takeCopy c s).pnc = s.pnc ∧
    (takeCopy c s).store = s.store ∧ (takeCopy c s).pending = s.pending ∧ (takeCopy c s).freeCount = s.freeCount ∧
    (takeCopy c s).csi.anchor = s.csi.anchor ∧ (takeCopy c s).csi.running = s.csi.running ∧
    (takeCopy c s).csi.mirror = s.csi.mirror := by
  simp [takeCopy]

/-- What `changeRate` leaves unchanged. -/
@[simp] theorem changeRate_frame (r : Rate) (s : State) :
    (changeRate r s).control = s.control ∧ (changeRate r s).runState = s.runState ∧ (changeRate r s).xpe = s.xpe ∧
    (changeRate r s).tly = s.tly ∧ (changeRate r s).tke = s.tke ∧ (changeRate r s).pnc = s.pnc ∧
    (changeRate r s).pending = s.pending ∧ (changeRate r s).freeCount = s.freeCount ∧
    (changeRate r s).csi.anchor = s.csi.anchor ∧ (changeRate r s).csi.copy = s.csi.copy ∧
    (changeRate r s).csi.posts = s.csi.posts ∧ (changeRate r s).csi.running = s.csi.running ∧
    (changeRate r s).csi.mirror = s.csi.mirror := by
  simp [changeRate]

/-- What `rejoin` leaves unchanged. -/
@[simp] theorem rejoin_frame (p : Fin 24) (s : State) :
    (rejoin p s).control = s.control ∧ (rejoin p s).runState = s.runState ∧ (rejoin p s).rtu = s.rtu ∧
    (rejoin p s).xpe = s.xpe ∧ (rejoin p s).tly = s.tly ∧ (rejoin p s).pending = s.pending ∧
    (rejoin p s).freeCount = s.freeCount ∧ (rejoin p s).csi.anchor = s.csi.anchor ∧ (rejoin p s).csi.copy = s.csi.copy ∧
    (rejoin p s).csi.posts = s.csi.posts ∧ (rejoin p s).csi.running = s.csi.running ∧
    (rejoin p s).csi.mirror = s.csi.mirror := by
  simp only [rejoin]
  split <;> simp

/-- What `enterSweep` leaves unchanged. -/
@[simp] theorem enterSweep_frame (s : State) :
    (enterSweep s).control = s.control ∧ (enterSweep s).rtu = s.rtu ∧ (enterSweep s).tly = s.tly ∧
    (enterSweep s).csi = s.csi ∧ (enterSweep s).store = s.store ∧ (enterSweep s).pending = s.pending ∧
    (enterSweep s).freeCount = s.freeCount := by
  have h1 := fun (l : List (Fin 4)) (b : State) => foldl_keeps
    (fun x : State => (x.control, x.rtu, x.tly, x.csi, x.store, x.pending, x.freeCount))
    (fun s x => serveLink x s) (by intros; simp) l b
  simp only [Prod.mk.injEq] at h1
  simp only [enterSweep, h1]
  split <;> simp

/-- What `nextComplete` leaves unchanged. -/
@[simp] theorem nextComplete_frame (s : State) :
    (nextComplete s).control = s.control ∧ (nextComplete s).runState = s.runState ∧ (nextComplete s).rtu = s.rtu ∧
    (nextComplete s).xpe = s.xpe ∧ (nextComplete s).tly = s.tly ∧ (nextComplete s).tke = s.tke ∧
    (nextComplete s).pnc = s.pnc ∧ (nextComplete s).store = s.store ∧ (nextComplete s).pending = s.pending ∧
    (nextComplete s).freeCount = s.freeCount ∧ (nextComplete s).csi.anchor = s.csi.anchor ∧
    (nextComplete s).csi.copy = s.csi.copy ∧ (nextComplete s).csi.posts = s.csi.posts ∧
    (nextComplete s).csi.running = s.csi.running := by
  simp [nextComplete]

/-- What `startActions` leaves unchanged. -/
@[simp] theorem startActions_frame (r : Rate) (c : AnchorCopy) (s : State) :
    (startActions r c s).control = s.control ∧ (startActions r c s).tly = s.tly ∧ (startActions r c s).pending = s.pending ∧
    (startActions r c s).freeCount = s.freeCount ∧ (startActions r c s).csi.anchor = s.csi.anchor ∧
    (startActions r c s).csi.running = s.csi.running := by
  have h1 := fun (b : State) => forPanels_keeps
    (fun x : State => (x.control, x.tly, x.pending, x.freeCount, x.csi.anchor, x.csi.running)) rejoin (by intros; simp) b
  simp only [Prod.mk.injEq] at h1
  simp only [startActions]
  split <;> simp [h1]

/-- What `overdueBoundary` leaves unchanged. -/
@[simp] theorem overdueBoundary_frame (r o : Rate) (g : BitVec 16) (s : State) :
    (overdueBoundary r o g s).control = s.control ∧ (overdueBoundary r o g s).runState = s.runState ∧
    (overdueBoundary r o g s).pending = s.pending ∧ (overdueBoundary r o g s).csi.anchor = s.csi.anchor ∧
    (overdueBoundary r o g s).csi.copy = s.csi.copy ∧ (overdueBoundary r o g s).csi.posts = s.csi.posts := by
  unfold overdueBoundary
  split <;> simp

/-- What `clearRun` leaves unchanged. -/
@[simp] theorem clearRun_frame (s : State) :
    (clearRun s).runState = s.runState ∧ (clearRun s).rtu = s.rtu ∧ (clearRun s).xpe = s.xpe ∧ (clearRun s).tly = s.tly ∧
    (clearRun s).tke = s.tke ∧ (clearRun s).pnc = s.pnc ∧ (clearRun s).csi = s.csi ∧ (clearRun s).store = s.store ∧
    (clearRun s).pending = s.pending ∧ (clearRun s).freeCount = s.freeCount := by
  simp [clearRun]

/-- What `tryStart` leaves unchanged. -/
@[simp] theorem tryStart_frame (g : BitVec 16) (s : State) :
    (tryStart g s).pending = s.pending ∧ (tryStart g s).csi.anchor = s.csi.anchor := by
  simp only [tryStart]
  repeat' split
  all_goals simp

/-- What `advance` leaves unchanged. -/
@[simp] theorem advance_frame (n : Nat) (s : State) :
    (advance n s).control = s.control ∧ (advance n s).runState = s.runState ∧ (advance n s).xpe = s.xpe ∧
    (advance n s).tly = s.tly ∧ (advance n s).tke = s.tke ∧ (advance n s).pnc = s.pnc ∧ (advance n s).csi = s.csi ∧
    (advance n s).store = s.store ∧ (advance n s).pending = s.pending ∧ (advance n s).freeCount = s.freeCount := by
  simp [advance]

/-- What `setMask` leaves unchanged. -/
@[simp] theorem setMask_frame (m : BitVec 5) (s : State) :
    (setMask m s).runState = s.runState ∧ (setMask m s).rtu = s.rtu ∧ (setMask m s).xpe = s.xpe ∧ (setMask m s).tly = s.tly ∧
    (setMask m s).tke = s.tke ∧ (setMask m s).pnc = s.pnc ∧ (setMask m s).csi = s.csi ∧ (setMask m s).store = s.store ∧
    (setMask m s).pending = s.pending ∧ (setMask m s).freeCount = s.freeCount := by
  simp [setMask]

/-- What `setFreezeBit` leaves unchanged. -/
@[simp] theorem setFreezeBit_frame (f : Bool) (s : State) :
    (setFreezeBit f s).runState = s.runState ∧ (setFreezeBit f s).rtu = s.rtu ∧ (setFreezeBit f s).xpe = s.xpe ∧
    (setFreezeBit f s).tly = s.tly ∧ (setFreezeBit f s).tke = s.tke ∧ (setFreezeBit f s).pnc = s.pnc ∧
    (setFreezeBit f s).store = s.store ∧ (setFreezeBit f s).pending = s.pending ∧
    (setFreezeBit f s).freeCount = s.freeCount ∧ (setFreezeBit f s).csi.anchor = s.csi.anchor ∧
    (setFreezeBit f s).csi.copy = s.csi.copy ∧ (setFreezeBit f s).csi.posts = s.csi.posts ∧
    (setFreezeBit f s).csi.running = s.csi.running := by
  simp only [setFreezeBit]
  repeat' split
  all_goals simp

/-- What `setRun` leaves unchanged. -/
@[simp] theorem setRun_frame (g : BitVec 16) (s : State) :
    (setRun g s).pending = s.pending ∧ (setRun g s).csi.anchor = s.csi.anchor := by
  simp only [setRun]
  split <;> simp

/-- What `stopStrip` leaves unchanged. -/
@[simp] theorem stopStrip_frame (s : State) :
    (stopStrip s).control = s.control ∧ (stopStrip s).runState = s.runState ∧ (stopStrip s).rtu = s.rtu ∧
    (stopStrip s).xpe = s.xpe ∧ (stopStrip s).tly = s.tly ∧ (stopStrip s).tke = s.tke ∧ (stopStrip s).pnc = s.pnc ∧
    (stopStrip s).store = s.store ∧ (stopStrip s).pending = s.pending ∧ (stopStrip s).freeCount = s.freeCount ∧
    (stopStrip s).csi.anchor = s.csi.anchor ∧ (stopStrip s).csi.copy = s.csi.copy ∧ (stopStrip s).csi.posts = s.csi.posts ∧
    (stopStrip s).csi.mirror = s.csi.mirror := by
  simp [stopStrip]

/-- What `halt` leaves unchanged. -/
@[simp] theorem halt_frame (s : State) :
    (halt s).control = s.control ∧ (halt s).rtu = s.rtu ∧ (halt s).tly = s.tly ∧ (halt s).tke = s.tke ∧
    (halt s).pnc = s.pnc ∧ (halt s).csi = s.csi ∧ (halt s).store = s.store ∧ (halt s).pending = s.pending ∧
    (halt s).freeCount = s.freeCount := by
  simp [halt]

/-- What `enterHalted` leaves unchanged. -/
@[simp] theorem enterHalted_frame (e : Nat) (g : BitVec 16) (s : State) :
    (enterHalted e g s).pending = s.pending ∧ (enterHalted e g s).csi.anchor = s.csi.anchor := by
  unfold enterHalted
  repeat' split
  all_goals simp

/-- What `examineHalting` leaves unchanged. -/
@[simp] theorem examineHalting_frame (s : State) :
    (examineHalting s).pending = s.pending ∧ (examineHalting s).csi.anchor = s.csi.anchor := by
  unfold examineHalting
  repeat' split
  all_goals simp

/-- What an event and the examination after it leave unchanged, when the event leaves it unchanged. -/
theorem examinedAfter_keeps {γ : Type} (g : State → γ) (taken : Bool) (event : State → State) (s : State)
    (h : g (event s) = g s) (he : ∀ x, g (examineHalting x) = g x) : g (examinedAfter taken event s) = g s := by
  unfold examinedAfter
  split
  · rw [he, h]
  · exact h

/-- With CONTROL RUN clear, HALTED is all that the examination of R174 can bring. -/
theorem examineHalting_stops {s : State} (h : s.control.run = false) :
    examineHalting s = if s.runState = .halting ∧ s.mayHalt = true then halt s else s := by
  simp [examineHalting, enterHalted, h]

/-- Outside HALTING the examination of R174 changes nothing. -/
theorem examineHalting_other {s : State} (h : s.runState ≠ .halting) : examineHalting s = s := by
  simp [examineHalting, enterHalted, h]

/-- In HALTING with a condition of R174 unmet the examination changes nothing. -/
theorem examineHalting_waits {s : State} (h : s.mayHalt = false) : examineHalting s = s := by
  simp [examineHalting, enterHalted, h]

/-- What `enterHalting` leaves unchanged when CONTROL RUN is clear. -/
theorem enterHalting_frame (s : State) (hr : s.control.run = false) :
    (enterHalting s).control = s.control ∧ (enterHalting s).rtu = s.rtu ∧
    (enterHalting s).tly = s.tly ∧ (enterHalting s).store = s.store ∧ (enterHalting s).pending = s.pending ∧
    (enterHalting s).freeCount = s.freeCount ∧ (enterHalting s).csi.anchor = s.csi.anchor ∧
    (enterHalting s).csi.copy = s.csi.copy ∧ (enterHalting s).csi.posts = s.csi.posts ∧
    (enterHalting s).csi.mirror = s.csi.mirror := by
  unfold enterHalting
  rw [examineHalting_stops (by simpa using hr)]
  split <;> simp

/-- What `runCleared` leaves unchanged. -/
@[simp] theorem runCleared_frame (s : State) :
    (runCleared s).rtu = s.rtu ∧ (runCleared s).tly = s.tly ∧ (runCleared s).store = s.store ∧
    (runCleared s).pending = s.pending ∧ (runCleared s).freeCount = s.freeCount ∧ (runCleared s).csi.anchor = s.csi.anchor ∧
    (runCleared s).csi.copy = s.csi.copy ∧ (runCleared s).csi.posts = s.csi.posts ∧
    (runCleared s).csi.mirror = s.csi.mirror := by
  simp only [runCleared]
  split
  · have h := enterHalting_frame (clearRun s) rfl
    simp_all
  · simp

/-- What `resetJournal` leaves unchanged. -/
@[simp] theorem resetJournal_frame (s : State) :
    (resetJournal s).control = s.control ∧ (resetJournal s).runState = s.runState ∧ (resetJournal s).rtu = s.rtu ∧
    (resetJournal s).xpe = s.xpe ∧ (resetJournal s).tly = s.tly ∧ (resetJournal s).tke = s.tke ∧
    (resetJournal s).pnc = s.pnc ∧ (resetJournal s).pending = s.pending ∧ (resetJournal s).freeCount = s.freeCount ∧
    (resetJournal s).csi.anchor = s.csi.anchor ∧ (resetJournal s).csi.copy = s.csi.copy ∧
    (resetJournal s).csi.posts = s.csi.posts ∧ (resetJournal s).csi.running = s.csi.running ∧
    (resetJournal s).csi.mirror = s.csi.mirror := by
  simp only [resetJournal]
  split <;> simp

/-- What `resetCsi` leaves unchanged. -/
@[simp] theorem resetCsi_frame (s : State) :
    (resetCsi s).control = s.control ∧ (resetCsi s).runState = s.runState ∧ (resetCsi s).rtu = s.rtu ∧
    (resetCsi s).xpe = s.xpe ∧ (resetCsi s).tly = s.tly ∧ (resetCsi s).tke = s.tke ∧ (resetCsi s).pnc = s.pnc ∧
    (resetCsi s).pending = s.pending ∧ (resetCsi s).freeCount = s.freeCount ∧ (resetCsi s).csi.anchor = s.csi.anchor ∧
    (resetCsi s).csi.copy = s.csi.copy := by
  simp [resetCsi]

/-- What `resetXpe` leaves unchanged. -/
@[simp] theorem resetXpe_frame (s : State) :
    (resetXpe s).control = s.control ∧ (resetXpe s).runState = s.runState ∧ (resetXpe s).rtu = s.rtu ∧
    (resetXpe s).tly = s.tly ∧ (resetXpe s).tke = s.tke ∧ (resetXpe s).pnc = s.pnc ∧ (resetXpe s).pending = s.pending ∧
    (resetXpe s).freeCount = s.freeCount ∧ (resetXpe s).csi.anchor = s.csi.anchor ∧ (resetXpe s).csi.copy = s.csi.copy ∧
    (resetXpe s).csi.posts = s.csi.posts ∧ (resetXpe s).csi.running = s.csi.running ∧
    (resetXpe s).csi.mirror = s.csi.mirror := by
  have h1 := fun (l : List TakeUnit) (b : State) => foldl_keeps
    (fun x : State => (x.control, x.runState, x.rtu, x.tly, x.tke, x.pnc, x.pending, x.freeCount, x.csi.anchor, x.csi.copy, x.csi.posts,
      x.csi.running, x.csi.mirror)) (fun s u => unitDone .dropped u s) (by intros; simp) l b
  simp only [Prod.mk.injEq] at h1
  simp [resetXpe, h1]

/-- What `resetTke` leaves unchanged. -/
@[simp] theorem resetTke_frame (s : State) :
    (resetTke s).control = s.control ∧ (resetTke s).runState = s.runState ∧ (resetTke s).rtu = s.rtu ∧
    (resetTke s).xpe = s.xpe ∧ (resetTke s).tly = s.tly ∧ (resetTke s).pnc = s.pnc ∧ (resetTke s).csi = s.csi ∧
    (resetTke s).store = s.store ∧ (resetTke s).pending = s.pending ∧ (resetTke s).freeCount = s.freeCount := by
  simp [resetTke]

/-- What `resetPnc` leaves unchanged. -/
@[simp] theorem resetPnc_frame (s : State) :
    (resetPnc s).control = s.control ∧ (resetPnc s).runState = s.runState ∧ (resetPnc s).rtu = s.rtu ∧
    (resetPnc s).xpe = s.xpe ∧ (resetPnc s).tly = s.tly ∧ (resetPnc s).tke = s.tke ∧ (resetPnc s).csi = s.csi ∧
    (resetPnc s).store = s.store ∧ (resetPnc s).pending = s.pending ∧ (resetPnc s).freeCount = s.freeCount := by
  simp [resetPnc]

/-- What `resetEngine` leaves unchanged. -/
@[simp] theorem resetEngine_frame (s : State) :
    (resetEngine s).rtu = s.rtu ∧ (resetEngine s).tly = s.tly ∧ (resetEngine s).pending = s.pending ∧
    (resetEngine s).freeCount = s.freeCount ∧ (resetEngine s).csi.anchor = s.csi.anchor ∧
    (resetEngine s).csi.copy = s.csi.copy := by
  simp [resetEngine]

/-- What `orphanOrders` leaves unchanged. -/
@[simp] theorem orphanOrders_frame (s : State) :
    (orphanOrders s).control = s.control ∧ (orphanOrders s).runState = s.runState ∧ (orphanOrders s).rtu = s.rtu ∧
    (orphanOrders s).tly = s.tly ∧ (orphanOrders s).tke = s.tke ∧ (orphanOrders s).csi = s.csi ∧
    (orphanOrders s).store = s.store ∧ (orphanOrders s).pending = s.pending ∧ (orphanOrders s).freeCount = s.freeCount := by
  simp [orphanOrders]

/-- What `restartInterface` leaves unchanged. -/
@[simp] theorem restartInterface_frame (s : State) :
    (restartInterface s).runState = s.runState ∧ (restartInterface s).rtu = s.rtu ∧ (restartInterface s).tly = s.tly ∧
    (restartInterface s).tke = s.tke ∧ (restartInterface s).pending = s.pending ∧
    (restartInterface s).freeCount = s.freeCount ∧ (restartInterface s).csi.anchor = s.csi.anchor ∧
    (restartInterface s).csi.copy = s.csi.copy := by
  simp [restartInterface]

/-- What `powerOn` leaves unchanged. -/
@[simp] theorem powerOn_frame (s : State) :
    (powerOn s).store = s.store ∧ (powerOn s).pending = s.pending ∧ (powerOn s).freeCount = s.freeCount := by
  simp [powerOn]

/-- What `postSlot` leaves unchanged. -/
@[simp] theorem postSlot_frame (n : Fin 8) (s : State) :
    (postSlot n s).control = s.control ∧ (postSlot n s).runState = s.runState ∧ (postSlot n s).rtu = s.rtu ∧
    (postSlot n s).xpe = s.xpe ∧ (postSlot n s).tly = s.tly ∧ (postSlot n s).tke = s.tke ∧ (postSlot n s).pnc = s.pnc ∧
    (postSlot n s).pending = s.pending ∧ (postSlot n s).freeCount = s.freeCount ∧ (postSlot n s).csi.anchor = s.csi.anchor ∧
    (postSlot n s).csi.copy = s.csi.copy ∧ (postSlot n s).csi.running = s.csi.running ∧
    (postSlot n s).csi.mirror = s.csi.mirror := by
  unfold postSlot
  repeat' split
  all_goals simp

/-- What `withdrawQueued` leaves unchanged. -/
@[simp] theorem withdrawQueued_frame (p : Posted) (s : State) :
    (withdrawQueued p s).control = s.control ∧ (withdrawQueued p s).runState = s.runState ∧
    (withdrawQueued p s).rtu = s.rtu ∧ (withdrawQueued p s).xpe = s.xpe ∧ (withdrawQueued p s).tly = s.tly ∧
    (withdrawQueued p s).tke = s.tke ∧ (withdrawQueued p s).pnc = s.pnc ∧ (withdrawQueued p s).pending = s.pending ∧
    (withdrawQueued p s).freeCount = s.freeCount ∧ (withdrawQueued p s).csi.anchor = s.csi.anchor ∧
    (withdrawQueued p s).csi.copy = s.csi.copy ∧ (withdrawQueued p s).csi.running = s.csi.running ∧
    (withdrawQueued p s).csi.mirror = s.csi.mirror := by
  simp [withdrawQueued]

/-- What `withdrawSlot` leaves unchanged. -/
@[simp] theorem withdrawSlot_frame (n : Fin 8) (s : State) :
    (withdrawSlot n s).control = s.control ∧ (withdrawSlot n s).runState = s.runState ∧ (withdrawSlot n s).rtu = s.rtu ∧
    (withdrawSlot n s).xpe = s.xpe ∧ (withdrawSlot n s).tly = s.tly ∧ (withdrawSlot n s).tke = s.tke ∧
    (withdrawSlot n s).pnc = s.pnc ∧ (withdrawSlot n s).pending = s.pending ∧ (withdrawSlot n s).freeCount = s.freeCount ∧
    (withdrawSlot n s).csi.anchor = s.csi.anchor ∧ (withdrawSlot n s).csi.copy = s.csi.copy ∧
    (withdrawSlot n s).csi.mirror = s.csi.mirror := by
  unfold withdrawSlot
  repeat' split
  all_goals simp

/-- What `salvoStrip` leaves unchanged. -/
@[simp] theorem salvoStrip_frame (rs : List OrderRecord) (s : State) :
    ((salvoStrip rs s).1).control = s.control ∧ ((salvoStrip rs s).1).runState = s.runState ∧
    ((salvoStrip rs s).1).rtu = s.rtu ∧ ((salvoStrip rs s).1).tly = s.tly ∧ ((salvoStrip rs s).1).tke = s.tke ∧
    ((salvoStrip rs s).1).pending = s.pending ∧ ((salvoStrip rs s).1).freeCount = s.freeCount ∧
    ((salvoStrip rs s).1).csi.anchor = s.csi.anchor ∧ ((salvoStrip rs s).1).csi.copy = s.csi.copy ∧
    ((salvoStrip rs s).1).csi.posts = s.csi.posts ∧ ((salvoStrip rs s).1).csi.running = s.csi.running ∧
    ((salvoStrip rs s).1).csi.mirror = s.csi.mirror := by
  simp only [salvoStrip, decideStrip]
  repeat' split
  all_goals simp

/-- What `runSalvoStrip` leaves unchanged. -/
@[simp] theorem runSalvoStrip_frame (p : Posted) (s : State) :
    (runSalvoStrip p s).control = s.control ∧ (runSalvoStrip p s).runState = s.runState ∧ (runSalvoStrip p s).rtu = s.rtu ∧
    (runSalvoStrip p s).tly = s.tly ∧ (runSalvoStrip p s).tke = s.tke ∧ (runSalvoStrip p s).pending = s.pending ∧
    (runSalvoStrip p s).freeCount = s.freeCount ∧ (runSalvoStrip p s).csi.anchor = s.csi.anchor ∧
    (runSalvoStrip p s).csi.copy = s.csi.copy ∧ (runSalvoStrip p s).csi.posts = s.csi.posts ∧
    (runSalvoStrip p s).csi.running = s.csi.running ∧ (runSalvoStrip p s).csi.mirror = s.csi.mirror := by
  simp [runSalvoStrip]

/-- What `startStrip` leaves unchanged. -/
@[simp] theorem startStrip_frame (s : State) :
    (startStrip s).control = s.control ∧ (startStrip s).runState = s.runState ∧ (startStrip s).rtu = s.rtu ∧
    (startStrip s).tly = s.tly ∧ (startStrip s).tke = s.tke ∧ (startStrip s).pending = s.pending ∧
    (startStrip s).freeCount = s.freeCount ∧ (startStrip s).csi.anchor = s.csi.anchor ∧
    (startStrip s).csi.copy = s.csi.copy ∧ (startStrip s).csi.mirror = s.csi.mirror := by
  simp only [startStrip]
  repeat' split
  all_goals simp

end Sys2Proof.Machine
end

