-- ==== Sys2Proof/Laws/Effects.lean ====
section
/-! SUPPORT. What the shared operations do: a register access, an order in a strip, a lamp derivation, a talk derivation, a settled map. -/

namespace Sys2Proof.Machine

/-! ### Numbers and requests -/

/-- A number below the bound names its thing. -/
theorem finOf_eq {n x : Nat} (i : Fin n) (h : x = i.1) : finOf n x = some i := by
  subst h
  simp [finOf]

/-- A number at or above the bound names nothing. -/
theorem finOf_ge {n x : Nat} (h : n ≤ x) : finOf n x = none := by
  simp [finOf, Nat.not_lt.mpr h]

/-- Protection lets a requester through just where there is no protect, or the requester is its owner or beats it. -/
theorem protectAllows_iff (p : Option Protect) (owner : Owner) (level : Fin 4) :
    protectAllows p owner level = true ↔ p = none ∨ ∃ x, p = some x ∧ (x.owner = owner ∨ level < x.level) := by
  cases p <;> simp [protectAllows, beats]

/-- SWEEP and RUNNING are the serving run states. -/
theorem serving_iff (s : State) : s.serving = true ↔ s.runState = .sweep ∨ s.runState = .running := by
  simp [State.serving]

/-! ### Register accesses of the control computer -/

/-- Writes that lie inside the store name no address outside it. -/
theorem hostOutside_inside {pre : HostWrites} (h : writesInside pre = true) : hostOutside pre = none := by
  induction pre with
  | nil => rfl
  | cons c cs ih =>
    simp only [writesInside, List.all_cons, Bool.and_eq_true, decide_eq_true_eq] at h ih
    simp [hostOutside, h.1, ih h.2]

/-- Writes that lie inside the store are all made, and then the access is. -/
theorem landed_inside {pre : HostWrites} (h : writesInside pre = true) (s : State) (access : State → State) :
    landed pre s access = .next (access (s.withWrites pre)) := by
  simp [landed, hostOutside_inside h]

/-- A write that lies outside stops the access at its address. -/
theorem landed_outside {pre : HostWrites} (h : writesInside pre = false) (s : State) (access : State → State) :
    ∃ a, storeSize ≤ a ∧ landed pre s access = .fault (.outsideStore a) := by
  have hn : ∃ a, storeSize ≤ a ∧ hostOutside pre = some a := by
    induction pre with
    | nil => simp [writesInside] at h
    | cons c cs ih =>
      by_cases hc : c.1 < storeSize
      · have : writesInside cs = false := by simpa [writesInside, hc] using h
        obtain ⟨a, ha, hb⟩ := ih this
        exact ⟨a, ha, by simp [hostOutside, hc, hb]⟩
      · exact ⟨c.1, Nat.not_lt.mp hc, by simp [hostOutside, hc]⟩
  obtain ⟨a, ha, hb⟩ := hn
  exact ⟨a, ha, by simp [landed, hb]⟩

/-! ### Orders of a strip -/

/-- The strip that is at an order is running and not waiting. -/
theorem currentOrder_running {s : State} {r : Running} {rec : OrderRecord} (h : s.currentOrder = some (r, rec)) :
    s.csi.running = some r ∧ r.waiting = none ∧ rec = storeReads s.store (orderAddress r.slot r.next) 32 := by
  unfold State.currentOrder at h
  split at h
  · simp at h
  · rename_i r' hr
    split at h
    · rename_i hw
      simp only [Option.some.injEq, Prod.mk.injEq] at h
      obtain ⟨rfl, rfl⟩ := h
      exact ⟨hr, hw, rfl⟩
    · simp at h

/-- An order of the command's kind with a requester goes to its block. -/
theorem workOrder_working {k : Nat} {block : Requester → OrderRecord → State → State × Answer} {s : State} {r : Running}
    {rec : OrderRecord} {q : Requester} (h : s.working k r rec q) : workOrder k block s = takeAnswer r (block q rec s) := by
  obtain ⟨h1, h2, h3⟩ := h
  simp [workOrder, h1, h2, h3]

/-- A strip's order of the command's kind with a requester is worked, and R174's conditions are examined after it. -/
theorem runOrder_working {k : Nat} {block : Requester → OrderRecord → State → State × Answer} {s : State} {r : Running}
    {rec : OrderRecord} {q : Requester} (h : s.working k r rec q) :
    runOrder k block s = examineHalting (takeAnswer r (block q rec s)) := by
  simp [runOrder, examinedAfter, (currentOrder_running h.1).1, workOrder_working h]

/-- A command of another kind than the order's is no step of the strip, and changes nothing. -/
theorem runOrder_other {k : Nat} {block : Requester → OrderRecord → State → State × Answer} {s : State} {r : Running}
    {rec : OrderRecord} (h : s.currentOrder = some (r, rec)) (hk : orderKind rec ≠ k) : runOrder k block s = s := by
  have hr := (currentOrder_running h).1
  simp [runOrder, examinedAfter, hr, workOrder, h, hk, examineHalting_waits, State.mayHalt]

/-- An order's outcome does not depend on the waiting mark that it ends. -/
theorem finishOrder_unmark (r : Running) (w : Option FrameIndex) (c : Code) (n : Nat) (f : FrameIndex) (s : State) :
    finishOrder { r with waiting := w } c n f s = finishOrder r c n f s := rfl

/-- An order's outcome replaces the running strip's record, whatever it was. -/
theorem finishOrder_running (r : Running) (c : Code) (n : Nat) (f : FrameIndex) (s : State) (x : Option Running) :
    finishOrder r c n f { s with csi := { s.csi with running := x } } = finishOrder r c n f s := by
  unfold finishOrder writeCounts writeOutcome State.withWrites State.reading
  cases h : s.csi.copy <;> simp [h, State.put]

/-! ### Lamps -/

/-- A panel record but for its lamp image and lamp set. -/
def Panel.still (x : Panel) : Panel := { x with image := Vector.replicate 48 .off, lampSet := [] }

/-- A new lamp image leaves the rest of a panel record. -/
@[simp] theorem withImage_still (x : Panel) (image : Vector Lamp 48) : (x.withImage image).still = x.still := rfl

/-- Relighting a panel gives it a new image, and leaves every other panel. -/
theorem relight_panel (p q : Fin 24) (which : Fin 48 → Bool) (s : State) :
    (relight p which s).panel q = if p = q then (s.panel p).withImage (s.relit p which) else s.panel q := by
  simp [relight, setPanel_panel]

/-- Relighting leaves the rest of every panel record. -/
@[simp] theorem relight_still (p q : Fin 24) (which : Fin 48 → Bool) (s : State) :
    ((relight p which s).panel q).still = (s.panel q).still := by
  rw [relight_panel]
  split
  · rename_i h
    subst h
    simp
  · rfl

/-- Deriving a panel's lamps leaves the rest of every panel record. -/
@[simp] theorem derivePanel_still (p q : Fin 24) (s : State) : ((derivePanel p s).panel q).still = (s.panel q).still := by
  unfold derivePanel
  split <;> simp

/-- Relighting talk keys leaves the rest of every panel record. -/
@[simp] theorem relightTalk_still (p q : Fin 24) (s : State) : ((relightTalk p s).panel q).still = (s.panel q).still := by
  unfold relightTalk
  split <;> simp

/-- Deriving every lamp leaves the rest of every panel record. -/
@[simp] theorem deriveLamps_still (q : Fin 24) (s : State) : ((deriveLamps s).panel q).still = (s.panel q).still :=
  forPanels_keeps (fun s => (s.panel q).still) _ (fun p s => derivePanel_still p q s) s

/-- Parts of a state that share the PNC share their panel records. -/
theorem panel_of_pnc {s t : State} (h : t.pnc = s.pnc) (q : Fin 24) : t.panel q = s.panel q := by
  simp [State.panel, h]

/-- What a refusal does to panel records (R141): the key's timer is 16 and its lamp is derived, and no other panel changes. -/
theorem refuseKey_panel (p q : Fin 24) (k : Fin 48) (c : Code) (s : State) :
    let x := { s.panel p with timers := upd (s.panel p).timers k 16 }
    (refuseKey p k c s).panel q = if p = q then x.withImage ((s.setPanel p x).relit p fun j => decide (j = k)) else s.panel q := by
  intro x
  have h : (refuseKey p k c s).pnc = (relight p (fun j => decide (j = k)) (s.setPanel p x)).pnc := (reportNow_frame _ _).2.2.2.2.2.2.1
  rw [panel_of_pnc h, relight_panel, setPanel_panel, setPanel_panel]
  split <;> simp_all

/-- What the end of one refusal flash does to panel records (R141, R142). -/
theorem endFlash_panel (p q : Fin 24) (k : Fin 48) (s : State) :
    (endFlash p k s).panel q =
      if p = q then (s.panel p).withImage (s.relit p fun j => decide ((s.panel p).state = .online ∨ j = k)) else s.panel q :=
  relight_panel p q _ s

/-- A derivation leaves the rest of every panel record. -/
@[simp] theorem derivation_still (q : Fin 24) (s : State) : ((derivation s).panel q).still = (s.panel q).still := by
  unfold derivation
  rw [forPanels_keeps (fun s => (s.panel q).still) _ (fun p s => relightTalk_still p q s)]
  congr 1
  apply panel_of_pnc
  simp

/-- A force-off leaves the rest of every panel record. -/
@[simp] theorem forceOff_still (w : Fin 24 → Fin 48 → Bool) (q : Fin 24) (s : State) :
    ((forceOff w s).panel q).still = (s.panel q).still := by
  unfold forceOff
  split
  · rw [derivation_still]
    exact congrArg Panel.still (panel_of_pnc (by simp) q)
  · rfl

/-- Changing a panel's selection leaves every other panel record but its lamps. -/
theorem reselect_still (p q : Fin 24) (f : Selection → Selection) (s : State) :
    ((reselect p f s).panel q).still =
      if p = q then { (s.panel p).still with selection := f (s.panel p).selection } else (s.panel q).still := by
  unfold reselect
  rw [derivePanel_still, setPanel_panel]
  split <;> rfl

/-! ### Talk derivations -/

/-- What a derivation leaves of the TKE. -/
@[simp] theorem derivation_talk (s : State) :
    (derivation s).tke.ports = s.tke.ports ∧ (derivation s).tke.groups = s.tke.groups ∧ (derivation s).tke.ifbs = s.tke.ifbs ∧
    (derivation s).tke.keys = s.tke.keys ∧ (derivation s).tke.link = s.tke.link ∧ (derivation s).tke.fails = s.tke.fails ∧
    (derivation s).tke.latchDue = s.tke.latchDue := by
  unfold derivation
  rw [forPanels_keeps (fun s => s.tke) _ (fun p s => by simp)]
  unfold talkSend
  repeat' split
  all_goals simp [enterFeeds, enterXpts, deriveSets]

/-- The state of a key, from the TKE's table. -/
theorem keyState_of_keys {s t : State} (h : t.tke.keys = s.tke.keys) (p : Fin 24) (k : Fin 48) : t.keyState p k = s.keyState p k := by
  simp [State.keyState, h]

/-- A derivation moves no key. -/
@[simp] theorem derivation_keyState (s : State) (p : Fin 24) (k : Fin 48) : (derivation s).keyState p k = s.keyState p k :=
  keyState_of_keys (by simp) p k

/-- The state of a key after some become IDLE. -/
@[simp] theorem idleKeys_keyState (w : Fin 24 → Fin 48 → Bool) (s : State) (p : Fin 24) (k : Fin 48) :
    (idleKeys w s).keyState p k = if w p k = true then .idle else s.keyState p k := by
  simp [idleKeys, State.keyState]

/-- The state of a key after a force-off. -/
@[simp] theorem forceOff_keyState (w : Fin 24 → Fin 48 → Bool) (s : State) (p : Fin 24) (k : Fin 48) :
    (forceOff w s).keyState p k = if w p k = true then .idle else s.keyState p k := by
  unfold forceOff
  split
  · simp
  · rename_i h
    split
    · rename_i hw
      by_contra hc
      apply h
      simp only [anyBusy, List.any_eq_true, List.mem_finRange, true_and, Bool.and_eq_true, decide_eq_true_eq]
      exact ⟨p, k, hw, fun he => hc he⟩
    · rfl

/-- The map of a panel, from the rest of its record. -/
theorem map_of_still {x y : Panel} (h : x.still = y.still) : x.map = y.map :=
  (congrArg Panel.map h : x.still.map = y.still.map)

/-- The station port of a panel, from the rest of its record. -/
theorem station_of_still {x y : Panel} (h : x.still = y.still) : x.station = y.station :=
  (congrArg Panel.station h : x.still.station = y.still.station)

/-- What a key does, from the rest of its panel's record. -/
theorem keyAction_of_still {s t : State} {p : Fin 24} (h : (t.panel p).still = (s.panel p).still) (k : Fin 48) :
    t.keyAction p k = s.keyAction p k := by
  simp [State.keyAction, map_of_still h]

/-- The active keys depend on the panels' stations and maps, the key states, the groups and the IFB records. -/
theorem activeKeys_congr {s t : State} (hp : ∀ q, (t.panel q).still = (s.panel q).still) (hk : t.tke.keys = s.tke.keys)
    (hg : t.tke.groups = s.tke.groups) (hi : t.tke.ifbs = s.tke.ifbs) : t.activeKeys = s.activeKeys := by
  have ht : t.targetSet = s.targetSet := by
    funext x
    cases x <;> simp [State.targetSet, hg, hi]
  unfold State.activeKeys
  congr 1
  funext p
  unfold State.activeKeysOf
  rw [station_of_still (hp p)]
  split
  · rfl
  · congr 1
    funext k
    simp only [keyState_of_keys hk, keyAction_of_still (hp p), ht]

/-- The level law's value for a crosspoint depends on the derived sets, the ports and the panels' maps. -/
theorem xptCoeff_congr {s t : State} (hp : ∀ q, (t.panel q).still = (s.panel q).still) (hpaths : t.tke.paths = s.tke.paths)
    (hports : t.tke.ports = s.tke.ports) (htalk : t.tke.talking = s.tke.talking) (a b : Fin 32) : t.xptCoeff a b = s.xptCoeff a b := by
  unfold State.xptCoeff
  rw [hpaths]
  split
  · rfl
  · have hg : ∀ p, t.pathGain p = s.pathGain p := by
      intro p
      unfold State.pathGain
      simp only [keyAction_of_still (hp _)]
    simp [State.rawSum, hports, htalk, hg]

/-- A programme feed's value depends on the IFB records, the ports and the incoming-talk set. -/
theorem feedValue_congr {s t : State} (hi : t.tke.ifbs = s.tke.ifbs) (hports : t.tke.ports = s.tke.ports)
    (hin : t.tke.incoming = s.tke.incoming) (i : Fin 8) : t.feedValue i = s.feedValue i := by
  unfold State.feedValue State.feedCoeff
  rw [hi, hports, hin]

/-- The talk link's next write leaves the tables of the TKE. -/
theorem talkSend_tables (s : State) :
    (talkSend s).tke.ports = s.tke.ports ∧ (talkSend s).tke.groups = s.tke.groups ∧ (talkSend s).tke.ifbs = s.tke.ifbs ∧
    (talkSend s).tke.keys = s.tke.keys ∧ (talkSend s).tke.paths = s.tke.paths ∧ (talkSend s).tke.talking = s.tke.talking ∧
    (talkSend s).tke.incoming = s.tke.incoming ∧ (talkSend s).tke.target = s.tke.target ∧ (talkSend s).tke.feeds = s.tke.feeds ∧
    (talkSend s).tke.queue = s.tke.queue ∧ (talkSend s).tke.fails = s.tke.fails ∧ (talkSend s).tke.link = s.tke.link ∧
    (talkSend s).tke.latchDue = s.tke.latchDue := by
  unfold talkSend
  repeat' split
  all_goals simp

/-! ### The derived sets and the level law in the terms of the statements -/

/-- A key is active with its panel's station port `a` just where it talks from `a`. -/
theorem keyTalks_iff (s : State) (p : Fin 24) (k : Fin 48) (a : Fin 32) :
    s.keyTalks p k a ↔ (s.panel p).station = some a ∧ (s.keyState p k).active = true := by
  unfold State.keyTalks KeyState.active
  refine and_congr_right fun _ => ?_
  cases s.keyState p k <;> simp

/-- The target set and the gain with which a key stands in a derivation. -/
def State.keyAims (s : State) (p : Fin 24) (k : Fin 48) : PortSet × Int :=
  match s.keyAction p k with
  | .talk t _ g => (s.targetSet t, g)
  | _ => (0, 0)

/-- The active key that a derivation sees for a key of a panel with station port `a`. -/
def State.activeKey (s : State) (p : Fin 24) (k : Fin 48) (a : Fin 32) : ActiveKey :=
  { station := a, panel := p, key := k, targets := (s.keyAims p k).1, gain := (s.keyAims p k).2 }

/-- The active keys are those that talk. -/
theorem mem_activeKeys (s : State) (x : ActiveKey) : x ∈ s.activeKeys ↔ ∃ p k a, s.keyTalks p k a ∧ x = s.activeKey p k a := by
  have h : ∀ p, x ∈ s.activeKeysOf p ↔ ∃ k a, s.keyTalks p k a ∧ x = s.activeKey p k a := by
    intro p
    unfold State.activeKeysOf
    cases hs : (s.panel p).station with
    | none => simp [keyTalks_iff, hs]
    | some a =>
      simp only [List.mem_filterMap, List.mem_finRange, true_and, keyTalks_iff, hs, Option.some.injEq]
      refine exists_congr fun k => ?_
      by_cases hk : (s.keyState p k).active = true
      · simp only [hk, if_true, and_true, exists_eq_left', State.activeKey, State.keyAims]
        cases s.keyAction p k <;> exact ⟨fun h => (Option.some.inj h).symm, fun h => h ▸ rfl⟩
      · simp [hk]
  simp only [State.activeKeys, List.mem_flatMap, List.mem_finRange, true_and, h]

/-- A set made of one port. -/
theorem hasPort_single (q b : Fin 32) : hasPort (portSetOf fun x => decide (x = q)) b = true ↔ b = q := by
  simp [hasPort, portSetOf]

/-- The talk mode that a byte names. -/
theorem talkModeOf_some (x : Nat) : (∃ m, talkModeOf x = some m) ↔ x ≤ 2 := by
  unfold talkModeOf
  rcases x with _ | _ | _ | x <;> simp

/-- What a talk key's entry means, by its bytes. -/
theorem action_talk (e : KeyEntry) (t : TalkTarget) (g : Int) :
    (∃ m, e.action = .talk t m g) ↔ e.fn = .talk ∧ talkTargetOf e.target.toNat e.arg.toNat = some t ∧ e.mode.toNat ≤ 2 ∧ g = e.gain.toInt := by
  rw [← talkModeOf_some]
  unfold KeyEntry.action KeyEntry.meaning
  cases hf : e.fn <;> simp only [Option.getD_some, reduceCtorEq, exists_false, false_and, true_and]
  case talk =>
    cases talkTargetOf e.target.toNat e.arg.toNat <;> cases talkModeOf e.mode.toNat <;> simp [eq_comm]
  case select =>
    cases finOf 64 e.arg.toNat <;> cases maskOf e.mask.toNat <;> simp
  all_goals (first | (cases lampOfByte e.lamp.toNat <;> simp; done) | (cases sourceOf e.arg.toNat <;> simp; done) |
    (cases finOf 8 e.arg.toNat <;> simp; done) | (cases finOf 16 e.arg.toNat <;> simp))

/-- The ports that a target names, by the bytes of a talk key's entry. -/
theorem hasPort_target (s : State) (e : KeyEntry) (b : Fin 32) :
    (∃ t, talkTargetOf e.target.toNat e.arg.toNat = some t ∧ hasPort (s.targetSet t) b = true) ↔
      (e.target = 0 ∧ e.arg.toNat = b.1) ∨ (e.target = 1 ∧ ∃ g : Fin 8, e.arg.toNat = g.1 ∧ s.tke.groups[g].getLsbD b.1 = true) ∨
      (e.target = 2 ∧ ∃ i : Fin 8, e.arg.toNat = i.1 ∧ s.tke.ifbs[i].port = some b) := by
  have ht : ∀ n : Nat, n < 256 → (e.target = BitVec.ofNat 8 n ↔ e.target.toNat = n) := by
    intro n hn
    rw [← BitVec.toNat_inj, BitVec.toNat_ofNat, Nat.mod_eq_of_lt (by simpa using hn)]
  have h0 := ht 0 (by omega)
  have h1 := ht 1 (by omega)
  have h2 := ht 2 (by omega)
  rw [show (e.target = 0 ↔ e.target.toNat = 0) from h0, show (e.target = 1 ↔ e.target.toNat = 1) from h1,
    show (e.target = 2 ↔ e.target.toNat = 2) from h2]
  unfold talkTargetOf
  by_cases c0 : e.target.toNat = 0
  · simp only [c0, if_true, true_and, Nat.zero_ne_one, false_and, or_false, (by decide : (0 : Nat) ≠ 2)]
    constructor
    · rintro ⟨t, ht, hb⟩
      obtain ⟨p, hp, rfl⟩ := Option.map_eq_some_iff.mp ht
      rw [State.targetSet, hasPort_single] at hb
      subst hb
      unfold finOf at hp
      split at hp <;> simp_all
      rw [← hp]
    · intro h
      exact ⟨.port b, by rw [finOf_eq b h]; rfl, (hasPort_single b b).mpr rfl⟩
  by_cases c1 : e.target.toNat = 1
  · simp only [c1, if_false, if_true, true_and, false_and, false_or, or_false, (by decide : (1 : Nat) ≠ 0), (by decide : (1 : Nat) ≠ 2)]
    constructor
    · rintro ⟨t, ht, hb⟩
      obtain ⟨g, hg, rfl⟩ := Option.map_eq_some_iff.mp ht
      refine ⟨g, ?_, hb⟩
      unfold finOf at hg
      split at hg <;> simp_all
      rw [← hg]
    · rintro ⟨g, hg, hb⟩
      exact ⟨.group g, by rw [finOf_eq g hg]; rfl, hb⟩
  by_cases c2 : e.target.toNat = 2
  · simp only [c2, if_false, if_true, true_and, false_and, false_or, (by decide : (2 : Nat) ≠ 0), (by decide : (2 : Nat) ≠ 1)]
    constructor
    · rintro ⟨t, ht, hb⟩
      obtain ⟨i, hi, rfl⟩ := Option.map_eq_some_iff.mp ht
      refine ⟨i, ?_, ?_⟩
      · unfold finOf at hi
        split at hi <;> simp_all
        rw [← hi]
      · change hasPort (match s.tke.ifbs[i].port with | none => 0 | some p => portSetOf fun q => decide (q = p)) b = true at hb
        split at hb
        · simp [hasPort] at hb
        · rename_i p hp
          rw [hp, (hasPort_single p b).mp hb]
    · rintro ⟨i, hi, hb⟩
      exact ⟨.ifb i, by rw [finOf_eq i hi]; rfl, by simp only [State.targetSet, hb]; exact (hasPort_single b b).mpr rfl⟩
  · simp [c0, c1, c2]

/-- A key stands with port `b` in its target set just where its entry reaches it. -/
theorem keyAims_reaches (s : State) (p : Fin 24) (k : Fin 48) (b : Fin 32) : hasPort (s.keyAims p k).1 b = true ↔ s.keyReaches p k b := by
  unfold State.keyReaches State.keyAims State.keyAction
  generalize (s.panel p).map[k] = e
  have h := action_talk e
  simp only [← hasPort_target s e b]
  split
  · rename_i t m g ha
    obtain ⟨h1, h2, h3, -⟩ := (h t g).mp ⟨m, ha⟩
    simp only [h1, h2, h3, true_and, Option.some.injEq, exists_eq_left']
  · rename_i hn
    constructor
    · intro h0
      simp [hasPort] at h0
    rintro ⟨h1, h2, t, h3, -⟩
    obtain ⟨m, hm⟩ := (h t _).mpr ⟨h1, h3, h2, rfl⟩
    exact absurd hm (hn _ _ _)

/-- A key that reaches a port talks with its entry's gain. -/
theorem keyReaches_talk {s : State} {p : Fin 24} {k : Fin 48} {b : Fin 32} (h : s.keyReaches p k b) :
    ∃ t m, s.keyAction p k = .talk t m (s.panel p).map[k].gain.toInt := by
  obtain ⟨h1, h2, h3⟩ := h
  obtain ⟨t, ht, -⟩ := (hasPort_target s _ b).mpr h3
  obtain ⟨m, hm⟩ := (action_talk _ t _).mpr ⟨h1, ht, h2, rfl⟩
  exact ⟨t, m, hm⟩

/-- The keys that give a path are those that talk from `a` and reach `b`. -/
theorem mem_givingKeys (s : State) (a b : Fin 32) (x : ActiveKey) :
    x ∈ givingKeys s.activeKeys a b ↔ ∃ p k, s.keyTalks p k a ∧ s.keyReaches p k b ∧ x = s.activeKey p k a := by
  simp only [givingKeys, List.mem_filter, mem_activeKeys, Bool.and_eq_true, decide_eq_true_eq]
  constructor
  · rintro ⟨⟨p, k, a', h, rfl⟩, rfl, hb⟩
    exact ⟨p, k, h, (keyAims_reaches s p k b).mp hb, rfl⟩
  · rintro ⟨p, k, h, hb, rfl⟩
    exact ⟨⟨p, k, a, h, rfl⟩, rfl, (keyAims_reaches s p k b).mpr hb⟩

/-- The path from `a` to `b` is given just where it stands, by the keys that talk from `a` and reach `b`. -/
theorem pathOf_some (s : State) (a b : Fin 32) (x : TalkPath) :
    pathOf s.tke.ports s.activeKeys a b = some x ↔
      s.pathStands a b ∧ x = { talker := a, listener := b, keys := (givingKeys s.activeKeys a b).map fun k => (k.panel, k.key) } := by
  have hg : givingKeys s.activeKeys a b ≠ [] ↔ ∃ p k, s.keyTalks p k a ∧ s.keyReaches p k b := by
    constructor
    · intro h
      obtain ⟨x, hx⟩ := List.exists_mem_of_ne_nil _ h
      obtain ⟨p, k, h1, h2, -⟩ := (mem_givingKeys s a b x).mp hx
      exact ⟨p, k, h1, h2⟩
    · rintro ⟨p, k, h1, h2⟩
      exact List.ne_nil_of_mem ((mem_givingKeys s a b _).mpr ⟨p, k, h1, h2, rfl⟩)
  unfold pathOf State.pathStands
  split
  · rename_i h
    rw [hg] at h
    exact ⟨fun hx => ⟨h, (Option.some.inj hx).symm⟩, fun hx => congrArg some hx.2.symm⟩
  · rename_i h
    rw [hg] at h
    simp only [h, false_and, reduceCtorEq]

/-- The active paths are those that stand. -/
theorem mem_pathsOf (s : State) (x : TalkPath) :
    x ∈ pathsOf s.tke.ports s.activeKeys ↔ s.pathStands x.talker x.listener ∧
      x.keys = (givingKeys s.activeKeys x.talker x.listener).map fun k => (k.panel, k.key) := by
  simp only [pathsOf, List.mem_flatMap, List.mem_finRange, true_and, List.mem_filterMap, pathOf_some]
  constructor
  · rintro ⟨a, b, h, rfl⟩
    exact ⟨h, rfl⟩
  · intro h
    exact ⟨x.talker, x.listener, h.1, by rw [← h.2]⟩

/-- No two active paths have one talker and one listener. -/
theorem pathsOf_nodup (s : State) : ((pathsOf s.tke.ports s.activeKeys).map fun x => (x.talker, x.listener)).Nodup := by
  have hn : ∀ n, (List.finRange n).Nodup := fun n => List.nodup_finRange n
  have hk : ∀ a b x, pathOf s.tke.ports s.activeKeys a b = some x → x.talker = a ∧ x.listener = b := by
    intro a b x h
    rw [(pathOf_some s a b x).mp h |>.2]
    exact ⟨rfl, rfl⟩
  unfold pathsOf
  rw [List.map_flatMap, List.nodup_flatMap]
  constructor
  · intro a _
    rw [List.map_filterMap]
    refine List.Nodup.filterMap ?_ (hn 32)
    intro b b' c h h'
    simp only [Option.mem_def, Option.map_eq_some_iff] at h h'
    obtain ⟨x, hx, rfl⟩ := h
    obtain ⟨y, hy, he⟩ := h'
    rw [← (hk a b x hx).2, ← (hk a b' y hy).2]
    exact (congrArg Prod.snd he).symm
  · refine (hn 32).imp ?_
    intro a a' hne z hz hz'
    simp only [List.mem_map, List.mem_filterMap, List.mem_finRange, true_and] at hz hz'
    obtain ⟨x, ⟨b, hb⟩, rfl⟩ := hz
    obtain ⟨y, ⟨b', hb'⟩, he⟩ := hz'
    apply hne
    rw [← (hk _ _ _ hb).1, ← (hk _ _ _ hb').1]
    exact (congrArg Prod.fst he).symm

/-- The level law's table and its shift are those of the statements' terms. -/
theorem coefficient_lawGives (g : Int) : lawGives g (coefficient g) := by
  constructor
  · intro h
    simp [coefficient, h]
  · intro h
    have hc : coefficient g = BitVec.ofNat 16 (levelLaw (min g 24)) := by
      unfold coefficient
      rw [if_neg (by omega)]
      congr 2
      split <;> omega
    have hr0 := Int.emod_nonneg (min g 24) (by decide : (12 : Int) ≠ 0)
    have hr1 := Int.emod_lt_of_pos (min g 24) (by decide : (0 : Int) < 12)
    have hm : lawTable.getD ((min g 24) % 12).toNat 0 < 32768 := by
      have : ∀ i, lawTable.getD i 0 < 32768 := by
        intro i
        by_cases hi : i < 12
        · interval_cases i <;> decide
        · rw [List.getD_eq_default _ _ (by simp [lawTable]; omega)]
          decide
      exact this _
    refine ⟨min g 24 / 12, ⟨((min g 24) % 12).toNat, by omega⟩, ?_, ?_⟩
    · simp only []
      omega
    · intro m
      have hl : m = lawTable.getD ((min g 24) % 12).toNat 0 := rfl
      rw [← hl] at hm
      constructor
      · intro n hn
        have hv : levelLaw (min g 24) = min 65535 (m * 2 ^ n) := by
          unfold levelLaw
          simp only [hn, ← hl]
          rw [if_pos (by omega)]
          rfl
        rw [hc, hv, BitVec.toNat_ofNat, Nat.mod_eq_of_lt (by omega)]
      · intro n hn
        have hv : levelLaw (min g 24) = (m + 2 ^ n) / 2 ^ (n + 1) := by
          unfold levelLaw
          simp only [hn, ← hl]
          rw [if_neg (by omega), show (-(-(n : Int) - 1)).toNat = n + 1 by omega]
          rfl
        have hlt : (m + 2 ^ n) / 2 ^ (n + 1) < 2 ^ 16 := by
          refine Nat.div_lt_of_lt_mul ?_
          have := Nat.one_le_two_pow (n := n)
          rw [Nat.pow_succ]
          omega
        rw [hc, hv, BitVec.toNat_ofNat, Nat.mod_eq_of_lt hlt]

/-- A value reached by every later one and by none but them is the largest of a list. -/
theorem foldl_max_eq (gs : List Int) (g m : Int) (hm : m ∈ g :: gs) (hu : ∀ x ∈ g :: gs, x ≤ m) : gs.foldl max g = m := by
  induction gs generalizing g with
  | nil => simpa [eq_comm] using hm
  | cons y ys ih =>
    simp only [List.foldl_cons]
    apply ih
    · simp only [List.mem_cons] at hm ⊢
      rcases hm with rfl | rfl | h
      · left; have := hu y (by simp); omega
      · left; have := hu g (by simp); omega
      · exact Or.inr h
    · intro x hx
      simp only [List.mem_cons] at hx
      rcases hx with rfl | hx
      · have := hu g (by simp); have := hu y (by simp); omega
      · exact hu x (by simp [hx])

/-- The derived sets and the target table are what the model's derivation computes from the keys and the tables. -/
def State.talkComputed (s : State) : Prop :=
  s.tke.paths = pathsOf s.tke.ports s.activeKeys ∧ s.tke.talking = talkingOf s.activeKeys ∧ s.tke.incoming = incomingOf s.tke.paths ∧
  (∀ a b : Fin 32, s.tke.target[a][b] = s.xptCoeff a b) ∧ ∀ i : Fin 8, s.tke.feeds[i] = s.feedValue i

/-- The gain of a path is the largest among the keys that give it. -/
theorem pathGain_eq {s : State} {x : TalkPath} {p : Fin 24} {k : Fin 48} (hx : x ∈ pathsOf s.tke.ports s.activeKeys)
    (h1 : s.keyTalks p k x.talker) (h2 : s.keyReaches p k x.listener)
    (hmax : ∀ q j, s.keyTalks q j x.talker → s.keyReaches q j x.listener →
      (s.panel q).map[j].gain.toInt ≤ (s.panel p).map[k].gain.toInt) : s.pathGain x = (s.panel p).map[k].gain.toInt := by
  unfold State.pathGain
  rw [((mem_pathsOf s x).mp hx).2, List.map_map]
  generalize hl : List.map _ (givingKeys s.activeKeys x.talker x.listener) = l
  have hmem : ∀ v, v ∈ l ↔ ∃ q j, s.keyTalks q j x.talker ∧ s.keyReaches q j x.listener ∧ v = (s.panel q).map[j].gain.toInt := by
    intro v
    rw [← hl]
    simp only [List.mem_map, mem_givingKeys, Function.comp_apply]
    constructor
    · rintro ⟨y, ⟨q, j, h3, h4, rfl⟩, rfl⟩
      obtain ⟨t, m, hm⟩ := keyReaches_talk h4
      exact ⟨q, j, h3, h4, by simp only [State.activeKey, hm]⟩
    · rintro ⟨q, j, h3, h4, rfl⟩
      obtain ⟨t, m, hm⟩ := keyReaches_talk h4
      exact ⟨_, ⟨q, j, h3, h4, rfl⟩, by simp only [State.activeKey, hm]⟩
  have hin := (hmem _).mpr ⟨p, k, h1, h2, rfl⟩
  cases l with
  | nil => simp at hin
  | cons g gs =>
    refine foldl_max_eq gs g _ hin fun v hv => ?_
    obtain ⟨q, j, h3, h4, rfl⟩ := (hmem v).mp hv
    exact hmax q j h3 h4

/-- What the derivation computes is what the statements' terms say. -/
theorem talkDerived_of_computed {s : State} (h : s.talkComputed) : s.talkDerived := by
  obtain ⟨hp, ht, hi, hx, hf⟩ := h
  have hmem : ∀ a b : Fin 32, (∃ x ∈ s.tke.paths, x.talker = a ∧ x.listener = b) ↔ s.pathStands a b := by
    intro a b
    rw [hp]
    simp only [mem_pathsOf]
    constructor
    · rintro ⟨x, ⟨h, -⟩, rfl, rfl⟩
      exact h
    · intro h
      exact ⟨⟨a, b, (givingKeys s.activeKeys a b).map fun k => (k.panel, k.key)⟩, ⟨h, rfl⟩, rfl, rfl⟩
  refine ⟨⟨hmem, by rw [hp]; exact pathsOf_nodup s, ?_⟩, ?_, ?_, ?_, ?_⟩
  · intro x hxm p k
    rw [hp, mem_pathsOf] at hxm
    rw [hxm.2]
    simp only [List.mem_map, mem_givingKeys]
    constructor
    · rintro ⟨y, ⟨q, j, h3, h4, rfl⟩, he⟩
      cases he
      exact ⟨h3, h4⟩
    · rintro ⟨h3, h4⟩
      exact ⟨_, ⟨p, k, h3, h4, rfl⟩, rfl⟩
  · intro a
    rw [ht]
    simp only [talkingOf, portSetOf, BitVec.getLsbD_ofFnLE, a.2, dif_pos, Fin.eta, List.any_eq_true, decide_eq_true_eq, mem_activeKeys]
    constructor
    · rintro ⟨y, ⟨p, k, a', h, rfl⟩, rfl⟩
      exact ⟨p, k, h⟩
    · rintro ⟨p, k, h⟩
      exact ⟨_, ⟨p, k, a, h, rfl⟩, rfl⟩
  · intro b
    rw [hi]
    simp only [incomingOf, portSetOf, BitVec.getLsbD_ofFnLE, b.2, dif_pos, Fin.eta, List.any_eq_true, decide_eq_true_eq, ← hmem]
    exact ⟨fun ⟨x, h1, h2⟩ => ⟨x.talker, x, h1, rfl, h2⟩, fun ⟨_, x, h1, _, h2⟩ => ⟨x, h1, h2⟩⟩
  · intro a b
    rw [hx]
    unfold State.xptCoeff
    constructor
    · intro hn
      rw [List.find?_eq_none.mpr]
      intro x hm hc
      simp only [Bool.and_eq_true, decide_eq_true_eq] at hc
      exact hn ((hmem a b).mp ⟨x, hm, hc.1, hc.2⟩)
    · intro hs p k h3 h4 hmax
      cases hfi : s.tke.paths.find? fun p => decide (p.talker = a) && decide (p.listener = b) with
      | none =>
        obtain ⟨x, hm, he⟩ := (hmem a b).mpr hs
        exact absurd (by simpa using he) (List.find?_eq_none.mp hfi x hm)
      | some x =>
        have hxe := List.find?_some hfi
        simp only [Bool.and_eq_true, decide_eq_true_eq] at hxe
        obtain ⟨rfl, rfl⟩ := hxe
        have hg := pathGain_eq (hp ▸ List.mem_of_find?_eq_some hfi) h3 h4 hmax
        simp only [State.rawSum, hg, hasPort]
        exact coefficient_lawGives _
  · intro i
    rw [hf]
    unfold State.feedValue
    constructor
    · intro hn
      rw [hn]
      rfl
    · intro b hb
      rw [hb]
      refine ⟨rfl, rfl, ?_⟩
      intro g
      refine ⟨fun h => ?_, fun h hd => ?_, fun h hd => ?_⟩
      · have hb : hasPort s.tke.incoming b = false := h
        simp only [State.feedCoeff, hb, Bool.false_eq_true, if_false]
        exact coefficient_lawGives _
      · have hb : hasPort s.tke.incoming b = true := h
        simp only [State.feedCoeff, hb, if_true, Ifb.depthSteps, hd]
      · have hb : hasPort s.tke.incoming b = true := h
        simp only [State.feedCoeff, hb, if_true, Ifb.depthSteps, if_neg hd]
        exact coefficient_lawGives _

/-- After a derivation the derived sets and the target table are what the keys, the tables and the level law give. -/
theorem derivation_derived (s : State) : (derivation s).talkDerived := by
  apply talkDerived_of_computed
  have hstill : ∀ q, ((derivation s).panel q).still = (s.panel q).still := fun q => derivation_still q s
  obtain ⟨hports, hgroups, hifbs, hkeys, -⟩ := derivation_talk s
  have htke : (derivation s).tke = (talkSend (enterFeeds (fun _ => true) (enterXpts (deriveSets s)))).tke :=
    forPanels_keeps (fun s => s.tke) _ (fun p s => by simp) _
  obtain ⟨-, -, -, -, h1, h2, h3, h4, h5, -⟩ := talkSend_tables (enterFeeds (fun _ => true) (enterXpts (deriveSets s)))
  have hact : (derivation s).activeKeys = s.activeKeys := activeKeys_congr hstill hkeys hgroups hifbs
  have hpaths : (derivation s).tke.paths = (deriveSets s).tke.paths := by rw [htke, h1]; rfl
  have htalking : (derivation s).tke.talking = (deriveSets s).tke.talking := by rw [htke, h2]; rfl
  have hincoming : (derivation s).tke.incoming = (deriveSets s).tke.incoming := by rw [htke, h3]; rfl
  refine ⟨?_, ?_, ?_, ?_, ?_⟩
  · rw [hact, hports, hpaths]; rfl
  · rw [hact, htalking]; rfl
  · rw [hincoming, hpaths]; rfl
  · intro a b
    have ht : (derivation s).tke.target = (enterXpts (deriveSets s)).tke.target := by rw [htke, h4]; rfl
    have hx : (derivation s).xptCoeff a b = (deriveSets s).xptCoeff a b :=
      xptCoeff_congr (fun q => (hstill q).trans (by rfl)) hpaths (hports.trans rfl) htalking a b
    rw [hx, ht]
    simp [enterXpts]
  · intro i
    have hf : (derivation s).tke.feeds = (enterFeeds (fun _ => true) (enterXpts (deriveSets s))).tke.feeds := by rw [htke, h5]
    have hv : (derivation s).feedValue i = (enterXpts (deriveSets s)).feedValue i :=
      feedValue_congr (s := enterXpts (deriveSets s)) hifbs hports hincoming i
    rw [hv, hf]
    simp [enterFeeds]

end Sys2Proof.Machine
end

