-- ==== Sys2Proof/Laws/PerInstr.lean ====
section
/-! SUPPORT. One lemma per command: a well-formed command makes no write outside the common store, so its register access is never a fault. -/

namespace Sys2Proof.Laws.HostWritesInside

open Sys2Proof.Machine

/-- A well-formed command names no address outside the common store. -/
def Statement (i : Instr) : Prop := i.wellFormed = true → hostOutside i.pre = none

/-- A command whose writes are `pre`. -/
theorem of_pre {i : Instr} : Statement i := by
  intro h
  simp only [Instr.wellFormed, Bool.and_eq_true] at h
  exact hostOutside_inside h.1

/-- POWER_ON_RESET. -/
theorem powerOnReset : Statement .powerOnReset := of_pre

/-- FRAME_BOUNDARY. -/
theorem frameBoundary (gpi : BitVec 16) : Statement (.frameBoundary gpi) := of_pre

/-- REFERENCE_PULSE. -/
theorem referencePulse (elapsed : Nat) (gpi : BitVec 16) : Statement (.referencePulse elapsed gpi) := of_pre

/-- REFERENCE_WINDOW_CLOSE. -/
theorem referenceWindowClose : Statement .referenceWindowClose := of_pre

/-- ANCHOR_WRITE. -/
theorem anchorWrite (pre : HostWrites) (value : BitVec 32) : Statement (.anchorWrite pre value) := of_pre

/-- POST. -/
theorem post (pre : HostWrites) (slot : Fin 8) : Statement (.post pre slot) := of_pre

/-- WITHDRAW. -/
theorem withdraw (pre : HostWrites) (slot : Fin 8) : Statement (.withdraw pre slot) := of_pre

/-- START. -/
theorem start (pre : HostWrites) (elapsed : Nat) (gpi : BitVec 16) (freeze : Bool) (mask : BitVec 5) : Statement (.start pre elapsed gpi freeze mask) := of_pre

/-- RUN_CLEAR. -/
theorem runClear (pre : HostWrites) (freeze : Bool) (mask : BitVec 5) : Statement (.runClear pre freeze mask) := of_pre

/-- FREEZE_SET. -/
theorem freezeSet (pre : HostWrites) (mask : BitVec 5) : Statement (.freezeSet pre mask) := of_pre

/-- FREEZE_CLEAR. -/
theorem freezeClear (pre : HostWrites) (mask : BitVec 5) : Statement (.freezeClear pre mask) := of_pre

/-- ENGINE_RESET. -/
theorem engineReset (pre : HostWrites) (restart : Bool) (mask : BitVec 5) : Statement (.engineReset pre restart mask) := of_pre

/-- INTERFACE_RESTART. -/
theorem interfaceRestart (pre : HostWrites) (mask : BitVec 5) : Statement (.interfaceRestart pre mask) := of_pre

/-- NOTICE_ENABLE_WRITE. -/
theorem noticeEnableWrite (pre : HostWrites) (mask : BitVec 5) : Statement (.noticeEnableWrite pre mask) := of_pre

/-- NOTICE_CLEAR. -/
theorem noticeClear (pre : HostWrites) (causes : BitVec 5) : Statement (.noticeClear pre causes) := of_pre

/-- STATUS_WRITE. -/
theorem statusWrite (pre : HostWrites) (value : BitVec 32) : Statement (.statusWrite pre value) := of_pre

/-- ENTER_HALTED. -/
theorem enterHalted (elapsed : Nat) (gpi : BitVec 16) : Statement (.enterHalted elapsed gpi) := of_pre

/-- STRIP_START. -/
theorem stripStart : Statement .stripStart := of_pre

/-- ORDER_OF_UNKNOWN_KIND. -/
theorem orderOfUnknownKind : Statement .orderOfUnknownKind := of_pre

/-- TIME_SET. -/
theorem timeSet : Statement .timeSet := of_pre

/-- CUE_SET. -/
theorem cueSet : Statement .cueSet := of_pre

/-- CUE_CLEAR. -/
theorem cueClear : Statement .cueClear := of_pre

/-- DEST_SET. -/
theorem destSet : Statement .destSet := of_pre

/-- SALVO_SET. -/
theorem salvoSet : Statement .salvoSet := of_pre

/-- STEP_SET. -/
theorem stepSet : Statement .stepSet := of_pre

/-- TAKE. -/
theorem take : Statement .take := of_pre

/-- CANCEL. -/
theorem cancel : Statement .cancel := of_pre

/-- PROTECT. -/
theorem protect : Statement .protect := of_pre

/-- RELEASE. -/
theorem release : Statement .release := of_pre

/-- SALVO_FIRE. -/
theorem salvoFire : Statement .salvoFire := of_pre

/-- SALVO_READ_DONE. -/
theorem salvoReadDone : Statement .salvoReadDone := of_pre

/-- PANEL_SET. -/
theorem panelSet : Statement .panelSet := of_pre

/-- KEYMAP_LOAD. -/
theorem keymapLoad : Statement .keymapLoad := of_pre

/-- KEYMAP_READ_DONE. -/
theorem keymapReadDone : Statement .keymapReadDone := of_pre

/-- LAMP_SET. -/
theorem lampSet : Statement .lampSet := of_pre

/-- PORT_SET. -/
theorem portSet : Statement .portSet := of_pre

/-- GROUP_SET. -/
theorem groupSet : Statement .groupSet := of_pre

/-- IFB_SET. -/
theorem ifbSet : Statement .ifbSet := of_pre

/-- TALK_FORCE. -/
theorem talkForce : Statement .talkForce := of_pre

/-- TALLY_SET. -/
theorem tallySet : Statement .tallySet := of_pre

/-- TALLY_FORCE. -/
theorem tallyForce : Statement .tallyForce := of_pre

/-- GPI_SET. -/
theorem gpiSet : Statement .gpiSet := of_pre

/-- ARM_ACK. -/
theorem armAck : Statement .armAck := of_pre

/-- ARM_ACK_TIMEOUT. -/
theorem armAckTimeout : Statement .armAckTimeout := of_pre

/-- SWITCH_REPORT. -/
theorem switchReport (lines : List ReportLine) : Statement (.switchReport lines) := of_pre

/-- SWITCH_REPORT_TIMEOUT. -/
theorem switchReportTimeout : Statement .switchReportTimeout := of_pre

/-- MIRROR_REWRITE_END. -/
theorem mirrorRewriteEnd : Statement .mirrorRewriteEnd := of_pre

/-- READ_ANSWER. -/
theorem readAnswer (dest : Byte) (level : Byte) (number : Byte) : Statement (.readAnswer dest level number) := of_pre

/-- READ_TIMEOUT. -/
theorem readTimeout : Statement .readTimeout := of_pre

/-- PING_ANSWER. -/
theorem pingAnswer : Statement .pingAnswer := of_pre

/-- PING_TIMEOUT. -/
theorem pingTimeout : Statement .pingTimeout := of_pre

/-- FABRIC_MESSAGE_IGNORED. -/
theorem fabricMessageIgnored (message : LinkBytes) : Statement (.fabricMessageIgnored message) := of_pre

/-- REPLY. -/
theorem reply (link : Fin 4) (message : PanelReply) : Statement (.reply link message) := of_pre

/-- POLL_WINDOW_CLOSE. -/
theorem pollWindowClose (link : Fin 4) : Statement (.pollWindowClose link) := of_pre

/-- PROBE_ANSWER. -/
theorem probeAnswer (link : Fin 4) (address : Byte) (code : BitVec 16) : Statement (.probeAnswer link address code) := of_pre

/-- PROBE_TIMEOUT. -/
theorem probeTimeout (link : Fin 4) : Statement (.probeTimeout link) := of_pre

/-- AUTO_LATCH_THRESHOLD. -/
theorem autoLatchThreshold : Statement .autoLatchThreshold := of_pre

/-- REFUSAL_FLASH_END. -/
theorem refusalFlashEnd : Statement .refusalFlashEnd := of_pre

/-- ACK. -/
theorem ack : Statement .ack := of_pre

/-- REFUSE. -/
theorem refuse : Statement .refuse := of_pre

/-- TALK_WRITE_TIMEOUT. -/
theorem talkWriteTimeout : Statement .talkWriteTimeout := of_pre

/-- TALK_MESSAGE_IGNORED. -/
theorem talkMessageIgnored (message : LinkBytes) : Statement (.talkMessageIgnored message) := of_pre

/-- PANEL_MESSAGE_IGNORED. -/
theorem panelMessageIgnored (link : Fin 4) (message : LinkBytes) : Statement (.panelMessageIgnored link message) := of_pre

end Sys2Proof.Laws.HostWritesInside
end

