-- ==== Sys2Proof/Laws/Store.lean ====
section
/-! SUPPORT. The common store: a read after a write, the canonical form and its uniqueness, and which operations keep it. -/

namespace Sys2Proof.Machine

/-- What the canonical form says of a list with a first entry. -/
theorem wfFrom_cons {lo : Nat} {c : Host.Cell} {m : Memory} :
    wfFrom lo (c :: m) = true ↔ lo ≤ c.1 ∧ c.1 < storeSize ∧ c.2 ≠ Config.blankByte ∧ wfFrom (c.1 + 1) m = true := by
  simp only [wfFrom, Bool.and_eq_true, decide_eq_true_eq, and_assoc]

/-- The form holds from a lower address too. -/
theorem wfFrom_mono {lo lo' : Nat} (h : lo' ≤ lo) : ∀ {m : Memory}, wfFrom lo m = true → wfFrom lo' m = true
  | [], _ => rfl
  | _ :: _, hm => by
    rw [wfFrom_cons] at hm ⊢
    exact ⟨h.trans hm.1, hm.2⟩

/-- Below the form's first address everything is blank. -/
theorem storeRead_below : ∀ {m : Memory} {lo a : Nat}, wfFrom lo m = true → a < lo → storeRead m a = Config.blankByte
  | [], _, _, _, _ => rfl
  | c :: m, lo, a, hm, ha => by
    rw [wfFrom_cons] at hm
    have hne : c.1 ≠ a := by omega
    rw [storeRead, if_neg hne]
    exact storeRead_below hm.2.2.2 (by omega)

/-- A read after an insertion: the byte written at its address, and every other byte as before. -/
theorem storeRead_insert : ∀ {m : Memory} {lo : Nat} (a x : Nat) (b : Byte), wfFrom lo m = true →
    storeRead (storeInsert m a b) x = if x = a then b else storeRead m x
  | [], lo, a, x, b, _ => by
    unfold storeInsert
    by_cases hb : b = Config.blankByte
    · rw [if_pos hb]
      by_cases hx : x = a
      · rw [if_pos hx, hb]; rfl
      · rw [if_neg hx]
    · rw [if_neg hb]
      by_cases hx : x = a
      · rw [if_pos hx, storeRead, if_pos hx.symm]
      · rw [if_neg hx]
        show (if a = x then b else storeRead [] x) = storeRead [] x
        rw [if_neg (Ne.symm hx)]
  | c :: m, lo, a, x, b, hm => by
    rw [wfFrom_cons] at hm
    unfold storeInsert
    by_cases h1 : a < c.1
    · have ha : storeRead (c :: m) a = Config.blankByte :=
        storeRead_below (lo := a + 1) (by rw [wfFrom_cons]; exact ⟨h1, hm.2⟩) (Nat.lt_succ_self a)
      rw [if_pos h1]
      by_cases hb : b = Config.blankByte
      · rw [if_pos hb]
        by_cases hx : x = a
        · rw [if_pos hx, hx, ha, hb]
        · rw [if_neg hx]
      · rw [if_neg hb]
        by_cases hx : x = a
        · subst hx; simp [storeRead]
        · rw [if_neg hx, storeRead, if_neg (Ne.symm hx)]
    · rw [if_neg h1]
      by_cases h2 : a = c.1
      · rw [if_pos h2]
        by_cases hb : b = Config.blankByte
        · rw [if_pos hb]
          by_cases hx : x = a
          · rw [if_pos hx, hx, hb]
            exact storeRead_below hm.2.2.2 (by omega)
          · rw [if_neg hx, storeRead, if_neg (by omega)]
        · rw [if_neg hb]
          by_cases hx : x = a
          · subst hx; simp [storeRead]
          · rw [if_neg hx, storeRead, if_neg (Ne.symm hx), storeRead, if_neg (by omega)]
      · rw [if_neg h2, storeRead, storeRead_insert a x b hm.2.2.2]
        by_cases hc : c.1 = x
        · rw [if_pos hc, if_neg (by omega), storeRead, if_pos hc]
        · rw [if_neg hc, storeRead, if_neg hc]

/-- An insertion keeps the form. -/
theorem storeInsert_wf : ∀ {m : Memory} {lo a : Nat} {b : Byte}, wfFrom lo m = true → lo ≤ a → a < storeSize →
    wfFrom lo (storeInsert m a b) = true
  | [], lo, a, b, _, hlo, ha => by
    unfold storeInsert
    split
    · rfl
    · rw [wfFrom_cons]; exact ⟨hlo, ha, ‹_›, rfl⟩
  | c :: m, lo, a, b, hm, hlo, ha => by
    have hc := hm
    rw [wfFrom_cons] at hm
    unfold storeInsert
    split
    · split
      · exact hc
      · rw [wfFrom_cons]
        refine ⟨hlo, ha, ‹_›, ?_⟩
        rw [wfFrom_cons]; exact ⟨‹_›, hm.2⟩
    · split
      · rename_i h2
        subst h2
        split
        · exact wfFrom_mono (by omega) hm.2.2.2
        · rw [wfFrom_cons]; exact ⟨hm.1, ha, ‹_›, hm.2.2.2⟩
      · rw [wfFrom_cons]
        exact ⟨hm.1, hm.2.1, hm.2.2.1, storeInsert_wf hm.2.2.2 (by omega) ha⟩

/-- A write keeps the canonical form. -/
theorem storeWrite_wf {m : Memory} (a : Nat) (b : Byte) (h : m.wf = true) : (storeWrite m a b).wf = true := by
  unfold storeWrite
  split
  · exact storeInsert_wf h (Nat.zero_le a) ‹_›
  · exact h

/-- A read after a write, inside the store. -/
theorem storeRead_write {m : Memory} (a x : Nat) (b : Byte) (h : m.wf = true) (ha : a < storeSize) :
    storeRead (storeWrite m a b) x = if x = a then b else storeRead m x := by
  rw [storeWrite, if_pos ha]
  exact storeRead_insert a x b h

/-- A write leaves every other byte alone. -/
theorem storeRead_write_other {m : Memory} {a x : Nat} (b : Byte) (h : m.wf = true) (hx : x ≠ a) :
    storeRead (storeWrite m a b) x = storeRead m x := by
  by_cases ha : a < storeSize
  · rw [storeRead_write a x b h ha, if_neg hx]
  · rw [storeWrite, if_neg ha]

/-- A run of writes keeps the canonical form. -/
theorem storeWrites_wf : ∀ (bs : List Byte) (m : Memory) (a : Nat), m.wf = true → (storeWrites m a bs).wf = true
  | [], _, _, h => h
  | _ :: bs, _, a, h => storeWrites_wf bs _ (a + 1) (storeWrite_wf a _ h)

/-- A run of writes leaves every byte outside it alone. -/
theorem storeRead_writes_outside : ∀ (bs : List Byte) (m : Memory) (a x : Nat), m.wf = true →
    (x < a ∨ a + bs.length ≤ x) → storeRead (storeWrites m a bs) x = storeRead m x
  | [], _, _, _, _, _ => rfl
  | b :: bs, m, a, x, h, hx => by
    rw [storeWrites, storeRead_writes_outside bs _ (a + 1) x (storeWrite_wf a b h)]
    · exact storeRead_write_other b h (by rw [List.length_cons] at hx; omega)
    · rcases hx with hx | hx
      · exact Or.inl (by omega)
      · refine Or.inr ?_
        simp only [List.length_cons] at hx
        omega

/-- A run of writes inside the store reads back. -/
theorem storeRead_writes_inside : ∀ (bs : List Byte) (m : Memory) (a i : Nat), m.wf = true → a + bs.length ≤ storeSize →
    (hi : i < bs.length) → storeRead (storeWrites m a bs) (a + i) = bs[i]
  | b :: bs, m, a, i, h, hs, hi => by
    simp only [List.length_cons] at hs hi
    rw [storeWrites]
    cases i with
    | zero =>
      rw [storeRead_writes_outside bs _ (a + 1) _ (storeWrite_wf a b h) (Or.inl (by omega)),
        storeRead_write a _ b h (by omega), if_pos (by omega)]
      rfl
    | succ i =>
      rw [show a + (i + 1) = a + 1 + i by omega,
        storeRead_writes_inside bs _ (a + 1) i (storeWrite_wf a b h) (by omega) (by omega)]
      rfl

/-- The control computer's writes keep the canonical form. -/
theorem hostWrite_wf : ∀ (w : HostWrites) (m : Memory), m.wf = true → (hostWrite m w).wf = true
  | [], _, h => h
  | c :: w, _, h => hostWrite_wf w _ (storeWrite_wf c.1 c.2 h)

/-- Equal contents are equal lists: the canonical form is unique. -/
theorem wfFrom_ext : ∀ {m n : Memory} {lo : Nat}, wfFrom lo m = true → wfFrom lo n = true →
    (∀ a, storeRead m a = storeRead n a) → m = n
  | [], [], _, _, _, _ => rfl
  | [], d :: n, _, _, hn, h => by
    rw [wfFrom_cons] at hn
    have := h d.1
    simp only [storeRead, if_pos] at this
    exact absurd this.symm hn.2.2.1
  | c :: m, [], _, hm, _, h => by
    rw [wfFrom_cons] at hm
    have := h c.1
    simp only [storeRead, if_pos] at this
    exact absurd this hm.2.2.1
  | c :: m, d :: n, lo, hm, hn, h => by
    have hm' := hm
    have hn' := hn
    rw [wfFrom_cons] at hm hn
    have h1 : c.1 = d.1 := by
      rcases Nat.lt_trichotomy c.1 d.1 with hlt | heq | hlt
      · have := h c.1
        rw [storeRead, if_pos rfl, storeRead_below (lo := c.1 + 1) (by rw [wfFrom_cons]; exact ⟨hlt, hn.2⟩)
          (Nat.lt_succ_self _)] at this
        exact absurd this hm.2.2.1
      · exact heq
      · have := h d.1
        rw [storeRead_below (lo := d.1 + 1) (by rw [wfFrom_cons]; exact ⟨hlt, hm.2⟩) (Nat.lt_succ_self _),
          storeRead, if_pos rfl] at this
        exact absurd this.symm hn.2.2.1
    have h2 : c.2 = d.2 := by
      have := h c.1
      rwa [storeRead, if_pos rfl, storeRead, if_pos h1.symm] at this
    have h3 : m = n := by
      refine wfFrom_ext hm.2.2.2 (h1 ▸ hn.2.2.2) fun a => ?_
      by_cases ha : c.1 = a
      · rw [storeRead_below hm.2.2.2 (by omega), storeRead_below hn.2.2.2 (by omega)]
      · have := h a
        rwa [storeRead, if_neg ha, storeRead, if_neg (h1 ▸ ha)] at this
    rw [h3, Prod.ext h1 h2]

/-! ### The form through the shared operations -/

/-- The state after a write of a run of bytes. -/
@[simp] theorem put_store (s : State) (a : Nat) (bs : List Byte) : (s.put a bs).store = storeWrites s.store a bs := rfl

/-- Writing a journal record keeps the form. -/
theorem putRecord_wf (c : AnchorCopy) (rec : List Byte) (s : State) (h : s.store.wf = true) : (putRecord c rec s).store.wf = true := by
  have h1 := storeWrite_wf (c.address + 0x1E) (s.csi.writeIndex + 1)
    (storeWrites_wf rec s.store (c.journal + 16 * s.csi.writeIndex.toNat) h)
  simp only [putRecord]
  split
  · simpa using h1
  · exact h1

/-- Setting the gap count keeps the form. -/
theorem setGap_wf (c : AnchorCopy) (n : Nat) (sat : Bool) (s : State) (h : s.store.wf = true) : (setGap c n sat s).store.wf = true :=
  storeWrites_wf _ _ _ h

/-- A report keeps the form. -/
theorem report_wf (r : Report) (f : FrameIndex) (l : Label) (s : State) (h : s.store.wf = true) : (report r f l s).store.wf = true := by
  unfold report
  repeat' split
  · exact h
  · exact putRecord_wf _ _ _ h
  · exact putRecord_wf _ _ _ (setGap_wf _ _ _ _ (putRecord_wf _ _ _ h))
  · exact setGap_wf _ _ _ _ h
  · exact setGap_wf _ _ _ _ h

/-- A report stamped with the current frame keeps the form. -/
theorem reportNow_wf (r : Report) (s : State) (h : s.store.wf = true) : (reportNow r s).store.wf = true := report_wf _ _ _ _ h

/-- Writing the state byte of a slot header keeps the form. -/
theorem writeSlotState_wf (n : Fin 8) (x : Byte) (s : State) (h : s.store.wf = true) : (writeSlotState n x s).store.wf = true := by
  unfold writeSlotState
  split
  · exact h
  · exact storeWrites_wf _ _ _ h

/-- Writing the counts of a slot header keeps the form. -/
theorem writeCounts_wf (n : Fin 8) (a b : Nat) (s : State) (h : s.store.wf = true) : (writeCounts n a b s).store.wf = true := by
  unfold writeCounts
  split
  · exact h
  · exact storeWrites_wf _ _ _ h

/-- A byte that a run of writes does not name reads as before. -/
theorem storeRead_hostWrite_other : ∀ (w : HostWrites) (m : Memory) (x : Nat), m.wf = true → (∀ c ∈ w, c.1 ≠ x) →
    storeRead (hostWrite m w) x = storeRead m x
  | [], _, _, _, _ => rfl
  | c :: cs, m, x, h, hx => by
    rw [hostWrite, storeRead_hostWrite_other cs _ x (storeWrite_wf _ _ h) fun d hd => hx d (List.mem_cons_of_mem _ hd)]
    exact storeRead_write_other _ h (Ne.symm (hx c (List.mem_cons_self ..)))

/-- An outcome word as two runs of bytes: the code and the detail, and the frame index. -/
theorem writeOutcome_store (a : Nat) (c : Code) (n : Nat) (f : FrameIndex) (s : State) :
    (writeOutcome a c n f s).store = storeWrites (storeWrites s.store (a + 0x18) [c.byte, BitVec.ofNat 8 n]) (a + 0x1C)
      [f.extractLsb' 0 8, f.extractLsb' 8 8, f.extractLsb' 16 8, f.extractLsb' 24 8] := rfl

/-- Where nothing was lost since a read began, the read finds the byte that the store holds. -/
theorem readByte_kept {s : State} {mark a : Nat} (h : s.lostSince mark a = []) : s.readByte mark a = storeRead s.store a := by
  simp [State.readByte, h]

/-- A read finds, at each address, the byte that stands there or one that stood there while it was in progress. -/
theorem readByte_mem (s : State) (mark a : Nat) : s.readByte mark a = storeRead s.store a ∨ s.readByte mark a ∈ s.lostSince mark a := by
  unfold State.readByte
  split
  · exact .inl rfl
  · rename_i b bs h
    rw [h]
    generalize Config.freeMoment s.freeCount a % (bs.length + 2) = i
    rcases Nat.lt_or_ge i (b :: bs).length with hi | hi
    · exact .inr (by rw [List.getD_eq_getElem _ _ hi]; exact List.getElem_mem hi)
    · exact .inl (by rw [List.getD_eq_default _ _ hi])

/-- Where nothing of a run was lost since a read began, the read finds the run that the store holds. -/
theorem readRun_kept {s : State} {mark a n : Nat} (h : ∀ i, i < n → s.lostSince mark (a + i) = []) :
    s.readRun mark a n = storeReads s.store a n := by
  unfold State.readRun storeReads
  exact List.map_congr_left fun i hi => readByte_kept (h i (List.mem_range.mp hi))

/-- Writing an outcome word keeps the form. -/
theorem writeOutcome_wf (a : Nat) (c : Code) (n : Nat) (f : FrameIndex) (s : State) (h : s.store.wf = true) :
    (writeOutcome a c n f s).store.wf = true := hostWrite_wf _ _ h

/-- Writing a run of outcome words keeps the form. -/
theorem writeOutcomes_wf (p : Posted) (c : Code) (n : Nat) (f : FrameIndex) : ∀ (k i : Nat) (s : State), s.store.wf = true →
    (writeOutcomes p c n f i k s).store.wf = true
  | 0, _, _, h => h
  | k + 1, i, _, h => writeOutcomes_wf p c n f k (i + 1) _ (writeOutcome_wf _ _ _ _ _ h)

/-- The end of a strip keeps the form. -/
theorem slotDone_wf (n : Fin 8) (s : State) (h : s.store.wf = true) : (slotDone n s).store.wf = true := by
  simpa [slotDone] using writeSlotState_wf n 4 s h

/-- A strip's early end keeps the form. -/
theorem endWith_wf (c : Code) (r : Running) (s : State) (h : s.store.wf = true) : (endWith c r s).store.wf = true :=
  slotDone_wf _ _ (writeOutcomes_wf _ _ _ _ _ _ _ h)

/-- An order's outcome keeps the form. -/
theorem finishOrder_wf (r : Running) (c : Code) (n : Nat) (f : FrameIndex) (s : State) (h : s.store.wf = true) :
    (finishOrder r c n f s).store.wf = true := by
  have h1 := writeCounts_wf r.slot.slot (r.after c).processed (r.after c).refused _
    (writeOutcome_wf (orderAddress r.slot r.next) c n f s h)
  simp only [finishOrder]
  repeat' split
  · exact endWith_wf _ _ _ h1
  · exact endWith_wf _ _ _ h1
  · exact slotDone_wf _ _ h1
  · exact h1

/-- The entries of a mirror rewrite keep the form. -/
theorem writeEntries_wf (base : Nat) (es : List MirrorEntry) (m : Memory) (h : m.wf = true) : (writeEntries base es m).wf = true :=
  foldl_invariant (fun m : Memory => m.wf = true) _ (fun _ _ hb => storeWrites_wf _ _ _ hb) es m h

/-- A mirror rewrite keeps the form. -/
theorem startRewrite_wf (c : AnchorCopy) (f : FrameIndex) (l : Label) (s : State) (h : s.store.wf = true) :
    (startRewrite c f l s).store.wf = true := writeEntries_wf _ _ _ (storeWrites_wf _ _ _ h)

end Sys2Proof.Machine
end

