-- ==== Sys2Proof/Laws/Terms.lean ====
section
/-! SUPPORT. The statements' terms against the model's own decoders: bytes, due forms, salvo lists, take notices, order arguments, key map entries. -/

namespace Sys2Proof.Machine

/-! ### Bytes -/

theorem optionalOf_eq {n b : Nat} (h : n ≤ 254) (x : Option (Fin n)) : optionalOf n b = some x ↔ optionalByte b x := by
  unfold optionalOf optionalByte
  by_cases hb : b = 254
  · subst hb
    constructor
    · intro hx; left; simpa using hx.symm
    · rintro (⟨-, rfl⟩ | ⟨i, rfl, hi⟩)
      · simp
      · omega
  · simp only [hb, if_false, false_and, false_or]
    by_cases hn : b < n
    · simp only [finOf, hn, dif_pos, Option.map_some, Option.some.injEq]
      constructor
      · rintro rfl; exact ⟨⟨b, hn⟩, rfl, rfl⟩
      · rintro ⟨i, rfl, hi⟩; congr 1; exact Fin.ext hi
    · simp only [finOf, hn, dif_neg, not_false_eq_true, Option.map_none, reduceCtorEq, false_iff]
      rintro ⟨i, -, hi⟩; omega

/-- A byte gives no optional number just where it is at or above the bound and not FEH. -/
theorem optionalOf_none {n b : Nat} : optionalOf n b = none ↔ n ≤ b ∧ b ≠ 254 := by
  unfold optionalOf finOf
  by_cases hb : b = 254 <;> by_cases hn : b < n <;> (simp [hb, hn]; try omega)

/-- A byte that gives a source is read as it. -/
theorem sourceOf_eq {b : Nat} (x : Source) : sourceOf b = some x ↔ sourceByte b x := by
  unfold sourceOf sourceByte
  by_cases hb : b = 255
  · subst hb
    constructor
    · intro hx; left; simpa using hx.symm
    · rintro (⟨-, rfl⟩ | ⟨i, rfl, hi⟩)
      · simp
      · omega
  · simp only [hb, if_false, false_and, false_or]
    by_cases hn : b < 128
    · simp only [finOf, hn, dif_pos, Option.map_some, Option.some.injEq]
      constructor
      · rintro rfl; exact ⟨⟨b, hn⟩, rfl, rfl⟩
      · rintro ⟨i, rfl, hi⟩; congr 1; exact Fin.ext hi
    · simp only [finOf, hn, dif_neg, not_false_eq_true, Option.map_none, reduceCtorEq, false_iff]
      rintro ⟨i, -, hi⟩; omega

/-- A byte gives no source just where it is at or above 128 and not FFH. -/
theorem sourceOf_none {b : Nat} : sourceOf b = none ↔ 128 ≤ b ∧ b ≠ 255 := by
  unfold sourceOf finOf
  by_cases hb : b = 255 <;> by_cases hn : b < 128 <;> (simp [hb, hn]; try omega)

/-! ### Due forms -/

theorem labelDelta_spec (s : State) (rec : OrderRecord) (n : Nat) :
    s.dueLabelAhead rec n ↔ n = labelDelta s.rtu.rate (labelAt rec 8) s.rtu.label := by
  unfold State.dueLabelAhead labelDelta
  have hd : 0 < s.rtu.rate.dayFrames := by cases s.rtu.rate <;> decide
  generalize s.rtu.rate.dayFrames = d at *
  generalize (labelAt rec 8).count s.rtu.rate = a
  generalize s.rtu.label.count s.rtu.rate = b
  have hb : (0 : Int) < d := by omega
  have h0 := Int.emod_nonneg ((a : Int) - b) (by omega : (d : Int) ≠ 0)
  have h1 := Int.emod_lt_of_pos ((a : Int) - b) hb
  have key : ((n : Int) + b) % d = a % d ↔ (n : Int) % d = ((a : Int) - b) % d := by
    rw [Int.emod_eq_emod_iff_emod_sub_eq_zero, Int.emod_eq_emod_iff_emod_sub_eq_zero, show (n : Int) + b - a = n - (a - b) by omega]
  have cast : (n + b) % d = a % d ↔ ((n : Int) + b) % d = a % d := by
    constructor
    · intro h; exact_mod_cast h
    · intro h; exact_mod_cast h
  rw [cast, key]
  constructor
  · rintro ⟨hn, he⟩
    rw [Int.emod_eq_of_lt (by omega) (by omega)] at he
    omega
  · intro hn
    refine ⟨by omega, ?_⟩
    rw [hn, Int.toNat_of_nonneg h0, Int.emod_emod_of_dvd _ (dvd_refl _)]

/-- A label is well formed just where its fields are in range (R10). -/
theorem wellFormed_iff (r : Rate) (l : Label) : l.wellFormed r = true ↔ l.hh < 24 ∧ l.mm < 60 ∧ l.ss < 60 ∧ l.ff < r.base := by
  simp [Label.wellFormed, and_assoc]

/-- A label is skipped just where its seconds are 0, its frames below the skipped ones, and its minutes no tenth (R10). -/
theorem skipped_iff (r : Rate) (l : Label) : l.skipped r = true ↔ l.ss = 0 ∧ l.ff < r.drop ∧ l.mm % 10 ≠ 0 := by
  simp [Label.skipped, and_assoc]

/-- The checks of the label of an order, in the terms of the statements. -/
theorem label_terms (s : State) (rec : OrderRecord) :
    ((labelAt rec 8).wellFormed s.rtu.rate = true ↔ s.dueLabelFormed rec) ∧ ((labelAt rec 8).skipped s.rtu.rate = true ↔ s.dueLabelSkipped rec) :=
  ⟨wellFormed_iff _ _, skipped_iff _ _⟩

/-- What a due form comes to: its due frame, or its refusal. -/
theorem dueFrame_terms (s : State) (rec : OrderRecord) :
    (∀ due, dueFrame s.rtu.rate s.rtu.frame s.rtu.label (dueFormOf rec) = .ok due ↔ s.dueFixed rec due) ∧
    ∀ c, dueFrame s.rtu.rate s.rtu.frame s.rtu.label (dueFormOf rec) = .error c ↔ s.dueRefused rec c := by
  obtain ⟨hf, hs⟩ := label_terms s rec
  by_cases h0 : ob rec 7 = 0
  · have hd : dueFrame s.rtu.rate s.rtu.frame s.rtu.label (dueFormOf rec) = .ok none := by simp [dueFormOf, dueFrame, h0]
    rw [hd]
    simp only [State.dueFixed, State.dueRefused, h0, Except.ok.injEq, eq_comm (a := (none : Option FrameIndex))]
    simp
  by_cases h1 : ob rec 7 = 1
  · have hd : dueFrame s.rtu.rate s.rtu.frame s.rtu.label (dueFormOf rec) =
        if 2 ≤ frameDiff (BitVec.ofNat 32 (ob32 rec 8)) s.rtu.frame then .ok (some (BitVec.ofNat 32 (ob32 rec 8))) else .error .refusedLate := by
      simp [dueFormOf, dueFrame, h1]
    rw [hd]
    by_cases h : 2 ≤ (BitVec.ofNat 32 (ob32 rec 8) - s.rtu.frame).toInt
    · simp only [State.dueFixed, State.dueRefused, h1, frameDiff, h, if_true]
      refine ⟨fun due => ?_, fun c => ?_⟩
      · simp only [Except.ok.injEq]; constructor
        · rintro rfl; right; left; exact ⟨trivial, trivial, rfl⟩
        · rintro (⟨h, -⟩ | ⟨-, -, rfl⟩ | ⟨h, -⟩) <;> first | rfl | omega
      · simp only [reduceCtorEq, false_iff]; omega
    · simp only [State.dueFixed, State.dueRefused, h1, frameDiff, h, if_false]
      refine ⟨fun due => ?_, fun c => ?_⟩
      · simp
      · simp only [Except.error.injEq]; constructor
        · rintro rfl; right; left; exact ⟨trivial, by omega, rfl⟩
        · rintro (⟨h, -⟩ | ⟨-, -, rfl⟩ | ⟨h, -⟩ | ⟨h, -⟩ | ⟨h, -⟩) <;> first | rfl | omega
  by_cases h2 : ob rec 7 = 2
  · have hd : dueFormOf rec = some (.atLabel (labelAt rec 8)) := by simp [dueFormOf, h2]
    rw [hd]
    simp only [State.dueFixed, State.dueRefused, labelDelta_spec, ← hf, ← hs, h2]
    cases hw : (labelAt rec 8).wellFormed s.rtu.rate with
    | false =>
      have hr : labelRefusal s.rtu.rate (labelAt rec 8) = some .refusedArg := by simp [labelRefusal, hw]
      simp only [dueFrame, hr]
      refine ⟨fun due => by simp, fun c => ?_⟩
      constructor
      · intro h; right; right; left; exact ⟨trivial, by simp, by injection h with h; exact h.symm⟩
      · rintro (⟨h, -⟩ | ⟨h, -⟩ | ⟨-, -, rfl⟩ | ⟨-, h, -⟩ | ⟨-, h, -⟩) <;> first | rfl | omega | cases h
    | true =>
      cases hk : (labelAt rec 8).skipped s.rtu.rate with
      | true =>
        have hr : labelRefusal s.rtu.rate (labelAt rec 8) = some .refusedLabel := by simp [labelRefusal, hw, hk]
        simp only [dueFrame, hr]
        refine ⟨fun due => by simp, fun c => ?_⟩
        constructor
        · intro h; right; right; right; left; exact ⟨trivial, trivial, trivial, by injection h with h; exact h.symm⟩
        · rintro (⟨h, -⟩ | ⟨h, -⟩ | ⟨-, h, -⟩ | ⟨-, -, -, rfl⟩ | ⟨-, -, h, -⟩) <;> first | rfl | omega | exact absurd trivial h
      | false =>
        have hr : labelRefusal s.rtu.rate (labelAt rec 8) = none := by simp [labelRefusal, hw, hk]
        simp only [dueFrame, hr]
        split
        · rename_i h
          refine ⟨fun due => ?_, fun c => ?_⟩
          · simp only [reduceCtorEq, false_iff]
            rintro (⟨h, -⟩ | ⟨h, -⟩ | ⟨-, -, -, n, rfl, ha, hb, -⟩) <;> omega
          · constructor
            · intro e; right; right; right; right
              exact ⟨trivial, trivial, by simp, _, rfl, by omega, by injection e with e; exact e.symm⟩
            · rintro (⟨h, -⟩ | ⟨h, -⟩ | ⟨-, h, -⟩ | ⟨-, -, h, -⟩ | ⟨-, -, -, n, rfl, -, rfl⟩) <;> first | rfl | omega | exact absurd trivial h | cases h
        · rename_i h
          refine ⟨fun due => ?_, fun c => ?_⟩
          · constructor
            · intro e; right; right
              exact ⟨trivial, trivial, by simp, _, rfl, by omega, by omega, by injection e with e; exact e.symm⟩
            · rintro (⟨h, -⟩ | ⟨h, -⟩ | ⟨-, -, -, n, rfl, -, -, rfl⟩) <;> first | rfl | omega
          · simp only [reduceCtorEq, false_iff]
            rintro (⟨h, -⟩ | ⟨h, -⟩ | ⟨-, h, -⟩ | ⟨-, -, h, -⟩ | ⟨-, -, -, n, rfl, ha, -⟩) <;> first | omega | exact absurd trivial h
  · have hd : dueFrame s.rtu.rate s.rtu.frame s.rtu.label (dueFormOf rec) = .error .refusedArg := by simp [dueFormOf, dueFrame, h0, h1, h2]
    rw [hd]
    simp only [State.dueFixed, State.dueRefused, h0, h1, h2, false_and, or_self, or_false, reduceCtorEq, Except.error.injEq]
    refine ⟨fun _ => trivial, fun c => ⟨?_, ?_⟩⟩
    · rintro rfl; exact ⟨by omega, rfl⟩
    · rintro ⟨-, rfl⟩; rfl

/-! ### Salvo lists -/

theorem fin_ofNat_eq {n : Nat} [NeZero n] {x : Nat} (h : x < n) : Fin.ofNat n x = ⟨x, h⟩ := by
  apply Fin.ext; simp [Fin.ofNat, Nat.mod_eq_of_lt h]

/-- The levels of a mask byte. -/
theorem hasLevel_mask {x : Nat} (_ : x < 8) (l : Level) : hasLevel (BitVec.ofNat 3 x) l = x.testBit l.num := by
  have hl : l.num < 3 := by cases l <;> decide
  simp only [hasLevel, BitVec.getLsbD_ofNat, hl, decide_true, Bool.true_and]

/-- The source of a take whose byte gives one. -/
theorem sourceOf_take {x : Nat} (h : x < 128 ∨ x = 255) : sourceOf x = some (if x = 255 then .park else .input (Fin.ofNat 128 x)) := by
  unfold sourceOf
  by_cases hx : x = 255
  · simp [hx]
  · have hx' : x < 128 := by omega
    rw [if_neg hx, if_neg hx, fin_ofNat_eq hx', finOf, dif_pos hx']
    rfl

/-- The takes of one list entry. -/
def State.oneTake (s : State) (y : RawTake) : List Crosspoint :=
  ([Level.v, .a, .b].filter fun l => s.keepsLevel y l).map fun l =>
    { dest := Fin.ofNat 64 y.dest, level := l, source := if y.source = 255 then .park else .input (Fin.ofNat 128 y.source) }

/-- One take of a salvo list passes the checks of R47. -/
def State.takeSound (s : State) (y : RawTake) : Prop :=
  y.dest < 64 ∧ 1 ≤ y.mask ∧ y.mask ≤ 7 ∧ (y.source < 128 ∨ y.source = 255) ∧ [Level.v, .a, .b].filter (s.keepsLevel y) ≠ []

/-- The entries of a sound take; none where it is not sound. -/
theorem rawEntries_terms (s : State) (y : RawTake) :
    (s.takeSound y → rawEntries s.xpe.dests y = some (s.oneTake y)) ∧ (¬ s.takeSound y → rawEntries s.xpe.dests y = none) := by
  unfold rawEntries
  by_cases hd : y.dest < 64
  swap
  · have : finOf 64 y.dest = none := finOf_ge (by omega)
    simp [this, State.takeSound, hd]
  by_cases hm : 0 < y.mask ∧ y.mask < 8
  swap
  · have : maskOf y.mask = none := by simp [maskOf]; omega
    have hn : ¬ s.takeSound y := fun h => hm ⟨h.2.1, by have := h.2.2.1; omega⟩
    simp only [this, hn, false_implies, not_false_eq_true, true_implies, true_and]
    split <;> simp_all
  by_cases hx : y.source < 128 ∨ y.source = 255
  swap
  · have : sourceOf y.source = none := by
      simp only [sourceOf, finOf]; rw [if_neg (by omega), dif_neg (by omega)]; rfl
    have hn : ¬ s.takeSound y := fun h => hx h.2.2.2.1
    simp only [this, hn, false_implies, not_false_eq_true, true_implies, true_and]
    split <;> simp_all
  have hte : takeEntries s.xpe.dests ⟨y.dest, hd⟩ (BitVec.ofNat 3 y.mask) (if y.source = 255 then .park else .input (Fin.ofNat 128 y.source)) = s.oneTake y := by
    simp only [takeEntries, State.oneTake, levels, State.keepsLevel, State.dest, fin_ofNat_eq hd, hasLevel_mask hm.2]
    rfl
  have h1 : finOf 64 y.dest = some ⟨y.dest, hd⟩ := finOf_eq ⟨y.dest, hd⟩ rfl
  have h2 : maskOf y.mask = some (BitVec.ofNat 3 y.mask) := by simp [maskOf, hm]
  simp only [h1, h2, sourceOf_take hx, hte]
  have he : s.oneTake y = [] ↔ [Level.v, .a, .b].filter (s.keepsLevel y) = [] := by rw [State.oneTake, List.map_eq_nil_iff]
  constructor
  · intro h
    rw [if_neg (he.not.mpr h.2.2.2.2)]
  · intro h
    rw [if_pos]
    by_contra hl
    exact h ⟨hd, hm.1, by omega, hx, he.not.mp hl⟩

/-- The entries of a list of sound takes; none where a take is not sound. -/
theorem listEntries_terms (s : State) (list : List RawTake) :
    ((∀ y ∈ list, s.takeSound y) → listEntries s.xpe.dests list = some (s.salvoTakes list)) ∧
    ((¬ ∀ y ∈ list, s.takeSound y) → listEntries s.xpe.dests list = none) := by
  induction list with
  | nil => simp [listEntries, State.salvoTakes]
  | cons y ys ih =>
    have hs : s.salvoTakes (y :: ys) = s.oneTake y ++ s.salvoTakes ys := by simp [State.salvoTakes, State.oneTake]
    constructor
    · intro h
      simp only [listEntries, (rawEntries_terms s y).1 (h y (by simp)), ih.1 (fun z hz => h z (by simp [hz])), hs]
    · intro h
      by_cases hy : s.takeSound y
      · have : ¬ ∀ z ∈ ys, s.takeSound z := fun hn => h (by intro z hz; rcases List.mem_cons.mp hz with rfl | hz; exacts [hy, hn z hz])
        simp only [listEntries, ih.2 this]
        split <;> simp_all
      · simp only [listEntries, (rawEntries_terms s y).2 hy]

/-- No two entries of a list are for one destination level. -/
theorem distinct_terms (es : List Crosspoint) : distinctEntries es = true ↔ es.Pairwise Crosspoint.differs := by
  induction es with
  | nil => simp [distinctEntries]
  | cons x xs ih =>
    simp only [distinctEntries, Bool.and_eq_true, List.all_eq_true, List.pairwise_cons, ih]
    refine and_congr_left fun _ => forall₂_congr fun y _ => ?_
    simp only [Crosspoint.isFor, Crosspoint.differs, Bool.not_eq_true', Bool.and_eq_false_iff, decide_eq_false_iff_not]
    exact or_congr ⟨Ne.symm, Ne.symm⟩ ⟨Ne.symm, Ne.symm⟩

/-- The checks of a salvo list. -/
theorem salvoEntries_terms (s : State) (list : List RawTake) :
    (s.isSalvo list → salvoEntries s.xpe.dests list = some (s.salvoTakes list)) ∧ (¬ s.isSalvo list → salvoEntries s.xpe.dests list = none) := by
  obtain ⟨h1, h2⟩ := listEntries_terms s list
  by_cases h : ∀ y ∈ list, s.takeSound y
  · have hi : s.isSalvo list ↔ distinctEntries (s.salvoTakes list) = true ∧ (s.salvoTakes list).length ≤ 48 := by
      rw [distinct_terms]; exact ⟨fun x => x.2, fun x => ⟨h, x⟩⟩
    simp only [salvoEntries, h1 h, hi]
    exact ⟨fun x => if_pos x, fun x => if_neg x⟩
  · have hi : ¬ s.isSalvo list := fun x => h x.1
    simp [salvoEntries, h2 h, hi]

/-! ### Admissions -/

/-- A destination lets a requester through just where protection does. -/
theorem lets_iff (s : State) (d : Fin 64) (q : Requester) : s.lets d q ↔ protectAllows (s.dest d).protect q.owner q.level = true :=
  (protectAllows_iff _ _ _).symm

/-- The entries of a queue are counted. -/
theorem entriesIn_eq (q : List TakeUnit) : entriesIn q = entryCount q := rfl

/-- The queue that an admitted unit leaves. -/
theorem queueWith_eq (s : State) (u : TakeUnit) : s.queueWith u = admittedQueue s.xpe.queue u := by
  unfold State.queueWith admittedQueue removeEntries replaces
  congr 1
  congr 1
  refine List.map_congr_left fun v _ => ?_
  congr 1
  refine List.filter_congr fun y _ => ?_
  congr 1
  refine List.any_congr rfl fun e => ?_
  simp [Crosspoint.isFor, eq_comm]

/-- The reports SUPERSEDED of an admission. -/
theorem tellSuperseded_eq (s : State) (es : List Crosspoint) :
    s.tellSuperseded es = (supersededBy s.xpe.queue es).foldl (fun v e => takeDone e.1.requester e.2 .superseded 0 v) s := by
  have hq : ∀ e : Crosspoint, ((s.xpe.queue.flatMap fun u => u.entries.map fun y => (u.requester.owner, y)).find?
      fun y => decide (y.2.dest = e.dest ∧ y.2.level = e.level)) =
        (queuedFor s.xpe.queue e.dest e.level).map fun y => (y.1.requester.owner, y.2) := by
    intro e
    have hm : (s.xpe.queue.flatMap fun u => u.entries.map fun y => (u.requester.owner, y)) =
        (queuedEntries s.xpe.queue).map fun y => (y.1.requester.owner, y.2) := by
      simp [queuedEntries, List.map_flatMap, Function.comp_def]
    rw [hm, List.find?_map]
    unfold queuedFor
    congr 2
    funext y
    simp [Crosspoint.isFor]
  have hf : ∀ (l : List (TakeUnit × Crosspoint)) (v : State), v.rtu = s.rtu →
      (l.map fun y => (y.1.requester.owner, y.2)).foldl (fun v y => match y.1 with
        | .panel _ => v
        | .app tag => report (.takeDone tag y.2.dest y.2.level .superseded 0) s.rtu.frame s.rtu.label v) v =
      l.foldl (fun v e => takeDone e.1.requester e.2 .superseded 0 v) v := by
    intro l
    induction l with
    | nil => intros; rfl
    | cons e es ih =>
      intro v hv
      rw [List.map_cons, List.foldl_cons, List.foldl_cons]
      have he : (match e.1.requester.owner with
          | .panel _ => v
          | .app tag => report (.takeDone tag e.2.dest e.2.level .superseded 0) s.rtu.frame s.rtu.label v) =
          takeDone e.1.requester e.2 .superseded 0 v := by
        unfold takeDone reportNow
        cases e.1.requester.owner <;> simp [hv]
      rw [he]
      exact ih _ (by simp [hv])
  unfold State.tellSuperseded supersededBy
  simp only [hq, ← List.map_filterMap]
  exact hf _ s rfl

/-! ### Order arguments -/

theorem finOf_none {n x : Nat} : finOf n x = none ↔ n ≤ x := by
  unfold finOf; split <;> simp <;> omega

/-- A byte gives no level mask just where it is 0 or has an unlisted bit. -/
theorem maskOf_none {x : Nat} : maskOf x = none ↔ x = 0 ∨ 8 ≤ x := by
  unfold maskOf; split <;> simp <;> omega

/-- The kinds of a destination, by their codes. -/
theorem destKindOf_eq (x : Nat) : destKindOf x = [DestKind.plain, .onair, .preview, .iso, .keyed, .reentry][x]? := by
  unfold destKindOf
  rcases x with _ | _ | _ | _ | _ | _ | x <;> simp

/-- The kinds of a port, by their codes. -/
theorem portKindOf_eq (x : Nat) : portKindOf x = [PortKind.station, .camera, .ifb, .line][x]? := by
  unfold portKindOf
  rcases x with _ | _ | _ | _ | x <;> simp

/-- The functions of a key, by their codes. -/
theorem keyFunctionOf_eq (x : Nat) : keyFunctionOf x = [KeyFunction.none, .report, .select, .source, .take, .step, .salvo, .protect, .talk][x]? := by
  unfold keyFunctionOf
  rcases x with _ | _ | _ | _ | _ | _ | _ | _ | _ | x <;> simp

/-- The bytes of a DEST_SET that the checks of R22 pass, and what they give. -/
theorem destSetArgs_terms (rec : OrderRecord) :
    (∀ (d : Fin 64) (c : DestConfig), ob rec 4 = d.1 → 1 ≤ ob rec 5 → ob rec 5 ≤ 7 → c.present = BitVec.ofNat 3 (ob rec 5) →
      [DestKind.plain, .onair, .preview, .iso, .keyed, .reentry][ob rec 6]? = some c.kind → optionalByte (ob rec 7) c.reentry →
      optionalByte (ob rec 8) c.redGpi → optionalByte (ob rec 9) c.greenGpi → (c.kind = .reentry → c.reentry ≠ none) →
      destSetArgs rec = some (d, c)) ∧
    ((64 ≤ ob rec 4 ∨ ob rec 5 = 0 ∨ 8 ≤ ob rec 5 ∨ 6 ≤ ob rec 6 ∨ (128 ≤ ob rec 7 ∧ ob rec 7 ≠ 254) ∨ (16 ≤ ob rec 8 ∧ ob rec 8 ≠ 254) ∨
      (16 ≤ ob rec 9 ∧ ob rec 9 ≠ 254) ∨ (ob rec 6 = 5 ∧ ob rec 7 = 254)) → destSetArgs rec = none) := by
  constructor
  · intro d c h4 h5 h5' hp hk h7 h8 h9 hr
    have e7 := (optionalOf_eq (n := 128) (by omega) _).mpr h7
    have e8 := (optionalOf_eq (n := 16) (by omega) _).mpr h8
    have e9 := (optionalOf_eq (n := 16) (by omega) _).mpr h9
    have e5 : maskOf (ob rec 5) = some c.present := by simp [maskOf, hp]; omega
    simp only [destSetArgs, finOf_eq d h4, e5, destKindOf_eq, hk, e7, e8, e9, Option.bind_eq_bind, Option.bind_some]
    rw [if_neg (fun h => hr h.1 h.2)]
  · intro h
    rcases h4 : finOf 64 (ob rec 4) with _ | d; · simp [destSetArgs, h4]
    rcases h5 : maskOf (ob rec 5) with _ | m; · simp [destSetArgs, h4, h5]
    rcases h6 : destKindOf (ob rec 6) with _ | k; · simp [destSetArgs, h4, h5, h6]
    rcases h7 : optionalOf 128 (ob rec 7) with _ | x; · simp [destSetArgs, h4, h5, h6, h7]
    rcases h8 : optionalOf 16 (ob rec 8) with _ | y; · simp [destSetArgs, h4, h5, h6, h7, h8]
    rcases h9 : optionalOf 16 (ob rec 9) with _ | z; · simp [destSetArgs, h4, h5, h6, h7, h8, h9]
    have n4 : ¬ 64 ≤ ob rec 4 := by rw [← finOf_none, h4]; simp
    have n5 : ¬ (ob rec 5 = 0 ∨ 8 ≤ ob rec 5) := by rw [← maskOf_none, h5]; simp
    have n6 : ¬ 6 ≤ ob rec 6 := by rw [destKindOf_eq] at h6; have := List.getElem?_eq_some_iff.mp h6; obtain ⟨hl, -⟩ := this; simp at hl; omega
    have n7 : ¬ (128 ≤ ob rec 7 ∧ ob rec 7 ≠ 254) := by rw [← optionalOf_none, h7]; simp
    have n8 : ¬ (16 ≤ ob rec 8 ∧ ob rec 8 ≠ 254) := by rw [← optionalOf_none, h8]; simp
    have n9 : ¬ (16 ≤ ob rec 9 ∧ ob rec 9 ≠ 254) := by rw [← optionalOf_none, h9]; simp
    have hh : ob rec 6 = 5 ∧ ob rec 7 = 254 := by tauto
    have hk : k = .reentry := by simpa [destKindOf, hh.1, eq_comm] using h6
    have hx : x = none := by simpa [optionalOf, hh.2, eq_comm] using h7
    simp [destSetArgs, h4, h5, h6, h7, h8, h9, hk, hx]

/-- The bytes of a PANEL_SET that the checks of R123 pass, and what they give. -/
theorem panelSetArgs_terms (rec : OrderRecord) :
    (∀ (p : Fin 24) (c : PanelConfig), ob rec 4 = p.1 → ob rec 5 = bit c.enabled → 1 ≤ ob rec 6 → ob rec 6 = c.level.1 → optionalByte (ob rec 7) c.station →
      ob rec 8 ≤ 1 → c.mode = (if ob rec 8 = 0 then .direct else .preset) → c.threshold = ob rec 9 → c.model.toNat = ob rec 10 + 256 * ob rec 11 →
      panelSetArgs rec = some (p, c)) ∧
    ((24 ≤ ob rec 4 ∨ 2 ≤ ob rec 5 ∨ ob rec 6 = 0 ∨ 4 ≤ ob rec 6 ∨ (32 ≤ ob rec 7 ∧ ob rec 7 ≠ 254) ∨ 2 ≤ ob rec 8) → panelSetArgs rec = none) := by
  constructor
  · intro p c h4 h5 h6 h6' h7 h8 hm ht hmo
    have e7 := (optionalOf_eq (n := 32) (by omega) _).mpr h7
    have e5 : flagOf (ob rec 5) = some c.enabled := by rw [h5]; cases c.enabled <;> simp [bit, flagOf]
    have e6 : finOf 4 (ob rec 6) = some c.level := finOf_eq c.level h6'
    have e8 : (if ob rec 8 = 0 then some RouterMode.direct else if ob rec 8 = 1 then some RouterMode.preset else none) = some c.mode := by
      rw [hm]; by_cases h : ob rec 8 = 0
      · simp [h]
      · have : ob rec 8 = 1 := by omega
        simp [this]
    have emo : BitVec.ofNat 16 (ob rec 10 + 256 * ob rec 11) = c.model := by rw [← hmo]; simp
    simp only [panelSetArgs, finOf_eq p h4, e5, e6, e7, e8, Option.bind_eq_bind, Option.bind_some]
    rw [if_neg (by intro h; rw [h] at h6'; simp at h6'; omega)]
    rw [emo, ← ht]
  · intro h
    rcases h4 : finOf 24 (ob rec 4) with _ | d; · simp [panelSetArgs, h4]
    rcases h5 : flagOf (ob rec 5) with _ | m; · simp [panelSetArgs, h4, h5]
    rcases h6 : finOf 4 (ob rec 6) with _ | k; · simp [panelSetArgs, h4, h5, h6]
    rcases h7 : optionalOf 32 (ob rec 7) with _ | x; · simp [panelSetArgs, h4, h5, h6, h7]
    by_cases h8 : 2 ≤ ob rec 8
    · simp [panelSetArgs, h4, h5, h6, h7, show ob rec 8 ≠ 0 by omega, show ob rec 8 ≠ 1 by omega]
    have n4 : ¬ 24 ≤ ob rec 4 := by rw [← finOf_none, h4]; simp
    have n5 : ¬ 2 ≤ ob rec 5 := by intro hn; simp [flagOf, show ob rec 5 ≠ 0 by omega, show ob rec 5 ≠ 1 by omega] at h5
    have n6 : ¬ 4 ≤ ob rec 6 := by rw [← finOf_none, h6]; simp
    have n7 : ¬ (32 ≤ ob rec 7 ∧ ob rec 7 ≠ 254) := by rw [← optionalOf_none, h7]; simp
    have h0 : ob rec 6 = 0 := by tauto
    have hk : k = 0 := by simpa [finOf, h0, eq_comm] using h6
    simp [panelSetArgs, h4, h5, h6, h7, hk]

/-- The bytes of a PORT_SET whose fields are in their lists, and the record and number of clamps that they give. -/
theorem portSetArgs_terms (rec : OrderRecord) :
    (∀ (p : Fin 32) (x : Port), ob rec 4 = p.1 → [PortKind.station, .camera, .ifb, .line][ob rec 5]? = some x.kind → ob rec 9 < 4 →
      x.outTrim = max (-24) (min 24 (rec.getD 6 0).toInt) → x.inTrim = max (-60) (min 24 (rec.getD 7 0).toInt) →
      x.dim = max 0 (min 60 (rec.getD 8 0).toInt) → x.enable = (rec.getD 9 0).getLsbD 0 → x.isolate = (rec.getD 9 0).getLsbD 1 →
      portSetArgs rec = some (p, x, (if x.outTrim = (rec.getD 6 0).toInt then 0 else 1) + (if x.inTrim = (rec.getD 7 0).toInt then 0 else 1) +
        (if x.dim = (rec.getD 8 0).toInt then 0 else 1))) ∧
    ((32 ≤ ob rec 4 ∨ 4 ≤ ob rec 5 ∨ 4 ≤ ob rec 9) → portSetArgs rec = none) := by
  have hc : ∀ lo hi y : Int, lo ≤ hi → clampInt lo hi y = max lo (min hi y) := by intro lo hi y h; unfold clampInt; split <;> (try split) <;> omega
  constructor
  · intro p x h4 h5 h9 h6 h7 h8 he hi
    have e6 : clampInt (-24) 24 (signedAt rec 6) = x.outTrim := by rw [hc _ _ _ (by omega), h6]; rfl
    have e7 : clampInt (-60) 24 (signedAt rec 7) = x.inTrim := by rw [hc _ _ _ (by omega), h7]; rfl
    have e8 : clampInt 0 60 (signedAt rec 8) = x.dim := by rw [hc _ _ _ (by omega), h8]; rfl
    have e1 : (ob rec 9).testBit 0 = x.enable := he.symm
    have e2 : (ob rec 9).testBit 1 = x.isolate := hi.symm
    simp only [portSetArgs, finOf_eq p h4, portKindOf_eq, h5, Option.bind_eq_bind, Option.bind_some, show ¬ 4 ≤ ob rec 9 by omega, if_false, clampedCount,
      e6, e7, e8, e1, e2]
    rfl
  · intro h
    rcases h4 : finOf 32 (ob rec 4) with _ | d; · simp [portSetArgs, h4]
    rcases h5 : portKindOf (ob rec 5) with _ | m; · simp [portSetArgs, h4, h5]
    have n4 : ¬ 32 ≤ ob rec 4 := by rw [← finOf_none, h4]; simp
    have n5 : ¬ 4 ≤ ob rec 5 := by rw [portKindOf_eq] at h5; obtain ⟨hl, -⟩ := List.getElem?_eq_some_iff.mp h5; simp at hl; omega
    simp [portSetArgs, h4, h5, show 4 ≤ ob rec 9 by tauto]

/-- The bytes of a TALLY_SET that checks 1 to 5 of R77 pass, and what they give. -/
theorem tallySetArgs_terms (rec : OrderRecord) :
    (∀ (c : Fin 64) (x : ChannelConfig), ob rec 4 = c.1 → optionalByte (ob rec 5) x.source → ob rec 6 ≤ 7 → x.mask = BitVec.ofNat 3 (ob rec 6) →
      ob rec 7 ≤ 1 → x.mode = (if ob rec 7 = 0 then .single else .triple) → optionalByte (ob rec 8) x.call → ob rec 9 ≤ 1 →
      x.polarity = (if ob rec 9 = 0 then .upright else .inverted) → optionalByte (ob rec 10) x.master → tallySetArgs rec = some (c, x)) ∧
    ((64 ≤ ob rec 4 ∨ (128 ≤ ob rec 5 ∧ ob rec 5 ≠ 254) ∨ 8 ≤ ob rec 6 ∨ 2 ≤ ob rec 7 ∨ (32 ≤ ob rec 8 ∧ ob rec 8 ≠ 254) ∨ 2 ≤ ob rec 9 ∨
      (64 ≤ ob rec 10 ∧ ob rec 10 ≠ 254)) → tallySetArgs rec = none) := by
  constructor
  · intro c x h4 h5 h6 hm h7 hmo h8 h9 hp h10
    have e5 := (optionalOf_eq (n := 128) (by omega) _).mpr h5
    have e8 := (optionalOf_eq (n := 32) (by omega) _).mpr h8
    have e10 := (optionalOf_eq (n := 64) (by omega) _).mpr h10
    have e6 : colourOf (ob rec 6) = some x.mask := by rw [hm, colourOf, if_pos (by omega)]
    have e7 : (if ob rec 7 = 0 then some LampMode.single else if ob rec 7 = 1 then some LampMode.triple else none) = some x.mode := by
      rw [hmo]; rcases (show ob rec 7 = 0 ∨ ob rec 7 = 1 by omega) with h | h <;> simp [h]
    have e9 : (if ob rec 9 = 0 then some Polarity.upright else if ob rec 9 = 1 then some Polarity.inverted else none) = some x.polarity := by
      rw [hp]; rcases (show ob rec 9 = 0 ∨ ob rec 9 = 1 by omega) with h | h <;> simp [h]
    simp only [tallySetArgs, finOf_eq c h4, e5, e6, e7, e8, e9, e10, Option.bind_eq_bind, Option.bind_some]
  · intro h
    rcases h4 : finOf 64 (ob rec 4) with _ | d; · simp [tallySetArgs, h4]
    rcases h5 : optionalOf 128 (ob rec 5) with _ | m; · simp [tallySetArgs, h4, h5]
    rcases h6 : colourOf (ob rec 6) with _ | k; · simp [tallySetArgs, h4, h5, h6]
    by_cases h7 : 2 ≤ ob rec 7
    · simp [tallySetArgs, h4, h5, h6, show ob rec 7 ≠ 0 by omega, show ob rec 7 ≠ 1 by omega]
    have e7 : ∃ y, (if ob rec 7 = 0 then some LampMode.single else if ob rec 7 = 1 then some LampMode.triple else none) = some y := by
      rcases (show ob rec 7 = 0 ∨ ob rec 7 = 1 by omega) with h | h <;> simp [h]
    obtain ⟨_, e7⟩ := e7
    rcases h8 : optionalOf 32 (ob rec 8) with _ | x; · simp [tallySetArgs, h4, h5, h6, e7, h8]
    by_cases h9 : 2 ≤ ob rec 9
    · simp [tallySetArgs, h4, h5, h6, e7, h8, show ob rec 9 ≠ 0 by omega, show ob rec 9 ≠ 1 by omega]
    have e9 : ∃ y, (if ob rec 9 = 0 then some Polarity.upright else if ob rec 9 = 1 then some Polarity.inverted else none) = some y := by
      rcases (show ob rec 9 = 0 ∨ ob rec 9 = 1 by omega) with h | h <;> simp [h]
    obtain ⟨_, e9⟩ := e9
    rcases h10 : optionalOf 64 (ob rec 10) with _ | y; · simp [tallySetArgs, h4, h5, h6, e7, h8, e9, h10]
    have n4 : ¬ 64 ≤ ob rec 4 := by rw [← finOf_none, h4]; simp
    have n5 : ¬ (128 ≤ ob rec 5 ∧ ob rec 5 ≠ 254) := by rw [← optionalOf_none, h5]; simp
    have n6 : ¬ 8 ≤ ob rec 6 := by intro hn; simp [colourOf, show ¬ ob rec 6 < 8 by omega] at h6
    have n8 : ¬ (32 ≤ ob rec 8 ∧ ob rec 8 ≠ 254) := by rw [← optionalOf_none, h8]; simp
    have n10 : ¬ (64 ≤ ob rec 10 ∧ ob rec 10 ≠ 254) := by rw [← optionalOf_none, h10]; simp
    exfalso; tauto

/-! ### Key map entries -/

theorem lampOf_some {x : Nat} : (lampOfByte x).isSome = true ↔ x < 4 := by
  unfold lampOfByte
  rcases x with _ | _ | _ | _ | x <;> simp

/-- A byte names a talk mode just where it is below 3. -/
theorem talkMode_some {x : Nat} : (talkModeOf x).isSome = true ↔ x < 3 := by
  unfold talkModeOf
  rcases x with _ | _ | _ | x <;> simp

/-- Which bytes name a talk target. -/
theorem talkTarget_some {k a : Nat} : (talkTargetOf k a).isSome = true ↔ (k = 0 ∧ a < 32) ∨ ((k = 1 ∨ k = 2) ∧ a < 8) := by
  unfold talkTargetOf
  rcases k with _ | _ | _ | k <;> simp [finOf]

/-- The gain of a TALK entry is clamped to −40..0. -/
theorem storedGain_talk (g : Byte) : (storedGain .talk g).toInt = max (-40) (min 0 g.toInt) := by
  have h : ∀ g : Byte, (storedGain .talk g).toInt = max (-40) (min 0 g.toInt) := by decide
  exact h g

/-- The entry that 16 bytes of a key map give, or its refusal, in the terms of the statements. -/
theorem keyEntryOf_terms (noTalk : Bool) (r : List Byte) :
    (keyEntryBad (noTalk = true) r → keyEntryOf noTalk r = none) ∧
    (¬ keyEntryBad (noTalk = true) r → ∃ e, keyEntryOf noTalk r = some e ∧ keyEntryFrom r e) := by
  by_cases h9 : 9 ≤ ob r 0
  · have hk : keyFunctionOf (ob r 0) = none := by rw [keyFunctionOf_eq]; exact List.getElem?_eq_none (by simpa using h9)
    exact ⟨fun _ => by simp [keyEntryOf, hk], fun h => absurd (Or.inl h9) h⟩
  have hfn : ∃ f, keyFunctionOf (ob r 0) = some f ∧ [KeyFunction.none, .report, .select, .source, .take, .step, .salvo, .protect, .talk][ob r 0]? = some f := by
    rw [keyFunctionOf_eq]
    exact ⟨_, List.getElem?_eq_getElem (show ob r 0 < _ by simp; omega), List.getElem?_eq_getElem (show ob r 0 < _ by simp; omega)⟩
  obtain ⟨f, hf, hf'⟩ := hfn
  let e : KeyEntry := { fn := f, arg := r.getD 1 0, target := r.getD 2 0, mask := r.getD 3 0, mode := r.getD 4 0, gain := storedGain f (r.getD 5 0), lamp := r.getD 6 0 }
  have hof : keyEntryOf noTalk r = if f = .talk ∧ noTalk = true then none else if e.meaning.isSome then some e else none := by
    simp only [keyEntryOf, hf, Option.bind_eq_bind, Option.bind_some]; rfl
  have htalk : ob r 0 = 8 ↔ f = .talk := by
    have : ob r 0 = 0 ∨ ob r 0 = 1 ∨ ob r 0 = 2 ∨ ob r 0 = 3 ∨ ob r 0 = 4 ∨ ob r 0 = 5 ∨ ob r 0 = 6 ∨ ob r 0 = 7 ∨ ob r 0 = 8 := by omega
    rcases this with h | h | h | h | h | h | h | h | h <;> rw [h] at hf' ⊢ <;> simp at hf' <;> subst hf' <;> simp
  have hfrom : keyEntryFrom r e := by
    refine ⟨hf', rfl, rfl, rfl, rfl, rfl, fun h => ?_, fun h => ?_⟩
    · have : f ≠ .talk := fun x => h (htalk.mpr x)
      simp [e, storedGain, this]
    · have := htalk.mp h
      simp only [e, this]; exact storedGain_talk _
  have hbad : keyEntryBad (noTalk = true) r ↔ (f = .talk ∧ noTalk = true) ∨ e.meaning.isSome = false := by
    have ha : e.arg.toNat = ob r 1 := rfl
    have hm : e.mask.toNat = ob r 3 := rfl
    have hl : e.lamp.toNat = ob r 6 := rfl
    have ht : e.target.toNat = ob r 2 := rfl
    have hmo : e.mode.toNat = ob r 4 := rfl
    have hef : e.fn = f := rfl
    have : ob r 0 = 0 ∨ ob r 0 = 1 ∨ ob r 0 = 2 ∨ ob r 0 = 3 ∨ ob r 0 = 4 ∨ ob r 0 = 5 ∨ ob r 0 = 6 ∨ ob r 0 = 7 ∨ ob r 0 = 8 := by omega
    unfold keyEntryBad KeyEntry.meaning
    rw [ha, hm, hl, ht, hmo, hef]
    rcases this with h | h | h | h | h | h | h | h | h <;> rw [h] at hf' ⊢ <;> simp at hf' <;> subst hf' <;> simp only [← Bool.not_eq_true, Option.isSome_map, lampOf_some]
    · simp
    · simp
    · have hx := finOf_none (n := 64) (x := ob r 1)
      have hy := maskOf_none (x := ob r 3)
      cases h1 : finOf 64 (ob r 1) <;> cases h3 : maskOf (ob r 3) <;> simp [h1, h3] at hx hy ⊢ <;> omega
    · simp only [Option.isSome_iff_ne_none, ne_eq, sourceOf_none]; simp
    · simp
    · simp only [Option.isSome_iff_ne_none, ne_eq, finOf_none]; simp
    · simp only [Option.isSome_iff_ne_none, ne_eq, finOf_none]; simp
    · simp
    · have hx := talkTarget_some (k := ob r 2) (a := ob r 1)
      have hy := talkMode_some (x := ob r 4)
      cases noTalk
      · cases h1 : talkTargetOf (ob r 2) (ob r 1) <;> cases h3 : talkModeOf (ob r 4) <;> simp [h1, h3] at hx hy ⊢ <;> omega
      · simp
  constructor
  · intro h
    rw [hof]
    rcases hbad.mp h with h | h
    · rw [if_pos h]
    · simp [h]
  · intro h
    rw [hbad, not_or] at h
    exact ⟨e, by rw [hof, if_neg h.1, if_pos (by cases hh : e.meaning.isSome; exacts [absurd hh h.2, rfl])], hfrom⟩

/-! ### Take notices -/

/-- The lamp of a key depends on its panel's record, but for its image and lamp set, and on the XPE, the TLY and the TKE. -/
theorem lampOf_congr {s t : State} {p : Fin 24} (hp : (t.panel p).still = (s.panel p).still) (hx : t.xpe = s.xpe) (hl : t.tly = s.tly)
    (ht : t.tke = s.tke) (k : Fin 48) : t.lampOf p k = s.lampOf p k := by
  have h1 : (t.panel p).timers = (s.panel p).timers := (congrArg Panel.timers hp : (t.panel p).still.timers = (s.panel p).still.timers)
  have h2 : (t.panel p).selection = (s.panel p).selection :=
    (congrArg Panel.selection hp : (t.panel p).still.selection = (s.panel p).still.selection)
  have h3 := keyAction_of_still hp k
  have h4 := station_of_still hp
  have h5 : ∀ x, t.targetSet x = s.targetSet x := by
    intro x
    cases x <;> simp [State.targetSet, ht]
  unfold State.lampOf State.functionLamp State.sourceLamp State.protectLamp State.talkLamp State.calledBy State.usableStation State.currentSource
    State.salvoActive State.sourceRed
  simp only [h1, h2, h3, h4, h5, hx, hl, State.keyState, ht]
  rfl

/-- What a change of every panel by itself does to one of them. -/
theorem forPanels_panel (f : Fin 24 → State → State) (g : State → Xpe × Tly × Tke)
    (keeps : ∀ p s, g (f p s) = g s) (other : ∀ p q s, p ≠ q → (f p s).panel q = s.panel q)
    (own : ∀ p s s', s.panel p = s'.panel p → g s = g s' → (f p s).panel p = (f p s').panel p) (s : State) (o : Fin 24) :
    (forPanels f s).panel o = (f o s).panel o := by
  have hl : ∀ (l : List (Fin 24)) (v : State), o ∉ l → (l.foldl (fun s p => f p s) v).panel o = v.panel o := by
    intro l
    induction l with
    | nil => intros; rfl
    | cons p ps ih =>
      intro v hv
      simp only [List.mem_cons, not_or] at hv
      rw [List.foldl_cons, ih _ hv.2, other p o v (Ne.symm hv.1)]
  have hk : ∀ (l : List (Fin 24)) (v : State), g (l.foldl (fun s p => f p s) v) = g v := by
    intro l
    induction l with
    | nil => intros; rfl
    | cons p ps ih => intro v; rw [List.foldl_cons, ih, keeps]
  obtain ⟨before, after, hs⟩ := List.append_of_mem (List.mem_finRange o)
  have hn : (before ++ o :: after).Nodup := hs ▸ List.nodup_finRange 24
  rw [List.nodup_append] at hn
  obtain ⟨-, h2, h3⟩ := hn
  have hb : o ∉ before := fun h => h3 o h o (by simp) rfl
  have ha : o ∉ after := (List.nodup_cons.mp h2).1
  unfold forPanels
  rw [hs, List.foldl_append, List.foldl_cons, hl _ _ ha]
  exact own o _ s (hl _ _ hb) (hk _ _)

/-- The new lamp image of a panel depends on its record and on the XPE, the TLY and the TKE. -/
theorem relit_congr {s t : State} {p : Fin 24} (hp : t.panel p = s.panel p) (hx : t.xpe = s.xpe) (hl : t.tly = s.tly) (ht : t.tke = s.tke)
    (which : Fin 48 → Bool) : t.relit p which = s.relit p which := by
  unfold State.relit
  congr 1
  funext k
  rw [lampOf_congr (by rw [hp]) hx hl ht, hp]

/-- The lamp set of a panel with a new image: its own, and the keys whose lamp the image changes. -/
theorem mem_withImage (x : Panel) (image : Vector Lamp 48) (k : Fin 48) :
    k ∈ (x.withImage image).lampSet ↔ k ∈ x.lampSet ∨ image[k] ≠ x.image[k] := by
  simp only [Panel.withImage, newlyChanged, List.mem_append, List.mem_filter, List.mem_finRange, true_and, Bool.and_eq_true,
    decide_eq_true_eq, Bool.not_eq_true', List.contains_eq_mem, decide_eq_false_iff_not]
  by_cases h : k ∈ x.lampSet <;> simp [h]

/-- A panel record whose guard a take notice has broken. -/
def Panel.broken (x : Panel) : Panel := { x with selection := { x.selection with guard := false }, noticed := true }

/-- What the break of a guard does to its panel: the guard is BROKEN and, if it is ONLINE, its lamps are derived. -/
theorem breakGuard_panel (p : Fin 24) (s : State) :
    (breakGuard p s).panel p = if (s.panel p).state = .online
      then (s.panel p).broken.withImage ((s.setPanel p (s.panel p).broken).relit p fun _ => true) else (s.panel p).broken := by
  have hb : breakGuard p s = derivePanel p ((s.setPanel p { s.panel p with noticed := true }).setPanel p (s.panel p).broken) := by
    unfold breakGuard reselect
    rw [setPanel_same]
    rfl
  have hp : ((s.setPanel p { s.panel p with noticed := true }).setPanel p (s.panel p).broken).panel p = (s.panel p).broken := setPanel_same _ _ _
  have hr := relit_congr (s := s.setPanel p (s.panel p).broken) (t := (s.setPanel p { s.panel p with noticed := true }).setPanel p (s.panel p).broken)
    (hp.trans (setPanel_same _ _ _).symm) rfl rfl rfl fun _ => true
  rw [hb]
  unfold derivePanel
  rw [hp]
  change (if (s.panel p).state = .online then _ else _ : State).panel p = _
  split
  · rw [relight_panel, if_pos rfl, hp, hr]
  · exact hp

/-- The break of a guard leaves every other panel. -/
theorem breakGuard_other {p q : Fin 24} (h : p ≠ q) (s : State) : (breakGuard p s).panel q = s.panel q := by
  unfold breakGuard reselect derivePanel
  split <;> simp [relight_panel, setPanel_panel, h]

/-- A take notice reaches each panel by itself. -/
theorem takeNotice_panel (owner : Owner) (d : Fin 64) (s : State) (o : Fin 24) :
    (takeNotice owner d s).panel o = if s.guardBroken d owner o = true then (breakGuard o s).panel o else s.panel o := by
  have h := forPanels_panel (fun p s => if s.guardBroken d owner p then breakGuard p s else s) (fun s => (s.xpe, s.tly, s.tke)) ?_ ?_ ?_ s o
  · unfold takeNotice
    rw [h]
    split <;> rfl
  · intro p s
    split
    · simp [breakGuard, reselect]
    · rfl
  · intro p q s h
    split
    · exact breakGuard_other h s
    · rfl
  · intro p s s' hp hg
    obtain ⟨h1, h2, h3⟩ : s.xpe = s'.xpe ∧ s.tly = s'.tly ∧ s.tke = s'.tke := by simpa using hg
    have hb : s.guardBroken d owner p = s'.guardBroken d owner p := by unfold State.guardBroken; rw [hp]
    simp only [hb]
    split
    · have hr := relit_congr (s := s'.setPanel p (s'.panel p).broken) (t := s.setPanel p (s'.panel p).broken)
        ((setPanel_same _ _ _).trans (setPanel_same _ _ _).symm) h1 h2 h3 fun _ => true
      rw [breakGuard_panel, breakGuard_panel, hp, hr]
    · exact hp

/-- Take notices on a list of destinations break the guards that the statements' term says, and leave every other panel as it is. -/
theorem notices_guards (owner : Owner) (ds : List (Fin 64)) (s : State) :
    s.guardsAfter (ds.foldl (fun s d => takeNotice owner d s) s) owner fun d => d ∈ ds := by
  induction ds generalizing s with
  | nil =>
    intro o
    exact ⟨fun h => by obtain ⟨-, -, -, -, d, m, -, hd⟩ := h; simp at hd, fun _ => rfl⟩
  | cons d ds ih =>
    intro o
    have h := ih (takeNotice owner d s) o
    have hf : ∀ (l : List (Fin 64)) (v : State), let w := l.foldl (fun s d => takeNotice owner d s) v
        w.xpe = v.xpe ∧ w.tly = v.tly ∧ w.tke = v.tke := by
      intro l
      induction l with
      | nil => intro v; exact ⟨rfl, rfl, rfl⟩
      | cons e es ih => intro v; have := ih (takeNotice owner e v); simpa using this
    have hn := takeNotice_panel owner d s o
    rw [List.foldl_cons]
    generalize hw : ds.foldl (fun s d => takeNotice owner d s) (takeNotice owner d s) = w at h
    have hc : w.xpe = s.xpe ∧ w.tly = s.tly ∧ w.tke = s.tke := by
      rw [← hw]
      have := hf ds (takeNotice owner d s)
      simpa using this
    by_cases hb : s.guardBroken d owner o = true
    · rw [if_pos hb] at hn
      have hbp := breakGuard_panel o s
      rw [← hn] at hbp
      have hg : ((takeNotice owner d s).panel o).selection.guard = false := by rw [hbp]; split <;> rfl
      have hw : w.panel o = (takeNotice owner d s).panel o := h.2 fun hx => by rw [hg] at hx; exact absurd hx.2.2.1 (by decide)
      rw [hbp] at hw
      have hsome : (s.panel o).mode = .preset ∧ owner ≠ .panel o ∧ (s.panel o).selection.guard = true ∧ (s.panel o).selection.preset ≠ none ∧
          ∃ e m, (s.panel o).selection.dest = some (e, m) ∧ e ∈ d :: ds := by
        simp only [State.guardBroken, Bool.and_eq_true, decide_eq_true_eq] at hb
        obtain ⟨⟨⟨⟨h1, h2⟩, h3⟩, h4⟩, h5⟩ := hb
        obtain ⟨⟨e, m⟩, he, hd⟩ := Option.map_eq_some_iff.mp h5
        exact ⟨h1, h2, h3, by intro hx; simp [hx] at h4, e, m, he, by simp at hd; simp [hd]⟩
      refine ⟨fun _ => ?_, fun hx => absurd hsome hx⟩
      by_cases ho : (s.panel o).state = .online
      · rw [if_pos ho] at hw
        have hi : ∀ k : Fin 48, (w.panel o).image[k] = w.lampOf o k := by
          intro k
          rw [lampOf_congr (s := s.setPanel o (s.panel o).broken) (by rw [hw, setPanel_same, withImage_still]) hc.1 hc.2.1 hc.2.2 k, hw]
          simp [Panel.withImage, State.relit]
        refine ⟨by rw [hw]; rfl, fun _ k => ⟨hi k, ?_⟩, fun hx => absurd ho hx⟩
        rw [← hi k, hw, mem_withImage]
        rfl
      · rw [if_neg ho] at hw
        exact ⟨by rw [hw]; rfl, fun hx => absurd hx ho, fun _ => by rw [hw]; exact ⟨rfl, rfl⟩⟩
    · rw [if_neg hb] at hn
      rw [hn] at h
      have he : ∀ e m, (s.panel o).mode = .preset → owner ≠ .panel o → (s.panel o).selection.guard = true →
          (s.panel o).selection.preset ≠ none → (s.panel o).selection.dest = some (e, m) → e ∈ d :: ds → e ∈ ds := by
        intro e m h1 h2 h3 h4 h5 h6
        rcases List.mem_cons.mp h6 with rfl | h6
        · exfalso
          apply hb
          simp only [State.guardBroken, h1, h2, h3, h5, decide_true, Bool.and_true, Option.map_some, Bool.true_and, ne_eq,
            not_false_eq_true]
          cases hp : (s.panel o).selection.preset
          · exact absurd hp h4
          · rfl
        · exact h6
      constructor
      · rintro ⟨h1, h2, h3, h4, e, m, h5, h6⟩
        exact h.1 ⟨h1, h2, h3, h4, e, m, h5, he e m h1 h2 h3 h4 h5 h6⟩
      · intro hx
        apply h.2
        rintro ⟨h1, h2, h3, h4, e, m, h5, h6⟩
        exact hx ⟨h1, h2, h3, h4, e, m, h5, by simp [h6]⟩

/-- The destinations that a unit touches are those of its entries. -/
theorem mem_touchedDests (es : List Crosspoint) (d : Fin 64) : d ∈ touchedDests es ↔ ∃ x ∈ es, x.dest = d := by
  have h : ∀ (es : List Crosspoint) (ds : List (Fin 64)),
      d ∈ es.foldl (fun ds x => if ds.contains x.dest then ds else ds ++ [x.dest]) ds ↔ d ∈ ds ∨ ∃ x ∈ es, x.dest = d := by
    intro es
    induction es with
    | nil => intro ds; simp
    | cons x xs ih =>
      intro ds
      rw [List.foldl_cons, ih]
      split
      · rename_i hx
        simp only [List.contains_eq_mem, decide_eq_true_eq] at hx
        simp only [List.mem_cons, exists_eq_or_imp]
        constructor
        · rintro (h | h)
          · exact Or.inl h
          · exact Or.inr (Or.inr h)
        · rintro (h | rfl | h)
          · exact Or.inl h
          · exact Or.inl hx
          · exact Or.inr h
      · simp [or_assoc, eq_comm]
  simpa [touchedDests] using h es []

/-- The TAKE_DONE reports of the entries that a unit supersedes leave every panel. -/
theorem superseded_pnc (l : List (TakeUnit × Crosspoint)) (s : State) :
    (l.foldl (fun s e => takeDone e.1.requester e.2 .superseded 0 s) s).pnc = s.pnc :=
  foldl_keeps (fun s => s.pnc) _ (fun s e => by simp) l s

/-- An admitted unit breaks the guards that the statements' term says (R44, R136). -/
theorem admitUnit_guards {u : TakeUnit} {s : State} (h : entryCount (admittedQueue s.xpe.queue u) ≤ 64) :
    s.guardsAfter (admitUnit u s).1 u.requester.owner fun d => ∃ x ∈ u.entries, x.dest = d := by
  unfold admitUnit
  rw [if_neg (by omega)]
  intro o
  have hn := notices_guards u.requester.owner (touchedDests u.entries)
    ((supersededBy s.xpe.queue u.entries).foldl (fun s e => takeDone e.1.requester e.2 .superseded 0 s)
      { s with xpe := { s.xpe with queue := admittedQueue s.xpe.queue u } }) o
  have hp := panel_of_pnc (superseded_pnc (supersededBy s.xpe.queue u.entries)
    { s with xpe := { s.xpe with queue := admittedQueue s.xpe.queue u } }) o
  rw [hp] at hn
  simp only [mem_touchedDests] at hn
  exact hn

end Sys2Proof.Machine
end

