-- ==== Sys2Proof/Tests/Slice0.lean ====
section
/-! SUPPORT. The model's own tests: the well-formedness smoke, single steps against the manual's worked examples, and a witness that meets the hypotheses of each statement. -/

namespace Sys2Proof.Tests

set_option Elab.async false

open Sys2Proof.Machine

/-! ### Small states -/

/-- The next state, where there is one. -/
def next? : Host.Outcome State Fault Refusal → Option State
  | .next t => some t
  | .fault _ => none
  | .refused _ => none

/-- What a view of the next state shows. -/
def after {α : Type} (f : State → α) (c : Instr) (s : State) : Option α := (next? (exec c s)).map f

/-- An outcome whose next state passes a test. -/
theorem next_of {o : Host.Outcome State Fault Refusal} {p : State → Bool} (h : (next? o).any p = true) :
    ∃ t, o = .next t ∧ p t = true := by
  cases o with
  | next t => exact ⟨t, rfl, h⟩
  | fault _ => cases h
  | refused _ => cases h

/-- Bytes at rising addresses. -/
def bytesAt (a : Nat) (l : List Byte) : HostWrites := l.zipIdx.map fun x => (a + x.2, x.1)

/-- An anchor block that passes R148 at 10000H: windows, journal, mirror, read index 0, threshold 200. -/
def anchorBytes (rate : Byte) : HostWrites := bytesAt 0x10000
  [rate, 0, 0, 0, 0, 0, 2, 0, 0, 0, 1, 0, 0, 0, 1, 0, 0, 0, 1, 0, 0, 0x10, 1, 0, 0, 0x20, 1, 0, 0, 200]

/-- The anchor copy of that block. -/
def copy0 : AnchorCopy :=
  { address := 0x10000, orders := ⟨0x20000, 0x10000⟩, reports := ⟨0x10000, 0x10000⟩, journal := 0x11000, mirror := 0x12000, threshold := 200 }

/-- HALTED, with the ANCHOR register at that block. -/
def halted (rate : Byte) : State := { State.reset with store := hostWrite [] (anchorBytes rate), csi := { Csi.reset with anchor := 0x10000 } }

/-- RUNNING, with that anchor copy and the fabric link UP. -/
def live : State :=
  { State.reset with
    runState := .running
    control := { run := true, freeze := false, mask := 0 }
    xpe := { Xpe.reset with link := .up }
    csi := { Csi.reset with copy := some copy0 } }

/-- A strip of two orders at 20000H, at its first. -/
def strip0 : Running :=
  { slot := { slot := 0, stopOn := false, salvo := false, address := 0x20000, count := 2 }, next := 0, processed := 0, refused := 0, stop := false, waiting := none }

/-- An order record of an application at privilege level 2: kind, owner tag, and the bytes from 04H on. -/
def record (kind tag : Byte) (args : List Byte) : OrderRecord :=
  [kind, tag, 2, 0] ++ args ++ List.replicate (28 - args.length) 0

/-- A state with the strip at an order. -/
def atOrder (rec : OrderRecord) (s : State) : State :=
  { s with store := hostWrite s.store (bytesAt 0x20000 rec), csi := { s.csi with running := some strip0 } }

/-- The requester of `record kind tag …`. -/
def asker (tag : Fin 16) : Requester := { owner := .app tag, level := 2 }

/-- The outcome code of the strip's first order after a command. -/
def outcome (c : Instr) (s : State) : Option Byte := after (fun t => storeRead t.store 0x20018) c s

/-! ### Well-formed commands -/

/-- A write at the store's last byte is inside, one past it is not. -/
theorem test_wellFormed_outside_write :
    (Instr.statusWrite [(4194303, 1)] 0).wellFormed = true ∧ (Instr.statusWrite [(4194304, 1)] 0).wellFormed = false := by decide

/-- A switch report has at most 48 lines. -/
theorem test_wellFormed_report_lines :
    (Instr.switchReport (List.replicate 48 ⟨0, 0, false, 0⟩)).wellFormed = true ∧
    (Instr.switchReport (List.replicate 49 ⟨0, 0, false, 0⟩)).wellFormed = false := by decide +kernel

/-- A reply's count of events is one byte. -/
theorem test_wellFormed_reply_events :
    (Instr.reply 0 ⟨0, false, none, List.replicate 255 ⟨0, true⟩, false⟩).wellFormed = true ∧
    (Instr.reply 0 ⟨0, false, none, List.replicate 256 ⟨0, true⟩, false⟩).wellFormed = false := by decide +kernel

/-- The table's rows give no bits, so no word spells a command (log entry 6). -/
theorem test_decode_none : decodeTableWord 32 0 = none ∧ State.reset.withFetchWord 32 0 = State.reset := ⟨rfl, rfl⟩

/-! ### Frame time: the worked examples of Frame Time and Timecode -/

/-- Succession at the drop-frame rates (the manual's table). -/
theorem test_successor_drop :
    successor .r30df ⟨0, 0, 59, 29⟩ = ⟨0, 1, 0, 2⟩ ∧ successor .r30df ⟨0, 9, 59, 29⟩ = ⟨0, 10, 0, 0⟩ ∧
    successor .r30df ⟨23, 59, 59, 29⟩ = ⟨0, 0, 0, 0⟩ ∧ successor .r60df ⟨0, 0, 59, 59⟩ = ⟨0, 1, 0, 4⟩ ∧
    successor .r25 ⟨13, 7, 59, 24⟩ = ⟨13, 8, 0, 0⟩ := by decide

/-- The manual's worked counts. -/
theorem test_count_worked :
    Label.count .r30df ⟨1, 23, 45, 12⟩ = 150612 ∧ Label.count .r30df ⟨1, 23, 40, 0⟩ = 150450 ∧
    Label.count .r30df ⟨0, 1, 0, 2⟩ = 1800 ∧ Label.count .r60df ⟨23, 59, 59, 59⟩ = 5178815 := by decide

/-- The manual's worked due frames. -/
theorem test_due_frames :
    dueFrame .r30df 1000000 ⟨1, 23, 40, 0⟩ (some (.atLabel ⟨1, 23, 45, 12⟩)) = .ok (some 1000162) ∧
    dueFrame .r30df 1000000 ⟨1, 23, 40, 0⟩ (some (.atLabel ⟨1, 23, 40, 1⟩)) = .error .refusedLate ∧
    dueFrame .r30df 1000000 ⟨1, 23, 40, 0⟩ (some (.atLabel ⟨1, 24, 0, 1⟩)) = .error .refusedLabel ∧
    dueFrame .r25 500 ⟨23, 59, 59, 20⟩ (some (.atLabel ⟨0, 0, 0, 10⟩)) = .ok (some 515) ∧
    dueFrame .r25 4294967295 ⟨0, 0, 0, 0⟩ (some (.atFrame 1)) = .ok (some 1) := by decide +kernel

/-- The RTU in FLYWHEEL at 25, frame 7,207, with seven good pulses counted and the eighth expected now (A relock after flywheel). -/
def relocking (count : Nat) : State :=
  { live with rtu := { Rtu.reset with ref := .flywheel, good := 7, frame := 7207, now := 5000000, expected := some 5000000, count := count } }

/-- The relock below half the period makes no boundary, and at it makes one. -/
theorem test_pulse_relock :
    after (fun t => (t.rtu.ref, t.rtu.frame, t.rtu.count)) (.referencePulse 0 0) (relocking 300000) = some (.locked, 7207, 0) ∧
    after (fun t => (t.rtu.ref, t.rtu.frame, t.rtu.count)) (.referencePulse 0 0) (relocking 540000) = some (.locked, 7208, 0) := by
  decide +kernel

/-- The second empty window in LOCKED makes FLYWHEEL (R5). -/
theorem test_window_flywheel :
    after (fun t => (t.rtu.ref, t.rtu.good, t.rtu.missing, t.rtu.frame)) .referenceWindowClose
      { live with rtu := { Rtu.reset with ref := .locked, good := 8, missing := 1, expected := some 0 } } = some (.flywheel, 0, 2, 0) := by
  decide +kernel

/-- The boundary of frame 42,000's cue example: at 30DF the cue for 00:01:00;02 matches at 00:00:59;28 and is SPENT (A cue at a drop-frame
minute). -/
theorem test_boundary_cue :
    after (fun t => (t.rtu.frame, t.rtu.label, t.rtu.cues[3].state)) (.frameBoundary 0)
      { live with rtu := { Rtu.reset with
          rate := .r30df, frame := 41997, label := ⟨0, 0, 59, 27⟩
          cues := upd Rtu.reset.cues 3 ⟨⟨0, 1, 0, 2⟩, 15, .fire 5, .once, asker 1, .armed⟩ } } =
      some (41998, ⟨0, 0, 59, 28⟩, .spent) := by decide +kernel

/-- A jam label replaces the successor (A jam between two cues). -/
theorem test_boundary_jam :
    after (fun t => (t.rtu.label, t.rtu.jam)) (.frameBoundary 0)
      { live with rtu := { Rtu.reset with label := ⟨10, 0, 0, 5⟩, jam := some ⟨10, 0, 0, 12⟩ } } = some (⟨10, 0, 0, 12⟩, none) := by
  decide +kernel

/-! ### Registers and run states -/

/-- ANCHOR takes bits 21..0 in HALTED, and nothing in RUNNING. -/
theorem test_anchorWrite :
    after (fun t => t.csi.anchor) (.anchorWrite [] 0xFFC10000) State.reset = some 0x10000 ∧
    after (fun t => t.csi.anchor) (.anchorWrite [] 0x10000) live = some 0 := by decide +kernel

/-- A READY header of slot 3, with one order at 20000H. -/
def slotBytes : HostWrites := bytesAt 0x10070 [1, 1, 1, 0, 0, 0, 2, 0]

/-- POST of a READY slot queues it; of a FREE one raises BAD_POST. -/
theorem test_post :
    after (fun t => (t.csi.posts, storeRead t.store 0x10070, t.csi.notice)) (.post slotBytes 3) live = some ([⟨3, true, false, 0x20000, 1⟩], 2, 0) ∧
    after (fun t => (t.csi.posts, t.csi.notice)) (.post slotBytes 2) live = some ([], 2) := by decide +kernel

/-- WITHDRAW of a queued slot writes WITHDRAWN and DONE, and raises STRIP_DONE. -/
theorem test_withdraw :
    after (fun t => (t.csi.posts, storeRead t.store 0x10070, storeRead t.store 0x20018, t.csi.notice)) (.withdraw [] 3)
      { live with csi := { live.csi with posts := [⟨3, true, false, 0x20000, 1⟩] } } = some ([], 4, 0x20, 1) := by decide +kernel

/-- START on a block whose rate code is none of the seven raises BAD_ANCHOR and stays HALTED; the sound block passes the checks (R148). -/
theorem test_start :
    after (fun t => (t.runState, t.control.run, t.csi.notice)) (.start [] 0 0 false 3) (halted 7) = some (.halted, false, 4) ∧
    anchorChecks 0x10000 (anchorBlockAt (halted 1).store 0x10000) = true := by decide +kernel

/-- The worked change of rate: from 50 at 00:05:00:45 in LOCKED to 30DF, the label becomes 00:05:00;29 and the state FREE (Two rate changes). -/
theorem test_changeRate :
    let t := changeRate .r30df { halted 4 with rtu := { Rtu.reset with rate := .r50, ref := .locked, good := 8, frame := 90000, label := ⟨0, 5, 0, 45⟩, count := 100000 } }
    t.rtu.rate = .r30df ∧ t.rtu.ref = .free ∧ t.rtu.label = ⟨0, 5, 0, 29⟩ ∧ t.rtu.frame = 90000 ∧ t.rtu.count = 100000 := by decide +kernel

/-- RUN_CLEAR makes HALTED at once on a quiet engine, and HALTING with a take armed (R173, R174). -/
theorem test_runClear :
    after (fun t => (t.runState, t.control)) (.runClear [] false 5) live = some (.halted, ⟨false, false, 5⟩) ∧
    after (fun t => t.runState) (.runClear [] false 5)
      { live with xpe := { live.xpe with armed := [⟨⟨3, .v, .input 15⟩, asker 1, .take, none, 0⟩] } } = some .halting := by decide +kernel

/-- FREEZE_SET freezes at once and raises FROZEN; FREEZE_CLEAR makes the mirrors LIVE. -/
theorem test_freeze :
    after (fun t => (t.csi.mirror.freeze, t.csi.notice)) (.freezeSet [] 0) live = some (.frozen, 16) ∧
    after (fun t => (t.csi.mirror.freeze, t.csi.mirror.complete)) (.freezeClear [] 0)
      { live with control := ⟨true, true, 0⟩, csi := { live.csi with mirror := { Mirror.reset with freeze := .frozen, complete := false } } } =
      some (.live, true) := by decide +kernel

/-- FREEZE_SET during a rewrite drops the rewrite that waits (R167). -/
theorem test_freeze_drops_waiting :
    after (fun t => (t.csi.mirror.freeze, t.csi.mirror.waiting)) (.freezeSet [] 0)
      { live with csi := { live.csi with mirror := { Mirror.reset with writing := some 0x12000, waiting := some (5, ⟨0, 0, 0, 5⟩) } } } =
      some (.freezing, none) := by decide +kernel

/-- ENGINE_RESET halts. -/
theorem test_engineReset : after (fun t => (t.runState, t.control.run)) (.engineReset [] false 0) live = some (.halted, false) := by
  decide +kernel

/-- INTERFACE_RESTART sets the write index to the read index and leaves RUN. -/
theorem test_interfaceRestart :
    after (fun t => (t.csi.writeIndex, t.runState, t.control.run)) (.interfaceRestart [(0x1001C, 40)] 0) live = some (40, .running, true) := by
  decide +kernel

/-- NOTICE_ENABLE_WRITE, NOTICE_CLEAR and STATUS_WRITE. -/
theorem test_notice_registers :
    after (fun t => (t.control.mask, t.interrupt)) (.noticeEnableWrite [] 2) { live with csi := { live.csi with notice := 6 } } = some (2, true) ∧
    after (fun t => t.csi.notice) (.noticeClear [] 2) { live with csi := { live.csi with notice := 6 } } = some 4 ∧
    after (fun t => storeRead t.store 7) (.statusWrite [(7, 9)] 0xFFFFFFFF) live = some 9 := by decide +kernel

/-- ENTER_HALTED in HALTING with nothing left. -/
theorem test_enterHalted : after (fun t => t.runState) (.enterHalted 0 0) { live with runState := .halting, control := ⟨false, false, 0⟩ } = some .halted := by
  decide +kernel

/-- MIRROR_REWRITE_END writes the closing count. -/
theorem test_mirrorRewriteEnd :
    after (fun t => (t.csi.mirror.writing, storeRead32 t.store 0x1201C)) .mirrorRewriteEnd
      { live with csi := { live.csi with mirror := { Mirror.reset with writing := some 0x12000, count := 0x01020304 } } } =
      some (none, 0x01020304) := by decide +kernel

/-- A ring that fills: at W 39 with three reports lost and RI 100, a report is written behind a GAP (3) record. -/
theorem test_journal_gap :
    let s := report (.takeDone 2 7 .v .cancelled 0) 5 ⟨0, 0, 0, 5⟩ { live with store := [(0x1001C, 100)], csi := { live.csi with writeIndex := 39, gap := 3 } }
    s.csi.writeIndex = 41 ∧ s.csi.gap = 0 ∧ storeRead s.store (0x11000 + 16 * 39) = 11 ∧ storeRead16 s.store (0x11000 + 16 * 39 + 1) = 3 := by
  decide +kernel

/-! ### Strips and orders -/

/-- STRIP_START takes the head slot. -/
theorem test_stripStart :
    after (fun t => (t.csi.posts, t.csi.running.map fun r => r.slot.slot, storeRead t.store 0x10040)) .stripStart
      { live with csi := { live.csi with posts := [strip0.slot] } } = some ([], some 0, 3) := by decide +kernel

/-- ORDER_OF_UNKNOWN_KIND refuses kind 16H with REFUSED_KIND. -/
theorem test_unknown_kind : outcome .orderOfUnknownKind (atOrder (record 0x16 1 []) live) = some 0x10 := by decide +kernel

/-- TIME_SET, CUE_SET and CUE_CLEAR. -/
theorem test_rtu_orders :
    after (fun t => t.rtu.jam) .timeSet (atOrder (record 1 1 [10, 0, 0, 12]) live) = some (some ⟨10, 0, 0, 12⟩) ∧
    after (fun t => t.rtu.cues[3]) .cueSet (atOrder (record 2 1 [3, 15, 1, 5, 0, 0, 0, 0, 0, 1, 0, 2]) live) =
      some ⟨⟨0, 1, 0, 2⟩, 15, .fire 5, .once, asker 1, .armed⟩ ∧
    after (fun t => t.rtu.cues[3].state) .cueClear
      (atOrder (record 3 1 [3]) { live with rtu := { Rtu.reset with cues := upd Rtu.reset.cues 3 { Cue.reset with state := .spent } } }) =
      some .empty := by decide +kernel

/-- A skipped label is refused with REFUSED_LABEL under a drop-frame rate. -/
theorem test_timeSet_skipped :
    outcome .timeSet (atOrder (record 1 1 [0, 1, 0, 1]) { live with rtu := { Rtu.reset with rate := .r30df } }) = some 0x17 := by decide +kernel

/-- DEST_SET, SALVO_SET and STEP_SET. -/
theorem test_xpe_configuration :
    after (fun t => ((t.dest 5).kind, (t.dest 5).present, (t.dest 5).redGpi)) .destSet (atOrder (record 4 1 [5, 3, 4, 254, 2, 254]) live) =
      some (.keyed, 3, some 2) ∧
    after (fun t => t.xpe.salvos[3]) .salvoSet (atOrder (record 5 1 [3, 2, 0, 0, 0x40, 0, 2, 0]) live) = some (some ⟨0x20040, 2⟩) ∧
    after (fun t => t.xpe.steps[2]) .stepSet (atOrder (record 6 1 [2, 1, 21, 22, 23, 255]) live) =
      some { sources := #v[.input 21, .input 22, .input 23, .park], order := .interleaved } := by decide +kernel

/-- The queue of A take that breaks into a salvo: salvo 3 of APP 2 for frame 6,010. -/
def salvo3 : TakeUnit :=
  { due := some 6010, requester := asker 2, cause := .salvo, salvo := some 3
    entries := [⟨4, .v, .input 11⟩, ⟨4, .a, .input 11⟩, ⟨5, .v, .input 12⟩] }

/-- A take of destination 4 at V leaves the salvo its other two entries. -/
theorem test_take_supersedes :
    after (fun t => t.xpe.queue.map fun u => u.entries) .take
      (atOrder (record 7 1 [4, 1, 9, 0]) { live with xpe := { live.xpe with queue := [salvo3] } }) =
      some [[⟨4, .a, .input 11⟩, ⟨5, .v, .input 12⟩], [⟨4, .v, .input 9⟩]] := by decide +kernel

/-- A TAKE less than two frames ahead is refused with REFUSED_LATE. -/
theorem test_take_late :
    outcome .take (atOrder (record 7 1 [4, 1, 9, 1, 71]) { live with rtu := { Rtu.reset with frame := 70 } }) = some 0x16 := by decide +kernel

/-- CANCEL removes the entries of its levels, and its detail is their number. -/
theorem test_cancel :
    after (fun t => (t.xpe.queue.map fun u => u.entries, storeRead t.store 0x20018, storeRead t.store 0x20019)) .cancel
      (atOrder (record 8 1 [4, 7]) { live with xpe := { live.xpe with queue := [salvo3] } }) = some ([[⟨5, .v, .input 12⟩]], 1, 2) := by
  decide +kernel

/-- PROTECT sets the requester's protect; RELEASE by one it beats is refused. -/
theorem test_protect :
    after (fun t => (t.dest 6).protect) .protect (atOrder (record 9 1 [6]) live) = some (some ⟨2, .app 1⟩) ∧
    outcome .release (atOrder (record 10 2 [6]) (live.setDest 6 { Destination.reset with protect := some ⟨2, .app 1⟩ })) = some 0x14 := by
  decide +kernel

/-- SALVO_FIRE begins the read, and SALVO_READ_DONE queues the unit. -/
theorem test_salvoFire :
    after (fun t => (t.xpe.reading.map fun x => x.address, t.csi.running.map fun r => r.waiting)) .salvoFire
      (atOrder (record 11 1 [3]) (live.setSalvo 3 (some ⟨0x20040, 1⟩))) = some (some 0x20040, some (some 0)) := by decide +kernel

/-- A byte of the list written while the reader reads it: both its values are kept for the reader (R47). -/
theorem test_list_written_while_read :
    after (fun t => (t.lostSince 0 0x20040, storeRead t.store 0x20040)) (.statusWrite [(0x20040, 9)] 0)
      { live with
        store := hostWrite [] (bytesAt 0x20040 [4, 3, 11])
        xpe := { live.xpe with reading := some { request := ⟨3, none, asker 1, .salvo, .orphan⟩, address := 0x20040, count := 1, mark := 0 } } } =
      some ([4], 9) := by decide +kernel

/-- One list entry: destination 4, levels V and A, source 11. -/
theorem test_salvoReadDone :
    after (fun t => (t.xpe.queue.map fun u => (u.salvo, u.entries), t.xpe.reading)) .salvoReadDone
      { live with
        store := hostWrite [] (bytesAt 0x20040 [4, 3, 11])
        xpe := { live.xpe with reading := some { request := ⟨3, none, asker 1, .salvo, .orphan⟩, address := 0x20040, count := 1, mark := 0 } } } =
      some ([(some 3, [⟨4, .v, .input 11⟩, ⟨4, .a, .input 11⟩])], none) := by decide +kernel

/-- A panel that is ONLINE at level 1 with a station port, a SELECT key 3, a SOURCE key 4, a TALK key 20 and a TAKE key 5. -/
def panel0 : Panel :=
  { Panel.reset with
    enabled := true, state := .online, level := 1, station := some 0
    map := upd (upd (upd (upd Panel.reset.map 3 { KeyEntry.reset with fn := .select, arg := 8, mask := 1 })
      4 { KeyEntry.reset with fn := .source, arg := 12 }) 5 { KeyEntry.reset with fn := .take })
      20 { KeyEntry.reset with fn := .talk, arg := 12, mode := 2 } }

/-- RUNNING with that panel as panel 0. -/
def staffed : State := live.setPanel 0 panel0

/-- PANEL_SET to level 3 clears the protect the panel set at level 1 (A demotion worked through), and clamps the threshold. -/
theorem test_panelSet_demotion :
    after (fun t => ((t.dest 6).protect, (t.panel 0).level, (t.panel 0).threshold, storeRead t.store 0x20018)) .panelSet
      (atOrder (record 12 1 [0, 1, 3, 0, 0, 60]) (staffed.setDest 6 { Destination.reset with protect := some ⟨1, .panel 0⟩ })) =
      some (none, 3, 50, 2) := by decide +kernel

/-- KEYMAP_LOAD begins the read, and refuses an address outside the order window. -/
theorem test_keymapLoad :
    after (fun t => t.pnc.mapReads) .keymapLoad (atOrder (record 13 1 [0, 0, 0, 0, 0, 1, 2, 0]) live) = some [⟨0, 0x20100, true, 0⟩] ∧
    outcome .keymapLoad (atOrder (record 13 1 [0, 0, 0, 0, 0, 1, 3, 0]) live) = some 0x12 := by decide +kernel

/-- KEYMAP_READ_DONE loads the map: entry 0 is a SELECT of destination 8 at V. -/
theorem test_keymapReadDone :
    after (fun t => ((t.panel 0).map[0].action, (t.panel 0).full)) .keymapReadDone
      { staffed with store := hostWrite [] (bytesAt 0x20100 [2, 8, 0, 1]), pnc := { staffed.pnc with mapReads := [⟨0, 0x20100, false, 0⟩] } } =
      some (.select 8 1, true) := by decide +kernel

/-- LAMP_SET on a key that is no REPORT key is refused. -/
theorem test_lampSet :
    outcome .lampSet (atOrder (record 14 1 [0, 3, 2]) staffed) = some 0x11 ∧
    after (fun t => (t.panel 0).image[3]) .lampSet
      (atOrder (record 14 1 [0, 3, 2]) (live.setPanel 0 { panel0 with map := upd panel0.map 3 { KeyEntry.reset with fn := .report } })) =
      some .flash := by decide +kernel

/-- The level law at its limits (the manual's table). -/
theorem test_levelLaw :
    (coefficient 24 = 65535 ∧ coefficient 23 = 61724 ∧ coefficient 13 = 34710 ∧ coefficient 0 = 16384) ∧
    (coefficient (-1) = 15431 ∧ coefficient (-6) = 11572 ∧ coefficient (-12) = 8192 ∧ coefficient (-31) = 2731) ∧
    coefficient (-119) = 17 ∧ coefficient (-120) = 16 ∧ coefficient (-121) = 0 ∧ coefficient (-11) = 8678 := by decide +kernel

/-- PORT_SET clamps its level fields, and counts them. -/
theorem test_portSet :
    portSetArgs (record 15 1 [5, 1, 30, 0, 61, 1]) = some (5, { kind := .camera, outTrim := 24, inTrim := 0, dim := 60, enable := true, isolate := false }, 2) := by
  decide +kernel

/-- GROUP_SET refuses group 8, and IFB_SET a port that is not of kind IFB. -/
theorem test_talk_tables :
    outcome .groupSet (atOrder (record 16 1 [8]) live) = some 0x11 ∧
    outcome .ifbSet (atOrder (record 17 1 [1, 20, 0, 254, 254, 0, 255]) live) = some 0x11 := by decide +kernel

/-- TALK_FORCE on a key that is no TALK key is refused; OFF on an IDLE one is DONE. -/
theorem test_talkForce :
    outcome .talkForce (atOrder (record 18 1 [0, 3, 1]) staffed) = some 0x11 ∧
    outcome .talkForce (atOrder (record 18 1 [0, 20, 0]) staffed) = some 1 := by decide +kernel

/-- TALLY_SET, TALLY_FORCE and GPI_SET. -/
theorem test_tally_orders :
    after (fun t => t.tly.channels[21]) .tallySet (atOrder (record 19 1 [21, 254, 1, 0, 254, 1, 5]) live) =
      some ⟨none, 1, .single, none, .inverted, some 5, none⟩ ∧
    after (fun t => t.tly.channels[5].force) .tallyForce (atOrder (record 20 1 [5, 1, 3]) live) = some (some 3) ∧
    after (fun t => (t.tly.gpi[2].reports, t.csi.writeIndex)) .gpiSet (atOrder (record 21 1 [2, 1]) live) = some (true, 1) := by
  decide +kernel

/-! ### Links -/

/-- ARM_ACK, and the three waits of the fabric that run out. -/
theorem test_fabric_waits :
    after (fun t => t.xpe.ackWait) .armAck { live with xpe := { live.xpe with ackWait := true } } = some false ∧
    after (fun t => t.xpe.link) .armAckTimeout { live with xpe := { live.xpe with ackWait := true } } = some .down ∧
    after (fun t => t.xpe.link) .switchReportTimeout { live with xpe := { live.xpe with reportWait := some 9 } } = some .down ∧
    after (fun t => (t.xpe.link, t.xpe.sweep)) .readTimeout { live with xpe := { live.xpe with sweep := some (10, .b) } } =
      some (.down, none) := by decide +kernel

/-- SWITCH_REPORT applies the armed take of destination 3 at V. -/
theorem test_switchReport :
    after (fun t => ((t.dest 3).entryV, t.xpe.armed)) (.switchReport [⟨3, 0, false, 15⟩])
      { live with xpe := { live.xpe with reportWait := some 9, armed := [⟨⟨3, .v, .input 15⟩, asker 1, .take, none, 0⟩] } } =
      some (⟨.input 15, .known⟩, []) := by decide +kernel

/-- READ_ANSWER of A sweep after recovery: 3 V held 5 UNCERTAIN and the router answers 9. -/
theorem test_readAnswer :
    after (fun t => ((t.dest 3).entryV, t.xpe.sweep)) (.readAnswer 3 0 9)
      ({ live with xpe := { live.xpe with sweep := some (3, .v) } }.setDest 3 { Destination.reset with entryV := ⟨.input 5, .uncertain⟩ }) =
      some (⟨.input 9, .known⟩, some (3, .a)) := by decide +kernel

/-- PING_ANSWER brings the link UP and starts a sweep; PING_TIMEOUT ends the wait. -/
theorem test_ping :
    after (fun t => (t.xpe.link, t.xpe.sweep)) .pingAnswer { live with xpe := { live.xpe with link := .down, pingWait := true } } =
      some (.up, some (0, .v)) ∧
    after (fun t => t.xpe.pingWait) .pingTimeout { live with xpe := { live.xpe with link := .down, pingWait := true } } = some false := by
  decide +kernel

/-- Bytes of no message type change nothing on any of the links. -/
theorem test_ignored_messages :
    exec (.fabricMessageIgnored ⟨false, [0x77]⟩) live = .next live ∧ exec (.talkMessageIgnored ⟨false, [0x77]⟩) live = .next live ∧
    exec (.panelMessageIgnored 1 ⟨false, [0x77]⟩) live = .next live := ⟨rfl, rfl, rfl⟩

/-- That panel with a poll outstanding, with bit 0. -/
def polled : State := { staffed with pnc := { staffed.pnc with links := upd staffed.pnc.links 0 ⟨some (.poll 0 false false false []), 1⟩ } }

/-- A reply of panel 0 with one key event. -/
def key (k : Byte) (press : Bool) : Instr := .reply 0 { address := 1, echo := false, code := none, events := [⟨k, press⟩] }

/-- A press of the AUTO key in frame 500 makes it PENDING (An AUTO key at three speeds), and the reply toggles the bit. -/
theorem test_reply_talk :
    after (fun t => (t.keyState 0 20, (t.panel 0).bit)) (key 20 true) { polled with rtu := { Rtu.reset with frame := 500 } } =
      some (.pending 500, true) := by decide +kernel

/-- A press of SELECT selects its destination. -/
theorem test_reply_select : after (fun t => (t.panel 0).selection.dest) (key 3 true) polled = some (some (8, 1)) := by decide +kernel

/-- AUTO_LATCH_THRESHOLD: pressed at 700, HELD at 712 and not at 711. -/
theorem test_autoLatch :
    let s : State := { staffed with tke := { Tke.reset with latchDue := some (Vector.replicate 24 12), keys := upd Tke.reset.keys 0 (upd Tke.reset.keys[0] 20 (.pending 700)) } }
    after (fun t => t.keyState 0 20) .autoLatchThreshold { s with rtu := { Rtu.reset with frame := 712 } } = some .held ∧
    after (fun t => t.keyState 0 20) .autoLatchThreshold { s with rtu := { Rtu.reset with frame := 711 } } = some (.pending 700) := by
  decide +kernel

/-- A threshold written after the boundary does not count for it (R95): with 12 at the boundary and 50 now, HELD at 712. -/
theorem test_autoLatch_threshold_at_boundary :
    after (fun t => t.keyState 0 20) .autoLatchThreshold
      { live.setPanel 0 { panel0 with threshold := 50 } with
        rtu := { Rtu.reset with frame := 712 }
        tke := { Tke.reset with latchDue := some (Vector.replicate 24 12), keys := upd Tke.reset.keys 0 (upd Tke.reset.keys[0] 20 (.pending 700)) } } =
      some .held := by decide +kernel

/-- REFUSAL_FLASH_END derives the key's lamp again: the TAKE key with no preset is OFF. -/
theorem test_flashEnd :
    after (fun t => (t.panel 0).image[5]) .refusalFlashEnd
      { live with pnc := { (live.setPanel 0 { panel0 with image := upd panel0.image 5 .flash }).pnc with flashEnds := [(0, 5)] } } =
      some .off := by decide +kernel

/-- A SALVO key's refusal on a panel that has become LOST flashes in its image too, and its end derives that key's lamp alone (R141). -/
theorem test_flash_lost :
    let lost := live.setPanel 0 { panel0 with state := .lost, image := upd panel0.image 6 .on }
    let s := refuseKey 0 5 .refusedSalvo lost
    (s.panel 0).image[5] = .flash ∧ (s.panel 0).timers[5] = 16 ∧ (s.panel 0).lampSet = [5] ∧
    after (fun t => ((t.panel 0).image[5], (t.panel 0).image[6])) .refusalFlashEnd
      { lost with pnc := { (lost.setPanel 0 { lost.panel 0 with image := upd (lost.panel 0).image 5 .flash }).pnc with flashEnds := [(0, 5)] } } =
      some (.off, .on) := by decide +kernel

/-- A talk key of a panel whose station port is of kind IFB is OFF, whatever talks to that port; with a STATION port it FLASHES (R104). -/
theorem test_talkLamp_ifb_station :
    let s := fun kind : PortKind => ({ staffed with tke := { Tke.reset with
      ports := upd Tke.reset.ports 0 { Port.reset with kind := kind }, paths := [{ talker := 12, listener := 0, keys := [] }], talking := 0x1000, incoming := 1 } } : State)
    (s .ifb).lampOf 0 20 = .off ∧ (s .station).lampOf 0 20 = .flash := by decide +kernel

/-- POLL_WINDOW_CLOSE: the third miss makes the panel LOST. -/
theorem test_pollWindowClose :
    after (fun t => ((t.panel 0).state, (t.panel 0).missed)) (.pollWindowClose 0)
      { polled with pnc := { polled.pnc with panels := upd polled.pnc.panels 0 { panel0 with missed := 2 } } } = some (.lost, 3) := by
  decide +kernel

/-- A panel that becomes LOST holds its lamps back, and a reply that makes it ONLINE has its whole image sent (R127). -/
theorem test_panel_held :
    after (fun t => (t.panel 0).held) (.pollWindowClose 0)
      { polled with pnc := { polled.pnc with panels := upd polled.pnc.panels 0 { panel0 with missed := 2 } } } = some true ∧
    after (fun t => ((t.panel 0).state, (t.panel 0).held, (t.panel 0).full)) (.reply 0 { address := 1, echo := false, code := some 0, events := [] })
      { live with pnc := { (live.setPanel 0 { panel0 with state := .joining, held := true }).pnc with
          links := upd live.pnc.links 0 ⟨some (.poll 0 true false false []), 1⟩ } } = some (.online, false, true) := by decide +kernel

/-- PROBE_ANSWER makes an ABSENT panel JOINING; PROBE_TIMEOUT makes a WRONG_MODEL one LOST. -/
theorem test_probes :
    after (fun t => (t.panel 0).state) (.probeAnswer 0 1 7)
      { live with pnc := { (live.setPanel 0 { panel0 with state := .absent }).pnc with links := upd live.pnc.links 0 ⟨some (.probe 0 false), 0⟩ } } =
      some .joining ∧
    after (fun t => (t.panel 0).state) (.probeTimeout 0)
      { live with pnc := { (live.setPanel 0 { panel0 with state := .wrongModel }).pnc with links := upd live.pnc.links 0 ⟨some (.probe 0 true), 0⟩ } } =
      some .lost := by decide +kernel

/-- ACK takes the written entry off the queue and writes the next; the third REFUSE or timeout takes the link DOWN. -/
theorem test_talk_link :
    let e : TalkEntry := xptEntry 0 1 5
    let s : State := { live with tke := { Tke.reset with queue := [e, xptEntry 0 2 5], flight := some (.write e), fails := 2 } }
    after (fun t => (t.tke.queue, t.tke.flight, t.tke.fails)) .ack s = some ([xptEntry 0 2 5], some (.write (xptEntry 0 2 5)), 0) ∧
    after (fun t => (t.tke.link, t.tke.queue.length)) .refuse s = some (.down, 2) ∧
    after (fun t => (t.tke.link, t.tke.fails)) .talkWriteTimeout { s with tke := { s.tke with fails := 1 } } = some (.up, 2) := by decide +kernel

/-- A late ACK is ignored while a write is in flight (R115); a timely one is not. -/
theorem test_late_ack :
    let s : State := { live with tke := { Tke.reset with queue := [xptEntry 0 1 5], flight := some (.write (xptEntry 0 1 5)) } }
    after (fun t => t.tke.flight.isSome) (.talkMessageIgnored ⟨true, [0xA0]⟩) s = some true ∧
    after (fun t => t.tke.flight.isSome) (.talkMessageIgnored ⟨false, [0xA0]⟩) s = some false := by decide +kernel

/-- The lines of A called camera: channel 5 TRIPLE with call port 12 and channel 21 its INVERTED follower, in frames 4,102 and 4,104. -/
theorem test_called_camera :
    let c5 : Channel := ⟨some 5, 7, .triple, some 12, .upright, none, none⟩
    let tally := upd (Vector.replicate 128 (0 : ColourSet)) 5 2
    c5.lines tally 0x1000 4102 = 0b1010 ∧ c5.lines tally 0x1000 4104 = 0b0010 ∧ c5.lines tally 0 4102 = 0b0010 ∧
    drive .inverted (0b1010 : Lines) = 0b0101 := by decide +kernel

/-- POWER_ON_RESET leaves the engine HALTED with the fabric link DOWN and the talk link UP. -/
theorem test_powerOnReset :
    after (fun t => (t.runState, t.xpe.link, t.tke.link, t.rtu.ref)) .powerOnReset live = some (.halted, .down, .up, .free) := by decide +kernel

/-! ### Witnesses: for each statement with hypotheses, states and operands that meet them -/

/-- A strip's order of a kind, for APP 1. -/
def orderOf (kind : Nat) (args : List Byte) : OrderRecord := record (BitVec.ofNat 8 kind) 1 args

/-- The strip of `atOrder` is at that order. -/
theorem working_of {kind : Nat} {rec : OrderRecord} {s : State}
    (h : s.currentOrder = some (strip0, rec) ∧ orderKind rec = kind ∧ orderRequester rec = some (asker 1)) :
    s.working kind strip0 rec (asker 1) := h

/-! #### The queue and the invariants -/

/-- A busy machine: a queue, an armed set, a follower, an IFB record, talking, an ONLINE panel with a preset, a running strip and a posted one, a
saturated gap, FROZEN mirrors and a boundary waiting. -/
def busy : State :=
  { live with
    control := { run := true, freeze := true, mask := 31 }
    rtu := { Rtu.reset with rate := .r30df, label := ⟨0, 0, 59, 29⟩, jam := some ⟨0, 1, 0, 2⟩, ref := .locked, good := 8, missing := 1, expected := some 900900 }
    xpe := { live.xpe with queue := [salvo3], armed := [⟨⟨3, .v, .input 15⟩, asker 1, .take, none, 0⟩, ⟨⟨3, .a, .park⟩, asker 1, .take, none, 0⟩], reportWait := some 9 }
    tly := { Tly.reset with channels := upd Tly.reset.channels 21 { Channel.reset with master := some 5 } }
    tke := { Tke.reset with
      ports := upd Tke.reset.ports 20 { Port.reset with kind := .ifb, outTrim := 24, inTrim := -60, dim := 60 }
      ifbs := upd Tke.reset.ifbs 1 { Ifb.reset with port := some 20 }
      keys := upd Tke.reset.keys 0 (upd Tke.reset.keys[0] 20 .held)
      queue := [xptEntry 0 12 16384, feedEntry 1 Feed.silent] }
    pnc := { Pnc.reset with
      panels := upd Pnc.reset.panels 0 { panel0 with
        selection := ⟨some (8, 1), some (.input 12), true, none⟩, lampSet := [4, 5], missed := 2, timers := upd panel0.timers 5 16, image := upd panel0.image 5 .flash, threshold := 50 } }
    csi := { live.csi with
      posts := [{ strip0.slot with slot := 3 }], running := some strip0, gap := 65535, saturated := true
      mirror := { Mirror.reset with freeze := .frozen } }
    store := hostWrite [] (anchorBytes 3)
    pending := [.frameBoundary 4] }

theorem witness_StepRunsFrontOfQueue : live.pending = [] := rfl

theorem witness_CommandsKeepQueue : ∃ t, exec (.frameBoundary 4) busy = .next t := ⟨_, rfl⟩

theorem witness_StepKeepsStoreCanonical : busy.storeSound ∧ ∃ t, step busy = .next t := by
  refine ⟨?_, _, rfl⟩
  unfold State.storeSound
  decide +kernel

theorem witness_StepKeepsFrameTime : busy.labelsSound ∧ busy.monitorSound ∧ ∃ t, step busy = .next t := by
  refine ⟨⟨by decide +kernel, ?_⟩, ?_, _, rfl⟩
  · intro l h
    have : l = ⟨0, 1, 0, 2⟩ := (Option.some.inj h).symm
    subst this
    decide +kernel
  · unfold State.monitorSound
    decide +kernel

theorem witness_StepKeepsTakes : busy.queueSound ∧ busy.armedSound ∧ ∃ t, step busy = .next t := by
  refine ⟨?_, ?_, _, rfl⟩
  · unfold State.queueSound Crosspoint.differs
    decide +kernel
  · unfold State.armedSound Crosspoint.differs
    decide +kernel

theorem witness_StepKeepsFabricQuiet : busy.fabricSound ∧ ∃ t, step busy = .next t := by
  refine ⟨?_, _, rfl⟩
  unfold State.fabricSound
  decide +kernel

theorem witness_StepKeepsConfiguration : busy.mastersSound ∧ busy.ifbsSound ∧ busy.rangesSound ∧ ∃ t, step busy = .next t := by
  refine ⟨?_, ?_, ?_, _, rfl⟩
  · unfold State.mastersSound
    decide +kernel
  · unfold State.ifbsSound
    decide +kernel
  · unfold State.rangesSound
    decide +kernel

theorem witness_StepKeepsCoefficientQueue : busy.coefficientsSound ∧ ∃ t, step busy = .next t := by
  refine ⟨?_, _, rfl⟩
  unfold State.coefficientsSound
  decide +kernel

theorem witness_StepKeepsPanels : busy.panelsSound ∧ busy.lampsSound ∧ ∃ t, step busy = .next t := by
  refine ⟨?_, ?_, _, rfl⟩
  · unfold State.panelsSound
    decide +kernel
  · unfold State.lampsSound
    decide +kernel

theorem witness_StepKeepsInterface : busy.postsSound ∧ busy.gapSound ∧ busy.freezeSound ∧ ∃ t, step busy = .next t := by
  refine ⟨⟨by decide +kernel, ?_⟩, ?_, ?_, _, rfl⟩
  · intro r h
    have : r = strip0 := (Option.some.inj h).symm
    subst this
    decide +kernel
  · unfold State.gapSound
    decide +kernel
  · unfold State.freezeSound
    decide +kernel

/-! #### The whole machine -/

theorem witness_OnlyTheirCommandsMoveAnchorAndRate :
    (∃ t, exec (.anchorWrite [] 0x10000) State.reset = .next t ∧ t.csi.anchor ≠ State.reset.csi.anchor) ∧
    ∃ t, exec .powerOnReset busy = .next t ∧ t.rtu.rate ≠ busy.rtu.rate :=
  ⟨⟨_, rfl, by decide +kernel⟩, _, rfl, by decide +kernel⟩

theorem witness_HaltedHoldsTallies :
    (∃ t, exec (.frameBoundary 5) (halted 1) = .next t) ∧ (halted 1).runState = .halted ∧ (halted 1).fabricSound ∧
    Instr.frameBoundary 5 ≠ .powerOnReset ∧ ∀ pre e g f m, Instr.frameBoundary 5 ≠ .start pre e g f m := by
  refine ⟨⟨_, rfl⟩, rfl, ?_, by decide, ?_⟩
  · unfold State.fabricSound
    decide +kernel
  · intro pre e g f m h
    cases h

theorem witness_NothingWrittenBeforeFirstStart :
    ∃ t, exec (.anchorWrite [(7, 1)] 0x10000) State.reset = .next t ∧ t.csi.copy = none ∧ State.reset.csi.copy = none ∧
      State.reset.csi.posts = [] ∧ State.reset.csi.running = none ∧ State.reset.csi.mirror.writing = none :=
  ⟨_, rfl, rfl, rfl, rfl, rfl, rfl⟩

theorem witness_OnlyOutsideWritesStop :
    writesInside (Instr.statusWrite [(0, 1), (4194303, 1)] 0).pre = true ∧ writesInside (Instr.statusWrite [(0, 1), (4194304, 1)] 0).pre = false := by
  decide

/-! #### Frame time -/

/-- RUNNING at 30DF with cue 3 ARMED for the label two frames after the next one. -/
def cueing : State :=
  { live with rtu := { Rtu.reset with
      rate := .r30df, frame := 41997, label := ⟨0, 0, 59, 27⟩, cues := upd Rtu.reset.cues 3 ⟨⟨0, 1, 0, 2⟩, 15, .fire 5, .once, asker 1, .armed⟩ } }

theorem witness_BoundarySamplesAndServes : live.xpe.link = .up ∧ (halted 1).xpe.link = .down := by decide +kernel

theorem witness_BoundarySamplesAndServes_reports :
    let s := { live with tly := { Tly.reset with gpi := upd Tly.reset.gpi 15 ⟨false, true⟩ } };
    s.xpe.link = .up ∧ s.runState = .running ∧ (∀ n : Fin 16, s.rtu.cues[n].state ≠ .armed) ∧ s.tly.gpi[15].reports = true ∧
    (0x8000 : BitVec 16).getLsbD 15 ≠ s.tly.gpi[15].asserted ∧ (halted 1).runState = .halted := by decide +kernel

theorem witness_BoundaryComparesCues :
    let ahead := successor cueing.rtu.rate (successor cueing.rtu.rate (cueing.rtu.jam.getD (successor cueing.rtu.rate cueing.rtu.label)));
    let holds := fun n : Fin 16 => let c := cueing.rtu.cues[n]
      cueing.runState = .running ∧ c.state = .armed ∧ c.repeats = .once ∧ (c.enables.getLsbD 0 = true → c.label.hh = ahead.hh) ∧
      (c.enables.getLsbD 1 = true → c.label.mm = ahead.mm) ∧ (c.enables.getLsbD 2 = true → c.label.ss = ahead.ss) ∧
      (c.enables.getLsbD 3 = true → c.label.ff = ahead.ff)
    holds 3 ∧ ¬ holds 4 := by decide +kernel

/-- That cue with another action and repeat, and its salvo 5 defined or not. -/
def cueingFor (action : CueAction) (repeats : CueRepeat) (salvo : Option SalvoRecord) : State :=
  { cueing.setSalvo 5 salvo with rtu := { cueing.rtu with cues := upd cueing.rtu.cues 3 { cueing.rtu.cues[3] with action := action, repeats := repeats } } }

theorem witness_BoundaryComparesCues_requests :
    let alone := fun s : State => s.runState = .running ∧ s.rtu.cues[3].state = .armed ∧ (∀ m : Fin 16, m ≠ 3 → s.rtu.cues[m].state ≠ .armed) ∧
      s.xpe.link = .up ∧ (∀ i : Fin 16, s.tly.gpi[i].reports = false) ∧ s.xpe.reading = none ∧ s.xpe.fires = []
    (alone (cueingFor .report .every none) ∧ (cueingFor .report .every none).rtu.cues[3].action = .report) ∧
    (alone (cueingFor (.fire 5) .once none) ∧ (cueingFor (.fire 5) .once none).xpe.salvos[5] = none) ∧
    (let s := cueingFor (.fire 5) .every (some ⟨0x2FFF0, 1⟩);
      alone s ∧ s.xpe.salvos[5] = some ⟨0x2FFF0, 1⟩ ∧ s.csi.copy = some copy0 ∧ copy0.orders.base ≤ 0x2FFF0 ∧ 0x2FFF0 + 16 * 1 = copy0.orders.base + copy0.orders.size) ∧
    { cueing with xpe := { cueing.xpe with reading := some ⟨⟨3, none, asker 1, .salvo, .orphan⟩, 0x20040, 1, 0⟩ } }.xpe.reading ≠ none := by decide +kernel

/-- An RTU at 25, at instant 0 of the model, with a pulse expected at `e`. -/
def expecting (ref : RefState) (good e : Nat) : State := { live with rtu := { Rtu.reset with ref := ref, good := good, expected := some e } }

theorem witness_PulseMovesMonitor :
    (expecting .free 7 1080000).rtu.expected = some 1080000 ∧
    (let w := (expecting .free 7 1080000).rtu.rate.period / 16;
      (1080000 ≤ 1012500 + w ∧ 1012500 ≤ 1080000 + w) ∧ (1080000 ≤ 1147500 + w ∧ 1147500 ≤ 1080000 + w) ∧ 1012499 + w < 1080000 ∧
      1080000 + w < 1147501) ∧
    (∀ e, (expecting .free 7 1080000).rtu.expected = some e → 1012499 + (expecting .free 7 1080000).rtu.rate.period / 16 < e ∨
      e + (expecting .free 7 1080000).rtu.rate.period / 16 < 1012499) ∧
    (∀ e, State.reset.rtu.expected = some e → 0 < e) ∧ (expecting .locked 8 1080000).rtu.ref = .locked ∧ (expecting .free 7 1080000).rtu.ref ≠ .locked := by
  refine ⟨rfl, by decide +kernel, ?_, ?_, rfl, by decide +kernel⟩
  · intro e h
    have : e = 1080000 := (Option.some.inj h).symm
    subst this
    decide +kernel
  · intro e h
    cases h

theorem witness_PulseMovesMonitor_short :
    (expecting .flywheel 6 1080000).rtu.expected = some 1080000 ∧ (expecting .flywheel 6 1080000).rtu.ref ≠ .locked ∧
    (expecting .flywheel 6 1080000).rtu.good < 7 := by decide +kernel

theorem witness_GoodPulseAlignsFrame :
    (expecting .flywheel 7 500000).rtu.expected = some 500000 ∧ (expecting .flywheel 7 500000).rtu.ref ≠ .locked ∧ (expecting .flywheel 7 500000).rtu.good = 7 ∧
    (∀ elapsed : Fin 2, let at_ := 539999 + elapsed.1
      500000 ≤ at_ + (expecting .flywheel 7 500000).rtu.rate.period / 16 ∧ at_ ≤ 500000 + (expecting .flywheel 7 500000).rtu.rate.period / 16) ∧
    (expecting .locked 8 1000000).rtu.ref = .locked ∧ (∀ elapsed : Fin 2, let at_ := 999999 + elapsed.1
      1000000 ≤ at_ + (expecting .locked 8 1000000).rtu.rate.period / 16 ∧ at_ ≤ 1000000 + (expecting .locked 8 1000000).rtu.rate.period / 16 ∧
      (expecting .locked 8 1000000).rtu.count + at_ < (expecting .locked 8 1000000).rtu.rate.period) := by decide +kernel

theorem witness_EmptyWindowCounts : State.reset.rtu.expected = none ∧ (expecting .locked 8 0).rtu.expected = some 0 := by decide +kernel

theorem witness_EmptyWindowCounts_reports :
    (let s := { live with rtu := { Rtu.reset with ref := .locked, good := 8, missing := 1, expected := some 0 } };
      s.rtu.expected = some 0 ∧ s.rtu.ref = .locked ∧ 1 ≤ s.rtu.missing) ∧
    ¬ ((expecting .flywheel 3 0).rtu.ref = .locked ∧ 1 ≤ (expecting .flywheel 3 0).rtu.missing) := by decide +kernel

theorem witness_LabelCounts :
    (Label.wellFormed .r30df ⟨0, 1, 0, 2⟩ = true ∧ Label.skipped .r30df ⟨0, 1, 0, 2⟩ = false ∧ Rate.r30df.drop ≠ 0) ∧
    (Label.wellFormed .r25 ⟨13, 7, 59, 24⟩ = true ∧ Label.skipped .r25 ⟨13, 7, 59, 24⟩ = false ∧ Rate.r25.drop = 0) ∧
    Label.wellFormed .r60df ⟨23, 59, 59, Rate.r60df.base - 1⟩ = true ∧ Label.skipped .r60df ⟨23, 59, 59, Rate.r60df.base - 1⟩ = false := by decide

theorem witness_DueLabelIsReached :
    Label.wellFormed .r30df ⟨1, 23, 40, 0⟩ = true ∧ Label.skipped .r30df ⟨1, 23, 40, 0⟩ = false ∧
    dueFrame .r30df 1000000 ⟨1, 23, 40, 0⟩ (some (.atLabel ⟨1, 23, 45, 12⟩)) = .ok (some 1000162) := by decide +kernel

/-- A PENDING key pressed in frame 700 and one HELD, with the examination of the boundary due. -/
def examining : State :=
  { staffed with tke := { Tke.reset with latchDue := some (Vector.replicate 24 12), keys := upd Tke.reset.keys 0 (upd (upd Tke.reset.keys[0] 20 (.pending 700)) 21 .held) } }

theorem witness_ThresholdsAndFlashes :
    examining.tke.latchDue = some (Vector.replicate 24 12) ∧ examining.keyState 0 20 = .pending 700 ∧ (∀ f, examining.keyState 0 21 ≠ .pending f) ∧
    staffed.tke.latchDue = none ∧ (staffed.xpe.reading = none → staffed.xpe.fires = []) ∧
    (let s := { staffed with pnc := { staffed.pnc with flashEnds := [(0, 5)] } };
      (0, 5) ∈ s.pnc.flashEnds ∧ (s.panel 0).state = .online ∧ (∀ k : Fin 48, (1, k) ∉ s.pnc.flashEnds) ∧ (s.panel 1).state ≠ .online) := by
  refine ⟨rfl, by decide +kernel, ?_, rfl, fun _ => rfl, by decide +kernel⟩
  intro f h
  have : examining.keyState 0 21 = .held := by decide +kernel
  rw [this] at h
  cases h

theorem witness_ThresholdsAndFlashes_lost :
    let s := live.setPanel 0 { panel0 with state := .lost };
    let t := { s with pnc := { s.pnc with flashEnds := [(0, 5)] } };
    (t.panel 0).state ≠ .online ∧ (0, 5) ∈ t.pnc.flashEnds ∧ (0, 6) ∉ t.pnc.flashEnds := by decide +kernel

/-- Panel 0 with a selection and a key 6 of a function; source 12 is current at destination 8, and red or not. -/
def lamping (sel : Selection) (fn : KeyFunction) (red : Bool) : State :=
  let s := (live.setPanel 0 { panel0 with selection := sel, map := upd panel0.map 6 { KeyEntry.reset with fn := fn, arg := 2 } }).setDest 8
    { Destination.reset with entryV := ⟨.input 12, .known⟩, protect := some ⟨1, .panel 0⟩ }
  { s with
    xpe := { s.xpe with armed := [⟨⟨3, .v, .park⟩, asker 1, .salvo, some 2, 0⟩] }
    tly := { Tly.reset with tally := upd Tly.reset.tally 12 (if red then 1 else 0) } }

theorem witness_ThresholdsAndFlashes_lamps :
    let on : Selection := ⟨some (8, 1), some (.input 7), true, some ⟨2, 1, 0⟩⟩;
    let off : Selection := ⟨none, none, false, none⟩;
    let s := lamping on .source true;
    (0 < ({ panel0 with timers := upd panel0.timers 6 16 } : Panel).timers[6] ∧ (s.panel 0).timers[6] = 0) ∧
    (s.keyAction 0 7 = .none ∧ s.keyAction 0 3 = .select 8 1 ∧ s.keyAction 0 4 = .source (.input 12) ∧ s.keyAction 0 6 = .source (.input 2) ∧
      s.keyAction 0 5 = .take ∧ s.keyAction 0 20 = .talk (.port 12) .auto 0) ∧
    (s.tly.tally[12].getLsbD 0 = true ∧ (lamping on .source false).tly.tally[12].getLsbD 0 = false ∧ (s.panel 0).selection.preset ≠ some (.input 12) ∧
      (s.panel 0).selection.dest = some (8, 1) ∧ ((1 : LevelMask) &&& (s.dest 8).present).getLsbD 0 = true ∧ ((s.dest 8).entry .v).state ≠ .unknown ∧
      ((s.dest 8).entry .v).source = .input 12) ∧
    (((lamping off .step false).panel 0).selection.dest = none ∧ (lamping off .step false).keyAction 0 6 = .step 2) ∧
    (lamping on .salvo false).keyAction 0 6 = .salvo 2 ∧ (∃ a ∈ s.xpe.armed, a.salvo = some 2) ∧
    ((lamping on .protect false).keyAction 0 6 = .protect ∧ (s.dest 8).protect = some ⟨1, .panel 0⟩) ∧
    (lamping on .report false).keyAction 0 6 = .report .off := by decide +kernel

theorem witness_ThresholdsAndFlashes_talk :
    let s := fun state : KeyState => ({ staffed with tke := { Tke.reset with
      keys := upd Tke.reset.keys 0 (upd Tke.reset.keys[0] 20 state), paths := [{ talker := 12, listener := 0, keys := [] }] } } : State);
    (s .idle).usableStation 0 = true ∧ ((s .idle).panel 0).station = some 0 ∧ ((s .idle).targetSet (.port 12)).getLsbD 12 = true ∧
    ((s .idle).keyState 0 20).active = false ∧ ((s .held).keyState 0 20).active = true := by decide +kernel

/-! #### Registers -/

theorem witness_RegisterWrites :
    writesInside [(4194303, 1)] = true ∧ (halted 1).runState = .halted ∧ live.runState ≠ .halted := by decide +kernel

theorem witness_RegisterWrites_read : busy.interrupt = false ∧ busy.tke.queue.length ≤ 1032 := by decide +kernel

theorem witness_PostTakesReadySlot :
    let good := fun slot : Fin 8 =>
      let m := hostWrite live.store slotBytes;
      let h := 0x10000 + 0x40 + 16 * slot.1;
      (live.runState = .sweep ∨ live.runState = .running) ∧ (∀ p ∈ live.csi.posts, p.slot ≠ slot) ∧ storeRead m h = 1 ∧ 1 ≤ storeRead16 m (h + 2) ∧
      storeRead16 m (h + 2) ≤ 256 ∧ storeRead32 m (h + 4) % 32 = 0 ∧ 0x20000 ≤ storeRead32 m (h + 4) ∧
      storeRead32 m (h + 4) + 32 * storeRead16 m (h + 2) ≤ 0x20000 + 0x10000
    writesInside slotBytes = true ∧ live.csi.copy = some copy0 ∧ good 3 ∧ ¬ good 2 ∧ ∀ r, live.csi.running = some r → r.slot.slot ≠ 3 := by
  refine ⟨by decide +kernel, rfl, by decide +kernel, by decide +kernel, ?_⟩
  intro r h
  cases h

theorem witness_WithdrawBySlot :
    writesInside [] = true ∧ (∃ p ∈ busy.csi.posts, p.slot = 3) ∧ ((∀ p ∈ busy.csi.posts, p.slot ≠ 0) ∧ busy.csi.running = some strip0 ∧ strip0.slot.slot = 0) ∧
    (∀ p ∈ live.csi.posts, p.slot ≠ 0) ∧ ∀ r, live.csi.running = some r → r.slot.slot ≠ 0 := by
  refine ⟨rfl, by decide +kernel, ⟨by decide +kernel, rfl, rfl⟩, by decide +kernel, ?_⟩
  intro r h
  cases h

theorem witness_WithdrawBySlot_written :
    let p : Posted := { strip0.slot with slot := 3 };
    let h := copy0.address + 0x40 + 16 * p.slot.1;
    p ∈ busy.csi.posts ∧ p.slot = 3 ∧ busy.csi.copy = some copy0 ∧ busy.store.wf = true ∧ p.address + 32 * p.count ≤ 4194304 ∧ h + 16 ≤ 4194304 ∧
    h + 16 ≤ p.address := by decide +kernel

theorem witness_BadAnchorStopsStart :
    writesInside [] = true ∧ (halted 7).runState = .halted ∧ (halted 7).control.run = false ∧
    anchorChecks (halted 7).csi.anchor.toNat (anchorBlockAt (hostWrite (halted 7).store []) (halted 7).csi.anchor.toNat) = false := by decide +kernel

/-- HALTED with a sound block, an earlier anchor copy, and panel 0 ONLINE. -/
def restarting (c : AnchorCopy) : State := { (halted 1).setPanel 0 panel0 with csi := { (halted 1).csi with copy := some c } }

theorem witness_StartEntersSweep :
    writesInside [] = true ∧ (halted 1).runState = .halted ∧ (halted 1).control.run = false ∧ (halted 1).csi.copy = none ∧
    anchorChecks (halted 1).csi.anchor.toNat (anchorBlockAt (hostWrite (halted 1).store []) (halted 1).csi.anchor.toNat) = true ∧
    rateOf (anchorBlockAt (hostWrite (halted 1).store []) (halted 1).csi.anchor.toNat).rateCode = some (halted 1).rtu.rate ∧
    (let b := anchorBlockAt (restarting copy0).store 0x10000;
      (restarting copy0).csi.copy = some copy0 ∧ copy0.address = (restarting copy0).csi.anchor.toNat ∧ copy0.orders = b.orders ∧ copy0.reports = b.reports ∧
      (restarting { copy0 with address := 64 }).csi.copy = some { copy0 with address := 64 } ∧ 64 ≠ (restarting copy0).csi.anchor.toNat) ∧
    ((restarting copy0).panel 0).enabled = true ∧ ((restarting copy0).panel 0).state = .online ∧ ((restarting copy0).panel 1).enabled = false := by decide +kernel

/-- HALTED with a sound block for 30DF, and a scaler count. -/
def changing (count : Nat) : State := { halted 3 with rtu := { Rtu.reset with count := count }, xpe := { Xpe.reset with link := .up } }

theorem witness_StartEntersSweep_rate :
    let ready := fun s : State => s.runState = .halted ∧ s.control.run = false ∧
      anchorChecks s.csi.anchor.toNat (anchorBlockAt (hostWrite s.store []) s.csi.anchor.toNat) = true ∧
      rateOf (anchorBlockAt (hostWrite s.store []) s.csi.anchor.toNat).rateCode = some .r30df ∧ Rate.r30df ≠ s.rtu.rate ∧ s.xpe.link = .up
    ready (changing 0) ∧ ¬ Rate.r30df.period ≤ (changing 0).rtu.count + 0 ∧ ready (changing Rate.r30df.period) ∧
    Rate.r30df.period ≤ (changing Rate.r30df.period).rtu.count + 0 := by decide +kernel

theorem witness_StartEntersSweep_reports :
    let s := { (changing 0).setPanel 7 { panel0 with state := .wrongModel } with rtu := { Rtu.reset with ref := .locked } };
    s.runState = .halted ∧ s.control.run = false ∧ anchorChecks s.csi.anchor.toNat (anchorBlockAt (hostWrite s.store []) s.csi.anchor.toNat) = true ∧
    rateOf (anchorBlockAt (hostWrite s.store []) s.csi.anchor.toNat).rateCode = some .r30df ∧ Rate.r30df ≠ s.rtu.rate ∧ s.rtu.ref ≠ .free ∧
    (s.panel 7).enabled = true ∧ (s.panel 7).state = .wrongModel := by decide +kernel

theorem witness_RunClearHalts :
    writesInside [] = true ∧ live.runState = .running ∧ live.runState ≠ .halted ∧ (∃ (p : Fin 24) (k : Fin 48), busy.keyState p k ≠ .idle) ∧
    busy.runState = .running ∧ (halted 1).runState = .halted :=
  ⟨rfl, rfl, by decide +kernel, ⟨0, 20, by decide +kernel⟩, rfl, rfl⟩

/-- A rewrite in progress, with the mirrors in a freeze state and a later resolution waiting. -/
def rewriting (f : FreezeState) (waiting : Option (FrameIndex × Label)) : State :=
  { live with csi := { live.csi with mirror := { Mirror.reset with writing := some 0x12000, waiting := waiting, freeze := f } } }

theorem witness_FreezeStopsMirrors :
    writesInside [] = true ∧ (live.control.freeze = false ∧ live.csi.mirror.freeze = .live ∧ live.csi.mirror.writing = none) ∧
    ((rewriting .live none).control.freeze = false ∧ (rewriting .live none).csi.mirror.freeze = .live ∧ (rewriting .live none).csi.mirror.writing ≠ none) ∧
    busy.control.freeze = true ∧ ((rewriting .freezing none).csi.mirror.writing = some 0x12000 ∧ (rewriting .freezing none).csi.mirror.freeze = .freezing) ∧
    (rewriting .live none).csi.mirror.waiting = none ∧ (rewriting .live (some (5, ⟨0, 0, 0, 5⟩))).csi.mirror.waiting = some (5, ⟨0, 0, 0, 5⟩) ∧
    (rewriting .live (some (5, ⟨0, 0, 0, 5⟩))).csi.copy = some copy0 := by decide +kernel

/-- That rewrite with the next one complete or not, and every entry as it was last written. -/
def rewritten (complete : Bool) : State :=
  let s := rewriting .live (some (5, ⟨0, 0, 0, 5⟩))
  { s with csi := { s.csi with mirror := { s.csi.mirror with complete := complete, written := mirrorEntries (fun _ => 0) s } } }

theorem witness_FreezeStopsMirrors_entries :
    (rewritten false).csi.mirror.written = mirrorEntries (fun _ => 0) (rewritten false) ∧ (rewritten false).csi.mirror.complete = false ∧
    (rewritten true).csi.mirror.complete = true ∧ (rewritten true).csi.mirror.writing = some 0x12000 ∧
    (rewritten true).csi.mirror.waiting = some (5, ⟨0, 0, 0, 5⟩) ∧ (rewritten true).store.wf = true ∧ copy0.mirror + 3008 ≤ 4194304 :=
  ⟨rfl, rfl, rfl, rfl, rfl, rfl, by decide⟩

/-- A machine whose mirror tables are all zeros, as a blank store shows them, with colours of source 5 as given. -/
def dark (colours : ColourSet) : State :=
  let d : Destination := { Destination.reset with
    present := 0, entryV := ⟨.input 0, .unknown⟩, entryA := ⟨.input 0, .unknown⟩, entryB := ⟨.input 0, .unknown⟩, protect := some ⟨0, .panel 0⟩ }
  { live with
    xpe := { live.xpe with link := .down, dests := Vector.replicate 64 d }
    tly := { Tly.reset with tally := upd Tly.reset.tally 5 colours, channels := Vector.replicate 64 { Channel.reset with force := some 0 } }
    tke := { Tke.reset with ports := Vector.replicate 32 { Port.reset with enable := false } }
    pnc := { Pnc.reset with panels := Vector.replicate 24 { Panel.reset with level := 0, station := some 0, threshold := 0 } } }

/-- A later state of it, whose previous rewrite left that picture. -/
def redrawn (writing : Option Nat) (waiting : Option (FrameIndex × Label)) : State :=
  { dark 1 with csi := { live.csi with mirror :=
    { Mirror.reset with complete := false, writing := writing, waiting := waiting, written := mirrorEntries (fun _ => 0) (dark 0) } } }

theorem witness_FreezeStopsMirrors_partial :
    (dark 0).mirrorsShowTallies [] copy0.mirror ∧ (dark 0).mirrorsShowPanels [] copy0.mirror ∧
    (∀ writing waiting, (redrawn writing waiting).csi.mirror.written = mirrorEntries (fun _ => 0) (dark 0) ∧ (redrawn writing waiting).store = [] ∧
      (redrawn writing waiting).csi.mirror.complete = false ∧ (redrawn writing waiting).csi.copy = some copy0 ∧
      (redrawn writing waiting).tly.tally[5] ≠ (dark 0).tly.tally[5] ∧ (redrawn writing waiting).tly.tally[6] = (dark 0).tly.tally[6]) ∧
    storeWrites [] (0x12000 + 0x1C) [0, 0, 0, 0] = [] ∧ (redrawn none none).xpe.link = .down ∧ (redrawn none none).xpe.fires = [] ∧
    copy0.journal + 4096 ≤ copy0.mirror ∧ copy0.address + 192 ≤ copy0.mirror := by
  have h5 : (dark 1).tly.tally[5] ≠ (dark 0).tly.tally[5] ∧ (dark 1).tly.tally[6] = (dark 0).tly.tally[6] := by decide +kernel
  refine ⟨⟨?_, by decide +kernel, ?_⟩, by unfold State.mirrorsShowPanels; decide +kernel, fun _ _ => ⟨rfl, rfl, rfl, rfl, h5⟩, by decide +kernel⟩
  · have h : ∀ d : Fin 64, (dark 0).dest d = (dark 0).dest 0 := by decide +kernel
    intro d
    rw [h d]
    refine ⟨fun l => by cases l <;> exact ⟨rfl, rfl⟩, rfl, rfl, ?_, ?_, rfl⟩
    · intro x
      cases x
    · intro p x
      cases x
      exact ⟨rfl, rfl⟩
  · have h : ∀ c : Fin 64, (dark 0).tly.outputs[c] = 0 ∧ (dark 0).tly.channels[c].force = some 0 := by decide +kernel
    intro c
    rw [(h c).1, (h c).2]
    exact ⟨rfl, rfl⟩

theorem witness_FreezeStopsMirrors_resolution :
    let s := fun (f : FreezeState) (writing : Option Nat) (complete : Bool) => ({ live with xpe := { live.xpe with link := .down }, csi := { live.csi with
      mirror := { Mirror.reset with freeze := f, writing := writing, complete := complete } } } : State);
    (∀ f ∈ [FreezeState.live, .frozen], (s f none true).xpe.link = .down ∧ (s f none true).runState ≠ .halted ∧ (s f none true).csi.mirror.freeze = f) ∧
    (s .live none true).csi.copy = some copy0 ∧ (s .live none true).csi.mirror.writing = none ∧ (s .live none true).csi.mirror.complete = true ∧
    (s .live (some 0x12000) false).csi.mirror.writing = some 0x12000 ∧ (s .live none true).store.wf = true ∧ copy0.mirror + 3008 ≤ 4194304 ∧
    { live with csi := Csi.reset }.csi.copy = none := by decide +kernel

theorem witness_EngineResetEmptiesQueues : writesInside [(0x1001C, 40)] = true := by decide

theorem witness_EngineResetEmptiesQueues_journal :
    (halted 1).csi.copy = none ∧ busy.csi.copy = some copy0 ∧ busy.store.wf = true ∧ copy0.address + 192 ≤ 4194304 ∧
    (busy.xpe.queue.flatMap fun q => q.entries) ≠ [] := by decide +kernel

theorem witness_InterfaceRestartIsCsiAlone :
    writesInside [(0x1001C, 40)] = true ∧ live.csi.copy = some copy0 ∧ live.store.wf = true ∧ copy0.address + 192 ≤ 4194304 ∧ State.reset.csi.copy = none ∧
    live.runState ≠ .halting ∧ live.xpe.reading = none ∧
    (let x : SalvoRead := ⟨⟨3, none, asker 1, .salvo, .order⟩, 0x20040, 1, 0⟩;
      { live with xpe := { live.xpe with reading := some x } }.xpe.reading = some x) := by decide +kernel

/-- HALTING with nothing left to end. -/
def halting (run : Bool) : State := { live with runState := .halting, control := { run := run, freeze := false, mask := 0 } }

theorem witness_HaltedEnteredWhenQuiet :
    let quiet := fun s : State => s.runState = .halting ∧ s.csi.running = none ∧ s.xpe.armed = [] ∧ (s.tke.queue = [] ∨ s.tke.link = .down);
    (quiet (halting false) ∧ (halting false).control.run = false) ∧ (quiet (halting true) ∧ (halting true).control.run = true) ∧ ¬ quiet busy := by
  decide +kernel

theorem witness_HaltedEnteredWhenQuiet_examined :
    ((halting false).haltsNow ∧ (halting false).control.run = false) ∧ ((halting true).haltsNow ∧ (halting true).control.run = true) ∧ ¬ busy.haltsNow ∧
    (halting true).rtu.count < (halting true).rtu.rate.period := by
  unfold State.haltsNow
  decide +kernel

/-! #### Strips and orders -/

theorem witness_StripStarts :
    (let s : State := { live with csi := { live.csi with posts := [strip0.slot] } };
      s.csi.posts = [strip0.slot] ∧ s.csi.running = none ∧ s.runState = .running ∧ strip0.slot.salvo = false ∧ s.csi.copy = some copy0) ∧
    live.csi.posts = [] := by decide +kernel

/-- A posted SALVO strip of two takes, 4 V A from 11 and 5 V from 12. -/
def salvoStrip0 : State :=
  { live with
    store := hostWrite [] (bytesAt 0x20000 (orderOf 7 [4, 3, 11] ++ orderOf 7 [5, 1, 12]))
    csi := { live.csi with posts := [{ strip0.slot with salvo := true }] } }

/-- A SALVO strip of two orders as they stand. -/
def salvoStripOf (orders : List Byte) : State := { salvoStrip0 with store := hostWrite [] (bytesAt 0x20000 orders) }

/-- Its order records when it starts. -/
def salvoRecords (s : State) : List OrderRecord :=
  stripRecords (storeWrites (storeWrites s.store 0x10040 [3]) 0x10048 [0, 0, 0, 0]) { strip0.slot with salvo := true }

theorem witness_SalvoStripQueuesOneUnit :
    let p : Posted := { strip0.slot with salvo := true };
    let rs := salvoRecords salvoStrip0;
    let list := rs.map fun r => ({ dest := ob r 4, mask := ob r 5, source := ob r 6 } : RawTake);
    let first := rs.headD [];
    salvoStrip0.csi.posts = [p] ∧ salvoStrip0.csi.running = none ∧ salvoStrip0.runState = .running ∧ p.salvo = true ∧ 1 ≤ p.count ∧ p.count ≤ 48 ∧
    salvoStrip0.csi.copy = some copy0 ∧ (∀ r ∈ rs, ob r 0 = 7 ∧ ob r 1 = (1 : Fin 16).1 ∧ ob r 2 = (2 : Fin 4).1) ∧
    salvoStrip0.isSalvo list ∧ salvoStrip0.salvoTakes list = salvo3.entries ∧ (∀ r ∈ rs, ob r 7 = ob first 7 ∧ ob r 7 = 0) ∧
    salvoStrip0.dueFixed first none ∧ (∀ x ∈ salvo3.entries, salvoStrip0.lets x.dest ⟨.app 1, 2⟩) ∧
    entriesIn (salvoStrip0.queueWith { due := none, requester := ⟨.app 1, 2⟩, cause := .salvo, salvo := none, entries := salvo3.entries }) ≤ 64 := by
  refine ⟨rfl, rfl, rfl, rfl, by decide, by decide, rfl, by decide +kernel, by unfold State.isSalvo Crosspoint.differs; decide +kernel, by decide +kernel,
    by decide +kernel, (dueFrame_terms salvoStrip0 _).1 none |>.mp (by decide +kernel), ?_, by decide +kernel⟩
  have h : ∀ x ∈ salvo3.entries, (salvoStrip0.dest x.dest).protect = none := by decide +kernel
  exact fun x hx => Or.inl (h x hx)

/-- A full queue: 64 entries for the first 64 destinations at B. -/
def fullQueue : List TakeUnit :=
  [{ due := none, requester := asker 2, cause := .salvo, salvo := none, entries := (List.finRange 64).map fun d => ⟨d, .b, .park⟩ }]

theorem witness_SalvoStripQueuesOneUnit_refused :
    let take := fun args => orderOf 7 args;
    let first := fun s => (salvoRecords s).headD [];
    let sound := fun s => ∀ r ∈ salvoRecords s, ob r 0 = 7 ∧ ob r 1 = ob (first s) 1 ∧ ob r 2 = ob (first s) 2;
    let list := fun s => (salvoRecords s).map fun r => ({ dest := ob r 4, mask := ob r 5, source := ob r 6 } : RawTake);
    let late := salvoStripOf (take [4, 3, 11, 1] ++ take [5, 1, 12, 1]);
    let mixed := salvoStripOf (take [4, 3, 11] ++ take [5, 1, 12, 1, 9]);
    (salvoStrip0.store.wf = true ∧ 0x10040 + 16 ≤ strip0.slot.address) ∧ ¬ sound (salvoStripOf (take [4, 3, 11] ++ orderOf 8 [5, 1])) ∧
    (let s := salvoStripOf (record 7 16 [4, 3, 11] ++ record 7 16 [5, 1, 12]);
      sound s ∧ 16 ≤ ob (first s) 1) ∧
    (∀ again ∈ [[4, 1, 12], [64, 1, 12], [5, 0, 12], [5, 8, 12], [5, 1, 128]], let s := salvoStripOf (take [4, 3, 11] ++ take again);
      sound s ∧ ob (first s) 1 = 1 ∧ ob (first s) 2 = 2 ∧ ¬ s.isSalvo (list s)) ∧
    (sound mixed ∧ mixed.isSalvo (list mixed) ∧ ∃ r ∈ salvoRecords mixed, ob r 7 ≠ ob (first mixed) 7) ∧
    (sound late ∧ late.isSalvo (list late) ∧ (∀ r ∈ salvoRecords late, ob r 7 = ob (first late) 7 ∧ ob32 r 8 = ob32 (first late) 8)) ∧
    late.dueRefused (first late) .refusedLate := by
  refine ⟨by decide +kernel, by decide +kernel, by decide +kernel, ?_, ?_, ?_, (dueFrame_terms _ _).2 _ |>.mp (by decide +kernel)⟩
  all_goals
    unfold State.isSalvo Crosspoint.differs
    decide +kernel

theorem witness_SalvoStripQueuesOneUnit_stopped :
    let u : TakeUnit := { due := none, requester := asker 1, cause := .salvo, salvo := none, entries := salvo3.entries };
    64 < entriesIn (State.queueWith { salvoStrip0 with xpe := { salvoStrip0.xpe with queue := fullQueue } } u) ∧
    (let s := salvoStrip0.setDest 5 { Destination.reset with protect := some ⟨1, .panel 3⟩ };
      ¬ s.lets 5 (asker 1)) :=
  ⟨by decide +kernel, fun h => absurd ((lets_iff _ _ _).mp h) (by decide +kernel)⟩

theorem witness_OrderKindsAndRequesters :
    (∀ k ∈ [(0 : Byte), 1, 0x15, 0x16], (atOrder (record k 1 []) live).currentOrder = some (strip0, record k 1 [])) ∧
    ob (record 0 1 []) 0 = 0 ∧ 0x15 < ob (record 0x16 1 []) 0 ∧ ob (record 1 1 []) 0 = 1 ∧ ob (record 0x15 1 []) 0 = 21 ∧
    (atOrder (record 7 16 []) live).currentOrder = some (strip0, record 7 16 []) ∧ 16 ≤ ob (record 7 16 []) 1 := by decide +kernel

theorem witness_OrderOutcomeIsWritten :
    let s := atOrder (orderOf 7 [4, 1, 9]) live;
    let h := copy0.address + 0x40 + 16 * strip0.slot.slot.1;
    let last : Running := { strip0 with next := 1 };
    s.store.wf = true ∧ s.csi.copy = some copy0 ∧ strip0.next < strip0.slot.count ∧ strip0.slot.address + 32 * strip0.slot.count ≤ 4194304 ∧
    h + 16 ≤ 4194304 ∧ (strip0.slot.address + 32 * strip0.slot.count ≤ h ∨ h + 16 ≤ strip0.slot.address) ∧
    ¬ (strip0.stop = true ∨ (strip0.slot.stopOn = true ∧ Code.done.isRefusal = true) ∨ strip0.slot.count = strip0.next + 1) ∧
    last.next < last.slot.count ∧ last.slot.count = last.next + 1 := by decide +kernel

/-- An order of a kind is the strip's, in the state `atOrder` makes of `s`. -/
def isAt (s : State) (kind : Nat) (rec : OrderRecord) : Bool :=
  decide ((atOrder rec s).currentOrder = some (strip0, rec) ∧ orderKind rec = kind ∧ orderRequester rec = some (asker 1))

/-- Then the strip is working on it. -/
theorem isAt_working {s : State} {kind : Nat} {rec : OrderRecord} (h : isAt s kind rec = true) : (atOrder rec s).working kind strip0 rec (asker 1) :=
  working_of (of_decide_eq_true h)

/-- RUNNING at 30DF. -/
def dropping : State := { live with rtu := { Rtu.reset with rate := .r30df } }

theorem witness_TimeAndCueOrders :
    (isAt live 1 (orderOf 1 [10, 0, 0, 12]) = true ∧ (labelAt (orderOf 1 [10, 0, 0, 12]) 4).wellFormed live.rtu.rate = true ∧
      (labelAt (orderOf 1 [10, 0, 0, 12]) 4).skipped live.rtu.rate = false) ∧
    (isAt dropping 1 (orderOf 1 [0, 1, 0, 1]) = true ∧ (labelAt (orderOf 1 [0, 1, 0, 1]) 4).wellFormed dropping.rtu.rate = true ∧
      (labelAt (orderOf 1 [0, 1, 0, 1]) 4).skipped dropping.rtu.rate = true) ∧
    (isAt live 1 (orderOf 1 [24, 0, 0, 0]) = true ∧ (labelAt (orderOf 1 [24, 0, 0, 0]) 4).wellFormed live.rtu.rate = false) ∧
    (isAt live 3 (orderOf 3 [15]) = true ∧ ob (orderOf 3 [15]) 4 = 15) ∧ isAt live 3 (orderOf 3 [16]) = true ∧ 16 ≤ ob (orderOf 3 [16]) 4 := by decide +kernel

theorem witness_TimeAndCueOrders_cues :
    let inRange := fun (s : State) (r : OrderRecord) => (Nat.testBit (ob r 5) 0 = true → ob r 12 < 24) ∧ (Nat.testBit (ob r 5) 1 = true → ob r 13 < 60) ∧
      (Nat.testBit (ob r 5) 2 = true → ob r 14 < 60) ∧ (Nat.testBit (ob r 5) 3 = true → ob r 15 < s.rtu.rate.base);
    (let r := orderOf 2 [15, 15, 1, 15, 1, 0, 0, 0, 0, 1, 0, 2];
      isAt dropping 2 r = true ∧ ob r 4 = 15 ∧ ob r 5 = 15 ∧ ob r 6 = 1 ∧ ob r 7 = 15 ∧ ob r 8 ≤ 1 ∧ inRange dropping r ∧
      (labelAt r 12).skipped dropping.rtu.rate = false) ∧
    (let r := orderOf 2 [0, 15, 0, 0, 0, 0, 0, 0, 0, 1, 0, 1];
      isAt dropping 2 r = true ∧ ob r 4 = 0 ∧ ob r 6 = 0 ∧ ob r 5 = 15 ∧ inRange dropping r ∧ (labelAt r 12).skipped dropping.rtu.rate = true) ∧
    (let r := orderOf 2 [0, 8, 0, 0, 0, 0, 0, 0, 24, 60, 60, 29];
      isAt dropping 2 r = true ∧ inRange dropping r) ∧
    (let r := orderOf 2 [0, 8, 0, 0, 0, 0, 0, 0, 0, 0, 0, 30];
      isAt dropping 2 r = true ∧ ¬ inRange dropping r) ∧
    isAt live 2 (orderOf 2 [16, 15]) = true ∧ 16 ≤ ob (orderOf 2 [16, 15]) 4 := by decide +kernel

theorem witness_RouterConfigurationOrders :
    (let r := orderOf 4 [63, 7, 5, 127, 15, 254];
      isAt live 4 r = true ∧ ob r 4 = 63 ∧ ob r 5 = (7 : LevelMask).toNat ∧ [DestKind.plain, .onair, .preview, .iso, .keyed, .reentry][ob r 6]? = some .reentry ∧
      optionalByte (ob r 7) (some (127 : Fin 128)) ∧ optionalByte (ob r 8) (some (15 : Fin 16)) ∧ optionalByte (ob r 9) (none : Option (Fin 16))) ∧
    (∀ x ∈ [[64, 7], [4, 0], [4, 8], [4, 7, 6], [4, 7, 0, 128], [4, 7, 0, 254, 16], [4, 7, 0, 254, 254, 16], [4, 7, 5, 254]], let r := orderOf 4 x;
      isAt live 4 r = true ∧ (64 ≤ ob r 4 ∨ ob r 5 = 0 ∨ 8 ≤ ob r 5 ∨ 6 ≤ ob r 6 ∨ (128 ≤ ob r 7 ∧ ob r 7 ≠ 254) ∨ (16 ≤ ob r 8 ∧ ob r 8 ≠ 254) ∨
        (16 ≤ ob r 9 ∧ ob r 9 ≠ 254) ∨ (ob r 6 = 5 ∧ ob r 7 = 254))) ∧
    (isAt live 5 (orderOf 5 [15, 0]) = true ∧ ob (orderOf 5 [15, 0]) 4 = 15 ∧ ob (orderOf 5 [15, 0]) 5 = 0) ∧
    (let r := orderOf 5 [15, 48, 0, 0, 0, 0xFD, 2, 0];
      isAt live 5 r = true ∧ ob r 5 = 48 ∧ ob32 r 8 % 16 = 0 ∧ copy0.orders.base ≤ ob32 r 8 ∧ ob32 r 8 + 16 * ob r 5 = copy0.orders.base + copy0.orders.size) ∧
    (let r := orderOf 5 [15, 1, 0, 0, 0, 0, 3, 0];
      isAt live 5 r = true ∧ ob r 5 = 1 ∧ ¬ ob32 r 8 + 16 * ob r 5 ≤ copy0.orders.base + copy0.orders.size) ∧
    (isAt live 5 (orderOf 5 [16, 1]) = true ∧ 16 ≤ ob (orderOf 5 [16, 1]) 4) ∧
    (let r := orderOf 6 [7, 1, 0, 127, 255, 1];
      isAt live 6 r = true ∧ ob r 4 = 7 ∧ ob r 5 ≤ 1 ∧ sourceByte (ob r 6) (.input 0) ∧ sourceByte (ob r 7) (.input 127) ∧
      sourceByte (ob r 8) .park ∧ sourceByte (ob r 9) (.input 1)) ∧
    ∀ x ∈ [[8], [7, 2], [7, 1, 128], [7, 1, 0, 254], [7, 1, 0, 0, 128], [7, 1, 0, 0, 0, 128]], let r := orderOf 6 x;
      isAt live 6 r = true ∧ (8 ≤ ob r 4 ∨ 2 ≤ ob r 5 ∨ (128 ≤ ob r 6 ∧ ob r 6 ≠ 255) ∨ (128 ≤ ob r 7 ∧ ob r 7 ≠ 255) ∨ (128 ≤ ob r 8 ∧ ob r 8 ≠ 255) ∨
        (128 ≤ ob r 9 ∧ ob r 9 ≠ 255)) := by
  refine ⟨?_, by decide +kernel, by decide +kernel, by decide +kernel, by decide +kernel, by decide +kernel, ?_, by decide +kernel⟩
  · unfold optionalByte
    decide +kernel
  · unfold sourceByte
    decide +kernel

theorem witness_RouterConfigurationOrders_cancelled :
    let r := orderOf 4 [4, 2, 5, 127, 15, 254];
    let s := { live with xpe := { live.xpe with queue := [salvo3] } };
    isAt s 4 r = true ∧ ob r 4 = 4 ∧ ob r 5 = (2 : LevelMask).toNat ∧ (s.dest 4).present.getLsbD 0 = true ∧ (2 : LevelMask).getLsbD 0 = false ∧
    (⟨4, .v, .input 11⟩ : Crosspoint) ∈ salvo3.entries ∧ salvo3.requester.owner = .app 2 := by decide +kernel

theorem witness_TakeIsDecided :
    let r := orderOf 7 [63, 3, 127, 1, 2];
    (isAt live 7 r = true ∧ ob r 4 = 63 ∧ ob r 5 = (3 : LevelMask).toNat ∧ sourceByte (ob r 6) (.input 127) ∧ (3 : LevelMask) &&& (live.dest 63).present ≠ 0 ∧
      entriesIn (live.queueWith { due := some 2, requester := asker 1, cause := .take, salvo := none, entries := [⟨63, .v, .input 127⟩, ⟨63, .a, .input 127⟩] }) ≤ 64) ∧
    (∀ x ∈ [[64, 1], [4, 0], [4, 8], [4, 1, 128], [4, 1, 254]], let r := orderOf 7 x;
      isAt live 7 r = true ∧ (64 ≤ ob r 4 ∨ ob r 5 = 0 ∨ 8 ≤ ob r 5 ∨ (128 ≤ ob r 6 ∧ ob r 6 ≠ 255))) ∧
    (let r := orderOf 7 [4, 4, 9];
      let s := live.setDest 4 { Destination.reset with present := 3 };
      isAt s 7 r = true ∧ ob r 5 = (4 : LevelMask).toNat ∧ (4 : LevelMask) &&& (s.dest 4).present = 0) ∧
    (let s := { live with xpe := { live.xpe with queue := fullQueue } };
      isAt s 7 r = true ∧
      64 < entriesIn (s.queueWith { due := some 2, requester := asker 1, cause := .take, salvo := none, entries := [⟨63, .v, .input 127⟩] })) ∧
    live.dueFixed r (some 2) ∧ live.lets 63 (asker 1) ∧ ¬ (live.setDest 63 { Destination.reset with protect := some ⟨2, .app 2⟩ }).lets 63 (asker 1) := by
  refine ⟨?_, by decide +kernel, by decide +kernel, by decide +kernel, (dueFrame_terms live _).1 _ |>.mp (by decide +kernel), Or.inl (by decide +kernel),
    fun h => absurd ((lets_iff _ _ _).mp h) (by decide +kernel)⟩
  unfold sourceByte
  decide +kernel

/-- Each due form that R39 and R40 refuse, and a label exactly half a day ahead, which they do not. -/
theorem witness_TakeIsDecided_due :
    (∀ x ∈ [(orderOf 7 [4, 1, 9, 3], Code.refusedArg), (orderOf 7 [4, 1, 9, 1, 1], .refusedLate), (orderOf 7 [4, 1, 9, 2, 24], .refusedArg),
        (orderOf 7 [4, 1, 9, 2, 0, 1, 0, 1], .refusedLabel), (orderOf 7 [4, 1, 9, 2, 0, 0, 0, 1], .refusedLate), (orderOf 7 [4, 1, 9, 2, 12, 0, 0, 1], .refusedLate)],
      isAt dropping 7 x.1 = true ∧ dropping.dueRefused x.1 x.2) ∧
    isAt dropping 7 (orderOf 7 [4, 1, 9, 2, 12]) = true ∧ dropping.dueFixed (orderOf 7 [4, 1, 9, 2, 12]) (some 1294704) := by
  refine ⟨?_, by decide +kernel, (dueFrame_terms dropping _).1 _ |>.mp (by decide +kernel)⟩
  have h : ∀ x ∈ [(orderOf 7 [4, 1, 9, 3], Code.refusedArg), (orderOf 7 [4, 1, 9, 1, 1], .refusedLate), (orderOf 7 [4, 1, 9, 2, 24], .refusedArg),
      (orderOf 7 [4, 1, 9, 2, 0, 1, 0, 1], .refusedLabel), (orderOf 7 [4, 1, 9, 2, 0, 0, 0, 1], .refusedLate), (orderOf 7 [4, 1, 9, 2, 12, 0, 0, 1], .refusedLate)],
      isAt dropping 7 x.1 = true ∧ dueFrame dropping.rtu.rate dropping.rtu.frame dropping.rtu.label (dueFormOf x.1) = .error x.2 := by decide +kernel
  exact fun x hx => ⟨(h x hx).1, ((dueFrame_terms dropping x.1).2 x.2).mp (h x hx).2⟩

theorem witness_CancelRemovesEntries :
    (isAt live 8 (orderOf 8 [64, 7]) = true ∧ 64 ≤ ob (orderOf 8 [64, 7]) 4) ∧ (isAt live 8 (orderOf 8 [4, 0]) = true ∧ ob (orderOf 8 [4, 0]) 5 = 0) ∧
    (let s := { live with xpe := { live.xpe with queue := [salvo3] } };
      isAt s 8 (orderOf 8 [4, 7]) = true ∧ ob (orderOf 8 [4, 7]) 4 = 4 ∧ (7 : LevelMask) ≠ 0 ∧ ob (orderOf 8 [4, 7]) 5 = (7 : LevelMask).toNat ∧
      entryCount s.xpe.queue ≤ 64 ∧ ((s.xpe.queue.flatMap fun u => u.entries).Pairwise fun x y => x.dest ≠ y.dest ∨ x.level ≠ y.level) ∧
      ∀ u ∈ s.xpe.queue, ∀ x ∈ u.entries, hasLevel (s.dest x.dest).present x.level = true) := by decide +kernel

theorem witness_ProtectAndRelease :
    let beaten := live.setDest 6 { Destination.reset with protect := some ⟨3, .app 2⟩ };
    let firm := live.setDest 6 { Destination.reset with protect := some ⟨2, .app 2⟩ };
    (isAt live 9 (orderOf 9 [64]) = true ∧ isAt live 10 (orderOf 10 [64]) = true ∧ 64 ≤ ob (orderOf 9 [64]) 4) ∧
    (isAt live 9 (orderOf 9 [6]) = true ∧ (live.dest 6).protect = none ∧ ob (orderOf 9 [6]) 4 = 6) ∧
    (isAt beaten 10 (orderOf 10 [6]) = true ∧ (beaten.dest 6).protect = some ⟨3, .app 2⟩ ∧ (asker 1).level < 3) ∧
    (isAt firm 9 (orderOf 9 [6]) = true ∧ isAt firm 10 (orderOf 10 [6]) = true ∧ (firm.dest 6).protect = some ⟨2, .app 2⟩ ∧ Owner.app 2 ≠ (asker 1).owner ∧
      ¬ (asker 1).level < 2) := by decide +kernel

theorem witness_ProtectAndRelease_panel :
    ∀ y ∈ [(⟨1, .panel 0⟩ : Protect), ⟨2, .app 1⟩, ⟨1, .app 1⟩],
      let s := (staffed.setPanel 0 { panel0 with selection := ⟨some (6, 1), none, false, none⟩ }).setDest 6 { Destination.reset with protect := some y };
      ob (orderOf 9 [6]) 4 = 6 ∧ (s.panel 0).selection.dest = some (6, 1) ∧ (s.panel 0).level = 1 ∧ (s.dest 6).protect = some y := by decide +kernel

/-- A read of one entry at 20040H. -/
def readOne (origin : FireOrigin) : SalvoRead := { request := ⟨3, none, asker 1, .salvo, origin⟩, address := 0x20040, count := 1, mark := 0 }

/-- The salvo reader with that read in progress for an order, and for a cue. -/
def readingFor (origin : FireOrigin) (entry : List Byte) : State :=
  { live with
    store := hostWrite [] (bytesAt 0x20040 entry)
    csi := { live.csi with running := some { strip0 with waiting := some 7 } }
    xpe := { live.xpe with reading := some (readOne origin) } }

theorem witness_SalvoFireAndRead :
    (isAt live 11 (orderOf 11 [16]) = true ∧ 16 ≤ ob (orderOf 11 [16]) 4) ∧
    (let r := orderOf 11 [15];
      let s := live.setSalvo 15 (some ⟨0x2FFF0, 1⟩);
      let t := live.setSalvo 15 (some ⟨0x2FFF0, 2⟩);
      isAt (readingFor .orphan []) 11 r = true ∧
      (readingFor .orphan []).xpe.reading ≠ none ∧ (isAt live 11 r = true ∧ live.xpe.reading = none ∧ live.xpe.fires = [] ∧ live.xpe.salvos[15] = none) ∧
      (isAt s 11 r = true ∧ s.xpe.salvos[15] = some ⟨0x2FFF0, 1⟩ ∧ s.csi.copy = some copy0 ∧ 0x2FFF0 + 16 * 1 ≤ copy0.orders.base + copy0.orders.size) ∧
      isAt t 11 r = true ∧ ¬ 0x2FFF0 + 16 * 2 ≤ copy0.orders.base + copy0.orders.size) ∧
    live.xpe.reading = none ∧ live.dueFixed (orderOf 11 [15]) none ∧
    isAt live 11 (orderOf 11 [15, 0, 0, 1, 1]) = true ∧ live.dueRefused (orderOf 11 [15, 0, 0, 1, 1]) .refusedLate :=
  ⟨by decide +kernel, by decide +kernel, rfl, (dueFrame_terms live _).1 _ |>.mp (by decide +kernel), by decide +kernel,
    (dueFrame_terms live _).2 _ |>.mp (by decide +kernel)⟩

/-- Whoever asked, that read meets a full queue or an entry of an application. -/
theorem witness_SalvoFireAndRead_outcomes :
    let es : List Crosspoint := [⟨4, .v, .input 11⟩, ⟨4, .a, .input 11⟩];
    let unit : TakeUnit := { due := none, requester := asker 1, cause := .salvo, salvo := some 3, entries := es };
    (∀ origin ∈ [FireOrigin.order, .key 0 6, .cue 3 5 ⟨0, 0, 0, 5⟩, .orphan],
      let s := fun q => ({ readingFor origin [4, 3, 11] with xpe := { (readingFor origin [4, 3, 11]).xpe with queue := q } } : State);
      (s fullQueue).xpe.reading = some (readOne origin) ∧ (s fullQueue).xpe.fires = [] ∧ (s fullQueue).csi.running = some { strip0 with waiting := some 7 } ∧
      (s fullQueue).isSalvo ((s fullQueue).salvoList (readOne origin)) ∧ (s fullQueue).salvoTakes ((s fullQueue).salvoList (readOne origin)) = es ∧
      64 < entriesIn ((s fullQueue).queueWith unit) ∧ entriesIn ((s [salvo3]).queueWith unit) ≤ 64 ∧
      (let bad := readingFor origin [64, 3, 11];
        ¬ bad.isSalvo (bad.salvoList (readOne origin)))) ∧
    live.lets 4 (asker 1) ∧ ¬ (live.setDest 4 { Destination.reset with protect := some ⟨1, .panel 3⟩ }).lets 4 (asker 1) := by
  refine ⟨?_, Or.inl (by decide +kernel), fun h => absurd ((lets_iff _ _ _).mp h) (by decide +kernel)⟩
  unfold State.isSalvo Crosspoint.differs
  decide +kernel

/-- A request that waits behind the read: for a salvo whose list ends with the order window, one past it, and an undefined one. -/
theorem witness_SalvoFireAndRead_waiting :
    let y : FireRequest := ⟨4, none, asker 1, .salvo, .key 0 6⟩;
    let s := fun v => ({ (readingFor .order [4, 3, 11]).setSalvo 4 v with xpe := { ((readingFor .order [4, 3, 11]).setSalvo 4 v).xpe with fires := [y] } } : State);
    (s none).xpe.reading = some (readOne .order) ∧ (s none).xpe.fires = [y] ∧ (s none).xpe.salvos[y.salvo] = none ∧
    (s (some ⟨0x2FFF0, 1⟩)).xpe.salvos[y.salvo] = some ⟨0x2FFF0, 1⟩ ∧ (s none).csi.copy = some copy0 ∧ copy0.orders.base ≤ 0x2FFF0 ∧
    0x2FFF0 + 16 * 1 = copy0.orders.base + copy0.orders.size ∧ ¬ 0x2FFF0 + 16 * 2 ≤ copy0.orders.base + copy0.orders.size := by decide +kernel

theorem witness_PanelOrders_reports :
    let r := orderOf 12 [0, 1, 3, 31, 1, 51, 2, 1];
    let s := staffed.setDest 63 { Destination.reset with protect := some ⟨1, .panel 0⟩ };
    isAt s 12 r = true ∧ ob r 4 = 0 ∧ ob r 6 = 3 ∧ (s.dest 63).protect = some ⟨1, .panel 0⟩ ∧
    (s.panel 0).level < 3 ∧ (1 : Fin 4) < 3 ∧ (s.panel 0).state ≠ .joining := by decide +kernel

theorem witness_PanelOrders :
    (∀ x ∈ [[24, 1, 1], [0, 2, 1], [0, 1, 0], [0, 1, 4], [0, 1, 1, 32], [0, 1, 1, 0, 2]], let r := orderOf 12 x;
      isAt live 12 r = true ∧ (24 ≤ ob r 4 ∨ 2 ≤ ob r 5 ∨ ob r 6 = 0 ∨ 4 ≤ ob r 6 ∨ (32 ≤ ob r 7 ∧ ob r 7 ≠ 254) ∨ 2 ≤ ob r 8)) ∧
    (let r := orderOf 12 [0, 1, 3, 31, 1, 51, 2, 1];
      isAt staffed 12 r = true ∧ ob r 4 = 0 ∧ ob r 5 = bit true ∧ ob r 6 = (3 : Fin 4).1 ∧ optionalByte (ob r 7) (some (31 : Fin 32)) ∧ ob r 8 = 1 ∧ ob r 9 = 51 ∧
      (0x102 : BitVec 16).toNat = ob r 10 + 256 * ob r 11 ∧ (staffed.panel 0).enabled = true ∧
      (staffed.panel 0).model ≠ 0x102 ∧ (staffed.panel 0).state = .online ∧ (staffed.panel 0).station ≠ some 31 ∧ (staffed.panel 0).mode ≠ .preset) ∧
    (let s := live.setPanel 23 { panel0 with map := upd panel0.map 47 { KeyEntry.reset with fn := .report } };
      let r := orderOf 14 [23, 47, 3];
      isAt s 14 r = true ∧ ob r 4 = 23 ∧ ob r 5 = 47 ∧ [Lamp.off, .on, .flash, .alt][ob r 6]? = some .alt ∧ (s.panel 23).map[47].fn = .report ∧ (s.panel 23).state = .online ∧
      (s.panel 23).timers[47] = 0 ∧ isAt live 14 r = true ∧ (live.panel 23).map[47].fn ≠ .report ∧
      (let t := live.setPanel 23 { panel0 with state := .lost, map := upd panel0.map 47 { KeyEntry.reset with fn := .report } };
        isAt t 14 r = true ∧ (t.panel 23).state ≠ .online)) ∧
    (isAt live 14 (orderOf 14 [23, 48, 0]) = true ∧ 48 ≤ ob (orderOf 14 [23, 48, 0]) 5) ∧
    (isAt live 13 (orderOf 13 [24]) = true ∧ 24 ≤ ob (orderOf 13 [24]) 4) ∧
    (let r := orderOf 13 [23, 0, 0, 0, 0, 0xFD, 2, 0];
      isAt live 13 r = true ∧ ob r 4 = 23 ∧ live.csi.copy = some copy0 ∧ ob32 r 8 % 16 = 0 ∧ copy0.orders.base ≤ ob32 r 8 ∧
      ob32 r 8 + 768 = copy0.orders.base + copy0.orders.size) ∧
    (let r := orderOf 13 [23, 0, 0, 0, 0x10, 0xFD, 2, 0];
      isAt live 13 r = true ∧ ¬ ob32 r 8 + 768 ≤ copy0.orders.base + copy0.orders.size) := by
  unfold optionalByte
  decide +kernel

/-- A map read in progress for an order, with the first key's entry. -/
def mapping (entry : List Byte) : State :=
  { staffed with
    store := hostWrite [] (bytesAt 0x20100 entry)
    csi := { live.csi with running := some { strip0 with waiting := some 7 } }
    pnc := { staffed.pnc with mapReads := [⟨0, 0x20100, true, 0⟩] } }

theorem witness_KeymapReadLoadsWhole_held :
    let s := { mapping [2, 8, 0, 1] with pnc := { ((mapping [2, 8, 0, 1]).setPanel 0 { panel0 with state := .joining }).pnc with mapReads := [⟨0, 0x20100, true, 0⟩] } };
    (s.panel 0).state ≠ .online ∧ ((mapping [2, 8, 0, 1]).panel 0).state = .online ∧ s.pnc.mapReads = [⟨0, 0x20100, true, 0⟩] := by decide +kernel

/-- The station port of panel 0 is of kind IFB. -/
abbrev onIfb (s : State) : Prop := ∃ a : Fin 32, (s.panel 0).station = some a ∧ s.tke.ports[a].kind = .ifb

theorem witness_KeymapReadLoadsWhole :
    let bytes := fun (s : State) (k : Nat) => (s.mapBytes ⟨0, 0x20100, true, 0⟩).getD k [];
    let s := mapping [2, 8, 0, 1];
    let t := { mapping [8, 5] with tke := { Tke.reset with ports := upd Tke.reset.ports 0 { Port.reset with kind := .ifb } } };
    staffed.pnc.mapReads = [] ∧ s.pnc.mapReads = [⟨0, 0x20100, true, 0⟩] ∧ s.csi.running = some { strip0 with waiting := some 7 } ∧
    (∀ k, k < 48 → ¬ keyEntryBad (onIfb s) (bytes s k)) ∧ (keyEntryBad (onIfb t) (bytes t 0) ∧ t.pnc.mapReads = s.pnc.mapReads) ∧
    (∀ x ∈ [[9], [1, 0, 0, 0, 0, 0, 4], [2, 64, 0, 1], [2, 8, 0, 8], [3, 128], [5, 8], [6, 16], [8, 32], [8, 8, 1], [8, 0, 3], [8, 0, 0, 0, 3]],
      keyEntryBad (onIfb s) (bytes (mapping x) 0)) ∧ s.replaced = [] := by
  refine ⟨rfl, rfl, rfl, ?_, ⟨?_, rfl⟩, ?_, rfl⟩
  all_goals
    unfold keyEntryBad
    decide +kernel

/-- Port 20 of kind IFB, named by IFB record 1 or by none. -/
def ifbPort20 (named : Bool) : State :=
  { staffed with tke := { Tke.reset with
      ports := upd Tke.reset.ports 20 { Port.reset with kind := .ifb }
      ifbs := upd Tke.reset.ifbs 1 { Ifb.reset with port := if named then some 20 else none } } }

theorem witness_TalkOrders :
    (∀ x ∈ [[32], [0, 4], [0, 0, 0, 0, 0, 4]], let r := orderOf 15 x;
      isAt live 15 r = true ∧ (32 ≤ ob r 4 ∨ 4 ≤ ob r 5 ∨ 4 ≤ ob r 9)) ∧
    (let r := orderOf 15 [20, 0, 25, 0, 0, 3];
      isAt (ifbPort20 true) 15 r = true ∧ ob r 4 = 20 ∧ ob r 5 = 0 ∧ ob r 9 = 3 ∧ max (-24) (min 24 (r.getD 6 0).toInt) = 24 ∧ (r.getD 6 0).toInt = 25 ∧
      (ifbPort20 true).tke.ifbs[1].port = some 20 ∧
      isAt (ifbPort20 false) 15 r = true ∧ ∀ i : Fin 8, (ifbPort20 false).tke.ifbs[i].port ≠ some 20) ∧
    (let r := orderOf 15 [0, 2];
      isAt staffed 15 r = true ∧ ob r 4 = 0 ∧ [PortKind.station, .camera, .ifb, .line][ob r 5]? = some .ifb ∧ (staffed.panel 0).station = some 0) ∧
    (isAt live 16 (orderOf 16 [8]) = true ∧ 8 ≤ ob (orderOf 16 [8]) 4) ∧ (isAt live 16 (orderOf 16 [7]) = true ∧ ob (orderOf 16 [7]) 4 = 7) ∧
    (∀ x ∈ [[8], [7, 32], [7, 20, 64], [7, 20, 0, 64], [7, 20, 0, 254, 128]], let r := orderOf 17 x;
      isAt live 17 r = true ∧ (8 ≤ ob r 4 ∨ (ob r 5 ≠ 254 ∧
        (32 ≤ ob r 5 ∨ 64 ≤ ob r 6 ∨ (64 ≤ ob r 7 ∧ ob r 7 ≠ 254) ∨ (128 ≤ ob r 8 ∧ ob r 8 ≠ 254))))) ∧
    (isAt live 17 (orderOf 17 [7, 254]) = true ∧ ob (orderOf 17 [7, 254]) 4 = 7 ∧ ob (orderOf 17 [7, 254]) 5 = 254) ∧
    (let r := orderOf 17 [7, 20, 63, 254, 127, 1, 121];
      isAt (ifbPort20 true) 17 r = true ∧ ob r 5 = 20 ∧ ob r 6 < 64 ∧ ob r 7 = 254 ∧ ob r 8 < 128 ∧ (ifbPort20 true).tke.ifbs[1].port = some 20 ∧
      isAt (ifbPort20 false) 17 r = true ∧ (ifbPort20 false).tke.ports[20].kind = .ifb ∧ ∀ j : Fin 8, (ifbPort20 false).tke.ifbs[j].port ≠ some 20) ∧
    (∀ x ∈ [[24, 0, 0], [0, 48, 0], [0, 20, 2]], let r := orderOf 18 x;
      isAt live 18 r = true ∧ (24 ≤ ob r 4 ∨ 48 ≤ ob r 5 ∨ 2 ≤ ob r 6)) ∧
    (isAt staffed 18 (orderOf 18 [0, 47, 1]) = true ∧ (staffed.panel 0).map[47].fn ≠ .talk ∧ ob (orderOf 18 [0, 47, 1]) 6 ≤ 1) ∧
    (let r := orderOf 18 [0, 20, 1];
      isAt staffed 18 r = true ∧ ob r 6 = 1 ∧ (staffed.panel 0).map[20].fn = .talk ∧ (staffed.panel 0).state = .online ∧ (staffed.panel 0).station = some 0 ∧
      staffed.tke.ports[0].kind ≠ .ifb ∧ staffed.runState ≠ .halting) ∧
    (isAt staffed 18 (orderOf 18 [0, 20, 0]) = true ∧ ob (orderOf 18 [0, 20, 0]) 6 = 0) := by
  refine ⟨?_, ?_, ?_, ?_, ?_, ?_, ?_, ?_, ?_, ?_, ?_, ?_⟩ <;> decide +kernel

theorem witness_TalkOrders_selector :
    let r := orderOf 17 [7, 20, 5, 6, 12, 1, 121];
    let s := fun x => (ifbPort20 false).setDest 5 { Destination.reset with entryA := ⟨.input x, .known⟩ };
    (∀ x ∈ [(12 : Fin 128), 13], isAt (s x) 17 r = true ∧ ob r 4 = 7 ∧ ob r 5 = 20 ∧ ob r 6 = 5 ∧ ob r 7 = 6 ∧ ob r 8 = 12 ∧
      ((s x).dest 5).present.getLsbD 1 = true ∧ ((s x).dest 5).entryA = ⟨.input x, .known⟩ ∧ (s x).tke.ports[20].kind = .ifb) ∧
    ∀ j : Fin 8, (s 12).tke.ifbs[j].port ≠ some 20 := by decide +kernel

theorem witness_TallyOrders :
    (∀ x ∈ [[64], [0, 128], [0, 254, 8], [0, 254, 7, 2], [0, 254, 7, 0, 32], [0, 254, 7, 0, 254, 2], [0, 254, 7, 0, 254, 0, 64]], let r := orderOf 19 x;
      isAt live 19 r = true ∧ (64 ≤ ob r 4 ∨ (128 ≤ ob r 5 ∧ ob r 5 ≠ 254) ∨ 8 ≤ ob r 6 ∨ 2 ≤ ob r 7 ∨ (32 ≤ ob r 8 ∧ ob r 8 ≠ 254) ∨ 2 ≤ ob r 9 ∨
        (64 ≤ ob r 10 ∧ ob r 10 ≠ 254))) ∧
    (∀ m ∈ [(62 : Fin 64), 63], let r := orderOf 19 [63, 127, 7, 1, 31, 1, BitVec.ofNat 8 m.1];
      isAt live 19 r = true ∧ ob r 4 = 63 ∧ optionalByte (ob r 5) (some (127 : Fin 128)) ∧ ob r 6 = (7 : ColourSet).toNat ∧ ob r 7 = 1 ∧
      optionalByte (ob r 8) (some (31 : Fin 32)) ∧ ob r 9 = 1 ∧ optionalByte (ob r 10) (some m)) ∧
    live.tly.channels[62].master = none ∧ (∀ j : Fin 64, live.tly.channels[j].master ≠ some 63) ∧
    (isAt live 20 (orderOf 20 [63, 0]) = true ∧ ob (orderOf 20 [63, 0]) 4 = 63 ∧ ob (orderOf 20 [63, 0]) 5 = 0) ∧
    (isAt live 20 (orderOf 20 [63, 1, 7]) = true ∧ ob (orderOf 20 [63, 1, 7]) 5 = 1 ∧ ob (orderOf 20 [63, 1, 7]) 6 < 8) ∧
    (∀ x ∈ [[64], [0, 2], [0, 1, 8]], let r := orderOf 20 x;
      isAt live 20 r = true ∧ (64 ≤ ob r 4 ∨ 2 ≤ ob r 5 ∨ (ob r 5 = 1 ∧ 8 ≤ ob r 6))) ∧
    (∀ x ∈ [[16], [0, 2]], isAt live 21 (orderOf 21 x) = true ∧ (16 ≤ ob (orderOf 21 x) 4 ∨ 2 ≤ ob (orderOf 21 x) 5)) ∧
    (isAt live 21 (orderOf 21 [15, 0]) = true ∧ ob (orderOf 21 [15, 0]) 4 = 15 ∧ ob (orderOf 21 [15, 0]) 5 = 0) ∧
    isAt live 21 (orderOf 21 [15, 1]) = true ∧ ob (orderOf 21 [15, 1]) 5 = 1 := by
  refine ⟨by decide +kernel, ?_, by decide +kernel⟩
  unfold optionalByte
  decide +kernel

/-! #### The links -/

theorem witness_SwitchReportSettlesTakes :
    live.xpe.reportWait = none ∧ busy.xpe.reportWait = some 9 ∧ busy.xpe.link = .up ∧ (List.replicate 48 (⟨3, 0, false, 15⟩ : ReportLine)).length ≤ 48 ∧
    (busy.xpe.armed.length ≤ 48 ∧ (busy.xpe.armed.map fun a => a.xpt).Pairwise fun x y => x.dest ≠ y.dest ∨ x.level ≠ y.level) ∧
    (∀ a ∈ busy.xpe.armed, a.xpt.dest ≠ 5 ∨ a.xpt.level ≠ .v) ∧ busy.runState = .running ∧ busy.xpe.sweep = none ∧ (halting false).runState ≠ .running := by
  decide +kernel

/-- A unit of `n` takes at A for the destinations from `d` on. -/
def unitOf (due : Option FrameIndex) (d n : Nat) : TakeUnit :=
  { due := due, requester := asker 1, cause := .take, salvo := none, entries := (List.range n).map fun i => ⟨Fin.ofNat 64 (d + i), .a, .park⟩ }

theorem witness_SwitchReportSettlesTakes_load :
    let arms := fun (s : State) (u : TakeUnit) => (match u.due with
        | none => true
        | some f => decide (0 ≤ (9 + 1 - f).toInt)) = true ∧
      u.entries.all (fun x => protectAllows (s.dest x.dest).protect u.requester.owner (s.levelNow u.requester)) = true;
    busy.runState = .running ∧ busy.xpe.sweep = none ∧ busy.xpe.reportWait = some 9 ∧
    (arms busy (unitOf none 0 3) ∧ arms busy (unitOf (some 10) 0 3) ∧ ¬ arms busy (unitOf (some 11) 0 3) ∧ (unitOf none 0 48).entries.length ≤ 48) ∧
    (arms busy (unitOf none 0 47) ∧ (unitOf none 0 47).entries.length ≤ 48 ∧ arms busy (unitOf none 47 2) ∧
      48 < (unitOf none 0 47).entries.length + (unitOf none 47 2).entries.length) ∧
    ¬ arms (busy.setDest 0 { Destination.reset with protect := some ⟨0, .panel 3⟩ }) (unitOf none 0 3) := by decide +kernel

theorem witness_SwitchReportSettlesTakes_reports :
    busy.tke.ifbs[0].port = none ∧ busy.tke.ifbs[1].port = some 20 ∧
    (let s := { busy with xpe := { busy.xpe with queue := [unitOf none 0 3] } }.setDest 0 { Destination.reset with protect := some ⟨0, .panel 3⟩ };
      s.runState = .running ∧ s.xpe.sweep = none ∧ s.xpe.reportWait = some 9 ∧ s.xpe.link = .up ∧
      protectAllows (s.dest 0).protect (asker 1).owner (s.levelNow (asker 1)) = false) ∧
    ({ busy with runState := .sweep }.runState ≠ .running ∧ { busy with xpe := { busy.xpe with sweep := some (9, .a) } }.xpe.sweep ≠ none) := by
  decide +kernel

/-- The occupancy that the mirrors show after a switch report counts the entries that the report's own load armed (R55). -/
theorem test_switchReport_occupancy :
    let s := { busy with
      control := live.control
      xpe := { busy.xpe with armed := [], queue := [unitOf none 0 3] }
      tly := { busy.tly with inputs := some { frame := 9, sample := 0, snapshot := 0 } }
      csi := { busy.csi with mirror := { Mirror.reset with complete := false, written := mirrorEntries (fun _ => 0) busy } } };
    after (fun t => (t.xpe.armed.length, storeRead t.store (copy0.mirror + 0xBA1), storeRead t.store (copy0.mirror + 0xBA0))) (.switchReport []) s =
      some (3, 3, 0) := by decide +kernel

theorem witness_SwitchReportSettlesTakes_mirrors :
    let s := fun writing : Option Nat => ({ busy with
      tly := { busy.tly with inputs := some { frame := 9, sample := 0, snapshot := 0 } }
      csi := { busy.csi with mirror := { Mirror.reset with writing := writing } } } : State);
    (∀ writing ∈ [none, some 0x12000], (s writing).xpe.reportWait = some 9 ∧ (s writing).xpe.link = .up ∧ (s writing).csi.copy = some copy0 ∧
      (s writing).csi.mirror.freeze = .live ∧ (s writing).csi.mirror.complete = true ∧ (s writing).csi.mirror.writing = writing) ∧
    (s none).store.wf = true ∧ copy0.mirror + 3008 ≤ 4194304 := by decide +kernel

theorem witness_SwitchReportSettlesTakes_selectors :
    let i : Ifb := { Ifb.reset with port := some 20, d1 := 5, d2 := 6, own := 12 };
    ∀ x ∈ [(12 : Fin 128), 13], let s := ({ busy with tke := { busy.tke with ifbs := upd busy.tke.ifbs 1 i } } : State).setDest 5 { Destination.reset with entryA := ⟨.input x, .known⟩ };
      s.xpe.reportWait = some 9 ∧ s.xpe.link = .up ∧ s.tke.ifbs[1] = i ∧ (s.dest 5).present.getLsbD 1 = true ∧ (s.dest 5).entryA = ⟨.input x, .known⟩ := by
  decide +kernel

theorem witness_FabricWaits :
    (let s := { live with xpe := { live.xpe with ackWait := true } };
      s.xpe.ackWait = true ∧ s.xpe.link = .up) ∧
    busy.xpe.reportWait ≠ none ∧ (let s := { live with xpe := { live.xpe with sweep := some (63, .b) } }
      s.xpe.sweep ≠ none ∧ s.xpe.link = .up) ∧
    live.xpe.ackWait = false ∧ live.xpe.reportWait = none ∧ live.xpe.sweep = none ∧
    (let s := { live with xpe := { live.xpe with link := .down, pingWait := true } };
      s.xpe.pingWait = true ∧ s.xpe.link = .down) ∧
    live.xpe.pingWait = false := by decide +kernel

theorem witness_SweepReadsInOrder :
    (∀ x ∈ [((0 : Fin 64), Level.v, (0 : Byte), (0 : Byte)), (5, .a, 5, 1), (62, .b, 62, 2), (63, .b, 63, 2)],
      let s := { live with runState := .sweep, xpe := { live.xpe with sweep := some (x.1, x.2.1) } };
      s.xpe.sweep = some (x.1, x.2.1) ∧ x.2.2.1.toNat = x.1.1 ∧ x.2.2.2.toNat = x.2.1.num) ∧
    ∀ (d : Fin 64) (l : Level), live.xpe.sweep = some (d, l) → (3 : Byte).toNat ≠ d.1 ∨ (0 : Byte).toNat ≠ l.num := by
  refine ⟨by decide +kernel, ?_⟩
  intro d l h
  cases h

theorem witness_UnawaitedMessagesIgnored :
    fabricMessage [0x90, 0] = none ∧ (live.xpe.reportWait = none ∧ live.xpe.sweep = none ∧ live.xpe.pingWait = false ∧ live.xpe.ackWait = false) ∧
    live.tke.flight = none ∧ ([0xA2] : List Byte) ≠ [0xA0] ∧ live.pnc.links[0].out = none ∧
    ∀ b rest, ([0x82, 1] : List Byte) = b :: rest → b ≠ 0x81 ∧ b ≠ 0x83 := by
  refine ⟨rfl, by decide +kernel, rfl, by decide, rfl, ?_⟩
  intro b rest h
  cases h
  decide

/-- Panel 0 with a poll outstanding, its first key carried. -/
def awaiting (st : PanelState) (ident : Bool) (missed : Nat) : State :=
  { live with pnc := { (live.setPanel 0 { panel0 with state := st, missed := missed, lampSet := [3, 9] }).pnc with
      links := upd live.pnc.links 0 ⟨some (.poll 0 ident false false [(3, .off)]), 1⟩ } }

theorem witness_PollsAndReplies :
    (awaiting .online false 0).pnc.links[0].out = some (.poll 0 false false false [(3, .off)]) ∧
    (awaiting .joining true 0).pnc.links[0].out = some (.poll 0 true false false [(3, .off)]) ∧
    (let m : PanelReply := { address := 1, echo := false, code := none, events := [] };
      m.address = addressOf 0 ∧ m.echo = false ∧ m.code.isSome = false) ∧
    (let m : PanelReply := { address := 1, echo := false, code := some 0, events := [] };
      m.code.isSome = true ∧ ((awaiting .joining true 0).panel 0).state = .joining ∧ ((awaiting .joining true 0).panel 0).model = 0) ∧
    (2 : Byte) ≠ addressOf 0 ∧ ((awaiting .online false 1).panel 0).missed < 2 ∧ 2 ≤ ((awaiting .online false 2).panel 0).missed ∧
    ((awaiting .online false 2).panel 0).enabled = true ∧ ((awaiting .online false 2).panel 0).state = .online ∧ live.runState ≠ .halted := by decide +kernel

/-- A panel whose events are ignored: not ONLINE, or with a press of a key without a function; and a key above 47. -/
theorem witness_PollsAndReplies_ignored :
    let m : PanelReply := { address := 1, echo := false, code := none, events := [⟨47, true⟩] };
    m.address = addressOf 0 ∧ m.events.length ≤ 8 ∧ (∀ e ∈ m.events, e.key.toNat < 48) ∧
    (awaiting .lost false 0).pnc.links[0].out = some (.poll 0 false false false [(3, .off)]) ∧ ((awaiting .lost false 0).panel 0).state ≠ .online ∧
    (∀ e ∈ m.events, ∀ k : Fin 48, e.key.toNat = k.1 → ((awaiting .online false 0).panel 0).map[k].fn = .none) ∧ 48 ≤ (48 : Byte).toNat := by
  decide +kernel

/-- Panel 0 with a probe outstanding. -/
def probing (st : PanelState) (run : RunState) : State :=
  { live with
    runState := run
    pnc := { (live.setPanel 0 { panel0 with state := st }).pnc with links := upd live.pnc.links 0 ⟨some (.probe 0 (decide (st = .wrongModel))), 0⟩ } }

theorem witness_ProbesFindPanels :
    (probing .lost .running).pnc.links[0].out = some (.probe 0 false) ∧ ((probing .lost .running).panel 0).enabled = true ∧
    ((probing .lost .running).panel 0).state = .lost ∧ (probing .lost .running).runState ≠ .halted ∧
    (probing .wrongModel .running).pnc.links[0].out = some (.probe 0 true) ∧ ((probing .wrongModel .running).panel 0).state = .wrongModel ∧
    (probing .absent .halted).runState = .halted ∧ (2 : Byte) ≠ addressOf 0 := by decide +kernel

theorem witness_ProbesFindPanels_next :
    let idle := fun p : Panel => ({ live with pnc := { (live.setPanel 3 p).pnc with links := upd live.pnc.links 0 ⟨none, 5⟩ } } : State);
    let polls := fun (s : State) (i : Fin 6) => (s.panel (panelAt 0 i)).enabled = true ∧ ((s.panel (panelAt 0 i)).state = .joining ∨ (s.panel (panelAt 0 i)).state = .online);
    let due := fun (s : State) (i : Fin 6) => (s.runState = .sweep ∨ s.runState = .running) ∧ (s.panel (panelAt 0 i)).probeDue = true ∧
      (s.panel (panelAt 0 i)).enabled = true ∧ ((s.panel (panelAt 0 i)).state = .absent ∨ (s.panel (panelAt 0 i)).state = .lost ∨
        (s.panel (panelAt 0 i)).state = .wrongModel);
    ((awaiting .online false 0).pnc.links[0].out ≠ none ∧ live.pnc.links[0].out = none ∧ live.runState ≠ .halted ∧ (halted 1).runState = .halted) ∧
    (due (idle { panel0 with state := .lost, probeDue := true }) 3 ∧ ∀ j, j < 3 → ¬ due (idle { panel0 with state := .lost, probeDue := true }) j) ∧
    ((∀ i, ¬ due (idle panel0) i) ∧ (idle panel0).pnc.links[0].round + 4 = 3 ∧ polls (idle panel0) (5 + 4) ∧ ∀ m, m < 4 → ¬ polls (idle panel0) (5 + m)) ∧
    (∀ i, ¬ due live i) ∧ ∀ i, ¬ polls live i := by decide +kernel

theorem witness_ProbesFindPanels_held :
    ∀ held ∈ [true, false], let s := { live with pnc := { (live.setPanel 3 { panel0 with state := .joining, held := held, full := true }).pnc with
        links := upd live.pnc.links 0 ⟨none, 3⟩ } };
      s.pnc.links[0].out = none ∧ s.runState ≠ .halted ∧ (s.panel (panelAt 0 3)).probeDue = false ∧ (s.panel (panelAt 0 3)).enabled = true ∧
      (s.panel (panelAt 0 3)).state = .joining ∧ (s.panel (panelAt 0 3)).held = held := by decide +kernel

theorem witness_TalkKeyMoves :
    polled.pnc.links[0].out = some (.poll 0 false false false []) ∧ (polled.panel 0).state = .online ∧ polled.runState = .running ∧
    polled.keyAction 0 20 = .talk (.port 12) .auto 0 ∧ polled.usableStation 0 = true ∧ polled.keyState 0 20 = .idle ∧
    (let s := { polled with tke := { Tke.reset with ports := upd Tke.reset.ports 0 { Port.reset with kind := .ifb } } };
      s.keyAction 0 20 = .talk (.port 12) .auto 0 ∧ s.usableStation 0 = false ∧ s.keyState 0 20 = .idle) ∧ [true, false, true].length ≤ 8 := by decide +kernel

/-- That panel in PRESET mode on a selection, with a STEP key 6 of group 2 and a walk. -/
def routing (sel : Selection) : State :=
  let p : Panel := { panel0 with mode := .preset, selection := sel, map := upd panel0.map 6 { KeyEntry.reset with fn := .step, arg := 2 } }
  { polled with pnc := { polled.pnc with panels := upd polled.pnc.panels 0 p } }

theorem witness_RouterKeysPressed :
    (let s := routing ⟨some (8, 1), none, false, some ⟨2, 1, 0⟩⟩;
      s.pnc.links[0].out = some (.poll 0 false false false []) ∧ (s.panel 0).state = .online ∧ s.runState = .running ∧ s.keyAction 0 3 = .select 8 1 ∧
      s.keyAction 0 4 = .source (.input 12) ∧ (s.panel 0).mode = .preset ∧ (s.panel 0).selection.dest = some (8, 1) ∧ s.keyAction 0 5 = .take ∧
      (s.panel 0).selection.guard = false ∧ s.keyAction 0 6 = .step 2 ∧ (s.panel 0).selection.walk = some ⟨2, 1, 0⟩ ∧ s.xpe.queue = [] ∧
      (s.dest 8).protect = none ∧ (1 : LevelMask) &&& (s.dest 8).present ≠ 0 ∧ s.xpe.steps[2].order = .linear) ∧
    (let s := { live with xpe := { live.xpe with steps := upd live.xpe.steps 2 { live.xpe.steps[2] with order := .interleaved } } };
      s.xpe.steps[2].order = .interleaved) := by decide +kernel

/-- Panel 0 in a router mode, on a selection, with a key 6 of a function, and destination 8 as given. -/
def pressing (mode : RouterMode) (sel : Selection) (fn : KeyFunction) (d : Destination) : State :=
  let p : Panel := { panel0 with mode := mode, selection := sel, map := upd panel0.map 6 { KeyEntry.reset with fn := fn, arg := 2 } }
  { polled.setDest 8 d with pnc := { polled.pnc with panels := upd polled.pnc.panels 0 p } }

/-- Destination 8 under a protect. -/
def held (p : Protect) : Destination := { Destination.reset with protect := some p }

theorem witness_RouterKeysPressed_takes :
    let on : Selection := ⟨some (8, 1), some (.input 7), true, none⟩;
    let may := fun s : State => (1 : LevelMask) &&& (s.dest 8).present ≠ 0 ∧ (s.dest 8).protect = none;
    let held_ := fun (s : State) (x : Source) =>
      entriesIn (s.queueWith ⟨none, ⟨.panel 0, (s.panel 0).level⟩, .take, none, [⟨8, .v, x⟩]⟩);
    let barred := fun s : State => (1 : LevelMask) &&& (s.dest 8).present ≠ 0 ∧
      ((s.dest 8).protect.map fun y => decide (y.owner ≠ .panel 0 ∧ y.level ≤ (s.panel 0).level)) = some true;
    let at_ := fun s : State => s.pnc.links[0].out = some (.poll 0 false false false []) ∧ (s.panel 0).state = .online ∧ s.runState = .running;
    (∀ mode ∈ [RouterMode.direct, .preset], let s := pressing mode on .source Destination.reset;
      at_ s ∧ may s ∧ held_ s (.input 2) ≤ 64 ∧ held_ s (.input 7) ≤ 64 ∧ 64 < held_ { s with xpe := { s.xpe with queue := fullQueue } } (.input 2) ∧
      held_ { s with xpe := { s.xpe with queue := [{ salvo3 with entries := [⟨8, .v, .park⟩] }] } } (.input 7) ≤ 64 ∧ s.keyAction 0 6 = .source (.input 2) ∧ s.keyAction 0 5 = .take ∧ (s.panel 0).selection.guard = true ∧
      (s.panel 0).selection.preset = some (.input 7) ∧ (s.panel 0).selection.dest = some (8, 1) ∧ (s.panel 0).mode = mode) ∧
    (let s := pressing .direct on .source (held ⟨1, .app 2⟩);
      at_ s ∧ barred s) ∧
    (let s := pressing .direct ⟨none, none, false, none⟩ .step Destination.reset;
      at_ s ∧ (s.panel 0).selection.dest = none ∧ s.keyAction 0 6 = .step 2 ∧ s.keyAction 0 4 = .source (.input 12)) := by decide +kernel

/-- That panel with a preset of source 7, after an application's take of destination 8 to PARK. -/
def overtaken : State := (next? (exec .take (atOrder (record 7 1 [8, 1, 255]) (pressing .preset ⟨some (8, 1), some (.input 7), true, none⟩ .take Destination.reset)))).getD live

/-- The notice breaks the guard (R136); a press after it is stale (R137), and one taken ahead of it supersedes the other take. -/
theorem test_reply_ahead :
    ((overtaken.panel 0).selection.guard, (overtaken.panel 0).noticed) = (false, true) ∧
    after (fun t => (t.xpe.queue.map fun u => u.entries, (t.panel 0).timers[6])) (key 6 true) overtaken = some ([[⟨8, .v, .park⟩]], 16) ∧
    after (fun t => (t.xpe.queue.map fun u => u.entries, (t.panel 0).timers[6]))
      (.reply 0 { address := 1, echo := false, code := none, events := [⟨6, true⟩], ahead := true }) overtaken = some ([[⟨8, .v, .input 7⟩]], 0) := by
  decide +kernel

theorem witness_RouterKeysPressed_ahead :
    overtaken.pnc.links[0].out = some (.poll 0 false false false []) ∧ (overtaken.panel 0).state = .online ∧ overtaken.runState = .running ∧
    overtaken.keyAction 0 6 = .take ∧ (overtaken.panel 0).selection = ⟨some (8, 1), some (.input 7), false, none⟩ ∧ (overtaken.panel 0).noticed = true ∧
    (overtaken.dest 8).protect = none ∧ (1 : LevelMask) &&& (overtaken.dest 8).present ≠ 0 := by decide +kernel

theorem witness_RouterKeysPressed_walks :
    let on := fun w => (⟨some (8, 1), none, false, w⟩ : Selection);
    let holds := fun (s : State) (i : Fin 4) => (s.dest 8).present.getLsbD 0 = true ∧ (s.dest 8).entryV.state ≠ .unknown ∧
      s.xpe.steps[2].sources[i] = (s.dest 8).entryV.source;
    let other := pressing .direct (on (some ⟨3, 1, 0⟩)) .step { Destination.reset with entryV := ⟨.park, .known⟩ };
    let fresh := pressing .direct (on none) .step { Destination.reset with entryV := ⟨.input 9, .known⟩ };
    let barred := pressing .direct (on (some ⟨2, 1, 0⟩)) .step (held ⟨1, .app 2⟩);
    (∀ v, (other.panel 0).selection.walk = some v → v.group ≠ 2) ∧ holds other 0 ∧ (∀ j : Fin 4, j < 0 → ¬ holds other j) ∧
    (∀ j : Fin 4, ¬ holds fresh j) ∧ (fresh.panel 0).selection.walk = none ∧ (barred.panel 0).selection.walk = some ⟨2, 1, 0⟩ ∧
    (barred.dest 8).protect = some ⟨1, .app 2⟩ := by
  refine ⟨?_, by decide +kernel⟩
  intro v h
  have : v = ⟨3, 1, 0⟩ := (Option.some.inj h).symm
  subst this
  decide

theorem witness_RouterKeysPressed_others :
    let on : Selection := ⟨some (8, 1), none, false, none⟩;
    (let s := pressing .direct on .salvo Destination.reset;
      s.keyAction 0 6 = .salvo 2 ∧ s.xpe.reading = none ∧ s.xpe.fires = [] ∧ s.xpe.salvos[2] = none ∧ s.csi.copy = some copy0 ∧
      (s.setSalvo 2 (some ⟨0x2FFF0, 1⟩)).xpe.salvos[2] = some ⟨0x2FFF0, 1⟩ ∧ 0x2FFF0 + 16 * 1 = copy0.orders.base + copy0.orders.size ∧
      { s with xpe := (readingFor .orphan []).xpe }.xpe.reading ≠ none) ∧
    (∀ y ∈ [(⟨1, .panel 0⟩ : Protect), ⟨2, .app 1⟩, ⟨1, .app 1⟩], let s := pressing .direct on .protect (held y);
      s.keyAction 0 6 = .protect ∧ (s.dest 8).protect = some y ∧ (s.panel 0).level = 1) ∧
    (pressing .direct on .protect Destination.reset).dest 8 = Destination.reset ∧ Destination.reset.protect = none ∧
    (pressing .direct on .report Destination.reset).keyAction 0 6 = .report .off := by decide +kernel

theorem witness_TalkLinkAnswers :
    let s := fun (link : LinkState) (fails : Nat) => ({ live with tke := { Tke.reset with
      link := link, fails := fails, queue := [xptEntry 0 1 5, xptEntry 0 2 5], flight := some (.write (xptEntry 0 1 5)) } } : State)
    ((s .up 0).tke.flight = some (.write (xptEntry 0 1 5)) ∧ (s .up 0).tke.link = .up ∧ (s .up 0).tke.queue = [xptEntry 0 1 5, xptEntry 0 2 5]) ∧
    (s .down 0).tke.link = .down ∧ (s .up 1).tke.fails < 2 ∧ 2 ≤ (s .up 2).tke.fails ∧ live.tke.flight = none := by decide +kernel

theorem witness_TalkLinkAnswers_retry :
    let down := fun q => ({ live with tke := { Tke.reset with link := .down, queue := q } } : State);
    (down []).tke.link = .down ∧ (down []).tke.flight = none ∧ (down []).runState ≠ .halted ∧ (down []).tke.queue = [] ∧
    (down [xptEntry 0 1 5]).tke.queue = [xptEntry 0 1 5] := by decide +kernel

/-- RUNNING on a DOWN fabric link, destinations 0 to 4 REENTRY: destination `i` carries source `i` and leads on to `i + 1`, but `last` leads back to
0; destination 9 is ONAIR with source 4, and channel 6 is forced. -/
def entering (last : Fin 64) : State :=
  { live with
    xpe := { live.xpe with
      link := .down
      dests := tabulate fun d =>
        if d.1 ≤ 4 then
          { Destination.reset with
            kind := .reentry
            reentry := if d = last then some 0 else some (Fin.ofNat 128 (d.1 + 1))
            entryV := ⟨.input (Fin.ofNat 128 d.1), .known⟩ }
        else if d.1 = 9 then { Destination.reset with kind := .onair, entryV := ⟨.input 4, .known⟩ }
        else Destination.reset }
    tly := { Tly.reset with channels := upd Tly.reset.channels 6 { Channel.reset with force := some 5, mode := .triple } } }

/-- Four re-entries lead the red of source 4 to source 0 and the fifth is marked DEPTH; a chain that comes back is marked LOOP (R69). -/
theorem test_boundary_reentry :
    after (fun t => (t.tly.tally[0], (t.dest 4).depth, (t.dest 0).loop)) (.frameBoundary 0) (entering 5) = some (1, true, false) ∧
    after (fun t => ((t.dest 0).loop, (t.dest 1).depth)) (.frameBoundary 0) (entering 1) = some (true, false) := by decide +kernel

/-- What it is to carry a source. -/
theorem carries_of {s : State} {d : Fin 64} {x : Fin 128}
    (h : (s.dest d).present.getLsbD 0 = true ∧ (s.dest d).entryV.state ≠ .unknown ∧ (s.dest d).entryV.source = .input x) : s.carriesSource d x := h

theorem witness_DownBoundaryResolvesTallies_reentry :
    (entering 5).xpe.link = .down ∧ (entering 5).runState ≠ .halted ∧ (entering 5).reentryChain [0, 1, 2, 3] 0 4 ∧ (entering 5).carriesSource 9 4 ∧
    (entering 5).seeds 0 9 0 ∧ (entering 5).carriesSource 4 4 ∧ ((entering 5).dest 4).kind = .reentry ∧ ((entering 5).dest 4).reentry = some 5 ∧
    (entering 1).reentryChain [0, 1] 0 0 ∧ (entering 1).carriesSource 0 0 ∧ (entering 5).tly.channels[6].force = some 5 := by
  refine ⟨rfl, by decide +kernel, ⟨carries_of (by decide +kernel), rfl, 1, rfl, carries_of (by decide +kernel), rfl, 2, rfl,
    carries_of (by decide +kernel), rfl, 3, rfl, carries_of (by decide +kernel), rfl, 4, rfl, rfl⟩, carries_of (by decide +kernel),
    Or.inl ⟨rfl, Or.inl rfl⟩, carries_of (by decide +kernel), rfl, rfl,
    ⟨carries_of (by decide +kernel), rfl, 1, rfl, carries_of (by decide +kernel), rfl, 0, rfl, rfl⟩, carries_of (by decide +kernel), rfl⟩

theorem witness_DownBoundaryResolvesTallies_settled :
    let i : FrameInputs := { frame := 9, sample := 0, snapshot := 0 };
    let s := { entering 5 with tly := { (entering 5).tly with inputs := some i, prevLoop := 1 } };
    s.tly.inputs = some i ∧ i.frame = 9 ∧ i.frame ≠ 8 ∧ State.reset.tly.inputs = none ∧ s.csi.mirror.freeze = .live ∧ s.csi.mirror.writing = none ∧
    ({ s with csi := { s.csi with mirror := { s.csi.mirror with freeze := .frozen } } } : State).csi.mirror.freeze ≠ .live := by decide +kernel

/-- A flag that the last resolution set and this one does not, and one newly set, each make a FABRIC report (R71). -/
theorem test_settled_flags :
    let s := { entering 5 with rtu := { Rtu.reset with frame := 9 }, tly := { (entering 5).tly with inputs := some { frame := 9, sample := 0, snapshot := 0 }, prevLoop := 1 } };
    (declareSettled 9 s).csi.writeIndex = s.csi.writeIndex + 2 := by decide +kernel

theorem witness_JournalTakesReports :
    let s := fun (ri w : Byte) (gap : Nat) => ({ live with store := hostWrite [] [(0x1001C, ri)], csi := { live.csi with writeIndex := w, gap := gap } } : State);
    let unread := fun s : State => (s.csi.writeIndex - storeRead s.store (copy0.address + 0x1C)).toNat;
    State.reset.csi.copy = none ∧ (s 40 38 0).csi.copy = some copy0 ∧ (s 40 38 0).store.wf = true ∧ copy0.journal + 4096 ≤ 4194304 ∧
    copy0.address + 192 ≤ 4194304 ∧ copy0.address + 192 ≤ copy0.journal ∧
    ((s 40 38 0).csi.gap = 0 ∧ unread (s 40 38 0) = 254) ∧ (0 < (s 40 37 3).csi.gap ∧ unread (s 40 37 3) = 253) ∧
    ((s 40 39 0).csi.gap = 0 ∧ unread (s 40 39 0) = 255) ∧ (0 < (s 40 38 65535).csi.gap ∧ 254 ≤ unread (s 40 38 65535) ∧ (s 40 38 65535).csi.gap ≤ 65535) := by
  decide +kernel

end Sys2Proof.Tests
end

