-- ==== Sys2Proof/Proofs/LabelCounts.lean ====
section
/-! SUPPORT. The count of a label (R11): stated without truncated subtraction, its range, and its rise at each succession. -/

namespace Sys2Proof.Proofs.LabelCounts

open Sys2Proof.Machine

/-! ### The minutes at whose start labels are skipped -/

/-- How many of the minutes 1 to `tm` of the day are no tenth minute, so that labels are skipped at their start (R9, step 5). -/
def droppingMinutes (tm : Nat) : Nat := tm - tm / 10

/-- A minute adds itself to the count of its predecessors unless it is a tenth minute. -/
theorem droppingMinutes_succ (tm : Nat) :
    droppingMinutes (tm + 1) = droppingMinutes tm + if (tm + 1) % 10 = 0 then 0 else 1 := by
  unfold droppingMinutes
  split <;> omega

/-- Of the day's 1,439 minutes after the first, 1,296 skip labels, and those not among the first `tm` are among the other `u`. -/
theorem dayMinutes_le {tm u : Nat} (h : tm + u = 1439) : 1296 ≤ droppingMinutes tm + u := by
  unfold droppingMinutes
  omega

theorem drop_le_base (r : Rate) : r.drop ≤ r.base := by cases r <;> decide

theorem base_pos (r : Rate) : 0 < r.base := by cases r <;> decide

/-! ### The count of a label -/

/-- The count with what the skipped labels take off it put back: the non-drop count.  Later proofs use this form, in which nothing is subtracted. -/
theorem count_add_dropped (r : Rate) (l : Label) :
    l.count r + r.drop * droppingMinutes (60 * l.hh + l.mm) = r.base * (3600 * l.hh + 60 * l.mm + l.ss) + l.ff := by
  have hle : r.drop * droppingMinutes (60 * l.hh + l.mm) ≤ r.base * (3600 * l.hh + 60 * l.mm + l.ss) :=
    Nat.mul_le_mul (drop_le_base r) (by unfold droppingMinutes; omega)
  exact Nat.sub_add_cancel (hle.trans (Nat.le_add_right _ _))

/-- At a non-drop rate the count is the non-drop count (R11). -/
theorem count_of_nondrop {r : Rate} (h : r.drop = 0) (l : Label) :
    l.count r = r.base * (3600 * l.hh + 60 * l.mm + l.ss) + l.ff := by
  simpa [h] using count_add_dropped r l

/-- The count over the integers: the non-drop count minus D × (tm − ⌊tm / 10⌋) (R11). -/
theorem count_cast (r : Rate) (l : Label) :
    (l.count r : Int) = (r.base * (3600 * l.hh + 60 * l.mm + l.ss) + l.ff : Int)
      - r.drop * ((60 * l.hh + l.mm : Int) - ((60 * l.hh + l.mm) / 10 : Nat)) := by
  have hc : (l.count r : Int) + r.drop * (droppingMinutes (60 * l.hh + l.mm) : Nat) =
      r.base * (3600 * l.hh + 60 * l.mm + l.ss) + l.ff := by exact_mod_cast count_add_dropped r l
  have hm : (droppingMinutes (60 * l.hh + l.mm) : Int) = (60 * l.hh + l.mm : Int) - ((60 * l.hh + l.mm) / 10 : Nat) := by
    unfold droppingMinutes
    omega
  rw [hm] at hc
  exact eq_sub_of_add_eq hc

/-- The count of a well-formed label lies below the day frames: each of the `u` minutes after the label's own still holds more frames than it skips. -/
theorem count_lt_dayFrames {r : Rate} {l : Label} (hw : l.wellFormed r = true) : l.count r < r.dayFrames := by
  obtain ⟨hhh, hmm, hss, hff⟩ := (wellFormed_iff r l).mp hw
  obtain ⟨u, hu⟩ : ∃ u, 60 * l.hh + l.mm + u = 1439 := ⟨1439 - (60 * l.hh + l.mm), by omega⟩
  have hsec : 3600 * l.hh + 60 * l.mm + l.ss + 1 + 60 * u ≤ 86400 := by omega
  have hdrop : r.drop * 1296 ≤ r.drop * droppingMinutes (60 * l.hh + l.mm) + r.base * (60 * u) := calc
    r.drop * 1296 ≤ r.drop * (droppingMinutes (60 * l.hh + l.mm) + u) := Nat.mul_le_mul_left _ (dayMinutes_le hu)
    _ = r.drop * droppingMinutes (60 * l.hh + l.mm) + r.drop * u := Nat.mul_add _ _ _
    _ ≤ r.drop * droppingMinutes (60 * l.hh + l.mm) + r.base * (60 * u) :=
      Nat.add_le_add_left (Nat.mul_le_mul (drop_le_base r) (by omega)) _
  refine Nat.lt_sub_of_add_lt ?_
  calc l.count r + r.drop * 1296
      ≤ l.count r + r.drop * droppingMinutes (60 * l.hh + l.mm) + r.base * (60 * u) := by omega
    _ = r.base * (3600 * l.hh + 60 * l.mm + l.ss) + l.ff + r.base * (60 * u) := by rw [count_add_dropped]
    _ < r.base * (3600 * l.hh + 60 * l.mm + l.ss + 1 + 60 * u) := by linarith
    _ ≤ 86400 * r.base := by rw [Nat.mul_comm 86400]; exact Nat.mul_le_mul_left _ hsec

/-! ### Succession -/

/-- What succession does to a label that is not the last of the day: a frame, a second or a minute begins (R9). -/
theorem successor_cases {r : Rate} {l : Label} (hw : l.wellFormed r = true) (hlast : l ≠ ⟨23, 59, 59, r.base - 1⟩) :
    successor r l = { l with ff := l.ff + 1 } ∨
    (l.ff + 1 = r.base ∧ successor r l = { l with ss := l.ss + 1, ff := 0 }) ∨
    (l.ff + 1 = r.base ∧ l.ss = 59 ∧
      ∃ hh mm, 60 * hh + mm = 60 * l.hh + l.mm + 1 ∧ successor r l = minuteStart r hh mm) := by
  obtain ⟨hhh, hmm, hss, hff⟩ := (wellFormed_iff r l).mp hw
  unfold successor
  split_ifs with h1 h2 h3 h4
  · exact .inl rfl
  · exact .inr (.inl ⟨by omega, rfl⟩)
  · exact .inr (.inr ⟨by omega, by omega, l.hh, l.mm + 1, by omega, rfl⟩)
  · exact .inr (.inr ⟨by omega, by omega, l.hh + 1, 0, by omega, rfl⟩)
  · exact absurd (show (⟨l.hh, l.mm, l.ss, l.ff⟩ : Label) = _ by congr <;> omega) hlast

/-- The last label of the day is followed by the first (R9). -/
theorem successor_lastOfDay (r : Rate) : successor r ⟨23, 59, 59, r.base - 1⟩ = ⟨0, 0, 0, 0⟩ := by
  simp [successor, minuteStart, Nat.sub_add_cancel (base_pos r)]

/-- The first label of a minute has as many frames before it as the minutes before it hold: what the minute skips at its start is made up for by the frame
number it starts with. -/
theorem count_minuteStart {r : Rate} {hh mm tm : Nat} (h : 60 * hh + mm = tm + 1) :
    (minuteStart r hh mm).count r + r.drop * droppingMinutes tm = r.base * (60 * (tm + 1)) := by
  have hc := count_add_dropped r (minuteStart r hh mm)
  have hsec : 3600 * hh + 60 * mm = 60 * (tm + 1) := by omega
  have htenth : mm % 10 = 0 ↔ (tm + 1) % 10 = 0 := by omega
  simp only [minuteStart, h, hsec, htenth, droppingMinutes_succ, Nat.add_zero] at hc ⊢
  split_ifs at hc ⊢ <;> simp only [Nat.mul_add, Nat.mul_zero, Nat.mul_one] at hc ⊢ <;> omega

/-- Succession raises the count by exactly one, except at the last label of the day (R11). -/
theorem count_successor {r : Rate} {l : Label} (hw : l.wellFormed r = true) (hlast : l ≠ ⟨23, 59, 59, r.base - 1⟩) :
    (successor r l).count r = l.count r + 1 := by
  have hl := count_add_dropped r l
  rcases successor_cases hw hlast with hs | ⟨hff, hs⟩ | ⟨hff, hss, hh, mm, htm, hs⟩
  · have hn := count_add_dropped r { l with ff := l.ff + 1 }
    rw [hs]
    dsimp only at hn
    omega
  · have hn := count_add_dropped r { l with ss := l.ss + 1, ff := 0 }
    rw [hs]
    dsimp only at hn
    rw [← Nat.add_assoc, Nat.mul_succ] at hn
    omega
  · have hn := count_minuteStart (r := r) htm
    have hend : 3600 * l.hh + 60 * l.mm + l.ss + 1 = 60 * (60 * l.hh + l.mm + 1) := by omega
    rw [← hend, Nat.mul_succ] at hn
    rw [hs]
    omega

/-! ### The statement -/

/-- Settles O23: the day frames are evaluated, and the rest is R11's formula, range and succession from the lemmas above. -/
theorem labelCounts : Obligations.LabelCounts := by
  unfold Obligations.LabelCounts
  refine ⟨by decide, fun r l hw _ => ⟨fun h => count_of_nondrop h l, fun _ => count_cast r l, count_lt_dayFrames hw, count_successor hw, ?_⟩⟩
  rintro rfl
  rw [successor_lastOfDay]
  simp [Label.count]

end Sys2Proof.Proofs.LabelCounts
end

