-- ==== Sys2Proof/Proofs/TalkKeyMoves.lean ====
section
/-! SUPPORT. The events of one TALK key in a reply (R93, R94): what the taking of a reply does around its events, what one event does, and the whole run. -/

namespace Sys2Proof.Proofs.TalkKeyMoves

open Sys2Proof.Machine

/-! ### What decides how a talk key event is taken -/

/-- `t` agrees with `s` on all that decides how a talk key event is taken (R93, R94) but the states of the keys. -/
structure TakesAs (t s : State) : Prop where
  runState : t.runState = s.runState
  rtu      : t.rtu = s.rtu
  ports    : t.tke.ports = s.tke.ports
  state    : ∀ q, (t.panel q).state = (s.panel q).state
  map      : ∀ q, (t.panel q).map = (s.panel q).map
  station  : ∀ q, (t.panel q).station = (s.panel q).station

theorem TakesAs.trans {u t s : State} (h : TakesAs u t) (g : TakesAs t s) : TakesAs u s where
  runState := h.runState.trans g.runState
  rtu := h.rtu.trans g.rtu
  ports := h.ports.trans g.ports
  state q := (h.state q).trans (g.state q)
  map q := (h.map q).trans (g.map q)
  station q := (h.station q).trans (g.station q)

theorem TakesAs.keyAction {t s : State} (h : TakesAs t s) (p : Fin 24) (k : Fin 48) : t.keyAction p k = s.keyAction p k := by
  simp only [State.keyAction, h.map]

theorem TakesAs.usableStation {t s : State} (h : TakesAs t s) (p : Fin 24) : t.usableStation p = s.usableStation p := by
  simp only [State.usableStation, h.station, h.ports]

/-- The derived sets and the target table stand as long as the TKE, the maps and the station ports do. -/
theorem talkDerived_of_takesAs {t s : State} (h : TakesAs t s) (htke : t.tke = s.tke) (hs : s.talkDerived) : t.talkDerived := by
  have htalks : ∀ p k a, t.keyTalks p k a ↔ s.keyTalks p k a := fun p k a => by
    simp only [State.keyTalks, h.station, keyState_of_keys (congrArg Tke.keys htke)]
  have hreaches : ∀ p k b, t.keyReaches p k b ↔ s.keyReaches p k b := fun p k b => by
    simp only [State.keyReaches, h.map, htke]
  have hstands : ∀ a b, t.pathStands a b ↔ s.pathStands a b := fun a b => by
    simp only [State.pathStands, htalks, hreaches, htke]
  simpa only [State.talkDerived, htalks, hreaches, hstands, htke, h.map] using hs

/-! ### A reply without its events (R130) -/

/-- The state in which the events of a taken reply are dealt with: the poll has ended, and the panel's count, bit, lamp set and full-image flag have
followed. -/
def pollOver (link : Fin 4) (p : Fin 24) (full : Bool) (carried : List (Fin 48 × Lamp)) (s : State) : State :=
  (endMessage link s).setPanel p (((endMessage link s).panel p).confirmed full carried)

theorem pollOver_xpe_tly_tke (link : Fin 4) (p : Fin 24) (full : Bool) (carried : List (Fin 48 × Lamp)) (s : State) :
    (pollOver link p full carried s).xpe = s.xpe ∧ (pollOver link p full carried s).tly = s.tly ∧ (pollOver link p full carried s).tke = s.tke := by
  simp [pollOver]

theorem pollOver_takesAs (link : Fin 4) (p : Fin 24) (full : Bool) (carried : List (Fin 48 × Lamp)) (s : State) :
    TakesAs (pollOver link p full carried s) s := by
  have hpanel : ∀ q, (pollOver link p full carried s).panel q = if p = q then (s.panel p).confirmed full carried else s.panel q :=
    fun q => setPanel_panel _ p q _
  refine ⟨by simp [pollOver], by simp [pollOver], by simp [pollOver], fun q => ?_, fun q => ?_, fun q => ?_⟩
  all_goals
    rw [hpanel]
    split
    · next h => rw [← h]; rfl
    · rfl

/-- The next message of a link changes of a panel record no more than that its probe is due no longer. -/
theorem serveLink_panel (link : Fin 4) (s : State) (q : Fin 24) : ∃ due, (serveLink link s).panel q = { s.panel q with probeDue := due } := by
  unfold serveLink
  split
  · split
    · next p _ =>
      rw [setLink_panel, setPanel_panel]
      split
      · next h => exact ⟨false, by rw [h]⟩
      · exact ⟨_, rfl⟩
    · split <;> exact ⟨_, rfl⟩
  · exact ⟨_, rfl⟩

theorem serveLink_takesAs (link : Fin 4) (s : State) : TakesAs (serveLink link s) s := by
  refine ⟨by simp, by simp, by simp, fun q => ?_, fun q => ?_, fun q => ?_⟩
  all_goals
    obtain ⟨due, h⟩ := serveLink_panel link s q
    rw [h]

/-- The events of one key, of a panel's reply to a poll that does not identify it. -/
def keyReply (p : Fin 24) (k : Fin 48) (b : Bool) (events : List Bool) : PanelReply :=
  { address := addressOf p, echo := b, code := none, events := events.map fun press => { key := BitVec.ofNat 8 k.1, press := press } }

theorem eventKeys_one (k : Fin 48) (events : List Bool) :
    eventKeys (events.map fun press => { key := BitVec.ofNat 8 k.1, press := press }) = some (events.map fun press => (k, press)) := by
  have hk : (BitVec.ofNat 8 k.1).toNat = k.1 := by
    rw [BitVec.toNat_ofNat]
    omega
  induction events with
  | nil => rfl
  | cons press events ih => simp only [List.map_cons, eventKeys, ih, finOf_eq k hk]

/-- A reply of up to eight events of one key is taken: its events are dealt with in order between the poll's end and the link's next message. -/
theorem exec_keyReply {s : State} {link : Fin 4} {p : Fin 24} {b full : Bool} {carried : List (Fin 48 × Lamp)}
    (hout : s.pnc.links[link].out = some (.poll p false b full carried)) (k : Fin 48) {events : List Bool} (hlen : events.length ≤ 8) :
    exec (.reply link (keyReply p k b events)) s =
      .next (serveLink link (events.foldl (fun s press => keyEvent false p k press s) (pollOver link p full carried s))) := by
  have hanswers : s.answeredPoll link (keyReply p k b events) = some (p, false, full, carried, events.map fun press => (k, press)) := by
    rw [State.answeredPoll, hout]
    simp [keyReply, hlen, eventKeys_one]
  change Host.Outcome.next (receiveReply link (keyReply p k b events) s) = _
  simp only [receiveReply, hanswers, takeReply, List.foldl_map, Bool.false_eq_true, if_false]
  rfl

/-! ### One event of a talk key (R93, R94) -/

/-- Moving a key moves no other key. -/
theorem setKey_keyState (p q : Fin 24) (k j : Fin 48) (st : KeyState) (s : State) :
    (setKey p k st s).keyState q j = if (q, j) = (p, k) then st else s.keyState q j := by
  unfold setKey
  split
  · next h =>
    split
    · next he => obtain ⟨rfl, rfl⟩ := Prod.mk.inj he; exact h
    · rfl
  · rw [derivation_keyState]
    by_cases hp : p = q
    · subst hp
      by_cases hk : k = j
      · simp [State.keyState, hk]
      · simp [State.keyState, upd_other _ _ hk, Ne.symm hk]
    · simp [State.keyState, upd_other _ _ hp, Ne.symm hp]

theorem setKey_takesAs (p : Fin 24) (k : Fin 48) (st : KeyState) (s : State) : TakesAs (setKey p k st s) s := by
  have hstill : ∀ q, ((setKey p k st s).panel q).still = (s.panel q).still := fun q => by
    unfold setKey
    split
    · rfl
    · rw [derivation_still]; rfl
  refine ⟨by simp, by simp, ?_, fun q => ?_, fun q => map_of_still (hstill q), fun q => station_of_still (hstill q)⟩
  · unfold setKey
    split <;> simp
  · exact (congrArg Panel.state (hstill q) : ((setKey p k st s).panel q).still.state = (s.panel q).still.state)

/-- A key that moves has its derivation (R103). -/
theorem setKey_derived {p : Fin 24} {k : Fin 48} {st : KeyState} {s : State} (h : s.keyState p k ≠ st) : (setKey p k st s).talkDerived := by
  rw [setKey, if_neg h]
  exact derivation_derived _

/-- An admitted press or release moves its key by the table. -/
theorem talkEvent_admitted {s : State} {p : Fin 24} {k : Fin 48} {press : Bool}
    (h : s.usableStation p = true ∨ press = false ∨ s.keyState p k ≠ .idle) (mode : TalkMode) :
    talkEvent p k mode press s = setKey p k (keyMove mode s.rtu.frame press (s.keyState p k)) s := by
  rw [talkEvent, if_neg]
  rintro ⟨hpress, hidle, hstation⟩
  simp [hpress, hidle, hstation] at h

/-- A press in IDLE without a usable station port is refused. -/
theorem talkEvent_refused {s : State} {p : Fin 24} {k : Fin 48} (hstation : s.usableStation p = false) (hidle : s.keyState p k = .idle)
    (mode : TalkMode) : talkEvent p k mode true s = refuseKey p k .refusedArg s := by
  rw [talkEvent, if_pos ⟨rfl, hidle, hstation⟩]

/-- Every event of a talk key is admitted, or is a press in IDLE that is refused. -/
theorem admitted_or_refused (s : State) (p : Fin 24) (k : Fin 48) (press : Bool) :
    (s.usableStation p = true ∨ press = false ∨ s.keyState p k ≠ .idle) ∨
    (s.usableStation p = false ∧ press = true ∧ s.keyState p k = .idle) := by
  by_cases hidle : s.keyState p k = .idle <;> cases s.usableStation p <;> cases press <;> simp [hidle]

theorem refuseKey_keyState (p q : Fin 24) (k j : Fin 48) (c : Code) (s : State) : (refuseKey p k c s).keyState q j = s.keyState q j :=
  keyState_of_keys (by simp) q j

/-- A refused key's timer is set and its lamp flashes (R141). -/
theorem refuseKey_flashes (p : Fin 24) (k : Fin 48) (c : Code) (s : State) :
    ((refuseKey p k c s).panel p).timers[k] = 16 ∧ ((refuseKey p k c s).panel p).image[k] = .flash := by
  rw [refuseKey_panel, if_pos rfl]
  simp [Panel.withImage, State.relit, State.lampOf]

/-- An event of a talk key moves no other key. -/
theorem talkEvent_other {p q : Fin 24} {k j : Fin 48} (h : (q, j) ≠ (p, k)) (mode : TalkMode) (press : Bool) (s : State) :
    (talkEvent p k mode press s).keyState q j = s.keyState q j := by
  rcases admitted_or_refused s p k press with ha | ⟨hstation, rfl, hidle⟩
  · rw [talkEvent_admitted ha, setKey_keyState, if_neg h]
  · rw [talkEvent_refused hstation hidle, refuseKey_keyState]

/-- An event that moves its talk key has its derivation (R103). -/
theorem talkEvent_derived {p : Fin 24} {k : Fin 48} {mode : TalkMode} {press : Bool} {s : State}
    (h : (talkEvent p k mode press s).keyState p k ≠ s.keyState p k) : (talkEvent p k mode press s).talkDerived := by
  rcases admitted_or_refused s p k press with ha | ⟨hstation, rfl, hidle⟩
  · rw [talkEvent_admitted ha, setKey_keyState, if_pos rfl] at h
    rw [talkEvent_admitted ha]
    exact setKey_derived h.symm
  · rw [talkEvent_refused hstation hidle, refuseKey_keyState] at h
    exact absurd rfl h

/-! ### The events of a reply, in order (R131) -/

/-- The panel is ONLINE, the engine in SWEEP or RUNNING, and the key a TALK key. -/
structure TakesKey (p : Fin 24) (k : Fin 48) (target : TalkTarget) (mode : TalkMode) (gain : Int) (s : State) : Prop where
  online  : (s.panel p).state = .online
  serving : s.runState = .sweep ∨ s.runState = .running
  action  : s.keyAction p k = .talk target mode gain

section Events

variable {p : Fin 24} {k : Fin 48} {target : TalkTarget} {mode : TalkMode} {gain : Int} {s : State}

theorem TakesKey.of_takesAs {t : State} (h : TakesAs t s) (hs : TakesKey p k target mode gain s) : TakesKey p k target mode gain t where
  online := (h.state p).trans hs.online
  serving := by rw [h.runState]; exact hs.serving
  action := (h.keyAction p k).trans hs.action

/-- An event of a key that is taken is an event of its talk key. -/
theorem keyEvent_talk (h : TakesKey p k target mode gain s) (ahead press : Bool) : keyEvent ahead p k press s = talkEvent p k mode press s := by
  rw [keyEvent, if_pos ⟨h.online, (serving_iff s).mpr h.serving⟩]
  cases press
  · simp [keyRelease, h.action]
  · simp [keyPress, h.action]

/-- With a usable station port, the events of a talk key move it by the table one after the other, and no other key. -/
theorem keyEvents_keyState (ahead : Bool) (events : List Bool) (h : TakesKey p k target mode gain s) (hstation : s.usableStation p = true) :
    let t := events.foldl (fun s press => keyEvent ahead p k press s) s
    t.keyState p k = events.foldl (fun x press => keyMove mode s.rtu.frame press x) (s.keyState p k) ∧
    ∀ q j, (q, j) ≠ (p, k) → t.keyState q j = s.keyState q j := by
  induction events generalizing s with
  | nil => exact ⟨rfl, fun _ _ _ => rfl⟩
  | cons press events ih =>
    have hmove : keyEvent ahead p k press s = setKey p k (keyMove mode s.rtu.frame press (s.keyState p k)) s :=
      (keyEvent_talk h ahead press).trans (talkEvent_admitted (.inl hstation) mode)
    have hsame := setKey_takesAs p k (keyMove mode s.rtu.frame press (s.keyState p k)) s
    obtain ⟨hown, hother⟩ := ih (h.of_takesAs hsame) ((hsame.usableStation p).trans hstation)
    rw [setKey_keyState, if_pos rfl, hsame.rtu] at hown
    simp only [List.foldl_cons, hmove]
    refine ⟨hown, fun q j hne => ?_⟩
    rw [hother q j hne, setKey_keyState, if_neg hne]

end Events

/-! ### The statement -/

/-- Settles O56: between the poll's end and the link's next message, which move no key, the events are taken in order; each is admitted and moves its key
by the table, or is the refused press. -/
theorem talkKeyMoves : Obligations.TalkKeyMoves := by
  unfold Obligations.TalkKeyMoves
  intro s link p k b full press carried target mode gain hout honline hserving haction moves
  have hmoves : (fun x press => keyMove mode s.rtu.frame press x) = moves := by
    funext x press
    cases x <;> cases press <;> rfl
  have hover : TakesAs (pollOver link p full carried s) s := pollOver_takesAs link p full carried s
  obtain ⟨hxpe, htly, htke⟩ := pollOver_xpe_tly_tke link p full carried s
  have hkeys : ∀ q j, (pollOver link p full carried s).keyState q j = s.keyState q j := keyState_of_keys (congrArg Tke.keys htke)
  have htakes : TakesKey p k target mode gain (pollOver link p full carried s) := .of_takesAs hover ⟨honline, hserving, haction⟩
  have hserve : ∀ u q j, (serveLink link u).keyState q j = u.keyState q j := fun u => keyState_of_keys (by simp)
  refine ⟨fun events hlen hstation => ⟨_, exec_keyReply hout k hlen, ?_⟩, _, exec_keyReply hout k (events := [press]) (by simp), ?_⟩
  · have hall := keyEvents_keyState false events htakes ((hover.usableStation p).trans hstation)
    simpa only [hserve, hkeys, hover.rtu, hmoves] using hall
  · rw [List.foldl_cons, List.foldl_nil, keyEvent_talk htakes]
    simp only [hserve]
    refine ⟨fun o j hne => (talkEvent_other hne mode press _).trans (hkeys o j), fun hadmitted => ?_, fun hmoved => ?_, ?_, ?_⟩
    · rw [← hover.usableStation, ← hkeys] at hadmitted
      rw [talkEvent_admitted hadmitted, setKey_keyState, if_pos rfl, hkeys, hover.rtu, ← hmoves]
    · rw [← hkeys] at hmoved
      exact talkDerived_of_takesAs (serveLink_takesAs link _) (by simp) (talkEvent_derived hmoved)
    · rintro hstation rfl hidle
      rw [← hover.usableStation] at hstation
      rw [← hkeys] at hidle
      obtain ⟨due, hpanel⟩ := serveLink_panel link (talkEvent p k mode true (pollOver link p full carried s)) p
      rw [hpanel, talkEvent_refused hstation hidle, refuseKey_keyState]
      exact ⟨hidle, refuseKey_flashes p k .refusedArg _⟩
    · simp [hxpe, htly, hover.rtu, hover.runState]

end Sys2Proof.Proofs.TalkKeyMoves
end

