-- ==== Sys2Proof/Proofs/Kept.lean ====
section
/-! SUPPORT. What it is for one state to keep the invariants that another has, and a lemma for each block: a change of that block alone keeps the
invariants when it keeps the block's own. -/

namespace Sys2Proof.Proofs.Kept

open Sys2Proof.Machine

/-! ### The relation -/

/-- From `s` to `t` every invariant of the model is kept but that of the panels' talk keys and presets, which a panel that leaves ONLINE breaks for a moment. -/
structure KeepsRest (s t : State) : Prop where
  store : s.storeSound → t.storeSound
  labels : s.labelsSound → t.labelsSound
  monitor : s.monitorSound → t.monitorSound
  takes : s.queueSound → s.armedSound → t.queueSound ∧ t.armedSound
  fabric : s.fabricSound → t.fabricSound
  masters : s.mastersSound → t.mastersSound
  coefficients : s.coefficientsSound → t.coefficientsSound
  ifbs : s.ifbsSound → t.ifbsSound
  ranges : s.rangesSound → t.rangesSound
  lamps : s.lampsSound → t.lampsSound
  posts : s.postsSound → t.postsSound
  gap : s.gapSound → t.gapSound
  freeze : s.freezeSound → t.freezeSound

/-- From `s` to `t` every invariant of the model is kept.  The relation composes, so what an operation keeps follows from its parts. -/
structure Keeps (s t : State) : Prop extends KeepsRest s t where
  panels : s.panelsSound → t.panelsSound

theorem KeepsRest.refl (s : State) : KeepsRest s s := ⟨id, id, id, .intro, id, id, id, id, id, id, id, id, id⟩

@[refl] theorem Keeps.refl (s : State) : Keeps s s := ⟨.refl s, id⟩

theorem KeepsRest.trans {s t u : State} (h : KeepsRest s t) (k : KeepsRest t u) : KeepsRest s u :=
  ⟨k.store ∘ h.store, k.labels ∘ h.labels, k.monitor ∘ h.monitor, fun hq ha => (h.takes hq ha).elim k.takes, k.fabric ∘ h.fabric,
    k.masters ∘ h.masters, k.coefficients ∘ h.coefficients, k.ifbs ∘ h.ifbs, k.ranges ∘ h.ranges, k.lamps ∘ h.lamps, k.posts ∘ h.posts,
    k.gap ∘ h.gap, k.freeze ∘ h.freeze⟩

theorem Keeps.trans {s t u : State} (h : Keeps s t) (k : Keeps t u) : Keeps s u :=
  ⟨h.toKeepsRest.trans k.toKeepsRest, k.panels ∘ h.panels⟩

/-- A fold keeps the invariants when each of its steps does. -/
theorem foldl_keeps_invariants {α : Type} {f : State → α → State} (h : ∀ s a, Keeps s (f s a)) (l : List α) (s : State) :
    Keeps s (l.foldl f s) :=
  foldl_invariant (Keeps s) f (fun b a hb => hb.trans (h b a)) l s (.refl s)

/-- Doing something for every panel keeps the invariants when it keeps them for each. -/
theorem forPanels_kept {f : Fin 24 → State → State} (h : ∀ p s, Keeps s (f p s)) (s : State) : Keeps s (forPanels f s) :=
  foldl_keeps_invariants (fun s p => h p s) _ s

/-! ### A change of one block -/

section Blocks
variable (s : State)

/-- The common store, the list of replaced bytes and the count of free values. -/
theorem Keeps.ofStore (m : Memory) (r : List Host.Cell) (n : Nat) (h : s.storeSound → m.wf = true) :
    Keeps s { s with store := m, replaced := r, freeCount := n } := { Keeps.refl s with store := h }

/-- The journal's own fields of the CSI: nothing but the gap count and its flag is in an invariant. -/
theorem Keeps.ofJournal (w : BitVec 8) (n : Nat) (sat : Bool) (x : BitVec 5)
    (h : s.gapSound → n ≤ 65535 ∧ (sat = true → n = 65535)) :
    Keeps s { s with csi := { s.csi with writeIndex := w, gap := n, saturated := sat, notice := x } } :=
  { Keeps.refl s with gap := h }

/-- The post queue and the running strip. -/
theorem Keeps.ofPosts (ps : List Posted) (r : Option Running)
    (h : s.postsSound → (ps.map fun p => p.slot).Nodup ∧ ∀ x, r = some x → ∀ p ∈ ps, p.slot ≠ x.slot.slot) :
    Keeps s { s with csi := { s.csi with posts := ps, running := r } } := { Keeps.refl s with posts := h }

/-- The ANCHOR register and the anchor copy. -/
theorem Keeps.ofAnchor (a : BitVec 22) (c : Option AnchorCopy) : Keeps s { s with csi := { s.csi with anchor := a, copy := c } } :=
  { Keeps.refl s with store := id }

/-- The mirror writer and CONTROL. -/
theorem Keeps.ofMirror (m : Mirror) (c : Control)
    (h : s.freezeSound → (m.freeze ≠ .live → c.freeze = true) ∧ (m.freeze = .freezing → m.writing ≠ none)) :
    Keeps s { s with control := c, csi := { s.csi with mirror := m } } := { Keeps.refl s with freeze := h }

/-- The RTU. -/
theorem Keeps.ofRtu (r : Rtu) (hl : s.labelsSound → (s.setRtu r).labelsSound) (hm : s.monitorSound → (s.setRtu r).monitorSound) :
    Keeps s (s.setRtu r) := { Keeps.refl s with labels := hl, monitor := hm }

/-- The XPE and the run state. -/
theorem Keeps.ofXpe (x : Xpe) (r : RunState)
    (ht : s.queueSound → s.armedSound → { s with xpe := x, runState := r }.queueSound ∧ { s with xpe := x, runState := r }.armedSound)
    (hf : s.fabricSound → { s with xpe := x, runState := r }.fabricSound) :
    Keeps s { s with xpe := x, runState := r } := { Keeps.refl s with takes := ht, fabric := hf }

/-- The TLY, but for the masters of its channels. -/
theorem Keeps.ofTly (x : Tly) (h : s.mastersSound → { s with tly := x }.mastersSound) : Keeps s { s with tly := x } :=
  { Keeps.refl s with masters := h }

/-- The TKE. -/
theorem Keeps.ofTke (x : Tke) (hi : s.ifbsSound → { s with tke := x }.ifbsSound) (hr : s.rangesSound → { s with tke := x }.rangesSound)
    (hc : s.coefficientsSound → { s with tke := x }.coefficientsSound) (hp : s.panelsSound → { s with tke := x }.panelsSound) :
    Keeps s { s with tke := x } :=
  { Keeps.refl s with ifbs := hi, ranges := hr, coefficients := hc, panels := hp }

/-- The PNC. -/
theorem Keeps.ofPnc (x : Pnc) (hr : s.rangesSound → { s with pnc := x }.rangesSound) (hp : s.panelsSound → { s with pnc := x }.panelsSound)
    (hl : s.lampsSound → { s with pnc := x }.lampsSound) : Keeps s { s with pnc := x } :=
  { Keeps.refl s with ranges := hr, panels := hp, lamps := hl }

/-- The queue of waiting commands. -/
theorem Keeps.ofPending (q : List Instr) : Keeps s { s with pending := q } :=
  { Keeps.refl s with store := id }

end Blocks

/-! ### Store, journal and notices -/

theorem withWrites_kept (w : List Host.Cell) (s : State) : Keeps s (s.withWrites w) :=
  .ofStore s _ _ _ (hostWrite_wf w s.store)

theorem put_kept (a : Nat) (bs : List Byte) (s : State) : Keeps s (s.put a bs) :=
  .ofStore s _ _ _ (storeWrites_wf bs s.store a)

theorem readOver_kept (s : State) : Keeps s s.readOver := .ofStore s _ _ _ id

/-- One more free value is used. -/
theorem freeCount_kept (n : Nat) (s : State) : Keeps s { s with freeCount := n } := .ofStore s _ _ _ id

theorem raise_kept (n : Notice) (s : State) : Keeps s (raise n s) := .ofJournal s _ _ _ _ id

theorem putRecord_kept (c : AnchorCopy) (rec : List Byte) (s : State) : Keeps s (putRecord c rec s) := by
  have hwrite := Keeps.ofStore s (storeWrite (storeWrites s.store (c.journal + 16 * s.csi.writeIndex.toNat) rec) (c.address + 0x1E)
    (s.csi.writeIndex + 1)) s.replaced s.freeCount fun h => storeWrite_wf _ _ (storeWrites_wf _ _ _ h)
  have hindex := hwrite.trans (.ofJournal _ (s.csi.writeIndex + 1) s.csi.gap s.csi.saturated s.csi.notice id)
  unfold putRecord
  dsimp only
  split
  · exact hindex.trans (raise_kept _ _)
  · exact hindex

theorem setGap_kept (c : AnchorCopy) (n : Nat) (sat : Bool) (s : State) (h : s.gapSound → n ≤ 65535 ∧ (sat = true → n = 65535)) :
    Keeps s (setGap c n sat s) :=
  (put_kept (c.address + 0x20) (le16 n) s).trans (.ofJournal _ s.csi.writeIndex n sat s.csi.notice h)

theorem report_kept (r : Report) (f : FrameIndex) (l : Label) (s : State) : Keeps s (report r f l s) := by
  unfold report
  split
  · exact .refl s
  · split
    · exact putRecord_kept _ _ s
    · split
      · refine .trans ?_ (putRecord_kept _ _ _)
        refine .trans ?_ (setGap_kept _ _ _ _ fun _ => by simp)
        exact putRecord_kept _ _ s
      · split
        · rename_i hlt
          refine setGap_kept _ _ _ _ fun h => ⟨hlt, fun hs => ?_⟩
          exact absurd (h.2 hs) (by omega)
        · rename_i hge
          exact setGap_kept _ _ _ _ fun h => ⟨h.1, fun _ => Nat.le_antisymm h.1 (by omega)⟩

theorem reportNow_kept (r : Report) (s : State) : Keeps s (reportNow r s) := report_kept _ _ _ _

end Sys2Proof.Proofs.Kept
end

