-- ==== Sys2Proof/Proofs/KeptTalk.lean ====
section
/-! SUPPORT. The talk engine, lamps, selections and refusals keep the invariants. -/

namespace Sys2Proof.Proofs.Kept

open Sys2Proof.Machine

/-! ### The coefficient queue -/

/-- Every key of the coefficient queue. -/
def allTalkKeys : List TalkKey := (allXpts.map fun x => .xpt x.1 x.2) ++ (List.finRange 8).map .feed

theorem mem_allTalkKeys (k : TalkKey) : k ∈ allTalkKeys := by
  cases k <;> simp [allTalkKeys, allXpts]

theorem allTalkKeys_length : allTalkKeys.length = 1032 := by
  simp [allTalkKeys, allXpts]

/-- A queue that names no key twice is within its bound: there are only 1,032 keys. -/
theorem coefficientsSound_iff (s : State) : s.coefficientsSound ↔ (s.tke.queue.map fun e => e.key).Nodup := by
  refine ⟨And.left, fun h => ⟨h, ?_⟩⟩
  have hle := (h.subperm (fun k _ => mem_allTalkKeys k)).length_le
  rwa [List.length_map, allTalkKeys_length] at hle

/-- Entering a key gives its entry a value in place, or adds a key that the queue does not name. -/
theorem enterKey_nodup (q : List TalkEntry) (e : TalkEntry) (h : (q.map fun x => x.key).Nodup) :
    ((enterKey q e).map fun x => x.key).Nodup := by
  unfold enterKey
  split
  · rw [List.map_map]
    have hsame : ((fun x : TalkEntry => x.key) ∘ fun x => if x.key = e.key then e else x) = fun x => x.key := by
      funext x
      simp only [Function.comp]
      split
      · exact Eq.symm ‹_›
      · rfl
    rwa [hsame]
  · rename_i hnew
    simp only [List.any_eq_true, decide_eq_true_eq, not_exists, not_and] at hnew
    rw [List.map_append, List.nodup_append]
    refine ⟨h, by simp, ?_⟩
    simp only [List.map_cons, List.map_nil, List.mem_singleton, List.mem_map]
    rintro _ ⟨x, hx, rfl⟩ _ rfl
    exact hnew x hx

theorem enterKeys_nodup (es q : List TalkEntry) (h : (q.map fun x => x.key).Nodup) :
    ((es.foldl enterKey q).map fun x => x.key).Nodup :=
  foldl_invariant (fun q : List TalkEntry => (q.map fun x => x.key).Nodup) enterKey (fun q e hq => enterKey_nodup q e hq) es q h

/-! ### The talk engine -/

/-- A change of the TKE that leaves ports, IFB records and keys, and a coefficient queue without a key twice. -/
theorem tkeQueue_kept {s : State} (x : Tke) (hp : x.ports = s.tke.ports) (hi : x.ifbs = s.tke.ifbs) (hk : x.keys = s.tke.keys)
    (hq : (s.tke.queue.map fun e => e.key).Nodup → (x.queue.map fun e => e.key).Nodup) : Keeps s { s with tke := x } :=
  .ofTke s x (by simp only [State.ifbsSound, hp, hi, imp_self]) (by simp only [State.rangesSound, State.panel, hp, imp_self])
    (fun h => (coefficientsSound_iff _).mpr (hq h.1)) (by simp only [State.panelsSound, State.panel, State.keyState, hk, imp_self])

theorem deriveSets_kept (s : State) : Keeps s (deriveSets s) := tkeQueue_kept _ rfl rfl rfl id

theorem enterXpts_kept (s : State) : Keeps s (enterXpts s) := tkeQueue_kept _ rfl rfl rfl (enterKeys_nodup _ _)

theorem enterFeeds_kept (which : Fin 8 → Bool) (s : State) : Keeps s (enterFeeds which s) :=
  tkeQueue_kept _ rfl rfl rfl (enterKeys_nodup _ _)

theorem retarget_kept (s : State) : Keeps s (retarget s) := tkeQueue_kept _ rfl rfl rfl id

/-- Keys that enter the coefficient queue. -/
theorem enterKeys_kept (es : List TalkEntry) (s : State) : Keeps s { s with tke := { s.tke with queue := es.foldl enterKey s.tke.queue } } :=
  tkeQueue_kept _ rfl rfl rfl (enterKeys_nodup es _)

theorem fullRefresh_kept (s : State) : Keeps s (fullRefresh s) := enterKeys_kept _ s

theorem talkSend_kept (s : State) : Keeps s (talkSend s) := by
  unfold talkSend
  split
  · exact .refl s
  · split
    · exact tkeQueue_kept _ rfl rfl rfl id
    · exact .refl s

theorem talkRetry_kept (s : State) : Keeps s (talkRetry s) := by
  unfold talkRetry
  split
  · exact tkeQueue_kept _ rfl rfl rfl id
  · exact .refl s

/-- A change of the IFB records. -/
theorem ifbs_kept {s : State} (v : Vector Ifb 8)
    (h : s.ifbsSound → (∀ (i : Fin 8) (p : Fin 32), v[i].port = some p → s.tke.ports[p].kind = .ifb) ∧
      ∀ (i j : Fin 8) (p : Fin 32), v[i].port = some p → v[j].port = some p → i = j) :
    Keeps s { s with tke := { s.tke with ifbs := v } } := .ofTke s _ h id id id

/-- A change of the talk ports. -/
theorem ports_kept {s : State} (v : Vector Port 32)
    (hi : s.ifbsSound → ∀ (i : Fin 8) (p : Fin 32), s.tke.ifbs[i].port = some p → v[p].kind = .ifb)
    (hr : s.rangesSound → ∀ p : Fin 32, (-24 ≤ v[p].outTrim ∧ v[p].outTrim ≤ 24) ∧ (-60 ≤ v[p].inTrim ∧ v[p].inTrim ≤ 24) ∧
      (0 ≤ v[p].dim ∧ v[p].dim ≤ 60)) :
    Keeps s { s with tke := { s.tke with ports := v } } :=
  .ofTke s _ (fun h => ⟨hi h, h.2⟩) (fun h => ⟨hr h, h.2⟩) id id

theorem evaluateSelectors_kept (s : State) : Keeps s (evaluateSelectors s) := by
  refine .trans ?_ (talkSend_kept _)
  refine .trans ?_ (enterFeeds_kept _ _)
  have hport : ∀ i : Fin 8, (tabulate fun i => if s.tke.ifbs[i].port.isSome then
      { s.tke.ifbs[i] with selector := s.selectorOf s.tke.ifbs[i] } else s.tke.ifbs[i])[i].port = s.tke.ifbs[i].port := by
    intro i
    simp only [Fin.getElem_fin, tabulate_get]
    split <;> rfl
  refine ifbs_kept _ fun h => ?_
  simp only [hport]
  exact h

theorem dropWritten_sublist (e : TalkEntry) (q : List TalkEntry) : (dropWritten e q).Sublist q := by
  cases q with
  | nil => exact .refl _
  | cons h t =>
    rw [dropWritten]
    split
    · exact List.sublist_cons_self h t
    · exact .refl _

theorem landFlight_kept (f : Flight) (s : State) : Keeps s (landFlight f s) := by
  refine tkeQueue_kept _ rfl rfl rfl fun h => ?_
  cases f with
  | write e => exact h.sublist ((dropWritten_sublist e _).map _)
  | probe => exact h

theorem talkLinkUp_kept (s : State) : Keeps s (talkLinkUp s) :=
  .trans (tkeQueue_kept { s.tke with link := .up } rfl rfl rfl id) (reportNow_kept _ _)

theorem talkAcknowledged_kept (s : State) : Keeps s (talkAcknowledged s) := by
  unfold talkAcknowledged
  split
  · exact .refl s
  · split
    · exact (landFlight_kept _ s).trans (talkSend_kept _)
    · exact (((landFlight_kept _ s).trans (talkLinkUp_kept _)).trans (fullRefresh_kept _)).trans (talkSend_kept _)

theorem talkFailed_kept (s : State) : Keeps s (talkFailed s) := by
  unfold talkFailed
  split
  · exact .refl s
  · have hend : Keeps s { s with tke := { s.tke with flight := none } } := tkeQueue_kept _ rfl rfl rfl id
    dsimp only
    split
    · exact hend
    · split
      · exact .trans (tkeQueue_kept { s.tke with flight := none, fails := s.tke.fails + 1 } rfl rfl rfl id) (talkSend_kept _)
      · exact .trans (tkeQueue_kept { s.tke with flight := none, fails := 0, link := .down } rfl rfl rfl id) (reportNow_kept _ _)

/-- A change of the talk keys' states that leaves the IDLE keys of a panel that is not ONLINE. -/
theorem keys_kept {s : State} (v : Vector (Vector KeyState 48) 24)
    (h : ∀ p : Fin 24, (s.panel p).state ≠ .online → ∀ k : Fin 48, s.keyState p k = .idle → v[p][k] = .idle) :
    Keeps s { s with tke := { s.tke with keys := v } } :=
  .ofTke s _ id id id fun ⟨hidle, hheld⟩ => ⟨fun p ho => ⟨fun k => h p ho k ((hidle p ho).1 k), (hidle p ho).2⟩, hheld⟩

theorem idleKeys_kept (which : Fin 24 → Fin 48 → Bool) (s : State) : Keeps s (idleKeys which s) := by
  refine keys_kept _ fun p _ k hidle => ?_
  simp only [Fin.getElem_fin, tabulate_get]
  split
  · rfl
  · exact hidle

/-! ### Panels -/

/-- What the invariants say of one panel's record, but for its talk keys and its threshold: no preset off ONLINE, no lamps held back on it, and a guard VALID
only over a preset. -/
def Quiet (x : Panel) : Prop :=
  (x.state ≠ .online → x.selection.preset = none) ∧ (x.state = .online → x.held = false) ∧
  (x.selection.guard = true → x.selection.preset ≠ none)

/-- What they say of its lamps. -/
def Lit (x : Panel) : Prop :=
  x.lampSet.Nodup ∧ x.missed ≤ 3 ∧ ∀ k : Fin 48, x.timers[k] ≤ 16 ∧ (0 < x.timers[k] → x.image[k] = .flash)

theorem panelsSound_iff (s : State) : s.panelsSound ↔
    (∀ p, (s.panel p).state ≠ .online → ∀ k, s.keyState p k = .idle) ∧ ∀ p, Quiet (s.panel p) := by
  unfold State.panelsSound Quiet
  constructor
  · rintro ⟨hidle, hheld, hguard⟩
    exact ⟨fun p ho => (hidle p ho).1, fun p => ⟨fun ho => (hidle p ho).2, hheld p, hguard p⟩⟩
  · rintro ⟨hidle, hquiet⟩
    exact ⟨fun p ho => ⟨hidle p ho, (hquiet p).1 ho⟩, fun p => (hquiet p).2.1, fun p => (hquiet p).2.2⟩

theorem lampsSound_iff (s : State) : s.lampsSound ↔ ∀ p, Lit (s.panel p) := Iff.rfl

/-- A change of the panel records, panel by panel; the rest of the PNC is in no invariant. -/
theorem panels_kept {s : State} (x : Pnc)
    (hr : ∀ p : Fin 24, (4 ≤ (s.panel p).threshold ∧ (s.panel p).threshold ≤ 50) → 4 ≤ x.panels[p].threshold ∧ x.panels[p].threshold ≤ 50)
    (ho : ∀ p : Fin 24, x.panels[p].state ≠ .online → (s.panel p).state ≠ .online)
    (hq : ∀ p : Fin 24, Quiet (s.panel p) → Quiet x.panels[p]) (hl : ∀ p : Fin 24, Lit (s.panel p) → Lit x.panels[p]) :
    Keeps s { s with pnc := x } := by
  refine .ofPnc s x (fun h => ⟨h.1, fun p => hr p (h.2 p)⟩) (fun h => ?_) (fun h p => hl p (h p))
  rw [panelsSound_iff] at h ⊢
  exact ⟨fun p hp => h.1 p (ho p hp), fun p => hq p (h.2 p)⟩

/-- A change of one panel's record. -/
theorem setPanel_kept {s : State} (p : Fin 24) (x : Panel)
    (hr : (4 ≤ (s.panel p).threshold ∧ (s.panel p).threshold ≤ 50) → 4 ≤ x.threshold ∧ x.threshold ≤ 50)
    (ho : x.state ≠ .online → (s.panel p).state ≠ .online) (hq : Quiet (s.panel p) → Quiet x) (hl : Lit (s.panel p) → Lit x) :
    Keeps s (s.setPanel p x) := by
  have hget : ∀ q : Fin 24, (upd s.pnc.panels p x)[q] = if p = q then x else s.panel q := fun q => upd_get ..
  refine panels_kept { s.pnc with panels := upd s.pnc.panels p x } (fun q => ?_) (fun q => ?_) (fun q => ?_) (fun q => ?_)
  all_goals
    rw [hget q]
    split
    · rename_i h
      subst h
      assumption
    · exact id

/-- A change of one panel's record, whatever becomes of its preset and of its state. -/
theorem setPanel_rest {s : State} (p : Fin 24) (x : Panel) (hr : x.threshold = (s.panel p).threshold) (hl : Lit (s.panel p) → Lit x) :
    KeepsRest s (s.setPanel p x) := by
  have hget : ∀ q : Fin 24, (s.setPanel p x).panel q = if p = q then x else s.panel q := fun q => setPanel_panel s p q x
  refine { KeepsRest.refl s with ranges := fun h => ⟨h.1, fun q => ?_⟩, lamps := fun h => (lampsSound_iff _).mpr fun q => ?_ }
  · have hq := h.2 q
    rw [hget q]
    split
    · rename_i hpq
      subst hpq
      rwa [hr]
    · exact hq
  · have hq := h q
    rw [hget q]
    split
    · rename_i hpq
      subst hpq
      exact hl hq
    · exact hq

/-- The links, the map reads and the flashes that have ended are in no invariant. -/
theorem pncRest_kept (s : State) (l : Vector PanelLink 4) (m : List MapRead) (e : List (Fin 24 × Fin 48)) :
    Keeps s { s with pnc := { s.pnc with links := l, mapReads := m, flashEnds := e } } := .ofPnc s _ id id id

/-! ### Lamps -/

theorem newlyChanged_nodup {x : Panel} (image : Vector Lamp 48) (h : x.lampSet.Nodup) : (x.lampSet ++ newlyChanged x image).Nodup := by
  rw [List.nodup_append]
  refine ⟨h, (List.nodup_finRange 48).filter _, ?_⟩
  rintro k hk _ hk' rfl
  simp only [newlyChanged, List.mem_filter, Bool.and_eq_true, Bool.not_eq_true', List.contains_eq_mem, decide_eq_false_iff_not] at hk'
  exact hk'.2.2 hk

/-- The lamp that is derived shows the key's running refusal flash. -/
theorem relit_flash {s : State} {p : Fin 24} (which : Fin 48 → Bool) {k : Fin 48} (ht : 0 < (s.panel p).timers[k])
    (hi : which k = true ∨ (s.panel p).image[k] = .flash) : (s.relit p which)[k] = .flash := by
  show (tabulate _)[k.1] = _
  rw [tabulate_get]
  split
  · rw [State.lampOf, if_pos ht]
  · rename_i hw
    exact hi.resolve_left hw

/-- A new lamp image, and new timers, that show the flash of every key whose timer runs. -/
theorem setImage_kept {s : State} {p : Fin 24} (timers : Vector Nat 48) (image : Vector Lamp 48)
    (h : Lit (s.panel p) → ∀ k : Fin 48, timers[k] ≤ 16 ∧ (0 < timers[k] → image[k] = .flash)) :
    Keeps s (s.setPanel p ({ s.panel p with timers := timers }.withImage image)) :=
  setPanel_kept p _ id id id fun hl => ⟨newlyChanged_nodup image hl.1, hl.2.1, h hl⟩

theorem relight_kept (p : Fin 24) (which : Fin 48 → Bool) (s : State) : Keeps s (relight p which s) :=
  setImage_kept (s.panel p).timers _ fun ⟨_, _, htimers⟩ k =>
    ⟨(htimers k).1, fun ht => relit_flash which ht (.inr ((htimers k).2 ht))⟩

theorem derivePanel_kept (p : Fin 24) (s : State) : Keeps s (derivePanel p s) := by
  unfold derivePanel
  split
  · exact relight_kept _ _ s
  · exact .refl s

theorem deriveLamps_kept (s : State) : Keeps s (deriveLamps s) := forPanels_kept derivePanel_kept s

theorem relightTalk_kept (p : Fin 24) (s : State) : Keeps s (relightTalk p s) := by
  unfold relightTalk
  split
  · exact relight_kept _ _ s
  · exact .refl s

theorem derivation_kept (s : State) : Keeps s (derivation s) := by
  refine .trans ?_ (forPanels_kept relightTalk_kept _)
  exact (((deriveSets_kept s).trans (enterXpts_kept _)).trans (enterFeeds_kept _ _)).trans (talkSend_kept _)

theorem forceOff_kept (which : Fin 24 → Fin 48 → Bool) (s : State) : Keeps s (forceOff which s) := by
  unfold forceOff
  split
  · exact (idleKeys_kept which s).trans (derivation_kept _)
  · exact .refl s

/-! ### Selections, guards and refusals -/

/-- A change of a selection record that keeps what the invariants say of it. -/
theorem reselect_kept {p : Fin 24} {f : Selection → Selection} {s : State}
    (h : Quiet (s.panel p) → Quiet { s.panel p with selection := f (s.panel p).selection }) : Keeps s (reselect p f s) :=
  .trans (setPanel_kept p { s.panel p with selection := f (s.panel p).selection } id id h id) (derivePanel_kept p _)

theorem noPreset_kept (p : Fin 24) (s : State) : Keeps s (reselect p Selection.noPreset s) :=
  reselect_kept fun ⟨_, hheld, _⟩ => ⟨fun _ => rfl, hheld, nofun⟩

/-- A change of a panel's walk alone. -/
theorem rewalk_kept (p : Fin 24) (w : Option Walk) (s : State) : Keeps s (reselect p (fun x => { x with walk := w }) s) :=
  reselect_kept id

theorem breakGuard_kept (p : Fin 24) (s : State) : Keeps s (breakGuard p s) := by
  have hnoticed : Keeps s (s.setPanel p { s.panel p with noticed := true }) :=
    setPanel_kept p { s.panel p with noticed := true } id id id id
  exact hnoticed.trans (reselect_kept fun ⟨hpreset, hheld, _⟩ => ⟨hpreset, hheld, nofun⟩)

theorem takeNotice_kept (owner : Owner) (d : Fin 64) (s : State) : Keeps s (takeNotice owner d s) := by
  refine forPanels_kept (fun p s => ?_) s
  split
  · exact breakGuard_kept p s
  · exact .refl s

/-- A refusal sets the timer and the lamp together. -/
theorem refuseKey_kept (p : Fin 24) (k : Fin 48) (c : Code) (s : State) : Keeps s (refuseKey p k c s) := by
  let x := { s.panel p with timers := upd (s.panel p).timers k 16 }
  refine .trans ?_ (reportNow_kept _ _)
  have htwice : relight p (fun j => decide (j = k)) (s.setPanel p x) =
      s.setPanel p (x.withImage ((s.setPanel p x).relit p fun j => decide (j = k))) := by
    simp [relight, State.setPanel, State.panel, upd, x]
  show Keeps s (relight p (fun j => decide (j = k)) (s.setPanel p x))
  rw [htwice]
  refine setImage_kept _ _ fun ⟨_, _, htimers⟩ j => ?_
  have hx : ((s.setPanel p x).panel p) = x := setPanel_same s p x
  have htimer : x.timers[j] = if k = j then 16 else (s.panel p).timers[j] := upd_get ..
  change x.timers[j] ≤ 16 ∧ (0 < x.timers[j] → _)
  refine ⟨?_, fun ht => relit_flash _ (by rw [hx]; exact ht) ?_⟩
  · rw [htimer]
    split
    · exact Nat.le_refl 16
    · exact (htimers j).1
  · by_cases hj : j = k
    · exact .inl (by simpa using hj)
    · rw [hx]
      rw [htimer, if_neg (Ne.symm hj)] at ht
      exact .inr ((htimers j).2 ht)

end Sys2Proof.Proofs.Kept
end

