-- ==== Sys2Proof/Proofs/KeptTakes.lean ====
section
/-! SUPPORT. Protects, the take queue, the load and the map, the tallies and the mirrors keep the invariants. -/

namespace Sys2Proof.Proofs.Kept

open Sys2Proof.Machine

/-! ### Destinations -/

/-- A change of the destination records that leaves the levels that each has. -/
theorem dests_kept {s : State} (v : Vector Destination 64) (h : ∀ d : Fin 64, v[d].present = s.xpe.dests[d].present) :
    Keeps s { s with xpe := { s.xpe with dests := v } } :=
  .ofXpe s _ s.runState (by simp only [State.queueSound, State.armedSound, State.dest, h]; exact .intro) id

theorem setDest_kept {s : State} (d : Fin 64) (x : Destination) (h : x.present = (s.dest d).present) : Keeps s (s.setDest d x) := by
  refine dests_kept _ fun e => ?_
  rw [Fin.getElem_fin, upd_get]
  split
  · rename_i he
    subst he
    exact h
  · rfl

theorem requestProtect_kept (d : Fin 64) (r : Requester) (s : State) : Keeps s (requestProtect d r s).1 := by
  unfold requestProtect
  split
  · exact .trans (setDest_kept d { s.dest d with protect := some ⟨r.level, r.owner⟩ } rfl) (reportNow_kept _ _)
  · exact .refl s

theorem requestRelease_kept (d : Fin 64) (r : Requester) (s : State) : Keeps s (requestRelease d r s).1 := by
  unfold requestRelease
  split
  · exact .refl s
  · split
    · exact .trans (setDest_kept d { s.dest d with protect := none } rfl) (reportNow_kept _ _)
    · exact .refl s

theorem demoteDest_kept (p : Fin 24) (level : Fin 4) (d : Fin 64) (s : State) : Keeps s (demoteDest p level d s) := by
  unfold demoteDest
  split
  · exact .refl s
  · split
    · exact .trans (setDest_kept d { s.dest d with protect := none } rfl) (reportNow_kept _ _)
    · exact .refl s

theorem demote_kept (p : Fin 24) (level : Fin 4) (s : State) : Keeps s (demote p level s) :=
  foldl_keeps_invariants (fun s d => demoteDest_kept p level d s) _ s

/-! ### The take queue -/

/-- Every entry of a run of units. -/
def unitEntries (q : List TakeUnit) : List Crosspoint := q.flatMap fun u => u.entries

theorem entryCount_eq (q : List TakeUnit) : entryCount q = (unitEntries q).length := by
  simp [entryCount, unitEntries, List.length_flatMap]

/-- What the invariant says of a take queue, by its entries. -/
theorem queueSound_iff (s : State) : s.queueSound ↔ (unitEntries s.xpe.queue).length ≤ 64 ∧
    (unitEntries s.xpe.queue).Pairwise Crosspoint.differs ∧
    ∀ x ∈ unitEntries s.xpe.queue, hasLevel (s.dest x.dest).present x.level = true := by
  rw [State.queueSound, entryCount_eq]
  refine and_congr_right fun _ => and_congr_right fun _ => ?_
  simp only [unitEntries, List.mem_flatMap]
  exact ⟨fun h x ⟨u, hu, hx⟩ => h u hu x hx, fun h u hu x hx => h x ⟨u, hu, hx⟩⟩

/-- A change of the take queue. -/
theorem queue_kept {s : State} (q : List TakeUnit) (h : s.queueSound → { s with xpe := { s.xpe with queue := q } }.queueSound) :
    Keeps s { s with xpe := { s.xpe with queue := q } } := .ofXpe s _ s.runState (fun hq ha => ⟨h hq, ha⟩) id

/-- Taking entries out leaves just the others. -/
theorem removeEntries_entries (out : Crosspoint → Bool) (q : List TakeUnit) :
    unitEntries (removeEntries out q) = (unitEntries q).filter fun x => !out x := by
  unfold unitEntries removeEntries
  induction q with
  | nil => rfl
  | cons u q ih =>
    rw [List.flatMap_cons, List.filter_append, ← ih, List.map_cons, List.filter_cons]
    split
    · rfl
    · rename_i he
      have : u.entries.filter (fun x => !out x) = [] := by simpa using he
      rw [this, List.nil_append]

theorem removeEntries_kept (out : Crosspoint → Bool) (s : State) :
    Keeps s { s with xpe := { s.xpe with queue := removeEntries out s.xpe.queue } } := by
  refine queue_kept _ fun h => ?_
  rw [queueSound_iff] at h ⊢
  have hsub : (unitEntries (removeEntries out s.xpe.queue)).Sublist (unitEntries s.xpe.queue) := by
    rw [removeEntries_entries]
    exact List.filter_sublist
  exact ⟨hsub.length_le.trans h.1, h.2.1.sublist hsub, fun x hx => h.2.2 x (hsub.subset hx)⟩

theorem takeDone_kept (r : Requester) (x : Crosspoint) (o : TakeOutcome) (late : Nat) (s : State) : Keeps s (takeDone r x o late s) := by
  unfold takeDone
  split
  · exact .refl s
  · exact reportNow_kept _ s

theorem isFor_iff (x : Crosspoint) (d : Fin 64) (l : Level) : x.isFor d l = true ↔ x.dest = d ∧ x.level = l := by
  simp [Crosspoint.isFor]

/-- Entries of one unit that are for different levels, each one that its destination has. -/
def Admissible (dests : Vector Destination 64) (es : List Crosspoint) : Prop :=
  es.Pairwise Crosspoint.differs ∧ ∀ x ∈ es, hasLevel dests[x.dest].present x.level = true

/-- The queue that a unit joins is sound: what the unit replaces has left it, and its bound has been checked. -/
theorem admittedQueue_kept {u : TakeUnit} {s : State} (hu : Admissible s.xpe.dests u.entries)
    (hlen : entryCount (admittedQueue s.xpe.queue u) ≤ 64) :
    Keeps s { s with xpe := { s.xpe with queue := admittedQueue s.xpe.queue u } } := by
  refine queue_kept _ fun h => ?_
  rw [queueSound_iff] at h ⊢
  rw [entryCount_eq] at hlen
  have hall : unitEntries (admittedQueue s.xpe.queue u) =
      ((unitEntries s.xpe.queue).filter fun x => !replaces u.entries x) ++ u.entries := by
    rw [← removeEntries_entries]
    simp [admittedQueue, unitEntries]
  refine ⟨hlen, ?_, ?_⟩
  · simp only [hall, List.pairwise_append]
    refine ⟨h.2.1.filter _, hu.1, fun x hx y hy => ?_⟩
    rw [List.mem_filter, Bool.not_eq_true', replaces, List.any_eq_false] at hx
    by_contra hsame
    simp only [Crosspoint.differs, not_or, not_not] at hsame
    exact hx.2 y hy ((isFor_iff x y.dest y.level).mpr hsame)
  · simp only [hall, List.mem_append, List.mem_filter]
    rintro x (hx | hx)
    · exact h.2.2 x hx.1
    · exact hu.2 x hx

theorem admitUnit_kept {u : TakeUnit} {s : State} (hu : Admissible s.xpe.dests u.entries) : Keeps s (admitUnit u s).1 := by
  unfold admitUnit
  split
  · exact .refl s
  · rename_i hlen
    refine .trans ?_ (foldl_keeps_invariants (fun s d => takeNotice_kept _ d s) _ _)
    exact (admittedQueue_kept hu (Nat.le_of_not_lt hlen)).trans (foldl_keeps_invariants (fun s e => takeDone_kept _ _ _ _ s) _ _)

theorem withCount_kept {n : Nat} {s : State} {x : State × Code} (h : Keeps s x.1) : Keeps s (withCount n x).1 := h

theorem levels_nodup : levels.Nodup := by decide

theorem takeEntries_admissible (dests : Vector Destination 64) (d : Fin 64) (m : LevelMask) (x : Source) :
    Admissible dests (takeEntries dests d m x) := by
  constructor
  · refine List.Pairwise.map _ (fun _ _ hab => Or.inr hab) ?_
    exact levels_nodup.filter _
  · intro y hy
    simp only [takeEntries, List.mem_map, List.mem_filter, Bool.and_eq_true] at hy
    obtain ⟨l, ⟨_, _, hl⟩, rfl⟩ := hy
    exact hl

theorem requestTake_kept (d : Fin 64) (m : LevelMask) (x : Source) (form : Option DueForm) (r : Requester) (c : Cause) (s : State) :
    Keeps s (requestTake d m x form r c s).1 := by
  unfold requestTake
  dsimp only
  split
  · exact .refl s
  · split
    · exact .refl s
    · split
      · exact withCount_kept (admitUnit_kept (takeEntries_admissible _ d m x))
      · exact .refl s

theorem cancelEntries_kept (d : Fin 64) (m : LevelMask) (s : State) : Keeps s (cancelEntries d m s).1 :=
  (removeEntries_kept _ s).trans (foldl_keeps_invariants (fun s _ => takeDone_kept _ _ _ _ s) _ _)

/-! ### Salvos -/

/-- Entries that are at levels which their destinations have stay so when a list of takes puts them together. -/
theorem listEntries_present {dests : Vector Destination 64} : ∀ {ts : List RawTake} {es : List Crosspoint}, listEntries dests ts = some es →
    ∀ x ∈ es, hasLevel dests[x.dest].present x.level = true
  | [], es, h => by
    obtain rfl : [] = es := by simpa [listEntries] using h
    simp
  | t :: ts, es, h => by
    unfold listEntries at h
    split at h
    · rename_i first rest ha hb
      obtain rfl : first ++ rest = es := by simpa using h
      intro x hx
      rcases List.mem_append.mp hx with hx | hx
      · unfold rawEntries at ha
        split at ha
        · rename_i d m y _ _ _
          split at ha
          · simp at ha
          · obtain rfl : takeEntries dests d m y = first := by simpa using ha
            exact (takeEntries_admissible dests d m y).2 x hx
        · simp at ha
      · exact listEntries_present hb x hx
    · simp at h

theorem distinctEntries_pairwise : ∀ {es : List Crosspoint}, distinctEntries es = true → es.Pairwise Crosspoint.differs
  | [], _ => .nil
  | x :: xs, h => by
    simp only [distinctEntries, Bool.and_eq_true, List.all_eq_true, Bool.not_eq_true'] at h
    refine .cons (fun y hy => ?_) (distinctEntries_pairwise h.2)
    by_contra hsame
    simp only [Crosspoint.differs, not_or, not_not] at hsame
    exact absurd ((isFor_iff y x.dest x.level).mpr ⟨hsame.1.symm, hsame.2.symm⟩) (by simp [h.1 y hy])

theorem salvoEntries_admissible {dests : Vector Destination 64} {ts : List RawTake} {es : List Crosspoint}
    (h : salvoEntries dests ts = some es) : Admissible dests es := by
  unfold salvoEntries at h
  split at h
  · simp at h
  · rename_i es' hes
    split at h
    · rename_i hd
      obtain rfl : es' = es := by simpa using h
      exact ⟨distinctEntries_pairwise hd.1, listEntries_present hes⟩
    · simp at h

theorem decideSalvo_kept {es : List Crosspoint} {s : State} (h : Admissible s.xpe.dests es) (due : Option FrameIndex) (r : Requester)
    (c : Cause) (n : Option (Fin 16)) : Keeps s (decideSalvo es due r c n s).1 := by
  unfold decideSalvo
  split
  · exact withCount_kept (admitUnit_kept h)
  · exact .refl s

/-! ### The load -/

theorem armedEntries_xpt (k : FrameIndex) (u : TakeUnit) : (armedEntries k u).map (fun a => a.xpt) = u.entries := by
  simp [armedEntries, Function.comp_def]

theorem armedEntries_length (k : FrameIndex) (u : TakeUnit) : (armedEntries k u).length = u.entries.length := by
  simp [armedEntries]

/-- A load only takes entries out of the queue; what it arms comes from the queue, and with the `used` entries armed before it stays within 48. -/
theorem planLoad_sound (allowed : TakeUnit → Bool) (k : FrameIndex) : ∀ (q : List TakeUnit) (used : Nat), used ≤ 48 →
    (unitEntries (planLoad allowed k used q).kept).Sublist (unitEntries q) ∧
    ((planLoad allowed k used q).armed.map fun a => a.xpt).Sublist (unitEntries q) ∧
    used + (planLoad allowed k used q).armed.length ≤ 48
  | [], used, hu => ⟨.refl _, .refl _, hu⟩
  | u :: us, used, hu => by
    have hcons : unitEntries (u :: us) = u.entries ++ unitEntries us := rfl
    rw [planLoad, hcons]
    split
    · obtain ⟨hkept, harmed, hlen⟩ := planLoad_sound allowed k us used hu
      exact ⟨hkept.append_left u.entries, harmed.trans (List.sublist_append_right ..), hlen⟩
    · split
      · obtain ⟨hkept, harmed, hlen⟩ := planLoad_sound allowed k us used hu
        exact ⟨hkept.trans (List.sublist_append_right ..), harmed.trans (List.sublist_append_right ..), hlen⟩
      · split
        · rename_i hfits
          obtain ⟨hkept, harmed, hlen⟩ := planLoad_sound allowed k us (used + u.entries.length) hfits
          refine ⟨hkept.trans (List.sublist_append_right ..), ?_, ?_⟩
          · simp only [List.map_append, armedEntries_xpt]
            exact harmed.append_left u.entries
          · simp only [List.length_append, armedEntries_length]
            omega
        · exact ⟨.refl _, List.nil_sublist _, hu⟩

theorem unitDone_kept (o : TakeOutcome) (u : TakeUnit) (s : State) : Keeps s (unitDone o u s) :=
  foldl_keeps_invariants (fun s x => takeDone_kept _ x _ _ s) _ s

theorem load_kept (k : FrameIndex) (s : State) : Keeps s (load k s) := by
  unfold load
  split
  · rename_i hload
    obtain ⟨hrun, hlink, hsweep, -⟩ := hload
    obtain ⟨hkept, harmed, hlen⟩ := planLoad_sound s.unitAllowed k s.xpe.queue 0 (by omega)
    refine .trans ?_ (foldl_keeps_invariants (fun s u => unitDone_kept _ u s) _ _)
    refine .ofXpe s _ s.runState (fun hq _ => ?_) fun _ => ?_
    · rw [queueSound_iff] at hq ⊢
      refine ⟨⟨hkept.length_le.trans hq.1, hq.2.1.sublist hkept, fun x hx => hq.2.2 x (hkept.subset hx)⟩, ?_, hq.2.1.sublist harmed⟩
      simpa using hlen
    · exact ⟨fun h => absurd (hlink.symm.trans h) nofun, fun h => absurd hsweep h, fun h => absurd (hrun.symm.trans h) nofun⟩
  · exact .refl s

/-! ### The map -/

theorem setEntry_present (d : Destination) (l : Level) (e : MapEntry) : (d.setEntry l e).present = d.present := by cases l <;> rfl

theorem setMapEntry_kept (d : Fin 64) (l : Level) (e : MapEntry) (c : Cause) (s : State) : Keeps s (setMapEntry d l e c s) := by
  have hset := setDest_kept (s := s) d ((s.dest d).setEntry l e) (setEntry_present _ l e)
  unfold setMapEntry
  dsimp only
  split
  · exact hset
  · exact hset.trans (reportNow_kept _ _)

theorem mapMismatch_kept (d : Fin 64) (l : Level) (armed : Option Source) (x : Byte) (c : Cause) (s : State) :
    Keeps s (mapMismatch d l armed x c s) := (setMapEntry_kept _ _ _ _ s).trans (reportNow_kept _ _)

theorem settleArmed_kept (lines : List ReportLine) (a : ArmedEntry) (s : State) : Keeps s (settleArmed lines a s) := by
  unfold settleArmed
  split
  · exact takeDone_kept _ _ _ _ s
  · split
    · exact takeDone_kept _ _ _ _ s
    · split
      · exact (setMapEntry_kept _ _ _ _ s).trans (takeDone_kept _ _ _ _ _)
      · exact (mapMismatch_kept _ _ _ _ _ s).trans (takeDone_kept _ _ _ _ _)

theorem doubtMap_kept (s : State) : Keeps s (doubtMap s) :=
  dests_kept _ fun d => by rw [Fin.getElem_fin, tabulate_get]; rfl

/-! ### Tallies -/

/-- A change of the TLY that leaves its channels. -/
theorem tly_kept {s : State} (x : Tly) (h : x.channels = s.tly.channels) : Keeps s { s with tly := x } :=
  .ofTly s x (by simp only [State.mastersSound, h, imp_self])

theorem sampleGpi_kept (sample : BitVec 16) (i : Fin 16) (s : State) : Keeps s (sampleGpi sample i s) := by
  unfold sampleGpi
  split
  · exact .refl s
  · dsimp only
    split
    · refine .trans ?_ (reportNow_kept _ _)
      exact tly_kept _ rfl
    · exact tly_kept _ rfl

theorem inputs_kept (x : Option FrameInputs) (s : State) : Keeps s { s with tly := { s.tly with inputs := x } } := tly_kept _ rfl

theorem sampleInputs_kept (sample : BitVec 16) (s : State) : Keeps s (sampleInputs sample s) :=
  .trans (foldl_keeps_invariants (fun s i => sampleGpi_kept sample i s) _ s) (inputs_kept _ _)

theorem reportFlags_kept (a b c e : BitVec 64) (d : Fin 64) (s : State) : Keeps s (reportFlags a b c e d s) := by
  have hdepth : Keeps s (if hasDest c d = hasDest a d then s else reportNow (.flag d false (hasDest c d)) s) := by
    split
    · exact .refl s
    · exact reportNow_kept _ s
  unfold reportFlags
  dsimp only
  split
  · exact hdepth
  · exact hdepth.trans (reportNow_kept _ _)

theorem writeResolution_kept (fs : List Found) (s : State) : Keeps s (writeResolution fs s) := by
  have hflags : Keeps s { s with xpe := { s.xpe with dests := writeFlags (unionAll fs).depth (unionAll fs).loop s.xpe.dests } } :=
    dests_kept _ fun d => by rw [Fin.getElem_fin, writeFlags, tabulate_get]
  have htally := tly_kept (s := { s with xpe := { s.xpe with dests := writeFlags (unionAll fs).depth (unionAll fs).loop s.xpe.dests } })
    { s.tly with tally := tallyOf fs, prevDepth := (unionAll fs).depth, prevLoop := (unionAll fs).loop } rfl
  exact (hflags.trans htally).trans (foldl_keeps_invariants (fun s d => reportFlags_kept _ _ _ _ d s) _ _)

theorem driveLamps_kept (snapshot : PortSet) (k : FrameIndex) (s : State) : Keeps s (driveLamps snapshot k s) := tly_kept _ rfl

theorem resolve_kept (i : FrameInputs) (s : State) : Keeps s (resolve i s) :=
  ((writeResolution_kept _ s).trans (driveLamps_kept _ _ _)).trans (deriveLamps_kept _)

/-! ### Mirrors -/

/-- A change of the mirror writer alone. -/
theorem mirror_kept {s : State} (m : Mirror)
    (h : (s.csi.mirror.freeze ≠ .live → s.control.freeze = true) ∧ (s.csi.mirror.freeze = .freezing → s.csi.mirror.writing ≠ none) →
      (m.freeze ≠ .live → s.control.freeze = true) ∧ (m.freeze = .freezing → m.writing ≠ none)) :
    Keeps s { s with csi := { s.csi with mirror := m } } := .ofMirror s m s.control h

theorem startRewrite_kept (c : AnchorCopy) (frame : FrameIndex) (label : Label) (s : State) : Keeps s (startRewrite c frame label s) :=
  .trans (.ofStore s (writeEntries c.mirror s.rewriteEntries (storeWrites s.store c.mirror (s.mirrorHeader (s.csi.mirror.count + 1) frame label)))
      s.replaced (s.freeCount + 1) fun h => writeEntries_wf _ _ _ (storeWrites_wf _ _ _ h))
    (mirror_kept _ fun h => ⟨h.1, nofun⟩)

theorem onResolution_kept (frame : FrameIndex) (label : Label) (s : State) : Keeps s (onResolution frame label s) := by
  unfold onResolution
  split
  · exact .refl s
  · split
    · split
      · exact startRewrite_kept _ _ _ s
      · exact mirror_kept _ id
    · exact .refl s

theorem startWaiting_kept (s : State) : Keeps s (startWaiting s) := by
  unfold startWaiting
  split
  · exact .trans (mirror_kept { s.csi.mirror with waiting := none } id) (startRewrite_kept _ _ _ _)
  · exact .refl s

/-- The end of a rewrite makes FREEZING mirrors FROZEN in the same step. -/
theorem endRewrite_kept (s : State) : Keeps s (endRewrite s) := by
  unfold endRewrite
  split
  · exact .refl s
  · rename_i base _
    dsimp only
    have hstore := put_kept (base + 0x1C) (le32 s.csi.mirror.count.toNat) s
    split
    · rename_i hfreezing
      refine .trans ?_ (raise_kept _ _)
      exact hstore.trans (mirror_kept { s.csi.mirror with writing := none, freeze := .frozen, waiting := none } fun h =>
        ⟨fun _ => h.1 (fun hl => absurd (hfreezing.symm.trans hl) nofun), nofun⟩)
    · rename_i hfrozen
      exact hstore.trans (mirror_kept { s.csi.mirror with writing := none } fun h => ⟨h.1, fun hf => absurd (hfrozen.symm.trans hf) nofun⟩)
    · rename_i hlive
      refine .trans ?_ (startWaiting_kept _)
      exact hstore.trans (mirror_kept { s.csi.mirror with writing := none } fun h => ⟨h.1, fun hf => absurd (hlive.symm.trans hf) nofun⟩)

/-- The FREEZE bit and the freeze state change together. -/
theorem setFreezeBit_kept (f : Bool) (s : State) : Keeps s (setFreezeBit f s) := by
  unfold setFreezeBit
  split
  · exact .refl s
  · dsimp only
    split
    · rename_i hbit
      unfold freezeMirrors
      split
      · split
        · refine .trans ?_ (raise_kept _ _)
          exact .ofMirror s { s.csi.mirror with freeze := .frozen, waiting := none } { s.control with freeze := f } fun _ =>
            ⟨fun _ => hbit, nofun⟩
        · rename_i hwriting
          exact .ofMirror s { s.csi.mirror with freeze := .freezing, waiting := none } { s.control with freeze := f } fun _ =>
            ⟨fun _ => hbit, fun _ => hwriting⟩
      · exact .ofMirror s s.csi.mirror { s.control with freeze := f } fun h => ⟨fun _ => hbit, h.2⟩
      · exact .ofMirror s s.csi.mirror { s.control with freeze := f } fun h => ⟨fun _ => hbit, h.2⟩
    · exact .ofMirror s { s.csi.mirror with freeze := .live, complete := true } { s.control with freeze := f } fun _ => ⟨nofun, nofun⟩

/-- A change of CONTROL that leaves its FREEZE bit. -/
theorem control_kept {s : State} (c : Control) (h : c.freeze = s.control.freeze) : Keeps s { s with control := c } :=
  .ofMirror s s.csi.mirror c fun hs => ⟨fun hf => h.trans (hs.1 hf), hs.2⟩

end Sys2Proof.Proofs.Kept
end

