-- ==== Sys2Proof/Proofs/KeptStrips.lean ====
section
/-! SUPPORT. Strips, the salvo reader, panels and their links keep the invariants. -/

namespace Sys2Proof.Proofs.Kept

open Sys2Proof.Machine

/-! ### Headers and outcome words -/

theorem writeSlotState_kept (slot : Fin 8) (x : Byte) (s : State) : Keeps s (writeSlotState slot x s) := by
  unfold writeSlotState
  split
  · exact .refl s
  · exact put_kept _ _ s

theorem writeCounts_kept (slot : Fin 8) (m n : Nat) (s : State) : Keeps s (writeCounts slot m n s) := by
  unfold writeCounts
  split
  · exact .refl s
  · exact put_kept _ _ s

theorem writeOutcomes_kept (p : Posted) (c : Code) (detail : Nat) (frame : FrameIndex) : ∀ (n i : Nat) (s : State),
    Keeps s (writeOutcomes p c detail frame i n s)
  | 0, _, s => .refl s
  | n + 1, i, s => (withWrites_kept _ s).trans (writeOutcomes_kept p c detail frame n (i + 1) _)

theorem slotDone_kept (slot : Fin 8) (s : State) : Keeps s (slotDone slot s) :=
  (writeSlotState_kept _ _ s).trans (raise_kept _ _)

/-- A change of the running strip that stays on its slot, or ends it. -/
theorem running_kept {s : State} (x : Option Running)
    (h : ∀ r, x = some r → ∃ r', s.csi.running = some r' ∧ r'.slot.slot = r.slot.slot) :
    Keeps s { s with csi := { s.csi with running := x } } :=
  .ofPosts s s.csi.posts x fun hs => ⟨hs.1, fun r hr p hp => by
    obtain ⟨r', hr', hslot⟩ := h r hr
    exact hslot ▸ hs.2 r' hr' p hp⟩

theorem endStrip_kept (r : Running) (s : State) : Keeps s (endStrip r s) := by
  refine .trans ?_ (slotDone_kept _ _)
  exact running_kept none nofun

theorem endWith_kept (c : Code) (r : Running) (s : State) : Keeps s (endWith c r s) :=
  (writeOutcomes_kept _ _ _ _ _ _ s).trans (endStrip_kept _ _)

/-- The outcome of an order of the running strip. -/
theorem finishOrder_kept {r r' : Running} {s : State} (h : s.csi.running = some r') (hslot : r'.slot.slot = r.slot.slot) (c : Code)
    (detail : Nat) (frame : FrameIndex) : Keeps s (finishOrder r c detail frame s) := by
  have hwrite := (withWrites_kept (outcomeCells (orderAddress r.slot r.next) c detail frame) s).trans
    (writeCounts_kept r.slot.slot (r.after c).processed (r.after c).refused _)
  have hnext := hwrite.trans (running_kept (some (r.after c)) fun x hx => ⟨r', by simp [h], by
    obtain rfl : r.after c = x := by simpa using hx
    exact hslot⟩)
  unfold finishOrder
  dsimp only
  split
  · exact hnext.trans (endWith_kept _ _ _)
  · split
    · exact hnext.trans (endWith_kept _ _ _)
    · split
      · exact hnext.trans (endStrip_kept _ _)
      · exact hnext

theorem markWaiting_kept (s : State) : Keeps s (markWaiting s) := by
  refine running_kept _ fun r hr => ?_
  obtain ⟨r', hr', rfl⟩ := Option.map_eq_some_iff.mp hr
  exact ⟨r', hr', rfl⟩

theorem stopStrip_kept (s : State) : Keeps s (stopStrip s) := by
  refine running_kept _ fun r hr => ?_
  obtain ⟨r', hr', rfl⟩ := Option.map_eq_some_iff.mp hr
  exact ⟨r', hr', rfl⟩

/-- A block keeps the invariants, and when it answers an order at once, the strip it works for still runs. -/
def BlockKeeps (block : Requester → OrderRecord → State → State × Answer) : Prop :=
  ∀ q rec s, Keeps s (block q rec s).1 ∧ ((block q rec s).2 ≠ .later → (block q rec s).1.csi.running = s.csi.running)

theorem takeAnswer_kept {r : Running} {s : State} {x : State × Answer} (hrun : s.csi.running = some r) (hx : Keeps s x.1)
    (hsame : x.2 ≠ .later → x.1.csi.running = s.csi.running) : Keeps s (takeAnswer r x) := by
  unfold takeAnswer
  split
  · rename_i c d hanswer
    exact hx.trans (finishOrder_kept ((hsame (by simp [hanswer])).trans hrun) rfl _ _ _)
  · exact hx

theorem workOrder_kept {kind : Nat} {block : Requester → OrderRecord → State → State × Answer} (h : BlockKeeps block) (s : State) :
    Keeps s (workOrder kind block s) := by
  unfold workOrder
  split
  · exact .refl s
  · rename_i r rec horder
    have hrun := (currentOrder_running horder).1
    split
    · split
      · exact finishOrder_kept hrun rfl _ _ _
      · exact takeAnswer_kept hrun (h _ _ s).1 (h _ _ s).2
    · exact .refl s

/-! ### Fire requests and the salvo reader -/

/-- The salvo reader, its requests, the salvo records and the step groups are in no invariant. -/
theorem reader_kept (s : State) (r : Option SalvoRead) (f : List FireRequest) (v : Vector (Option SalvoRecord) 16) (g : Vector StepGroup 8) :
    Keeps s { s with xpe := { s.xpe with reading := r, fires := f, salvos := v, steps := g } } := .ofXpe s _ s.runState .intro id

theorem fireOutcome_kept (q : FireRequest) (c : Code) (n : Nat) (s : State) : Keeps s (fireOutcome q c n s) := by
  unfold fireOutcome
  split
  · split
    · exact .refl s
    · exact finishOrder_kept ‹_› rfl _ _ _
  · split
    · exact refuseKey_kept _ _ _ s
    · exact .refl s
  · exact report_kept _ _ _ s
  · exact .refl s

theorem beginReads_kept : ∀ (qs : List FireRequest) (s : State), Keeps s (beginReads qs s)
  | [], s => reader_kept s _ _ _ _
  | q :: qs, s => by
    unfold beginReads
    split
    · exact (fireOutcome_kept _ _ _ s).trans (beginReads_kept qs _)
    · split
      · exact reader_kept s _ _ _ _
      · exact (fireOutcome_kept _ _ _ s).trans (beginReads_kept qs _)

theorem fire_kept (q : FireRequest) (s : State) : Keeps s (fire q s) := by
  unfold fire
  split
  · exact reader_kept s _ _ _ _
  · exact beginReads_kept _ s

theorem decideRead_kept (x : SalvoRead) (list : List RawTake) (s : State) : Keeps s (decideRead x list s).1 := by
  unfold decideRead
  split
  · exact .refl s
  · exact decideSalvo_kept (salvoEntries_admissible ‹_›) _ _ _ _

theorem finishRead_kept (s : State) : Keeps s (finishRead s) := by
  unfold finishRead
  split
  · exact .refl s
  · refine .trans ?_ (beginReads_kept _ _)
    refine .trans ?_ (fireOutcome_kept _ _ _ _)
    refine .trans ?_ (decideRead_kept _ _ _)
    refine .trans ?_ (readOver_kept _)
    exact reader_kept s none s.xpe.fires s.xpe.salvos s.xpe.steps

/-! ### Panel states -/

/-- A panel that leaves ONLINE: its keys become IDLE, its preset, guard and walk go, and its lamps are held back. -/
theorem leaveOnline_panel (p q : Fin 24) (s : State) : (leaveOnline p s).panel q = if p = q then
      { (forceOff (ofPanel p) s).panel p with
        selection := { ((forceOff (ofPanel p) s).panel p).selection with preset := none, guard := false, walk := none }
        timers := Vector.replicate 48 0, held := true }
    else (forceOff (ofPanel p) s).panel q := setPanel_panel _ p q _

/-- What the invariants say of a panel does not depend on its lamps. -/
theorem quiet_of_still {x y : Panel} (h : x.still = y.still) (hy : Quiet y) : Quiet x := by
  have hstate : x.state = y.state := (congrArg Panel.state h : x.still.state = y.still.state)
  have hselection : x.selection = y.selection := (congrArg Panel.selection h : x.still.selection = y.still.selection)
  have hheld : x.held = y.held := (congrArg Panel.held h : x.still.held = y.still.held)
  unfold Quiet
  rwa [hstate, hselection, hheld]

theorem enter_lit {x : Panel} (st : PanelState) (h : Lit x) : Lit (x.enter st) := by
  obtain ⟨hset, hmissed, htimers⟩ := h
  cases st
  case joining => exact ⟨hset, Nat.zero_le 3, htimers⟩
  all_goals exact ⟨hset, hmissed, htimers⟩

theorem enter_threshold (x : Panel) (st : PanelState) : (x.enter st).threshold = x.threshold := by cases st <;> rfl

theorem enter_state (x : Panel) (st : PanelState) : (x.enter st).state = st := by cases st <;> rfl

/-- A panel that enters a state other than ONLINE with no preset, or ONLINE, is quiet. -/
theorem enter_quiet {x : Panel} {st : PanelState} (h : x.state = .online → st = .online) (hx : Quiet x) : Quiet (x.enter st) := by
  obtain ⟨hpreset, hheld, hguard⟩ := hx
  cases st
  case online => exact ⟨fun hne => absurd rfl hne, fun _ => rfl, hguard⟩
  all_goals exact ⟨fun _ => hpreset fun ho => absurd (h ho) nofun, nofun, hguard⟩

theorem leaveOnline_rest (p : Fin 24) (s : State) : KeepsRest s (leaveOnline p s) :=
  (forceOff_kept _ s).toKeepsRest.trans (setPanel_rest p _ rfl fun h => ⟨h.1, h.2.1, fun k => by simp⟩)

/-- A panel in a state other than ONLINE with the effects of leaving ONLINE is silent. -/
theorem leaveOnline_panels {p : Fin 24} {x : Panel} {s : State} (hx : x.state ≠ .online) (h : s.panelsSound) :
    (leaveOnline p (s.setPanel p x)).panelsSound := by
  rw [panelsSound_iff] at h ⊢
  have hstill : ∀ q, ((forceOff (ofPanel p) (s.setPanel p x)).panel q).still = ((s.setPanel p x).panel q).still := fun q => forceOff_still _ q _
  have hkeys : ∀ q k, (leaveOnline p (s.setPanel p x)).keyState q k = if q = p then .idle else s.keyState q k := by
    intro q k
    show (forceOff (ofPanel p) (s.setPanel p x)).keyState q k = _
    rw [forceOff_keyState]
    simp only [ofPanel, decide_eq_true_eq]
    rfl
  have hself : ((forceOff (ofPanel p) (s.setPanel p x)).panel p).state = x.state := by
    have hstate := congrArg Panel.state (hstill p)
    simpa [Panel.still] using hstate
  have hother : ∀ q, p ≠ q → (leaveOnline p (s.setPanel p x)).panel q = (forceOff (ofPanel p) (s.setPanel p x)).panel q ∧
      ((leaveOnline p (s.setPanel p x)).panel q).still = (s.panel q).still := by
    intro q hpq
    rw [leaveOnline_panel, if_neg hpq, hstill, setPanel_panel, if_neg hpq]
    exact ⟨rfl, rfl⟩
  refine ⟨fun q ho k => ?_, fun q => ?_⟩
  · rw [hkeys]
    split
    · rfl
    · rename_i hqp
      have hstate : ((leaveOnline p (s.setPanel p x)).panel q).still.state = (s.panel q).still.state := by
        rw [(hother q (Ne.symm hqp)).2]
      exact h.1 q (fun hon => ho (hstate.trans hon)) k
  · by_cases hpq : p = q
    · subst hpq
      rw [leaveOnline_panel, if_pos rfl]
      exact ⟨fun _ => rfl, fun ho => absurd (hself ▸ ho) hx, nofun⟩
    · exact quiet_of_still (hother q hpq).2 (h.2 q)

theorem changePanel_kept (p : Fin 24) (st : PanelState) (s : State) : Keeps s (changePanel p st s) := by
  let s2 := if (s.panel p).state = .online ∧ st ≠ .online then leaveOnline p (s.setPanel p ((s.panel p).enter st))
    else s.setPanel p ((s.panel p).enter st)
  have hleave : Keeps s s2 := by
    by_cases hc : (s.panel p).state = .online ∧ st ≠ .online
    · have hrest := (setPanel_rest (s := s) p ((s.panel p).enter st) (enter_threshold _ _) (enter_lit st)).trans (leaveOnline_rest p _)
      simp only [s2, if_pos hc]
      exact ⟨hrest, leaveOnline_panels (by rw [enter_state]; exact hc.2)⟩
    · simp only [s2, if_neg hc]
      have himp : (s.panel p).state = .online → st = .online := fun ho => Decidable.not_not.mp fun hne => hc ⟨ho, hne⟩
      exact setPanel_kept p _ (by rw [enter_threshold]; exact id) (fun hne ho => hne ((enter_state _ _).trans (himp ho)))
        (enter_quiet himp) (enter_lit st)
  have hderive : Keeps s (if st = .online then derivePanel p s2 else s2) := by
    split
    · exact hleave.trans (derivePanel_kept p _)
    · exact hleave
  unfold changePanel
  dsimp only
  split
  · exact hderive
  · exact hderive.trans (reportNow_kept _ _)

end Sys2Proof.Proofs.Kept
end

