-- ==== Sys2Proof/Proofs/KeptPanels.lean ====
section
/-! SUPPORT. Key events, polls, replies, probes and key maps keep the invariants. -/

namespace Sys2Proof.Proofs.Kept

open Sys2Proof.Machine

/-! ### Key events -/

/-- Only a key of an ONLINE panel is moved. -/
theorem setKey_kept {p : Fin 24} {s : State} (hon : (s.panel p).state = .online) (k : Fin 48) (st : KeyState) :
    Keeps s (setKey p k st s) := by
  unfold setKey
  split
  · exact .refl s
  · refine .trans ?_ (derivation_kept _)
    refine keys_kept _ fun q ho j hidle => ?_
    have hne : p ≠ q := fun h => ho (h ▸ hon)
    simp only [Fin.getElem_fin, upd_other _ _ hne]
    exact hidle

theorem talkEvent_kept {p : Fin 24} {s : State} (hon : (s.panel p).state = .online) (k : Fin 48) (mode : TalkMode) (press : Bool) :
    Keeps s (talkEvent p k mode press s) := by
  unfold talkEvent
  split
  · exact refuseKey_kept _ _ _ s
  · exact setKey_kept hon _ _

theorem afterTake_kept {p : Fin 24} {k : Fin 48} {s : State} {x : State × Code × Nat} (h : Keeps s x.1) : Keeps s (afterTake p k x) := by
  unfold afterTake
  split
  · exact h.trans (rewalk_kept p none _)
  · exact h.trans (refuseKey_kept _ _ _ _)

theorem sourcePress_kept {p : Fin 24} {s : State} (hon : (s.panel p).state = .online) (k : Fin 48) (x : Source) :
    Keeps s (sourcePress p k x s) := by
  unfold sourcePress
  split
  · exact refuseKey_kept _ _ _ s
  · split
    · exact afterTake_kept (requestTake_kept _ _ _ _ _ _ s)
    · exact reselect_kept fun hq => ⟨fun ho => absurd hon ho, hq.2.1, fun _ => nofun⟩

theorem takePress_kept (ahead : Bool) (p : Fin 24) (k : Fin 48) (s : State) : Keeps s (takePress ahead p k s) := by
  have hdrop := noPreset_kept p s
  unfold takePress
  dsimp only
  split
  · exact hdrop.trans (refuseKey_kept _ _ _ _)
  · split
    · split
      · exact hdrop.trans (refuseKey_kept _ _ _ _)
      · exact hdrop.trans (afterTake_kept (requestTake_kept _ _ _ _ _ _ _))
    · exact hdrop.trans (refuseKey_kept _ _ _ _)

theorem stepPress_kept (p : Fin 24) (k : Fin 48) (g : Fin 8) (s : State) : Keeps s (stepPress p k g s) := by
  unfold stepPress
  split
  · exact refuseKey_kept _ _ _ s
  · dsimp only
    split
    · exact ((rewalk_kept p _ s).trans (requestTake_kept _ _ _ _ _ _ _)).trans (rewalk_kept p _ _)
    · exact ((rewalk_kept p _ s).trans (requestTake_kept _ _ _ _ _ _ _)).trans (refuseKey_kept _ _ _ _)

theorem refusalFlash_kept {p : Fin 24} {k : Fin 48} {s : State} {x : State × Code} (h : Keeps s x.1) :
    Keeps s (if x.2.isRefusal then refuseKey p k x.2 x.1 else x.1) := by
  split
  · exact h.trans (refuseKey_kept _ _ _ _)
  · exact h

theorem protectPress_kept (p : Fin 24) (k : Fin 48) (s : State) : Keeps s (protectPress p k s) := by
  unfold protectPress
  split
  · exact refuseKey_kept _ _ _ s
  · refine refusalFlash_kept ?_
    split
    · exact requestRelease_kept _ _ s
    · exact requestProtect_kept _ _ s

theorem keyPress_kept (ahead : Bool) {p : Fin 24} {s : State} (hon : (s.panel p).state = .online) (k : Fin 48) :
    Keeps s (keyPress ahead p k s) := by
  unfold keyPress
  split
  · exact .refl s
  · exact reportNow_kept _ s
  · exact reselect_kept fun hq => ⟨fun _ => rfl, hq.2.1, nofun⟩
  · exact sourcePress_kept hon _ _
  · exact takePress_kept _ _ _ s
  · exact stepPress_kept _ _ _ s
  · exact fire_kept _ s
  · exact protectPress_kept _ _ s
  · exact talkEvent_kept hon _ _ _

theorem keyRelease_kept {p : Fin 24} {s : State} (hon : (s.panel p).state = .online) (k : Fin 48) : Keeps s (keyRelease p k s) := by
  unfold keyRelease
  split
  · exact reportNow_kept _ s
  · exact talkEvent_kept hon _ _ _
  all_goals exact .refl s

theorem keyEvent_kept (ahead : Bool) (p : Fin 24) (k : Fin 48) (press : Bool) (s : State) : Keeps s (keyEvent ahead p k press s) := by
  unfold keyEvent
  split
  · rename_i hon
    split
    · exact keyPress_kept _ hon.1 k
    · exact keyRelease_kept hon.1 k
  · exact .refl s

/-! ### Polls and probes -/

theorem setLink_kept (s : State) (link : Fin 4) (x : PanelLink) : Keeps s (s.setLink link x) := pncRest_kept s _ _ _

theorem endMessage_kept (link : Fin 4) (s : State) : Keeps s (endMessage link s) := setLink_kept s _ _

/-- A probe that becomes due, or is no longer due. -/
theorem probeFlag_kept (p : Fin 24) (due : Bool) (s : State) : Keeps s (s.setPanel p { s.panel p with probeDue := due }) :=
  setPanel_kept p { s.panel p with probeDue := due } id id id id

theorem serveLink_kept (link : Fin 4) (s : State) : Keeps s (serveLink link s) := by
  unfold serveLink
  split
  · split
    · exact (probeFlag_kept _ false s).trans (setLink_kept _ _ _)
    · split
      · exact .refl s
      · exact setLink_kept s _ _
  · exact .refl s

theorem confirmed_kept (p : Fin 24) (full : Bool) (carried : List (Fin 48 × Lamp)) (s : State) :
    Keeps s (s.setPanel p ((s.panel p).confirmed full carried)) :=
  setPanel_kept p ((s.panel p).confirmed full carried) id id id fun h => ⟨h.1.filter _, Nat.zero_le 3, h.2.2⟩

theorem setMissed_kept {n : Nat} (h : n ≤ 3) (p : Fin 24) (s : State) : Keeps s (setMissed p n s) :=
  setPanel_kept p { s.panel p with missed := n } id id id fun hl => ⟨hl.1, h, hl.2.2⟩

theorem judge_kept (p : Fin 24) (code : BitVec 16) (s : State) : Keeps s (judge p code s) := by
  unfold judge
  split
  · exact changePanel_kept _ _ s
  · split
    · exact .refl s
    · exact changePanel_kept _ _ s

theorem takeReply_kept (ahead : Bool) (link : Fin 4) (p : Fin 24) (ident full : Bool) (carried : List (Fin 48 × Lamp))
    (ev : List (Fin 48 × Bool)) (code : Option (BitVec 16)) (s : State) : Keeps s (takeReply ahead link p ident full carried ev code s) := by
  have hend := (endMessage_kept link s).trans (confirmed_kept p full carried _)
  unfold takeReply
  dsimp only
  refine .trans ?_ (serveLink_kept _ _)
  split
  · split
    · split
      · exact hend.trans (judge_kept _ _ _)
      · exact hend
    · exact hend
  · exact hend.trans (foldl_keeps_invariants (fun s (e : Fin 48 × Bool) => keyEvent_kept ahead p e.1 e.2 s) _ _)

theorem receiveReply_kept (link : Fin 4) (m : PanelReply) (s : State) : Keeps s (receiveReply link m s) := by
  unfold receiveReply
  split
  · exact takeReply_kept _ _ _ _ _ _ _ _ s
  · exact .refl s

theorem receiveProbeAnswer_kept (link : Fin 4) (address : Byte) (code : BitVec 16) (s : State) :
    Keeps s (receiveProbeAnswer link address code s) := by
  have hend := endMessage_kept link s
  unfold receiveProbeAnswer
  split
  · split
    · dsimp only
      refine .trans ?_ (serveLink_kept _ _)
      split
      · split
        · exact hend.trans (changePanel_kept _ _ _)
        · exact hend.trans (changePanel_kept _ _ _)
        · exact hend.trans (judge_kept _ _ _)
        · exact hend
        · exact hend
      · exact hend
    · exact .refl s
  · exact .refl s

theorem closePoll_kept (link : Fin 4) (s : State) : Keeps s (closePoll link s) := by
  have hend := endMessage_kept link s
  unfold closePoll
  split
  · dsimp only
    refine .trans ?_ (serveLink_kept _ _)
    split
    · split
      · rename_i hlt
        exact hend.trans (setMissed_kept (Nat.le_of_lt hlt) _ _)
      · exact (hend.trans (setMissed_kept (Nat.le_refl 3) _ _)).trans (changePanel_kept _ _ _)
    · exact hend
  · exact .refl s

theorem closeProbe_kept (link : Fin 4) (s : State) : Keeps s (closeProbe link s) := by
  have hend := endMessage_kept link s
  unfold closeProbe
  split
  · dsimp only
    refine .trans ?_ (serveLink_kept _ _)
    split
    · exact (hend.trans (setMissed_kept (Nat.le_refl 3) _ _)).trans (changePanel_kept _ _ _)
    · exact hend
  · exact .refl s

/-! ### Key maps -/

theorem loadMap_kept (p : Fin 24) (es : List KeyEntry) (s : State) : Keeps s (loadMap p es s) := by
  refine .trans ?_ (relight_kept _ _ _)
  refine (forceOff_kept (ofPanel p) s).trans ?_
  refine setPanel_kept p _ ?_ ?_ ?_ ?_
  · exact id
  · exact id
  · rintro ⟨-, hheld, -⟩
    refine ⟨fun _ => rfl, fun ho => ?_, nofun⟩
    replace ho : ((forceOff (ofPanel p) s).panel p).state = .online := ho
    simp [ho, hheld ho]
  · exact fun h => ⟨h.1, h.2.1, fun k => by simp⟩

theorem mapOutcome_kept (x : MapRead) (c : Code) (n : Nat) (s : State) : Keeps s (mapOutcome x c n s) := by
  unfold mapOutcome
  split
  · split
    · exact .refl s
    · exact finishOrder_kept ‹_› rfl _ _ _
  · exact .refl s

theorem finishMapRead_kept (s : State) : Keeps s (finishMapRead s) := by
  unfold finishMapRead
  split
  · exact .refl s
  · rename_i rest _
    have hend := (pncRest_kept s s.pnc.links rest s.pnc.flashEnds).trans (readOver_kept _)
    dsimp only
    split
    · exact hend.trans (mapOutcome_kept _ _ _ _)
    · exact (hend.trans (loadMap_kept _ _ _)).trans (mapOutcome_kept _ _ _ _)

end Sys2Proof.Proofs.Kept
end

