-- ==== Sys2Proof/Proofs/KeptBoundary.lean ====
section
/-! SUPPORT. Settled maps, the fabric link, the frame boundary and the reference monitor keep the invariants. -/

namespace Sys2Proof.Proofs.Kept

open Sys2Proof.Machine

/-! ### A settled map and the fabric link -/

theorem runResolution_kept (k : FrameIndex) (s : State) : Keeps s (runResolution k s) := by
  unfold runResolution
  split
  · exact .refl s
  · split
    · exact resolve_kept _ s
    · exact .refl s

theorem tellResolution_kept (k : FrameIndex) (s : State) : Keeps s (tellResolution k s) := by
  unfold tellResolution
  split
  · exact .refl s
  · split
    · exact onResolution_kept _ _ s
    · exact .refl s

theorem handOverMap_kept (k : FrameIndex) (s : State) : Keeps s (handOverMap k s) :=
  ((evaluateSelectors_kept s).trans (deriveLamps_kept _)).trans (runResolution_kept k _)

theorem declareSettled_kept (k : FrameIndex) (s : State) : Keeps s (declareSettled k s) :=
  (handOverMap_kept k s).trans (tellResolution_kept k _)

/-- Nothing is armed any more, and what else a DOWN link, a sweep or HALTED cannot have is gone where it is at stake. -/
theorem disarm_kept {s : State} (x : Xpe) (hd : x.dests = s.xpe.dests) (hq : x.queue = s.xpe.queue) (ha : x.armed = [])
    (hdown : x.link = .down → x.sweep = none ∧ x.reportWait = none ∧ x.ackWait = false)
    (hhalted : s.runState = .halted → s.fabricSound → x.sweep = none ∧ x.reportWait = none) : Keeps s { s with xpe := x } := by
  refine .ofXpe s x s.runState (fun hqs _ => ?_) fun hf => ⟨fun h => ⟨ha, hdown h⟩, fun _ => ha, fun h => ⟨ha, hhalted h hf⟩⟩
  refine ⟨?_, by simp [State.armedSound, ha]⟩
  simpa only [State.queueSound, State.dest, hd, hq] using hqs

theorem armedDone_kept (o : TakeOutcome) (es : List ArmedEntry) (s : State) : Keeps s (armedDone o es s) :=
  foldl_keeps_invariants (fun s (a : ArmedEntry) => takeDone_kept a.requester a.xpt o a.late s) es s

theorem linkLost_kept (w : FabricWait) (s : State) : Keeps s (linkLost w s) := by
  unfold linkLost
  split
  · rename_i hup
    let s1 := armedDone .fabricTimeout s.xpe.armed s
    let s2 : State := { s1 with xpe := { s1.xpe with armed := [] } }
    let s3 := if s.xpe.sweep = none then doubtMap s2 else s2
    have hempty : Keeps s s2 := by
      refine (armedDone_kept _ _ s).trans (disarm_kept { s1.xpe with armed := [] } rfl rfl rfl (fun h => ?_) fun h hf => (hf.2.2 h).2)
      replace h : s1.xpe.link = .down := h
      rw [show s1.xpe = s.xpe by simp [s1], hup] at h
      exact absurd h nofun
    have hdoubt : Keeps s s3 ∧ s3.xpe.armed = [] := by
      by_cases hsweep : s.xpe.sweep = none
      · simp only [s3, if_pos hsweep]
        exact ⟨hempty.trans (doubtMap_kept s2), rfl⟩
      · simp only [s3, if_neg hsweep]
        exact ⟨hempty, rfl⟩
    have hdown : Keeps s (reportNow (.fabricDown w) { s3 with xpe :=
        { s3.xpe with sweep := none, link := .down, reportWait := none, ackWait := false } }) := by
      refine .trans (hdoubt.1.trans ?_) (reportNow_kept _ _)
      exact disarm_kept _ rfl rfl hdoubt.2 (fun _ => ⟨rfl, rfl, rfl⟩) fun _ _ => ⟨rfl, rfl⟩
    dsimp only
    split
    · exact hdown
    · exact hdown.trans (declareSettled_kept _ _)
  · exact .refl s

theorem receiveReport_kept (lines : List ReportLine) (s : State) : Keeps s (receiveReport lines s) := by
  unfold receiveReport
  split
  · exact .refl s
  · split
    · let s1 := s.xpe.armed.foldl (fun s a => settleArmed lines a s) s
      have hsettle : Keeps s s1 := foldl_keeps_invariants (fun s (a : ArmedEntry) => settleArmed_kept lines a s) _ s
      have hempty : Keeps s1 { s1 with xpe := { s1.xpe with armed := [], reportWait := none } } := by
        refine .ofXpe s1 _ s1.runState (fun hq _ => ⟨hq, Nat.zero_le 48, .nil⟩) fun ⟨hdown, _, hhalted⟩ => ?_
        exact ⟨fun h => ⟨rfl, (hdown h).2.1, rfl, (hdown h).2.2.2⟩, fun _ => rfl, fun h => ⟨rfl, (hhalted h).2.1, rfl⟩⟩
      exact (((hsettle.trans hempty).trans (handOverMap_kept _ _)).trans (load_kept _ _)).trans (tellResolution_kept _ _)
    · exact .refl s

theorem reportTimeout_kept (s : State) : Keeps s (reportTimeout s) := by
  unfold reportTimeout
  split
  · exact linkLost_kept _ s
  · exact .refl s

theorem armTimeout_kept (s : State) : Keeps s (armTimeout s) := by
  unfold armTimeout
  split
  · exact linkLost_kept _ s
  · exact .refl s

theorem readTimeout_kept (s : State) : Keeps s (readTimeout s) := by
  unfold readTimeout
  split
  · exact linkLost_kept _ s
  · exact .refl s

/-- The waits for an acknowledgement and for a ping's answer may end at any time. -/
theorem receiveArmAck_kept (s : State) : Keeps s (receiveArmAck s) :=
  .ofXpe s _ s.runState .intro fun ⟨hdown, hsweep, hhalted⟩ =>
    ⟨fun h => ⟨(hdown h).1, (hdown h).2.1, (hdown h).2.2.1, rfl⟩, hsweep, hhalted⟩

theorem pingWait_kept (b : Bool) (s : State) : Keeps s { s with xpe := { s.xpe with pingWait := b } } := .ofXpe s _ s.runState .intro id

theorem readBack_kept (d : Fin 64) (l : Level) (number : Byte) (s : State) : Keeps s (readBack d l number s) := by
  unfold readBack
  split
  · exact setMapEntry_kept _ _ _ _ s
  · exact mapMismatch_kept _ _ _ _ _ s

/-- A sweep that is in progress goes on, or ends. -/
theorem sweepOn_kept {s : State} (h : s.xpe.sweep ≠ none) (d : Fin 64) (l : Level) : Keeps s (sweepOn d l s) := by
  unfold sweepOn
  split
  · refine .ofXpe s _ s.runState .intro fun ⟨hdown, hsweep, hhalted⟩ => ?_
    exact ⟨fun hl => absurd (hdown hl).2.1 h, fun _ => hsweep h, fun hr => absurd (hhalted hr).2.1 h⟩
  · refine .ofXpe s _ _ .intro fun ⟨hdown, _, hhalted⟩ => ?_
    refine ⟨fun hl => absurd (hdown hl).2.1 h, fun hn => absurd rfl hn, fun hr => ?_⟩
    split at hr
    · simp at hr
    · exact absurd (hhalted hr).2.1 h

theorem setMapEntry_sweep (d : Fin 64) (l : Level) (e : MapEntry) (c : Cause) (s : State) :
    (setMapEntry d l e c s).xpe.sweep = s.xpe.sweep := by
  unfold setMapEntry
  dsimp only
  split <;> simp

theorem readBack_sweep (d : Fin 64) (l : Level) (number : Byte) (s : State) : (readBack d l number s).xpe.sweep = s.xpe.sweep := by
  unfold readBack
  split
  · exact setMapEntry_sweep _ _ _ _ s
  · simp [mapMismatch, setMapEntry_sweep]

theorem receiveRead_kept (dest level number : Byte) (s : State) : Keeps s (receiveRead dest level number s) := by
  unfold receiveRead
  split
  · exact .refl s
  · rename_i d l hsweep
    split
    · exact (readBack_kept d l number s).trans (sweepOn_kept (by rw [readBack_sweep, hsweep]; nofun) d l)
    · exact .refl s

/-- A sweep that starts breaks no invariant but, perhaps, the fabric link's. -/
theorem startSweep_kept {s u : State} (h : Keeps s u) (hf : s.fabricSound → (startSweep u).fabricSound) : Keeps s (startSweep u) :=
  ⟨⟨h.store, h.labels, h.monitor, h.takes, hf, h.masters, h.coefficients, h.ifbs, h.ranges, h.lamps, h.posts, h.gap, h.freeze⟩, h.panels⟩

/-- A link that comes UP had nothing armed, so a sweep starts with nothing armed. -/
theorem receivePing_kept (s : State) : Keeps s (receivePing s) := by
  unfold receivePing
  split
  · rename_i hping
    have hlink : Keeps s (reportNow .fabricUp { s with xpe := { s.xpe with link := .up, pingWait := false } }) := by
      refine .trans (.ofXpe s { s.xpe with link := .up, pingWait := false } s.runState .intro ?_) (reportNow_kept _ _)
      exact fun ⟨_, hsweep, hhalted⟩ => ⟨nofun, hsweep, hhalted⟩
    dsimp only
    split
    · rename_i hserving
      refine startSweep_kept hlink fun ⟨hdown, _, _⟩ => ?_
      have hserves : s.runState ≠ .halted := fun h => by
        rw [serving_iff] at hserving
        simp [h] at hserving
      simp [State.fabricSound, startSweep, hserves, (hdown hping.2).1]
    · exact hlink
  · exact .refl s

theorem xpeBoundary_kept (s : State) : Keeps s (xpeBoundary s) := by
  unfold xpeBoundary
  split
  · rename_i hup
    split
    · exact .refl s
    · rename_i hrun
      refine .ofXpe s _ s.runState .intro fun ⟨_, hsweep, _⟩ => ?_
      exact ⟨fun h => absurd (hup.symm.trans h) nofun, hsweep, fun h => absurd h hrun⟩
  · dsimp only
    split
    · exact pingWait_kept true s
    · exact (pingWait_kept true s).trans (declareSettled_kept _ _)

/-! ### Labels and cues -/

/-- A label that exists under a rate: well formed, and not one that the rate skips (R10). -/
def Exists (r : Rate) (l : Label) : Prop := l.wellFormed r = true ∧ l.skipped r = false

theorem drop_lt_base (r : Rate) : r.drop < r.base := by cases r <;> decide

/-- The first label of a minute is not one that is skipped. -/
theorem minuteStart_exists (r : Rate) {hh mm : Nat} (hhh : hh < 24) (hmm : mm < 60) : Exists r (minuteStart r hh mm) := by
  have hdrop := drop_lt_base r
  rw [Exists, wellFormed_iff, ← Bool.not_eq_true, skipped_iff]
  unfold minuteStart
  refine ⟨⟨hhh, hmm, by simp, ?_⟩, ?_⟩
  · dsimp only
    split <;> omega
  · dsimp only
    split <;> omega

/-- Succession leads from a label that exists to one that exists (R9, R10). -/
theorem successor_exists {r : Rate} {l : Label} (h : Exists r l) : Exists r (successor r l) := by
  have hl := h
  rw [Exists, wellFormed_iff, ← Bool.not_eq_true, skipped_iff] at hl
  obtain ⟨⟨hhh, hmm, hss, hff⟩, hskip⟩ := hl
  unfold successor
  split_ifs with h1 h2 h3 h4
  · rw [Exists, wellFormed_iff, ← Bool.not_eq_true, skipped_iff]
    exact ⟨⟨hhh, hmm, hss, h1⟩, fun ⟨hs, hd, hm⟩ => hskip ⟨hs, Nat.lt_of_succ_lt hd, hm⟩⟩
  · rw [Exists, wellFormed_iff, ← Bool.not_eq_true, skipped_iff]
    exact ⟨⟨hhh, hmm, h2, by dsimp only; omega⟩, by simp⟩
  · exact minuteStart_exists r hhh h3
  · exact minuteStart_exists r h4 (by omega)
  · exact minuteStart_exists r (by omega) (by omega)

/-- A change of the RTU's counts, cues and reference state that leaves its rate, label and jam request. -/
theorem rtu_kept {s : State} (r : Rtu) (hr : r.rate = s.rtu.rate) (hl : r.label = s.rtu.label) (hj : r.jam = s.rtu.jam)
    (hm : s.monitorSound → r.good ≤ 8 ∧ r.missing ≤ 2 ∧ (r.ref ≠ .locked → r.good < 8)) : Keeps s (s.setRtu r) :=
  .ofRtu s r (by simp only [State.labelsSound, State.setRtu, hr, hl, hj, imp_self]) hm

theorem setCue_kept (n : Fin 16) (c : Cue) (s : State) : Keeps s (s.setCue n c) := rtu_kept { s.rtu with cues := _ } rfl rfl rfl id

theorem cueMatch_kept (ahead : Label) (n : Fin 16) (s : State) : Keeps s (cueMatch ahead n s) := by
  unfold cueMatch
  dsimp only
  split
  · split
    · exact (setCue_kept _ _ s).trans (reportNow_kept _ _)
    · exact (setCue_kept _ _ s).trans (fire_kept _ _)
  · exact .refl s

theorem compareCues_kept (s : State) : Keeps s (compareCues s) := by
  unfold compareCues
  split
  · exact foldl_keeps_invariants (fun x n => cueMatch_kept s.lookAhead n x) _ s
  · exact .refl s

theorem nextFrame_kept (s : State) : Keeps s (nextFrame s) := by
  refine .ofRtu s { s.rtu with frame := s.rtu.frame + 1, label := s.rtu.nextLabel, jam := none } (fun ⟨hlabel, hjam⟩ => ⟨?_, nofun⟩) id
  show Exists s.rtu.rate s.rtu.nextLabel
  unfold Rtu.nextLabel
  cases h : s.rtu.jam with
  | none => exact successor_exists hlabel
  | some l => exact hjam l h

/-! ### The boundary -/

/-- The examination leaves IDLE keys IDLE. -/
theorem examineKeys_kept (s : State) : Keeps s (examineKeys s) := by
  unfold examineKeys
  split
  · exact .refl s
  · rename_i ts _
    have hdue : Keeps s { s with tke := { s.tke with latchDue := none } } := tkeQueue_kept _ rfl rfl rfl id
    refine .trans hdue ?_
    refine keys_kept _ ?_
    intro p _ k hidle
    replace hidle : s.tke.keys[p][k] = .idle := hidle
    simp only [Fin.getElem_fin, tabulate_get] at hidle ⊢
    rw [hidle]
    rfl

theorem endFlashes_kept (s : State) : Keeps s (endFlashes s) :=
  (pncRest_kept s s.pnc.links s.pnc.mapReads []).trans
    (foldl_keeps_invariants (fun s (x : Fin 24 × Fin 48) => relight_kept x.1 _ s) _ _)

/-- Timers that fall keep the panels' invariants. -/
theorem timersFall_kept {s : State} (ts : Fin 24 → Vector Nat 48) (e : List (Fin 24 × Fin 48)) (h : ∀ p (k : Fin 48), (ts p)[k] ≤ (s.panel p).timers[k]) :
    Keeps s { s with pnc :=
      { s.pnc with panels := tabulate fun p => { s.panel p with timers := ts p, noticed := false }, flashEnds := e } } := by
  refine panels_kept _ (fun p => ?_) (fun p => ?_) (fun p => ?_) fun p ⟨hset, hmissed, htimers⟩ => ?_
  all_goals simp only [Fin.getElem_fin, tabulate_get]
  · exact id
  · exact id
  · exact id
  · exact ⟨hset, hmissed, fun k => ⟨(h p k).trans (htimers k).1, fun hk => (htimers k).2 (Nat.lt_of_lt_of_le hk (h p k))⟩⟩

theorem tickTimers_kept (s : State) : Keeps s (tickTimers s) := by
  refine timersFall_kept (fun p => tabulate fun k => (s.panel p).timers[k] - 1) _ fun p k => ?_
  simp only [Fin.getElem_fin, tabulate_get]
  exact Nat.sub_le _ _

theorem probeDue_kept (s : State) : Keeps s (probeDue s) := by
  unfold probeDue
  split
  · exact .refl s
  · split
    · exact (probeFlag_kept _ true s).trans (serveLink_kept _ _)
    · exact .refl s

theorem tkeBoundary_kept (s : State) : Keeps s (tkeBoundary s) := by
  refine .trans ?_ (talkRetry_kept _)
  exact tkeQueue_kept _ rfl rfl rfl id

theorem makeBoundary_kept (gpi : BitVec 16) (s : State) : Keeps s (makeBoundary gpi s) := by
  have hkeys := ((examineKeys_kept s).trans (endFlashes_kept _)).trans (nextFrame_kept _)
  have hsample := (hkeys.trans (compareCues_kept _)).trans (sampleInputs_kept gpi _)
  exact (((hsample.trans (tkeBoundary_kept _)).trans (tickTimers_kept _)).trans (probeDue_kept _)).trans (xpeBoundary_kept _)

/-! ### The scaler and the reference monitor -/

theorem scalerBoundary_kept (gpi : BitVec 16) (s : State) : Keeps s (scalerBoundary gpi s) :=
  (rtu_kept { s.rtu with now := _, count := 0 } rfl rfl rfl id).trans (makeBoundary_kept gpi _)

theorem restartCount_kept (s : State) : Keeps s (restartCount s) := rtu_kept { s.rtu with count := 0 } rfl rfl rfl id

/-- A monitor that has not eight good pulses may take any reference state, and one that has them LOCKED. -/
theorem changeRef_kept {x : RefState} {s : State} (h : x ≠ .locked → s.monitorSound → s.rtu.good < 8) : Keeps s (changeRef x s) := by
  unfold changeRef
  split
  · exact .refl s
  · refine .trans ?_ (reportNow_kept _ _)
    exact rtu_kept { s.rtu with ref := x } rfl rfl rfl fun hm => ⟨hm.1, hm.2.1, fun hx => h hx hm⟩

theorem strayPulse_kept (elapsed : Nat) (s : State) : Keeps s (s.setRtu (s.rtu.advance elapsed).strayPulse) := by
  unfold Rtu.strayPulse
  split
  · exact rtu_kept _ rfl rfl rfl id
  · exact rtu_kept _ rfl rfl rfl fun hm => ⟨Nat.zero_le 8, hm.2.1, fun _ => by simp⟩
  · exact rtu_kept _ rfl rfl rfl fun hm => ⟨Nat.zero_le 8, hm.2.1, fun _ => by simp⟩

/-- A good pulse that leaves the reference state: in LOCKED, or short of eight. -/
theorem goodPulse_kept {elapsed : Nat} {s : State} (h : s.rtu.ref ≠ .locked → (s.rtu.advance elapsed).goodPulse.good ≠ 8) :
    Keeps s (s.setRtu (s.rtu.advance elapsed).goodPulse) := by
  have hle : (s.rtu.advance elapsed).goodPulse.good ≤ 8 := Nat.min_le_left ..
  exact rtu_kept _ rfl rfl rfl fun _ => ⟨hle, Nat.zero_le 2, fun hr => Nat.lt_of_le_of_ne hle (h hr)⟩

/-- The relock: the eighth good pulse and LOCKED come together. -/
theorem relock_kept {elapsed : Nat} {s : State} (h : s.rtu.ref ≠ .locked) :
    Keeps s (changeRef .locked (s.setRtu (s.rtu.advance elapsed).goodPulse)) := by
  have hne : ¬ (s.setRtu (s.rtu.advance elapsed).goodPulse).rtu.ref = .locked := h
  rw [changeRef, if_neg hne]
  refine .trans ?_ (reportNow_kept _ _)
  exact rtu_kept { (s.rtu.advance elapsed).goodPulse with ref := .locked } rfl rfl rfl fun _ =>
    ⟨Nat.min_le_left .., Nat.zero_le 2, fun hr => absurd rfl hr⟩

theorem referencePulse_kept (elapsed : Nat) (gpi : BitVec 16) (s : State) : Keeps s (referencePulse elapsed gpi s) := by
  have hrelock : s.rtu.ref ≠ .locked → Keeps s (if (s.rtu.advance elapsed).goodPulse.good = 8 then
      if (s.rtu.advance elapsed).rate.halfPeriod ≤ (s.rtu.advance elapsed).count then
        makeBoundary gpi (restartCount (changeRef .locked (s.setRtu (s.rtu.advance elapsed).goodPulse)))
      else restartCount (changeRef .locked (s.setRtu (s.rtu.advance elapsed).goodPulse))
      else s.setRtu (s.rtu.advance elapsed).goodPulse) := by
    intro href
    split
    · have hlocked := (relock_kept (elapsed := elapsed) href).trans (restartCount_kept _)
      split
      · exact hlocked.trans (makeBoundary_kept gpi _)
      · exact hlocked
    · exact goodPulse_kept fun _ => ‹_›
  unfold referencePulse
  dsimp only
  split
  · split
    · rename_i hlocked
      have hgood := (goodPulse_kept (elapsed := elapsed) fun h => absurd hlocked h).trans (restartCount_kept _)
      split
      · exact hgood.trans (makeBoundary_kept gpi _)
      · exact hgood
    · rename_i hfree
      exact hrelock fun h => absurd (hfree.symm.trans h) nofun
    · rename_i hfly
      exact hrelock fun h => absurd (hfly.symm.trans h) nofun
  · exact strayPulse_kept elapsed s

theorem windowClose_kept (s : State) : Keeps s (windowClose s) := by
  unfold windowClose
  split
  · exact .refl s
  · have hcount : ∀ t n e, Keeps s (s.setRtu { s.rtu.advance t with missing := min 2 n, good := 0, expected := e }) := fun t n e =>
      rtu_kept _ rfl rfl rfl fun _ => ⟨Nat.zero_le 8, Nat.min_le_left .., fun _ => Nat.zero_lt_succ 7⟩
    dsimp only
    split
    · exact (hcount _ _ _).trans (changeRef_kept fun _ _ => Nat.zero_lt_succ 7)
    · exact hcount _ _ _

end Sys2Proof.Proofs.Kept
end

