-- ==== Sys2Proof/Proofs/KeptStart.lean ====
section
/-! SUPPORT. The start, HALTING and HALTED, the resets, posts and the start of a strip keep the invariants; the invariants hold at reset. -/

namespace Sys2Proof.Proofs.Kept

open Sys2Proof Sys2Proof.Machine

/-! ### At reset -/

/-- Settles O4: each block's power-on values satisfy its own invariants. -/
theorem invariantsHoldAtReset : Obligations.InvariantsHoldAtReset := by
  have hlabel : State.reset.labelsSound := ⟨⟨by decide, by decide⟩, nofun⟩
  have hmonitor : State.reset.monitorSound := ⟨Nat.zero_le 8, Nat.zero_le 2, fun _ => Nat.zero_lt_succ 7⟩
  have hqueue : State.reset.queueSound := ⟨Nat.zero_le 64, .nil, nofun⟩
  have hfabric : State.reset.fabricSound := ⟨fun _ => ⟨rfl, rfl, rfl, rfl⟩, fun _ => rfl, fun _ => ⟨rfl, rfl, rfl⟩⟩
  have hmasters : State.reset.mastersSound := by simp [State.mastersSound, State.reset, Tly.reset, Channel.reset]
  have hcoeff : State.reset.coefficientsSound := ⟨.nil, Nat.zero_le 1032⟩
  have hifbs : State.reset.ifbsSound := by simp [State.ifbsSound, State.reset, Tke.reset, Ifb.reset]
  have hpanel : ∀ p, State.reset.panel p = Panel.reset := fun p => by simp [State.panel, State.reset, Pnc.reset]
  have hranges : State.reset.rangesSound := by
    refine ⟨fun p => ?_, fun p => by simp [hpanel, Panel.reset]⟩
    simp [State.reset, Tke.reset, Port.reset]
  have hpanels : State.reset.panelsSound := by
    rw [panelsSound_iff]
    refine ⟨fun p _ k => by simp [State.keyState, State.reset, Tke.reset], fun p => ?_⟩
    rw [hpanel]
    exact ⟨fun _ => rfl, fun _ => rfl, nofun⟩
  have hlamps : State.reset.lampsSound := fun p => by
    rw [hpanel]
    exact ⟨.nil, Nat.zero_le 3, fun k => by simp [Panel.reset]⟩
  exact ⟨rfl, hlabel, hmonitor, ⟨hqueue, ⟨Nat.zero_le 48, .nil⟩⟩, hfabric, hmasters, hcoeff, hifbs, hranges, hpanels, hlamps,
    ⟨.nil, nofun⟩, ⟨Nat.zero_le 65535, nofun⟩, ⟨nofun, nofun⟩⟩

/-! ### The start -/

theorem takeCopy_kept (c : AnchorCopy) (s : State) : Keeps s (takeCopy c s) := by
  refine .trans (.ofAnchor s s.csi.anchor (some c)) ?_
  refine .ofPosts _ _ s.csi.running fun h => ?_
  split
  · exact ⟨.nil, fun _ _ => nofun⟩
  · exact h

/-- A label rewritten at a rate change exists under the new rate (R2). -/
theorem rewriteLabel_exists {r r' : Rate} {l : Label} (h : Exists r l) : Exists r' (rewriteLabel r' l) := by
  obtain ⟨hhh, hmm, hss, -⟩ := (wellFormed_iff r l).mp h.1
  have hlt := drop_lt_base r'
  have hclamp : (if l.ff < r'.base then l.ff else r'.base - 1) < r'.base := by split <;> omega
  unfold rewriteLabel
  generalize (if l.ff < r'.base then l.ff else r'.base - 1) = ff at hclamp ⊢
  dsimp only
  split
  · rw [Exists, wellFormed_iff, ← Bool.not_eq_true, skipped_iff]
    exact ⟨⟨hhh, hmm, hss, hlt⟩, fun hs => absurd hs.2.1 (Nat.lt_irrefl _)⟩
  · rename_i hskip
    exact ⟨(wellFormed_iff _ _).mpr ⟨hhh, hmm, hss, hclamp⟩, by simpa using hskip⟩

theorem changeRate_kept (r : Rate) (s : State) : Keeps s (changeRate r s) := by
  refine .trans ?_ (changeRef_kept fun _ _ => Nat.zero_lt_succ 7)
  refine .ofRtu s _ (fun ⟨hlabel, hjam⟩ => ⟨rewriteLabel_exists hlabel, fun l hl => ?_⟩) fun h =>
    ⟨Nat.zero_le 8, Nat.zero_le 2, fun _ => Nat.zero_lt_succ 7⟩
  obtain ⟨l', hl', rfl⟩ := Option.map_eq_some_iff.mp hl
  exact rewriteLabel_exists (hjam l' hl')

theorem rejoin_kept (p : Fin 24) (s : State) : Keeps s (rejoin p s) := by
  unfold rejoin
  dsimp only
  split
  · exact (probeFlag_kept p false s).trans (changePanel_kept _ _ _)
  · exact probeFlag_kept p false s

/-- HALTED has nothing armed, so a sweep may start as the engine becomes SWEEP. -/
theorem enterSweep_kept {s : State} (h : s.runState = .halted) : Keeps s (enterSweep s) := by
  unfold enterSweep
  refine .trans ?_ (foldl_keeps_invariants (fun s l => serveLink_kept l s) _ _)
  refine .trans ?_ (talkSend_kept _)
  split
  · rename_i hup
    refine .ofXpe s { s.xpe with sweep := some (0, .v) } .sweep .intro fun ⟨_, _, hhalted⟩ => ?_
    exact ⟨fun hd => absurd (hup.symm.trans hd) nofun, fun _ => (hhalted h).1, nofun⟩
  · exact .ofXpe s s.xpe .sweep .intro fun ⟨hdown, hsweep, _⟩ => ⟨hdown, hsweep, nofun⟩

theorem nextComplete_kept (s : State) : Keeps s (nextComplete s) := mirror_kept { s.csi.mirror with complete := true } id

theorem startActions_kept {s : State} (h : s.runState = .halted) (r : Rate) (c : AnchorCopy) : Keeps s (startActions r c s) := by
  let s2 := if r = s.rtu.rate then takeCopy c s else changeRate r (takeCopy c s)
  have hrate : Keeps s s2 ∧ s2.runState = .halted := by
    by_cases hr : r = s.rtu.rate
    · simp only [s2, if_pos hr]
      exact ⟨takeCopy_kept c s, by simpa using h⟩
    · simp only [s2, if_neg hr]
      exact ⟨(takeCopy_kept c s).trans (changeRate_kept r _), by simpa using h⟩
  have hrun : (nextComplete (fullRefresh (forPanels rejoin s2))).runState = .halted := by
    have hrejoin := forPanels_keeps (fun x : State => x.runState) rejoin (fun p x => by simp) s2
    simpa using hrejoin.trans hrate.2
  have hjoin := (hrate.1.trans (forPanels_kept rejoin_kept _)).trans (fullRefresh_kept _)
  exact (hjoin.trans (nextComplete_kept _)).trans (enterSweep_kept hrun)

theorem overdueBoundary_kept (r old : Rate) (gpi : BitVec 16) (s : State) : Keeps s (overdueBoundary r old gpi s) := by
  unfold overdueBoundary
  split
  · exact (restartCount_kept s).trans (makeBoundary_kept gpi _)
  · exact .refl s

theorem clearRun_kept (s : State) : Keeps s (clearRun s) := control_kept { s.control with run := false } rfl

theorem tryStart_kept {s : State} (h : s.runState = .halted) (gpi : BitVec 16) : Keeps s (tryStart gpi s) := by
  have hfail := (raise_kept .badAnchor s).trans (clearRun_kept _)
  unfold tryStart
  dsimp only
  split
  · exact hfail
  · split
    · exact (startActions_kept h _ _).trans (overdueBoundary_kept _ _ _ _)
    · exact hfail

theorem advance_kept (ticks : Nat) (s : State) : Keeps s (advance ticks s) := rtu_kept (s.rtu.advance ticks) rfl rfl rfl id

theorem setMask_kept (m : BitVec 5) (s : State) : Keeps s (setMask m s) := control_kept { s.control with mask := m } rfl

theorem setRun_kept (gpi : BitVec 16) (s : State) : Keeps s (setRun gpi s) := by
  have hbit : Keeps s { s with control := { s.control with run := true } } := control_kept { s.control with run := true } rfl
  unfold setRun
  dsimp only
  split
  · rename_i hhalted
    exact hbit.trans (tryStart_kept (by exact hhalted.2) gpi)
  · exact hbit

/-! ### HALTING and HALTED -/

theorem halt_kept {s : State} (h : s.mayHalt = true) : Keeps s (halt s) := by
  have harmed : s.xpe.armed = [] := by
    simp only [State.mayHalt, Bool.and_eq_true, decide_eq_true_eq] at h
    exact h.1.2
  refine .ofXpe s { s.xpe with sweep := none, reportWait := none } .halted .intro fun ⟨hdown, _, _⟩ => ?_
  exact ⟨fun hl => ⟨harmed, rfl, rfl, (hdown hl).2.2.2⟩, fun hn => absurd rfl hn, fun _ => ⟨harmed, rfl, rfl⟩⟩

theorem enterHalted_kept (elapsed : Nat) (gpi : BitVec 16) (s : State) : Keeps s (enterHalted elapsed gpi s) := by
  unfold enterHalted
  split
  · rename_i hmay
    split
    · exact ((halt_kept hmay.2).trans (advance_kept elapsed _)).trans (tryStart_kept rfl gpi)
    · exact halt_kept hmay.2
  · exact .refl s

theorem examineHalting_kept (s : State) : Keeps s (examineHalting s) := by
  unfold examineHalting
  split
  · split
    · exact (freeCount_kept (s.freeCount + 1) s).trans (enterHalted_kept _ _ _)
    · exact .refl s
  · exact enterHalted_kept _ _ s

theorem examinedAfter_kept (taken : Bool) {event : State → State} {s : State} (h : Keeps s (event s)) :
    Keeps s (examinedAfter taken event s) := by
  unfold examinedAfter
  split
  · exact h.trans (examineHalting_kept _)
  · exact h

/-- Only a serving engine becomes HALTING. -/
theorem enterHalting_kept {s : State} (h : s.serving = true) : Keeps s (enterHalting s) := by
  have hrun : s.runState ≠ .halted := fun hh => by
    rw [serving_iff] at h
    simp [hh] at h
  have hhalting : Keeps s { s with runState := .halting } :=
    .ofXpe s s.xpe .halting .intro fun ⟨hdown, hsweep, _⟩ => ⟨hdown, hsweep, nofun⟩
  exact ((hhalting.trans (stopStrip_kept _)).trans (forceOff_kept _ _)).trans (examineHalting_kept _)

theorem runCleared_kept (s : State) : Keeps s (runCleared s) := by
  unfold runCleared
  dsimp only
  split
  · rename_i hserving
    exact (clearRun_kept s).trans (enterHalting_kept hserving)
  · exact clearRun_kept s

/-! ### Resets -/

theorem resetJournal_kept (s : State) : Keeps s (resetJournal s) := by
  unfold resetJournal
  split
  · exact .ofJournal s s.csi.writeIndex 0 false s.csi.notice fun _ => by simp
  · rename_i c _
    dsimp only
    refine .trans ?_ (setGap_kept _ _ _ _ fun _ => by simp)
    exact (Keeps.ofStore s (storeWrite s.store (c.address + 0x1E) (readIndex c s.store)) s.replaced s.freeCount (storeWrite_wf _ _)).trans
      (.ofJournal _ (readIndex c s.store) s.csi.gap s.csi.saturated s.csi.notice id)

/-- A CSI with no strip whose next rewrite is complete. -/
theorem noStrips_kept (s : State) : Keeps s { s with csi :=
    { s.csi with posts := [], running := none, mirror := { s.csi.mirror with complete := true } } } :=
  .trans (.ofPosts s [] none fun _ => ⟨.nil, nofun⟩) (mirror_kept { s.csi.mirror with complete := true } id)

theorem resetCsi_kept (s : State) : Keeps s (resetCsi s) := (resetJournal_kept s).trans (noStrips_kept _)

theorem resetXpe_kept (s : State) : Keeps s (resetXpe s) := by
  refine .trans ?_ (foldl_keeps_invariants (fun s u => unitDone_kept _ u s) _ _)
  refine .ofXpe s _ s.runState (fun _ _ => ⟨⟨Nat.zero_le 64, .nil, nofun⟩, Nat.zero_le 48, .nil⟩) fun _ => ?_
  exact ⟨fun _ => ⟨rfl, rfl, rfl, rfl⟩, fun _ => rfl, fun _ => ⟨rfl, rfl, rfl⟩⟩

/-- An empty coefficient queue with nothing in flight. -/
theorem emptyCoefficients_kept (s : State) : Keeps s { s with tke := { s.tke with queue := [], flight := none, fails := 0 } } :=
  tkeQueue_kept _ rfl rfl rfl fun _ => .nil

theorem resetTke_kept (s : State) : Keeps s (resetTke s) :=
  (((idleKeys_kept _ s).trans (deriveSets_kept _)).trans (retarget_kept _)).trans (emptyCoefficients_kept _)

theorem resetPnc_kept (s : State) : Keeps s (resetPnc s) := by
  refine panels_kept _ (fun p => ?_) (fun p => ?_) (fun p => ?_) fun p => ?_
  all_goals simp only [Fin.getElem_fin, tabulate_get]
  · exact id
  · exact id
  · exact fun h => ⟨fun _ => rfl, h.2.1, nofun⟩
  · exact fun h => ⟨.nil, h.2.1, fun k => by simp [Panel.afterReset]⟩

/-- The XPE after an engine reset: its reports change nothing of it. -/
theorem resetXpe_xpe (s : State) : (resetXpe s).xpe =
    { s.xpe with
      dests := tabulate fun d => s.xpe.dests[d].afterReset
      queue := [], armed := [], reportWait := none, ackWait := false, sweep := none, pingWait := false, reading := none
      fires := [] } :=
  foldl_keeps (fun x : State => x.xpe) (fun s u => unitDone .dropped u s) (fun _ _ => by simp) _ _

/-- HALTED with RUN clear, where nothing is armed, swept or awaited. -/
theorem haltedClear_kept {s : State} (ha : s.xpe.armed = []) (hs : s.xpe.sweep = none) (hw : s.xpe.reportWait = none) :
    Keeps s { s with runState := .halted, control := { s.control with run := false }, replaced := [] } := by
  have hhalted : Keeps s { s with runState := .halted } :=
    .ofXpe s s.xpe .halted .intro fun ⟨hdown, hsweep, _⟩ => ⟨hdown, hsweep, fun _ => ⟨ha, hs, hw⟩⟩
  refine (hhalted.trans (control_kept { s.control with run := false } rfl)).trans ?_
  exact .ofStore _ s.store [] s.freeCount id

theorem resetEngine_kept (s : State) : Keeps s (resetEngine s) := by
  have hxpe : (resetPnc (resetTke (resetXpe (resetCsi s)))).xpe = (resetXpe (resetCsi s)).xpe := by simp
  rw [resetXpe_xpe] at hxpe
  have hblocks := (((resetCsi_kept s).trans (resetXpe_kept _)).trans (resetTke_kept _)).trans (resetPnc_kept _)
  exact hblocks.trans (haltedClear_kept (by rw [hxpe]) (by rw [hxpe]) (by rw [hxpe]))

theorem orphanOrders_kept (s : State) : Keeps s (orphanOrders s) :=
  .trans (pncRest_kept s s.pnc.links (s.pnc.mapReads.map fun x => { x with forOrder := false }) s.pnc.flashEnds)
    (reader_kept _ _ _ s.xpe.salvos s.xpe.steps)

/-- The CSI's own fields at a restart. -/
theorem restart_kept (s : State) : Keeps s { s with
    control := { s.control with freeze := false }
    csi :=
      { s.csi with
        posts := [], running := none, notice := 0
        mirror := { s.csi.mirror with writing := none, waiting := none, complete := true, freeze := .live } } } := by
  refine .trans (.ofPosts s [] none fun _ => ⟨.nil, nofun⟩) ?_
  refine .trans (.ofJournal _ s.csi.writeIndex s.csi.gap s.csi.saturated 0 id) ?_
  exact .ofMirror _ { s.csi.mirror with writing := none, waiting := none, complete := true, freeze := .live }
    { s.control with freeze := false } fun _ => ⟨nofun, nofun⟩

theorem restartInterface_kept (s : State) : Keeps s (restartInterface s) :=
  ((orphanOrders_kept s).trans (resetJournal_kept _)).trans (restart_kept _)

theorem powerOn_kept (s : State) : Keeps s (powerOn s) := by
  obtain ⟨-, hlabels, hmonitor, htakes, hfabric, hmasters, hcoeff, hifbs, hranges, hpanels, hlamps, hposts, hgap, hfreeze⟩ :=
    invariantsHoldAtReset
  exact ⟨⟨id, fun _ => hlabels, fun _ => hmonitor, fun _ _ => htakes, fun _ => hfabric, fun _ => hmasters, fun _ => hcoeff, fun _ => hifbs,
    fun _ => hranges, fun _ => hlamps, fun _ => hposts, fun _ => hgap, fun _ => hfreeze⟩, fun _ => hpanels⟩

/-! ### Posts, withdraws and the start of a strip -/

/-- A slot that is not in the engine's hands may join the post queue. -/
theorem posted_kept {s : State} {p : Posted} (h : s.inHands p.slot = false) :
    Keeps s { s with csi := { s.csi with posts := s.csi.posts ++ [p] } } := by
  simp only [State.inHands, Bool.or_eq_false_iff, List.any_eq_false, decide_eq_true_eq] at h
  obtain ⟨hposts, hrunning⟩ := h
  refine .ofPosts s _ s.csi.running fun ⟨hnodup, hother⟩ => ⟨?_, fun r hr q hq => ?_⟩
  · rw [List.map_append, List.nodup_append]
    refine ⟨hnodup, by simp, ?_⟩
    simp only [List.map_cons, List.map_nil, List.mem_singleton, List.mem_map]
    rintro _ ⟨q, hq, rfl⟩ _ rfl
    exact hposts q hq
  · rcases List.mem_append.mp hq with hq | hq
    · exact hother r hr q hq
    · obtain rfl : q = p := by simpa using hq
      intro heq
      rw [hr] at hrunning
      simp [heq] at hrunning

theorem postable_slot {c : AnchorCopy} {m : Memory} {slot : Fin 8} {p : Posted} (h : postable c m slot = some p) : p.slot = slot := by
  unfold postable at h
  dsimp only at h
  split at h
  · simp only [Option.some.injEq] at h
    exact congrArg Posted.slot h.symm
  · simp at h

theorem postSlot_kept (slot : Fin 8) (s : State) : Keeps s (postSlot slot s) := by
  unfold postSlot
  split
  · rename_i hfree
    split
    · exact raise_kept _ s
    · rename_i p hp
      obtain ⟨c, -, hpost⟩ := Option.bind_eq_some_iff.mp hp
      refine .trans (posted_kept (p := p) ?_) (writeSlotState_kept _ _ _)
      rw [postable_slot hpost]
      exact hfree.2
  · exact raise_kept _ s

/-- Slots may leave the post queue. -/
theorem fewerPosts_kept {s : State} {ps : List Posted} (h : ps.Sublist s.csi.posts) :
    Keeps s { s with csi := { s.csi with posts := ps } } :=
  .ofPosts s ps s.csi.running fun hs => ⟨hs.1.sublist (h.map _), fun r hr p hp => hs.2 r hr p (h.subset hp)⟩

theorem withdrawSlot_kept (slot : Fin 8) (s : State) : Keeps s (withdrawSlot slot s) := by
  unfold withdrawSlot
  split
  · refine .trans ?_ (slotDone_kept _ _)
    refine .trans ?_ (writeCounts_kept _ _ _ _)
    exact (fewerPosts_kept List.filter_sublist).trans (writeOutcomes_kept _ _ _ _ _ _ _)
  · split
    · exact .refl s
    · split
      · exact stopStrip_kept s
      · exact .refl s

theorem salvoStrip_kept (rs : List OrderRecord) (s : State) : Keeps s (salvoStrip rs s).1 := by
  unfold salvoStrip
  split
  · split
    · exact .refl s
    · unfold decideStrip
      split
      · exact .refl s
      · rename_i hes
        split
        · split
          · exact .refl s
          · exact decideSalvo_kept (salvoEntries_admissible hes) _ _ _ _
        · exact .refl s
  · exact .refl s

theorem runSalvoStrip_kept (p : Posted) (s : State) : Keeps s (runSalvoStrip p s) := by
  refine .trans ?_ (slotDone_kept _ _)
  refine .trans ?_ (writeCounts_kept _ _ _ _)
  exact (salvoStrip_kept _ s).trans (writeOutcomes_kept _ _ _ _ _ _ _)

/-- The head slot leaves the post queue and becomes the running strip. -/
theorem headRuns_kept {s : State} {p : Posted} {rest : List Posted} (h : s.csi.posts = p :: rest) :
    Keeps s { s with csi := { s.csi with posts := rest, running := some p.begin } } := by
  refine .ofPosts s rest _ fun ⟨hnodup, _⟩ => ?_
  rw [h, List.map_cons, List.nodup_cons] at hnodup
  refine ⟨hnodup.2, fun r hr q hq heq => hnodup.1 ?_⟩
  obtain rfl : p.begin = r := by simpa using hr
  exact List.mem_map.mpr ⟨q, hq, heq⟩

/-- Writing a header commutes with the record of the running strip. -/
theorem writeHeader_running (slot : Fin 8) (r : Option Running) (s : State) :
    { writeCounts slot 0 0 (writeSlotState slot 3 s) with csi := { (writeCounts slot 0 0 (writeSlotState slot 3 s)).csi with running := r } } =
      writeCounts slot 0 0 (writeSlotState slot 3 { s with csi := { s.csi with running := r } }) := by
  unfold writeCounts writeSlotState
  cases h : s.csi.copy <;> simp [h, State.put]

theorem startStrip_kept (s : State) : Keeps s (startStrip s) := by
  unfold startStrip
  split
  · exact .refl s
  · rename_i p rest hposts
    split
    · dsimp only
      split
      · refine .trans ?_ (runSalvoStrip_kept p _)
        refine ((fewerPosts_kept ?_).trans (writeSlotState_kept _ _ _)).trans (writeCounts_kept _ _ _ _)
        rw [hposts]
        exact List.sublist_cons_self p rest
      · rw [writeHeader_running]
        exact ((headRuns_kept hposts).trans (writeSlotState_kept _ _ _)).trans (writeCounts_kept _ _ _ _)
    · exact .refl s

end Sys2Proof.Proofs.Kept
end

