-- ==== Sys2Proof/Proofs/InvariantsKept.lean ====
section
/-! SUPPORT. Every order, every command and so every step keeps every invariant: the statements on what a step keeps. -/

namespace Sys2Proof.Proofs.Kept

open Sys2Proof Sys2Proof.Machine

/-! ### The orders -/

/-- What a block's answer to an order keeps: the invariants, and, when it comes at once, the running strip. -/
def AnswerKeeps (s : State) (x : State × Answer) : Prop := Keeps s x.1 ∧ (x.2 ≠ .later → x.1.csi.running = s.csi.running)

theorem refused_keeps (c : Code) (s : State) : AnswerKeeps s (refused c s) := ⟨.refl s, fun _ => rfl⟩

theorem done_keeps {s t : State} (h : Keeps s t) (hr : t.csi.running = s.csi.running) : AnswerKeeps s (done t) := ⟨h, fun _ => hr⟩

theorem doneClamped_keeps {s t : State} (n : Nat) (h : Keeps s t) (hr : t.csi.running = s.csi.running) :
    AnswerKeeps s (doneClamped n t) := ⟨h, fun _ => hr⟩

theorem later_keeps {s t : State} (h : Keeps s t) : AnswerKeeps s (t, .later) := ⟨h, fun hne => absurd rfl hne⟩

theorem timeSet_keeps : BlockKeeps timeSet := by
  intro q rec s
  unfold timeSet
  split
  · exact refused_keeps _ s
  · rename_i hlabel
    refine done_keeps (.ofRtu s { s.rtu with jam := some (labelAt rec 4) } (fun h => ⟨h.1, fun l hl => ?_⟩) id) rfl
    obtain rfl : labelAt rec 4 = l := by simpa [State.setRtu] using hl
    unfold labelRefusal at hlabel
    split at hlabel
    · rename_i hformed
      exact ⟨hformed, by simpa using hlabel⟩
    · simp at hlabel

theorem cueSet_keeps : BlockKeeps cueSet := by
  intro q rec s
  unfold cueSet
  split
  · exact refused_keeps _ s
  · split
    · exact refused_keeps _ s
    · exact done_keeps (setCue_kept _ _ s) rfl

theorem cueClear_keeps : BlockKeeps cueClear := by
  intro q rec s
  unfold cueClear
  split
  · exact refused_keeps _ s
  · exact done_keeps (setCue_kept _ _ s) rfl

/-- A destination loses levels, and the entries at just those levels leave the queue. -/
theorem narrowed_kept {s : State} (d : Fin 64) (x : Destination) :
    Keeps s (cancelEntries d ((s.dest d).present &&& ~~~x.present) (s.setDest d x)).1 := by
  refine .trans ?_ (foldl_keeps_invariants (fun s _ => takeDone_kept _ _ _ _ s) _ _)
  refine .ofXpe s _ s.runState (fun hq ha => ⟨?_, ha⟩) id
  rw [queueSound_iff] at hq ⊢
  have hsub : (unitEntries (removeEntries (fun y => decide (y.dest = d) && hasLevel ((s.dest d).present &&& ~~~x.present) y.level)
      s.xpe.queue)).Sublist (unitEntries s.xpe.queue) := by
    rw [removeEntries_entries]
    exact List.filter_sublist
  refine ⟨hsub.length_le.trans hq.1, hq.2.1.sublist hsub, fun y hy => ?_⟩
  have hold := hq.2.2 y (hsub.subset hy)
  show hasLevel ((s.setDest d x).dest y.dest).present y.level = true
  rw [setDest_dest]
  split
  · rename_i hd
    subst hd
    replace hy : y ∈ unitEntries (removeEntries _ s.xpe.queue) := hy
    rw [removeEntries_entries, List.mem_filter] at hy
    have hlt : y.level.num < 3 := by cases y.level <;> decide
    have hkept := hy.2
    simp only [hasLevel, hlt, BitVec.getLsbD_and, BitVec.getLsbD_not, decide_true, Bool.true_and] at hkept hold ⊢
    simpa [hold] using hkept
  · exact hold

theorem destSet_keeps : BlockKeeps destSet := by
  intro q rec s
  unfold destSet
  split
  · exact refused_keeps _ s
  · exact done_keeps (narrowed_kept _ ((s.dest _).configured _)) (by simp)

theorem salvoSet_keeps : BlockKeeps salvoSet := by
  have hset : ∀ (n : Fin 16) x (s : State), Keeps s (s.setSalvo n x) := fun n x s => reader_kept s s.xpe.reading s.xpe.fires _ s.xpe.steps
  intro q rec s
  unfold salvoSet
  split
  · exact refused_keeps _ s
  · split
    · exact refused_keeps _ s
    · split
      · exact done_keeps (hset _ _ s) rfl
      · split
        · exact done_keeps (hset _ _ s) rfl
        · exact refused_keeps _ s

theorem stepSet_keeps : BlockKeeps stepSet := by
  intro q rec s
  unfold stepSet
  split
  · exact refused_keeps _ s
  · exact done_keeps (reader_kept s s.xpe.reading s.xpe.fires s.xpe.salvos _) rfl

theorem take_keeps : BlockKeeps take := by
  intro q rec s
  unfold take
  split
  · exact ⟨requestTake_kept _ _ _ _ _ _ s, fun _ => by simp⟩
  · exact refused_keeps _ s

theorem cancel_keeps : BlockKeeps cancel := by
  intro q rec s
  unfold cancel
  split
  · exact refused_keeps _ s
  · exact ⟨cancelEntries_kept _ _ s, fun _ => by simp⟩

theorem protect_keeps : BlockKeeps protect := by
  intro q rec s
  unfold protect
  split
  · exact refused_keeps _ s
  · exact ⟨requestProtect_kept _ _ s, fun _ => by simp⟩

theorem release_keeps : BlockKeeps release := by
  intro q rec s
  unfold release
  split
  · exact refused_keeps _ s
  · exact ⟨requestRelease_kept _ _ s, fun _ => by simp⟩

theorem salvoFire_keeps : BlockKeeps salvoFire := by
  intro q rec s
  unfold salvoFire
  split
  · exact refused_keeps _ s
  · split
    · exact refused_keeps _ s
    · exact later_keeps ((markWaiting_kept s).trans (fire_kept _ _))

theorem clamped_range {lo hi : Int} (h : lo ≤ hi) (x : Int) : lo ≤ clampInt lo hi x ∧ clampInt lo hi x ≤ hi := by
  unfold clampInt
  split
  · omega
  · split <;> omega

theorem panelSet_keeps : BlockKeeps panelSet := by
  intro q rec s
  unfold panelSet
  split
  · exact refused_keeps _ s
  · rename_i p c _
    have hthreshold := clamped_range (lo := 4) (hi := 50) (by decide) c.threshold
    have hset : Keeps s (s.setPanel p ((s.panel p).configured c)) :=
      setPanel_kept p ((s.panel p).configured c) (fun _ => ⟨by show 4 ≤ (clampInt 4 50 c.threshold).toNat; omega,
        by show (clampInt 4 50 c.threshold).toNat ≤ 50; omega⟩) id id id
    have hdemote : ∀ old new (x : State), Keeps x (panelDemotion p old new x) := by
      intro old new x
      unfold panelDemotion
      split
      · exact demote_kept _ _ x
      · exact .refl x
    have hstation : ∀ b (x : State), Keeps x (panelStation p b x) := by
      intro b x
      unfold panelStation
      split
      · exact (idleKeys_kept _ x).trans (derivation_kept _)
      · exact .refl x
    have hmode : ∀ b (x : State), Keeps x (panelMode p b x) := by
      intro b x
      unfold panelMode
      split
      · exact noPreset_kept p x
      · exact .refl x
    have hstate : ∀ old (x : State), Keeps x (panelState p old c x) := by
      intro old x
      unfold panelState
      split
      · exact (probeFlag_kept p false x).trans (changePanel_kept _ _ _)
      · split
        · exact changePanel_kept _ _ x
        · exact .refl x
    refine doneClamped_keeps _ ((((hset.trans (hdemote _ _ _)).trans (hstation _ _)).trans (hmode _ _)).trans (hstate _ _)) ?_
    have hrun : ∀ old (x : State), (panelState p old c x).csi.running = x.csi.running := by
      intro old x
      unfold panelState
      split
      · simp
      · split <;> simp
    have hrun' : ∀ b b' old new (x : State), (panelMode p b (panelStation p b' (panelDemotion p old new x))).csi.running = x.csi.running := by
      intro b b' old new x
      unfold panelMode panelStation panelDemotion
      repeat' split
      all_goals simp
    simp only [hrun, hrun']
    simp

theorem keymapLoad_keeps : BlockKeeps keymapLoad := by
  intro q rec s
  unfold keymapLoad
  split
  · exact refused_keeps _ s
  · split
    · refine later_keeps (.trans (markWaiting_kept s) ?_)
      exact pncRest_kept _ s.pnc.links _ s.pnc.flashEnds
    · exact refused_keeps _ s

theorem lampSet_keeps : BlockKeeps lampSet := by
  intro q rec s
  unfold lampSet
  split
  · split
    · exact done_keeps (.trans (setPanel_kept _ ((s.panel _).withLamp _ _) id id id id) (derivePanel_kept _ _)) (by simp)
    · exact refused_keeps _ s
  · exact refused_keeps _ s

/-- The level terms of a PORT_SET are in their ranges, by clamping (R107). -/
theorem portSetArgs_range {rec : OrderRecord} {p : Fin 32} {x : Port} {n : Nat} (h : portSetArgs rec = some (p, x, n)) :
    (-24 ≤ x.outTrim ∧ x.outTrim ≤ 24) ∧ (-60 ≤ x.inTrim ∧ x.inTrim ≤ 24) ∧ (0 ≤ x.dim ∧ x.dim ≤ 60) := by
  unfold portSetArgs at h
  simp only [Option.bind_eq_bind, Option.bind_eq_some_iff] at h
  obtain ⟨p', -, k, -, h⟩ := h
  split at h
  · simp at h
  · simp only [Option.some.injEq, Prod.mk.injEq] at h
    obtain ⟨-, rfl, -⟩ := h
    exact ⟨clamped_range (by decide) _, clamped_range (by decide) _, clamped_range (by decide) _⟩

/-- A port that takes another record keeps the IFB records on IFB ports when it is one, or none names it. -/
theorem setPort_kept {s : State} {p : Fin 32} {x : Port} (hk : x.kind = .ifb ∨ s.namedByIfb p (fun _ => true) = false)
    (hx : (-24 ≤ x.outTrim ∧ x.outTrim ≤ 24) ∧ (-60 ≤ x.inTrim ∧ x.inTrim ≤ 24) ∧ (0 ≤ x.dim ∧ x.dim ≤ 60)) :
    Keeps s { s with tke := { s.tke with ports := upd s.tke.ports p x } } := by
  have hget : ∀ q : Fin 32, (upd s.tke.ports p x)[q] = if p = q then x else s.tke.ports[q] := fun q => upd_get ..
  refine ports_kept _ (fun ⟨hports, _⟩ i q hq => ?_) fun ⟨hterms, _⟩ q => ?_
  · rw [hget]
    split
    · rename_i hpq
      subst hpq
      refine hk.resolve_right fun hnone => ?_
      simp only [State.namedByIfb, Bool.true_and, List.any_eq_false, List.mem_finRange, decide_eq_true_eq, forall_const] at hnone
      exact hnone i hq
    · exact hports i q hq
  · rw [hget]
    split
    · exact hx
    · exact hterms q

theorem portSet_keeps : BlockKeeps portSet := by
  intro q rec s
  unfold portSet
  split
  · exact refused_keeps _ s
  · rename_i p x n hargs
    split
    · exact refused_keeps _ s
    · rename_i hallowed
      have hk : x.kind = .ifb ∨ s.namedByIfb p (fun _ => true) = false := by
        by_cases hx : x.kind = .ifb
        · exact .inl hx
        · exact .inr (by simpa [hx] using hallowed)
      have hports := setPort_kept hk (portSetArgs_range hargs)
      dsimp only
      split
      · exact doneClamped_keeps n ((hports.trans (forceOff_kept _ _)).trans (derivation_kept _)) (by simp)
      · exact doneClamped_keeps n (hports.trans (derivation_kept _)) (by simp)

theorem groups_kept (v : Vector PortSet 8) (s : State) : Keeps s { s with tke := { s.tke with groups := v } } :=
  tkeQueue_kept _ rfl rfl rfl id

theorem groupSet_keeps : BlockKeeps groupSet := by
  intro q rec s
  unfold groupSet
  split
  · exact refused_keeps _ s
  · exact done_keeps ((groups_kept _ s).trans (derivation_kept _)) (by simp)

/-- A record that is undefined, or that names an IFB port which no other record names. -/
theorem setIfb_kept {s : State} {i : Fin 8} {x : Ifb}
    (h : ∀ p, x.port = some p → s.tke.ports[p].kind = .ifb ∧ s.namedByIfb p (fun j => decide (j ≠ i)) = false) : Keeps s (s.setIfb i x) := by
  have hget : ∀ j : Fin 8, (upd s.tke.ifbs i x)[j] = if i = j then x else s.tke.ifbs[j] := fun j => upd_get ..
  have hother : ∀ p, x.port = some p → ∀ j : Fin 8, j ≠ i → s.tke.ifbs[j].port ≠ some p := by
    intro p hp j hj hnamed
    have hnone := (h p hp).2
    simp only [State.namedByIfb, List.any_eq_false, List.mem_finRange, Bool.and_eq_true, decide_eq_true_eq, forall_const, not_and] at hnone
    exact hnone j hj hnamed
  refine ifbs_kept _ fun ⟨hports, hdistinct⟩ => ⟨fun j p hj => ?_, fun j k p hj hk => ?_⟩
  · rw [hget] at hj
    split at hj
    · exact (h p hj).1
    · exact hports j p hj
  · rw [hget] at hj hk
    split at hj <;> split at hk
    · exact Eq.trans (Eq.symm ‹i = j›) ‹i = k›
    · exact absurd hk (hother p hj k (Ne.symm ‹_›))
    · exact absurd hj (hother p hk j (Ne.symm ‹_›))
    · exact hdistinct j k p hj hk

theorem ifbPort_some {s : State} {i : Fin 8} {rec : OrderRecord} {p : Fin 32} (h : s.ifbPort i rec = some p) :
    s.tke.ports[p].kind = .ifb ∧ s.namedByIfb p (fun j => decide (j ≠ i)) = false := by
  unfold State.ifbPort at h
  simp only [Option.bind_eq_bind, Option.bind_eq_some_iff] at h
  obtain ⟨p', -, -, -, -, -, -, -, h⟩ := h
  split at h
  · simp only [Option.some.injEq] at h
    subst h
    assumption
  · simp at h

theorem ifbSet_keeps : BlockKeeps ifbSet := by
  intro q rec s
  unfold ifbSet
  split
  · exact refused_keeps _ s
  · split
    · refine done_keeps (.trans (setIfb_kept ?_) (derivation_kept _)) (by simp [State.setIfb])
      exact fun p hp => absurd hp nofun
    · split
      · exact refused_keeps _ s
      · rename_i hport
        refine doneClamped_keeps _ (.trans (setIfb_kept ?_) (derivation_kept _)) (by simp [State.setIfb])
        intro p hp
        obtain rfl : _ = p := by simpa [ifbFields] using hp
        exact ifbPort_some hport

theorem talkForce_keeps : BlockKeeps talkForce := by
  intro q rec s
  unfold talkForce
  split
  · exact refused_keeps _ s
  · split
    · exact refused_keeps _ s
    · split
      · exact done_keeps (forceOff_kept _ s) (by simp)
      · split
        · rename_i hon
          exact done_keeps (setKey_kept hon.1 _ _) (by simp)
        · exact refused_keeps _ s

/-- A channel that keeps its master, or takes one that it may have (R77). -/
theorem setChannel_kept {s : State} {c : Fin 64} {x : Channel}
    (h : x.master = s.tly.channels[c].master ∨ s.masterAllowed c x.master = true) : Keeps s (s.setChannel c x) := by
  have hget : ∀ i : Fin 64, (upd s.tly.channels c x)[i] = if c = i then x else s.tly.channels[i] := fun i => upd_get ..
  refine .ofTly s _ fun hs i m him => ?_
  replace him : (upd s.tly.channels c x)[i].master = some m := him
  show m ≠ i ∧ (upd s.tly.channels c x)[m].master = none
  rw [hget] at him ⊢
  rcases h with hsame | hallowed
  · have hmaster : ∀ j : Fin 64, (if c = j then x else s.tly.channels[j]).master = s.tly.channels[j].master := by
      intro j
      split
      · rename_i hj
        subst hj
        exact hsame
      · rfl
    rw [hmaster] at him ⊢
    exact hs i m him
  · split at him
    · rename_i hci
      subst hci
      simp only [State.masterAllowed, him, Bool.and_eq_true, decide_eq_true_eq, Option.isNone_iff_eq_none] at hallowed
      rw [if_neg (Ne.symm hallowed.1.1)]
      exact hallowed.1
    · rename_i hci
      obtain ⟨hne, hnone⟩ := hs i m him
      refine ⟨hne, ?_⟩
      split
      · rename_i hcm
        subst hcm
        cases hx : x.master with
        | none => rfl
        | some m' =>
          simp only [State.masterAllowed, hx, Bool.and_eq_true, List.all_eq_true, List.mem_finRange, Bool.or_eq_true,
            decide_eq_true_eq, forall_const] at hallowed
          exact absurd him ((hallowed.2 i).resolve_left (Ne.symm hci))
      · exact hnone

theorem tallySet_keeps : BlockKeeps tallySet := by
  intro q rec s
  unfold tallySet
  split
  · exact refused_keeps _ s
  · split
    · exact done_keeps (setChannel_kept (.inr ‹_›)) rfl
    · exact refused_keeps _ s

theorem tallyForce_keeps : BlockKeeps tallyForce := by
  intro q rec s
  unfold tallyForce
  split
  · exact refused_keeps _ s
  · exact done_keeps (setChannel_kept (.inl rfl)) rfl

theorem gpiSet_keeps : BlockKeeps gpiSet := by
  intro q rec s
  unfold gpiSet
  split
  · dsimp only
    split
    · refine done_keeps (.trans ?_ (reportNow_kept _ _)) (by simp)
      exact tly_kept _ rfl
    · exact done_keeps (tly_kept _ rfl) rfl
  · exact refused_keeps _ s

theorem runOrder_kept {kind : Nat} {block : Requester → OrderRecord → State → State × Answer} (h : BlockKeeps block) (s : State) :
    Keeps s (runOrder kind block s) := examinedAfter_kept _ (workOrder_kept h s)

theorem refuseKind_kept (s : State) : Keeps s (refuseKind s) := by
  unfold refuseKind
  split
  · exact .refl s
  · rename_i horder
    split
    · exact .refl s
    · exact finishOrder_kept (currentOrder_running horder).1 rfl _ _ _

/-! ### The commands -/

theorem landed_kept {pre : HostWrites} {s t : State} {access : State → State} (h : ∀ s, Keeps s (access s))
    (ht : landed pre s access = .next t) : Keeps s t := by
  unfold landed at ht
  split at ht
  · simp at ht
  · simp only [Host.Outcome.next.injEq] at ht
    exact ht ▸ (withWrites_kept pre s).trans (h _)

theorem takeReport_kept (lines : List ReportLine) (s : State) : Keeps s (takeReport lines s) :=
  examinedAfter_kept _ (receiveReport_kept lines s)

theorem takeAck_kept (s : State) : Keeps s (takeAck s) := examinedAfter_kept _ (talkAcknowledged_kept s)

theorem takeFailure_kept (s : State) : Keeps s (takeFailure s) := examinedAfter_kept _ (talkFailed_kept s)

theorem receiveFabric_kept (m : FabricMessage) (s : State) : Keeps s (receiveFabric m s) := by
  cases m with
  | armAck => exact receiveArmAck_kept s
  | switchReport lines => exact takeReport_kept lines s
  | readAnswer d l x => exact receiveRead_kept d l x s
  | pingAnswer => exact receivePing_kept s

theorem resetThen_kept (restart : Bool) (mask : BitVec 5) (s : State) :
    Keeps s (setMask mask (if restart then restartInterface (resetEngine s) else resetEngine s)) := by
  refine .trans ?_ (setMask_kept mask _)
  split
  · exact (resetEngine_kept s).trans (restartInterface_kept _)
  · exact resetEngine_kept s

theorem writeAnchor_kept (value : BitVec 32) (s : State) : Keeps s (writeAnchor value s) := by
  unfold writeAnchor
  split
  · exact .ofAnchor s _ s.csi.copy
  · exact .refl s

theorem clearCauses_kept (causes : BitVec 5) (s : State) : Keeps s (clearCauses causes s) :=
  .ofJournal s s.csi.writeIndex s.csi.gap s.csi.saturated _ id

theorem ofNext {s t u : State} (h : Keeps s t) (ht : (.next t : Host.Outcome State Fault Refusal) = .next u) : Keeps s u := by
  simp only [Host.Outcome.next.injEq] at ht
  exact ht ▸ h

/-- Every command keeps every invariant. -/
theorem exec_kept {c : Instr} {s t : State} (h : exec c s = .next t) : Keeps s t := by
  cases c with
  | powerOnReset => exact ofNext (powerOn_kept s) h
  | frameBoundary gpi => exact ofNext (scalerBoundary_kept gpi s) h
  | referencePulse elapsed gpi => exact ofNext (referencePulse_kept elapsed gpi s) h
  | referenceWindowClose => exact ofNext (windowClose_kept s) h
  | anchorWrite pre value => exact landed_kept (writeAnchor_kept value) h
  | post pre slot => exact landed_kept (postSlot_kept slot) h
  | withdraw pre slot => exact landed_kept (withdrawSlot_kept slot) h
  | start pre elapsed gpi freeze mask =>
    exact landed_kept (fun s => (((advance_kept elapsed s).trans (setMask_kept mask _)).trans (setFreezeBit_kept freeze _)).trans
      (setRun_kept gpi _)) h
  | runClear pre freeze mask =>
    exact landed_kept (fun s => ((setMask_kept mask s).trans (setFreezeBit_kept freeze _)).trans (runCleared_kept _)) h
  | freezeSet pre mask => exact landed_kept (fun s => (setMask_kept mask s).trans (setFreezeBit_kept true _)) h
  | freezeClear pre mask => exact landed_kept (fun s => (setMask_kept mask s).trans (setFreezeBit_kept false _)) h
  | engineReset pre restart mask => exact landed_kept (resetThen_kept restart mask) h
  | interfaceRestart pre mask =>
    exact landed_kept (fun s => ((restartInterface_kept s).trans (setMask_kept mask _)).trans (examineHalting_kept _)) h
  | noticeEnableWrite pre mask => exact landed_kept (setMask_kept mask) h
  | noticeClear pre causes => exact landed_kept (clearCauses_kept causes) h
  | statusWrite pre value => exact landed_kept .refl h
  | enterHalted elapsed gpi => exact ofNext (enterHalted_kept elapsed gpi s) h
  | stripStart => exact ofNext (startStrip_kept s) h
  | orderOfUnknownKind => exact ofNext (examinedAfter_kept _ (refuseKind_kept s)) h
  | timeSet => exact ofNext (runOrder_kept timeSet_keeps s) h
  | cueSet => exact ofNext (runOrder_kept cueSet_keeps s) h
  | cueClear => exact ofNext (runOrder_kept cueClear_keeps s) h
  | destSet => exact ofNext (runOrder_kept destSet_keeps s) h
  | salvoSet => exact ofNext (runOrder_kept salvoSet_keeps s) h
  | stepSet => exact ofNext (runOrder_kept stepSet_keeps s) h
  | take => exact ofNext (runOrder_kept take_keeps s) h
  | cancel => exact ofNext (runOrder_kept cancel_keeps s) h
  | protect => exact ofNext (runOrder_kept protect_keeps s) h
  | release => exact ofNext (runOrder_kept release_keeps s) h
  | salvoFire => exact ofNext (runOrder_kept salvoFire_keeps s) h
  | salvoReadDone => exact ofNext (examinedAfter_kept _ (finishRead_kept s)) h
  | panelSet => exact ofNext (runOrder_kept panelSet_keeps s) h
  | keymapLoad => exact ofNext (runOrder_kept keymapLoad_keeps s) h
  | keymapReadDone => exact ofNext (examinedAfter_kept _ (finishMapRead_kept s)) h
  | lampSet => exact ofNext (runOrder_kept lampSet_keeps s) h
  | portSet => exact ofNext (runOrder_kept portSet_keeps s) h
  | groupSet => exact ofNext (runOrder_kept groupSet_keeps s) h
  | ifbSet => exact ofNext (runOrder_kept ifbSet_keeps s) h
  | talkForce => exact ofNext (runOrder_kept talkForce_keeps s) h
  | tallySet => exact ofNext (runOrder_kept tallySet_keeps s) h
  | tallyForce => exact ofNext (runOrder_kept tallyForce_keeps s) h
  | gpiSet => exact ofNext (runOrder_kept gpiSet_keeps s) h
  | armAck => exact ofNext (receiveArmAck_kept s) h
  | armAckTimeout => exact ofNext (examinedAfter_kept _ (armTimeout_kept s)) h
  | switchReport lines => exact ofNext (takeReport_kept lines s) h
  | switchReportTimeout => exact ofNext (examinedAfter_kept _ (reportTimeout_kept s)) h
  | mirrorRewriteEnd => exact ofNext (endRewrite_kept s) h
  | readAnswer dest level number => exact ofNext (receiveRead_kept dest level number s) h
  | readTimeout => exact ofNext (examinedAfter_kept _ (readTimeout_kept s)) h
  | pingAnswer => exact ofNext (receivePing_kept s) h
  | pingTimeout => exact ofNext (pingWait_kept false s) h
  | fabricMessageIgnored message =>
    replace h : execFabricMessageIgnored message s = .next t := h
    unfold execFabricMessageIgnored at h
    split at h
    · exact ofNext (.refl s) h
    · split at h
      · exact ofNext (.refl s) h
      · exact ofNext (receiveFabric_kept _ s) h
  | reply link message => exact ofNext (receiveReply_kept link message s) h
  | pollWindowClose link => exact ofNext (closePoll_kept link s) h
  | probeAnswer link address code => exact ofNext (receiveProbeAnswer_kept link address code s) h
  | probeTimeout link => exact ofNext (closeProbe_kept link s) h
  | autoLatchThreshold => exact ofNext (examineKeys_kept s) h
  | refusalFlashEnd => exact ofNext (endFlashes_kept s) h
  | ack => exact ofNext (takeAck_kept s) h
  | refuse => exact ofNext (takeFailure_kept s) h
  | talkWriteTimeout => exact ofNext (takeFailure_kept s) h
  | talkMessageIgnored message =>
    replace h : execTalkMessageIgnored message s = .next t := h
    unfold execTalkMessageIgnored at h
    split at h
    · exact ofNext (.refl s) h
    · split at h
      · exact ofNext (.refl s) h
      · exact ofNext (takeAck_kept s) h
      · exact ofNext (takeFailure_kept s) h
  | panelMessageIgnored link message =>
    replace h : execPanelMessageIgnored link message s = .next t := h
    unfold execPanelMessageIgnored at h
    split at h
    · exact ofNext (.refl s) h
    · split at h
      · exact ofNext (.refl s) h
      · exact ofNext (receiveProbeAnswer_kept link _ _ s) h
      · exact ofNext (receiveReply_kept link _ s) h

/-- Every step keeps every invariant: an idle step changes nothing, and any other runs a command. -/
theorem step_kept {s t : State} (h : step s = .next t) : Keeps s t := by
  unfold step at h
  split at h
  · exact ofNext (.refl s) h
  · exact (Keeps.ofPending s _).trans (exec_kept h)

/-! ### The statements -/

/-- Settles O5: every store write of the engine is a run of single writes, which keep the canonical form. -/
theorem stepKeepsStoreCanonical : Obligations.StepKeepsStoreCanonical := fun _ _ hs h => (step_kept h).store hs

/-- Settles O6: succession, the rewriting at a rate change and the checked jam request give labels that exist; the counts are bounded where they rise. -/
theorem stepKeepsFrameTime : Obligations.StepKeepsFrameTime := fun _ _ hl hm h => ⟨(step_kept h).labels hl, (step_kept h).monitor hm⟩

/-- Settles O7: a unit is admitted behind what it leaves of the queue, within 64 entries, and a load takes entries out of the queue, within 48. -/
theorem stepKeepsTakes : Obligations.StepKeepsTakes := fun _ _ hq ha h => (step_kept h).takes hq ha

/-- Settles O8: a loss and HALTED end every wait, and a sweep starts only where nothing is armed. -/
theorem stepKeepsFabricQuiet : Obligations.StepKeepsFabricQuiet := fun _ _ hs h => (step_kept h).fabric hs

/-- Settles O9: the checks of TALLY_SET, PORT_SET and IFB_SET, and the clamping of level terms and thresholds. -/
theorem stepKeepsConfiguration : Obligations.StepKeepsConfiguration := fun _ _ hm hi hr h =>
  ⟨(step_kept h).masters hm, (step_kept h).ifbs hi, (step_kept h).ranges hr⟩

/-- Settles O10: a key is entered in place or is new, and there are 1,032 keys. -/
theorem stepKeepsCoefficientQueue : Obligations.StepKeepsCoefficientQueue := fun _ _ hs h => (step_kept h).coefficients hs

/-- Settles O11: only a key of an ONLINE panel is moved, leaving ONLINE drops keys and preset, and every lamp that is derived shows a running flash. -/
theorem stepKeepsPanels : Obligations.StepKeepsPanels := fun _ _ hp hl h => ⟨(step_kept h).panels hp, (step_kept h).lamps hl⟩

/-- Settles O12: a slot is posted only when it is not in the engine's hands, a drop at 65,535 sets the flag, and the freeze state follows the FREEZE bit. -/
theorem stepKeepsInterface : Obligations.StepKeepsInterface := fun _ _ hp hg hf h =>
  ⟨(step_kept h).posts hp, (step_kept h).gap hg, (step_kept h).freeze hf⟩

end Sys2Proof.Proofs.Kept
end

