-- ==== Sys2Proof/Proofs/Steady.lean ====
section
/-! SUPPORT. What the orders leave alone: CONTROL, the run state, the queue of waiting commands, ANCHOR, the rate in use and the tallies. -/

namespace Sys2Proof.Proofs.Rules

open Sys2Proof Sys2Proof.Machine

/-- The tally table, the channel outputs, the port image and the count of port frames: what HALTED holds. -/
def tallies (s : State) : Vector ColourSet 128 × Vector Lines 64 × Vector Lines 64 × Nat :=
  (s.tly.tally, s.tly.outputs, s.tly.image, s.tly.portFrames)

/-- The parts of the state that no order touches. -/
def untouched (s : State) : Control × RunState × List Instr × BitVec 22 × Rate × (Vector ColourSet 128 × Vector Lines 64 × Vector Lines 64 × Nat) :=
  (s.control, s.runState, s.pending, s.csi.anchor, s.rtu.rate, tallies s)

/-- A block decides an order without touching those parts. -/
def BlockLeaves (block : Requester → OrderRecord → State → State × Answer) : Prop := ∀ q r s, untouched (block q r s).1 = untouched s

/-! ### The blocks -/

theorem refused_untouched (c : Code) (s : State) : untouched (refused c s).1 = untouched s := rfl

theorem done_untouched {s t : State} (h : untouched t = untouched s) : untouched (done t).1 = untouched s := h

theorem doneClamped_untouched {n : Nat} {s t : State} (h : untouched t = untouched s) : untouched (doneClamped n t).1 = untouched s := h

theorem timeSet_leaves : BlockLeaves timeSet := by
  intro q r s
  unfold timeSet
  split
  · rfl
  · exact done_untouched (by simp [untouched, tallies])

theorem cueSet_leaves : BlockLeaves cueSet := by
  intro q r s
  unfold cueSet
  split
  · rfl
  · split
    · rfl
    · exact done_untouched (by simp [untouched, tallies])

theorem cueClear_leaves : BlockLeaves cueClear := by
  intro q r s
  unfold cueClear
  split
  · rfl
  · exact done_untouched (by simp [untouched, tallies])

theorem destSet_leaves : BlockLeaves destSet := by
  intro q r s
  unfold destSet
  split
  · rfl
  · exact done_untouched (by simp [untouched, tallies])

theorem salvoSet_leaves : BlockLeaves salvoSet := by
  intro q r s
  unfold salvoSet
  split
  · rfl
  · split
    · rfl
    · split
      · rfl
      · split <;> rfl

theorem stepSet_leaves : BlockLeaves stepSet := by
  intro q r s
  unfold stepSet
  split <;> rfl

theorem take_leaves : BlockLeaves take := by
  intro q r s
  unfold take
  split
  · simp [untouched, tallies]
  · rfl

theorem cancel_leaves : BlockLeaves cancel := by
  intro q r s
  unfold cancel
  split
  · rfl
  · simp [untouched, tallies]

theorem protect_leaves : BlockLeaves protect := by
  intro q r s
  unfold protect
  split
  · rfl
  · simp [untouched, tallies]

theorem release_leaves : BlockLeaves release := by
  intro q r s
  unfold release
  split
  · rfl
  · simp [untouched, tallies]

theorem salvoFire_leaves : BlockLeaves salvoFire := by
  intro q r s
  unfold salvoFire
  split
  · rfl
  · split
    · rfl
    · simp [untouched, tallies]

theorem panelDemotion_untouched (p : Fin 24) (old new : Fin 4) (s : State) : untouched (panelDemotion p old new s) = untouched s := by
  unfold panelDemotion
  split
  · simp [untouched, tallies]
  · rfl

theorem panelStation_untouched (p : Fin 24) (changed : Bool) (s : State) : untouched (panelStation p changed s) = untouched s := by
  unfold panelStation
  split
  · simp [untouched, tallies]
  · rfl

theorem panelMode_untouched (p : Fin 24) (changed : Bool) (s : State) : untouched (panelMode p changed s) = untouched s := by
  unfold panelMode
  split
  · simp [untouched, tallies]
  · rfl

theorem panelState_untouched (p : Fin 24) (old : Panel) (c : PanelConfig) (s : State) : untouched (panelState p old c s) = untouched s := by
  unfold panelState
  split
  · simp [untouched, tallies]
  · split
    · simp [untouched, tallies]
    · rfl

theorem panelSet_leaves : BlockLeaves panelSet := by
  intro q r s
  unfold panelSet
  split
  · rfl
  · refine doneClamped_untouched ?_
    rw [panelState_untouched, panelMode_untouched, panelStation_untouched, panelDemotion_untouched]
    simp [untouched, tallies]

theorem keymapLoad_leaves : BlockLeaves keymapLoad := by
  intro q r s
  unfold keymapLoad
  split
  · rfl
  · split
    · simp [untouched, tallies]
    · rfl

theorem lampSet_leaves : BlockLeaves lampSet := by
  intro q r s
  unfold lampSet
  split
  · split
    · exact done_untouched (by simp [untouched, tallies])
    · rfl
  · rfl

theorem portSet_leaves : BlockLeaves portSet := by
  intro q r s
  unfold portSet
  split
  · rfl
  · split
    · rfl
    · refine doneClamped_untouched ?_
      split <;> simp [untouched, tallies]

theorem groupSet_leaves : BlockLeaves groupSet := by
  intro q r s
  unfold groupSet
  split
  · rfl
  · exact done_untouched (by simp [untouched, tallies])

theorem setIfb_untouched (i : Fin 8) (x : Ifb) (s : State) : untouched (s.setIfb i x) = untouched s := rfl

theorem derivation_untouched (s : State) : untouched (derivation s) = untouched s := by simp [untouched, tallies]

theorem ifbSet_leaves : BlockLeaves ifbSet := by
  intro q r s
  unfold ifbSet
  split
  · rfl
  · split
    · exact done_untouched (by rw [derivation_untouched, setIfb_untouched])
    · split
      · rfl
      · exact doneClamped_untouched (by rw [derivation_untouched, setIfb_untouched])

theorem talkForce_leaves : BlockLeaves talkForce := by
  intro q r s
  unfold talkForce
  split
  · rfl
  · split
    · rfl
    · split
      · exact done_untouched (by simp [untouched, tallies])
      · split
        · exact done_untouched (by simp [untouched, tallies])
        · rfl

theorem tallySet_leaves : BlockLeaves tallySet := by
  intro q r s
  unfold tallySet
  split
  · rfl
  · split <;> rfl

theorem tallyForce_leaves : BlockLeaves tallyForce := by
  intro q r s
  unfold tallyForce
  split <;> rfl

theorem gpiSet_leaves : BlockLeaves gpiSet := by
  intro q r s
  unfold gpiSet
  split
  · refine done_untouched ?_
    split <;> simp [untouched, tallies]
  · rfl

/-! ### The strip -/

theorem takeAnswer_untouched (r : Running) (x : State × Answer) : untouched (takeAnswer r x) = untouched x.1 := by
  unfold takeAnswer
  split <;> simp [untouched, tallies]

theorem workOrder_untouched {kind : Nat} {block : Requester → OrderRecord → State → State × Answer} (h : BlockLeaves block) (s : State) :
    untouched (workOrder kind block s) = untouched s := by
  unfold workOrder
  split
  · rfl
  · split
    · split
      · simp [untouched, tallies]
      · rw [takeAnswer_untouched, h]
    · rfl

theorem refuseKind_untouched (s : State) : untouched (refuseKind s) = untouched s := by
  unfold refuseKind
  split
  · rfl
  · split <;> simp [untouched, tallies]

end Sys2Proof.Proofs.Rules
end

