-- ==== Sys2Proof/Proofs/Machine.lean ====
section
/-! The rules of the whole machine: the queue of waiting commands, ANCHOR, the rate in use, the tallies in HALTED, and which commands stop. -/

namespace Sys2Proof.Proofs.Rules

open Sys2Proof Sys2Proof.Machine

/-! ### The rate in use at a boundary -/

theorem cueMatch_rate (ahead : Label) (n : Fin 16) (s : State) : (cueMatch ahead n s).rtu.rate = s.rtu.rate := by
  simp only [cueMatch]
  split
  · split <;> simp
  · rfl

theorem compareCues_rate (s : State) : (compareCues s).rtu.rate = s.rtu.rate := by
  unfold compareCues
  split
  · exact foldl_keeps (fun x : State => x.rtu.rate) _ (fun x n => cueMatch_rate _ n x) _ s
  · rfl

theorem makeBoundary_rate (gpi : BitVec 16) (s : State) : (makeBoundary gpi s).rtu.rate = s.rtu.rate := by
  simp [makeBoundary, compareCues_rate, nextFrame]

theorem changeRef_rate (x : RefState) (s : State) : (changeRef x s).rtu.rate = s.rtu.rate := by
  unfold changeRef
  split <;> simp

theorem restartCount_rate (s : State) : (restartCount s).rtu.rate = s.rtu.rate := rfl

theorem strayPulse_rate (r : Rtu) : r.strayPulse.rate = r.rate := by
  unfold Rtu.strayPulse
  split <;> rfl

theorem referencePulse_rate (elapsed : Nat) (gpi : BitVec 16) (s : State) : (referencePulse elapsed gpi s).rtu.rate = s.rtu.rate := by
  simp only [referencePulse]
  split
  · split
    · split <;> simp [makeBoundary_rate, restartCount_rate, Rtu.goodPulse, Rtu.advance]
    all_goals
      split
      · split <;> simp [makeBoundary_rate, restartCount_rate, changeRef_rate, Rtu.goodPulse, Rtu.advance]
      · rfl
  · simp [strayPulse_rate, Rtu.advance]

theorem windowClose_rate (s : State) : (windowClose s).rtu.rate = s.rtu.rate := by
  simp only [windowClose]
  split
  · rfl
  · split
    · rw [changeRef_rate]; rfl
    · rfl

/-! ### The tallies in HALTED -/

theorem sampleGpi_tallies (sample : BitVec 16) (i : Fin 16) (s : State) : tallies (sampleGpi sample i s) = tallies s := by
  simp only [sampleGpi]
  split
  · rfl
  · split <;> simp [tallies]

theorem sampleInputs_tallies (sample : BitVec 16) (s : State) : tallies (sampleInputs sample s) = tallies s := by
  have hfold : tallies ((List.finRange 16).foldl (fun s i => sampleGpi sample i s) s) = tallies s :=
    foldl_keeps tallies _ (fun b i => sampleGpi_tallies sample i b) _ s
  simpa only [sampleInputs, tallies] using hfold

theorem xpeBoundary_tallies (s : State) (h : s.runState = .halted) : tallies (xpeBoundary s) = tallies s := by
  unfold xpeBoundary
  split <;> simp [h, tallies]

/-- In HALTED a boundary declares no map settled, so no resolution runs. -/
theorem makeBoundary_tallies (gpi : BitVec 16) (s : State) (h : s.runState = .halted) : tallies (makeBoundary gpi s) = tallies s := by
  have hbefore : tallies (probeDue (tickTimers (tkeBoundary (sampleInputs gpi (compareCues (nextFrame (endFlashes (examineKeys s)))))))) =
      tallies (sampleInputs gpi (compareCues (nextFrame (endFlashes (examineKeys s))))) := by
    simp [tallies]
  unfold makeBoundary
  rw [xpeBoundary_tallies _ (by simpa using h), hbefore, sampleInputs_tallies]
  simp [tallies]

theorem scalerBoundary_tallies (gpi : BitVec 16) (s : State) (h : s.runState = .halted) : tallies (scalerBoundary gpi s) = tallies s := by
  unfold scalerBoundary
  rw [makeBoundary_tallies _ _ (by simpa using h)]
  simp [tallies]

theorem restartCount_tallies (s : State) : tallies (restartCount s) = tallies s := rfl

theorem changeRef_tallies (x : RefState) (s : State) : tallies (changeRef x s) = tallies s := by simp [tallies]

theorem setRtu_tallies (r : Rtu) (s : State) : tallies (s.setRtu r) = tallies s := rfl

theorem referencePulse_tallies (elapsed : Nat) (gpi : BitVec 16) (s : State) (h : s.runState = .halted) :
    tallies (referencePulse elapsed gpi s) = tallies s := by
  simp only [referencePulse]
  split
  · split
    · split
      · rw [makeBoundary_tallies _ _ (by simpa using h), restartCount_tallies, setRtu_tallies]
      · rw [restartCount_tallies, setRtu_tallies]
    all_goals
      split
      · split
        · rw [makeBoundary_tallies _ _ (by simpa using h), restartCount_tallies, changeRef_tallies, setRtu_tallies]
        · rw [restartCount_tallies, changeRef_tallies, setRtu_tallies]
      · rfl
  · rfl

/-! ### Every command -/

/-- What the command `c` may do to the queue, to ANCHOR, to the rate in use and to the tallies. -/
structure Steady (c : Instr) (s t : State) : Prop where
  pending : t.pending = s.pending
  anchor : t.csi.anchor ≠ s.csi.anchor → c = .powerOnReset ∨ (s.runState = .halted ∧ ∃ pre v, c = .anchorWrite pre v)
  rate : t.rtu.rate ≠ s.rtu.rate → c = .powerOnReset ∨ (s.runState = .halted ∧ ∃ pre e g f m, c = .start pre e g f m) ∨
    (s.runState = .halting ∧ s.control.run = true)
  held : s.runState = .halted → s.xpe.reportWait = none → c ≠ .powerOnReset → (∀ pre e g f m, c ≠ .start pre e g f m) →
    tallies t = tallies s

section
variable {c : Instr} {s t : State}

/-- A command that leaves all four parts alone. -/
theorem Steady.of_eq (hp : t.pending = s.pending) (ha : t.csi.anchor = s.csi.anchor) (hr : t.rtu.rate = s.rtu.rate)
    (ht : s.runState = .halted → s.xpe.reportWait = none → tallies t = tallies s) : Steady c s t :=
  ⟨hp, fun h => absurd ha h, fun h => absurd hr h, fun hs hw _ _ => ht hs hw⟩

theorem examineHalting_rate (s : State) (h : (examineHalting s).rtu.rate ≠ s.rtu.rate) : s.runState = .halting ∧ s.control.run = true := by
  constructor
  · by_contra hs
    exact h (by rw [examineHalting_other hs])
  · by_contra hs
    refine h ?_
    rw [examineHalting_stops (by simpa using hs)]
    split <;> simp

/-- An event that keeps CONTROL and the run state, and the examination after it. -/
theorem Steady.examined (hp : t.pending = s.pending) (ha : t.csi.anchor = s.csi.anchor) (hr : t.rtu.rate = s.rtu.rate)
    (hc : t.control.run = s.control.run) (hs : t.runState = s.runState)
    (ht : s.runState = .halted → s.xpe.reportWait = none → tallies t = tallies s) : Steady c s (examineHalting t) where
  pending := by simpa using hp
  anchor h := absurd (by simpa using ha) h
  rate h := by
    obtain ⟨hh, hrun⟩ := examineHalting_rate t (hr ▸ h)
    exact .inr (.inr ⟨hs ▸ hh, hc ▸ hrun⟩)
  held hh hw _ _ := by rw [examineHalting_other (by simp [hs, hh]), ht hh hw]

theorem Steady.examinedAfter {event : State → State} (taken : Bool) (hp : (event s).pending = s.pending)
    (ha : (event s).csi.anchor = s.csi.anchor) (hr : (event s).rtu.rate = s.rtu.rate) (hc : (event s).control.run = s.control.run)
    (hs : (event s).runState = s.runState)
    (ht : s.runState = .halted → s.xpe.reportWait = none → tallies (event s) = tallies s) :
    Steady c s (Machine.examinedAfter taken event s) := by
  unfold Machine.examinedAfter
  split
  · exact .examined hp ha hr hc hs ht
  · exact .of_eq hp ha hr ht

theorem Steady.order {event : State → State} (taken : Bool) (h : untouched (event s) = untouched s) :
    Steady c s (Machine.examinedAfter taken event s) := by
  simp only [untouched, Prod.mk.injEq] at h
  obtain ⟨hc, hs, hp, ha, hr, ht⟩ := h
  exact .examinedAfter taken hp ha hr (by rw [hc]) hs (fun _ _ => ht)

end

/-! #### With no switch report awaited, no map is declared settled -/

theorem linkLost_tallies (w : FabricWait) (s : State) (h : s.xpe.reportWait = none) : tallies (linkLost w s) = tallies s := by
  simp only [linkLost, h]
  split
  · split <;> simp [tallies, armedDone_frame]
  · rfl

theorem armTimeout_tallies (s : State) (h : s.xpe.reportWait = none) : tallies (armTimeout s) = tallies s := by
  unfold armTimeout
  split
  · exact linkLost_tallies _ s h
  · rfl

theorem reportTimeout_tallies (s : State) (h : s.xpe.reportWait = none) : tallies (reportTimeout s) = tallies s := by
  simp [reportTimeout, h]

theorem readTimeout_tallies (s : State) (h : s.xpe.reportWait = none) : tallies (readTimeout s) = tallies s := by
  unfold readTimeout
  split
  · exact linkLost_tallies _ s h
  · rfl

theorem receiveReport_tallies (lines : List ReportLine) (s : State) (h : s.xpe.reportWait = none) :
    tallies (receiveReport lines s) = tallies s := by
  simp [receiveReport, h]

/-! #### The commands by their causes -/

section
variable {c : Instr}

theorem takeReport_steady (lines : List ReportLine) (s : State) : Steady c s (takeReport lines s) :=
  .examinedAfter _ (by simp) (by simp) (by simp) (by simp) (by simp) (fun _ h => receiveReport_tallies lines s h)

theorem receiveFabric_steady (m : FabricMessage) (s : State) : Steady c s (receiveFabric m s) := by
  cases m with
  | armAck => exact .of_eq rfl rfl rfl fun _ _ => rfl
  | switchReport lines => exact takeReport_steady lines s
  | readAnswer d l x => exact .of_eq (by simp [receiveFabric]) (by simp [receiveFabric]) (by simp [receiveFabric]) fun _ _ => by simp [receiveFabric, tallies]
  | pingAnswer => exact .of_eq (by simp [receiveFabric]) (by simp [receiveFabric]) (by simp [receiveFabric]) fun _ _ => by simp [receiveFabric, tallies]

theorem takeAck_steady (s : State) : Steady c s (takeAck s) :=
  .examinedAfter _ (by simp) (by simp) (by simp) (by simp) (by simp) (fun _ _ => by simp [tallies])

theorem takeFailure_steady (s : State) : Steady c s (takeFailure s) :=
  .examinedAfter _ (by simp) (by simp) (by simp) (by simp) (by simp) (fun _ _ => by simp [tallies])

theorem receiveReply_steady (link : Fin 4) (m : PanelReply) (s : State) : Steady c s (receiveReply link m s) :=
  .of_eq (by simp) (by simp) (by simp) fun _ _ => by simp [tallies]

theorem receiveProbeAnswer_steady (link : Fin 4) (a : Byte) (code : BitVec 16) (s : State) : Steady c s (receiveProbeAnswer link a code s) :=
  .of_eq (by simp) (by simp) (by simp) fun _ _ => by simp [tallies]

theorem enterHalted_steady (elapsed : Nat) (gpi : BitVec 16) (s : State) : Steady c s (enterHalted elapsed gpi s) := by
  refine ⟨by simp, fun h => absurd (by simp) h, fun h => .inr (.inr ?_), fun hs _ _ _ => by simp [enterHalted, hs]⟩
  unfold enterHalted at h
  split at h
  case isFalse => exact absurd rfl h
  case isTrue hh =>
    split at h
    · next hrun => exact ⟨hh.1, hrun⟩
    · exact absurd (by simp) h

theorem runOrder_steady {kind : Nat} {block : Requester → OrderRecord → State → State × Answer} (h : BlockLeaves block) (s : State) :
    Steady c s (runOrder kind block s) := .order _ (workOrder_untouched h s)

/-- A register access taken after the control computer's writes. -/
theorem landed_steady {pre : HostWrites} {s t : State} {access : State → State} (h : ∀ s, Steady c s (access s))
    (ht : landed pre s access = .next t) : Steady c s t := by
  obtain ⟨hp, ha, hr, hh⟩ := h (s.withWrites pre)
  unfold landed at ht
  split at ht
  · simp at ht
  · simp only [Host.Outcome.next.injEq] at ht
    subst ht
    exact ⟨by simpa using hp, by simpa using ha, by simpa using hr, by simpa [tallies] using hh⟩

theorem ofNext {s t u : State} (h : Steady c s t) (ht : (.next t : Host.Outcome State Fault Refusal) = .next u) : Steady c s u := by
  simp only [Host.Outcome.next.injEq] at ht
  exact ht ▸ h

end

theorem writeAnchor_steady (pre : HostWrites) (value : BitVec 32) (s : State) : Steady (.anchorWrite pre value) s (writeAnchor value s) := by
  unfold writeAnchor
  split
  · next hh => exact ⟨rfl, fun _ => .inr ⟨hh, pre, value, rfl⟩, fun h => absurd rfl h, fun _ _ _ _ => rfl⟩
  · exact .of_eq rfl rfl rfl fun _ _ => rfl

/-- The state in which a START's RUN bit is taken. -/
theorem setRun_steady (pre : HostWrites) (elapsed : Nat) (gpi : BitVec 16) (freeze : Bool) (mask : BitVec 5) (s : State) :
    Steady (.start pre elapsed gpi freeze mask) s (setRun gpi (setFreezeBit freeze (setMask mask (advance elapsed s)))) := by
  refine ⟨by simp, fun h => absurd (by simp) h, fun h => .inr (.inl ?_), fun _ _ _ hc => absurd rfl (hc pre elapsed gpi freeze mask)⟩
  simp only [setRun] at h
  split at h
  · next hh => exact ⟨by simpa using hh.2, pre, elapsed, gpi, freeze, mask, rfl⟩
  · refine absurd ?_ h
    simp [advance, Rtu.advance]

theorem restartInterface_run (s : State) : (restartInterface s).control.run = s.control.run := by simp [restartInterface]

/-- Every command but a reset and a start leaves the rate, and in HALTED the tallies; none touches the queue. -/
theorem exec_steady {c : Instr} {s t : State} (h : exec c s = .next t) : Steady c s t := by
  cases c with
  | powerOnReset =>
    exact ofNext (t := powerOn s) ⟨rfl, fun _ => .inl rfl, fun _ => .inl rfl, fun _ _ hc => absurd rfl hc⟩ h
  | frameBoundary gpi =>
    exact ofNext (t := scalerBoundary gpi s) (.of_eq (by simp) (by simp) (by simp [scalerBoundary, makeBoundary_rate]) fun hs _ => scalerBoundary_tallies gpi s hs) h
  | referencePulse elapsed gpi =>
    exact ofNext (t := referencePulse elapsed gpi s) (.of_eq (by simp) (by simp) (referencePulse_rate ..) fun hs _ => referencePulse_tallies _ _ s hs) h
  | referenceWindowClose =>
    exact ofNext (t := windowClose s) (.of_eq (by simp) (by simp) (windowClose_rate s) fun _ _ => by simp [tallies]) h
  | anchorWrite pre value => exact landed_steady (writeAnchor_steady pre value) h
  | post pre slot => exact landed_steady (access := postSlot slot) (fun s => .of_eq (by simp) (by simp) (by simp) fun _ _ => by simp [tallies]) h
  | withdraw pre slot => exact landed_steady (access := withdrawSlot slot) (fun s => .of_eq (by simp) (by simp) (by simp) fun _ _ => by simp [tallies]) h
  | start pre elapsed gpi freeze mask => exact landed_steady (setRun_steady pre elapsed gpi freeze mask) h
  | runClear pre freeze mask =>
    exact landed_steady (access := fun s => runCleared (setFreezeBit freeze (setMask mask s)))
      (fun s => .of_eq (by simp) (by simp) (by simp) fun _ _ => by simp [tallies]) h
  | freezeSet pre mask =>
    exact landed_steady (access := fun s => setFreezeBit true (setMask mask s))
      (fun s => .of_eq (by simp) (by simp) (by simp) fun _ _ => by simp [tallies]) h
  | freezeClear pre mask =>
    exact landed_steady (access := fun s => setFreezeBit false (setMask mask s))
      (fun s => .of_eq (by simp) (by simp) (by simp) fun _ _ => by simp [tallies]) h
  | engineReset pre restart mask =>
    exact landed_steady (access := fun s => setMask mask (if restart then restartInterface (resetEngine s) else resetEngine s)) (fun s => by
      cases restart <;> exact .of_eq (by simp) (by simp) (by simp) fun _ _ => by simp [tallies]) h
  | interfaceRestart pre mask => 
    exact landed_steady (access := fun s => examineHalting (setMask mask (restartInterface s)))
      (fun s => .examined (by simp) (by simp) (by simp) (restartInterface_run s) (by simp) fun _ _ => by simp [tallies]) h
  | noticeEnableWrite pre mask => exact landed_steady (access := setMask mask) (fun s => .of_eq rfl rfl rfl fun _ _ => rfl) h
  | noticeClear pre causes => exact landed_steady (access := clearCauses causes) (fun s => .of_eq rfl rfl rfl fun _ _ => rfl) h
  | statusWrite pre value => exact landed_steady (fun s => .of_eq rfl rfl rfl fun _ _ => rfl) h
  | enterHalted elapsed gpi => exact ofNext (enterHalted_steady elapsed gpi s) h
  | stripStart => exact ofNext (t := startStrip s) (.of_eq (by simp) (by simp) (by simp) fun _ _ => by simp [tallies]) h
  | orderOfUnknownKind => exact ofNext (.order _ (refuseKind_untouched s)) h
  | timeSet => exact ofNext (runOrder_steady timeSet_leaves s) h
  | cueSet => exact ofNext (runOrder_steady cueSet_leaves s) h
  | cueClear => exact ofNext (runOrder_steady cueClear_leaves s) h
  | destSet => exact ofNext (runOrder_steady destSet_leaves s) h
  | salvoSet => exact ofNext (runOrder_steady salvoSet_leaves s) h
  | stepSet => exact ofNext (runOrder_steady stepSet_leaves s) h
  | take => exact ofNext (runOrder_steady take_leaves s) h
  | cancel => exact ofNext (runOrder_steady cancel_leaves s) h
  | protect => exact ofNext (runOrder_steady protect_leaves s) h
  | release => exact ofNext (runOrder_steady release_leaves s) h
  | salvoFire => exact ofNext (runOrder_steady salvoFire_leaves s) h
  | salvoReadDone => exact ofNext (.order _ (event := finishRead) (by simp [untouched, tallies])) h
  | panelSet => exact ofNext (runOrder_steady panelSet_leaves s) h
  | keymapLoad => exact ofNext (runOrder_steady keymapLoad_leaves s) h
  | keymapReadDone => exact ofNext (.order _ (event := finishMapRead) (by simp [untouched, tallies])) h
  | lampSet => exact ofNext (runOrder_steady lampSet_leaves s) h
  | portSet => exact ofNext (runOrder_steady portSet_leaves s) h
  | groupSet => exact ofNext (runOrder_steady groupSet_leaves s) h
  | ifbSet => exact ofNext (runOrder_steady ifbSet_leaves s) h
  | talkForce => exact ofNext (runOrder_steady talkForce_leaves s) h
  | tallySet => exact ofNext (runOrder_steady tallySet_leaves s) h
  | tallyForce => exact ofNext (runOrder_steady tallyForce_leaves s) h
  | gpiSet => exact ofNext (runOrder_steady gpiSet_leaves s) h
  | armAck => exact ofNext (receiveFabric_steady .armAck s) h
  | armAckTimeout =>
    exact ofNext (.examinedAfter _ (event := armTimeout) (by simp) (by simp) (by simp) (by simp) (by simp) (fun _ hw => armTimeout_tallies s hw)) h
  | switchReport lines => exact ofNext (takeReport_steady lines s) h
  | switchReportTimeout =>
    exact ofNext (.examinedAfter _ (event := reportTimeout) (by simp) (by simp) (by simp) (by simp) (by simp) (fun _ hw => reportTimeout_tallies s hw)) h
  | mirrorRewriteEnd => exact ofNext (t := endRewrite s) (.of_eq (by simp) (by simp) (by simp) fun _ _ => by simp [tallies]) h
  | readAnswer dest level number => exact ofNext (receiveFabric_steady (.readAnswer dest level number) s) h
  | readTimeout =>
    exact ofNext (.examinedAfter _ (event := readTimeout) (by simp) (by simp) (by simp) (by simp) (by simp) (fun _ hw => readTimeout_tallies s hw)) h
  | pingAnswer => exact ofNext (receiveFabric_steady .pingAnswer s) h
  | pingTimeout => exact ofNext (t := pingTimeout s) (.of_eq rfl rfl rfl fun _ _ => rfl) h
  | fabricMessageIgnored message =>
    replace h : execFabricMessageIgnored message s = .next t := h
    unfold execFabricMessageIgnored at h
    split at h
    · exact ofNext (.of_eq rfl rfl rfl fun _ _ => rfl) h
    · split at h
      · exact ofNext (.of_eq rfl rfl rfl fun _ _ => rfl) h
      · exact ofNext (receiveFabric_steady _ s) h
  | reply link message => exact ofNext (receiveReply_steady link message s) h
  | pollWindowClose link => exact ofNext (t := closePoll link s) (.of_eq (by simp) (by simp) (by simp) fun _ _ => by simp [tallies]) h
  | probeAnswer link address code => exact ofNext (receiveProbeAnswer_steady link address code s) h
  | probeTimeout link => exact ofNext (t := closeProbe link s) (.of_eq (by simp) (by simp) (by simp) fun _ _ => by simp [tallies]) h
  | autoLatchThreshold => exact ofNext (t := examineKeys s) (.of_eq (by simp) (by simp) (by simp) fun _ _ => by simp [tallies]) h
  | refusalFlashEnd => exact ofNext (t := endFlashes s) (.of_eq (by simp) (by simp) (by simp) fun _ _ => by simp [tallies]) h
  | ack => exact ofNext (takeAck_steady s) h
  | refuse => exact ofNext (takeFailure_steady s) h
  | talkWriteTimeout => exact ofNext (takeFailure_steady s) h
  | talkMessageIgnored message =>
    replace h : execTalkMessageIgnored message s = .next t := h
    unfold execTalkMessageIgnored at h
    split at h
    · exact ofNext (.of_eq rfl rfl rfl fun _ _ => rfl) h
    · split at h
      · exact ofNext (.of_eq rfl rfl rfl fun _ _ => rfl) h
      · exact ofNext (takeAck_steady s) h
      · exact ofNext (takeFailure_steady s) h
  | panelMessageIgnored link message =>
    replace h : execPanelMessageIgnored link message s = .next t := h
    unfold execPanelMessageIgnored at h
    split at h
    · exact ofNext (.of_eq rfl rfl rfl fun _ _ => rfl) h
    · split at h
      · exact ofNext (.of_eq rfl rfl rfl fun _ _ => rfl) h
      · exact ofNext (receiveProbeAnswer_steady link _ _ s) h
      · exact ofNext (receiveReply_steady link _ s) h

/-! ### The statements -/

/-- Settles O1: the step is defined by the front of the queue. -/
theorem stepRunsFrontOfQueue : Obligations.StepRunsFrontOfQueue :=
  ⟨fun _ _ _ => rfl, fun s h => by unfold step; rw [h]⟩

/-- Settles O2: each operation keeps the queue. -/
theorem commandsKeepQueue : Obligations.CommandsKeepQueue := fun _ _ _ h => (exec_steady h).pending

/-- Settles O13: the rate moves in a start alone, which the commands other than START reach only by the examination of a HALTING engine. -/
theorem onlyTheirCommandsMoveAnchorAndRate : Obligations.OnlyTheirCommandsMoveAnchorAndRate := fun _ _ _ h =>
  ⟨(exec_steady h).anchor, (exec_steady h).rate⟩

/-- Settles O14: in HALTED no switch report is awaited and a boundary declares no map settled, so no resolution runs. -/
theorem haltedHoldsTallies : Obligations.HaltedHoldsTallies := by
  intro c s t h hs hsound hc hstart
  obtain ⟨_, _, hhalted⟩ := hsound
  have hheld := (exec_steady h).held hs (hhalted hs).2.2 hc hstart
  simp only [tallies, Prod.mk.injEq] at hheld
  exact hheld

end Sys2Proof.Proofs.Rules
end

