-- ==== Sys2Proof/Proofs/Answers.lean ====
section
/-! Which commands stop, and what POWER_ON_RESET gives. -/

namespace Sys2Proof.Proofs.Rules

open Sys2Proof Sys2Proof.Machine

/-- Whether a command answers a next state or stops turns on the addresses of its riding writes alone. -/
def AnswersByWrites (pre : HostWrites) (x : Host.Outcome State Fault Refusal) : Prop :=
  (writesInside pre = true → ∃ t, x = .next t) ∧ (writesInside pre = false → ∃ a, storeSize ≤ a ∧ x = .fault (.outsideStore a))

theorem landed_answers {pre : HostWrites} {s : State} {access : State → State} {x : Host.Outcome State Fault Refusal}
    (hx : x = landed pre s access) : AnswersByWrites pre x :=
  hx ▸ ⟨fun h => ⟨_, landed_inside h s access⟩, fun h => landed_outside h s access⟩

/-- A command without riding writes answers. -/
theorem next_answers {x : Host.Outcome State Fault Refusal} (h : ∃ t, x = .next t) : AnswersByWrites [] x :=
  ⟨fun _ => h, fun hw => absurd hw (by decide)⟩

theorem fabricMessageIgnored_next (message : LinkBytes) (s : State) : ∃ t, execFabricMessageIgnored message s = .next t := by
  unfold execFabricMessageIgnored
  split
  · exact ⟨_, rfl⟩
  · split <;> exact ⟨_, rfl⟩

theorem talkMessageIgnored_next (message : LinkBytes) (s : State) : ∃ t, execTalkMessageIgnored message s = .next t := by
  unfold execTalkMessageIgnored
  split
  · exact ⟨_, rfl⟩
  · split <;> exact ⟨_, rfl⟩

theorem panelMessageIgnored_next (link : Fin 4) (message : LinkBytes) (s : State) :
    ∃ t, execPanelMessageIgnored link message s = .next t := by
  unfold execPanelMessageIgnored
  split
  · exact ⟨_, rfl⟩
  · split <;> exact ⟨_, rfl⟩

/-- Settles O16: a register access lands or stops by its writes, and every other command's meaning is a next state. -/
theorem onlyOutsideWritesStop : Obligations.OnlyOutsideWritesStop := by
  intro c s
  cases c with
  | anchorWrite pre value => exact landed_answers rfl
  | post pre slot => exact landed_answers rfl
  | withdraw pre slot => exact landed_answers rfl
  | start pre elapsed gpi freeze mask => exact landed_answers (execStart.eq_def ..)
  | runClear pre freeze mask => exact landed_answers (execRunClear.eq_def ..)
  | freezeSet pre mask => exact landed_answers (execFreezeSet.eq_def ..)
  | freezeClear pre mask => exact landed_answers (execFreezeClear.eq_def ..)
  | engineReset pre restart mask => exact landed_answers (execEngineReset.eq_def ..)
  | interfaceRestart pre mask => exact landed_answers (execInterfaceRestart.eq_def ..)
  | noticeEnableWrite pre mask => exact landed_answers rfl
  | noticeClear pre causes => exact landed_answers rfl
  | statusWrite pre value => exact landed_answers rfl
  | fabricMessageIgnored message => exact next_answers (fabricMessageIgnored_next message s)
  | talkMessageIgnored message => exact next_answers (talkMessageIgnored_next message s)
  | panelMessageIgnored link message => exact next_answers (panelMessageIgnored_next link message s)
  | _ => exact next_answers ⟨_, rfl⟩

/-! ### POWER_ON_RESET -/

theorem powerOn_dest (s : State) (d : Fin 64) : (powerOn s).dest d = Destination.reset := by
  simp [State.dest, powerOn, State.reset, Xpe.reset]

theorem powerOn_panel (s : State) (p : Fin 24) : (powerOn s).panel p = Panel.reset := by
  simp [State.panel, powerOn, State.reset, Pnc.reset]

theorem powerOn_keyState (s : State) (p : Fin 24) (k : Fin 48) : (powerOn s).keyState p k = .idle := by
  simp [State.keyState, powerOn, State.reset, Tke.reset]

theorem powerOn_rtu (s : State) : (powerOn s).rtu = Rtu.reset := rfl

theorem powerOn_xpe (s : State) : (powerOn s).xpe = Xpe.reset := rfl

theorem powerOn_tly (s : State) : (powerOn s).tly = Tly.reset := rfl

theorem powerOn_tke (s : State) : (powerOn s).tke = Tke.reset := rfl

theorem powerOn_pnc (s : State) : (powerOn s).pnc = Pnc.reset := rfl

/-- Settles O3: the values of the reset record, table by table. -/
theorem powerOnResetValues : Obligations.PowerOnResetValues := by
  intro s
  have hifb : Ifb.reset.dest2 = none ∧ Ifb.reset.ownSource = none ∧ Ifb.reset.depthSteps = none := by decide
  refine ⟨powerOn s, rfl, ⟨rfl, rfl⟩, ?_, ?_, ?_, ?_, ?_, ?_, ?_, ?_, ?_, rfl, rfl⟩
  · simp [powerOn_rtu, Rtu.reset, Cue.reset]
  · simp [powerOn_dest, Destination.reset, MapEntry.reset]
  · simp [powerOn_xpe, Xpe.reset]
  · simp [powerOn_tly, Tly.reset, Channel.reset]
  · simp [powerOn_keyState, powerOn_tke, Tke.reset, Port.reset, Feed.silent, hifb]
    decide
  · simp [powerOn_pnc, Pnc.reset]
  · simp [powerOn_panel, Panel.reset, powerOn_rtu, Rtu.reset, powerOn_tke, Tke.reset, powerOn_pnc, Pnc.reset]
    exact ⟨rfl, rfl⟩
  · simp [powerOn_panel, Panel.reset, Selection.cleared, KeyEntry.reset]
  · exact ⟨rfl, rfl, rfl, rfl, rfl, rfl, rfl, rfl, rfl, rfl, rfl, rfl, rfl⟩

end Sys2Proof.Proofs.Rules
end

