-- ==== Sys2Proof/Proofs/FrameTime.lean ====
section
/-! What a boundary and the reference monitor do to the RTU. -/

namespace Sys2Proof.Proofs.FrameTime

open Sys2Proof Sys2Proof.Machine

/-! ### The RTU at a boundary -/

/-- The RTU but for its cues. -/
def clock (r : Rtu) : Rtu := { r with cues := Rtu.reset.cues }

theorem cueMatch_clock (ahead : Label) (n : Fin 16) (s : State) : clock (cueMatch ahead n s).rtu = clock s.rtu := by
  simp only [cueMatch]
  split
  · split <;> simp [clock]
  · rfl

theorem compareCues_clock (s : State) : clock (compareCues s).rtu = clock s.rtu := by
  unfold compareCues
  split
  · exact foldl_keeps (fun x : State => clock x.rtu) _ (fun x n => cueMatch_clock _ n x) _ s
  · rfl

/-- The frame is numbered and labelled, and only the cues may change beside. -/
theorem makeBoundary_clock (gpi : BitVec 16) (s : State) :
    clock (makeBoundary gpi s).rtu = clock { s.rtu with frame := s.rtu.frame + 1, label := s.rtu.nextLabel, jam := none } := by
  simp [makeBoundary, compareCues_clock, nextFrame]

theorem makeBoundary_rtu (gpi : BitVec 16) (s : State) :
    (makeBoundary gpi s).rtu =
      { s.rtu with frame := s.rtu.frame + 1, label := s.rtu.nextLabel, jam := none, cues := (makeBoundary gpi s).rtu.cues } := by
  have h := makeBoundary_clock gpi s
  generalize (makeBoundary gpi s).rtu = r at h ⊢
  cases r
  simp only [clock, Rtu.mk.injEq] at h ⊢
  exact ⟨h.1, h.2.1, h.2.2.1, h.2.2.2.1, h.2.2.2.2.1, h.2.2.2.2.2.1, h.2.2.2.2.2.2.1, h.2.2.2.2.2.2.2.1, h.2.2.2.2.2.2.2.2.1, h.2.2.2.2.2.2.2.2.2.1, trivial⟩

/-! ### What a boundary leaves of the talk tables and the tally channels -/

/-- The talk ports, groups and paths, and the tally channels. -/
def tables (s : State) : Vector Port 32 × Vector PortSet 8 × List TalkPath × Vector Channel 64 :=
  (s.tke.ports, s.tke.groups, s.tke.paths, s.tly.channels)

theorem evaluateSelectors_tables (s : State) : tables (evaluateSelectors s) = tables s := by
  simp [tables, evaluateSelectors, talkSend_tables, enterFeeds]

theorem sampleGpi_tables (sample : BitVec 16) (i : Fin 16) (s : State) : tables (sampleGpi sample i s) = tables s := by
  simp only [sampleGpi]
  split
  · rfl
  · split <;> simp [tables]

theorem sampleInputs_tables (sample : BitVec 16) (s : State) : tables (sampleInputs sample s) = tables s := by
  have hfold : tables ((List.finRange 16).foldl (fun s i => sampleGpi sample i s) s) = tables s :=
    foldl_keeps tables _ (fun b i => sampleGpi_tables sample i b) _ s
  simpa only [sampleInputs, tables] using hfold

theorem talkRetry_tables (s : State) : tables (talkRetry s) = tables s := by
  unfold talkRetry
  split <;> rfl

theorem reportFlags_tables (a b c e : BitVec 64) (d : Fin 64) (s : State) : tables (reportFlags a b c e d s) = tables s := by
  simp [tables]

theorem writeResolution_tables (fs : List Found) (s : State) : tables (writeResolution fs s) = tables s := by
  simp only [writeResolution]
  rw [foldl_keeps tables _ (fun x d => reportFlags_tables _ _ _ _ d x)]
  simp only [tables]

theorem driveLamps_tables (snapshot : PortSet) (k : FrameIndex) (s : State) : tables (driveLamps snapshot k s) = tables s := by
  simp only [tables, driveLamps]

theorem deriveLamps_tables (s : State) : tables (deriveLamps s) = tables s := by simp [tables]

theorem resolve_tables (i : FrameInputs) (s : State) : tables (resolve i s) = tables s := by
  rw [resolve, deriveLamps_tables, driveLamps_tables, writeResolution_tables]

theorem runResolution_tables (k : FrameIndex) (s : State) : tables (runResolution k s) = tables s := by
  unfold runResolution
  split
  · rfl
  · split
    · exact resolve_tables _ s
    · rfl

theorem handOverMap_tables (k : FrameIndex) (s : State) : tables (handOverMap k s) = tables s := by
  rw [handOverMap, runResolution_tables, deriveLamps_tables, evaluateSelectors_tables]

theorem declareSettled_tables (k : FrameIndex) (s : State) : tables (declareSettled k s) = tables s := by
  have htold : tables (declareSettled k s) = tables (handOverMap k s) := by simp [tables, declareSettled]
  rw [htold, handOverMap_tables]

theorem xpeBoundary_tables (s : State) : tables (xpeBoundary s) = tables s := by
  unfold xpeBoundary
  split
  · split <;> rfl
  · split
    · rfl
    · exact declareSettled_tables _ _

theorem examineKeys_tables (s : State) : tables (examineKeys s) = tables s := by
  unfold examineKeys
  split <;> simp only [tables]

theorem tkeBoundary_tables (s : State) : tables (tkeBoundary s) = tables s := by
  rw [tkeBoundary, talkRetry_tables]
  simp only [tables]

theorem makeBoundary_tables (gpi : BitVec 16) (s : State) : tables (makeBoundary gpi s) = tables s := by
  have hbefore : tables (compareCues (nextFrame (endFlashes (examineKeys s)))) = tables (examineKeys s) := by simp [tables]
  have hafter : ∀ x, tables (probeDue (tickTimers x)) = tables x := by simp [tables]
  rw [makeBoundary, xpeBoundary_tables, hafter, tkeBoundary_tables, sampleInputs_tables, hbefore, examineKeys_tables]

theorem scalerBoundary_rtu (gpi : BitVec 16) (s : State) :
    (scalerBoundary gpi s).rtu = { s.rtu with
      now := s.rtu.now + (s.rtu.rate.period - s.rtu.count), count := 0, frame := s.rtu.frame + 1, label := s.rtu.nextLabel, jam := none,
      cues := (scalerBoundary gpi s).rtu.cues } := by
  rw [scalerBoundary, makeBoundary_rtu]
  simp [Rtu.nextLabel]

theorem scalerBoundary_tables (gpi : BitVec 16) (s : State) : tables (scalerBoundary gpi s) = tables s := by
  rw [scalerBoundary, makeBoundary_tables]
  simp only [tables, State.setRtu]

/-- Settles O17: the boundary numbers and labels the frame, and what follows in the other blocks touches the cues alone of the RTU. -/
theorem boundaryNumbersFrame : Obligations.BoundaryNumbersFrame := by
  intro gpi s
  have hrtu := scalerBoundary_rtu gpi s
  have htables := scalerBoundary_tables gpi s
  simp only [tables, Prod.mk.injEq] at htables
  obtain ⟨hports, hgroups, hpaths, hchannels⟩ := htables
  refine ⟨scalerBoundary gpi s, rfl, ?_⟩
  rw [hrtu]
  simp [hports, hgroups, hpaths, hchannels, Rtu.nextLabel]

end Sys2Proof.Proofs.FrameTime
end

