-- ==== Sys2Proof/Proofs/DueLabels.lean ====
section
/-! The due frame of AT_LABEL (R40): a label is known by its count, and succession raises the count to the label's. -/

namespace Sys2Proof.Proofs.DueLabels

open Sys2Proof Sys2Proof.Machine Sys2Proof.Proofs.LabelCounts Sys2Proof.Proofs.Kept

theorem exists_iff (r : Rate) (l : Label) :
    Exists r l ↔ (l.hh < 24 ∧ l.mm < 60 ∧ l.ss < 60 ∧ l.ff < r.base) ∧ (l.ss = 0 → l.mm % 10 ≠ 0 → r.drop ≤ l.ff) := by
  rw [Kept.Exists, wellFormed_iff, ← Bool.not_eq_true, skipped_iff]
  refine and_congr_right fun _ => ⟨fun h hs hm => ?_, fun h hsk => ?_⟩
  · by_contra hf
    exact h ⟨hs, by omega, hm⟩
  · have := h hsk.1 hsk.2.2
    omega

/-- Labels of different minutes differ in count, in the order of the minutes: what a minute skips at its start is less than what it holds. -/
theorem count_lt_of_minute_lt {r : Rate} {l m : Label} (hl : Exists r l) (hm : Exists r m) (h : 60 * l.hh + l.mm < 60 * m.hh + m.mm) :
    l.count r < m.count r := by
  obtain ⟨⟨_, _, hlss, hlff⟩, _⟩ := (exists_iff r l).mp hl
  obtain ⟨⟨_, _, hmss, hmff⟩, hmdrop⟩ := (exists_iff r m).mp hm
  have hcl := count_add_dropped r l
  have hcm := count_add_dropped r m
  unfold droppingMinutes at hcl hcm
  cases r <;> simp only [Rate.base, Rate.drop] at * <;> omega

/-- Within a minute the count gives the second and the frame. -/
theorem eq_of_minute_eq {r : Rate} {l m : Label} (hl : Exists r l) (hm : Exists r m) (h : 60 * l.hh + l.mm = 60 * m.hh + m.mm)
    (hc : l.count r = m.count r) : l = m := by
  obtain ⟨⟨_, _, hlss, hlff⟩, _⟩ := (exists_iff r l).mp hl
  obtain ⟨⟨_, _, hmss, hmff⟩, _⟩ := (exists_iff r m).mp hm
  have hcl := count_add_dropped r l
  have hcm := count_add_dropped r m
  rw [h] at hcl
  obtain ⟨lh, lm, ls, lf⟩ := l
  obtain ⟨mh, mm, ms, mf⟩ := m
  rw [Label.mk.injEq]
  cases r <;> simp only [Rate.base, Rate.drop] at * <;> omega

theorem count_injective {r : Rate} {l m : Label} (hl : Exists r l) (hm : Exists r m) (h : l.count r = m.count r) : l = m := by
  rcases Nat.lt_trichotomy (60 * l.hh + l.mm) (60 * m.hh + m.mm) with hlt | heq | hgt
  · exact absurd h (count_lt_of_minute_lt hl hm hlt).ne
  · exact eq_of_minute_eq hl hm heq h
  · exact absurd h (count_lt_of_minute_lt hm hl hgt).ne'

theorem repeat_exists {r : Rate} {n : Label} (hn : Exists r n) (i : Nat) : Exists r (Nat.repeat (successor r) i n) := by
  induction i with
  | zero => exact hn
  | succ i ih => exact successor_exists ih

theorem count_lastOfDay (r : Rate) : (⟨23, 59, 59, r.base - 1⟩ : Label).count r + 1 = r.dayFrames := by cases r <;> rfl

/-- Succession raises the count by one, modulo the day frames. -/
theorem count_successor_mod {r : Rate} {l : Label} (hl : Exists r l) : (successor r l).count r = (l.count r + 1) % r.dayFrames := by
  by_cases hlast : l = ⟨23, 59, 59, r.base - 1⟩
  · subst hlast
    rw [count_lastOfDay, Nat.mod_self, successor_lastOfDay]
    simp [Label.count]
  · have hlt := count_lt_dayFrames (successor_exists hl).1
    rw [count_successor hl.1 hlast] at hlt ⊢
    exact (Nat.mod_eq_of_lt hlt).symm

theorem count_repeat {r : Rate} {n : Label} (hn : Exists r n) (i : Nat) :
    (Nat.repeat (successor r) i n).count r = (n.count r + i) % r.dayFrames := by
  induction i with
  | zero => exact (Nat.mod_eq_of_lt (count_lt_dayFrames hn.1)).symm
  | succ i ih => rw [Nat.repeat, count_successor_mod (repeat_exists hn i), ih, Nat.mod_add_mod, Nat.add_assoc]

theorem dayFrames_pos (r : Rate) : 0 < r.dayFrames := by cases r <;> decide

theorem labelDelta_cast (r : Rate) (l n : Label) : (labelDelta r l n : Int) = ((l.count r : Int) - n.count r) % r.dayFrames :=
  Int.toNat_of_nonneg (Int.emod_nonneg _ (by have := dayFrames_pos r; omega))

theorem labelDelta_lt (r : Rate) (l n : Label) : labelDelta r l n < r.dayFrames := by
  have h := Int.emod_lt_of_pos ((l.count r : Int) - n.count r) (show (0 : Int) < r.dayFrames by have := dayFrames_pos r; omega)
  rw [← labelDelta_cast] at h
  omega

/-- The label an AT_LABEL names lies that many frames ahead. -/
theorem count_add_labelDelta {r : Rate} {l : Label} (hl : Exists r l) (n : Label) :
    (n.count r + labelDelta r l n) % r.dayFrames = l.count r := by
  have hlt := count_lt_dayFrames hl.1
  rw [← Nat.mod_eq_of_lt hlt]
  zify
  rw [labelDelta_cast, Int.add_emod_emod, add_sub_cancel]

theorem dayFrames_lt (r : Rate) : r.dayFrames < 2 ^ 32 := by cases r <;> decide

/-- What a due frame of AT_LABEL says of its label and of the frames ahead. -/
theorem dueFrame_atLabel {r : Rate} {k f : FrameIndex} {n l : Label} (h : dueFrame r k n (some (.atLabel l)) = .ok (some f)) :
    Exists r l ∧ 2 ≤ labelDelta r l n ∧ f = k + BitVec.ofNat 32 (labelDelta r l n) := by
  simp only [dueFrame] at h
  split at h
  · cases h
  · next hnone =>
    split at h
    · cases h
    · simp only [Except.ok.injEq, Option.some.injEq] at h
      refine ⟨?_, by omega, h.symm⟩
      simp only [labelRefusal] at hnone
      split at hnone
      · next hw =>
        split at hnone
        · cases hnone
        · next hs => exact ⟨hw, by simpa using hs⟩
      · cases hnone

/-- Settles O24: the labels that exist are numbered by their counts, and each succession goes to the next number. -/
theorem dueLabelIsReached : Obligations.DueLabelIsReached := by
  intro r k f n l hw hs h
  obtain ⟨hl, htwo, rfl⟩ := dueFrame_atLabel h
  have hn : Exists r n := ⟨hw, hs⟩
  have hdue : (k + BitVec.ofNat 32 (labelDelta r l n) - k).toNat = labelDelta r l n := by
    rw [add_sub_cancel_left, BitVec.toNat_ofNat, Nat.mod_eq_of_lt ((labelDelta_lt r l n).trans (dayFrames_lt r))]
  rw [hdue]
  exact ⟨htwo, count_injective (repeat_exists hn _) hl (by rw [count_repeat hn, count_add_labelDelta hl])⟩

end Sys2Proof.Proofs.DueLabels
end

