-- ==== Sys2Proof/Proofs/Journal.lean ====
section
/-! SUPPORT. A report reads and writes the CSI and the store alone, so reports can be told of one state for another. -/

namespace Sys2Proof.Proofs.Journal

open Sys2Proof.Machine

/-- The part of the state that a report reads and writes. -/
def journal (s : State) : Csi × Memory := (s.csi, s.store)

theorem journal_eq {s t : State} (h : journal t = journal s) : t.csi = s.csi ∧ t.store = s.store := Prod.mk.inj h

theorem journal_of {s t : State} (hc : t.csi = s.csi) (hm : t.store = s.store) : journal t = journal s := Prod.ext hc hm

section
variable {s t : State} (h : journal t = journal s)
include h

theorem raise_journal (n : Notice) : journal (raise n t) = journal (raise n s) := by
  obtain ⟨hc, hm⟩ := journal_eq h
  simp only [journal, raise, hc, hm]

theorem unread_journal (c : AnchorCopy) : unread c t = unread c s := by
  obtain ⟨hc, hm⟩ := journal_eq h
  rw [unread, unread, hc, hm]

theorem putRecord_journal (c : AnchorCopy) (rec : List Byte) : journal (putRecord c rec t) = journal (putRecord c rec s) := by
  obtain ⟨hc, hm⟩ := journal_eq h
  unfold putRecord
  rw [hc, hm]
  have hsame := unread_journal (s := { s with
    store := storeWrite (storeWrites s.store (c.journal + 16 * s.csi.writeIndex.toNat) rec) (c.address + 0x1E) (s.csi.writeIndex + 1)
    csi := { s.csi with writeIndex := s.csi.writeIndex + 1 } }) (t := { t with
    store := storeWrite (storeWrites s.store (c.journal + 16 * s.csi.writeIndex.toNat) rec) (c.address + 0x1E) (s.csi.writeIndex + 1)
    csi := { s.csi with writeIndex := s.csi.writeIndex + 1 } }) rfl c
  dsimp only
  rw [hsame]
  split <;> rfl

theorem setGap_journal (c : AnchorCopy) (n : Nat) (sat : Bool) : journal (setGap c n sat t) = journal (setGap c n sat s) := by
  obtain ⟨hc, hm⟩ := journal_eq h
  simp only [journal, setGap, hc, hm]

/-- What a report does to the CSI and the store depends on those two alone. -/
theorem report_journal (r : Report) (f : FrameIndex) (l : Label) : journal (report r f l t) = journal (report r f l s) := by
  obtain ⟨hc, hm⟩ := journal_eq h
  unfold report
  rw [hc]
  split
  · exact h
  · rw [unread_journal h]
    split
    · exact putRecord_journal h _ _
    · split
      · exact putRecord_journal (setGap_journal (putRecord_journal h _ _) _ _ _) _ _
      · split <;> exact setGap_journal h _ _ _

theorem foldl_journal {α : Type} {f g : State → α → State} (hf : ∀ x y a, journal x = journal y → journal (f x a) = journal (g y a))
    (l : List α) : journal (l.foldl f t) = journal (l.foldl g s) := by
  induction l generalizing s t with
  | nil => exact h
  | cons a l ih => exact ih (hf t s a h)

end

/-- A report changes nothing but the CSI and the store. -/
theorem report_eq (r : Report) (f : FrameIndex) (l : Label) (s : State) :
    report r f l s = { s with csi := (report r f l s).csi, store := (report r f l s).store } := by
  have hput : ∀ (c : AnchorCopy) (rec : List Byte) (x : State),
      putRecord c rec x = { x with csi := (putRecord c rec x).csi, store := (putRecord c rec x).store } := by
    intro c rec x
    simp only [putRecord]
    split <;> simp only [raise]
  have hgap : ∀ (c : AnchorCopy) (n : Nat) (sat : Bool) (x : State),
      setGap c n sat x = { x with csi := (setGap c n sat x).csi, store := (setGap c n sat x).store } := fun _ _ _ _ => rfl
  unfold report
  split
  · rfl
  · split
    · exact hput _ _ s
    · split
      · rw [hput _ _ (setGap ..), hgap, hput _ _ s]
      · split <;> exact hgap _ _ _ s

end Sys2Proof.Proofs.Journal
end

