-- ==== Sys2Proof/Proofs/ReferenceMonitor.lean ====
section
/-! The reference monitor (R3 to R7): empty windows, stray and good pulses, and the boundaries that good pulses make. -/

namespace Sys2Proof.Proofs.FrameTime

open Sys2Proof Sys2Proof.Machine Sys2Proof.Proofs.Journal

/-! ### A change of the reference state -/

theorem changeRef_rtu (x : RefState) (s : State) : (changeRef x s).rtu = { s.rtu with ref := x } := by
  unfold changeRef
  split
  · next h => rw [← h]
  · simp

theorem setRtu_journal (s : State) (r : Rtu) : journal (s.setRtu r) = journal s := rfl

/-- A change makes a REF report in the frame as it stands. -/
theorem changeRef_journal {x : RefState} {s : State} (h : s.rtu.ref ≠ x) :
    journal (changeRef x s) = journal (report (.ref x) s.rtu.frame s.rtu.label s) := by
  rw [changeRef, if_neg h]
  exact report_journal (setRtu_journal s _) (.ref x) s.rtu.frame s.rtu.label

/-! ### The window closes -/

/-- Settles O22: the miss is counted at the window's end, and the second in LOCKED changes the reference state. -/
theorem emptyWindowCounts : Obligations.EmptyWindowCounts := by
  refine ⟨fun s h => ?_, fun s e h => ?_⟩
  · show Host.Outcome.next (windowClose s) = _
    simp [windowClose, h]
  · have hmiss : min 2 (s.rtu.missing + 1) = 2 ↔ 1 ≤ s.rtu.missing := by omega
    refine ⟨windowClose s, rfl, ?_⟩
    simp only [windowClose, h, Rtu.advance, hmiss, Rate.halfWidth]
    by_cases hf : s.rtu.ref = .locked ∧ 1 ≤ s.rtu.missing
    · simp only [if_pos hf, changeRef_rtu]
      have hj := changeRef_journal (x := .flywheel) (s := s.setRtu { s.rtu with
        now := s.rtu.now + (e + s.rtu.rate.period / 16 - s.rtu.now), count := s.rtu.count + (e + s.rtu.rate.period / 16 - s.rtu.now),
        missing := min 2 (s.rtu.missing + 1), good := 0, expected := some (e + s.rtu.rate.period) }) (by simp [hf.1])
      refine ⟨by simp, by simp, by simp, by simp, by simp, by simp, by simp, journal_eq (hj.trans (report_journal (setRtu_journal s _) (.ref .flywheel) s.rtu.frame s.rtu.label))⟩
    · simp only [if_neg hf]
      simp

/-! ### A pulse -/

theorem inWindow_iff (r : Rtu) : r.inWindow = true ↔ ∃ e, r.expected = some e ∧ e ≤ r.now + r.rate.period / 16 ∧ r.now ≤ e + r.rate.period / 16 := by
  unfold Rtu.inWindow
  split
  · next h => simp [h]
  · next e h =>
    simp only [h, Option.some.injEq, exists_eq_left', Bool.and_eq_true, decide_eq_true_eq]
    rfl

theorem referencePulse_stray {elapsed : Nat} {s : State} (gpi : BitVec 16) (h : (s.rtu.advance elapsed).inWindow = false) :
    referencePulse elapsed gpi s = s.setRtu (s.rtu.advance elapsed).strayPulse := by
  simp [referencePulse, h]

theorem referencePulse_locked {elapsed : Nat} {s : State} (gpi : BitVec 16) (h : (s.rtu.advance elapsed).inWindow = true) (hr : s.rtu.ref = .locked) :
    referencePulse elapsed gpi s = if (s.rtu.advance elapsed).pulseEarly then
      makeBoundary gpi (restartCount (s.setRtu (s.rtu.advance elapsed).goodPulse)) else restartCount (s.setRtu (s.rtu.advance elapsed).goodPulse) := by
  have href : (s.rtu.advance elapsed).ref = .locked := hr
  simp [referencePulse, h, href]

theorem referencePulse_relock {elapsed : Nat} {s : State} (gpi : BitVec 16) (h : (s.rtu.advance elapsed).inWindow = true) (hr : s.rtu.ref ≠ .locked)
    (hg : 7 ≤ s.rtu.good) :
    referencePulse elapsed gpi s = if (s.rtu.advance elapsed).rate.halfPeriod ≤ (s.rtu.advance elapsed).count then
      makeBoundary gpi (restartCount (changeRef .locked (s.setRtu (s.rtu.advance elapsed).goodPulse)))
      else restartCount (changeRef .locked (s.setRtu (s.rtu.advance elapsed).goodPulse)) := by
  have hgood : (s.rtu.advance elapsed).goodPulse.good = 8 := by simp only [Rtu.goodPulse, Rtu.advance]; omega
  have href : (s.rtu.advance elapsed).ref = s.rtu.ref := rfl
  cases hx : s.rtu.ref with
  | locked => exact absurd hx hr
  | free | flywheel => simp [referencePulse, h, href, hx, hgood]

theorem referencePulse_short {elapsed : Nat} {s : State} (gpi : BitVec 16) (h : (s.rtu.advance elapsed).inWindow = true) (hr : s.rtu.ref ≠ .locked)
    (hg : s.rtu.good < 7) : referencePulse elapsed gpi s = s.setRtu (s.rtu.advance elapsed).goodPulse := by
  have hgood : (s.rtu.advance elapsed).goodPulse.good ≠ 8 := by simp only [Rtu.goodPulse, Rtu.advance]; omega
  have href : (s.rtu.advance elapsed).ref = s.rtu.ref := rfl
  cases hx : s.rtu.ref with
  | locked => exact absurd hx hr
  | free | flywheel => simp [referencePulse, h, href, hx, hgood]

/-- The monitor's own fields, which neither a boundary nor the restart of the count touches. -/
def monitor (s : State) : Nat × Nat × Nat × Option Nat × RefState := (s.rtu.now, s.rtu.good, s.rtu.missing, s.rtu.expected, s.rtu.ref)

theorem makeBoundary_monitor (gpi : BitVec 16) (s : State) : monitor (makeBoundary gpi s) = monitor s := by
  unfold monitor
  rw [makeBoundary_rtu]

theorem restartCount_monitor (s : State) : monitor (restartCount s) = monitor s := rfl

theorem monitor_ite (p : Prop) [Decidable p] (gpi : BitVec 16) (s : State) : monitor (if p then makeBoundary gpi s else s) = monitor s := by
  split
  · exact makeBoundary_monitor gpi s
  · rfl

/-- A good pulse counts (R3), and the eighth makes LOCKED (R4, R6). -/
theorem referencePulse_monitor {elapsed : Nat} {s : State} (gpi : BitVec 16) (h : (s.rtu.advance elapsed).inWindow = true) :
    monitor (referencePulse elapsed gpi s) = (s.rtu.now + elapsed, min 8 (s.rtu.good + 1), 0, some (s.rtu.now + elapsed + s.rtu.rate.period),
      if 8 ≤ s.rtu.good + 1 then .locked else s.rtu.ref) := by
  by_cases hr : s.rtu.ref = .locked
  · rw [referencePulse_locked gpi h hr, monitor_ite, restartCount_monitor]
    simp [monitor, Rtu.goodPulse, Rtu.advance, hr]
  · by_cases hg : s.rtu.good < 7
    · have hlow : ¬ 8 ≤ s.rtu.good + 1 := by omega
      rw [referencePulse_short gpi h hr hg]
      simp [monitor, Rtu.goodPulse, Rtu.advance, hlow]
    · have hhigh : 8 ≤ s.rtu.good + 1 := by omega
      rw [referencePulse_relock gpi h hr (by omega), monitor_ite, restartCount_monitor]
      simp [monitor, changeRef_rtu, Rtu.goodPulse, Rtu.advance, hhigh]

/-- Settles O20: the pulse is good or stray by the window, and each moves the monitor by R3's table. -/
theorem pulseMovesMonitor : Obligations.PulseMovesMonitor := by
  intro elapsed gpi s
  refine ⟨referencePulse elapsed gpi s, rfl, ?_⟩
  have hwin := inWindow_iff (s.rtu.advance elapsed)
  simp only [Rtu.advance] at hwin
  by_cases h : (s.rtu.advance elapsed).inWindow = true
  · have hm := referencePulse_monitor gpi h
    simp only [monitor, Prod.mk.injEq] at hm
    obtain ⟨hnow, hgood, hmissing, hexpected, href⟩ := hm
    refine ⟨hnow, Rules.referencePulse_rate elapsed gpi s, by simp, by simp, fun _ => ⟨hgood, hmissing, hexpected, href, fun hr hg => ?_⟩, fun hout => ?_⟩
    · rw [referencePulse_short gpi h hr hg]
      exact ⟨rfl, rfl, rfl, rfl⟩
    · obtain ⟨e, he, hlo, hhi⟩ := hwin.mp h
      rcases hout e he with hlt | hlt <;> omega
  · rw [referencePulse_stray gpi (by simpa using h)]
    refine ⟨?_, ?_, rfl, rfl, fun hin => absurd (hwin.mpr hin) h, fun _ => ?_⟩
    all_goals cases hr : s.rtu.ref <;> simp [Rtu.strayPulse, Rtu.advance, hr]

/-- The count and the frame after a boundary that is made or not. -/
theorem boundary_count_frame (p : Prop) [Decidable p] (gpi : BitVec 16) (u : State) (hu : u.rtu.count = 0) :
    (if p then makeBoundary gpi u else u).rtu.count = 0 ∧
      (if p then makeBoundary gpi u else u).rtu.frame = if p then u.rtu.frame + 1 else u.rtu.frame := by
  split
  · rw [makeBoundary_rtu]
    exact ⟨hu, rfl⟩
  · exact ⟨hu, rfl⟩

theorem pulseEarly_iff {r : Rtu} {e : Nat} (he : r.expected = some e) (hcount : r.count < r.rate.period) :
    r.pulseEarly = true ↔ r.now < e := by
  simp only [Rtu.pulseEarly, he, Bool.or_eq_true, decide_eq_true_eq]
  omega

/-- Settles O21: a good pulse makes its boundary, if any, after the monitor has counted it and the count has restarted. -/
theorem goodPulseAlignsFrame : Obligations.GoodPulseAlignsFrame := by
  intro elapsed gpi s e he hlo hhi
  have h : (s.rtu.advance elapsed).inWindow = true := (inWindow_iff _).mpr ⟨e, he, hlo, hhi⟩
  have hm := referencePulse_monitor gpi h
  simp only [monitor, Prod.mk.injEq] at hm
  obtain ⟨-, -, -, -, href⟩ := hm
  refine ⟨fun hr hg => ⟨_, rfl, ?_⟩, fun hr hcount => ⟨_, rfl, ?_⟩⟩
  · have hpulse := referencePulse_relock gpi h hr hg.ge
    generalize hu : restartCount (changeRef .locked (s.setRtu (s.rtu.advance elapsed).goodPulse)) = u at hpulse
    replace hpulse : referencePulse elapsed gpi s =
      if s.rtu.rate.period / 2 ≤ s.rtu.count + elapsed then makeBoundary gpi u else u := hpulse
    have hrtu : u.rtu = { (s.rtu.advance elapsed).goodPulse with ref := .locked, count := 0 } := by rw [← hu]; simp [restartCount, changeRef_rtu]
    have hj : journal u = journal (report (.ref .locked) s.rtu.frame s.rtu.label s) := by
      rw [← hu]
      exact (changeRef_journal (by exact hr)).trans (report_journal (setRtu_journal s _) (.ref .locked) s.rtu.frame s.rtu.label)
    have hcf := boundary_count_frame (s.rtu.rate.period / 2 ≤ s.rtu.count + elapsed) gpi u (by rw [hrtu])
    have hframe : u.rtu.frame = s.rtu.frame := by rw [hrtu]; rfl
    rw [← hpulse, hframe] at hcf
    exact ⟨href.trans (if_pos (by omega)), hcf.1, hcf.2, u, hpulse, hframe, by rw [hrtu]; rfl, journal_eq hj⟩
  · have hpulse := referencePulse_locked gpi h hr
    generalize hu : restartCount (s.setRtu (s.rtu.advance elapsed).goodPulse) = u at hpulse
    simp only [pulseEarly_iff (r := s.rtu.advance elapsed) he hcount] at hpulse
    replace hpulse : referencePulse elapsed gpi s = if s.rtu.now + elapsed < e then makeBoundary gpi u else u := hpulse
    have hcf := boundary_count_frame (s.rtu.now + elapsed < e) gpi u (by rw [← hu]; rfl)
    have hframe : u.rtu.frame = s.rtu.frame := by rw [← hu]; rfl
    rw [← hpulse, hframe] at hcf
    exact ⟨href.trans (by rw [hr, ite_self]), hcf.1, hcf.2, u, hpulse, by rw [← hu]; rfl, by rw [← hu]; rfl⟩

end Sys2Proof.Proofs.FrameTime
end

