-- ==== Sys2Proof/Proofs/Registers.lean ====
section
/-! The registers of the control computer: ANCHOR, CONTROL, NOTICE and STATUS, written and read (R147, R168, R170, R171). -/

namespace Sys2Proof.Proofs.Registers

open Sys2Proof Sys2Proof.Machine

/-! ### Bits of a word made as a sum -/

theorem extract_ofNat {a w : Nat} (n : Nat) (h : a + w ≤ 32) : ((BitVec.ofNat 32 n).extractLsb' a w).toNat = n / 2 ^ a % 2 ^ w := by
  have hdvd : 2 ^ w ∣ 2 ^ (32 - a) := Nat.pow_dvd_pow 2 (by omega)
  rw [BitVec.extractLsb'_toNat, BitVec.toNat_ofNat, Nat.shiftRight_eq_div_pow, show (2 : Nat) ^ 32 = 2 ^ a * 2 ^ (32 - a) by
    rw [← Nat.pow_add]; congr 1; omega, Nat.mod_mul_right_div_self, Nat.mod_mod_of_dvd _ hdvd]

theorem getLsbD_ofNat {i : Nat} (n : Nat) (h : i < 32) : (BitVec.ofNat 32 n).getLsbD i = decide (n / 2 ^ i % 2 = 1) := by
  rw [BitVec.getLsbD_ofNat, Nat.testBit_eq_decide_div_mod_eq, decide_eq_true h, Bool.true_and]

theorem bit_le (b : Bool) : bit b ≤ 1 := by cases b <;> decide

theorem bit_eq_one (b : Bool) : decide (bit b = 1) = b := by cases b <;> rfl

/-- A bit of a word that is the place of a flag. -/
theorem flag_reads {i n : Nat} {b : Bool} (h : i < 32) (hb : n / 2 ^ i % 2 = bit b) : (BitVec.ofNat 32 n).getLsbD i = b := by
  rw [getLsbD_ofNat n h, hb, bit_eq_one]

/-- A run of bits of a word that is the place of a field. -/
theorem field_reads {a w n : Nat} {x : BitVec w} (h : a + w ≤ 32) (hx : n / 2 ^ a % 2 ^ w = x.toNat) : (BitVec.ofNat 32 n).extractLsb' a w = x :=
  BitVec.eq_of_toNat_eq ((extract_ofNat n h).trans hx)

theorem linkNum_eq (l : LinkState) : l.num = bit (decide (l = .up)) := by cases l <;> rfl

theorem linkNum_le (l : LinkState) : l.num ≤ 1 := by cases l <;> decide

theorem refNum_le (r : RefState) : r.num ≤ 3 := by cases r <;> decide

theorem runNum_le (r : RunState) : r.num ≤ 3 := by cases r <;> decide

/-- The fields of STATUS stand apart. -/
theorem status_fields {r c f l w t z q : Nat} (hr : r ≤ 3) (hc : c ≤ 1) (hf : f ≤ 3) (hl : l ≤ 1) (hw : w ≤ 1) (ht : t ≤ 1) (hz : z ≤ 1) :
    let n := r + 4 * c + 8 * f + 32 * l + 64 * w + 128 * t + 256 * z + 65536 * q
    n % 4 = r ∧ n / 4 % 2 = c ∧ n / 8 % 4 = f ∧ n / 32 % 2 = l ∧ n / 64 % 2 = w ∧ n / 128 % 2 = t ∧ n / 256 % 2 = z ∧ n / 512 % 128 = 0 ∧
      (q ≤ 1032 → n / 65536 % 65536 = q) := by
  intro n
  omega

theorem and_ne_zero_iff (x y : BitVec 5) : x &&& y ≠ 0 ↔ ∃ i : Fin 5, x.getLsbD i.1 = true ∧ y.getLsbD i.1 = true := by
  constructor
  · intro h
    by_contra hn
    refine h (BitVec.eq_of_getLsbD_eq fun i hi => ?_)
    rw [BitVec.getLsbD_and, BitVec.ofNat_eq_ofNat, BitVec.getLsbD_zero, Bool.and_eq_false_iff]
    by_contra hb
    simp only [not_or, Bool.not_eq_false] at hb
    exact hn ⟨⟨i, hi⟩, hb⟩
  · rintro ⟨i, hx, hy⟩ h
    have hbit := congrArg (fun z : BitVec 5 => z.getLsbD i.1) h
    simp only [BitVec.getLsbD_and, hx, hy, BitVec.ofNat_eq_ofNat, BitVec.getLsbD_zero] at hbit
    cases hbit

theorem interrupt_iff (s : State) : s.interrupt = true ↔ ∃ i : Fin 5, s.csi.notice.getLsbD i.1 = true ∧ s.control.mask.getLsbD i.1 = true := by
  rw [← and_ne_zero_iff, State.interrupt, bne_iff_ne]

/-- STATUS reads by its bit places (R171). -/
theorem status_reads (s : State) :
    s.status.extractLsb' 0 2 = (match s.runState with | .halted => 0 | .sweep => 1 | .running => 2 | .halting => 3) ∧
      s.status.getLsbD 2 = s.csi.copy.isSome ∧
      s.status.extractLsb' 3 2 = (match s.rtu.ref with | .free => 0 | .locked => 1 | .flywheel => 2) ∧
      s.status.getLsbD 5 = decide (s.xpe.link = .up) ∧ s.status.getLsbD 6 = s.xpe.sweep.isSome ∧
      s.status.getLsbD 7 = decide (s.tke.link = .up) ∧ s.status.getLsbD 8 = decide (s.csi.mirror.freeze = .frozen) ∧
      s.status.extractLsb' 9 7 = 0 ∧ (s.tke.queue.length ≤ 1032 → (s.status.extractLsb' 16 16).toNat = s.tke.queue.length) := by
  obtain ⟨hrun, hcopy, href, hlink, hsweep, htalk, hfreeze, hnone, hqueue⟩ := status_fields (q := s.tke.queue.length)
    (runNum_le s.runState) (bit_le s.csi.copy.isSome) (refNum_le s.rtu.ref) (linkNum_le s.xpe.link) (bit_le s.xpe.sweep.isSome)
    (linkNum_le s.tke.link) (bit_le (decide (s.csi.mirror.freeze = .frozen)))
  have hstate : s.runState.num = (match s.runState with | .halted => 0 | .sweep => 1 | .running => 2 | .halting => 3 : BitVec 2).toNat := by
    cases s.runState <;> rfl
  have hreference : s.rtu.ref.num = (match s.rtu.ref with | .free => 0 | .locked => 1 | .flywheel => 2 : BitVec 2).toNat := by
    cases s.rtu.ref <;> rfl
  exact ⟨field_reads (by decide) (by rw [Nat.pow_zero, Nat.div_one]; exact hrun.trans hstate), flag_reads (by decide) hcopy,
    field_reads (by decide) (href.trans hreference), flag_reads (by decide) (hlink.trans (linkNum_eq _)), flag_reads (by decide) hsweep,
    flag_reads (by decide) (htalk.trans (linkNum_eq _)), flag_reads (by decide) hfreeze, field_reads (by decide) hnone,
    fun hq => (extract_ofNat _ (by decide)).trans (hqueue hq)⟩

theorem controlWord_reads (s : State) :
    s.controlWord.getLsbD 0 = s.control.run ∧ s.controlWord.getLsbD 1 = s.control.freeze ∧ s.controlWord.extractLsb' 2 6 = 0 ∧
      s.controlWord.extractLsb' 8 5 = s.control.mask ∧ s.controlWord.extractLsb' 13 19 = 0 := by
  have hrun := bit_le s.control.run
  have hfreeze := bit_le s.control.freeze
  have hmask := s.control.mask.isLt
  unfold State.controlWord
  have hfields : ∀ {r f m : Nat}, r ≤ 1 → f ≤ 1 → m < 2 ^ 5 → let n := r + 2 * f + 256 * m
      n / 2 ^ 0 % 2 = r ∧ n / 2 ^ 1 % 2 = f ∧ n / 2 ^ 2 % 2 ^ 6 = 0 ∧ n / 2 ^ 8 % 2 ^ 5 = m ∧ n / 2 ^ 13 % 2 ^ 19 = 0 := by
    intro r f m hr hf hm n
    omega
  obtain ⟨h0, h1, h2, h3, h4⟩ := hfields hrun hfreeze hmask
  exact ⟨flag_reads (by decide) h0, flag_reads (by decide) h1, field_reads (by decide) h2, field_reads (by decide) h3, field_reads (by decide) h4⟩

theorem noticeWord_reads (s : State) : s.noticeWord.extractLsb' 0 5 = s.csi.notice ∧ s.noticeWord.extractLsb' 5 27 = 0 := by
  have hlt := s.csi.notice.isLt
  unfold State.noticeWord
  constructor <;> refine BitVec.eq_of_toNat_eq ?_ <;> simp [BitVec.extractLsb'_toNat, Nat.shiftRight_eq_div_pow] <;> omega

theorem anchorWord_reads (s : State) : s.anchorWord.extractLsb' 0 22 = s.csi.anchor ∧ s.anchorWord.extractLsb' 22 10 = 0 := by
  have hlt := s.csi.anchor.isLt
  unfold State.anchorWord
  constructor <;> refine BitVec.eq_of_toNat_eq ?_ <;> simp [BitVec.extractLsb'_toNat, Nat.shiftRight_eq_div_pow] <;> omega

theorem clearCauses_bit (x causes : BitVec 5) (i : Fin 5) : (x &&& ~~~causes).getLsbD i.1 = (x.getLsbD i.1 && !causes.getLsbD i.1) := by
  rw [BitVec.getLsbD_and, BitVec.getLsbD_not, decide_eq_true i.2, Bool.true_and]

/-- Settles O26: each write is one field of one register, and each register is a sum of its fields' values. -/
theorem registerWrites : Obligations.RegisterWrites := by
  refine ⟨fun pre v s h => ?_, fun pre mask s h => landed_inside h s _, fun pre causes s h => ?_, fun pre v s h => landed_inside h s _, fun s => ?_⟩
  · refine ⟨if s.runState = .halted then v.truncate 22 else s.csi.anchor, ?_, ?_⟩
    · refine (landed_inside h s _).trans ?_
      unfold writeAnchor
      by_cases hs : s.runState = .halted
      · simp only [withWrites_frame, if_pos hs]
      · simp only [withWrites_frame, if_neg hs]
        rfl
    · split
      · simp
      · rfl
  · exact ⟨s.csi.notice &&& ~~~causes, landed_inside h s _, clearCauses_bit s.csi.notice causes⟩
  · exact ⟨interrupt_iff s, status_reads s, controlWord_reads s, noticeWord_reads s, anchorWord_reads s⟩

end Sys2Proof.Proofs.Registers
end

