-- ==== Sys2Proof/Proofs/PostsAndStarts.lean ====
section
/-! POST (R151), the checks of a start and what a failed start leaves (R148). -/

namespace Sys2Proof.Proofs.Registers

open Sys2Proof Sys2Proof.Machine

/-! ### POST -/

theorem inHands_false (s : State) (slot : Fin 8) :
    s.inHands slot = false ↔ (∀ p ∈ s.csi.posts, p.slot ≠ slot) ∧ ∀ r, s.csi.running = some r → r.slot.slot ≠ slot := by
  unfold State.inHands
  cases s.csi.running <;> simp

/-- The header of a slot that may be posted, in the manual's terms (R151). -/
def headerGood (c : AnchorCopy) (m : Memory) (slot : Fin 8) : Prop :=
  let h := c.address + 0x40 + 16 * slot.1
  storeRead m h = 1 ∧ 1 ≤ storeRead16 m (h + 2) ∧ storeRead16 m (h + 2) ≤ 256 ∧ storeRead32 m (h + 4) % 32 = 0 ∧
    c.orders.base ≤ storeRead32 m (h + 4) ∧ storeRead32 m (h + 4) + 32 * storeRead16 m (h + 2) ≤ c.orders.base + c.orders.size

/-- The copy of a slot's header that a post takes. -/
def headerCopy (c : AnchorCopy) (m : Memory) (slot : Fin 8) : Posted :=
  let h := c.address + 0x40 + 16 * slot.1
  { slot := slot, stopOn := (storeRead m (h + 1)).getLsbD 0, salvo := (storeRead m (h + 1)).getLsbD 1, address := storeRead32 m (h + 4),
    count := storeRead16 m (h + 2) }

theorem holds_iff (w : Window) (base size : Nat) : w.holds base size = true ↔ w.base ≤ base ∧ base + size ≤ w.base + w.size := by
  simp [Window.holds]

theorem postable_good {c : AnchorCopy} {m : Memory} {slot : Fin 8} (h : headerGood c m slot) : postable c m slot = some (headerCopy c m slot) := by
  obtain ⟨hready, hlo, hhi, halign, hbase, hend⟩ := h
  exact if_pos ⟨hready, hlo, hhi, halign, (holds_iff _ _ _).mpr ⟨hbase, hend⟩⟩

theorem postable_bad {c : AnchorCopy} {m : Memory} {slot : Fin 8} (h : ¬ headerGood c m slot) : postable c m slot = none := by
  refine if_neg fun hgood => h ?_
  obtain ⟨hready, hlo, hhi, halign, hhold⟩ := hgood
  exact ⟨hready, hlo, hhi, halign, (holds_iff _ _ _).mp hhold⟩

theorem postSlot_taken {slot : Fin 8} {s : State} {c : AnchorCopy} (hserving : s.serving = true) (hfree : s.inHands slot = false)
    (hcopy : s.csi.copy = some c) (hgood : headerGood c s.store slot) :
    postSlot slot s = { s with
      store := storeWrites s.store (c.address + 0x40 + 16 * slot.1) [2]
      csi := { s.csi with posts := s.csi.posts ++ [headerCopy c s.store slot] } } := by
  simp only [postSlot, hserving, hfree, hcopy, Option.bind_some, postable_good hgood, writeSlotState, State.put, slotAddress, and_self, if_true]

theorem postSlot_refused {slot : Fin 8} {s : State} {c : AnchorCopy} (hcopy : s.csi.copy = some c)
    (h : ¬ (s.serving = true ∧ s.inHands slot = false ∧ headerGood c s.store slot)) : postSlot slot s = raise .badPost s := by
  unfold postSlot
  split
  · next hs =>
    have hbad : ¬ headerGood c s.store slot := fun hg => h ⟨hs.1, hs.2, hg⟩
    rw [hcopy, Option.bind_some, postable_bad hbad]
  · rfl

/-- Settles O27: the checks of the post are R151's, and a post that passes writes one byte and takes one copy. -/
theorem postTakesReadySlot : Obligations.PostTakesReadySlot := by
  intro pre slot s c hpre hcopy
  have hserving : (s.withWrites pre).serving = true ↔ s.runState = .sweep ∨ s.runState = .running := serving_iff _
  have hfree : (s.withWrites pre).inHands slot = false ↔ _ := inHands_false (s.withWrites pre) slot
  refine ⟨fun ⟨hs, hposts, hrunning, hgood⟩ => ?_, fun hbad => ?_⟩
  · exact (landed_inside hpre s _).trans (congrArg _ (postSlot_taken (hserving.mpr hs) (hfree.mpr ⟨hposts, hrunning⟩) hcopy hgood))
  · refine (landed_inside hpre s _).trans (congrArg _ (postSlot_refused hcopy fun ⟨hs, hf, hgood⟩ => hbad ?_))
    obtain ⟨hposts, hrunning⟩ := hfree.mp hf
    exact ⟨hserving.mp hs, hposts, hrunning, hgood⟩

/-! ### The checks of a start -/

theorem rateOf_isSome (x : Nat) : (rateOf x).isSome = true ↔ x ≤ 6 := by
  unfold rateOf
  split_ifs <;> simp <;> omega

theorem window_sound_iff (w : Window) :
    w.sound = true ↔ w.base % 64 = 0 ∧ w.size % 64 = 0 ∧ w.size ≠ 0 ∧ w.base + w.size ≤ 4194304 := by
  simp only [Window.sound, Bool.and_eq_true, decide_eq_true_eq, and_assoc, Nat.pos_iff_ne_zero]

theorem disjointRuns_iff (a m b n : Nat) : disjointRuns a m b n = true ↔ a + m ≤ b ∨ b + n ≤ a := by
  simp [disjointRuns]

theorem anchorChecks_iff (a : Nat) (b : AnchorBlock) : anchorChecks a b = true ↔
    (a % 64 = 0 ∧ a + 192 ≤ 4194304) ∧ b.rateCode ≤ 6 ∧
    ((b.orders.base % 64 = 0 ∧ b.orders.size % 64 = 0 ∧ b.orders.size ≠ 0 ∧ b.orders.base + b.orders.size ≤ 4194304) ∧
      (b.reports.base % 64 = 0 ∧ b.reports.size % 64 = 0 ∧ b.reports.size ≠ 0 ∧ b.reports.base + b.reports.size ≤ 4194304)) ∧
    (b.orders.base + b.orders.size ≤ b.reports.base ∨ b.reports.base + b.reports.size ≤ b.orders.base) ∧
    (b.reports.base ≤ a ∧ a + 192 ≤ b.reports.base + b.reports.size) ∧
    (b.journal % 64 = 0 ∧ b.reports.base ≤ b.journal ∧ b.journal + 4096 ≤ b.reports.base + b.reports.size) ∧
    (b.mirror % 64 = 0 ∧ b.reports.base ≤ b.mirror ∧ b.mirror + 3008 ≤ b.reports.base + b.reports.size) ∧
    ((a + 192 ≤ b.journal ∨ b.journal + 4096 ≤ a) ∧ (a + 192 ≤ b.mirror ∨ b.mirror + 3008 ≤ a) ∧
      (b.journal + 4096 ≤ b.mirror ∨ b.mirror + 3008 ≤ b.journal)) ∧
    (1 ≤ b.threshold ∧ b.threshold ≤ 255 ∧ b.readIndex ≤ 255) := by
  simp only [anchorChecks, Bool.and_eq_true, decide_eq_true_eq, rateOf_isSome, window_sound_iff, disjointRuns_iff, holds_iff, and_assoc]

/-! ### A start that fails -/

theorem tryStart_failed {s : State} (gpi : BitVec 16) (h : anchorChecks s.csi.anchor.toNat (anchorBlockAt s.store s.csi.anchor.toNat) = false) :
    tryStart gpi s = clearRun (raise .badAnchor s) := by
  simp only [tryStart, h]
  split <;> rfl

/-- FREEZE and the mask do not see the oscillator. -/
theorem setFreezeBit_rtu (f : Bool) (r : Rtu) (s : State) : setFreezeBit f { s with rtu := r } = { setFreezeBit f s with rtu := r } := by
  simp only [setFreezeBit, freezeMirrors, thawMirrors, becomeFrozen, becomeFreezing, raise]
  split
  · rfl
  · split
    · split
      · split <;> rfl
      · rfl
      · rfl
    · rfl

theorem freezeMirrors_control (s : State) : (freezeMirrors s).control = s.control := by
  unfold freezeMirrors
  split
  · split <;> rfl
  · rfl
  · rfl

theorem setFreezeBit_control (f : Bool) (s : State) : (setFreezeBit f s).control = { s.control with freeze := f } := by
  unfold setFreezeBit
  split
  · next h => rw [← h]
  · dsimp only
    split
    · exact freezeMirrors_control _
    · rfl

/-- FREEZE_SET or FREEZE_CLEAR, by the value of the bit. -/
theorem freezeWrite_next {pre : HostWrites} (h : writesInside pre = true) (freeze : Bool) (mask : BitVec 5) (s : State) :
    exec (if freeze = true then .freezeSet pre mask else .freezeClear pre mask) s = .next (setFreezeBit freeze (setMask mask (s.withWrites pre))) := by
  cases freeze
  · exact landed_inside h s (fun s => setFreezeBit false (setMask mask s))
  · exact landed_inside h s (fun s => setFreezeBit true (setMask mask s))

/-- What a START's RUN bit finds: the ticks have passed, and FREEZE and the mask are taken. -/
def beforeRun (elapsed : Nat) (freeze : Bool) (mask : BitVec 5) (s : State) : State := setFreezeBit freeze (setMask mask (advance elapsed s))

theorem start_next {pre : HostWrites} (h : writesInside pre = true) (elapsed : Nat) (gpi : BitVec 16) (freeze : Bool) (mask : BitVec 5) (s : State) :
    exec (.start pre elapsed gpi freeze mask) s = .next (setRun gpi (beforeRun elapsed freeze mask (s.withWrites pre))) :=
  landed_inside h s (fun s => setRun gpi (setFreezeBit freeze (setMask mask (advance elapsed s))))

theorem beforeRun_eq (elapsed : Nat) (freeze : Bool) (mask : BitVec 5) (s : State) :
    beforeRun elapsed freeze mask s = { setFreezeBit freeze (setMask mask s) with rtu := s.rtu.advance elapsed } :=
  setFreezeBit_rtu freeze (s.rtu.advance elapsed) (setMask mask s)

theorem beforeRun_control (elapsed : Nat) (freeze : Bool) (mask : BitVec 5) (s : State) :
    (beforeRun elapsed freeze mask s).control = { s.control with freeze := freeze, mask := mask } := setFreezeBit_control freeze _

/-- START in HALTED with RUN clear is a start from there. -/
theorem setRun_halted {s : State} (gpi : BitVec 16) (hs : s.runState = .halted) (hrun : s.control.run = false) :
    setRun gpi s = tryStart gpi { s with control := { s.control with run := true } } := if_pos ⟨hrun, hs⟩

theorem start_failed {pre : HostWrites} {s : State} (hpre : writesInside pre = true) (elapsed : Nat) (gpi : BitVec 16) (freeze : Bool) (mask : BitVec 5)
    (hs : s.runState = .halted) (hrun : s.control.run = false)
    (hbad : anchorChecks s.csi.anchor.toNat (anchorBlockAt (hostWrite s.store pre) s.csi.anchor.toNat) = false) :
    exec (.start pre elapsed gpi freeze mask) s = .next { setFreezeBit freeze (setMask mask (s.withWrites pre)) with
      rtu := { s.rtu with now := s.rtu.now + elapsed, count := s.rtu.count + elapsed }
      csi := { (setFreezeBit freeze (setMask mask (s.withWrites pre))).csi with
        notice := (setFreezeBit freeze (setMask mask (s.withWrites pre))).csi.notice ||| 4 } } := by
  have hx : (beforeRun elapsed freeze mask (s.withWrites pre)).control = { run := false, freeze := freeze, mask := mask } := by
    simp only [beforeRun_control, withWrites_frame, hrun]
  rw [start_next hpre, setRun_halted gpi (by simpa [beforeRun] using hs) (by rw [hx]), tryStart_failed gpi (by simpa [beforeRun] using hbad)]
  rw [beforeRun_eq] at hx ⊢
  generalize setFreezeBit freeze (setMask mask (s.withWrites pre)) = u at hx ⊢
  replace hx : u.control = { run := false, freeze := freeze, mask := mask } := hx
  simp only [clearRun, raise, hx]
  rfl

/-- Settles O29: the checks are the manual's nine, and a failing one leaves a state that differs from the FREEZE write's in time and notice alone. -/
theorem badAnchorStopsStart : Obligations.BadAnchorStopsStart := by
  refine ⟨anchorChecks_iff, fun pre elapsed gpi freeze mask s hpre hs hrun hbad => ?_⟩
  have hstart := start_failed hpre elapsed gpi freeze mask hs hrun hbad
  refine ⟨fun hf => ?_, _, freezeWrite_next hpre freeze mask s, ?_, hstart⟩
  · have hsame : setFreezeBit freeze (setMask mask (s.withWrites pre)) = setMask mask (s.withWrites pre) := if_pos hf.symm
    rw [hstart, hsame]
    rfl
  · rw [setFreezeBit_control]
    rfl

end Sys2Proof.Proofs.Registers
end

