-- ==== Sys2Proof/Proofs/HaltsAndStrips.lean ====
section
/-! HALTED (R174), the start of a strip (R153) and the strip's own checks of an order (R154). -/

namespace Sys2Proof.Proofs.Registers

open Sys2Proof Sys2Proof.Machine

/-! ### HALTED -/

theorem mayHalt_iff (s : State) :
    s.mayHalt = true ↔ s.csi.running = none ∧ s.xpe.armed = [] ∧ (s.tke.queue = [] ∨ s.tke.link = .down) := by
  simp [State.mayHalt, and_assoc]

theorem haltsNow_iff (s : State) : s.haltsNow ↔ s.runState = .halting ∧ s.mayHalt = true := by rw [mayHalt_iff]; rfl

theorem enterHalted_quiet {s : State} (h : s.haltsNow) (elapsed : Nat) (gpi : BitVec 16) :
    enterHalted elapsed gpi s = if s.control.run = true then tryStart gpi (advance elapsed (halt s)) else halt s :=
  if_pos ((haltsNow_iff s).mp h)

theorem enterHalted_busy {s : State} (h : ¬ s.haltsNow) (elapsed : Nat) (gpi : BitVec 16) : enterHalted elapsed gpi s = s :=
  if_neg fun hq => h ((haltsNow_iff s).mpr hq)

theorem serveLinks_runState (l : List (Fin 4)) (s : State) : (l.foldl (fun s l => serveLink l s) s).runState = s.runState :=
  foldl_keeps (fun x : State => x.runState) _ (by intros; simp) l s

theorem enterSweep_runState (s : State) : (enterSweep s).runState = .sweep := by
  simp only [enterSweep, serveLinks_runState, talkSend_frame]
  split <;> simp

theorem startActions_runState (r : Rate) (c : AnchorCopy) (s : State) : (startActions r c s).runState = .sweep := by
  simp only [startActions, enterSweep_runState]

/-- Equal states are equal answers. -/
theorem next_congr {s t : State} (h : s = t) : (.next s : Host.Outcome State Fault Refusal) = .next t := h ▸ rfl

/-- A start enters SWEEP or clears RUN, by its checks. -/
theorem tryStart_outcome {s : State} (gpi : BitVec 16) (hs : s.runState = .halted) (hrun : s.control.run = true) :
    let sound := anchorChecks s.csi.anchor.toNat (anchorBlockAt s.store s.csi.anchor.toNat)
    (tryStart gpi s).runState = (if sound = true then .sweep else .halted) ∧ (tryStart gpi s).control = { s.control with run := sound } := by
  cases hsound : anchorChecks s.csi.anchor.toNat (anchorBlockAt s.store s.csi.anchor.toNat) with
  | false =>
    rw [tryStart_failed gpi hsound]
    simp [clearRun, raise, hs]
  | true =>
    obtain ⟨r, hr⟩ : ∃ r, rateOf (anchorBlockAt s.store s.csi.anchor.toNat).rateCode = some r :=
      Option.isSome_iff_exists.mp ((rateOf_isSome _).mpr ((anchorChecks_iff _ _).mp hsound).2.1)
    simp only [tryStart, hr, hsound, if_true]
    simp [startActions_runState, ← hrun]

theorem freeElapsed_short (s : State) (h : s.rtu.count < s.rtu.rate.period) : s.rtu.count + s.freeElapsed < s.rtu.rate.period := by
  have := Nat.mod_lt (Config.freeTicks s.freeCount) (show 0 < s.rtu.rate.period - s.rtu.count by omega)
  rw [State.freeElapsed, if_pos h]
  omega

theorem examineHalting_held {s : State} (h : s.haltsNow) (hrun : s.control.run = true) :
    examineHalting s = enterHalted s.freeElapsed (Config.freeContacts s.freeCount) { s with freeCount := s.freeCount + 1 } := by
  rw [examineHalting, if_pos hrun, if_pos ((haltsNow_iff s).mp h)]

theorem examineHalting_busy {s : State} (h : ¬ s.haltsNow) : examineHalting s = s := by
  rw [haltsNow_iff, not_and] at h
  by_cases hs : s.runState = .halting
  · exact examineHalting_waits (by simpa using h hs)
  · exact examineHalting_other hs

theorem examineHalting_halts {s : State} (h : s.haltsNow) (hrun : s.control.run = false) : examineHalting s = halt s := by
  rw [examineHalting_stops hrun, if_pos ((haltsNow_iff s).mp h)]

/-- Settles O35: the examination and ENTER_HALTED ask the same conditions; with RUN held a start follows, whose outcome is its checks'. -/
theorem haltedEnteredWhenQuiet : Obligations.HaltedEnteredWhenQuiet := by
  refine ⟨fun elapsed gpi s => ⟨fun hq hrun => ?_, fun hq hrun => ?_, fun hq => ?_⟩, fun u => ⟨examineHalting_busy, examineHalting_halts, fun hq hrun => ?_⟩⟩
  · exact next_congr ((enterHalted_quiet hq elapsed gpi).trans (if_neg (by simp [hrun])))
  · exact ⟨_, next_congr ((enterHalted_quiet hq elapsed gpi).trans (if_pos hrun)), tryStart_outcome (s := advance elapsed (halt s)) gpi rfl hrun⟩
  · exact next_congr (enterHalted_busy hq elapsed gpi)
  · exact ⟨u.freeElapsed, Config.freeContacts u.freeCount, freeElapsed_short u, next_congr (examineHalting_held hq hrun).symm⟩

/-! ### The start of a strip -/

/-- Settles O36: the head slot's header becomes RUNNING with counts 0, and its strip runs. -/
theorem stripStarts : Obligations.StripStarts := by
  refine fun s => ⟨fun p rest c hposts hrunning hserving hsalvo hcopy => next_congr ?_, fun h => next_congr ?_⟩
  · have hs := (serving_iff s).mpr hserving
    simp only [startStrip, hposts, hrunning, hs, hsalvo, and_self, if_true, writeSlotState, hcopy, writeCounts, State.put, slotAddress]
    rfl
  · unfold startStrip
    split
    · rfl
    · next p rest hposts =>
      refine if_neg fun ⟨hrunning, hserving⟩ => ?_
      rw [serving_iff] at hserving
      rcases h with h | h | h | h
      · rw [h] at hposts; cases hposts
      · exact h hrunning
      · rw [h] at hserving; simp at hserving
      · rw [h] at hserving; simp at hserving

/-! ### The strip's own checks -/

theorem orderRequester_none {rec : OrderRecord} (h : 16 ≤ ob rec 1 ∨ 4 ≤ ob rec 2) : orderRequester rec = none := by
  unfold orderRequester
  rcases h with h | h
  · rw [finOf_ge h]
  · rw [finOf_ge h]
    split
    · next hl => cases hl
    · rfl

theorem runOrder_refused {k : Nat} {block : Requester → OrderRecord → State → State × Answer} {s : State} {r : Running} {rec : OrderRecord}
    (h : s.currentOrder = some (r, rec)) (hk : orderKind rec = k) (hq : orderRequester rec = none) :
    runOrder k block s = examineHalting (finishOrder r .refusedArg 0 s.rtu.frame s) := by
  simp [runOrder, examinedAfter, (currentOrder_running h).1, workOrder, h, hk, hq]

theorem listedKind_iff (k : Nat) : listedKind k = true ↔ 1 ≤ k ∧ k ≤ 21 := by simp [listedKind]

theorem refuseKind_unlisted {s : State} {r : Running} {rec : OrderRecord} (h : s.currentOrder = some (r, rec)) (hk : ob rec 0 = 0 ∨ 21 < ob rec 0) :
    examinedAfter s.csi.running.isSome refuseKind s = examineHalting (finishOrder r .refusedKind 0 s.rtu.frame s) := by
  have hlisted : ¬ listedKind (orderKind rec) = true := by rw [listedKind_iff, orderKind]; omega
  simp [examinedAfter, (currentOrder_running h).1, refuseKind, h, hlisted]

theorem refuseKind_listed {s : State} {r : Running} {rec : OrderRecord} (h : s.currentOrder = some (r, rec)) (hk : 1 ≤ ob rec 0 ∧ ob rec 0 ≤ 21) :
    examinedAfter s.csi.running.isSome refuseKind s = s := by
  have hlisted : listedKind (orderKind rec) = true := (listedKind_iff _).mpr hk
  have hr := (currentOrder_running h).1
  simp [examinedAfter, hr, refuseKind, h, hlisted, examineHalting_waits, State.mayHalt]

/-- A command of an order does as R154's first steps ask, whatever its block. -/
theorem runOrder_checks {k : Nat} {block : Requester → OrderRecord → State → State × Answer} {s : State} {r : Running} {rec : OrderRecord}
    {x : Instr} (h : s.currentOrder = some (r, rec)) (hx : exec x s = .next (runOrder k block s)) :
    (ob rec 0 = k → (16 ≤ ob rec 1 ∨ 4 ≤ ob rec 2) → exec x s = .next (examineHalting (finishOrder r .refusedArg 0 s.rtu.frame s))) ∧
      (ob rec 0 ≠ k → exec x s = .next s) :=
  ⟨fun hk hq => hx.trans (next_congr (runOrder_refused h hk (orderRequester_none hq))), fun hk => hx.trans (next_congr (runOrder_other h hk))⟩

/-- Settles O38: the kind is checked against the listed kinds or the command's own, and the requester before the block. -/
theorem orderKindsAndRequesters : Obligations.OrderKindsAndRequesters := by
  refine fun s r rec h => ⟨fun hk => next_congr (refuseKind_unlisted h hk), fun hk => next_congr (refuseKind_listed h hk), ?_⟩
  simp only [List.forall_mem_cons, List.not_mem_nil, false_implies, implies_true, and_true]
  exact ⟨runOrder_checks h rfl, runOrder_checks h rfl, runOrder_checks h rfl, runOrder_checks h rfl, runOrder_checks h rfl,
    runOrder_checks h rfl, runOrder_checks h rfl, runOrder_checks h rfl, runOrder_checks h rfl, runOrder_checks h rfl,
    runOrder_checks h rfl, runOrder_checks h rfl, runOrder_checks h rfl, runOrder_checks h rfl, runOrder_checks h rfl,
    runOrder_checks h rfl, runOrder_checks h rfl, runOrder_checks h rfl, runOrder_checks h rfl, runOrder_checks h rfl, runOrder_checks h rfl⟩

end Sys2Proof.Proofs.Registers
end

