-- ==== Sys2Proof/Proofs/RunCleared.lean ====
section
/-! RUN_CLEAR, and a START that only holds the bit (R105, R170, R173). -/

namespace Sys2Proof.Proofs.Registers

open Sys2Proof Sys2Proof.Machine

/-! ### No key talks, no path stands -/

theorem activeKeys_idle {s : State} (h : ∀ p k, s.keyState p k = .idle) : s.activeKeys = [] := by
  have hpanel : ∀ p, s.activeKeysOf p = [] := by
    intro p
    unfold State.activeKeysOf
    split
    · rfl
    · simp [h, KeyState.active]
  simp [State.activeKeys, hpanel]

theorem pathsOf_nil (ports : Vector Port 32) : pathsOf ports [] = [] := by
  simp [pathsOf, pathOf, givingKeys]

theorem portSetOf_false : portSetOf (fun _ => false) = 0 := by decide

/-- With every key IDLE the derived sets are empty. -/
theorem deriveSets_idle {s : State} (h : ∀ p k, s.keyState p k = .idle) :
    (deriveSets s).tke.paths = [] ∧ (deriveSets s).tke.talking = 0 ∧ (deriveSets s).tke.incoming = 0 := by
  simp only [deriveSets, activeKeys_idle h, pathsOf_nil, talkingOf, incomingOf, List.any_nil, portSetOf_false, and_self]

theorem derivation_sets (s : State) :
    (derivation s).tke.paths = (deriveSets s).tke.paths ∧ (derivation s).tke.talking = (deriveSets s).tke.talking ∧
    (derivation s).tke.incoming = (deriveSets s).tke.incoming := by
  have hlamps : ∀ x : State, (forPanels relightTalk x).tke = x.tke := forPanels_keeps (fun s => s.tke) _ (fun p s => by simp)
  simp only [derivation, hlamps, talkSend_tables, enterFeeds, enterXpts, and_self]

theorem forceOff_silent {w : Fin 24 → Fin 48 → Bool} {s : State} (hall : ∀ p k, w p k = true) (hbusy : ∃ p k, s.keyState p k ≠ .idle) :
    (forceOff w s).tke.paths = [] ∧ (forceOff w s).tke.talking = 0 ∧ (forceOff w s).tke.incoming = 0 := by
  have hany : anyBusy w s = true := by
    obtain ⟨p, k, hk⟩ := hbusy
    simp only [anyBusy, List.any_eq_true, List.mem_finRange, true_and, Bool.and_eq_true, decide_eq_true_eq]
    exact ⟨p, k, hall p k, hk⟩
  have hidle : ∀ p k, (idleKeys w s).keyState p k = .idle := fun p k => by rw [idleKeys_keyState, if_pos (hall p k)]
  obtain ⟨h1, h2, h3⟩ := derivation_sets (idleKeys w s)
  rw [forceOff, if_pos hany, h1, h2, h3]
  exact deriveSets_idle hidle

/-! ### START with the bit held -/

theorem start_held {pre : HostWrites} {s : State} (hpre : writesInside pre = true) (elapsed : Nat) (gpi : BitVec 16) (freeze : Bool) (mask : BitVec 5)
    (h : s.runState ≠ .halted ∨ s.control.run = true) :
    exec (.start pre elapsed gpi freeze mask) s = .next { setFreezeBit freeze (setMask mask (s.withWrites pre)) with
      rtu := { s.rtu with now := s.rtu.now + elapsed, count := s.rtu.count + elapsed }
      control := { s.control with run := true, freeze := freeze, mask := mask } } := by
  have hcontrol := beforeRun_control elapsed freeze mask (s.withWrites pre)
  have hrun : (beforeRun elapsed freeze mask (s.withWrites pre)).runState = s.runState := by simp [beforeRun]
  have hno : ¬ ((beforeRun elapsed freeze mask (s.withWrites pre)).control.run = false ∧
      (beforeRun elapsed freeze mask (s.withWrites pre)).runState = .halted) := by
    rw [hcontrol, hrun]
    rintro ⟨hc, hs⟩
    rcases h with h | h
    · exact h hs
    · exact absurd (h.symm.trans hc) (by decide)
  rw [start_next hpre, setRun, if_neg hno, beforeRun_eq]
  simp only [setFreezeBit_control]
  rfl

/-! ### RUN_CLEAR -/

theorem runClear_next {pre : HostWrites} (h : writesInside pre = true) (freeze : Bool) (mask : BitVec 5) (s : State) :
    exec (.runClear pre freeze mask) s = .next (runCleared (setFreezeBit freeze (setMask mask (s.withWrites pre)))) :=
  landed_inside h s (fun s => runCleared (setFreezeBit freeze (setMask mask s)))

/-- A serving engine as RUN_CLEAR leaves it, before R174's conditions are examined. -/
def halting (s : State) : State := forceOff (fun _ _ => true) (stopStrip { clearRun s with runState := .halting })

theorem runCleared_serving {s : State} (h : s.serving = true) :
    runCleared s = if (halting s).mayHalt = true then halt (halting s) else halting s := by
  have hx : (halting s).runState = .halting := by simp [halting]
  have hstop : runCleared s = examineHalting (halting s) := if_pos h
  rw [hstop, examineHalting_stops (by simp [halting, clearRun])]
  simp only [hx, true_and]

theorem runCleared_other {s : State} (h : s.serving = false) : runCleared s = clearRun s := by simp [runCleared, h]

/-- What a serving engine's RUN_CLEAR leaves, whether it is HALTED at once or not. -/
theorem runCleared_leaves {s : State} (h : s.serving = true) :
    (runCleared s).tke = (halting s).tke ∧ (runCleared s).csi = { s.csi with running := s.csi.running.map fun r => { r with stop := true } } ∧
    (runCleared s).control = { s.control with run := false } ∧ (runCleared s).rtu = s.rtu ∧ (runCleared s).tly = s.tly ∧
    (runCleared s).store = s.store := by
  rw [runCleared_serving h]
  split <;> simp [halting, halt, stopStrip, clearRun]

theorem halting_mayHalt (s : State) :
    (halting s).mayHalt = true ↔ s.csi.running = none ∧ s.xpe.armed = [] ∧ ((halting s).tke.queue = [] ∨ (halting s).tke.link = .down) := by
  rw [mayHalt_iff]
  simp [halting, stopStrip, clearRun]

/-- Settles O31: the keys are forced off and the strip is marked before R174's conditions are examined, with RUN clear. -/
theorem runClearHalts : Obligations.RunClearHalts := by
  refine ⟨fun pre elapsed gpi freeze mask s hpre h => ⟨_, freezeWrite_next hpre freeze mask s, start_held hpre elapsed gpi freeze mask h⟩,
    fun pre freeze mask s hpre => ⟨_, freezeWrite_next hpre freeze mask s, fun hs => ⟨_, runClear_next hpre freeze mask s, ?_⟩, fun hs => ?_⟩⟩
  · have hcontrol := setFreezeBit_control freeze (setMask mask (s.withWrites pre))
    generalize hu : setFreezeBit freeze (setMask mask (s.withWrites pre)) = u at hcontrol
    have hframe : u.runState = s.runState ∧ u.xpe = s.xpe ∧ u.rtu = s.rtu ∧ u.tly = s.tly ∧ u.csi.running = s.csi.running ∧
        u.store = hostWrite s.store pre ∧ u.tke = s.tke := by rw [← hu]; simp
    obtain ⟨hstate, hxpe, hrtu, htly, hrunning, hstore, htke⟩ := hframe
    have hserving : u.serving = true := by rw [serving_iff, hstate]; exact hs
    obtain ⟨hltke, hlcsi, hlcontrol, hlrtu, hltly, hlstore⟩ := runCleared_leaves hserving
    have hmay := halting_mayHalt u
    rw [hrunning, hxpe] at hmay
    have hkeys : ∀ p k, (runCleared u).keyState p k = .idle := fun p k => by
      rw [keyState_of_keys (congrArg Tke.keys hltke), halting, forceOff_keyState, if_pos rfl]
    rw [hltke, hlcsi, hlcontrol, hlrtu, hltly, hlstore, hrunning, hcontrol, hrtu, htly, hstore]
    refine ⟨fun hq => ?_, fun hq => ?_, rfl, rfl, hkeys, fun hbusy => ?_, rfl, rfl, rfl⟩
    · rw [runCleared_serving hserving, if_pos (hmay.mpr hq)]
      simp [halting, halt, stopStrip, clearRun, hxpe]
    · rw [runCleared_serving hserving, if_neg fun hm => hq (hmay.mp hm)]
      simp [halting, stopStrip, clearRun, hxpe]
    · refine forceOff_silent (fun _ _ => rfl) ?_
      obtain ⟨p, k, hk⟩ := hbusy
      exact ⟨p, k, fun hidle => hk ((keyState_of_keys (s := u) (congrArg Tke.keys htke).symm p k).trans hidle)⟩
  · have hserving : (setFreezeBit freeze (setMask mask (s.withWrites pre))).serving = false := by
      rw [← Bool.not_eq_true, serving_iff]
      rcases hs with hs | hs <;> simp [hs]
    rw [runClear_next hpre, runCleared_other hserving]
    simp only [clearRun, setFreezeBit_control]
    rfl

end Sys2Proof.Proofs.Registers
end

