-- ==== Sys2Proof/Proofs/OrdersDecided.lean ====
section
/-! The orders whose blocks write what they check: RTU, TLY, protects and cancels (R12 to R15, R28, R29, R45, R65, R77, R78). -/

namespace Sys2Proof.Proofs.Orders

open Sys2Proof Sys2Proof.Machine
open Sys2Proof.Proofs.Registers (next_congr)

/-! ### A block's answer as the order's outcome -/

/-- A block that answers with an outcome in the frame in which the strip took the order. -/
theorem order_outcome {k : Nat} {block : Requester → OrderRecord → State → State × Answer} {x : Instr} {s t : State} {r : Running}
    {rec : OrderRecord} {q : Requester} {c : Code} {n : Nat} (h : s.working k r rec q) (hx : exec x s = .next (runOrder k block s))
    (hb : block q rec s = (t, .outcome c n)) (ht : t.rtu.frame = s.rtu.frame) :
    exec x s = .next (examineHalting (finishOrder r c n s.rtu.frame t)) := by
  rw [hx, runOrder_working h, takeAnswer, hb, ht]

/-- A block that refuses an order leaves the state as it was. -/
theorem order_refused {k : Nat} {block : Requester → OrderRecord → State → State × Answer} {x : Instr} {s : State} {r : Running}
    {rec : OrderRecord} {q : Requester} {c : Code} (h : s.working k r rec q) (hx : exec x s = .next (runOrder k block s))
    (hb : block q rec s = refused c s) : exec x s = .next (examineHalting (finishOrder r c 0 s.rtu.frame s)) :=
  order_outcome h hx hb rfl

/-! ### TIME_SET, CUE_SET and CUE_CLEAR -/

/-- What TIME_SET decides about its label (R10, R12). -/
theorem timeSet_eq (q : Requester) (rec : OrderRecord) (s : State) :
    timeSet q rec s = if (labelAt rec 4).wellFormed s.rtu.rate = false then refused .refusedArg s
      else if (labelAt rec 4).skipped s.rtu.rate = true then refused .refusedLabel s
      else done (s.setRtu { s.rtu with jam := some (labelAt rec 4) }) := by
  unfold timeSet labelRefusal
  cases (labelAt rec 4).wellFormed s.rtu.rate <;> cases (labelAt rec 4).skipped s.rtu.rate <;> rfl

/-- The enabled fields of a CUE_SET's label are in range (R14). -/
def cueInRange (rate : Rate) (rec : OrderRecord) : Prop :=
  (Nat.testBit (ob rec 5) 0 = true → ob rec 12 < 24) ∧ (Nat.testBit (ob rec 5) 1 = true → ob rec 13 < 60) ∧
    (Nat.testBit (ob rec 5) 2 = true → ob rec 14 < 60) ∧ (Nat.testBit (ob rec 5) 3 = true → ob rec 15 < rate.base)

/-- The cue that a CUE_SET with an action and a requester gives (R14). -/
def cueGiven (rec : OrderRecord) (act : CueAction) (q : Requester) : Cue :=
  { label := labelAt rec 12, enables := BitVec.ofNat 4 (ob rec 5), action := act, repeats := if ob rec 8 = 0 then .once else .every,
    requester := q, state := .armed }

theorem cueSetArgs_given {rate : Rate} {q : Requester} {rec : OrderRecord} {n : Fin 16} {act : CueAction} (h4 : ob rec 4 = n.1)
    (h5 : 1 ≤ ob rec 5) (h5' : ob rec 5 ≤ 15) (ha : (ob rec 6 = 0 ∧ act = .report) ∨ (ob rec 6 = 1 ∧ ∃ x : Fin 16, ob rec 7 = x.1 ∧ act = .fire x))
    (h8 : ob rec 8 ≤ 1) : (cueInRange rate rec → cueSetArgs rate q rec = some (n, cueGiven rec act q)) ∧
      (¬ cueInRange rate rec → cueSetArgs rate q rec = none) := by
  have hact : (if ob rec 6 = 0 then some CueAction.report
      else if ob rec 6 = 1 then (finOf 16 (ob rec 7)).map CueAction.fire else none) = some act := by
    rcases ha with ⟨h6, rfl⟩ | ⟨h6, x, h7, rfl⟩
    · rw [if_pos h6]
    · rw [h6, if_neg (by decide), if_pos rfl, finOf_eq x h7, Option.map_some]
  have hrep : (if ob rec 8 = 0 then some CueRepeat.once else if ob rec 8 = 1 then some CueRepeat.every else none) =
      some (if ob rec 8 = 0 then .once else .every) := by
    split
    · rfl
    · rw [if_pos (by omega)]
  unfold cueSetArgs
  simp only [finOf_eq n h4, hact, hrep, Option.bind_eq_bind, Option.bind_some]
  rw [if_neg (by omega)]
  have hr : ¬ cueInRange rate rec ↔ ((ob rec 5).testBit 0 ∧ 24 ≤ (labelAt rec 12).hh) ∨ ((ob rec 5).testBit 1 ∧ 60 ≤ (labelAt rec 12).mm) ∨
      ((ob rec 5).testBit 2 ∧ 60 ≤ (labelAt rec 12).ss) ∨ ((ob rec 5).testBit 3 ∧ rate.base ≤ (labelAt rec 12).ff) := by
    simp only [cueInRange, labelAt, not_and_or, not_forall, Nat.not_lt, exists_prop]
  exact ⟨fun h => if_neg (mt hr.mpr (not_not.mpr h)), fun h => if_pos (hr.mp h)⟩

theorem cueSetArgs_none {rate : Rate} {q : Requester} {rec : OrderRecord}
    (h : 16 ≤ ob rec 4 ∨ ob rec 5 = 0 ∨ 2 ≤ ob rec 6 ∨ (ob rec 6 = 1 ∧ 16 ≤ ob rec 7) ∨ 2 ≤ ob rec 8) : cueSetArgs rate q rec = none := by
  unfold cueSetArgs
  rcases h with h | h | h | ⟨h, h'⟩ | h
  · simp [finOf_ge h]
  · simp [h]
  · rw [if_neg (by omega), if_neg (by omega)]; simp
  · simp [h, finOf_ge h']
  · have h0 : ¬ ob rec 8 = 0 := by omega
    have h1 : ¬ ob rec 8 = 1 := by omega
    simp [h0, h1]

/-- The enable bits of four fields are all set just at 15. -/
theorem enables_all {n : Nat} (h : n ≤ 15) : BitVec.ofNat 4 n = 15 ↔ n = 15 := by
  constructor
  · intro he
    have := congrArg BitVec.toNat he
    simpa [Nat.mod_eq_of_lt (show n < 16 by omega)] using this
  · rintro rfl; rfl

/-- Settles O40: each block's checks read the record's bytes, and what passes is written. -/
theorem timeAndCueOrders : Obligations.TimeAndCueOrders := by
  intro s r rec q
  refine ⟨fun h hw hk => ?_, fun h hw hk => ?_, fun h hw => ?_, fun h n act h4 h5 h5' ha h8 => ?_, fun h hb => ?_, fun h n h4 => ?_, fun h h4 => ?_⟩
  · exact order_outcome h rfl (by rw [timeSet_eq, if_neg (by simp [hw]), if_neg (by simp [hk])]; rfl) rfl
  · exact order_refused h rfl (by rw [timeSet_eq, if_neg (by simp [hw]), if_pos hk])
  · exact order_refused h rfl (by rw [timeSet_eq, if_pos hw])
  · have hargs := cueSetArgs_given (rate := s.rtu.rate) (q := q) h4 h5 h5' ha h8
    have hall : (cueGiven rec act q).enables = 15 ↔ ob rec 5 = 15 := enables_all h5'
    refine ⟨fun hr => ?_, fun hr hk => ?_, fun hr hk h15 => ?_⟩
    · exact order_refused h rfl (by rw [cueSet, hargs.2 hr])
    · have hnot : ¬ ((cueGiven rec act q).enables = 15 ∧ (cueGiven rec act q).label.skipped s.rtu.rate = true) := fun hc =>
        hk.elim (fun hk => Bool.false_ne_true (hk.symm.trans hc.2)) fun hk => hk (hall.mp hc.1)
      exact order_outcome h rfl (by rw [cueSet, hargs.1 hr]; exact if_neg hnot) rfl
    · exact order_refused h rfl (by rw [cueSet, hargs.1 hr]; exact if_pos ⟨hall.mpr h15, hk⟩)
  · exact order_refused h rfl (by rw [cueSet, cueSetArgs_none hb])
  · exact order_outcome h rfl (by rw [cueClear, finOf_eq n h4]; rfl) rfl
  · exact order_refused h rfl (by rw [cueClear, finOf_ge h4])

/-! ### TALLY_SET, TALLY_FORCE and GPI_SET -/

theorem masterAllowed_iff (s : State) (c : Fin 64) (o : Option (Fin 64)) :
    s.masterAllowed c o = true ↔ ∀ m, o = some m → m ≠ c ∧ s.tly.channels[m].master = none ∧ ∀ j : Fin 64, j ≠ c → s.tly.channels[j].master ≠ some c := by
  cases o with
  | none => simp [State.masterAllowed]
  | some m => simp [State.masterAllowed, and_assoc, or_iff_not_imp_left]

theorem tallyForceArgs_none {rec : OrderRecord} (h : 64 ≤ ob rec 4 ∨ 2 ≤ ob rec 5 ∨ (ob rec 5 = 1 ∧ 8 ≤ ob rec 6)) : tallyForceArgs rec = none := by
  unfold tallyForceArgs
  rcases h with h | h | ⟨h, h'⟩
  · simp [finOf_ge h]
  · have h0 : ¬ ob rec 5 = 0 := by omega
    have h1 : ¬ ob rec 5 = 1 := by omega
    simp [h0, h1]
  · simp [h, colourOf, Nat.not_lt.mpr h']

theorem tallyForceArgs_some {rec : OrderRecord} {c : Fin 64} {f : Option ColourSet} (h4 : ob rec 4 = c.1)
    (hf : (ob rec 5 = 0 ∧ f = none) ∨ (ob rec 5 = 1 ∧ ob rec 6 < 8 ∧ f = some (BitVec.ofNat 3 (ob rec 6)))) : tallyForceArgs rec = some (c, f) := by
  unfold tallyForceArgs
  rcases hf with ⟨h5, rfl⟩ | ⟨h5, h6, rfl⟩
  · simp [finOf_eq c h4, h5]
  · simp [finOf_eq c h4, h5, colourOf, h6]

/-- Settles O49: the channel's or the input's record is written where the checks pass. -/
theorem tallyOrders : Obligations.TallyOrders := by
  intro s r rec q
  refine ⟨fun h hb => ?_, fun h c x h4 h5 h6 h7 hm h8 h9 hp h10 => ⟨fun hs => ?_, fun hs => ?_⟩, fun h c h4 f hf => ?_, fun h hb => ?_, fun h hb => ?_,
    fun h i h4 => ⟨fun h5 => ?_, fun h5 => ?_⟩⟩
  · exact order_refused h rfl (by rw [tallySet, (tallySetArgs_terms rec).2 hb])
  · have hargs := (tallySetArgs_terms rec).1 c x h4 h5 (by omega) (by simp [h6]) h7 hm h8 h9 hp h10
    exact order_outcome h rfl (by rw [tallySet, hargs]; exact if_pos ((masterAllowed_iff s c x.master).mpr hs)) rfl
  · have hargs := (tallySetArgs_terms rec).1 c x h4 h5 (by omega) (by simp [h6]) h7 hm h8 h9 hp h10
    exact order_refused h rfl (by rw [tallySet, hargs]; exact if_neg fun ha => hs ((masterAllowed_iff s c x.master).mp ha))
  · exact order_outcome h rfl (by rw [tallyForce, tallyForceArgs_some h4 hf]; rfl) rfl
  · exact order_refused h rfl (by rw [tallyForce, tallyForceArgs_none hb])
  · refine order_refused h rfl ?_
    unfold gpiSet
    rcases hb with hb | hb
    · rw [finOf_ge hb]
    · rw [show flagOf (ob rec 5) = none by rw [flagOf, if_neg (by omega), if_neg (by omega)]]
      cases finOf 16 (ob rec 4) <;> rfl
  · exact order_outcome h rfl (by rw [gpiSet, finOf_eq i h4, h5]; rfl) rfl
  · exact order_outcome h rfl (by rw [gpiSet, finOf_eq i h4, h5]; rfl) (by simp)

/-! ### PROTECT and RELEASE -/

theorem requestProtect_allowed {s : State} {d : Fin 64} {q : Requester} (h : s.lets d q) : requestProtect d q s =
    (report (.protect d ⟨q.level, q.owner⟩ .set) s.rtu.frame s.rtu.label (s.setDest d { s.dest d with protect := some ⟨q.level, q.owner⟩ }), .done) := by
  rw [requestProtect, if_pos ((lets_iff s d q).mp h)]; rfl

theorem requestProtect_barred {s : State} {d : Fin 64} {q : Requester} (h : ¬ s.lets d q) : requestProtect d q s = (s, .refusedProtected) := by
  rw [requestProtect, if_neg fun ha => h ((lets_iff s d q).mpr ha)]

theorem requestRelease_absent {s : State} {d : Fin 64} {q : Requester} (h : (s.dest d).protect = none) : requestRelease d q s = (s, .done) := by
  rw [requestRelease, h]

theorem requestRelease_allowed {s : State} {d : Fin 64} {q : Requester} {p : Protect} (h : (s.dest d).protect = some p)
    (hp : p.owner = q.owner ∨ q.level < p.level) : requestRelease d q s =
      (report (.protect d p .cleared) s.rtu.frame s.rtu.label (s.setDest d { s.dest d with protect := none }), .done) := by
  rw [requestRelease, h]
  exact if_pos ((protectAllows_iff _ _ _).mpr (Or.inr ⟨p, rfl, hp⟩))

theorem requestRelease_barred {s : State} {d : Fin 64} {q : Requester} (h : ¬ s.lets d q) : requestRelease d q s = (s, .refusedNotOwner) := by
  rw [lets_iff] at h
  unfold requestRelease
  cases hp : (s.dest d).protect with
  | none => exact absurd (by rw [hp]; rfl) h
  | some p => exact if_neg (by rwa [hp] at h)

theorem requestProtect_queue (d : Fin 64) (q : Requester) (s : State) :
    (requestProtect d q s).1.xpe.queue = s.xpe.queue ∧ (requestProtect d q s).1.xpe.armed = s.xpe.armed := by
  unfold requestProtect
  split <;> simp [State.setDest]

theorem requestRelease_queue (d : Fin 64) (q : Requester) (s : State) :
    (requestRelease d q s).1.xpe.queue = s.xpe.queue ∧ (requestRelease d q s).1.xpe.armed = s.xpe.armed := by
  unfold requestRelease
  split
  · exact ⟨rfl, rfl⟩
  · split <;> simp [State.setDest]

theorem requestProtect_code (d : Fin 64) (q : Requester) (s : State) :
    (requestProtect d q s).2 = .done ∨ (requestProtect d q s).2.isRefusal = true := by
  unfold requestProtect
  split
  · exact Or.inl rfl
  · exact Or.inr rfl

theorem requestRelease_code (d : Fin 64) (q : Requester) (s : State) :
    (requestRelease d q s).2 = .done ∨ (requestRelease d q s).2.isRefusal = true := by
  unfold requestRelease
  split
  · exact Or.inl rfl
  · split
    · exact Or.inl rfl
    · exact Or.inr rfl

/-- A level mask is read from its byte. -/
theorem maskOf_given {m : LevelMask} {x : Nat} (hm : m ≠ 0) (hx : x = m.toNat) : maskOf x = some m := by
  subst hx
  have h0 : 0 < m.toNat := Nat.pos_of_ne_zero fun h => hm (BitVec.eq_of_toNat_eq h)
  simp [maskOf, h0, m.isLt]

/-- A PROTECT key's decision: its own protect it releases, and else it asks for one (R137). -/
theorem protectPress_eq {s : State} {p : Fin 24} {k : Fin 48} {d : Fin 64} {m : LevelMask} (h : (s.panel p).selection.dest = some (d, m)) :
    let x := if ((s.dest d).protect.map fun y => y.owner) = some (.panel p) then requestRelease d (s.panelRequester p) s
      else requestProtect d (s.panelRequester p) s
    protectPress p k s = if x.2 = .done then x.1 else refuseKey p k x.2 x.1 := by
  intro x
  have hx : protectPress p k s = if x.2.isRefusal = true then refuseKey p k x.2 x.1 else x.1 := by
    unfold protectPress
    rw [h]
  have hcode : x.2 = .done ∨ x.2.isRefusal = true := by
    simp only [x]
    split
    · exact requestRelease_code _ _ _
    · exact requestProtect_code _ _ _
  rw [hx]
  rcases hcode with hd | hr
  · rw [if_pos hd, hd]; rfl
  · rw [if_pos hr, if_neg (by rintro hd; rw [hd] at hr; cases hr)]

/-- Settles O44: protection decides both requests, and a PROTECT key asks for the one or the other. -/
theorem protectAndRelease : Obligations.ProtectAndRelease := by
  intro s r rec q
  refine ⟨fun h4 => ⟨fun h => order_refused h rfl (by rw [protect, finOf_ge h4]), fun h => order_refused h rfl (by rw [release, finOf_ge h4])⟩,
    fun d h4 => ?_⟩
  have hpro : ∀ {x : State × Code}, requestProtect d q s = x → protect q rec s = (x.1, .outcome x.2 0) := fun hx => by
    rw [protect, finOf_eq d h4, ← hx]
  have hrel : ∀ {x : State × Code}, requestRelease d q s = x → release q rec s = (x.1, .outcome x.2 0) := fun hx => by
    rw [release, finOf_eq d h4, ← hx]
  refine ⟨fun h hl => ?_, fun h hl => ?_, fun h hn => ?_, fun h p hp ho => ?_, fun h hl => ?_, ?_, requestProtect_allowed,
    fun hl => ⟨requestProtect_barred hl, requestRelease_barred hl⟩, requestRelease_absent, fun p hp => requestRelease_allowed hp, ?_⟩
  · exact order_outcome h rfl (hpro (requestProtect_allowed hl)) (by simp [State.setDest])
  · exact order_outcome h rfl (hpro (requestProtect_barred hl)) rfl
  · exact order_outcome h rfl (hrel (requestRelease_absent hn)) rfl
  · exact order_outcome h rfl (hrel (requestRelease_allowed hp ho)) (by simp [State.setDest])
  · exact order_outcome h rfl (hrel (requestRelease_barred hl)) rfl
  · exact ⟨(requestProtect_queue d q s).1, (requestProtect_queue d q s).2, requestRelease_queue d q s⟩
  · rintro p k m hs rfl
    exact protectPress_eq hs

/-! ### CANCEL -/

/-- The TAKE_DONE reports of taken-out entries with one outcome and stamp, one for each entry of an application. -/
def tellOwners (what : TakeOutcome) (f : FrameIndex) (l : Label) (out : List (Owner × Crosspoint)) (v : State) : State :=
  out.foldl (fun v e => match e.1 with
    | .panel _ => v
    | .app tag => report (.takeDone tag e.2.dest e.2.level what 0) f l v) v

theorem tellOwners_rtu (what : TakeOutcome) (f : FrameIndex) (l : Label) (out : List (Owner × Crosspoint)) (v : State) :
    (tellOwners what f l out v).rtu = v.rtu :=
  foldl_keeps (fun x : State => x.rtu) _ (fun v e => by cases e.1 <;> simp) out v

theorem takeDone_owner (r : Requester) (x : Crosspoint) (what : TakeOutcome) (v : State) :
    takeDone r x what 0 v = tellOwners what v.rtu.frame v.rtu.label [(r.owner, x)] v := by
  unfold takeDone reportNow
  cases r.owner <;> simp [tellOwners]

theorem tellOwners_cons (what : TakeOutcome) (f : FrameIndex) (l : Label) (e : Owner × Crosspoint) (es : List (Owner × Crosspoint)) (v : State) :
    tellOwners what f l (e :: es) v = tellOwners what f l es (tellOwners what f l [e] v) := rfl

theorem tellOwners_eq (what : TakeOutcome) (l : List (TakeUnit × Crosspoint)) (v : State) :
    l.foldl (fun v e => takeDone e.1.requester e.2 what 0 v) v =
      tellOwners what v.rtu.frame v.rtu.label (l.map fun e => (e.1.requester.owner, e.2)) v := by
  induction l generalizing v with
  | nil => rfl
  | cons e es ih => rw [List.foldl_cons, List.map_cons, ih, takeDone_owner, tellOwners_rtu, ← tellOwners_cons]

/-- The entries of a queue that a test picks, each with its unit's owner. -/
def pickedOwners (pick : Crosspoint → Bool) (q : List TakeUnit) : List (Owner × Crosspoint) :=
  q.flatMap fun u => (u.entries.filter pick).map fun x => (u.requester.owner, x)

theorem pickedOwners_eq (pick : Crosspoint → Bool) (q : List TakeUnit) :
    ((queuedEntries q).filter fun e => pick e.2).map (fun e => (e.1.requester.owner, e.2)) = pickedOwners pick q := by
  simp only [queuedEntries, pickedOwners, List.filter_flatMap, List.map_flatMap, List.filter_map, List.map_map]
  rfl

theorem cancelEntries_eq (d : Fin 64) (m : LevelMask) (s : State) :
    let out := pickedOwners (fun x => decide (x.dest = d) && hasLevel m x.level) s.xpe.queue
    cancelEntries d m s = (tellOwners .cancelled s.rtu.frame s.rtu.label out { s with xpe :=
      { s.xpe with queue := removeEntries (fun x => decide (x.dest = d) && hasLevel m x.level) s.xpe.queue } }, out.length) := by
  have hp := pickedOwners_eq (fun x => decide (x.dest = d) && hasLevel m x.level) s.xpe.queue
  unfold cancelEntries
  simp only
  rw [tellOwners_eq, ← hp, List.length_map]

/-- The levels of the entries that are picked for one destination are all different. -/
theorem picked_levels {s : State} (hs : s.queueSound) (d : Fin 64) (m : LevelMask) :
    ((pickedOwners (fun x => decide (x.dest = d) && hasLevel m x.level) s.xpe.queue).map fun e => e.2.level).Nodup := by
  obtain ⟨-, hpair, -⟩ := hs
  have hmap : (pickedOwners (fun x => decide (x.dest = d) && hasLevel m x.level) s.xpe.queue).map (fun e => e.2.level) =
      ((s.xpe.queue.flatMap fun u => u.entries).filter fun x => decide (x.dest = d) && hasLevel m x.level).map fun x => x.level := by
    simp only [pickedOwners, List.map_flatMap, List.filter_flatMap, List.map_map]
    rfl
  rw [hmap, List.Nodup, List.pairwise_map]
  refine (hpair.filter _).imp_of_mem fun {x y} hx hy hd => ?_
  have hdx : x.dest = d := by simpa using (Bool.and_eq_true_iff.mp (List.mem_filter.mp hx).2).1
  have hdy : y.dest = d := by simpa using (Bool.and_eq_true_iff.mp (List.mem_filter.mp hy).2).1
  exact hd.resolve_left (not_not.mpr (hdx.trans hdy.symm))

theorem levels_length {l : List Level} (h : l.Nodup) : l.length ≤ 3 := by
  have hsub : l ⊆ [.v, .a, .b] := fun x _ => by cases x <;> simp
  exact (List.subperm_of_subset h hsub).length_le

/-- Settles O43: the picked entries leave the queue, and the queue's own bounds limit them. -/
theorem cancelRemovesEntries : Obligations.CancelRemovesEntries := by
  intro s r rec q h
  refine ⟨fun hb => order_refused h rfl ?_, fun d m h4 hm h5 => ⟨?_, fun hs => ⟨?_, fun e he => ?_⟩⟩⟩
  · unfold cancel destMaskOf
    rcases hb with hb | hb
    · rw [finOf_ge hb]
    · rw [maskOf_none.mpr (Or.inl hb)]
      cases finOf 64 (ob rec 4) <;> rfl
  · have hmask : destMaskOf rec = some (d, m) := by rw [destMaskOf, finOf_eq d h4, maskOf_given hm h5]
    refine order_outcome (t := (cancelEntries d m s).1) (n := (cancelEntries d m s).2) h rfl (by rw [cancel, hmask]) ?_ |>.trans ?_
    · rw [cancelEntries_eq, tellOwners_rtu]
    · rw [cancelEntries_eq]; rfl
  · have hl := levels_length (picked_levels hs d m)
    rwa [List.length_map] at hl
  · obtain ⟨u, hu, he⟩ := List.mem_flatMap.mp he
    obtain ⟨x, hin, rfl⟩ := List.mem_map.mp he
    obtain ⟨hx, hpick⟩ := List.mem_filter.mp hin
    have hd : x.dest = d := by simpa using (Bool.and_eq_true_iff.mp hpick).1
    exact hd ▸ hs.2.2 u hu x hx

end Sys2Proof.Proofs.Orders
end

