-- ==== Sys2Proof/Proofs/TakesDecided.lean ====
section
/-! Take requests and the router's configuration orders (R22, R23, R38 to R44, R46, R50). -/

namespace Sys2Proof.Proofs.Orders

open Sys2Proof Sys2Proof.Machine
open Sys2Proof.Proofs.Journal

/-! ### The admission of a unit -/

/-- What reports of entries do to the CSI and the store depends on those two alone. -/
theorem tellOwners_journal {s t : State} (h : journal t = journal s) (what : TakeOutcome) (f : FrameIndex) (l : Label) (out : List (Owner × Crosspoint)) :
    journal (tellOwners what f l out t) = journal (tellOwners what f l out s) :=
  foldl_journal h (fun x y a hxy => by
    obtain ⟨o, e⟩ := a
    cases o with
    | panel p => exact hxy
    | app tag => exact report_journal hxy _ _ _) out

theorem tellOwners_leaves (what : TakeOutcome) (f : FrameIndex) (l : Label) (out : List (Owner × Crosspoint)) (s : State) :
    let t := tellOwners what f l out s
    (t.control, t.runState, t.rtu, t.xpe, t.tly, t.tke, t.pnc) = (s.control, s.runState, s.rtu, s.xpe, s.tly, s.tke, s.pnc) :=
  foldl_keeps (fun t : State => (t.control, t.runState, t.rtu, t.xpe, t.tly, t.tke, t.pnc)) _ (fun v e => by cases e.1 <;> simp) out s

/-- A unit that the queue has no room for is refused. -/
theorem admitUnit_full {u : TakeUnit} {s : State} (h : 64 < entriesIn (s.queueWith u)) : admitUnit u s = (s, .refusedFull) := by
  rw [queueWith_eq, entriesIn_eq] at h
  exact if_pos h

/-- A unit that the queue has room for is queued. -/
theorem admitUnit_queued {u : TakeUnit} {s : State} (h : entriesIn (s.queueWith u) ≤ 64) : (admitUnit u s).2 = .queued := by
  rw [queueWith_eq, entriesIn_eq] at h
  unfold admitUnit
  rw [if_neg (Nat.not_lt.mpr h)]

/-- What an admission leaves (R42, R44): the queue with the unit, the reports SUPERSEDED, and the notices. -/
structure Admitted (s t : State) (u : TakeUnit) : Prop where
  xpe : t.xpe = { s.xpe with queue := s.queueWith u }
  told : journal t = journal (s.tellSuperseded u.entries)
  guards : s.guardsAfter t u.requester.owner fun d => ∃ x ∈ u.entries, x.dest = d
  rest : (t.control, t.runState, t.rtu, t.tly, t.tke) = (s.control, s.runState, s.rtu, s.tly, s.tke)

theorem takeNotices_leave (owner : Owner) (ds : List (Fin 64)) (s : State) :
    (ds.foldl (fun s d => takeNotice owner d s) s).xpe = s.xpe ∧ journal (ds.foldl (fun s d => takeNotice owner d s) s) = journal s :=
  Prod.mk.inj (foldl_keeps (fun t : State => (t.xpe, journal t)) (fun s d => takeNotice owner d s) (fun v d => by simp [journal]) ds s)

theorem superseded_journal {s t : State} (h : journal t = journal s) (hr : t.rtu = s.rtu) (l : List (TakeUnit × Crosspoint)) :
    journal (l.foldl (fun v e => takeDone e.1.requester e.2 .superseded 0 v) t) =
      journal (l.foldl (fun v e => takeDone e.1.requester e.2 .superseded 0 v) s) := by
  rw [tellOwners_eq, tellOwners_eq, hr]
  exact tellOwners_journal h _ _ _ _

theorem superseded_xpe (l : List (TakeUnit × Crosspoint)) (s : State) :
    (l.foldl (fun v e => takeDone e.1.requester e.2 .superseded 0 v) s).xpe = s.xpe :=
  foldl_keeps (fun s : State => s.xpe) _ (fun s e => by simp) l s

theorem admitUnit_admitted {u : TakeUnit} {s : State} (h : entriesIn (s.queueWith u) ≤ 64) : Admitted s (admitUnit u s).1 u := by
  have hq := queueWith_eq s u
  rw [hq, entriesIn_eq] at h
  have hguards := admitUnit_guards h
  have hrest := admitUnit_frame u s
  refine ⟨?_, ?_, hguards, by simp⟩
  · unfold admitUnit
    rw [if_neg (Nat.not_lt.mpr h), (takeNotices_leave _ _ _).1, superseded_xpe, hq]
  · unfold admitUnit
    rw [if_neg (Nat.not_lt.mpr h), (takeNotices_leave _ _ _).2, tellSuperseded_eq]
    exact superseded_journal (s := s) (t := { s with xpe := { s.xpe with queue := admittedQueue s.xpe.queue u } }) rfl rfl _

/-! ### Take requests -/

theorem takeEntries_empty (s : State) (d : Fin 64) (m : LevelMask) (x : Source) :
    takeEntries s.xpe.dests d m x = [] ↔ m &&& (s.dest d).present = 0 := by
  have hbits : m &&& (s.dest d).present = 0 ↔ ∀ l : Level, (hasLevel m l && hasLevel (s.dest d).present l) = false := by
    constructor
    · intro h l
      have hl := congrArg (fun b : BitVec 3 => b.getLsbD l.num) h
      simpa [hasLevel] using hl
    · intro h
      refine BitVec.eq_of_getLsbD_eq fun i hi => ?_
      rw [BitVec.getLsbD_and]
      have : i = 0 ∨ i = 1 ∨ i = 2 := by omega
      rcases this with rfl | rfl | rfl
      · exact h .v
      · exact h .a
      · exact h .b
  rw [hbits, takeEntries, List.map_eq_nil_iff, List.filter_eq_nil_iff]
  constructor
  · intro h l
    exact Bool.eq_false_iff.mpr (h l (by cases l <;> simp [levels]))
  · intro h l _
    exact Bool.eq_false_iff.mp (h l)

section
variable {s : State} {d : Fin 64} {m : LevelMask} {x : Source} {form : Option DueForm} {q : Requester} {c : Cause}

theorem requestTake_lacking (h : m &&& (s.dest d).present = 0) : requestTake d m x form q c s = (s, .refusedArg, 0) :=
  if_pos ((takeEntries_empty s d m x).mpr h)

variable (hm : m &&& (s.dest d).present ≠ 0)
include hm

theorem requestTake_due : requestTake d m x form q c s = match dueFrame s.rtu.rate s.rtu.frame s.rtu.label form with
    | .error e => (s, e, 0)
    | .ok due =>
      if protectAllows (s.dest d).protect q.owner q.level then
        withCount (takeEntries s.xpe.dests d m x).length
          (admitUnit { due := due, requester := q, cause := c, salvo := none, entries := takeEntries s.xpe.dests d m x } s)
      else (s, .refusedProtected, 0) :=
  if_neg fun he => hm ((takeEntries_empty s d m x).mp he)

theorem requestTake_refused {e : Code} (h : dueFrame s.rtu.rate s.rtu.frame s.rtu.label form = .error e) :
    requestTake d m x form q c s = (s, e, 0) := by rw [requestTake_due hm, h]

variable {due : Option FrameIndex} (h : dueFrame s.rtu.rate s.rtu.frame s.rtu.label form = .ok due)
include h

theorem requestTake_barred (hl : ¬ s.lets d q) : requestTake d m x form q c s = (s, .refusedProtected, 0) := by
  rw [requestTake_due hm, h]
  exact if_neg fun ha => hl ((lets_iff s d q).mpr ha)

theorem requestTake_full (hl : s.lets d q)
    (hf : 64 < entriesIn (s.queueWith { due := due, requester := q, cause := c, salvo := none, entries := takeEntries s.xpe.dests d m x })) :
    requestTake d m x form q c s = (s, .refusedFull, 0) := by
  rw [requestTake_due hm, h]
  refine (if_pos ((lets_iff s d q).mp hl)).trans ?_
  rw [admitUnit_full hf]
  rfl

theorem requestTake_admitted (hl : s.lets d q)
    (hf : entriesIn (s.queueWith { due := due, requester := q, cause := c, salvo := none, entries := takeEntries s.xpe.dests d m x }) ≤ 64) :
    requestTake d m x form q c s =
      ((admitUnit { due := due, requester := q, cause := c, salvo := none, entries := takeEntries s.xpe.dests d m x } s).1, .queued,
        (takeEntries s.xpe.dests d m x).length) := by
  rw [requestTake_due hm, h]
  refine (if_pos ((lets_iff s d q).mp hl)).trans ?_
  rw [withCount, admitUnit_queued hf, if_pos rfl]

end

theorem takeEntries_dest {s : State} {d : Fin 64} {m : LevelMask} {x : Source} (hm : m &&& (s.dest d).present ≠ 0) (o : Fin 64) :
    (∃ y ∈ takeEntries s.xpe.dests d m x, y.dest = o) ↔ o = d := by
  have hall : ∀ y ∈ takeEntries s.xpe.dests d m x, y.dest = d := fun y hy => by
    obtain ⟨l, -, rfl⟩ := List.mem_map.mp hy
    rfl
  constructor
  · rintro ⟨y, hy, rfl⟩
    exact hall y hy
  · rintro rfl
    obtain ⟨y, hy⟩ := List.exists_mem_of_ne_nil _ fun he => hm ((takeEntries_empty s o m x).mp he)
    exact ⟨y, hy, hall y hy⟩

/-- Settles O42: the request's checks come in R38's order, and an admission is what `Admitted` says. -/
theorem takeIsDecided : Obligations.TakeIsDecided := by
  intro s r rec q h
  obtain ⟨hfixed, hrefused⟩ := dueFrame_terms s rec
  refine ⟨fun hb => order_refused h rfl ?_, fun d m x h4 hm0 h5 h6 => ?_⟩
  · unfold take destMaskOf
    rcases hb with hb | hb | hb | hb
    · rw [finOf_ge hb]
    · rw [maskOf_none.mpr (Or.inl hb)]; cases finOf 64 (ob rec 4) <;> rfl
    · rw [maskOf_none.mpr (Or.inr hb)]; cases finOf 64 (ob rec 4) <;> rfl
    · rw [sourceOf_none.mpr hb]; split <;> simp_all
  have htake : ∀ {y : State × Code × Nat}, requestTake d m x (dueFormOf rec) q .take s = y → take q rec s = (y.1, .outcome y.2.1 y.2.2) := fun hy => by
    rw [take, destMaskOf, finOf_eq d h4, maskOf_given hm0 h5, (sourceOf_eq x).mpr h6, ← hy]
  refine ⟨fun hm => order_refused h rfl (htake (requestTake_lacking hm)), fun hm => ⟨fun c hc => ?_, fun due hdue => ⟨fun hl => ?_, fun hl hf => ?_, fun hl hf => ?_⟩⟩⟩
  · exact order_refused h rfl (htake (requestTake_refused hm ((hrefused c).mpr hc)))
  · exact order_refused h rfl (htake (requestTake_barred hm ((hfixed due).mpr hdue) hl))
  · exact order_refused h rfl (htake (requestTake_full hm ((hfixed due).mpr hdue) hl hf))
  · obtain ⟨hxpe, htold, hguards, hrest⟩ := admitUnit_admitted hf
    simp only [Prod.mk.injEq] at hrest
    obtain ⟨hcontrol, hrun, hrtu, htly, htke⟩ := hrest
    obtain ⟨hcsi, hstore⟩ := journal_eq htold
    have hnamed : (fun o => ∃ y ∈ takeEntries s.xpe.dests d m x, y.dest = o) = fun o => o = d := funext fun o => propext (takeEntries_dest hm o)
    exact ⟨_, order_outcome h rfl (htake (requestTake_admitted hm ((hfixed due).mpr hdue) hl hf)) (congrArg Rtu.frame hrtu), hxpe, hcsi, hstore,
      hnamed ▸ hguards, hrtu, htly, htke, hrun, hcontrol⟩

/-! ### DEST_SET, SALVO_SET and STEP_SET -/

theorem hasLevel_lost (m n : LevelMask) (l : Level) : hasLevel (m &&& ~~~n) l = (m.getLsbD l.num && !n.getLsbD l.num) := by
  have hl : l.num < 3 := by cases l <;> decide
  simp [hasLevel, hl]

/-- What a DEST_SET leaves: the record, the queue without the entries of the levels it takes away, and their reports CANCELLED. -/
theorem destSet_written (d : Fin 64) (c : DestConfig) (s : State) :
    let lost := fun x : Crosspoint => decide (x.dest = d) && ((s.dest d).present.getLsbD x.level.num && !c.present.getLsbD x.level.num)
    let t := (cancelEntries d ((s.dest d).present &&& ~~~c.present) (s.setDest d ((s.dest d).configured c))).1
    t.xpe = { s.xpe with dests := upd s.xpe.dests d ((s.dest d).configured c), queue := removeEntries lost s.xpe.queue } ∧
      journal t = journal (tellOwners .cancelled s.rtu.frame s.rtu.label (pickedOwners lost s.xpe.queue) s) ∧
      (t.runState, t.rtu, t.tly, t.tke, t.pnc) = (s.runState, s.rtu, s.tly, s.tke, s.pnc) := by
  intro lost t
  have hlost : (fun x : Crosspoint => decide (x.dest = d) && hasLevel ((s.dest d).present &&& ~~~c.present) x.level) = lost :=
    funext fun x => by rw [hasLevel_lost]
  have ht : t = tellOwners .cancelled s.rtu.frame s.rtu.label (pickedOwners lost s.xpe.queue) { s.setDest d ((s.dest d).configured c) with xpe :=
      { (s.setDest d ((s.dest d).configured c)).xpe with queue := removeEntries lost s.xpe.queue } } := by
    simp only [t, cancelEntries_eq, hlost]
    rfl
  have hleaves := tellOwners_leaves .cancelled s.rtu.frame s.rtu.label (pickedOwners lost s.xpe.queue) { s.setDest d ((s.dest d).configured c) with xpe :=
    { (s.setDest d ((s.dest d).configured c)).xpe with queue := removeEntries lost s.xpe.queue } }
  rw [ht]
  simp only [Prod.mk.injEq] at hleaves ⊢
  obtain ⟨-, hrun, hrtu, hxpe, htly, htke, hpnc⟩ := hleaves
  exact ⟨hxpe, tellOwners_journal (by rfl) _ _ _ _, hrun, hrtu, htly, htke, hpnc⟩

theorem inOrderWindow_iff {s : State} {a : AnchorCopy} (h : s.csi.copy = some a) (base size : Nat) :
    s.inOrderWindow base size = true ↔ a.orders.base ≤ base ∧ base + size ≤ a.orders.base + a.orders.size := by
  simp [State.inOrderWindow, h, Window.holds]

theorem stepSetArgs_given {rec : OrderRecord} {g : Fin 8} {x0 x1 x2 x3 : Source} (h4 : ob rec 4 = g.1) (h5 : ob rec 5 ≤ 1)
    (h6 : sourceByte (ob rec 6) x0) (h7 : sourceByte (ob rec 7) x1) (h8 : sourceByte (ob rec 8) x2) (h9 : sourceByte (ob rec 9) x3) :
    stepSetArgs rec = some (g, { sources := #v[x0, x1, x2, x3], order := if ob rec 5 = 0 then .linear else .interleaved }) := by
  have ho : (if ob rec 5 = 0 then some StepOrder.linear else if ob rec 5 = 1 then some StepOrder.interleaved else none) =
      some (if ob rec 5 = 0 then .linear else .interleaved) := by
    split
    · rfl
    · rw [if_pos (by omega)]
  simp only [stepSetArgs, finOf_eq g h4, ho, (sourceOf_eq _).mpr h6, (sourceOf_eq _).mpr h7, (sourceOf_eq _).mpr h8, (sourceOf_eq _).mpr h9,
    Option.bind_eq_bind, Option.bind_some]

theorem stepSetArgs_none {rec : OrderRecord} (h : 8 ≤ ob rec 4 ∨ 2 ≤ ob rec 5 ∨ ∃ i, 6 ≤ i ∧ i ≤ 9 ∧ 128 ≤ ob rec i ∧ ob rec i ≠ 255) :
    stepSetArgs rec = none := by
  unfold stepSetArgs
  rcases h with h | h | ⟨i, hi, hi', hb⟩
  · simp [finOf_ge h]
  · have h0 : ¬ ob rec 5 = 0 := by omega
    have h1 : ¬ ob rec 5 = 1 := by omega
    simp [h0, h1]
  · have hn := sourceOf_none.mpr hb
    have : i = 6 ∨ i = 7 ∨ i = 8 ∨ i = 9 := by omega
    rcases this with rfl | rfl | rfl | rfl <;> simp [hn]

/-- Settles O41: what passes the checks is written whole, and lost levels take their queued entries along. -/
theorem routerConfigurationOrders : Obligations.RouterConfigurationOrders := by
  intro s r rec q
  refine ⟨fun h d c h4 h5 hp hk h7 h8 h9 hr => ?_, fun h hb => ?_, fun h n h4 h5 => ?_, fun h n a h4 h5 h5' ha => ⟨fun hf => ?_, fun hf => ?_⟩,
    fun h hb => ?_, fun h g x0 x1 x2 x3 h4 h5 h6 h7 h8 h9 => ?_, fun h hb => ?_⟩
  · have hm := maskOf_given hp h5
    have hargs := (destSetArgs_terms rec).1 d c h4 (Nat.pos_of_ne_zero fun h0 => by simp [maskOf, h0] at hm) (by omega) (by simp [h5]) hk h7 h8 h9
      fun hk hn => hr ⟨hk, hn⟩
    obtain ⟨hxpe, htold, hrest⟩ := destSet_written d c s
    simp only [Prod.mk.injEq] at hrest
    obtain ⟨hrun, hrtu, htly, htke, hpnc⟩ := hrest
    obtain ⟨hcsi, hstore⟩ := journal_eq htold
    exact ⟨_, order_outcome h rfl (by rw [destSet, hargs]; rfl) (congrArg Rtu.frame hrtu), hxpe, ⟨hcsi, hstore⟩, hrtu, htly, htke, hpnc, hrun⟩
  · exact order_refused h rfl (by rw [destSet, (destSetArgs_terms rec).2 hb])
  · exact order_outcome h rfl (by rw [salvoSet, finOf_eq n h4]; exact (if_neg (by omega)).trans (if_pos h5)) rfl
  · refine order_outcome h rfl (by
      rw [salvoSet, finOf_eq n h4]
      exact (if_neg (by omega)).trans ((if_neg (by omega)).trans (if_pos ⟨hf.1, (inOrderWindow_iff ha _ _).mpr hf.2⟩))) rfl
  · refine order_refused h rfl (by
      rw [salvoSet, finOf_eq n h4]
      exact (if_neg (by omega)).trans ((if_neg (by omega)).trans (if_neg fun hc => hf ⟨hc.1, (inOrderWindow_iff ha _ _).mp hc.2⟩)))
  · refine order_refused h rfl ?_
    unfold salvoSet
    rcases hb with hb | hb
    · rw [finOf_ge hb]
    · split
      · rfl
      · exact if_pos hb
  · exact order_outcome h rfl (by rw [stepSet, stepSetArgs_given h4 h5 h6 h7 h8 h9]; rfl) rfl
  · exact order_refused h rfl (by rw [stepSet, stepSetArgs_none hb])

end Sys2Proof.Proofs.Orders
end

