-- ==== Sys2Proof/Proofs/JournalRecords.lean ====
section
/-! The journal in the common store: what a report writes, and the bytes of a record (R161, R162, R164). -/

namespace Sys2Proof.Proofs.Journal

open Sys2Proof Sys2Proof.Machine

/-! ### Reads after runs of writes -/

/-- A read after a run of writes inside the store. -/
theorem storeRead_writes {m : Memory} {a : Nat} {bs : List Byte} (h : m.wf = true) (hs : a + bs.length ≤ storeSize) (x : Nat) :
    storeRead (storeWrites m a bs) x = if a ≤ x ∧ x < a + bs.length then bs.getD (x - a) 0 else storeRead m x := by
  split
  · next hx =>
    have hi : x - a < bs.length := by omega
    rw [show x = a + (x - a) by omega, storeRead_writes_inside bs m a (x - a) h hs hi, show a + (x - a) - a = x - a by omega,
      List.getD_eq_getElem _ _ hi]
  · next hx => exact storeRead_writes_outside bs m a x h (by omega)

/-- Two bytes written low byte first read back as their value. -/
theorem le16_reads {n : Nat} (h : n < 65536) : (BitVec.ofNat 8 n).toNat + 256 * (BitVec.ofNat 8 (n / 256)).toNat = n := by
  simp only [BitVec.toNat_ofNat]
  omega

theorem storeRead16_le16 {m : Memory} {a n : Nat} (h : m.wf = true) (hs : a + 2 ≤ storeSize) (hn : n < 65536) :
    storeRead16 (storeWrites m a (le16 n)) a = n := by
  have hlen : (le16 n).length = 2 := rfl
  rw [storeRead16, storeRead_writes h (by omega), storeRead_writes h (by omega), if_pos (by omega), if_pos (by omega)]
  simpa [le16] using le16_reads hn

/-! ### One record, and the gap count -/

theorem record_length (x : Report) (f : FrameIndex) (l : Label) : (x.record f l).length = 16 := by cases x <;> rfl

/-- The journal and the anchor block lie inside the store, and apart (R148). -/
structure Placed (c : AnchorCopy) (m : Memory) : Prop where
  wf : m.wf = true
  journal : c.journal + 4096 ≤ 4194304
  anchor : c.address + 192 ≤ 4194304
  apart : c.journal + 4096 ≤ c.address ∨ c.address + 192 ≤ c.journal

section
variable {c : AnchorCopy} {s : State} {rec : List Byte}

theorem putRecord_store (c : AnchorCopy) (rec : List Byte) (s : State) : (putRecord c rec s).store =
    storeWrite (storeWrites s.store (c.journal + 16 * s.csi.writeIndex.toNat) rec) (c.address + 0x1E) (s.csi.writeIndex + 1) := by
  unfold putRecord
  dsimp only
  split <;> rfl

theorem putRecord_placed (hp : Placed c s.store) : Placed c (putRecord c rec s).store := { hp with wf := putRecord_wf c rec s hp.wf }

theorem setGap_placed {n : Nat} {sat : Bool} (hp : Placed c s.store) : Placed c (setGap c n sat s).store := { hp with wf := setGap_wf c n sat s hp.wf }

/-- A read after a record is put: W in the anchor block, the record's bytes at W, and the rest as before. -/
theorem putRecord_read (hp : Placed c s.store) (hl : rec.length = 16) (x : Nat) : storeRead (putRecord c rec s).store x =
    if x = c.address + 0x1E then s.csi.writeIndex + 1
    else if c.journal + 16 * s.csi.writeIndex.toNat ≤ x ∧ x < c.journal + 16 * s.csi.writeIndex.toNat + 16
      then rec.getD (x - (c.journal + 16 * s.csi.writeIndex.toNat)) 0
    else storeRead s.store x := by
  obtain ⟨hwf, hj, ha, -⟩ := hp
  have hw := s.csi.writeIndex.isLt
  rw [putRecord_store, storeRead_write _ _ _ (storeWrites_wf _ _ _ hwf) (by show _ < 4194304; omega),
    storeRead_writes hwf (by show _ ≤ 4194304; omega), hl]

/-- A record that is put leaves the read index as it was. -/
theorem putRecord_readIndex (hp : Placed c s.store) (hl : rec.length = 16) :
    storeRead (putRecord c rec s).store (c.address + 0x1C) = storeRead s.store (c.address + 0x1C) := by
  have hw := s.csi.writeIndex.isLt
  have hap := hp.apart
  rw [putRecord_read hp hl, if_neg (by omega), if_neg (by omega)]

/-- The CSI after a record is put: W has moved on, and the notice follows the threshold (R164). -/
theorem putRecord_csi (hp : Placed c s.store) (hl : rec.length = 16) : (putRecord c rec s).csi = { s.csi with
    writeIndex := s.csi.writeIndex + 1
    notice := if c.threshold ≤ (s.csi.writeIndex + 1 - storeRead s.store (c.address + 0x1C)).toNat then s.csi.notice ||| 8 else s.csi.notice } := by
  have hri := putRecord_readIndex (rec := rec) hp hl
  rw [putRecord_store] at hri
  unfold putRecord
  simp only [unread, readIndex, hri]
  split <;> rfl

theorem setGap_read (hp : Placed c s.store) {n : Nat} {sat : Bool} {x : Nat} (h0 : x ≠ c.address + 0x20) (h1 : x ≠ c.address + 0x21) :
    storeRead (setGap c n sat s).store x = storeRead s.store x :=
  storeRead_writes_outside _ _ _ _ hp.wf (by show x < _ ∨ _ + 2 ≤ x; omega)

theorem setGap_count (hp : Placed c s.store) {n : Nat} (sat : Bool) (hn : n < 65536) : storeRead16 (setGap c n sat s).store (c.address + 0x20) = n :=
  storeRead16_le16 hp.wf (by have := hp.anchor; show _ ≤ 4194304; omega) hn

end

/-! ### A report, by the room that is left -/

section
variable {c : AnchorCopy} {s : State} (x : Report) (f : FrameIndex) (l : Label) (hc : s.csi.copy = some c)
include hc

theorem report_room (hg : s.csi.gap = 0) (hu : unread c s ≤ 254) : report x f l s = putRecord c (x.record f l) s := by
  unfold report
  rw [hc]
  exact if_pos ⟨hg, hu⟩

theorem report_behindGap (hg : 0 < s.csi.gap) (hu : unread c s ≤ 253) : report x f l s =
    putRecord c (x.record f l) (setGap c 0 false (putRecord c ((Report.gap s.csi.gap s.csi.saturated).record f l) s)) := by
  unfold report
  rw [hc]
  exact (if_neg (by omega)).trans (if_pos ⟨hg, hu⟩)

theorem report_dropped (h : (s.csi.gap = 0 ∧ unread c s = 255) ∨ (0 < s.csi.gap ∧ 254 ≤ unread c s)) (hg : s.csi.gap ≤ 65535) :
    report x f l s = setGap c (min 65535 (s.csi.gap + 1)) (s.csi.saturated || decide (s.csi.gap = 65535)) s := by
  unfold report
  rw [hc]
  refine (if_neg (by omega)).trans ((if_neg (by omega)).trans ?_)
  split
  · next hlt =>
    rw [Nat.min_eq_right (by omega), decide_eq_false (by omega), Bool.or_false]
  · next hlt =>
    have h5 : s.csi.gap = 65535 := by omega
    rw [h5]
    simp

end

theorem report_uncopied {s : State} (x : Report) (f : FrameIndex) (l : Label) (hc : s.csi.copy = none) : report x f l s = s := by
  unfold report
  rw [hc]

theorem next_slot (w : BitVec 8) : (w + 1).toNat ≠ w.toNat := by
  simp only [BitVec.toNat_add]
  have := w.isLt
  simp
  omega

/-- The frame index of a record, byte by byte. -/
theorem le32_frame (f : FrameIndex) :
    le32 f.toNat = [f.extractLsb' 0 8, f.extractLsb' 8 8, f.extractLsb' 16 8, f.extractLsb' 24 8] := by
  have hbyte : ∀ k, BitVec.ofNat 8 (f.toNat / 2 ^ k) = f.extractLsb' k 8 := fun k =>
    BitVec.eq_of_toNat_eq (by rw [BitVec.extractLsb'_toNat, BitVec.toNat_ofNat, Nat.shiftRight_eq_div_pow])
  rw [← hbyte 0, ← hbyte 8, ← hbyte 16, ← hbyte 24, Nat.pow_zero, Nat.div_one]
  rfl

/-- The bytes of a record, from its kind and fields (Journal records). -/
theorem record_bytes {x : Report} {k f1 f2 f3 f4 f5 f6 f7 : Byte} (h : x.fields = (k, [f1, f2, f3, f4, f5, f6, f7])) (f : FrameIndex) (l : Label) :
    x.record f l = [k, f1, f2, f3, f.extractLsb' 0 8, f.extractLsb' 8 8, f.extractLsb' 16 8, f.extractLsb' 24 8, num8 l.hh, num8 l.mm,
      num8 l.ss, num8 l.ff, f4, f5, f6, f7] := by
  rw [Report.record, h, le32_frame]
  rfl

/-- Settles O60: the three cases of room, and the layout of each kind of record. -/
theorem journalTakesReports : Obligations.JournalTakesReports := by
  refine ⟨fun x f l s => ⟨by simp, report_uncopied x f l, fun c hc hwf hj ha hap => ?_⟩, fun f l => ?_⟩
  · have hp : Placed c s.store := ⟨hwf, hj, ha, hap⟩
    have hl := record_length x f l
    have hw := s.csi.writeIndex.isLt
    refine ⟨fun hg hu => ?_, fun hg hu => ?_, fun h hg => ?_⟩
    · rw [report_room x f l hc hg hu]
      refine ⟨putRecord_csi hp hl, fun i => ?_, ?_, fun a hout ha' => ?_⟩
      · have hi := i.isLt
        rw [putRecord_read hp hl, if_neg (by omega), if_pos (by omega), Nat.add_sub_cancel_left]
      · rw [putRecord_read hp hl, if_pos rfl]
      · rw [putRecord_read hp hl, if_neg ha', if_neg (by omega)]
    · have hlg := record_length (.gap s.csi.gap s.csi.saturated) f l
      have hp1 := putRecord_placed (rec := (Report.gap s.csi.gap s.csi.saturated).record f l) hp
      have hp2 := setGap_placed (n := 0) (sat := false) hp1
      have hw1 : (setGap c 0 false (putRecord c ((Report.gap s.csi.gap s.csi.saturated).record f l) s)).csi.writeIndex = s.csi.writeIndex + 1 := by
        rw [setGap, putRecord_csi hp hlg]
      have hnext := next_slot s.csi.writeIndex
      have hlt := (s.csi.writeIndex + 1).isLt
      rw [report_behindGap x f l hc hg hu]
      refine ⟨?_, ?_, ?_, fun i => ⟨?_, ?_⟩, ?_⟩
      · rw [putRecord_csi hp2 hl, hw1, BitVec.add_assoc]; rfl
      · rw [putRecord_csi hp2 hl]; rfl
      · rw [putRecord_csi hp2 hl]; rfl
      · have hi := i.isLt
        rw [putRecord_read hp2 hl, hw1, if_neg (by omega), if_neg (by omega), setGap_read hp1 (by omega) (by omega), putRecord_read hp hlg,
          if_neg (by omega), if_pos (by omega), Nat.add_sub_cancel_left]
      · have hi := i.isLt
        rw [putRecord_read hp2 hl, hw1, if_neg (by omega), if_pos (by omega), Nat.add_sub_cancel_left]
      · have hcount := setGap_count hp1 false (show 0 < 65536 by omega)
        rw [storeRead16] at hcount ⊢
        rw [putRecord_read hp2 hl, putRecord_read hp2 hl, hw1, if_neg (by omega), if_neg (by omega), if_neg (by omega), if_neg (by omega), hcount]
    · rw [report_dropped x f l hc h hg]
      refine ⟨rfl, setGap_count hp _ (by omega), fun a h0 h1 => setGap_read hp h0 h1⟩
  · have hlate : ∀ n, lateField n = min n 65535 := fun n => by unfold lateField; split <;> omega
    have hbyte : ∀ n : Nat, BitVec.ofNat 8 (n % 256) = BitVec.ofNat 8 n := fun n => BitVec.eq_of_toNat_eq (by simp)
    have hbit : ∀ b : Bool, BitVec.ofNat 8 (bit b) = if b = true then 1 else 0 := fun b => by cases b <;> rfl
    refine ⟨fun _ _ _ => ?_, fun _ _ _ _ _ => ?_, fun _ _ _ _ _ => ?_, fun _ _ _ => ?_, fun _ _ => ?_, fun _ _ => ?_, fun _ => ?_, fun _ => ?_, ?_,
      fun _ _ _ _ => ⟨?_, ?_⟩, fun _ lv w => ?_, fun _ => ?_, fun _ a => ?_, fun _ w => ?_⟩
    all_goals refine record_bytes ?_ f l
    all_goals simp only [Report.fields, hlate, hbyte, num8, hbit, Option.map_some, Option.map_none, Option.getD_some, Option.getD_none]

end Sys2Proof.Proofs.Journal
end

