-- ==== Sys2Proof/Proofs/Resets.lean ====
section
/-! The engine reset and the interface restart (R160, R165, R169, R175, R176). -/

namespace Sys2Proof.Proofs.Registers

open Sys2Proof Sys2Proof.Machine
open Sys2Proof.Proofs.Journal Sys2Proof.Proofs.Orders
open Sys2Proof.Proofs.Kept (resetXpe_xpe)

/-! ### The journal's reset (R165) -/

/-- The write index that a reset gives: the read index while the anchor copy is valid. -/
def resetIndex (s : State) : Byte :=
  match s.csi.copy with
  | none => s.csi.writeIndex
  | some c => storeRead s.store (c.address + 0x1C)

theorem resetJournal_csi (s : State) : (resetJournal s).csi = { s.csi with writeIndex := resetIndex s, gap := 0, saturated := false } := by
  unfold resetJournal resetIndex
  cases hc : s.csi.copy <;> rfl

theorem resetJournal_uncopied {s : State} (hc : s.csi.copy = none) : (resetJournal s).store = s.store := by
  unfold resetJournal
  rw [hc]

theorem resetJournal_store {s : State} {c : AnchorCopy} (hc : s.csi.copy = some c) :
    (resetJournal s).store = storeWrites (storeWrite s.store (c.address + 0x1E) (storeRead s.store (c.address + 0x1C))) (c.address + 0x20) (le16 0) := by
  unfold resetJournal
  rw [hc]
  rfl

/-- The store after a reset: W and the gap count in the anchor block, and every other byte as before. -/
theorem resetJournal_reads {s : State} {c : AnchorCopy} (hc : s.csi.copy = some c) (hwf : s.store.wf = true) (ha : c.address + 192 ≤ 4194304) :
    storeRead (resetJournal s).store (c.address + 0x1E) = (resetJournal s).csi.writeIndex ∧ storeRead16 (resetJournal s).store (c.address + 0x20) = 0 ∧
      ∀ x, x ≠ c.address + 0x1E → x ≠ c.address + 0x20 → x ≠ c.address + 0x21 → storeRead (resetJournal s).store x = storeRead s.store x := by
  have hwf1 := storeWrite_wf (c.address + 0x1E) (storeRead s.store (c.address + 0x1C)) hwf
  have hlen : (le16 0).length = 2 := rfl
  rw [resetJournal_csi, resetJournal_store hc]
  refine ⟨?_, storeRead16_le16 hwf1 (by show _ ≤ 4194304; omega) (by decide), fun x h1 h2 h3 => ?_⟩
  · rw [storeRead_writes_outside _ _ _ _ hwf1 (by omega), storeRead_write _ _ _ hwf (by show _ < 4194304; omega), if_pos rfl, resetIndex, hc]
  · rw [storeRead_writes_outside _ _ _ _ hwf1 (by omega), storeRead_write_other _ hwf h1]

/-! ### INTERFACE_RESTART -/

/-- A fire request goes on with nowhere to answer to where an order asked (log entry 19). -/
theorem orphaned_eq : FireRequest.orphaned = fun q : FireRequest => { q with origin := if q.origin = .order then .orphan else q.origin } := by
  funext q
  unfold FireRequest.orphaned
  split <;> rfl

/-- Settles O34: the CSI restarts, the journal's reset writes all that is written, and R174 is examined after it. -/
theorem interfaceRestartIsCsiAlone : Obligations.InterfaceRestartIsCsiAlone := by
  intro pre mask s hpre
  have hcopy : (orphanOrders (s.withWrites pre)).csi.copy = s.csi.copy := rfl
  refine ⟨setMask mask (restartInterface (s.withWrites pre)), landed_inside hpre s (fun s => examineHalting (setMask mask (restartInterface s))),
    fun h => examineHalting_other (by simpa using h), by simp [setMask, restartInterface], rfl, rfl, rfl, ?_⟩
  have hcsi : (setMask mask (restartInterface (s.withWrites pre))).csi =
      { (resetJournal (orphanOrders (s.withWrites pre))).csi with
        posts := [], running := none, notice := 0
        mirror := { (resetJournal (orphanOrders (s.withWrites pre))).csi.mirror with writing := none, waiting := none, complete := true, freeze := .live } } := rfl
  have hstore : (setMask mask (restartInterface (s.withWrites pre))).store = (resetJournal (orphanOrders (s.withWrites pre))).store := rfl
  have hxpe : (setMask mask (restartInterface (s.withWrites pre))).xpe = (orphanOrders (s.withWrites pre)).xpe := by simp [setMask, restartInterface]
  have hpnc : (setMask mask (restartInterface (s.withWrites pre))).pnc = (orphanOrders (s.withWrites pre)).pnc := by simp [setMask, restartInterface]
  refine ⟨by rw [hcsi, resetJournal_csi], by rw [hcsi, resetJournal_csi], by rw [hcsi, resetJournal_csi]; rfl, by rw [hcsi, resetJournal_csi]; rfl, by simp, by simp,
    by simp, by simp, by simp, by simp, fun hc => ?_, fun c hc hwf ha => ?_, ?_, fun hr => ?_, fun x hr => ?_, ?_⟩
  · rw [hstore, resetJournal_uncopied (hcopy.trans hc)]; rfl
  · rw [hstore, hcsi]
    exact resetJournal_reads (hcopy.trans hc) (hostWrite_wf pre s.store hwf) ha
  · rw [hxpe]
    simp only [orphanOrders, orphaned_eq]
    rfl
  · rw [hxpe]
    simp only [orphanOrders]
    show s.xpe.reading.map _ = none
    rw [hr]; rfl
  · rw [hxpe]
    simp only [orphanOrders]
    show s.xpe.reading.map _ = _
    rw [hr, orphaned_eq]; rfl
  · rw [hpnc]; rfl

/-! ### ENGINE_RESET -/

theorem doubted_entry (d : Destination) (l : Level) : (d.doubted.entry l) = (d.entry l).doubted := by cases l <;> rfl

theorem doubted_source (e : MapEntry) : e.doubted.source = e.source := by
  unfold MapEntry.doubted
  split <;> rfl

theorem doubted_state (e : MapEntry) : e.doubted.state = if e.state = .unknown then .unknown else .uncertain := by
  unfold MapEntry.doubted
  cases h : e.state <;> simp [h]

theorem resetEngine_xpe (s : State) : (resetEngine s).xpe = (resetXpe (resetCsi s)).xpe := by simp [resetEngine]

/-- Every destination is doubted and without a protect after an engine reset. -/
theorem resetEngine_dest (s : State) (d : Fin 64) : (resetEngine s).dest d = (s.dest d).afterReset := by
  have hd : (resetEngine s).xpe.dests = tabulate fun d => (resetCsi s).xpe.dests[d].afterReset := by rw [resetEngine_xpe, resetXpe_xpe]
  rw [State.dest, hd]
  simp [State.dest]

theorem resetEngine_tke (s : State) : (resetEngine s).tke = (resetTke (resetXpe (resetCsi s))).tke := by simp [resetEngine]

theorem resetTke_idle (s : State) (p : Fin 24) (k : Fin 48) : (resetTke s).keyState p k = .idle := by
  show (resetTke s).tke.keys[p][k] = _
  simp [resetTke, retarget, deriveSets, idleKeys]

theorem resetTke_sets (s : State) : (resetTke s).tke.paths = [] ∧ (resetTke s).tke.talking = 0 ∧ (resetTke s).tke.incoming = 0 :=
  deriveSets_idle (s := idleKeys (fun _ _ => true) s) fun p k => by
    show (idleKeys (fun _ _ => true) s).tke.keys[p][k] = _
    simp [idleKeys]

theorem resetEngine_panel (s : State) (p : Fin 24) : (resetEngine s).panel p = (s.panel p).afterReset := by
  have hp : ∀ x : State, (resetPnc x).panel p = (x.panel p).afterReset := fun x => by simp [State.panel, resetPnc]
  have hpnc : (resetTke (resetXpe (resetCsi s))).pnc = s.pnc := by simp
  show (resetPnc (resetTke (resetXpe (resetCsi s)))).panel p = _
  rw [hp, State.panel, hpnc]
  rfl

/-- The reports DROPPED of an engine reset, in the order of the queue. -/
theorem resetXpe_journal (s : State) : journal (resetXpe s) = journal (tellOwners .dropped s.rtu.frame s.rtu.label
    (s.xpe.queue.flatMap fun q => q.entries.map fun x => (q.requester.owner, x)) s) := by
  have hfold : ∀ (q : List TakeUnit) (v : State), q.foldl (fun s u => unitDone .dropped u s) v =
      (queuedEntries q).foldl (fun v e => takeDone e.1.requester e.2 .dropped 0 v) v := fun q v => by
    simp only [queuedEntries, List.foldl_flatMap, List.foldl_map, unitDone]
  have howners : (queuedEntries s.xpe.queue).map (fun e => (e.1.requester.owner, e.2)) =
      s.xpe.queue.flatMap fun q => q.entries.map fun x => (q.requester.owner, x) := by
    simp [queuedEntries, List.map_flatMap, Function.comp_def]
  unfold resetXpe
  dsimp only
  rw [hfold, tellOwners_eq, howners]
  refine tellOwners_journal ?_ _ _ _ _
  simp only [journal]

theorem resetEngine_journal (s : State) : journal (resetEngine s) = journal (resetXpe (resetCsi s)) := by
  simp [journal, resetEngine]

/-- A write of the enable mask commutes with an interface restart. -/
theorem restartInterface_setMask (mask : BitVec 5) (s : State) : restartInterface (setMask mask s) = setMask mask (restartInterface s) := by
  have hjournal : resetJournal (orphanOrders (setMask mask s)) = setMask mask (resetJournal (orphanOrders s)) := by
    unfold resetJournal
    cases hc : s.csi.copy <;> simp [orphanOrders, setMask, hc, setGap]
  unfold restartInterface
  rw [hjournal]
  rfl

theorem withWrites_nil (s : State) : s.withWrites [] = s := by simp [State.withWrites, hostWrite, replacedBy]

/-- An interface restart written with the engine reset is one taken after it. -/
theorem engineReset_restart {pre : HostWrites} (hpre : writesInside pre = true) (mask : BitVec 5) (s : State) :
    exec (.engineReset pre true mask) s = exec (.interfaceRestart [] mask) (setMask mask (resetEngine (s.withWrites pre))) := by
  have hl : exec (.engineReset pre true mask) s = .next (setMask mask (restartInterface (resetEngine (s.withWrites pre)))) :=
    landed_inside hpre s (fun s => setMask mask (if true then restartInterface (resetEngine s) else resetEngine s))
  have hr := landed_inside (pre := []) rfl (setMask mask (resetEngine (s.withWrites pre))) (fun s => examineHalting (setMask mask (restartInterface s)))
  rw [withWrites_nil, restartInterface_setMask, examineHalting_other (by simp [setMask, resetEngine])] at hr
  exact hl.trans hr.symm

/-- The talk block after an engine reset. -/
theorem resetEngine_talk (s : State) : let t := (resetEngine s).tke
    t.queue = [] ∧ t.flight = none ∧ t.fails = 0 ∧ t.paths = [] ∧ t.talking = 0 ∧ t.incoming = 0 ∧
      (∀ (p : Fin 24) (k : Fin 48), t.keys[p][k] = .idle) ∧ t.link = s.tke.link ∧ t.ports = s.tke.ports ∧ t.groups = s.tke.groups ∧ t.ifbs = s.tke.ifbs := by
  have hkeep : (resetXpe (resetCsi s)).tke = s.tke := by simp
  obtain ⟨hpaths, htalking, hincoming⟩ := resetTke_sets (resetXpe (resetCsi s))
  have hidle := resetTke_idle (resetXpe (resetCsi s))
  simp only [State.keyState] at hidle
  rw [resetEngine_tke]
  refine ⟨rfl, rfl, rfl, hpaths, htalking, hincoming, hidle, ?_⟩
  simp [resetTke, retarget, deriveSets, idleKeys]

/-- The panel block after an engine reset. -/
theorem resetEngine_links (s : State) : (∀ l : Fin 4, (resetEngine s).pnc.links[l].out = none) ∧ (resetEngine s).pnc.mapReads = [] := by
  have hpnc : (resetEngine s).pnc = (resetPnc (resetTke (resetXpe (resetCsi s)))).pnc := rfl
  rw [hpnc]
  simp [resetPnc]

theorem resetCsi_csi (s : State) : (resetCsi s).csi = { s.csi with
    writeIndex := resetIndex s, gap := 0, saturated := false, posts := [], running := none, mirror := { s.csi.mirror with complete := true } } := by
  have h : (resetCsi s).csi = { (resetJournal s).csi with posts := [], running := none, mirror := { (resetJournal s).csi.mirror with complete := true } } := rfl
  rw [h, resetJournal_csi]

theorem resetCsi_store (s : State) : (resetCsi s).store = (resetJournal s).store := rfl

/-- The CSI's own fields after an engine reset, but for what its reports move. -/
theorem resetEngine_csi (s : State) : let t := (resetEngine s).csi
    t.posts = [] ∧ t.running = none ∧ t.copy = s.csi.copy ∧ t.anchor = s.csi.anchor ∧ t.mirror.freeze = s.csi.mirror.freeze := by
  rw [(journal_eq (resetEngine_journal s)).1]
  simp [resetCsi_csi]

theorem tellOwners_uncopied {s : State} (hc : s.csi.copy = none) (what : TakeOutcome) (f : FrameIndex) (l : Label) (out : List (Owner × Crosspoint)) :
    tellOwners what f l out s = s := by
  unfold tellOwners
  induction out with
  | nil => rfl
  | cons e es ih =>
    rw [List.foldl_cons]
    obtain ⟨o, x⟩ := e
    cases o with
    | panel p => exact ih
    | app tag =>
      dsimp only
      rw [report_uncopied _ _ _ hc]
      exact ih

/-- The journal after an engine reset: its own reset, then the reports DROPPED. -/
theorem resetEngine_told (s : State) : journal (resetEngine s) = journal (tellOwners .dropped s.rtu.frame s.rtu.label
    (s.xpe.queue.flatMap fun q => q.entries.map fun x => (q.requester.owner, x)) (resetCsi s)) := by
  have hq : (resetCsi s).xpe = s.xpe := by simp
  have hr : (resetCsi s).rtu = s.rtu := by simp
  rw [resetEngine_journal, resetXpe_journal, hq, hr]

/-- Settles O33: each block's reset, the journal's first. -/
theorem engineResetEmptiesQueues : Obligations.EngineResetEmptiesQueues := by
  intro pre mask s hpre
  have hxpe : (resetEngine (s.withWrites pre)).xpe = _ := (resetEngine_xpe _).trans (resetXpe_xpe (resetCsi (s.withWrites pre)))
  have htke := resetEngine_talk (s.withWrites pre)
  have hpnc := resetEngine_links (s.withWrites pre)
  have hcsi := resetEngine_csi (s.withWrites pre)
  have hdest := resetEngine_dest (s.withWrites pre)
  have hpanel := resetEngine_panel (s.withWrites pre)
  have htold := resetEngine_told (s.withWrites pre)
  have hrtu : (resetEngine (s.withWrites pre)).rtu = s.rtu := by simp
  have htly : (resetEngine (s.withWrites pre)).tly = s.tly := by simp
  have hcontrol : (resetEngine (s.withWrites pre)).control = { s.control with run := false } := by simp [resetEngine]
  have hhalted : (resetEngine (s.withWrites pre)).runState = .halted := rfl
  have hreplaced : (resetEngine (s.withWrites pre)).replaced = [] := rfl
  have hexec : exec (.engineReset pre false mask) s = .next (setMask mask (resetEngine (s.withWrites pre))) :=
    landed_inside hpre s (fun s => setMask mask (if false then restartInterface (resetEngine s) else resetEngine s))
  have hboth := engineReset_restart hpre mask s
  refine ⟨setMask mask (resetEngine (s.withWrites pre)), hexec, ?_⟩
  generalize resetEngine (s.withWrites pre) = e at *
  refine ⟨hhalted, ?_, ?_, fun d l => ?_, htke, ⟨hpnc.1, hpnc.2, fun p => ?_⟩, hcsi, fun hc => ?_, fun c hc => ?_, hrtu, htly, hreplaced, hboth⟩
  · simp only [setMask, hcontrol]
  · show e.xpe.queue = [] ∧ e.xpe.armed = [] ∧ e.xpe.reportWait = none ∧ e.xpe.ackWait = false ∧ e.xpe.sweep = none ∧ e.xpe.pingWait = false ∧
      e.xpe.reading = none ∧ e.xpe.fires = [] ∧ e.xpe.link = _ ∧ e.xpe.salvos = _ ∧ e.xpe.steps = _
    rw [hxpe]
    simp
  · have hd : (setMask mask e).dest d = (s.dest d).afterReset := hdest d
    rw [hd]
    refine ⟨rfl, ?_, ?_⟩
    · show ((s.dest d).doubted.entry l).source = _
      rw [doubted_entry, doubted_source]
    · show ((s.dest d).doubted.entry l).state = _
      rw [doubted_entry, doubted_state]
  · have hp : (setMask mask e).panel p = (s.panel p).afterReset := hpanel p
    rw [hp]
    exact ⟨rfl, rfl, rfl, rfl, rfl, rfl⟩
  · have hc' : (resetCsi (s.withWrites pre)).csi.copy = none := by rw [resetCsi_csi]; exact hc
    rw [tellOwners_uncopied hc'] at htold
    obtain ⟨h1, h2⟩ := journal_eq htold
    show e.csi.writeIndex = _ ∧ e.csi.gap = _ ∧ e.csi.saturated = _ ∧ e.csi.notice = _ ∧ e.store = _
    rw [h1, h2, resetCsi_csi, resetCsi_store, resetJournal_uncopied (s := s.withWrites pre) hc]
    refine ⟨?_, rfl, rfl, rfl, rfl⟩
    show resetIndex (s.withWrites pre) = _
    unfold resetIndex
    rw [show (s.withWrites pre).csi.copy = none from hc]
    rfl
  · have hc' : (s.withWrites pre).csi.copy = some c := hc
    have hindex : resetIndex (s.withWrites pre) = storeRead (hostWrite s.store pre) (c.address + 0x1C) := by
      unfold resetIndex
      rw [hc']
      rfl
    refine ⟨resetCsi (s.withWrites pre), ?_, fun hwf ha => ?_, ?_⟩
    · rw [resetCsi_csi]
      exact ⟨hc, rfl, rfl, rfl, hindex⟩
    · have hreads := resetJournal_reads hc' (hostWrite_wf pre s.store hwf) ha
      rw [resetJournal_csi] at hreads
      rw [resetCsi_csi, resetCsi_store]
      exact hreads
    · obtain ⟨h1, h2⟩ := journal_eq htold
      exact ⟨h2, congrArg Csi.writeIndex h1, congrArg Csi.gap h1, congrArg Csi.saturated h1, congrArg Csi.notice h1⟩

end Sys2Proof.Proofs.Registers
end

