-- ==== Sys2Proof/Proofs/StripWrites.lean ====
section
/-! What a strip writes into the common store: outcome words and slot headers (R152, R154 to R158). -/

namespace Sys2Proof.Proofs.Strips

open Sys2Proof Sys2Proof.Machine
open Sys2Proof.Proofs.Journal (storeRead_writes)

/-! ### Bytes that a write does not touch, whatever the store's form -/

theorem storeRead_insert_away {a x : Nat} (b : Byte) (hx : x ≠ a) : ∀ m : Memory, storeRead (storeInsert m a b) x = storeRead m x
  | [] => by
    unfold storeInsert
    split
    · rfl
    · exact if_neg (Ne.symm hx)
  | c :: m => by
    unfold storeInsert
    split
    · split
      · rfl
      · exact if_neg (Ne.symm hx)
    · split
      · next hc =>
        have hcx : c.1 ≠ x := fun h => hx (h.symm.trans hc.symm)
        split
        · exact (if_neg hcx).symm
        · exact (if_neg (Ne.symm hx)).trans (if_neg hcx).symm
      · rw [storeRead, storeRead, storeRead_insert_away b hx m]

theorem storeRead_write_away {a x : Nat} (m : Memory) (b : Byte) (hx : x ≠ a) : storeRead (storeWrite m a b) x = storeRead m x := by
  unfold storeWrite
  split
  · exact storeRead_insert_away b hx m
  · rfl

theorem storeRead_writes_away {x : Nat} : ∀ (bs : List Byte) (m : Memory) (a : Nat), x < a ∨ a + bs.length ≤ x →
    storeRead (storeWrites m a bs) x = storeRead m x
  | [], _, _, _ => rfl
  | b :: bs, m, a, hx => by
    have hlen : (b :: bs).length = bs.length + 1 := rfl
    rw [storeWrites, storeRead_writes_away bs _ (a + 1) (by omega), storeRead_write_away m b (by omega)]

/-! ### Outcome words -/

/-- The six bytes of an outcome word at `a`: code, detail and frame index. -/
def outcomeAt (m : Memory) (a : Nat) (c : Code) (n : Nat) (f : FrameIndex) : Prop :=
  storeRead m (a + 0x18) = c.byte ∧ storeRead m (a + 0x19) = BitVec.ofNat 8 n ∧
    ∀ i : Fin 4, storeRead m (a + 0x1C + i.1) = f.extractLsb' (8 * i.1) 8

/-- `x` is none of the six bytes of an outcome word at `a`. -/
def offOutcome (a x : Nat) : Prop := x ≠ a + 0x18 ∧ x ≠ a + 0x19 ∧ (x < a + 0x1C ∨ a + 0x20 ≤ x)

theorem offOutcome_outside {a x : Nat} (h : x < a ∨ a + 32 ≤ x) : offOutcome a x := by
  unfold offOutcome
  omega

theorem outcomeAt_congr {m m' : Memory} {a : Nat} {c : Code} {n : Nat} {f : FrameIndex}
    (h : ∀ x, a ≤ x → x < a + 32 → storeRead m' x = storeRead m x) (hm : outcomeAt m a c n f) : outcomeAt m' a c n f := by
  obtain ⟨hc, hn, hf⟩ := hm
  refine ⟨(h _ (by omega) (by omega)).trans hc, (h _ (by omega) (by omega)).trans hn, fun i => ?_⟩
  have hi := i.isLt
  exact (h _ (by omega) (by omega)).trans (hf i)

theorem writeOutcome_spares {a x : Nat} (h : offOutcome a x) (c : Code) (n : Nat) (f : FrameIndex) (s : State) :
    storeRead (writeOutcome a c n f s).store x = storeRead s.store x := by
  obtain ⟨h1, h2, h3⟩ := h
  rw [writeOutcome_store, storeRead_writes_away _ _ _ (by show x < a + 0x1C ∨ a + 0x1C + 4 ≤ x; omega),
    storeRead_writes_away _ _ _ (by show x < a + 0x18 ∨ a + 0x18 + 2 ≤ x; omega)]

theorem writeOutcome_at {s : State} (hwf : s.store.wf = true) {a : Nat} (ha : a + 32 ≤ 4194304) (c : Code) (n : Nat) (f : FrameIndex) :
    outcomeAt (writeOutcome a c n f s).store a c n f := by
  have hwf1 := storeWrites_wf [c.byte, BitVec.ofNat 8 n] s.store (a + 0x18) hwf
  have hlow : ∀ x, x < a + 0x1C → storeRead (writeOutcome a c n f s).store x =
      storeRead (storeWrites s.store (a + 0x18) [c.byte, BitVec.ofNat 8 n]) x := fun x hx => by
    rw [writeOutcome_store, storeRead_writes_away _ _ _ (Or.inl hx)]
  refine ⟨?_, ?_, fun i => ?_⟩
  · rw [hlow _ (by omega)]
    exact storeRead_writes_inside [c.byte, BitVec.ofNat 8 n] s.store (a + 0x18) 0 hwf (by show _ ≤ 4194304; simp only [List.length]; omega) (by simp)
  · rw [hlow _ (by omega)]
    exact storeRead_writes_inside [c.byte, BitVec.ofNat 8 n] s.store (a + 0x18) 1 hwf (by show _ ≤ 4194304; simp only [List.length]; omega) (by simp)
  · rw [writeOutcome_store, storeRead_writes_inside _ _ _ _ hwf1 (by show _ ≤ 4194304; simp only [List.length]; omega) i.isLt]
    match i with
    | 0 => rfl
    | 1 => rfl
    | 2 => rfl
    | 3 => rfl

theorem writeOutcomes_spares (p : Posted) (c : Code) (n : Nat) (f : FrameIndex) {x : Nat} : ∀ (k i : Nat) (s : State),
    (∀ j, i ≤ j → j < i + k → offOutcome (orderAddress p j) x) → storeRead (writeOutcomes p c n f i k s).store x = storeRead s.store x
  | 0, _, _, _ => rfl
  | k + 1, i, s, h => by
    rw [writeOutcomes, writeOutcomes_spares p c n f k (i + 1) _ fun j hj hj' => h j (by omega) (by omega)]
    exact writeOutcome_spares (h i (Nat.le_refl i) (by omega)) c n f s

theorem writeOutcomes_at (p : Posted) (c : Code) (n : Nat) (f : FrameIndex) {j : Nat} : ∀ (k i : Nat) (s : State), s.store.wf = true →
    i ≤ j → j < i + k → orderAddress p j + 32 ≤ 4194304 → outcomeAt (writeOutcomes p c n f i k s).store (orderAddress p j) c n f
  | 0, _, _, _, hi, hk, _ => absurd hk (by omega)
  | k + 1, i, s, hwf, hi, hk, ha => by
    rw [writeOutcomes]
    rcases Nat.eq_or_lt_of_le hi with rfl | hlt
    · refine outcomeAt_congr (fun x hx hx' => writeOutcomes_spares p c n f k (i + 1) _ fun j hj _ => offOutcome_outside ?_) (writeOutcome_at hwf ha c n f)
      simp only [orderAddress] at hx hx' ⊢
      omega
    · exact writeOutcomes_at p c n f k (i + 1) _ (writeOutcome_wf _ _ _ _ _ hwf) hlt (by omega) ha

/-! ### Slot headers -/

section
variable {s : State} {a : AnchorCopy}

theorem writeSlotState_store (ha : s.csi.copy = some a) (slot : Fin 8) (x : Byte) :
    (writeSlotState slot x s).store = storeWrites s.store (slotAddress a slot) [x] := by
  unfold writeSlotState
  rw [ha]
  rfl

theorem writeCounts_store (ha : s.csi.copy = some a) (slot : Fin 8) (n k : Nat) :
    (writeCounts slot n k s).store = storeWrites s.store (slotAddress a slot + 8) (le16 n ++ le16 k) := by
  unfold writeCounts
  rw [ha]
  rfl

theorem writeSlotState_spares (slot : Fin 8) (x : Byte) {y : Nat} (h : ∀ a, s.csi.copy = some a → y ≠ slotAddress a slot) :
    storeRead (writeSlotState slot x s).store y = storeRead s.store y := by
  unfold writeSlotState
  split
  · rfl
  · next c hc =>
    have hy := h c hc
    exact storeRead_writes_away _ _ _ (by show y < slotAddress c slot ∨ slotAddress c slot + 1 ≤ y; omega)

theorem writeCounts_spares (slot : Fin 8) (n k : Nat) {y : Nat}
    (h : ∀ a, s.csi.copy = some a → y < slotAddress a slot + 8 ∨ slotAddress a slot + 12 ≤ y) :
    storeRead (writeCounts slot n k s).store y = storeRead s.store y := by
  unfold writeCounts
  split
  · rfl
  · next c hc => exact storeRead_writes_away _ _ _ (by have hy := h c hc; show y < slotAddress c slot + 8 ∨ slotAddress c slot + 8 + 4 ≤ y; omega)

theorem writeSlotState_at (hwf : s.store.wf = true) (ha : s.csi.copy = some a) (slot : Fin 8) (x : Byte) (hs : slotAddress a slot + 16 ≤ 4194304) :
    storeRead (writeSlotState slot x s).store (slotAddress a slot) = x := by
  rw [writeSlotState_store ha]
  exact storeRead_writes_inside [x] s.store _ 0 hwf (by show _ ≤ 4194304; simp only [List.length]; omega) (by simp)

theorem bytes_mod (n : Nat) : (BitVec.ofNat 8 n).toNat + 256 * (BitVec.ofNat 8 (n / 256)).toNat = n % 65536 := by
  simp only [BitVec.toNat_ofNat]
  omega

theorem writeCounts_at (hwf : s.store.wf = true) (ha : s.csi.copy = some a) (slot : Fin 8) (n k : Nat) (hs : slotAddress a slot + 16 ≤ 4194304) :
    storeRead16 (writeCounts slot n k s).store (slotAddress a slot + 8) = n % 65536 ∧
      storeRead16 (writeCounts slot n k s).store (slotAddress a slot + 10) = k % 65536 := by
  have hlen : (le16 n ++ le16 k).length = 4 := rfl
  have hread : ∀ i (hi : i < 4), storeRead (writeCounts slot n k s).store (slotAddress a slot + 8 + i) = (le16 n ++ le16 k)[i] := fun i hi => by
    rw [writeCounts_store ha]
    exact storeRead_writes_inside (le16 n ++ le16 k) s.store _ i hwf (by show _ ≤ 4194304; omega) hi
  have h0 := hread 0 (by decide)
  have h1 := hread 1 (by decide)
  have h2 := hread 2 (by decide)
  have h3 := hread 3 (by decide)
  refine ⟨?_, ?_⟩
  · rw [storeRead16, h1, show slotAddress a slot + 8 = slotAddress a slot + 8 + 0 from rfl, h0]
    exact bytes_mod n
  · rw [storeRead16, show slotAddress a slot + 10 + 1 = slotAddress a slot + 8 + 3 from rfl, h3,
      show slotAddress a slot + 10 = slotAddress a slot + 8 + 2 from rfl, h2]
    exact bytes_mod k

end

theorem storeRead16_congr {m m' : Memory} {a : Nat} (h0 : storeRead m' a = storeRead m a) (h1 : storeRead m' (a + 1) = storeRead m (a + 1)) :
    storeRead16 m' a = storeRead16 m a := by rw [storeRead16, storeRead16, h0, h1]

/-! ### The end of a slot -/

/-- A slot ends with its counts: the header's state and counts, and no other byte. -/
theorem slotEnds_at {s : State} {a : AnchorCopy} (hwf : s.store.wf = true) (ha : s.csi.copy = some a) (slot : Fin 8) (n k : Nat)
    (hs : slotAddress a slot + 16 ≤ 4194304) : let t := slotDone slot (writeCounts slot n k s)
    storeRead t.store (slotAddress a slot) = 4 ∧ storeRead16 t.store (slotAddress a slot + 8) = n % 65536 ∧
      storeRead16 t.store (slotAddress a slot + 10) = k % 65536 := by
  have hwf1 := writeCounts_wf slot n k s hwf
  have ha1 : (writeCounts slot n k s).csi.copy = some a := by simpa using ha
  obtain ⟨h8, h10⟩ := writeCounts_at hwf ha slot n k hs
  have hkeep : ∀ y, y ≠ slotAddress a slot → storeRead (slotDone slot (writeCounts slot n k s)).store y = storeRead (writeCounts slot n k s).store y :=
    fun y hy => writeSlotState_spares slot 4 fun b hb => by rw [ha1] at hb; cases hb; exact hy
  refine ⟨writeSlotState_at hwf1 ha1 slot 4 hs, ?_, ?_⟩
  · rw [storeRead16_congr (hkeep _ (by omega)) (hkeep _ (by omega)), h8]
  · rw [storeRead16_congr (hkeep _ (by omega)) (hkeep _ (by omega)), h10]

/-- The end of a slot leaves every byte but the header's state and counts. -/
theorem slotEnds_spares {s : State} (slot : Fin 8) (n k : Nat) {y : Nat}
    (h : ∀ a, s.csi.copy = some a → y ≠ slotAddress a slot ∧ (y < slotAddress a slot + 8 ∨ slotAddress a slot + 12 ≤ y)) :
    storeRead (slotDone slot (writeCounts slot n k s)).store y = storeRead s.store y :=
  (writeSlotState_spares slot 4 fun a ha => (h a (by simpa using ha)).1).trans (writeCounts_spares slot n k fun a ha => (h a ha).2)

theorem slotDone_csi (slot : Fin 8) (s : State) : (slotDone slot s).csi = { s.csi with notice := s.csi.notice ||| 1 } := by
  simp only [slotDone, raise, writeSlotState_frame]
  rfl

end Sys2Proof.Proofs.Strips
end

