-- ==== Sys2Proof/Proofs/StripOutcomes.lean ====
section
/-! An order's outcome and the end of a strip, and WITHDRAW (R152, R154, R155, R157). -/

namespace Sys2Proof.Proofs.Strips

open Sys2Proof Sys2Proof.Machine

/-! ### An order's outcome -/

/-- The state in which the order has its outcome and the strip its counts. -/
def counted (r : Running) (c : Code) (n : Nat) (f : FrameIndex) (s : State) : State :=
  let s1 := writeCounts r.slot.slot (r.after c).processed (r.after c).refused (writeOutcome (orderAddress r.slot r.next) c n f s)
  { s1 with csi := { s1.csi with running := some (r.after c) } }

/-- What ends a strip with an order's outcome (R152, R155, R157). -/
def endsStrip (r : Running) (c : Code) : Prop := r.stop = true ∨ (r.slot.stopOn = true ∧ c.isRefusal = true) ∨ r.slot.count = r.next + 1

theorem finishOrder_goesOn {r : Running} {c : Code} (n : Nat) (f : FrameIndex) (s : State) (hr : r.next < r.slot.count) (h : ¬ endsStrip r c) :
    finishOrder r c n f s = counted r c n f s := by
  obtain ⟨hstop, hon, hlast⟩ : r.stop ≠ true ∧ ¬ (r.slot.stopOn = true ∧ c.isRefusal = true) ∧ r.slot.count ≠ r.next + 1 := by
    simpa [endsStrip, not_or] using h
  have hnext : ¬ r.slot.count ≤ (r.after c).next := by show ¬ r.slot.count ≤ r.next + 1; omega
  unfold finishOrder
  rw [if_neg hstop, if_neg hon, if_neg hnext]
  rfl

/-- A strip that ends gives its later orders one outcome: WITHDRAWN where it was marked to stop, and else SKIPPED. -/
theorem finishOrder_ends {r : Running} {c : Code} (n : Nat) (f : FrameIndex) (s : State) (h : endsStrip r c) :
    finishOrder r c n f s = endWith (if r.stop = true then .withdrawn else .skipped) (r.after c) (counted r c n f s) := by
  unfold finishOrder
  by_cases hstop : r.stop = true
  · rw [if_pos hstop, if_pos hstop]
    rfl
  · rw [if_neg hstop, if_neg hstop]
    by_cases hon : r.slot.stopOn = true ∧ c.isRefusal = true
    · rw [if_pos hon]
      rfl
    · have hlast : r.slot.count = r.next + 1 := (h.resolve_left hstop).resolve_left hon
      have hnone : (r.after c).slot.count - (r.after c).next = 0 := by show r.slot.count - (r.next + 1) = 0; omega
      rw [if_neg hon, if_pos (show r.slot.count ≤ (r.after c).next from Nat.le_of_eq hlast), endWith, hnone]
      rfl

/-- The place of a strip in the store: its list and its slot header lie inside it, and apart (R148, R151). -/
structure StripPlaced (s : State) (a : AnchorCopy) (p : Posted) : Prop where
  wf : s.store.wf = true
  copy : s.csi.copy = some a
  list : p.address + 32 * p.count ≤ 4194304
  header : slotAddress a p.slot + 16 ≤ 4194304
  apart : p.address + 32 * p.count ≤ slotAddress a p.slot ∨ slotAddress a p.slot + 16 ≤ p.address

section
variable {s : State} {a : AnchorCopy} {r : Running} (c : Code) (n : Nat) (f : FrameIndex)

theorem counted_store : (counted r c n f s).store =
    (writeCounts r.slot.slot (r.after c).processed (r.after c).refused (writeOutcome (orderAddress r.slot r.next) c n f s)).store := rfl

theorem counted_wf (hwf : s.store.wf = true) : (counted r c n f s).store.wf = true := writeCounts_wf _ _ _ _ (writeOutcome_wf _ _ _ _ _ hwf)

theorem counted_csi : (counted r c n f s).csi = { s.csi with running := some (r.after c) } := by
  show { (writeCounts _ _ _ _).csi with running := some (r.after c) } = _
  simp

theorem counted_leaves : let t := counted r c n f s
    (t.rtu, t.xpe, t.tly, t.tke, t.pnc, t.runState, t.control) = (s.rtu, s.xpe, s.tly, s.tke, s.pnc, s.runState, s.control) := by
  simp [counted]

/-- An order's outcome and the strip's counts leave every byte but those of the outcome word and of the counts. -/
theorem counted_spares (ha : s.csi.copy = some a) {x : Nat} (ho : offOutcome (orderAddress r.slot r.next) x)
    (hh : x < slotAddress a r.slot.slot + 8 ∨ slotAddress a r.slot.slot + 12 ≤ x) : storeRead (counted r c n f s).store x = storeRead s.store x := by
  rw [counted_store, writeCounts_spares _ _ _ fun b hb => ?_, writeOutcome_spares ho]
  have hb : s.csi.copy = some b := by simpa using hb
  rw [ha] at hb
  cases hb
  exact hh

variable (hp : StripPlaced s a r.slot) (hr : r.next < r.slot.count)
include hp hr

theorem counted_at : outcomeAt (counted r c n f s).store (orderAddress r.slot r.next) c n f ∧
    storeRead16 (counted r c n f s).store (slotAddress a r.slot.slot + 8) = (r.processed + 1) % 65536 ∧
      storeRead16 (counted r c n f s).store (slotAddress a r.slot.slot + 10) = (r.refused + bit c.isRefusal) % 65536 := by
  obtain ⟨hwf, ha, hlist, hheader, hapart⟩ := hp
  have haddr : orderAddress r.slot r.next = r.slot.address + 32 * r.next := rfl
  have hwf1 := writeOutcome_wf (orderAddress r.slot r.next) c n f s hwf
  have ha1 : (writeOutcome (orderAddress r.slot r.next) c n f s).csi.copy = some a := by simpa using ha
  refine ⟨outcomeAt_congr (fun x hx hx' => ?_) (writeOutcome_at hwf (by omega) c n f), writeCounts_at hwf1 ha1 _ _ _ hheader⟩
  exact writeCounts_spares _ _ _ fun b hb => by
    rw [ha1] at hb
    cases hb
    omega

end

theorem endWith_csi (c : Code) (r : Running) (s : State) : (endWith c r s).csi = { s.csi with running := none, notice := s.csi.notice ||| 1 } := by
  rw [endWith, endStrip, slotDone_csi]
  simp

/-- A strip's early end leaves every byte but those of its later orders' outcome words and of its header's state. -/
theorem endWith_spares {c : Code} {r : Running} {s : State} {a : AnchorCopy} (ha : s.csi.copy = some a) {x : Nat} (hx : x ≠ slotAddress a r.slot.slot)
    (ho : ∀ j, r.next ≤ j → j < r.slot.count → offOutcome (orderAddress r.slot j) x) : storeRead (endWith c r s).store x = storeRead s.store x := by
  have hstate := writeSlotState_spares (s := { writeOutcomes r.slot c 0 s.rtu.frame r.next (r.slot.count - r.next) s with
      csi := { (writeOutcomes r.slot c 0 s.rtu.frame r.next (r.slot.count - r.next) s).csi with running := none } }) r.slot.slot 4 (y := x)
    fun b hb => by
      have hb : s.csi.copy = some b := by simpa using hb
      rw [ha] at hb
      cases hb
      exact hx
  exact hstate.trans (writeOutcomes_spares r.slot c 0 s.rtu.frame _ _ s fun j hj hj' => ho j hj (by omega))

/-- A strip's early end writes DONE into its header, and the outcome into its later orders. -/
theorem endWith_at {c : Code} {r : Running} {s : State} {a : AnchorCopy} (hp : StripPlaced s a r.slot) :
    storeRead (endWith c r s).store (slotAddress a r.slot.slot) = 4 ∧
      ∀ j, r.next ≤ j → j < r.slot.count → outcomeAt (endWith c r s).store (orderAddress r.slot j) c 0 s.rtu.frame := by
  obtain ⟨hwf, ha, hlist, hheader, hapart⟩ := hp
  have ha1 : (writeOutcomes r.slot c 0 s.rtu.frame r.next (r.slot.count - r.next) s).csi.copy = some a := by simpa using ha
  have hwf1 := writeOutcomes_wf r.slot c 0 s.rtu.frame (r.slot.count - r.next) r.next s hwf
  refine ⟨writeSlotState_at (s := { writeOutcomes r.slot c 0 s.rtu.frame r.next (r.slot.count - r.next) s with
      csi := { (writeOutcomes r.slot c 0 s.rtu.frame r.next (r.slot.count - r.next) s).csi with running := none } }) hwf1 ha1 _ 4 hheader,
    fun j hj hj' => ?_⟩
  have haddr : orderAddress r.slot j = r.slot.address + 32 * j := rfl
  refine outcomeAt_congr (fun x hx hx' => ?_) (writeOutcomes_at r.slot c 0 s.rtu.frame (r.slot.count - r.next) r.next s hwf hj (by omega) (by omega))
  exact writeSlotState_spares (s := { writeOutcomes r.slot c 0 s.rtu.frame r.next (r.slot.count - r.next) s with
      csi := { (writeOutcomes r.slot c 0 s.rtu.frame r.next (r.slot.count - r.next) s).csi with running := none } }) r.slot.slot 4 fun b hb => by
    have hb : some a = some b := ha1.symm.trans hb
    cases hb
    omega

/-- Settles O39: the outcome and the counts are written first, and an end writes the rest of the strip. -/
theorem orderOutcomeIsWritten : Obligations.OrderOutcomeIsWritten := by
  intro r c n f s a hwf ha o h hr hlist hheader hapart t k ends
  have hp : StripPlaced s a r.slot := ⟨hwf, ha, hlist, hheader, hapart⟩
  obtain ⟨hat, h8, h10⟩ := counted_at c n f hp hr
  have hk : k = r.refused + bit c.isRefusal := by
    simp only [k, bit]
    split <;> rfl
  have haddr : orderAddress r.slot r.next = o := rfl
  have hslot : slotAddress a r.slot.slot = h := rfl
  have hspare : ∀ x, offOutcome o x → (x < h + 8 ∨ h + 12 ≤ x) → storeRead (counted r c n f s).store x = storeRead s.store x :=
    fun x => counted_spares c n f ha
  have hp1 : StripPlaced (counted r c n f s) a (r.after c).slot := ⟨counted_wf c n f hwf, by rw [counted_csi]; exact ha, hlist, hheader, hapart⟩
  have hends : ends → t = endWith (if r.stop = true then .withdrawn else .skipped) (r.after c) (counted r c n f s) := finishOrder_ends n f s
  have hgoes : ¬ ends → t = counted r c n f s := finishOrder_goesOn n f s hr
  have hsame : ∀ x, (ends → x ≠ h ∧ ∀ i, r.next < i → i < r.slot.count → offOutcome (r.slot.address + 32 * i) x) →
      storeRead t.store x = storeRead (counted r c n f s).store x := fun x hx => by
    by_cases he : ends
    · obtain ⟨hxh, hxo⟩ := hx he
      rw [hends he]
      exact endWith_spares hp1.copy hxh fun j hj hj' => hxo j hj hj'
    · rw [hgoes he]
  have hlater : ∀ x, o ≤ x → x < o + 32 → ends → x ≠ h ∧ ∀ i, r.next < i → i < r.slot.count → offOutcome (r.slot.address + 32 * i) x :=
    fun x hx hx' _ => ⟨by omega, fun i hi hi' => offOutcome_outside (by omega)⟩
  have hcounts : ∀ x, h + 8 ≤ x → x < h + 12 → ends → x ≠ h ∧ ∀ i, r.next < i → i < r.slot.count → offOutcome (r.slot.address + 32 * i) x :=
    fun x hx hx' _ => ⟨by omega, fun i hi hi' => offOutcome_outside (by omega)⟩
  obtain ⟨hcode, hdetail, hframe⟩ := outcomeAt_congr (fun x hx hx' => hsame x (hlater x hx hx')) hat
  refine ⟨⟨hcode, hdetail, ?_, ?_, hframe, ?_, ?_⟩, by simp [t], fun he => ?_, fun x h18 h19 hf hc he => ?_, fun he => ⟨?_, ?_, fun i hi hi' => ?_⟩⟩
  · rw [hsame _ (hlater _ (by omega) (by omega)), hspare _ (by unfold offOutcome; omega) (by omega)]
  · rw [hsame _ (hlater _ (by omega) (by omega)), hspare _ (by unfold offOutcome; omega) (by omega)]
  · rw [storeRead16_congr (hsame _ (hcounts _ (by omega) (by omega))) (hsame _ (hcounts _ (by omega) (by omega)))]
    exact h8
  · rw [storeRead16_congr (hsame _ (hcounts _ (by omega) (by omega))) (hsame _ (hcounts _ (by omega) (by omega))), hk]
    exact h10
  · rw [hgoes he, counted_csi, hk]
    rfl
  · rw [hsame x he, hspare x ⟨h18, h19, hf⟩ hc]
  · rw [hends he, endWith_csi, counted_csi]
  · rw [hends he]
    exact (endWith_at hp1).1
  · rw [hends he]
    obtain ⟨hi18, -, -⟩ := (endWith_at (c := if r.stop = true then .withdrawn else .skipped) hp1).2 i hi hi'
    refine hi18.trans ?_
    split <;> rfl

/-! ### WITHDRAW -/

theorem withdrawSlot_queued {s : State} {slot : Fin 8} {p : Posted} (hp : p ∈ s.csi.posts) (hslot : p.slot = slot) :
    ∃ q ∈ s.csi.posts, q.slot = slot ∧ withdrawSlot slot s = withdrawQueued q s := by
  unfold withdrawSlot
  cases hfind : s.csi.posts.find? fun p => decide (p.slot = slot) with
  | none => exact absurd hslot (by simpa using List.find?_eq_none.mp hfind p hp)
  | some q => exact ⟨q, List.mem_of_find?_eq_some hfind, by simpa using List.find?_some hfind, rfl⟩

theorem withdrawSlot_absent {s : State} {slot : Fin 8} (h : ∀ p ∈ s.csi.posts, p.slot ≠ slot) : withdrawSlot slot s =
    match s.csi.running with
    | none => s
    | some r => if r.slot.slot = slot then stopStrip s else s := by
  have hfind : s.csi.posts.find? (fun p => decide (p.slot = slot)) = none := List.find?_eq_none.mpr fun p hp => by simpa using h p hp
  unfold withdrawSlot
  split
  · next p hp => exact absurd (hfind.symm.trans hp) (by simp)
  · rfl

theorem withdrawQueued_csi (q : Posted) (s : State) : (withdrawQueued q s).csi =
    { s.csi with posts := s.csi.posts.filter (fun p => decide (p.slot ≠ q.slot)), notice := s.csi.notice ||| 1 } := by
  rw [withdrawQueued, slotDone_csi]
  simp

theorem withdrawQueued_spares {q : Posted} {s : State} {x : Nat} (ho : ∀ i, i < q.count → offOutcome (orderAddress q i) x)
    (hh : ∀ a, s.csi.copy = some a → x ≠ slotAddress a q.slot ∧ (x < slotAddress a q.slot + 8 ∨ slotAddress a q.slot + 12 ≤ x)) :
    storeRead (withdrawQueued q s).store x = storeRead s.store x := by
  rw [withdrawQueued, slotEnds_spares q.slot 0 0 fun a ha => hh a (by simpa using ha)]
  exact writeOutcomes_spares q .withdrawn 0 s.rtu.frame _ _ _ fun j _ hj => ho j (by omega)

theorem withdrawQueued_at {q : Posted} {s : State} {a : AnchorCopy} (hp : StripPlaced s a q) :
    (∀ i, i < q.count → outcomeAt (withdrawQueued q s).store (orderAddress q i) .withdrawn 0 s.rtu.frame) ∧
      storeRead (withdrawQueued q s).store (slotAddress a q.slot) = 4 ∧ storeRead16 (withdrawQueued q s).store (slotAddress a q.slot + 8) = 0 ∧
      storeRead16 (withdrawQueued q s).store (slotAddress a q.slot + 10) = 0 := by
  obtain ⟨hwf, ha, hlist, hheader, hapart⟩ := hp
  have hwf1 := writeOutcomes_wf q .withdrawn 0 s.rtu.frame q.count 0
    { s with csi := { s.csi with posts := s.csi.posts.filter fun p => decide (p.slot ≠ q.slot) } } hwf
  refine ⟨fun i hi => ?_, slotEnds_at hwf1 (by simpa using ha) q.slot 0 0 hheader⟩
  have haddr : orderAddress q i = q.address + 32 * i := rfl
  refine outcomeAt_congr (fun x hx hx' => ?_) (writeOutcomes_at q .withdrawn 0 s.rtu.frame q.count 0
    { s with csi := { s.csi with posts := s.csi.posts.filter fun p => decide (p.slot ≠ q.slot) } } hwf (Nat.zero_le i) (by omega) (by omega))
  exact slotEnds_spares q.slot 0 0 fun b hb => by
    have hb : s.csi.copy = some b := by simpa using hb
    rw [ha] at hb
    cases hb
    omega

/-- Slots in the post queue are different, so a slot has one post. -/
theorem post_unique {s : State} (hs : s.postsSound) {p q : Posted} (hp : p ∈ s.csi.posts) (hq : q ∈ s.csi.posts) (h : p.slot = q.slot) : p = q :=
  List.inj_on_of_nodup_map hs.1 hp hq h

/-- Settles O28: a queued slot's strip is written off, and a running one is marked. -/
theorem withdrawBySlot : Obligations.WithdrawBySlot := by
  intro pre slot s hpre
  have hexec : exec (.withdraw pre slot) s = .next (withdrawSlot slot (s.withWrites pre)) := landed_inside hpre s _
  refine ⟨fun ⟨p, hp, hps⟩ => ?_, fun hn r hr hrs => ?_, fun hn hr => ?_⟩
  · obtain ⟨q, hq, rfl, hw⟩ := withdrawSlot_queued (s := s.withWrites pre) hp hps
    refine ⟨_, hexec.trans (Registers.next_congr hw), (withdrawQueued_csi q _).trans (by simp), by simp [withdrawQueued], by simp [withdrawQueued],
      by simp [withdrawQueued], by simp [withdrawQueued], by simp [withdrawQueued], by simp [withdrawQueued], by simp [withdrawQueued], fun x ho hh => ?_,
      fun p' c hp' hslot hs hc hwf => ?_⟩
    · exact withdrawQueued_spares (s := s.withWrites pre) (fun i hi => ho q hq rfl i hi) fun a ha => hh a ha
    · intro h hlist hheader hapart
      obtain rfl := post_unique hs hp' hq hslot
      exact withdrawQueued_at (s := s.withWrites pre) ⟨hostWrite_wf pre s.store hwf, hc, hlist, hheader, hapart⟩
  · refine hexec.trans (Registers.next_congr ((withdrawSlot_absent (s := s.withWrites pre) hn).trans ?_))
    rw [show (s.withWrites pre).csi.running = some r from hr]
    refine (if_pos hrs).trans ?_
    unfold stopStrip
    rw [show (s.withWrites pre).csi.running = some r from hr]
    rfl
  · refine hexec.trans (Registers.next_congr ((withdrawSlot_absent (s := s.withWrites pre) hn).trans ?_))
    cases hrun : s.csi.running with
    | none => rw [show (s.withWrites pre).csi.running = none from hrun]
    | some r =>
      rw [show (s.withWrites pre).csi.running = some r from hrun]
      exact if_neg (hr r hrun)

end Sys2Proof.Proofs.Strips
end

