-- ==== Sys2Proof/Proofs/JournalTwins.lean ====
section
/-! SUPPORT. Two stores that differ in a slot header alone take the same reports: the unread count is the same in both, in canonical form or not. -/

namespace Sys2Proof.Proofs.Twins

open Sys2Proof Sys2Proof.Machine
open Sys2Proof.Proofs.Strips Sys2Proof.Proofs.Orders

/-! ### Journals that run alike -/

/-- The writes that a report makes keep a relation of two stores, and the read index is the same in both. -/
structure RunsAlike (c : AnchorCopy) (R : Memory → Memory → Prop) : Prop where
  index : ∀ {m m'}, R m m' → storeRead m' (c.address + 0x1C) = storeRead m (c.address + 0x1C)
  record : ∀ {m m'} (w : Byte) (x : Report) (f : FrameIndex) (l : Label), R m m' →
    R (storeWrites m (c.journal + 16 * w.toNat) (x.record f l)) (storeWrites m' (c.journal + 16 * w.toNat) (x.record f l))
  write : ∀ {m m'} (b : Byte), R m m' → R (storeWrite m (c.address + 0x1E) b) (storeWrite m' (c.address + 0x1E) b)
  count : ∀ {m m'} (n : Nat), R m m' → R (storeWrites m (c.address + 0x20) (le16 n)) (storeWrites m' (c.address + 0x20) (le16 n))

/-- `t` is `s` with other posts and a related store. -/
structure Twin (c : AnchorCopy) (R : Memory → Memory → Prop) (posts : List Posted) (s t : State) : Prop where
  copy : s.csi.copy = some c
  csi : t.csi = { s.csi with posts := posts }
  store : R s.store t.store

section
variable {c : AnchorCopy} {R : Memory → Memory → Prop} {posts : List Posted} {s t : State} (hR : RunsAlike c R)
include hR

theorem unread_twin (h : Twin c R posts s t) : unread c t = unread c s := by
  rw [unread, unread, readIndex, readIndex, h.csi, hR.index h.store]

theorem putRecord_twin (h : Twin c R posts s t) (x : Report) (f : FrameIndex) (l : Label) :
    Twin c R posts (putRecord c (x.record f l) s) (putRecord c (x.record f l) t) := by
  obtain ⟨hcopy, hcsi, hstore⟩ := h
  have hw : t.csi.writeIndex = s.csi.writeIndex := by rw [hcsi]
  have hput := hR.write (s.csi.writeIndex + 1) (hR.record s.csi.writeIndex x f l hstore)
  have hnew : Twin c R posts
      { s with
        store := storeWrite (storeWrites s.store (c.journal + 16 * s.csi.writeIndex.toNat) (x.record f l)) (c.address + 0x1E) (s.csi.writeIndex + 1)
        csi := { s.csi with writeIndex := s.csi.writeIndex + 1 } }
      { t with
        store := storeWrite (storeWrites t.store (c.journal + 16 * s.csi.writeIndex.toNat) (x.record f l)) (c.address + 0x1E) (s.csi.writeIndex + 1)
        csi := { t.csi with writeIndex := s.csi.writeIndex + 1 } } := ⟨hcopy, by rw [hcsi], hput⟩
  unfold putRecord
  rw [hw]
  dsimp only
  rw [unread_twin hR hnew]
  split
  · exact ⟨hcopy, by simp only [raise, hcsi], hput⟩
  · exact hnew

theorem setGap_twin (h : Twin c R posts s t) (n : Nat) (sat : Bool) : Twin c R posts (setGap c n sat s) (setGap c n sat t) :=
  ⟨h.copy, by simp only [setGap, h.csi], hR.count n h.store⟩

theorem report_twin (h : Twin c R posts s t) (x : Report) (f : FrameIndex) (l : Label) : Twin c R posts (report x f l s) (report x f l t) := by
  have hcopy : t.csi.copy = some c := by rw [h.csi]; exact h.copy
  have hgap : t.csi.gap = s.csi.gap := by rw [h.csi]
  have hsat : t.csi.saturated = s.csi.saturated := by rw [h.csi]
  unfold report
  rw [hcopy, h.copy]
  dsimp only
  rw [hgap, hsat, unread_twin hR h]
  split
  · exact putRecord_twin hR h x f l
  · split
    · exact putRecord_twin hR (setGap_twin hR (putRecord_twin hR h _ f l) 0 false) x f l
    · split
      · exact setGap_twin hR h _ _
      · exact setGap_twin hR h _ _

theorem tellOwners_twin (what : TakeOutcome) (f : FrameIndex) (l : Label) (out : List (Owner × Crosspoint)) (h : Twin c R posts s t) :
    Twin c R posts (tellOwners what f l out s) (tellOwners what f l out t) := by
  induction out generalizing s t with
  | nil => exact h
  | cons e es ih =>
    rw [tellOwners_cons what f l e es s, tellOwners_cons what f l e es t]
    refine ih ?_
    obtain ⟨o, x⟩ := e
    cases o with
    | panel p => exact h
    | app tag => exact report_twin hR h _ f l

end

/-! ### Stores in canonical form that agree outside a run of bytes -/

/-- Both stores are in canonical form, and they agree outside the `n` bytes from `h` upwards. -/
def AgreeOff (h n : Nat) (m m' : Memory) : Prop :=
  m.wf = true ∧ m'.wf = true ∧ ∀ x, (x < h ∨ h + n ≤ x) → storeRead m' x = storeRead m x

theorem storeWrite_agree {h n : Nat} {m m' : Memory} (a : Nat) (b : Byte) (hm : AgreeOff h n m m') :
    AgreeOff h n (storeWrite m a b) (storeWrite m' a b) := by
  obtain ⟨hwf, hwf', hsame⟩ := hm
  refine ⟨storeWrite_wf a b hwf, storeWrite_wf a b hwf', fun x hx => ?_⟩
  by_cases ha : a < storeSize
  · rw [storeRead_write a x b hwf ha, storeRead_write a x b hwf' ha, hsame x hx]
  · rw [storeWrite, if_neg ha, storeWrite, if_neg ha, hsame x hx]

theorem storeWrites_agree {h n : Nat} : ∀ (bs : List Byte) {m m' : Memory} (a : Nat), AgreeOff h n m m' →
    AgreeOff h n (storeWrites m a bs) (storeWrites m' a bs)
  | [], _, _, _, hm => hm
  | b :: bs, _, _, a, hm => storeWrites_agree bs (a + 1) (storeWrite_agree a b hm)

theorem agreeOff_runsAlike {c : AnchorCopy} {h n : Nat} (hh : c.address + 0x1C < h) : RunsAlike c (AgreeOff h n) where
  index hm := hm.2.2 _ (Or.inl hh)
  record _ _ _ _ hm := storeWrites_agree _ _ hm
  write b hm := storeWrite_agree _ b hm
  count _ hm := storeWrites_agree _ _ hm

/-! ### Stores in any form that agree below a bound

A store's list may have any order.  A write below `B` goes no further than the first entry at or above `B`, so what stands behind that entry stays as it is as
long as the entry does; and a record that lies at or above `B` begins with a byte that is not blank, so it never uncovers what stands behind. -/

/-- A list whose first entry, if any, is at or above `B`. -/
def Sealed (B : Nat) : Memory → Prop
  | [] => True
  | c :: _ => B ≤ c.1

/-- A list whose first entry lies in `B..a`. -/
def Capped (B a : Nat) : Memory → Prop
  | [] => False
  | c :: _ => B ≤ c.1 ∧ c.1 ≤ a

theorem Capped.sealed {B a : Nat} {m : Memory} (h : Capped B a m) : Sealed B m := by
  cases m with
  | nil => exact h.elim
  | cons c m => exact h.1

theorem storeInsert_low {B a : Nat} (b : Byte) (ha : a < B) {m : Memory} (hm : Sealed B m) : ∀ p : Memory,
    storeInsert (p ++ m) a b = storeInsert p a b ++ m
  | [] => by
    cases m with
    | nil => simp
    | cons c m =>
      have hc : a < c.1 := Nat.lt_of_lt_of_le ha hm
      simp only [List.nil_append, storeInsert, if_pos hc]
      split <;> rfl
  | c :: p => by
    simp only [List.cons_append, storeInsert]
    split
    · split <;> rfl
    · split
      · split <;> rfl
      · rw [storeInsert_low b ha hm p, List.cons_append]

theorem storeInsert_below {B a : Nat} (b : Byte) (ha : a < B) : ∀ {p : Memory}, (∀ c ∈ p, c.1 < B) → ∀ c ∈ storeInsert p a b, c.1 < B
  | [], _ => by
    unfold storeInsert
    split <;> simp [ha]
  | d :: p, hp => by
    obtain ⟨hd, hp⟩ := List.forall_mem_cons.mp hp
    unfold storeInsert
    split
    · split
      · exact List.forall_mem_cons.mpr ⟨hd, hp⟩
      · exact List.forall_mem_cons.mpr ⟨ha, List.forall_mem_cons.mpr ⟨hd, hp⟩⟩
    · split
      · split
        · exact hp
        · exact List.forall_mem_cons.mpr ⟨ha, hp⟩
      · exact List.forall_mem_cons.mpr ⟨hd, storeInsert_below b ha hp⟩

theorem storeInsert_high {B a : Nat} (b : Byte) (ha : B ≤ a) (m : Memory) : ∀ {p : Memory}, (∀ c ∈ p, c.1 < B) →
    storeInsert (p ++ m) a b = p ++ storeInsert m a b
  | [], _ => rfl
  | d :: p, hp => by
    obtain ⟨hd, hp⟩ := List.forall_mem_cons.mp hp
    rw [List.cons_append, storeInsert, if_neg (by omega), if_neg (by omega), storeInsert_high b ha m hp, List.cons_append]

theorem storeInsert_caps {B a : Nat} {b : Byte} (hb : b ≠ Config.blankByte) (ha : B ≤ a) {m : Memory} (hm : Sealed B m) :
    Capped B a (storeInsert m a b) := by
  cases m with
  | nil =>
    rw [storeInsert, if_neg hb]
    exact ⟨ha, Nat.le_refl a⟩
  | cons c m =>
    unfold storeInsert
    rw [if_neg hb, if_neg hb]
    split
    · exact ⟨ha, Nat.le_refl a⟩
    · split
      · exact ⟨ha, Nat.le_refl a⟩
      · next hlt _ => exact ⟨hm, Nat.not_lt.mp hlt⟩

theorem storeInsert_capped {B a x : Nat} (b : Byte) (hx : a < x) {m : Memory} (hm : Capped B a m) : Capped B a (storeInsert m x b) := by
  cases m with
  | nil => exact hm.elim
  | cons c m =>
    have hc : c.1 ≤ a := hm.2
    rw [storeInsert, if_neg (by omega), if_neg (by omega)]
    exact hm

theorem storeWrites_capped {B a : Nat} : ∀ (bs : List Byte) (x : Nat) {m : Memory}, a < x → Capped B a m → Capped B a (storeWrites m x bs)
  | [], _, _, _, hm => hm
  | b :: bs, x, m, hx, hm => by
    refine storeWrites_capped bs (x + 1) (by omega) ?_
    unfold storeWrite
    split
    · exact storeInsert_capped b hx hm
    · exact hm

/-- The two lists are one list of entries below `B`, and behind it two that a write below `B` does not enter, and in which `r` reads alike. -/
def AlikeBelow (B r : Nat) (m m' : Memory) : Prop :=
  ∃ p q q', m = p ++ q ∧ m' = p ++ q' ∧ (∀ c ∈ p, c.1 < B) ∧ Sealed B q ∧ Sealed B q' ∧ storeRead q' r = storeRead q r

theorem storeRead_append {m m' : Memory} {r : Nat} (h : storeRead m' r = storeRead m r) : ∀ p : Memory,
    storeRead (p ++ m') r = storeRead (p ++ m) r
  | [] => h
  | c :: p => by rw [List.cons_append, List.cons_append, storeRead, storeRead, storeRead_append h p]

theorem alikeBelow_read {B r : Nat} {m m' : Memory} (h : AlikeBelow B r m m') : storeRead m' r = storeRead m r := by
  obtain ⟨p, q, q', rfl, rfl, -, -, -, hr⟩ := h
  exact storeRead_append hr p

theorem storeWrite_alike_low {B r a : Nat} {m m' : Memory} (b : Byte) (ha : a < B) (h : AlikeBelow B r m m') :
    AlikeBelow B r (storeWrite m a b) (storeWrite m' a b) := by
  obtain ⟨p, q, q', rfl, rfl, hp, hq, hq', hr⟩ := h
  unfold storeWrite
  split
  · exact ⟨storeInsert p a b, q, q', storeInsert_low b ha hq p, storeInsert_low b ha hq' p, storeInsert_below b ha hp, hq, hq', hr⟩
  · exact ⟨p, q, q', rfl, rfl, hp, hq, hq', hr⟩

theorem storeWrites_alike_low {B r : Nat} : ∀ (bs : List Byte) (a : Nat) {m m' : Memory}, a + bs.length ≤ B → AlikeBelow B r m m' →
    AlikeBelow B r (storeWrites m a bs) (storeWrites m' a bs)
  | [], _, _, _, _, h => h
  | b :: bs, a, _, _, ha, h => by
    rw [List.length_cons] at ha
    exact storeWrites_alike_low bs (a + 1) (by omega) (storeWrite_alike_low b (by omega) h)

theorem storeWrites_high {B : Nat} : ∀ (bs : List Byte) (a : Nat) (m : Memory) {p : Memory}, B ≤ a → (∀ c ∈ p, c.1 < B) →
    storeWrites (p ++ m) a bs = p ++ storeWrites m a bs
  | [], _, _, _, _, _ => rfl
  | b :: bs, a, m, p, ha, hp => by
    have hone : storeWrite (p ++ m) a b = p ++ storeWrite m a b := by
      unfold storeWrite
      split
      · exact storeInsert_high b ha m hp
      · rfl
    rw [storeWrites, storeWrites, hone]
    exact storeWrites_high bs (a + 1) _ (by omega) hp

theorem storeWrites_beyond (m : Memory) : ∀ (bs : List Byte) (a : Nat), storeSize ≤ a → storeWrites m a bs = m
  | [], _, _ => rfl
  | b :: bs, a, ha => by
    rw [storeWrites, storeWrite, if_neg (by omega)]
    exact storeWrites_beyond m bs (a + 1) (by omega)

/-- A run of writes at or above the bound that begins with a byte that is not blank leaves the list sealed, and so does a run behind it. -/
theorem storeWrites_sealed {B a a' : Nat} {b : Byte} (hb : b ≠ Config.blankByte) (bs bs' : List Byte) (ha : B ≤ a) (ha' : a < a') {m : Memory}
    (hm : Sealed B m) : Sealed B (storeWrites (storeWrites m a (b :: bs)) a' bs') := by
  by_cases hs : a < storeSize
  · rw [storeWrites, storeWrite, if_pos hs]
    exact (storeWrites_capped bs' a' ha' (storeWrites_capped bs (a + 1) (by omega) (storeInsert_caps hb ha hm))).sealed
  · rwa [storeWrites_beyond m _ a (by omega), storeWrites_beyond m _ a' (by omega)]

theorem storeWrites_alike_high {B r a : Nat} {b : Byte} (hb : b ≠ Config.blankByte) (bs : List Byte) (ha : B ≤ a) (hr : r < B) {m m' : Memory}
    (h : AlikeBelow B r m m') : AlikeBelow B r (storeWrites m a (b :: bs)) (storeWrites m' a (b :: bs)) := by
  obtain ⟨p, q, q', rfl, rfl, hp, hq, hq', hread⟩ := h
  refine ⟨p, _, _, storeWrites_high _ a q ha hp, storeWrites_high _ a q' ha hp, hp,
    storeWrites_sealed hb bs [] ha (Nat.lt_succ_self a) hq, storeWrites_sealed hb bs [] ha (Nat.lt_succ_self a) hq', ?_⟩
  rw [storeRead_writes_away _ _ _ (Or.inl (by omega)), storeRead_writes_away _ _ _ (Or.inl (by omega)), hread]

theorem record_kind (x : Report) (f : FrameIndex) (l : Label) : ∃ b bs, x.record f l = b :: bs ∧ b ≠ Config.blankByte := by
  refine ⟨x.fields.1, _, rfl, ?_⟩
  cases x <;> simp [Report.fields, Config.blankByte]

/-- A bound that no record straddles: it lies between the anchor block's own words and its slot headers, at a record's place. -/
theorem record_bound (c : AnchorCopy) : ∃ B, c.address + 0x22 ≤ B ∧ B ≤ c.address + 0x40 ∧
    ∀ w : Byte, c.journal + 16 * w.toNat + 16 ≤ B ∨ B ≤ c.journal + 16 * w.toNat := by
  refine ⟨c.address + 0x22 + (c.journal + 16 * (c.address + 0x22) - (c.address + 0x22)) % 16, by omega, by omega, fun w => ?_⟩
  omega

theorem alikeBelow_runsAlike {c : AnchorCopy} {B : Nat} (hlow : c.address + 0x22 ≤ B)
    (hplace : ∀ w : Byte, c.journal + 16 * w.toNat + 16 ≤ B ∨ B ≤ c.journal + 16 * w.toNat) : RunsAlike c (AlikeBelow B (c.address + 0x1C)) where
  index := alikeBelow_read
  record w x f l hm := by
    rcases hplace w with hw | hw
    · exact storeWrites_alike_low _ _ (by rw [Journal.record_length]; exact hw) hm
    · obtain ⟨b, bs, hrec, hb⟩ := record_kind x f l
      rw [hrec]
      exact storeWrites_alike_high hb bs hw (by omega) hm
  write b hm := storeWrite_alike_low b (by omega) hm
  count n hm := storeWrites_alike_low _ _ (by show _ + 2 ≤ B; omega) hm

/-- Writes above the bound, of which the first is of a byte that is not blank, give a store that is alike below it. -/
theorem storeWrites_alikeBelow {B r a a' : Nat} {b : Byte} (hb : b ≠ Config.blankByte) (bs bs' : List Byte) (ha : B ≤ a) (ha' : a < a') (hr : r < B)
    (m : Memory) : AlikeBelow B r m (storeWrites (storeWrites m a (b :: bs)) a' bs') := by
  have hsplit : ∀ m : Memory, ∃ p q, m = p ++ q ∧ (∀ c ∈ p, c.1 < B) ∧ Sealed B q := by
    intro m
    induction m with
    | nil => exact ⟨[], [], rfl, by simp, trivial⟩
    | cons c m ih =>
      by_cases hc : c.1 < B
      · obtain ⟨p, q, rfl, hp, hq⟩ := ih
        exact ⟨c :: p, q, rfl, List.forall_mem_cons.mpr ⟨hc, hp⟩, hq⟩
      · exact ⟨[], c :: m, rfl, by simp, Nat.not_lt.mp hc⟩
  obtain ⟨p, q, rfl, hp, hq⟩ := hsplit m
  refine ⟨p, q, storeWrites (storeWrites q a (b :: bs)) a' bs', rfl, ?_, hp, hq, storeWrites_sealed hb bs bs' ha ha' hq, ?_⟩
  · rw [storeWrites_high _ a q ha hp, storeWrites_high _ a' _ (by omega) hp]
  · rw [storeRead_writes_away _ _ _ (Or.inl (by omega)), storeRead_writes_away _ _ _ (Or.inl (by omega))]

end Sys2Proof.Proofs.Twins
end

