-- ==== Sys2Proof/Proofs/SalvoStrips.lean ====
section
/-! A SALVO strip: its checks, its one decision and its end (R49, R156). -/

namespace Sys2Proof.Proofs.Strips

open Sys2Proof Sys2Proof.Machine
open Sys2Proof.Proofs.Journal Sys2Proof.Proofs.Orders Sys2Proof.Proofs.Twins

/-! ### The strip begins -/

/-- The state in which the head slot's header is RUNNING with counts 0 and the slot has left the post queue. -/
def begun (p : Posted) (rest : List Posted) (s : State) : State :=
  writeCounts p.slot 0 0 (writeSlotState p.slot 3 { s with csi := { s.csi with posts := rest } })

section
variable {s : State} {p : Posted} {rest : List Posted} {c : AnchorCopy}

theorem begun_csi : (begun p rest s).csi = { s.csi with posts := rest } := by simp [begun]

theorem begun_leaves : let t := begun p rest s
    (t.control, t.runState, t.rtu, t.xpe, t.tly, t.tke, t.pnc) = (s.control, s.runState, s.rtu, s.xpe, s.tly, s.tke, s.pnc) := by simp [begun]

theorem begun_store (hc : s.csi.copy = some c) : (begun p rest s).store =
    storeWrites (storeWrites s.store (slotAddress c p.slot) [3]) (slotAddress c p.slot + 8) [0, 0, 0, 0] := by
  have hc1 : (writeSlotState p.slot 3 { s with csi := { s.csi with posts := rest } }).csi.copy = some c := by simpa using hc
  rw [begun, writeCounts_store hc1, writeSlotState_store (s := { s with csi := { s.csi with posts := rest } }) hc]
  rfl

theorem startStrip_salvo (hposts : s.csi.posts = p :: rest) (hrun : s.csi.running = none) (hs : s.runState = .sweep ∨ s.runState = .running)
    (hp : p.salvo = true) : startStrip s = runSalvoStrip p (begun p rest s) := by
  unfold startStrip
  rw [hposts]
  dsimp only
  rw [if_pos ⟨hrun, (serving_iff s).mpr hs⟩, if_pos hp]
  rfl

/-- What reports after a strip's beginning do, they do as if it had not begun, but for the posts and the header. -/
theorem begun_told (hc : s.csi.copy = some c) (what : TakeOutcome) (f : FrameIndex) (l : Label) (out : List (Owner × Crosspoint)) :
    (tellOwners what f l out (begun p rest s)).csi = { (tellOwners what f l out s).csi with posts := rest } ∧
      (s.store.wf = true → AgreeOff (slotAddress c p.slot) 16 (tellOwners what f l out s).store (tellOwners what f l out (begun p rest s)).store) := by
  have hslot : slotAddress c p.slot = c.address + 0x40 + 16 * p.slot.1 := rfl
  constructor
  · obtain ⟨B, hlow, hhigh, hplace⟩ := record_bound c
    have htwin : Twin c (AlikeBelow B (c.address + 0x1C)) rest s (begun p rest s) := by
      refine ⟨hc, begun_csi, ?_⟩
      rw [begun_store hc]
      exact storeWrites_alikeBelow (b := 3) (by decide) [] [0, 0, 0, 0] (by omega) (by omega) (by omega) s.store
    exact (tellOwners_twin (alikeBelow_runsAlike hlow hplace) what f l out htwin).csi
  · intro hwf
    have htwin : Twin c (AgreeOff (slotAddress c p.slot) 16) rest s (begun p rest s) := by
      refine ⟨hc, begun_csi, hwf, writeCounts_wf _ _ _ _ (writeSlotState_wf _ _ _ hwf), fun x hx => ?_⟩
      rw [begun_store hc, storeRead_writes_away _ _ _ (by show x < _ ∨ _ + 8 + 4 ≤ x; omega),
        storeRead_writes_away _ _ _ (by show x < _ ∨ _ + 1 ≤ x; omega)]
    exact (tellOwners_twin (agreeOff_runsAlike (by omega)) what f l out htwin).store

end

/-! ### The strip ends -/

/-- The end of a SALVO strip with one outcome for every order. -/
def salvoEnds (p : Posted) (c : Code) (n : Nat) (f : FrameIndex) (v : State) : State :=
  slotDone p.slot (writeCounts p.slot p.count (if c.isRefusal then p.count else 0) (writeOutcomes p c n f 0 p.count v))

theorem salvoEnds_leaves {p : Posted} {c : Code} {n : Nat} {f : FrameIndex} {v : State} : let t := salvoEnds p c n f v
    t.xpe = v.xpe ∧ t.pnc = v.pnc ∧ t.tly = v.tly ∧ t.tke = v.tke := by simp [salvoEnds]

theorem runSalvoStrip_eq {p : Posted} {s v : State} {c : Code} {n : Nat} (h : salvoStrip (stripRecords s.store p) s = (v, c, n)) :
    runSalvoStrip p s = salvoEnds p c n s.rtu.frame v := by
  unfold runSalvoStrip
  rw [h]
  rfl

/-- How a SALVO strip that began in `s` has ended in `t`, with the reports that lead from `s` to `told` (R156, R157). -/
def SalvoEnded (s : State) (p : Posted) (rest : List Posted) (c : AnchorCopy) (t told : State) (code : Byte) (detail refusals : Nat) : Prop :=
  let h := c.address + 0x40 + 16 * p.slot.1
  let placed := s.store.wf = true ∧ p.address + 32 * p.count ≤ 4194304 ∧ h + 16 ≤ 4194304 ∧
    (p.address + 32 * p.count ≤ h ∨ h + 16 ≤ p.address)
  t.csi = { told.csi with posts := rest, notice := told.csi.notice ||| 1 } ∧ t.rtu = s.rtu ∧ t.tly = s.tly ∧ t.tke = s.tke ∧
    t.runState = s.runState ∧ t.control = s.control ∧
    (placed → (∀ i, i < p.count → let o := p.address + 32 * i
        storeRead t.store (o + 0x18) = code ∧ storeRead t.store (o + 0x19) = num8 detail ∧
        ∀ j : Fin 4, storeRead t.store (o + 0x1C + j.1) = s.rtu.frame.extractLsb' (8 * j.1) 8) ∧
      storeRead t.store h = 4 ∧ storeRead16 t.store (h + 8) = p.count % 65536 ∧ storeRead16 t.store (h + 10) = refusals % 65536 ∧
      ∀ x, (x < h ∨ h + 16 ≤ x) → (x < p.address ∨ p.address + 32 * p.count ≤ x) → storeRead t.store x = storeRead told.store x)

theorem salvoEnds_ended {s v told : State} {p : Posted} {rest : List Posted} {a : AnchorCopy} {c : Code} {n : Nat} (hcopy : v.csi.copy = some a)
    (hcsi : v.csi = { told.csi with posts := rest })
    (hv : (v.rtu, v.tly, v.tke, v.runState, v.control) = (s.rtu, s.tly, s.tke, s.runState, s.control))
    (hagree : s.store.wf = true → AgreeOff (slotAddress a p.slot) 16 told.store v.store) :
    SalvoEnded s p rest a (salvoEnds p c n s.rtu.frame v) told c.byte n (if c.isRefusal then p.count else 0) := by
  simp only [Prod.mk.injEq] at hv
  obtain ⟨hrtu, htly, htke, hrun, hcontrol⟩ := hv
  refine ⟨?_, by simp [salvoEnds, hrtu], by simp [salvoEnds, htly], by simp [salvoEnds, htke], by simp [salvoEnds, hrun], by simp [salvoEnds, hcontrol], ?_⟩
  · rw [salvoEnds, slotDone_csi]
    simp only [writeCounts_frame, writeOutcomes_frame, hcsi]
  · rintro ⟨hwf, hlist, hheader, hapart⟩
    have hslot : slotAddress a p.slot = a.address + 0x40 + 16 * p.slot.1 := rfl
    obtain ⟨-, hwfv, hsame⟩ := hagree hwf
    have hwfo := writeOutcomes_wf p c n s.rtu.frame p.count 0 v hwfv
    have hcopyo : (writeOutcomes p c n s.rtu.frame 0 p.count v).csi.copy = some a := by simpa using hcopy
    have hspare : ∀ x, (x < slotAddress a p.slot ∨ slotAddress a p.slot + 16 ≤ x) →
        storeRead (salvoEnds p c n s.rtu.frame v).store x = storeRead (writeOutcomes p c n s.rtu.frame 0 p.count v).store x := fun x hx =>
      slotEnds_spares _ _ _ fun b hb => by
        have hb : some a = some b := hcopyo.symm.trans hb
        cases hb
        omega
    obtain ⟨hstate, h8, h10⟩ := slotEnds_at hwfo hcopyo p.slot p.count (if c.isRefusal then p.count else 0) hheader
    refine ⟨fun i hi => ?_, hstate, h8, h10, fun x hx hx' => ?_⟩
    · have haddr : orderAddress p i = p.address + 32 * i := rfl
      exact outcomeAt_congr (fun x hlo hhi => hspare x (by omega))
        (writeOutcomes_at p c n s.rtu.frame p.count 0 v hwfv (Nat.zero_le i) (by omega) (by omega))
    · rw [hspare x hx, writeOutcomes_spares p c n s.rtu.frame p.count 0 v fun j _ hj => offOutcome_outside (by simp only [orderAddress]; omega),
        hsame x hx]

/-! ### The strip's decision -/

/-- The records agree in what `f` reads just where each agrees with the first. -/
theorem agree_iff {α : Type} [DecidableEq α] (f : OrderRecord → α) {rs : List OrderRecord} {first : OrderRecord} (h : rs.head? = some first) :
    agree f rs = true ↔ ∀ r ∈ rs, f r = f first := by
  cases rs with
  | nil => cases h
  | cons r rs =>
    cases h
    simp [agree]

section
variable {rs : List OrderRecord} {first : OrderRecord} (hfirst : rs.head? = some first)
include hfirst

theorem salvoStripSound_iff : salvoStripSound rs = true ↔
    (∀ r ∈ rs, ob r 0 = 7 ∧ ob r 1 = ob first 1 ∧ ob r 2 = ob first 2) ∧ rs.length ≤ 48 := by
  have hkind : (rs.all fun r => decide (orderKind r = 7)) = true ↔ ∀ r ∈ rs, ob r 0 = 7 :=
    List.all_eq_true.trans (forall₂_congr fun r _ => decide_eq_true_iff)
  simp only [salvoStripSound, Bool.and_eq_true, hkind, decide_eq_true_eq, agree_iff _ hfirst, Prod.mk.injEq]
  exact and_congr_left fun _ => ⟨fun h r hr => ⟨h.1 r hr, h.2 r hr⟩, fun h => ⟨fun r hr => (h r hr).1, fun r hr => (h r hr).2⟩⟩

theorem dueBytes_agree : agree dueBytes rs = true ↔ ∀ r ∈ rs, ob r 7 = ob first 7 ∧ (ob r 7 = 0 ∨ ob32 r 8 = ob32 first 8) := by
  rw [agree_iff _ hfirst]
  refine forall₂_congr fun r _ => ?_
  simp only [dueBytes, Prod.mk.injEq]
  refine and_congr_right fun h7 => ?_
  rw [← h7]
  split <;> simp_all

theorem headD_first : rs.headD [] = first := by
  cases rs with
  | nil => cases hfirst
  | cons r rs => cases hfirst; rfl

variable (s : State)

theorem salvoStrip_unsound (h : ¬ ((∀ r ∈ rs, ob r 0 = 7 ∧ ob r 1 = ob first 1 ∧ ob r 2 = ob first 2) ∧ rs.length ≤ 48)) :
    salvoStrip rs s = (s, .refusedSalvo, 0) := if_neg fun hs => h ((salvoStripSound_iff hfirst).mp hs)

variable (hsound : (∀ r ∈ rs, ob r 0 = 7 ∧ ob r 1 = ob first 1 ∧ ob r 2 = ob first 2) ∧ rs.length ≤ 48)
include hsound

theorem salvoStrip_nobody (hq : orderRequester first = none) : salvoStrip rs s = (s, .refusedArg, 0) := by
  unfold salvoStrip
  rw [if_pos ((salvoStripSound_iff hfirst).mpr hsound), headD_first hfirst, hq]

theorem salvoStrip_decided {q : Requester} (hq : orderRequester first = some q) : salvoStrip rs s = decideStrip rs q s := by
  unfold salvoStrip
  rw [if_pos ((salvoStripSound_iff hfirst).mpr hsound), headD_first hfirst, hq]

end

theorem orderRequester_given {rec : OrderRecord} {tag : Fin 16} {level : Fin 4} (h1 : ob rec 1 = tag.1) (h2 : ob rec 2 = level.1) :
    orderRequester rec = some ⟨.app tag, level⟩ := by
  unfold orderRequester
  rw [finOf_eq tag h1, finOf_eq level h2]

/-- What the guards come to depends on the panels before, and on the panels and the blocks whose lamps they show after. -/
theorem guardsAfter_congr {s s' t t' : State} {owner : Owner} {named : Fin 64 → Prop} (hs : s'.pnc = s.pnc)
    (ht : (t'.pnc, t'.xpe, t'.tly, t'.tke) = (t.pnc, t.xpe, t.tly, t.tke)) (h : s.guardsAfter t owner named) : s'.guardsAfter t' owner named := by
  simp only [Prod.mk.injEq] at ht
  obtain ⟨hpnc, hxpe, htly, htke⟩ := ht
  intro o
  have hpanel : s'.panel o = s.panel o := by rw [State.panel, State.panel, hs]
  have hpanel' : t'.panel o = t.panel o := by rw [State.panel, State.panel, hpnc]
  have hlamp : ∀ k, t'.lampOf o k = t.lampOf o k := lampOf_congr (by rw [hpanel']) hxpe htly htke
  simp only [hpanel, hpanel', hlamp]
  exact h o

/-- A strip's decision on takes that are no salvo, or whose due forms differ. -/
theorem decideStrip_refused {rs : List OrderRecord} {q : Requester} {s : State} (h : ¬ s.isSalvo (rs.map orderTakeOf) ∨ agree dueBytes rs = false) :
    decideStrip rs q s = (s, .refusedSalvo, 0) := by
  unfold decideStrip
  by_cases hs : s.isSalvo (rs.map orderTakeOf)
  · rw [(salvoEntries_terms s _).1 hs, h.resolve_left (not_not.mpr hs)]
    rfl
  · rw [(salvoEntries_terms s _).2 hs]

/-- A strip's decision on a salvo whose due forms agree. -/
theorem decideStrip_salvo {rs : List OrderRecord} {first : OrderRecord} {q : Requester} {s : State} (hfirst : rs.head? = some first)
    (hs : s.isSalvo (rs.map orderTakeOf)) (ha : agree dueBytes rs = true) :
    decideStrip rs q s = match dueFrame s.rtu.rate s.rtu.frame s.rtu.label (dueFormOf first) with
      | .error e => (s, e, 0)
      | .ok due => decideSalvo (s.salvoTakes (rs.map orderTakeOf)) due q .salvo none s := by
  unfold decideStrip
  rw [(salvoEntries_terms s _).1 hs]
  dsimp only
  rw [if_pos ha, headD_first hfirst] <;> cases dueFrame s.rtu.rate s.rtu.frame s.rtu.label (dueFormOf first) <;> rfl

/-! ### A salvo against protects and the queue (R48) -/

section
variable {s : State} {es : List Crosspoint} {due : Option FrameIndex} {q : Requester} {c : Cause} {n : Option (Fin 16)}

theorem allLet_iff : (es.all fun x => protectAllows (s.dest x.dest).protect q.owner q.level) = true ↔ ∀ x ∈ es, s.lets x.dest q := by
  simp only [List.all_eq_true, lets_iff]

theorem decideSalvo_barred (h : ¬ ∀ x ∈ es, s.lets x.dest q) : decideSalvo es due q c n s = (s, .refusedProtected, 0) :=
  if_neg fun ha => h (allLet_iff.mp ha)

variable (hl : ∀ x ∈ es, s.lets x.dest q)
include hl

theorem decideSalvo_full (hf : 64 < entriesIn (s.queueWith { due := due, requester := q, cause := c, salvo := n, entries := es })) :
    decideSalvo es due q c n s = (s, .refusedFull, 0) := by
  refine (if_pos (allLet_iff.mpr hl)).trans ?_
  rw [admitUnit_full hf]
  rfl

theorem decideSalvo_admitted (hf : entriesIn (s.queueWith { due := due, requester := q, cause := c, salvo := n, entries := es }) ≤ 64) :
    decideSalvo es due q c n s =
      ((admitUnit { due := due, requester := q, cause := c, salvo := n, entries := es } s).1, .queued, es.length) := by
  refine (if_pos (allLet_iff.mpr hl)).trans ?_
  rw [withCount, admitUnit_queued hf, if_pos rfl]

end

theorem dueRefused_isRefusal {s : State} {rec : OrderRecord} {e : Code} (h : s.dueRefused rec e) : e.isRefusal = true := by
  rcases h with ⟨-, rfl⟩ | ⟨-, -, rfl⟩ | ⟨-, -, rfl⟩ | ⟨-, -, -, rfl⟩ | ⟨-, -, -, n, -, -, rfl⟩ <;> rfl

/-- The reports SUPERSEDED, told by the owners. -/
theorem tellSuperseded_owners (s : State) (es : List Crosspoint) : s.tellSuperseded es =
    tellOwners .superseded s.rtu.frame s.rtu.label ((supersededBy s.xpe.queue es).map fun e => (e.1.requester.owner, e.2)) s := by
  rw [tellSuperseded_eq, tellOwners_eq]

/-- Settles O37: the CSI's checks, the takes', the due form's, protection's and the queue's, and then one end for all. -/
theorem salvoStripQueuesOneUnit : Obligations.SalvoStripQueuesOneUnit := by
  intro s p rest c hposts hrun hserving hsalvo hcount hc h m rs first sound placed ended refusedWith
  have hleaves := begun_leaves (s := s) (p := p) (rest := rest)
  simp only [Prod.mk.injEq] at hleaves
  obtain ⟨hcontrol, hrunState, hrtu, hxpe, htly, htke, hpnc⟩ := hleaves
  have hbegun : (begun p rest s).store = m := begun_store hc
  have hbcopy : (begun p rest s).csi.copy = some c := by rw [begun_csi]; exact hc
  have hrecords : stripRecords (begun p rest s).store p = rs := by rw [hbegun]; rfl
  have hlength : rs.length = p.count := by simp [rs]
  have hfirst : rs.head? = some first := by
    obtain ⟨k, hk⟩ := Nat.exists_eq_add_of_le hcount
    simp [rs, first, hk, Nat.add_comm 1 k, List.range_succ_eq_map]
  have hexec : ∀ {v : State} {code : Code} {n : Nat}, salvoStrip rs (begun p rest s) = (v, code, n) →
      exec .stripStart s = .next (salvoEnds p code n s.rtu.frame v) := fun hx => by
    rw [← hrtu]
    exact Registers.next_congr ((startStrip_salvo hposts hrun hserving hsalvo).trans (runSalvoStrip_eq (hrecords ▸ hx)))
  have hrefuse : ∀ code : Code, code.isRefusal = true → salvoStrip rs (begun p rest s) = (begun p rest s, code, 0) → refusedWith code.byte :=
    fun code hcode hx => by
      have hended := salvoEnds_ended (s := s) (c := code) (n := 0) hbcopy begun_csi (by rw [hrtu, htly, htke, hrunState, hcontrol])
        (begun_told (p := p) (rest := rest) hc .superseded s.rtu.frame s.rtu.label []).2
      rw [if_pos hcode] at hended
      exact ⟨_, hexec hx, hended, salvoEnds_leaves.1.trans hxpe, salvoEnds_leaves.2.1.trans hpnc⟩
  have hsame : ∀ d, (begun p rest s).dest d = s.dest d := fun d => by rw [State.dest, State.dest, hxpe]
  refine ⟨fun hn => hrefuse .refusedSalvo rfl (salvoStrip_unsound hfirst _ (by rwa [hlength])), fun hs hq => hrefuse .refusedArg rfl
    (salvoStrip_nobody hfirst _ (by rwa [hlength]) (Registers.orderRequester_none hq)), fun tag level hs h1 h2 => ?_⟩
  intro q list alike
  have hstrip : salvoStrip rs (begun p rest s) = decideStrip rs q (begun p rest s) :=
    salvoStrip_decided hfirst _ (by rwa [hlength]) (orderRequester_given h1 h2)
  have hlist : rs.map orderTakeOf = list := rfl
  have hkeeps : (begun p rest s).keepsLevel = s.keepsLevel := funext fun y => funext fun l => by rw [State.keepsLevel, State.keepsLevel, hsame]
  have htakes : (begun p rest s).salvoTakes list = s.salvoTakes list := by rw [State.salvoTakes, State.salvoTakes, hkeeps]
  have hisSalvo : (begun p rest s).isSalvo list ↔ s.isSalvo list := by rw [State.isSalvo, State.isSalvo, hkeeps, htakes]
  refine ⟨fun hn => hrefuse .refusedSalvo rfl (hstrip.trans (decideStrip_refused (Or.inl (hlist ▸ mt hisSalvo.mp hn)))),
    fun _ hn => hrefuse .refusedSalvo rfl (hstrip.trans (decideStrip_refused (Or.inr (Bool.eq_false_iff.mpr (mt (dueBytes_agree hfirst).mp hn))))), fun hsal ha => ?_⟩
  have hdecide := hstrip.trans (decideStrip_salvo hfirst (hlist ▸ hisSalvo.mpr hsal) ((dueBytes_agree hfirst).mpr ha))
  rw [hlist, htakes, hrtu] at hdecide
  obtain ⟨hfixed, hrefused⟩ := dueFrame_terms s first
  refine ⟨fun e he => hrefuse e (dueRefused_isRefusal he) ?_, fun due hdue => ?_⟩
  · rw [hdecide, (hrefused e).mpr he]
  intro es u
  rw [(hfixed due).mpr hdue] at hdecide
  have hlets : ∀ x : Crosspoint, (begun p rest s).lets x.dest q ↔ s.lets x.dest q := fun x => by rw [State.lets, State.lets, hsame]
  have hqueue : (begun p rest s).queueWith u = s.queueWith u := by rw [State.queueWith, State.queueWith, hxpe]
  refine ⟨fun hbar => hrefuse .refusedProtected rfl (hdecide.trans (decideSalvo_barred fun hall => ?_)), fun hall hfull => hrefuse .refusedFull rfl (hdecide.trans ?_), fun hall hfits => ?_⟩
  · obtain ⟨x, hx, hnot⟩ := hbar
    exact hnot ((hlets x).mp (hall x hx))
  · exact decideSalvo_full (fun x hx => (hlets x).mpr (hall x hx)) (by rw [hqueue]; exact hfull)
  · have hadmit := decideSalvo_admitted (s := begun p rest s) (c := .salvo) (n := none) (due := due) (fun x hx => (hlets x).mpr (hall x hx))
      (by rw [hqueue]; exact hfits)
    obtain ⟨huxpe, hutold, huguards, hurest⟩ := admitUnit_admitted (s := begun p rest s) (u := u) (by rw [hqueue]; exact hfits)
    rw [tellSuperseded_owners, hxpe, hrtu] at hutold
    obtain ⟨hucsi, hustore⟩ := journal_eq hutold
    obtain ⟨htcsi, htstore⟩ := begun_told (p := p) (rest := rest) hc .superseded s.rtu.frame s.rtu.label
      ((supersededBy s.xpe.queue es).map fun e => (e.1.requester.owner, e.2))
    rw [← tellSuperseded_owners] at htcsi htstore
    simp only [Prod.mk.injEq, hcontrol, hrunState, hrtu, htly, htke] at hurest
    obtain ⟨hucontrol, hurun, hurtu, hutly, hutke⟩ := hurest
    have hended := salvoEnds_ended (s := s) (c := .queued) (n := es.length) (a := c) (p := p) (by simpa using hbcopy) (hucsi.trans htcsi) (by rw [hurtu, hutly, hutke, hurun, hucontrol]) (fun hwf => by rw [hustore]; exact htstore hwf)
    refine ⟨_, hexec (hdecide.trans hadmit), hended, ?_, ?_⟩
    · refine (salvoEnds_leaves (c := .queued)).1.trans (huxpe.trans ?_)
      rw [hqueue, hxpe]
    · exact guardsAfter_congr hpnc.symm (by rw [salvoEnds_leaves.1, salvoEnds_leaves.2.1, salvoEnds_leaves.2.2.1, salvoEnds_leaves.2.2.2]) huguards

end Sys2Proof.Proofs.Strips
end

