-- ==== Sys2Proof/Proofs/LinkMessages.lean ====
section
/-! A run of bytes on a link: it is ignored where it answers nothing, and is the answer otherwise (O53); READ_ANSWER and the sweep (O52). -/

namespace Sys2Proof.Proofs.Links

open Sys2Proof Sys2Proof.Machine
open Sys2Proof.Proofs.Journal (journal journal_eq journal_of report_journal report_eq)

/-! ### Messages that answer nothing -/

/-- An acknowledgement that is not awaited changes nothing. -/
theorem receiveArmAck_unawaited {s : State} (h : s.xpe.ackWait = false) : receiveArmAck s = s := by
  unfold receiveArmAck
  rw [← h]

/-- A switch report that is not awaited changes nothing. -/
theorem takeReport_unawaited (lines : List ReportLine) {s : State} (h : s.xpe.reportWait = none) : takeReport lines s = s := by
  simp [takeReport, examinedAfter, State.awaitsReport, receiveReport, h]

/-- A READ ANSWER outside a sweep changes nothing. -/
theorem receiveRead_unswept (d l x : Byte) {s : State} (h : s.xpe.sweep = none) : receiveRead d l x s = s := by
  simp [receiveRead, h]

/-- A PING ANSWER that is not awaited, or comes on an UP link, changes nothing. -/
theorem receivePing_unawaited {s : State} (h : s.xpe.pingWait = false ∨ s.xpe.link = .up) : receivePing s = s := by
  unfold receivePing
  rcases h with h | h <;> simp [h]

/-- No message of the router changes anything while nothing of it is awaited. -/
theorem receiveFabric_unawaited (m : FabricMessage) {s : State} (hreport : s.xpe.reportWait = none) (hsweep : s.xpe.sweep = none)
    (hping : s.xpe.pingWait = false) (hack : s.xpe.ackWait = false) : receiveFabric m s = s := by
  cases m with
  | armAck => exact receiveArmAck_unawaited hack
  | switchReport lines => exact takeReport_unawaited lines hreport
  | readAnswer d l x => exact receiveRead_unswept d l x hsweep
  | pingAnswer => exact receivePing_unawaited (.inl hping)

/-- With nothing in flight an acknowledgement changes nothing. -/
theorem takeAck_unawaited {s : State} (h : s.tke.flight = none) : takeAck s = s := by
  simp [takeAck, examinedAfter, talkAcknowledged, h]

/-- With nothing in flight a failure changes nothing. -/
theorem takeFailure_unawaited {s : State} (h : s.tke.flight = none) : takeFailure s = s := by
  simp [takeFailure, examinedAfter, talkFailed, h]

/-- With nothing outstanding a PROBE ANSWER changes nothing. -/
theorem receiveProbeAnswer_unawaited {link : Fin 4} {s : State} (h : s.pnc.links[link].out = none) (a : Byte) (c : BitVec 16) :
    receiveProbeAnswer link a c s = s := by
  unfold receiveProbeAnswer
  rw [h]

/-- With nothing outstanding a REPLY changes nothing. -/
theorem receiveReply_unawaited {link : Fin 4} {s : State} (h : s.pnc.links[link].out = none) (m : PanelReply) :
    receiveReply link m s = s := by
  unfold receiveReply State.answeredPoll
  rw [h]

/-! ### The codings -/

/-- A message of the matrix is one byte. -/
theorem talkMessage_other {m : List Byte} (hack : m ≠ [0xA0]) (hrefuse : m ≠ [0xA1]) : talkMessage m = none := by
  rw [talkMessage, if_neg hack, if_neg hrefuse]

/-- A message of a panel begins with one of two types. -/
theorem panelMessage_other (ident : Bool) {m : List Byte} (h : ∀ b rest, m = b :: rest → b ≠ 0x81 ∧ b ≠ 0x83) :
    panelMessage ident m = none := by
  cases m with
  | nil => rfl
  | cons b rest =>
    obtain ⟨hprobe, hreply⟩ := h b rest rfl
    change (if b = 0x81 then _ else if b = 0x83 then _ else none) = none
    rw [if_neg hprobe, if_neg hreply]

/-- Two bytes, low first, are the word of the high one before the low one. -/
theorem word16_append (lo hi : Byte) : word16 lo hi = hi ++ lo := by
  apply BitVec.eq_of_toNat_eq
  have hlo := lo.isLt
  have hhi := hi.isLt
  rw [word16, BitVec.toNat_ofNat, Nat.mod_eq_of_lt (by omega), BitVec.toNat_append, ← Nat.shiftLeft_add_eq_or_of_lt hlo, Nat.shiftLeft_eq]
  omega

/-- Settles O53, message by message of each link: one that is late, unknown or unawaited leaves the state, and any other is what answers. -/
theorem unawaitedMessagesIgnored : Obligations.UnawaitedMessagesIgnored := by
  unfold Obligations.UnawaitedMessagesIgnored
  refine ⟨fun m link s => ⟨rfl, rfl, rfl⟩, fun m s h => ?_, fun m s h => ?_, fun link m s h => ?_, fun s => ?_⟩
  · change execFabricMessageIgnored ⟨false, m⟩ s = .next s
    rw [execFabricMessageIgnored]
    cases hm : fabricMessage m with
    | none => rfl
    | some x =>
      rcases h with h | ⟨hreport, hsweep, hping, hack⟩
      · rw [hm] at h
        cases h
      · simp [receiveFabric_unawaited x hreport hsweep hping hack]
  · change execTalkMessageIgnored ⟨false, m⟩ s = .next s
    rw [execTalkMessageIgnored]
    rcases h with h | ⟨hack, hrefuse⟩
    · cases hm : talkMessage m with
      | none => rfl
      | some x => cases x <;> simp [takeAck_unawaited h, takeFailure_unawaited h]
    · simp [talkMessage_other hack hrefuse]
  · change execPanelMessageIgnored link ⟨false, m⟩ s = .next s
    rw [execPanelMessageIgnored]
    rcases h with h | h
    · cases hm : panelMessage (s.asksCode link) m with
      | none => rfl
      | some x => cases x <;> simp [receiveProbeAnswer_unawaited h, receiveReply_unawaited h]
    · simp [panelMessage_other (s.asksCode link) h]
  · refine ⟨rfl, rfl, fun _ _ _ => rfl, rfl, rfl, fun link a lo hi => ?_⟩
    change Host.Outcome.next (receiveProbeAnswer link a (word16 lo hi) s) = Host.Outcome.next (receiveProbeAnswer link a (hi ++ lo) s)
    rw [word16_append]

/-! ### READ_ANSWER -/

/-- A map entry written changes the XPE as a record, whether or not a report is made. -/
theorem setMapEntry_xpe (d : Fin 64) (l : Level) (e : MapEntry) (c : Cause) (s : State) :
    (setMapEntry d l e c s).xpe = (s.setDest d ((s.dest d).setEntry l e)).xpe := by
  simp only [setMapEntry]
  split <;> simp

theorem dest_of_xpe {s t : State} (h : t.xpe = s.xpe) (d : Fin 64) : t.dest d = s.dest d := by
  simp [State.dest, h]

/-- The map after one entry is written. -/
theorem setMapEntry_entry (d x : Fin 64) (l m : Level) (e : MapEntry) (c : Cause) (s : State) :
    ((setMapEntry d l e c s).dest x).entry m = if d = x ∧ l = m then e else (s.dest x).entry m := by
  rw [dest_of_xpe (setMapEntry_xpe d l e c s), setDest_dest]
  by_cases hd : d = x
  · subst hd
    simp [setEntry_entry]
  · simp [hd]

/-- Only a changed source is reported. -/
theorem setMapEntry_journal (d : Fin 64) (l : Level) (e : MapEntry) (c : Cause) (s : State) :
    journal (setMapEntry d l e c s) = journal (if e.source = ((s.dest d).entry l).source then s
      else report (.xpt d l ((s.dest d).entry l).source e.source c) s.rtu.frame s.rtu.label s) := by
  simp only [setMapEntry]
  split
  · rfl
  · exact report_journal (by rfl) _ _ _

/-- The entry that an answered READ gives. -/
def readEntry (old : MapEntry) (number : Byte) : MapEntry :=
  match sourceOf number.toNat with
  | some x => ⟨x, .known⟩
  | none => ⟨old.source, .mismatch⟩

/-- A READ ANSWER writes one entry into the XPE's map. -/
theorem readBack_xpe (d : Fin 64) (l : Level) (number : Byte) (s : State) :
    (readBack d l number s).xpe = (s.setDest d ((s.dest d).setEntry l (readEntry ((s.dest d).entry l) number))).xpe := by
  unfold readBack readEntry
  cases h : sourceOf number.toNat with
  | some x => exact setMapEntry_xpe _ _ _ _ s
  | none => simp [mapMismatch, h, setMapEntry_xpe]

theorem readBack_entry (d x : Fin 64) (l m : Level) (number : Byte) (s : State) :
    ((readBack d l number s).dest x).entry m = if d = x ∧ l = m then readEntry ((s.dest d).entry l) number else (s.dest x).entry m := by
  rw [dest_of_xpe (readBack_xpe d l number s), setDest_dest]
  by_cases hd : d = x
  · subst hd
    simp [setEntry_entry]
  · simp [hd]

/-- A READ ANSWER that names no source reports the mismatch alone. -/
theorem readBack_mismatch {number : Byte} (h : sourceOf number.toNat = none) (d : Fin 64) (l : Level) (s : State) :
    journal (readBack d l number s) = journal (report (.mismatch d l none number) s.rtu.frame s.rtu.label s) := by
  have hentry := setMapEntry_journal d l ⟨((s.dest d).entry l).source, .mismatch⟩ .readback s
  rw [if_pos rfl] at hentry
  simp only [readBack, h, mapMismatch, Option.getD_none, reportNow, setMapEntry_frame]
  exact report_journal hentry _ _ _

/-- A READ ANSWER that names a source reports it where it is another. -/
theorem readBack_source {number : Byte} {x : Source} (h : sourceOf number.toNat = some x) (d : Fin 64) (l : Level) (s : State) :
    journal (readBack d l number s) = journal (if x = ((s.dest d).entry l).source then s
      else report (.xpt d l ((s.dest d).entry l).source x .readback) s.rtu.frame s.rtu.label s) := by
  have hentry := setMapEntry_journal d l ⟨x, .known⟩ .readback s
  simpa only [readBack, h] using hentry

/-- The sweep goes on while a crosspoint follows. -/
theorem sweepOn_next {d : Fin 64} {l : Level} {x : Fin 64 × Level} (h : sweepNext d l = some x) (s : State) :
    sweepOn d l s = { s with xpe := { s.xpe with sweep := some x } } := by
  simp [sweepOn, h]

/-- The sweep ends at its last crosspoint, and SWEEP is then over. -/
theorem sweepOn_last {d : Fin 64} {l : Level} (h : sweepNext d l = none) (s : State) :
    sweepOn d l s = { s with xpe := { s.xpe with sweep := none }, runState := if s.runState = .sweep then .running else s.runState } := by
  simp [sweepOn, h]

/-- The sweep's order ends at destination 63, level B, alone. -/
theorem sweepNext_none (d : Fin 64) (l : Level) : sweepNext d l = none ↔ l = .b ∧ d = 63 := by
  cases l <;> simp [sweepNext, finOf]
  omega

/-- What the sweep's step leaves: all of the state but the sweep and, at the end, the run state. -/
theorem sweepOn_rest (d : Fin 64) (l : Level) (s : State) :
    (sweepOn d l s).xpe = { s.xpe with sweep := sweepNext d l } ∧
      (sweepOn d l s).runState = if sweepNext d l = none ∧ s.runState = .sweep then .running else s.runState := by
  cases h : sweepNext d l with
  | some x => simp [sweepOn_next h]
  | none => simp [sweepOn_last h]

/-- Settles O52: the answer is read back into one map entry, and the sweep then takes its next step. -/
theorem sweepReadsInOrder : Obligations.SweepReadsInOrder := by
  unfold Obligations.SweepReadsInOrder
  refine fun dest level number s => ⟨fun d l hsweep hdest hlevel => ?_, fun h => ?_⟩
  · obtain ⟨hxpe, hrun⟩ := sweepOn_rest d l (readBack d l number s)
    have hread : exec (.readAnswer dest level number) s = .next (sweepOn d l (readBack d l number s)) := by
      change Host.Outcome.next (receiveRead dest level number s) = _
      simp [receiveRead, hsweep, hdest, hlevel]
    refine ⟨_, hread, ?_⟩
    have hmap : ∀ (e : Fin 64) (m : Level), ((sweepOn d l (readBack d l number s)).dest e).entry m =
        if d = e ∧ l = m then readEntry ((s.dest d).entry l) number else (s.dest e).entry m := by
      intro e m
      rw [← readBack_entry]
      simp [State.dest, hxpe]
    have hother : ∀ (e : Fin 64) (m : Level), e ≠ d ∨ m ≠ l → ((sweepOn d l (readBack d l number s)).dest e).entry m = (s.dest e).entry m := by
      intro e m hne
      rw [hmap, if_neg]
      rintro ⟨rfl, rfl⟩
      simp at hne
    have hjournal : journal (sweepOn d l (readBack d l number s)) = journal (readBack d l number s) := journal_of (by simp) (by simp)
    have hkept : (readBack d l number s).xpe.queue = s.xpe.queue ∧ (readBack d l number s).xpe.armed = s.xpe.armed ∧
        (readBack d l number s).xpe.link = s.xpe.link ∧ (readBack d l number s).xpe.reportWait = s.xpe.reportWait := by
      simp [readBack_xpe, State.setDest]
    refine ⟨?_, ?_, hother, ?_, ?_, ?_, ?_, ?_, ?_⟩
    · rw [hmap, if_pos ⟨rfl, rfl⟩, readEntry] <;> cases sourceOf number.toNat <;> rfl
    · cases h : sourceOf number.toNat with
      | none => exact journal_eq (hjournal.trans (readBack_mismatch h d l s))
      | some x => exact journal_eq (hjournal.trans (readBack_source h d l s))
    · rintro rfl
      simp [hxpe, sweepNext]
    · rintro rfl
      simp [hxpe, sweepNext]
    · rintro rfl e he
      simp [hxpe, sweepNext, finOf_eq e he.symm]
    · intro hb h63
      have hlast := (sweepNext_none d l).mpr ⟨hb, h63⟩
      simp [hxpe, hrun, hlast]
    · intro hmore
      have hnext : sweepNext d l ≠ none := fun hnone => by
        obtain ⟨hb, h63⟩ := (sweepNext_none d l).mp hnone
        simp [hb, h63] at hmore
      simp [hrun, hnext]
    · simp [hxpe, hkept]
  · change Host.Outcome.next (receiveRead dest level number s) = _
    cases hsweep : s.xpe.sweep with
    | none => rw [receiveRead_unswept dest level number hsweep]
    | some x =>
      obtain ⟨d, l⟩ := x
      have hnot : ¬ (dest.toNat = d.1 ∧ level.toNat = l.num) := by
        rcases h d l hsweep with h | h <;> simp [h]
      simp [receiveRead, hsweep, hnot]

end Sys2Proof.Proofs.Links
end

