-- ==== Sys2Proof/Proofs/FabricLink.lean ====
section
/-! What a settled map leaves of the router's block, and the waits of the fabric link (O51). -/

namespace Sys2Proof.Proofs.Links

open Sys2Proof Sys2Proof.Machine
open Sys2Proof.Proofs.Journal (journal journal_eq journal_of report_journal foldl_journal)

/-! ### The router's block but for its flags -/

/-- Two records of the XPE agree but for the DEPTH and LOOP flags of their destinations. -/
structure SameRouter (x y : Xpe) : Prop where
  rest : x = { y with dests := x.dests }
  dest : ∀ d : Fin 64, x.dests[d] = { y.dests[d] with depth := x.dests[d].depth, loop := x.dests[d].loop }

theorem SameRouter.refl (x : Xpe) : SameRouter x x := ⟨rfl, fun _ => rfl⟩

theorem SameRouter.of_eq {x y : Xpe} (h : x = y) : SameRouter x y := h ▸ .refl x

theorem SameRouter.trans {x y z : Xpe} (h : SameRouter x y) (k : SameRouter y z) : SameRouter x z := by
  refine ⟨?_, fun d => ?_⟩
  · rw [h.rest, k.rest]
  · rw [h.dest d, k.dest d]

/-- A resolution writes flags alone into the XPE. -/
theorem writeResolution_xpe (fs : List Found) (s : State) : (writeResolution fs s).xpe =
    { s.xpe with dests := writeFlags (unionAll fs).depth (unionAll fs).loop s.xpe.dests } := by
  simp only [writeResolution]
  rw [foldl_keeps State.xpe _ (fun x d => (reportFlags_frame _ _ _ _ d x).2.2.2.1)]

theorem writeFlags_get (depth loop : BitVec 64) (dests : Vector Destination 64) (d : Fin 64) :
    (writeFlags depth loop dests)[d] = { dests[d] with depth := hasDest depth d, loop := hasDest loop d } := by
  simp [writeFlags]

theorem resolve_router (i : FrameInputs) (s : State) : SameRouter (resolve i s).xpe s.xpe := by
  rw [resolve, (deriveLamps_frame _).2.2.2.1, (driveLamps_frame _ _ _).2.2.2.1, writeResolution_xpe]
  refine ⟨rfl, fun d => ?_⟩
  rw [writeFlags_get]

theorem runResolution_router (k : FrameIndex) (s : State) : SameRouter (runResolution k s).xpe s.xpe := by
  unfold runResolution
  split
  · exact .refl _
  · split
    · exact resolve_router _ s
    · exact .refl _

/-- A settled map handed over changes no more of the XPE than the flags. -/
theorem handOverMap_router (k : FrameIndex) (s : State) : SameRouter (handOverMap k s).xpe s.xpe := by
  have h := runResolution_router k (deriveLamps (evaluateSelectors s))
  rwa [(deriveLamps_frame _).2.2.2.1, (evaluateSelectors_frame _).2.2.2.1] at h

theorem declareSettled_router (k : FrameIndex) (s : State) : SameRouter (declareSettled k s).xpe s.xpe := by
  rw [declareSettled, (tellResolution_frame _ _).2.2.2.1]
  exact handOverMap_router k s

section
variable {x y : Xpe} (h : SameRouter x y)
include h

/-- The flags are no part of the queue, the armed set, the waits, the link, the salvos and the step groups. -/
theorem SameRouter.others : x.queue = y.queue ∧ x.armed = y.armed ∧ x.reportWait = y.reportWait ∧ x.ackWait = y.ackWait ∧
    x.sweep = y.sweep ∧ x.pingWait = y.pingWait ∧ x.link = y.link ∧ x.salvos = y.salvos ∧ x.steps = y.steps := by
  rw [h.rest]
  exact ⟨rfl, rfl, rfl, rfl, rfl, rfl, rfl, rfl, rfl⟩

/-- The flags are no part of a map entry or a protect. -/
theorem SameRouter.map (d : Fin 64) : x.dests[d].protect = y.dests[d].protect ∧ ∀ l, x.dests[d].entry l = y.dests[d].entry l := by
  rw [h.dest d]
  exact ⟨rfl, fun l => by cases l <;> rfl⟩

end

/-! ### The link lost -/

/-- The XPE after the link is lost, but for what a settled map brings. -/
def lostXpe (s : State) : Xpe :=
  { (if s.xpe.sweep = none then doubtMap s else s).xpe with armed := [], sweep := none, link := .down, reportWait := none, ackWait := false }

/-- The state after the loss, before an open frame is declared settled. -/
def lose (w : FabricWait) (s : State) : State :=
  reportNow (.fabricDown w) { armedDone .fabricTimeout s.xpe.armed s with xpe := lostXpe s }

theorem linkLost_up {w : FabricWait} {s : State} (h : s.xpe.link = .up) :
    linkLost w s = match s.xpe.reportWait with
      | none => lose w s
      | some k => declareSettled k (lose w s) := by
  have hdoubt : ∀ u : State, u.xpe = { s.xpe with armed := [] } →
      { (if s.xpe.sweep = none then doubtMap u else u) with xpe :=
        { (if s.xpe.sweep = none then doubtMap u else u).xpe with sweep := none, link := .down, reportWait := none, ackWait := false } } =
      { u with xpe := lostXpe s } := by
    intro u hu
    unfold lostXpe
    split <;> simp only [doubtMap, hu]
  simp only [linkLost, if_pos h]
  rw [hdoubt _ (by simp)]
  rfl

/-- The XPE after the link is lost, its flags apart. -/
theorem linkLost_router {w : FabricWait} {s : State} (h : s.xpe.link = .up) : SameRouter (linkLost w s).xpe (lostXpe s) := by
  have hlose : (lose w s).xpe = lostXpe s := by simp [lose]
  rw [linkLost_up h]
  cases s.xpe.reportWait with
  | none => exact .of_eq hlose
  | some k => exact (declareSettled_router k _).trans (.of_eq hlose)

/-- The map of a link that is lost: its sources stay, and outside a sweep what was known is doubted. -/
theorem lostXpe_dest (s : State) (d : Fin 64) (l : Level) : (lostXpe s).dests[d].protect = (s.dest d).protect ∧
    (lostXpe s).dests[d].entry l = if s.xpe.sweep = none then ((s.dest d).entry l).doubted else (s.dest d).entry l := by
  unfold lostXpe State.dest
  split
  · refine ⟨by simp [doubtMap, Destination.doubted], ?_⟩
    cases l <;> simp [doubtMap, Destination.doubted, Destination.entry]
  · exact ⟨rfl, rfl⟩

theorem lostXpe_rest (s : State) : (lostXpe s).queue = s.xpe.queue ∧ (lostXpe s).pingWait = s.xpe.pingWait ∧
    (lostXpe s).salvos = s.xpe.salvos ∧ (lostXpe s).steps = s.xpe.steps := by
  unfold lostXpe
  split <;> simp [doubtMap]

/-- A doubted entry keeps its source, and is UNCERTAIN unless it is UNKNOWN. -/
theorem doubted_terms (e : MapEntry) : e.doubted.source = e.source ∧ e.doubted.state = if e.state = .unknown then .unknown else .uncertain := by
  unfold MapEntry.doubted
  cases h : e.state <;> simp [h]

/-- The reports of a loss: the armed entries of applications, then the wait that ran out. -/
theorem lose_journal (w : FabricWait) (s : State) :
    journal (lose w s) = journal (report (.fabricDown w) s.rtu.frame s.rtu.label (armedDone .fabricTimeout s.xpe.armed s)) := by
  simp only [lose, reportNow, armedDone_frame]
  exact report_journal (by rfl) _ _ _

/-- The TAKE_DONE report of one armed entry with an outcome, to an application. -/
def tellArmed (o : TakeOutcome) (f : FrameIndex) (l : Label) (u : State) (a : ArmedEntry) : State :=
  match a.requester.owner with
  | .panel _ => u
  | .app tag => report (.takeDone tag a.xpt.dest a.xpt.level o a.late) f l u

theorem takeDone_armed (o : TakeOutcome) (a : ArmedEntry) (s : State) :
    takeDone a.requester a.xpt o a.late s = tellArmed o s.rtu.frame s.rtu.label s a := by
  unfold takeDone tellArmed
  cases a.requester.owner <;> rfl

theorem armedDone_fold (o : TakeOutcome) (es : List ArmedEntry) (s : State) :
    armedDone o es s = es.foldl (tellArmed o s.rtu.frame s.rtu.label) s := by
  unfold armedDone
  induction es generalizing s with
  | nil => rw [List.foldl_nil, List.foldl_nil]
  | cons a es ih => rw [List.foldl_cons, List.foldl_cons, ih, (takeDone_frame _ _ _ _ _).2.2.1, takeDone_armed]

/-- What a lost link leaves behind, clause by clause. -/
theorem linkLost_clauses (w : FabricWait) {s : State} (h : s.xpe.link = .up) :
    (linkLost w s).xpe.link = .down ∧ (linkLost w s).xpe.armed = [] ∧ (linkLost w s).xpe.sweep = none ∧
    (linkLost w s).xpe.reportWait = none ∧ (linkLost w s).xpe.ackWait = false ∧ (linkLost w s).xpe.queue = s.xpe.queue ∧
    (linkLost w s).xpe.pingWait = s.xpe.pingWait ∧ (linkLost w s).xpe.salvos = s.xpe.salvos ∧ (linkLost w s).xpe.steps = s.xpe.steps := by
  obtain ⟨hqueue, harmed, hreport, hack, hsweep, hping, hlink, hsalvos, hsteps⟩ := (linkLost_router (w := w) h).others
  obtain ⟨kqueue, kping, ksalvos, ksteps⟩ := lostXpe_rest s
  exact ⟨hlink, harmed, hsweep, hreport, hack, hqueue.trans kqueue, hping.trans kping, hsalvos.trans ksalvos, hsteps.trans ksteps⟩

/-- What a lost link leaves of the map. -/
theorem linkLost_map (w : FabricWait) {s : State} (h : s.xpe.link = .up) (d : Fin 64) (l : Level) :
    ((linkLost w s).dest d).protect = (s.dest d).protect ∧ (((linkLost w s).dest d).entry l).source = ((s.dest d).entry l).source ∧
    (s.xpe.sweep ≠ none → (((linkLost w s).dest d).entry l).state = ((s.dest d).entry l).state) ∧
    (s.xpe.sweep = none → (((linkLost w s).dest d).entry l).state = if ((s.dest d).entry l).state = .unknown then .unknown else .uncertain) := by
  obtain ⟨hprotect, hentry⟩ := (linkLost_router (w := w) h).map d
  obtain ⟨kprotect, kentry⟩ := lostXpe_dest s d l
  obtain ⟨hsource, hstate⟩ := doubted_terms ((s.dest d).entry l)
  have he : ((linkLost w s).dest d).entry l = if s.xpe.sweep = none then ((s.dest d).entry l).doubted else (s.dest d).entry l :=
    (hentry l).trans kentry
  refine ⟨hprotect.trans kprotect, ?_, fun hs => ?_, fun hs => ?_⟩
  · rw [he]
    split
    · exact hsource
    · rfl
  · rw [he, if_neg hs]
  · rw [he, if_pos hs, hstate]

/-! ### A ping answered -/

/-- The XPE after an answered ping. -/
theorem receivePing_answered {s : State} (hping : s.xpe.pingWait = true) (hlink : s.xpe.link = .down) :
    (receivePing s).xpe = { s.xpe with
      link := .up
      pingWait := false
      sweep := if s.runState = .sweep ∨ s.runState = .running then some (0, .v) else s.xpe.sweep } ∧
    journal (receivePing s) = journal (report .fabricUp s.rtu.frame s.rtu.label s) ∧
    (receivePing s).rtu = s.rtu ∧ (receivePing s).tly = s.tly ∧ (receivePing s).tke = s.tke ∧ (receivePing s).pnc = s.pnc ∧
    (receivePing s).runState = s.runState ∧ (receivePing s).control = s.control := by
  have hjournal : journal (reportNow .fabricUp { s with xpe := { s.xpe with link := .up, pingWait := false } }) =
      journal (report .fabricUp s.rtu.frame s.rtu.label s) := report_journal (by rfl) _ _ _
  simp only [receivePing, hping, hlink, and_self, if_true, serving_iff]
  split
  · exact ⟨by simp [startSweep], by rw [← hjournal]; rfl, by simp⟩
  · exact ⟨by simp, hjournal, by simp⟩

/-- Settles O51, wait by wait: each of the three that run out is the loss of the link. -/
theorem fabricWaits : Obligations.FabricWaits := by
  unfold Obligations.FabricWaits
  refine ⟨fun _ => rfl, fun _ => rfl, fun s c w hwait hlink => ?_, fun s c hwait => ?_, fun s hping hlink => ?_, fun s h => ?_⟩
  · have hexec : exec c s = .next (examineHalting (linkLost w s)) := by
      rcases hwait with ⟨rfl, rfl, hw⟩ | ⟨rfl, rfl, hw⟩ | ⟨rfl, rfl, hw⟩
      · change Host.Outcome.next (examinedAfter s.xpe.ackWait armTimeout s) = _
        simp [examinedAfter, armTimeout, hw]
      · change Host.Outcome.next (examinedAfter s.xpe.reportWait.isSome reportTimeout s) = _
        simp [examinedAfter, reportTimeout, Option.isSome_iff_ne_none.mpr hw]
      · change Host.Outcome.next (examinedAfter s.xpe.sweep.isSome readTimeout s) = _
        simp [examinedAfter, readTimeout, Option.isSome_iff_ne_none.mpr hw]
    obtain ⟨hdown, harmed, hsweep, hreport, hack, hqueue, hping, hsalvos, hsteps⟩ := linkLost_clauses w hlink
    refine ⟨_, hexec, fun hh => examineHalting_other (by simpa using hh), hdown, harmed, hsweep, hreport, hack, hqueue, hping, hsalvos,
      hsteps, linkLost_map w hlink, ?_, by simp, by simp, by simp⟩
    intro made
    obtain ⟨hcsi, hstore⟩ := journal_eq (lose_journal w s)
    rw [armedDone_fold] at hcsi hstore
    refine ⟨lose w s, hcsi, hstore, by simp [lose], by simp [lose], ?_⟩
    rw [linkLost_up hlink] <;> cases s.xpe.reportWait <;> rfl
  · rcases hwait with ⟨rfl, hw⟩ | ⟨rfl, hw⟩ | ⟨rfl, hw⟩
    · change Host.Outcome.next (examinedAfter s.xpe.ackWait armTimeout s) = _
      simp [examinedAfter, armTimeout, hw]
    · change Host.Outcome.next (examinedAfter s.xpe.reportWait.isSome reportTimeout s) = _
      simp [examinedAfter, reportTimeout, hw]
    · change Host.Outcome.next (examinedAfter s.xpe.sweep.isSome readTimeout s) = _
      simp [examinedAfter, readTimeout, hw]
  · obtain ⟨hxpe, hjournal, hrest⟩ := receivePing_answered hping hlink
    obtain ⟨hcsi, hstore⟩ := journal_eq hjournal
    exact ⟨_, rfl, hxpe, hcsi, hstore, hrest⟩
  · change Host.Outcome.next (receivePing s) = _
    rw [receivePing_unawaited h]

end Sys2Proof.Proofs.Links
end

