-- ==== Sys2Proof/Proofs/TalkLink.lean ====
section
/-! The talk link: its answers, its failures, its retry at a boundary (O58), and a full refresh of its queue. -/

namespace Sys2Proof.Proofs.Links

open Sys2Proof Sys2Proof.Machine
open Sys2Proof.Proofs.Journal (journal journal_eq journal_of report_journal)

/-! ### The coefficient queue -/

/-- An entered entry stands in the queue. -/
theorem mem_enterKey (q : List TalkEntry) (e : TalkEntry) : e ∈ enterKey q e := by
  unfold enterKey
  split
  · rename_i h
    obtain ⟨x, hx, hkey⟩ := List.any_eq_true.mp h
    exact List.mem_map.mpr ⟨x, hx, if_pos (of_decide_eq_true hkey)⟩
  · simp

/-- An entry of another key stays in the queue. -/
theorem mem_enterKey_other {q : List TalkEntry} {x e : TalkEntry} (h : x ∈ q) (hkey : x.key ≠ e.key) : x ∈ enterKey q e := by
  unfold enterKey
  split
  · exact List.mem_map.mpr ⟨x, h, if_neg hkey⟩
  · exact List.mem_append_left _ h

/-- Entries whose values are a function of their keys all stand in the queue once they are entered. -/
theorem mem_enterKeys (value : TalkKey → TalkValue) (es : List TalkEntry) (h : ∀ e ∈ es, e.value = value e.key) (q : List TalkEntry)
    (x : TalkEntry) (hx : x ∈ es ∨ x ∈ q ∧ x.value = value x.key) : x ∈ es.foldl enterKey q := by
  induction es generalizing q with
  | nil => simpa using (hx.resolve_left (by simp)).1
  | cons e es ih =>
    have he : e.value = value e.key := h e (by simp)
    refine ih (fun y hy => h y (by simp [hy])) _ ?_
    have hstays : x ∈ q → x.value = value x.key → x ∈ enterKey q e := by
      intro hq hv
      by_cases hkey : x.key = e.key
      · have hsame : x = e := by
          cases x
          cases e
          simp_all
        exact hsame ▸ mem_enterKey q e
      · exact mem_enterKey_other hq hkey
    rcases hx with hx | ⟨hq, hv⟩
    · rcases List.mem_cons.mp hx with rfl | hx
      · exact .inr ⟨mem_enterKey q x, he⟩
      · exact .inl hx
    · exact .inr ⟨hstays hq hv, hv⟩

/-- The value of the target table for a key. -/
def targetValue (s : State) : TalkKey → TalkValue
  | .xpt a b => .coeff s.tke.target[a][b]
  | .feed i => .feed s.tke.feeds[i]

/-- The entries of a full refresh. -/
def refreshEntries (s : State) : List TalkEntry :=
  allXpts.map (fun x => xptEntry x.1 x.2 s.tke.target[x.1][x.2]) ++ (List.finRange 8).map (fun i => feedEntry i s.tke.feeds[i])

theorem refreshEntries_value (s : State) : ∀ e ∈ refreshEntries s, e.value = targetValue s e.key := by
  intro e he
  rcases List.mem_append.mp he with he | he
  · obtain ⟨x, -, rfl⟩ := List.mem_map.mp he
    simp only [xptEntry, targetValue]
  · obtain ⟨i, -, rfl⟩ := List.mem_map.mp he
    simp only [feedEntry, targetValue]

theorem mem_refreshEntries_xpt (s : State) (a b : Fin 32) : { key := .xpt a b, value := .coeff s.tke.target[a][b] } ∈ refreshEntries s := by
  refine List.mem_append_left _ (List.mem_map.mpr ⟨(a, b), ?_, ?_⟩)
  · simp only [allXpts, List.mem_flatMap, List.mem_map, List.mem_finRange, true_and]
    exact ⟨a, b, rfl⟩
  · simp only [xptEntry]

theorem mem_refreshEntries_feed (s : State) (i : Fin 8) : { key := .feed i, value := .feed s.tke.feeds[i] } ∈ refreshEntries s := by
  refine List.mem_append_right _ (List.mem_map.mpr ⟨i, List.mem_finRange i, ?_⟩)
  simp only [feedEntry]

/-- The queue after a full refresh. -/
def refreshed (s : State) : List TalkEntry := (refreshEntries s).foldl enterKey s.tke.queue

theorem fullRefresh_eq (s : State) : fullRefresh s = { s with tke := { s.tke with queue := refreshed s } } := by
  simp only [fullRefresh, refreshed, refreshEntries]

/-- After a full refresh every crosspoint stands in the queue with its target value, and so does every feed. -/
theorem mem_refreshed (s : State) :
    (∀ a b : Fin 32, { key := .xpt a b, value := .coeff s.tke.target[a][b] } ∈ refreshed s) ∧
    ∀ i : Fin 8, { key := .feed i, value := .feed s.tke.feeds[i] } ∈ refreshed s := by
  have hvalue := refreshEntries_value s
  have hxpt := mem_refreshEntries_xpt s
  have hfeed := mem_refreshEntries_feed s
  unfold refreshed
  generalize refreshEntries s = es at hvalue hxpt hfeed ⊢
  exact ⟨fun a b => mem_enterKeys (targetValue s) es hvalue _ _ (.inl (hxpt a b)),
    fun i => mem_enterKeys (targetValue s) es hvalue _ _ (.inl (hfeed i))⟩

/-! ### The next write -/

/-- What an UP link with nothing in flight sends next. -/
def nextFlight (s : State) : List TalkEntry → Option Flight
  | [] => none
  | e :: _ => if s.runState = .halted then none else some (.write e)

theorem flight_same {s : State} {x : Option Flight} (h : s.tke.flight = x) : { s with tke := { s.tke with flight := x } } = s := by
  subst h
  rfl

/-- A free UP link writes the head of its queue, outside HALTED. -/
theorem talkSend_up {s : State} (hlink : s.tke.link = .up) (hflight : s.tke.flight = none) :
    talkSend s = { s with tke := { s.tke with flight := nextFlight s s.tke.queue } } := by
  unfold talkSend nextFlight
  cases hq : s.tke.queue with
  | nil => exact (flight_same hflight).symm
  | cons e rest =>
    dsimp only
    by_cases hh : s.runState = .halted
    · rw [if_pos hh, if_neg (by simp [hh])]
      exact (flight_same hflight).symm
    · simp [hlink, hflight, hh]

/-- A DOWN link sends nothing. -/
theorem talkSend_down {s : State} (h : s.tke.link = .down) : talkSend s = s := by
  unfold talkSend
  split
  · rfl
  · simp [h]

/-! ### Answers -/

/-- An ACK on an UP link: the written entry leaves where it still stands as written, and the next write follows. -/
theorem talkAcknowledged_up {s : State} {f : Flight} (hflight : s.tke.flight = some f) (hlink : s.tke.link = .up) :
    talkAcknowledged s = { s with tke := { s.tke with fails := 0, queue := afterFlight f s.tke.queue, flight := nextFlight s (afterFlight f s.tke.queue) } } := by
  unfold talkAcknowledged
  rw [hflight]
  dsimp only
  rw [if_pos hlink, talkSend_up (s := landFlight f s) hlink rfl]
  rfl

/-- The link that an ACK has taken UP, before its refresh. -/
theorem talkLinkUp_landed (f : Flight) (s : State) :
    (talkLinkUp (landFlight f s)).tke = { s.tke with flight := none, fails := 0, queue := afterFlight f s.tke.queue, link := .up } ∧
    (talkLinkUp (landFlight f s)).rtu = s.rtu ∧ (talkLinkUp (landFlight f s)).xpe = s.xpe ∧ (talkLinkUp (landFlight f s)).tly = s.tly ∧
    (talkLinkUp (landFlight f s)).pnc = s.pnc ∧ (talkLinkUp (landFlight f s)).runState = s.runState ∧
    journal (talkLinkUp (landFlight f s)) = journal (report (.talkLink .up) s.rtu.frame s.rtu.label s) := by
  refine ⟨by simp [talkLinkUp, landFlight], by simp [talkLinkUp, landFlight], by simp [talkLinkUp, landFlight],
    by simp [talkLinkUp, landFlight], by simp [talkLinkUp, landFlight], by simp [talkLinkUp, landFlight], ?_⟩
  exact report_journal (by rfl) _ _ _

/-- The write that follows a change of the queue on a free UP link. -/
theorem talkSend_queued {s : State} (hlink : s.tke.link = .up) (hflight : s.tke.flight = none) (q : List TalkEntry) :
    talkSend { s with tke := { s.tke with queue := q } } = { s with tke := { s.tke with queue := q, flight := nextFlight s q } } := by
  rw [talkSend_up (s := { s with tke := { s.tke with queue := q } }) hlink hflight]
  rfl

/-- A full refresh, and the write that follows it on a free UP link. -/
theorem talkSend_refreshed {s : State} (hlink : s.tke.link = .up) (hflight : s.tke.flight = none) :
    talkSend (fullRefresh s) = { s with tke := { s.tke with queue := refreshed s, flight := nextFlight s (refreshed s) } } :=
  (congrArg talkSend (fullRefresh_eq s)).trans (talkSend_queued hlink hflight (refreshed s))

/-- The queue that a full refresh leaves, and the write that follows it. -/
theorem talkSend_refreshes {s : State} (hlink : s.tke.link = .up) (hflight : s.tke.flight = none) :
    ∃ q, talkSend (fullRefresh s) = { s with tke := { s.tke with queue := q, flight := nextFlight s q } } ∧
      (∀ a b : Fin 32, { key := .xpt a b, value := .coeff s.tke.target[a][b] } ∈ q) ∧
      ∀ i : Fin 8, { key := .feed i, value := .feed s.tke.feeds[i] } ∈ q :=
  ⟨refreshed s, talkSend_refreshed hlink hflight, mem_refreshed s⟩

/-- An ACK on a DOWN link: it is UP, with a full refresh and a TALK_LINK report. -/
theorem talkAcknowledged_down {s : State} {f : Flight} (hflight : s.tke.flight = some f) (hlink : s.tke.link = .down) :
    talkAcknowledged s = talkSend (fullRefresh (talkLinkUp (landFlight f s))) := by
  unfold talkAcknowledged
  rw [hflight]
  simp [hlink]

/-- A failure on an UP link that is not the third. -/
theorem talkFailed_again {s : State} {f : Flight} (hflight : s.tke.flight = some f) (hlink : s.tke.link = .up) (hfails : s.tke.fails < 2) :
    talkFailed s = { s with tke := { s.tke with fails := s.tke.fails + 1, flight := nextFlight s s.tke.queue } } := by
  unfold talkFailed
  rw [hflight]
  dsimp only
  rw [if_neg (by simp [hlink]), if_pos (by omega), talkSend_up (s := { s with tke := { s.tke with flight := none, fails := s.tke.fails + 1 } }) hlink rfl]
  rfl

/-- The third failure takes the link DOWN. -/
theorem talkFailed_third {s : State} {f : Flight} (hflight : s.tke.flight = some f) (hlink : s.tke.link = .up) (hfails : 2 ≤ s.tke.fails) :
    talkFailed s = reportNow (.talkLink .down) { s with tke := { s.tke with flight := none, fails := 0, link := .down } } := by
  unfold talkFailed
  rw [hflight]
  simp [hlink, show ¬ s.tke.fails + 1 < 3 by omega]

/-- A failed retry of a DOWN link. -/
theorem talkFailed_down {s : State} {f : Flight} (hflight : s.tke.flight = some f) (hlink : s.tke.link = .down) :
    talkFailed s = { s with tke := { s.tke with flight := none } } := by
  unfold talkFailed
  rw [hflight]
  simp [hlink]

/-! ### The retry at a boundary -/

/-- What a DOWN link retries with. -/
def retried (s : State) : Option Flight :=
  if s.tke.flight = none ∧ s.runState ≠ .halted then some (match s.tke.queue with | [] => .probe | e :: _ => .write e) else s.tke.flight

/-- The part of the TKE that the retry and the next write move. -/
def wire (s : State) : LinkState × Nat × Option Flight := (s.tke.link, s.tke.fails, s.tke.flight)

theorem wire_of {s t : State} (h : t.tke = s.tke) : wire t = wire s := by simp [wire, h]

/-- The selectors' feeds are not written to a DOWN link. -/
theorem evaluateSelectors_wire {s : State} (h : s.tke.link = .down) : wire (evaluateSelectors s) = wire s := by
  unfold evaluateSelectors
  rw [talkSend_down (by simpa [enterFeeds] using h)]
  rfl

theorem declareSettled_wire {s : State} (k : FrameIndex) (h : s.tke.link = .down) : wire (declareSettled k s) = wire s := by
  have htke : (declareSettled k s).tke = (evaluateSelectors s).tke := by simp [declareSettled, handOverMap]
  rw [wire_of htke, evaluateSelectors_wire h]

theorem xpeBoundary_wire {s : State} (h : s.tke.link = .down) : wire (xpeBoundary s) = wire s := by
  unfold xpeBoundary
  split
  · split <;> rfl
  · split
    · rfl
    · exact declareSettled_wire _ h

/-- The retry at the boundary is made by the queue as the boundary finds it. -/
theorem scalerBoundary_wire (gpi : BitVec 16) {s : State} (h : s.tke.link = .down) :
    wire (scalerBoundary gpi s) = (.down, s.tke.fails, retried s) := by
  have hbefore : ∀ u : State, wire (sampleInputs gpi (compareCues (nextFrame (endFlashes (examineKeys u))))) = wire u ∧
      (sampleInputs gpi (compareCues (nextFrame (endFlashes (examineKeys u))))).tke.queue = u.tke.queue ∧
      (sampleInputs gpi (compareCues (nextFrame (endFlashes (examineKeys u))))).runState = u.runState := by
    intro u
    have htke : (sampleInputs gpi (compareCues (nextFrame (endFlashes (examineKeys u))))).tke = (examineKeys u).tke := by simp
    have hexamined : wire (examineKeys u) = wire u ∧ (examineKeys u).tke.queue = u.tke.queue := by
      unfold examineKeys
      split <;> simp only [wire, and_self]
    exact ⟨(wire_of htke).trans hexamined.1, by rw [htke, hexamined.2], by simp⟩
  have hretry : ∀ u : State, u.tke.link = .down → wire (tkeBoundary u) = (.down, u.tke.fails, retried u) := by
    intro u hu
    unfold tkeBoundary talkRetry retried
    by_cases hc : u.tke.flight = none ∧ u.runState ≠ .halted
    · rw [if_pos ⟨hu, hc⟩, if_pos hc]
      simp only [wire, hu] <;> cases u.tke.queue <;> rfl
    · rw [if_neg fun h => hc h.2, if_neg hc]
      simp only [wire, hu]
  generalize hz : s.setRtu { s.rtu with now := s.rtu.now + (s.rtu.rate.period - s.rtu.count), count := 0 } = z
  have hztke : z.tke = s.tke := by rw [← hz]; rfl
  have hzrun : z.runState = s.runState := by rw [← hz]; rfl
  obtain ⟨hwire, hqueue, hrun⟩ := hbefore z
  rw [scalerBoundary, hz, makeBoundary]
  generalize sampleInputs gpi (compareCues (nextFrame (endFlashes (examineKeys z)))) = y at hwire hqueue hrun
  rw [wire_of hztke] at hwire
  simp only [wire, Prod.mk.injEq, h] at hwire
  obtain ⟨hlink, hfails, hflight⟩ := hwire
  have hdown := hretry y hlink
  have htimers : wire (probeDue (tickTimers (tkeBoundary y))) = wire (tkeBoundary y) := wire_of (by simp)
  rw [xpeBoundary_wire (by simpa [wire] using congrArg Prod.fst hdown), htimers, hdown, hfails, retried, retried, hflight, hqueue, hrun, hztke, hzrun]

/-- Settles O58: the answers by the link's state, the failures by their count, and the retry by what is in flight. -/
theorem talkLinkAnswers : Obligations.TalkLinkAnswers := by
  unfold Obligations.TalkLinkAnswers
  intro s sent
  have hack : ∀ f, s.tke.flight = some f → exec .ack s = .next (examineHalting (talkAcknowledged s)) := by
    intro f hf
    change Host.Outcome.next (examinedAfter s.tke.flight.isSome talkAcknowledged s) = _
    simp [examinedAfter, hf]
  refine ⟨fun e h rest hflight hlink hqueue => ?_, fun f hflight hlink => ?_, rfl, fun c hc => ?_⟩
  · intro queue
    rw [hack _ hflight, talkAcknowledged_up hflight hlink]
    have hdrop : afterFlight (.write e) s.tke.queue = queue := by simp [afterFlight, dropWritten, hqueue, queue]
    rw [hdrop]
    rfl
  · obtain ⟨htke, hrtu, hxpe, htly, hpnc, hrun, hjournal⟩ := talkLinkUp_landed f s
    obtain ⟨hcsi, hstore⟩ := journal_eq hjournal
    have hexec : exec .ack s = .next (examineHalting (talkSend (fullRefresh (talkLinkUp (landFlight f s))))) := by
      rw [hack f hflight, talkAcknowledged_down hflight hlink]
    generalize talkLinkUp (landFlight f s) = z at htke hrtu hxpe htly hpnc hrun hcsi hstore hexec
    obtain ⟨q, hsent, hxpts, hfeeds⟩ := talkSend_refreshes (s := z) (by rw [htke]) (by rw [htke])
    rw [hsent] at hexec
    refine ⟨_, hexec, ?_⟩
    simp only [htke] at hxpts hfeeds ⊢
    refine ⟨trivial, trivial, hxpts, hfeeds, trivial, trivial, hcsi, hstore, ?_, trivial, trivial, hrtu, hxpe, htly, hpnc⟩
    simp only [nextFlight, hrun, sent] <;> cases q <;> rfl
  · have hfail : exec c s = .next (examinedAfter s.tke.flight.isSome talkFailed s) := by rcases hc with rfl | rfl <;> rfl
    refine ⟨fun f hflight hlink hfails => ?_, fun f hflight hlink hfails => ?_, fun f hflight hlink => ?_, fun hflight => ?_,
      fun gpi hlink => ?_⟩
    · rw [hfail, hflight, Option.isSome_some, examinedAfter, if_pos rfl, talkFailed_again hflight hlink hfails]
      rfl
    · rw [hfail, hflight, Option.isSome_some, examinedAfter, if_pos rfl, talkFailed_third hflight hlink hfails]
      have hjournal : journal (reportNow (.talkLink .down) { s with tke := { s.tke with flight := none, fails := 0, link := .down } }) =
          journal (report (.talkLink .down) s.rtu.frame s.rtu.label s) := report_journal (by rfl) _ _ _
      obtain ⟨hcsi, hstore⟩ := journal_eq hjournal
      exact ⟨_, rfl, hcsi, hstore, by simp⟩
    · rw [hfail, hflight, Option.isSome_some, examinedAfter, if_pos rfl, talkFailed_down hflight hlink]
    · rw [hfail, hflight]
      exact ⟨congrArg Host.Outcome.next (by simpa [examinedAfter] using (by simp [talkFailed, hflight] : talkFailed s = s)),
        congrArg Host.Outcome.next (takeAck_unawaited hflight)⟩
    · have hwire := scalerBoundary_wire gpi hlink
      simp only [wire, Prod.mk.injEq] at hwire
      obtain ⟨hdown, hfails, hflight⟩ := hwire
      refine ⟨_, rfl, hdown, hfails, fun h => ?_, fun hf hr => ?_⟩
      · rw [hflight, retried, if_neg fun hc => h.elim (fun hn => hn hc.1) hc.2]
      · rw [hflight, retried, if_pos ⟨hf, hr⟩] <;> cases s.tke.queue <;> rfl

end Sys2Proof.Proofs.Links
end

