-- ==== Sys2Proof/Proofs/SalvoReads.lean ====
section
/-! SALVO_FIRE and SALVO_READ_DONE: a request that is refused, begun or waits, and the decision on a list that was read (O45). -/

namespace Sys2Proof.Proofs.Orders

open Sys2Proof Sys2Proof.Machine
open Sys2Proof.Proofs.Journal (journal journal_eq journal_of report_journal)
open Sys2Proof.Proofs.Strips (decideSalvo_barred decideSalvo_full decideSalvo_admitted tellSuperseded_owners guardsAfter_congr allLet_iff)
open Sys2Proof.Proofs.TalkKeyMoves (refuseKey_flashes)

/-! ### A refused request -/

/-- The KEY report of a refusal. -/
theorem refuseKey_journal (p : Fin 24) (k : Fin 48) (c : Code) (s : State) :
    journal (refuseKey p k c s) = journal (report (.key p k c.byte) s.rtu.frame s.rtu.label s) := by
  simp only [refuseKey, reportNow, relight_frame, setPanel_frame]
  exact report_journal (journal_of (by simp) (by simp)) _ _ _

/-- A request's refusal, told to who asked: only a key's panel changes but for the CSI, and the router's block does not. -/
def RefusedTo (y : FireRequest) (code : Code) (byte : Byte) (u w : State) : Prop := w.xpe = u.xpe ∧
  (∀ r f, y.origin = .order → u.csi.running = some r → r.waiting = some f → w = finishOrder r code 0 f u) ∧
  (∀ n f l, y.origin = .cue n f l → w = report (.cue n byte) f l u) ∧
  (∀ p k, y.origin = .key p k → (w.panel p).timers[k] = 16 ∧ (w.panel p).image[k] = .flash ∧
    w.csi = (report (.key p k byte) u.rtu.frame u.rtu.label u).csi ∧ w.store = (report (.key p k byte) u.rtu.frame u.rtu.label u).store ∧
    w.tke = u.tke ∧ w.tly = u.tly ∧ w.rtu = u.rtu) ∧
  (y.origin = .orphan → w = u)

theorem fireOutcome_refused (y : FireRequest) {c : Code} (hc : c.isRefusal = true) (u : State) : RefusedTo y c c.byte u (fireOutcome y c 0 u) := by
  refine ⟨by simp, fun r f ho hr hw => ?_, fun n f l ho => ?_, fun p k ho => ?_, fun ho => ?_⟩
  · simp [fireOutcome, ho, hr, hw]
  · simp [fireOutcome, ho]
  · have hkey : fireOutcome y c 0 u = refuseKey p k c u := by simp [fireOutcome, ho, hc]
    rw [hkey]
    obtain ⟨hcsi, hstore⟩ := journal_eq (refuseKey_journal p k c u)
    exact ⟨(refuseKey_flashes p k c u).1, (refuseKey_flashes p k c u).2, hcsi, hstore, by simp⟩
  · simp [fireOutcome, ho]

/-! ### The reader's requests -/

/-- A record's list stands in the order window of the anchor copy. -/
theorem inOrderWindow_exists (s : State) (base size : Nat) : s.inOrderWindow base size = true ↔
    ∃ c, s.csi.copy = some c ∧ c.orders.base ≤ base ∧ base + size ≤ c.orders.base + c.orders.size := by
  cases hc : s.csi.copy with
  | none => simp [State.inOrderWindow, hc]
  | some c => simp [inOrderWindow_iff hc]

/-- With no request waiting the reader stays idle. -/
theorem fires_same {s : State} (h : s.xpe.fires = []) : { s with xpe := { s.xpe with fires := [] } } = s := by
  rw [← h]

/-- A request whose record is defined, with its list in the order window, is begun. -/
theorem beginReads_begun {y : FireRequest} {v : SalvoRecord} {s : State} (rest : List FireRequest) (hv : s.xpe.salvos[y.salvo] = some v)
    (hin : s.inOrderWindow v.address (16 * v.count) = true) : beginReads (y :: rest) s = { s with xpe := { s.xpe with
      reading := some { request := y, address := v.address, count := v.count, mark := s.replaced.length }, fires := rest } } := by
  unfold beginReads
  rw [hv]
  exact if_pos hin

/-- Any other request is refused, and the next is begun. -/
theorem beginReads_refused {y : FireRequest} {s : State} (rest : List FireRequest)
    (h : ∀ v, s.xpe.salvos[y.salvo] = some v → s.inOrderWindow v.address (16 * v.count) = false) :
    beginReads (y :: rest) s = beginReads rest (fireOutcome y .refusedSalvo 0 s) := by
  conv_lhs => unfold beginReads
  cases hv : s.xpe.salvos[y.salvo] with
  | none => rfl
  | some v =>
    dsimp only
    rw [if_neg (by rw [h v hv]; decide)]

/-! ### SALVO_FIRE -/

/-- The state of a strip whose order has begun to wait. -/
def waitsFrom (r : Running) (s : State) : State := { s with csi := { s.csi with running := some { r with waiting := some s.rtu.frame } } }

theorem markWaiting_running {s : State} {r : Running} (h : s.csi.running = some r) : markWaiting s = waitsFrom r s := by
  simp [markWaiting, waitsFrom, h]

/-- While a strip runs, HALTED is not entered. -/
theorem examineHalting_running {s : State} {r : Running} (h : s.csi.running = some r) : examineHalting s = s :=
  examineHalting_waits (by simp [State.mayHalt, h])

/-- An order's fire request that passes its own checks joins the reader's requests while the order waits. -/
theorem salvoFire_accepted {s : State} {r : Running} {rec : OrderRecord} {q : Requester} (h : s.working 11 r rec q) {n : Fin 16}
    (hn : ob rec 4 = n.1) {due : Option FrameIndex} (hdue : s.dueFixed rec due) :
    exec .salvoFire s = .next (examineHalting (fire { salvo := n, due := due, requester := q, cause := .salvo, origin := .order } (waitsFrom r s))) := by
  have hexec : exec .salvoFire s = .next (runOrder 11 salvoFire s) := rfl
  rw [hexec, runOrder_working h, takeAnswer, salvoFire, finOf_eq n hn]
  dsimp only
  rw [((dueFrame_terms s rec).1 due).mpr hdue, markWaiting_running (currentOrder_running h.1).1]

/-- A waiting order's request that is refused at once ends the order as one that never waited. -/
theorem waitsFrom_refused (r : Running) (s : State) (y : FireRequest) (ho : y.origin = .order) (c : Code) :
    fireOutcome y c 0 (waitsFrom r s) = finishOrder r c 0 s.rtu.frame s := by
  have hfinish : fireOutcome y c 0 (waitsFrom r s) = finishOrder { r with waiting := some s.rtu.frame } c 0 s.rtu.frame (waitsFrom r s) := by
    simp [fireOutcome, ho, waitsFrom]
  rw [hfinish, finishOrder_unmark, waitsFrom, finishOrder_running]

/-- SALVO_FIRE's checks and its admissions. -/
theorem salvoFire_clauses (s : State) (r : Running) (rec : OrderRecord) (q : Requester) (h : s.working 11 r rec q) :
    (16 ≤ ob rec 4 → exec .salvoFire s = .next (examineHalting (finishOrder r .refusedArg 0 s.rtu.frame s))) ∧
    ∀ n : Fin 16, ob rec 4 = n.1 →
      (∀ e, s.dueRefused rec e → exec .salvoFire s = .next (examineHalting (finishOrder r e 0 s.rtu.frame s))) ∧
      ∀ due, s.dueFixed rec due →
        let request : FireRequest := { salvo := n, due := due, requester := q, cause := .salvo, origin := .order }
        let waits := { s.csi with running := some { r with waiting := some s.rtu.frame } }
        (s.xpe.reading ≠ none → exec .salvoFire s = .next { s with csi := waits, xpe := { s.xpe with fires := s.xpe.fires ++ [request] } }) ∧
        (s.xpe.reading = none → s.xpe.fires = [] →
          (s.xpe.salvos[n] = none → exec .salvoFire s = .next (examineHalting (finishOrder r .refusedSalvo 0 s.rtu.frame s))) ∧
          ∀ x c, s.xpe.salvos[n] = some x → s.csi.copy = some c →
            let inside := c.orders.base ≤ x.address ∧ x.address + 16 * x.count ≤ c.orders.base + c.orders.size
            (¬ inside → exec .salvoFire s = .next (examineHalting (finishOrder r .refusedSalvo 0 s.rtu.frame s))) ∧
            (inside → exec .salvoFire s = .next { s with
              csi := waits
              xpe := { s.xpe with reading := some { request := request, address := x.address, count := x.count, mark := s.replaced.length } } })) := by
  refine ⟨fun h4 => order_refused h rfl (by rw [salvoFire, finOf_none.mpr h4]), fun n hn => ⟨fun e he => order_refused h rfl (by
    rw [salvoFire, finOf_eq n hn, ((dueFrame_terms s rec).2 e).mpr he]), fun due hdue => ?_⟩⟩
  intro request waits
  have haccepted := salvoFire_accepted h hn hdue
  refine ⟨fun hreading => ?_, fun hidle hfires => ?_⟩
  · obtain ⟨x, hx⟩ := Option.ne_none_iff_exists'.mp hreading
    have hfire : fire request (waitsFrom r s) = { waitsFrom r s with xpe := { s.xpe with fires := s.xpe.fires ++ [request] } } := by
      simp [fire, waitsFrom, hx]
    rw [haccepted, hfire, examineHalting_running rfl]
    rfl
  · have hfire : fire request (waitsFrom r s) = beginReads [request] (waitsFrom r s) := by simp [fire, waitsFrom, hidle, hfires]
    rw [hfire] at haccepted
    have hrefused : (∀ v, s.xpe.salvos[n] = some v → s.inOrderWindow v.address (16 * v.count) = false) →
        exec .salvoFire s = .next (examineHalting (finishOrder r .refusedSalvo 0 s.rtu.frame s)) := by
      intro hno
      rw [haccepted, beginReads_refused (y := request) (s := waitsFrom r s) [] hno, waitsFrom_refused r s request rfl, beginReads,
        fires_same (by simpa using hfires)]
    refine ⟨fun hnone => hrefused fun v hv => (nomatch hnone.symm.trans hv), fun x c hx hc => ?_⟩
    intro inside
    refine ⟨fun hout => hrefused fun v hv => ?_, fun hin => ?_⟩
    · rw [hx] at hv
      cases hv
      exact Bool.eq_false_iff.mpr fun ht => hout ((inOrderWindow_iff hc _ _).mp ht)
    · rw [haccepted, beginReads_begun (y := request) (s := waitsFrom r s) [] hx ((inOrderWindow_iff hc _ _).mpr hin), examineHalting_running rfl, ← hfires]
      rfl

/-! ### SALVO_READ_DONE -/

/-- The state in which the list that was read is decided. -/
def readIdle (s : State) : State := { s with xpe := { s.xpe with reading := none } }.readOver

theorem readIdle_leaves (s : State) : (readIdle s).xpe = { s.xpe with reading := none } ∧ (readIdle s).rtu = s.rtu ∧ (readIdle s).tly = s.tly ∧
    (readIdle s).tke = s.tke ∧ (readIdle s).pnc = s.pnc ∧ (readIdle s).csi = s.csi ∧ (readIdle s).store = s.store := by
  simp [readIdle]

/-- A finished read's decision goes to who asked, and the next request is begun. -/
theorem readDone_decided {s v : State} {x : SalvoRead} {c : Code} {n : Nat} (hx : s.xpe.reading = some x)
    (hd : decideRead x (s.salvoList x) (readIdle s) = (v, c, n)) (hfires : (fireOutcome x.request c n v).xpe.fires = s.xpe.fires) :
    exec .salvoReadDone s = .next (examineHalting (beginReads s.xpe.fires (fireOutcome x.request c n v))) := by
  have hexec : exec .salvoReadDone s = .next (examinedAfter s.xpe.reading.isSome finishRead s) := rfl
  have hfinish : finishRead s = beginReads s.xpe.fires (fireOutcome x.request c n v) := by
    unfold readIdle at hd
    simp only [finishRead, hx, hd, hfires]
  rw [hexec, hx, examinedAfter, Option.isSome_some, if_pos rfl, hfinish]

/-- A list that is a salvo of `s` is one of a state with the same destinations, with the same takes. -/
theorem salvo_congr {s t : State} (h : t.xpe.dests = s.xpe.dests) (list : List RawTake) :
    (t.isSalvo list ↔ s.isSalvo list) ∧ t.salvoTakes list = s.salvoTakes list ∧ ∀ d q, t.lets d q ↔ s.lets d q := by
  have hdest : ∀ d, t.dest d = s.dest d := fun d => by rw [State.dest, State.dest, h]
  have hkeeps : t.keepsLevel = s.keepsLevel := funext fun y => funext fun l => by rw [State.keepsLevel, State.keepsLevel, hdest]
  have htakes : t.salvoTakes list = s.salvoTakes list := by rw [State.salvoTakes, State.salvoTakes, hkeeps]
  refine ⟨?_, htakes, fun d q => by rw [State.lets, State.lets, hdest]⟩
  rw [State.isSalvo, State.isSalvo, hkeeps, htakes]

/-- A list that is no salvo is refused. -/
theorem decideRead_unsound {x : SalvoRead} {list : List RawTake} {s : State} (h : ¬ s.isSalvo list) :
    decideRead x list s = (s, .refusedSalvo, 0) := by
  rw [decideRead, (salvoEntries_terms s list).2 h]

/-- A list that is a salvo is decided against protects and the queue. -/
theorem decideRead_sound {x : SalvoRead} {list : List RawTake} {s : State} (h : s.isSalvo list) :
    decideRead x list s =
      decideSalvo (s.salvoTakes list) x.request.due x.request.requester x.request.cause (some x.request.salvo) s := by
  rw [decideRead, (salvoEntries_terms s list).1 h]

/-- A byte that a read found, in terms of the store and of what was written meanwhile. -/
theorem readByte_found (s : State) (mark a : Nat) :
    (s.readByte mark a).toNat = (storeRead s.store a).toNat ∨ ∃ b ∈ s.lostSince mark a, (s.readByte mark a).toNat = b.toNat :=
  (readByte_mem s mark a).imp (congrArg BitVec.toNat) fun h => ⟨_, h, rfl⟩

/-- The takes of a list that was read, by the bytes the read found. -/
theorem salvoList_get {s : State} {x : SalvoRead} {i : Nat} {y : RawTake} (h : (s.salvoList x)[i]? = some y) :
    y = { dest := (s.readByte x.mark (x.address + 16 * i)).toNat, mask := (s.readByte x.mark (x.address + 16 * i + 1)).toNat,
          source := (s.readByte x.mark (x.address + 16 * i + 2)).toNat } := by
  have hi : i < x.count := by
    have := (List.getElem?_eq_some_iff.mp h).1
    simpa [State.salvoList] using this
  simp only [State.salvoList, List.getElem?_map, List.getElem?_range hi, Option.map_some, Option.some.injEq] at h
  rw [← h]
  rfl

/-- An outcome changes neither the router's block nor the times, the tallies and the talk tables. -/
theorem fireOutcome_queued (y : FireRequest) (n : Nat) (v : State) :
    (fireOutcome y .queued n v).xpe = v.xpe ∧ (fireOutcome y .queued n v).tke = v.tke ∧ (fireOutcome y .queued n v).tly = v.tly ∧
    (fireOutcome y .queued n v).rtu = v.rtu ∧ (fireOutcome y .queued n v).pnc = v.pnc := by
  unfold fireOutcome
  cases y.origin with
  | order => cases v.csi.running <;> simp
  | key p k => simp [Code.isRefusal]
  | cue i f l => simp
  | orphan => simp

/-- SALVO_READ_DONE's refusals: the decision leaves the state, and who asked is told. -/
theorem readDone_refused {s : State} {x : SalvoRead} {c : Code} (hx : s.xpe.reading = some x) (hc : c.isRefusal = true)
    (hd : decideRead x (s.salvoList x) (readIdle s) = (readIdle s, c, 0)) :
    ∃ w, exec .salvoReadDone s = .next (examineHalting (beginReads s.xpe.fires w)) ∧ RefusedTo x.request c c.byte (readIdle s) w := by
  have hto := fireOutcome_refused x.request hc (readIdle s)
  exact ⟨_, readDone_decided hx hd (by rw [hto.1, (readIdle_leaves s).1]), hto⟩

/-- SALVO_READ_DONE's admission: one unit, the reports SUPERSEDED, the notices, and the outcome to who asked. -/
theorem readDone_admitted {s : State} {x : SalvoRead} (hx : s.xpe.reading = some x) {es : List Crosspoint}
    {unit : TakeUnit} (hentries : unit.entries = es) (howner : unit.requester = x.request.requester)
    (hd : decideRead x (s.salvoList x) (readIdle s) = ((admitUnit unit (readIdle s)).1, .queued, es.length))
    (hfits : entriesIn (s.queueWith unit) ≤ 64) :
    ∃ t v, exec .salvoReadDone s = .next (examineHalting (beginReads s.xpe.fires t)) ∧
      t.xpe = { s.xpe with reading := none, queue := s.queueWith unit } ∧ t.tke = s.tke ∧ t.tly = s.tly ∧ t.rtu = s.rtu ∧
      s.guardsAfter t x.request.requester.owner (fun d => ∃ y ∈ es, y.dest = d) ∧
      v.csi = (s.tellSuperseded es).csi ∧ v.store = (s.tellSuperseded es).store ∧
      (∀ r f, x.request.origin = .order → s.csi.running = some r → r.waiting = some f → t = finishOrder r .queued es.length f v) ∧
      (∀ n f l, x.request.origin = .cue n f l → t = report (.cue n 0x03) f l v) ∧
      ((∃ p k, x.request.origin = .key p k) ∨ x.request.origin = .orphan → t = v) := by
  obtain ⟨hxpe, hrtu, htly, htke, hpnc, hcsi, hstore⟩ := readIdle_leaves s
  have hqueue : (readIdle s).queueWith unit = s.queueWith unit := by rw [State.queueWith, State.queueWith, hxpe]
  obtain ⟨axpe, atold, aguards, arest⟩ := admitUnit_admitted (s := readIdle s) (u := unit) (by rw [hqueue]; exact hfits)
  have hrunning : (admitUnit unit (readIdle s)).1.csi.running = s.csi.running := by simp [hcsi]
  generalize hv : (admitUnit unit (readIdle s)).1 = v at hd axpe atold aguards arest hrunning
  obtain ⟨fxpe, ftke, ftly, frtu, fpnc⟩ := fireOutcome_queued x.request es.length v
  simp only [Prod.mk.injEq] at arest
  obtain ⟨-, -, artu, atly, atke⟩ := arest
  have htold : journal v = journal (s.tellSuperseded es) := by
    rw [atold, hentries, tellSuperseded_owners, tellSuperseded_owners, hxpe, hrtu]
    exact tellOwners_journal (journal_of hcsi hstore) _ _ _ _
  obtain ⟨vcsi, vstore⟩ := journal_eq htold
  refine ⟨fireOutcome x.request .queued es.length v, v, readDone_decided hx hd (by rw [fxpe, axpe, hxpe]), ?_, ftke.trans (atke.trans htke),
    ftly.trans (atly.trans htly), frtu.trans (artu.trans hrtu), ?_, vcsi, vstore, fun r f ho hr hw => ?_, fun n f l ho => ?_, fun ho => ?_⟩
  · rw [fxpe, axpe, hxpe, hqueue]
  · rw [howner, hentries] at aguards
    exact guardsAfter_congr hpnc.symm (by rw [fxpe, ftke, ftly, fpnc]) aguards
  · simp [fireOutcome, ho, hrunning, hr, hw]
  · simp [fireOutcome, ho, Code.byte]
  · rcases ho with ⟨p, k, ho⟩ | ho
    · simp [fireOutcome, ho, Code.isRefusal]
    · simp [fireOutcome, ho]

/-- Settles O45: an order's request is refused, begun or waits; a finished read is decided for who asked; and the next request is taken. -/
theorem salvoFireAndRead : Obligations.SalvoFireAndRead := by
  unfold Obligations.SalvoFireAndRead
  intro refusedTo
  refine ⟨salvoFire_clauses, fun s x hx => ?_, fun s => by rw [beginReads], fun s y rest => ?_, fun s h => ?_⟩
  · intro idle list es passes unit ends refused
    have hdests : (readIdle s).xpe.dests = s.xpe.dests := by rw [(readIdle_leaves s).1]
    obtain ⟨hsalvo, htakes, hlets⟩ := salvo_congr hdests list
    have hqueue : ∀ u, (readIdle s).queueWith u = s.queueWith u := fun u => by rw [State.queueWith, State.queueWith, (readIdle_leaves s).1]
    have hsound : s.isSalvo list → decideRead x list (readIdle s) =
        decideSalvo es x.request.due x.request.requester x.request.cause (some x.request.salvo) (readIdle s) := fun hs => by
      rw [decideRead_sound (hsalvo.mpr hs), htakes]
    have hpass : passes → ∀ y ∈ es, (readIdle s).lets y.dest x.request.requester := fun hp y hy => (hlets _ _).mpr (hp y hy)
    refine ⟨fun hs => readDone_refused hx rfl (decideRead_unsound (mt hsalvo.mp hs)), fun hs hp => readDone_refused hx rfl ?_,
      fun hs hp hfull => readDone_refused hx rfl ?_, fun hs hp hfits => ?_, by simp [list, State.salvoList], fun i y hy => ?_⟩
    · exact (hsound hs).trans (decideSalvo_barred fun hall => hp fun y hy => (hlets _ _).mp (hall y hy))
    · exact (hsound hs).trans (decideSalvo_full (hpass hp) (by rw [hqueue]; exact hfull))
    · exact readDone_admitted (unit := unit) hx rfl rfl ((hsound hs).trans (decideSalvo_admitted (hpass hp) (by rw [hqueue]; exact hfits))) hfits
    · intro a found
      have hbytes := salvoList_get hy
      refine ⟨hbytes ▸ readByte_found s x.mark a, hbytes ▸ readByte_found s x.mark (a + 1), hbytes ▸ readByte_found s x.mark (a + 2), fun hkept => ?_⟩
      rw [hbytes]
      exact ⟨congrArg BitVec.toNat (readByte_kept (hkept 0 (by decide))), congrArg BitVec.toNat (readByte_kept (hkept 1 (by decide))),
        congrArg BitVec.toNat (readByte_kept (hkept 2 (by decide)))⟩
  · intro inside
    refine ⟨fun v hv hin => beginReads_begun rest hv ((inOrderWindow_exists s _ _).mpr hin), fun hout => ?_⟩
    refine ⟨_, beginReads_refused rest fun v hv => Bool.eq_false_iff.mpr fun ht => hout v hv ((inOrderWindow_exists s _ _).mp ht),
      fireOutcome_refused y rfl s⟩
  · have hexec : exec .salvoReadDone s = .next (examinedAfter s.xpe.reading.isSome finishRead s) := rfl
    simp [hexec, h, examinedAfter, finishRead]

end Sys2Proof.Proofs.Orders
end

