-- ==== Sys2Proof/Proofs/PanelStates.lean ====
section
/-! Changes of a panel's state, probes and what a free link sends next (O55). -/

namespace Sys2Proof.Proofs.Panels

open Sys2Proof Sys2Proof.Machine
open Sys2Proof.Proofs.Journal (journal journal_eq journal_of report_journal)
open Sys2Proof.Proofs.Kept (enter_state leaveOnline_panel)
open Sys2Proof.Proofs.TalkKeyMoves (serveLink_panel)

/-! ### The PNC but for its panels -/

/-- The poll states of the links, the map reads and the flashes to end. -/
def wiring (s : State) : Vector PanelLink 4 × List MapRead × List (Fin 24 × Fin 48) := (s.pnc.links, s.pnc.mapReads, s.pnc.flashEnds)

theorem wiring_of {s t : State} (h : t.pnc = s.pnc) : wiring t = wiring s := by simp [wiring, h]

theorem setPanel_wiring (p : Fin 24) (x : Panel) (s : State) : wiring (s.setPanel p x) = wiring s := rfl

theorem relight_wiring (p : Fin 24) (which : Fin 48 → Bool) (s : State) : wiring (relight p which s) = wiring s := setPanel_wiring _ _ s

theorem derivePanel_wiring (p : Fin 24) (s : State) : wiring (derivePanel p s) = wiring s := by
  unfold derivePanel
  split
  · exact relight_wiring _ _ s
  · rfl

theorem relightTalk_wiring (p : Fin 24) (s : State) : wiring (relightTalk p s) = wiring s := by
  unfold relightTalk
  split
  · exact relight_wiring _ _ s
  · rfl

theorem derivation_wiring (s : State) : wiring (derivation s) = wiring s := by
  unfold derivation
  rw [forPanels_keeps wiring _ (fun p s => relightTalk_wiring p s)]
  exact wiring_of (by simp)

theorem forceOff_wiring (which : Fin 24 → Fin 48 → Bool) (s : State) : wiring (forceOff which s) = wiring s := by
  unfold forceOff
  split
  · rw [derivation_wiring]
    exact wiring_of (by simp)
  · rfl

theorem leaveOnline_wiring (p : Fin 24) (s : State) : wiring (leaveOnline p s) = wiring s := by
  rw [leaveOnline, setPanel_wiring, forceOff_wiring]

/-! ### A change of a panel's state -/

/-- A panel record as leaving ONLINE leaves it, its lamps apart. -/
def left (x : Panel) : Panel :=
  { x with selection := { x.selection with preset := none, guard := false, walk := none }, timers := Vector.replicate 48 0, held := true }

/-- A panel record after a change of state, its lamps apart. -/
def turned (x : Panel) (st : PanelState) : Panel := if x.state = .online ∧ st ≠ .online then left (x.enter st) else x.enter st

/-- The change of state and the effects of leaving ONLINE, before the lamps of an ONLINE panel and the report. -/
def entered (p : Fin 24) (st : PanelState) (s : State) : State :=
  if (s.panel p).state = .online ∧ st ≠ .online then leaveOnline p (s.setPanel p ((s.panel p).enter st)) else s.setPanel p ((s.panel p).enter st)

theorem changePanel_eq (p : Fin 24) (st : PanelState) (s : State) :
    changePanel p st s = if st = (s.panel p).state then (if st = .online then derivePanel p (entered p st s) else entered p st s)
      else reportNow (.panel p st) (if st = .online then derivePanel p (entered p st s) else entered p st s) := rfl

theorem entered_still (p o : Fin 24) (st : PanelState) (s : State) :
    ((entered p st s).panel o).still = if p = o then (turned (s.panel p) st).still else (s.panel o).still := by
  have hset : ∀ x q, ((forceOff (ofPanel p) (s.setPanel p x)).panel q).still = if p = q then x.still else (s.panel q).still := by
    intro x q
    rw [forceOff_still, setPanel_panel]
    split <;> rfl
  unfold entered turned
  by_cases hc : (s.panel p).state = .online ∧ st ≠ .online
  · rw [if_pos hc, if_pos hc, leaveOnline_panel]
    by_cases ho : p = o
    · subst ho
      have hself := hset ((s.panel p).enter st) p
      rw [if_pos rfl] at hself
      rw [if_pos rfl, if_pos rfl]
      exact congrArg left hself
    · rw [if_neg ho, if_neg ho, hset, if_neg ho]
  · rw [if_neg hc, if_neg hc, setPanel_panel]
    split <;> rfl

theorem entered_frame (p : Fin 24) (st : PanelState) (s : State) : journal (entered p st s) = journal s ∧
    (entered p st s).rtu = s.rtu ∧ wiring (entered p st s) = wiring s := by
  unfold entered
  split
  · exact ⟨journal_of (by simp) (by simp), by simp, by rw [leaveOnline_wiring, setPanel_wiring]⟩
  · exact ⟨rfl, rfl, rfl⟩

/-- The lamps of an ONLINE panel are derived last. -/
theorem derived_frame (p o : Fin 24) (st : PanelState) (s : State) :
    let t := if st = .online then derivePanel p s else s
    (t.panel o).still = (s.panel o).still ∧ journal t = journal s ∧ t.rtu = s.rtu ∧ t.tke = s.tke ∧ wiring t = wiring s := by
  intro t
  by_cases h : st = .online
  · rw [show t = derivePanel p s from if_pos h]
    exact ⟨derivePanel_still p o s, journal_of (by simp) (by simp), by simp, by simp, derivePanel_wiring p s⟩
  · rw [show t = s from if_neg h]
    exact ⟨rfl, rfl, rfl, rfl, rfl⟩

theorem changePanel_still (p o : Fin 24) (st : PanelState) (s : State) :
    ((changePanel p st s).panel o).still = if p = o then (turned (s.panel p) st).still else (s.panel o).still := by
  have hderived := (derived_frame p o st (entered p st s)).1
  rw [entered_still] at hderived
  rw [changePanel_eq]
  split
  · exact hderived
  · rw [panel_of_pnc (reportNow_frame _ _).2.2.2.2.2.2.1]
    exact hderived

/-- A change of state makes a PANEL report, and nothing else a report. -/
theorem changePanel_journal (p : Fin 24) (st : PanelState) (s : State) :
    journal (changePanel p st s) = journal (if st = (s.panel p).state then s else report (.panel p st) s.rtu.frame s.rtu.label s) := by
  obtain ⟨-, hjournal, hrtu, -, -⟩ := derived_frame p p st (entered p st s)
  obtain ⟨ejournal, ertu, -⟩ := entered_frame p st s
  rw [changePanel_eq]
  split
  · exact hjournal.trans ejournal
  · rw [reportNow, hrtu, ertu]
    exact report_journal (hjournal.trans ejournal) _ _ _

theorem changePanel_wiring (p : Fin 24) (st : PanelState) (s : State) : wiring (changePanel p st s) = wiring s := by
  have hderived := (derived_frame p p st (entered p st s)).2.2.2.2
  rw [(entered_frame p st s).2.2] at hderived
  rw [changePanel_eq]
  split
  · exact hderived
  · rw [wiring_of (reportNow_frame _ _).2.2.2.2.2.2.1]
    exact hderived

theorem changePanel_tke_of_entered (p : Fin 24) (st : PanelState) (s : State) : (changePanel p st s).tke = (entered p st s).tke := by
  have hderived := (derived_frame p p st (entered p st s)).2.2.2.1
  rw [changePanel_eq]
  split
  · exact hderived
  · rw [(reportNow_frame _ _).2.2.2.2.2.1]
    exact hderived

/-- A change that does not leave ONLINE leaves the TKE. -/
theorem changePanel_tke {p : Fin 24} {st : PanelState} {s : State} (h : (s.panel p).state = .online → st = .online) :
    (changePanel p st s).tke = s.tke := by
  rw [changePanel_tke_of_entered, entered, if_neg fun hc => hc.2 (h hc.1)]
  simp

/-- A panel that leaves ONLINE has every key IDLE. -/
theorem changePanel_idle {p : Fin 24} {st : PanelState} {s : State} (h : (s.panel p).state = .online) (hst : st ≠ .online) (k : Fin 48) :
    (changePanel p st s).keyState p k = .idle := by
  rw [keyState_of_keys (congrArg Tke.keys (changePanel_tke_of_entered p st s)), entered, if_pos ⟨h, hst⟩]
  change (forceOff (ofPanel p) (s.setPanel p ((s.panel p).enter st))).keyState p k = .idle
  simp [ofPanel]

/-- Records that agree but for their lamps agree in every other field. -/
theorem fields_of_still {x y : Panel} (h : x.still = y.still) : x.state = y.state ∧ x.missed = y.missed ∧ x.bit = y.bit ∧
    x.full = y.full ∧ x.held = y.held ∧ x.selection = y.selection ∧ x.timers = y.timers ∧ x.enabled = y.enabled ∧ x.model = y.model :=
  ⟨(congrArg Panel.state h : x.still.state = y.still.state), (congrArg Panel.missed h : x.still.missed = y.still.missed),
    (congrArg Panel.bit h : x.still.bit = y.still.bit), (congrArg Panel.full h : x.still.full = y.still.full),
    (congrArg Panel.held h : x.still.held = y.still.held), (congrArg Panel.selection h : x.still.selection = y.still.selection),
    (congrArg Panel.timers h : x.still.timers = y.still.timers), (congrArg Panel.enabled h : x.still.enabled = y.still.enabled),
    (congrArg Panel.model h : x.still.model = y.still.model)⟩

/-! ### A panel moved by an answer or by silence -/

/-- A panel changed to a state, where there is one to change it to. -/
def moved (p : Fin 24) (target : Option PanelState) (s : State) : State := target.elim s fun st => changePanel p st s

/-- What a move leaves of everything but the panel that it moves, and its report. -/
structure Moved (p : Fin 24) (target : Option PanelState) (s t : State) : Prop where
  panel : (t.panel p).still = (target.elim (s.panel p) (turned (s.panel p))).still
  other : ∀ o, o ≠ p → (t.panel o).still = (s.panel o).still
  told : journal t = journal (target.elim s fun st => report (.panel p st) s.rtu.frame s.rtu.label s)
  wiring : wiring t = wiring s
  rest : t.xpe = s.xpe ∧ t.tly = s.tly ∧ t.rtu = s.rtu ∧ t.runState = s.runState

theorem moved_moves {p : Fin 24} {target : Option PanelState} {s : State} (hnew : target ≠ some (s.panel p).state) :
    Moved p target s (moved p target s) := by
  cases target with
  | none => exact ⟨rfl, fun _ _ => rfl, rfl, rfl, rfl, rfl, rfl, rfl⟩
  | some st =>
    have hst : st ≠ (s.panel p).state := fun h => hnew (congrArg some h)
    refine ⟨?_, fun o ho => ?_, ?_, changePanel_wiring p st s, by simp [moved]⟩
    · exact (changePanel_still p p st s).trans (if_pos rfl)
    · exact (changePanel_still p o st s).trans (if_neg (Ne.symm ho))
    · exact (changePanel_journal p st s).trans (by rw [if_neg hst]; rfl)

/-! ### Probes -/

/-- The state a probe's answer moves its panel to. -/
def probeTarget (s : State) (p : Fin 24) (code : BitVec 16) : Option PanelState :=
  if (s.panel p).enabled = true ∧ s.runState ≠ .halted then
    match (s.panel p).state with
    | .absent => some .joining
    | .lost => some .joining
    | .wrongModel => if code = (s.panel p).model then some .online else none
    | .joining => none
    | .online => none
  else none

theorem endMessage_panel (link : Fin 4) (s : State) (o : Fin 24) : (endMessage link s).panel o = s.panel o := rfl

theorem probeAnswer_moved {s : State} {link : Fin 4} {p : Fin 24} {ident : Bool} (hout : s.pnc.links[link].out = some (.probe p ident))
    (code : BitVec 16) :
    exec (.probeAnswer link (addressOf p) code) s = .next (serveLink link (moved p (probeTarget s p code) (endMessage link s))) := by
  change Host.Outcome.next (receiveProbeAnswer link (addressOf p) code s) = _
  unfold receiveProbeAnswer probeTarget
  rw [hout]
  dsimp only
  rw [if_pos rfl]
  by_cases hc : (s.panel p).enabled = true ∧ s.runState ≠ .halted
  · rw [if_pos hc, if_pos hc]
    cases hstate : (s.panel p).state with
    | wrongModel =>
      dsimp only
      unfold judge
      rw [endMessage_panel]
      by_cases hcode : code = (s.panel p).model
      · rw [if_pos hcode, if_pos hcode]
        rfl
      · rw [if_neg hcode, if_neg hcode, if_pos hstate]
        rfl
    | _ => rfl
  · rw [if_neg hc, if_neg hc]
    rfl

/-- A probe's answer moves its panel to another state. -/
theorem probeTarget_new (s : State) (p : Fin 24) (code : BitVec 16) : probeTarget s p code ≠ some (s.panel p).state := by
  unfold probeTarget
  split
  · cases h : (s.panel p).state <;> simp
  · simp

/-- What entering a state gives a record: JOINING clears the count and the bit. -/
theorem turned_fields (x : Panel) (st : PanelState) : (turned x st).state = st ∧
    (turned x st).missed = (if st = .joining then 0 else x.missed) ∧ (turned x st).bit = (if st = .joining then false else x.bit) := by
  unfold turned
  split <;> cases st <;> exact ⟨rfl, rfl, rfl⟩

/-- The state, count and bit of a panel that is moved. -/
theorem Moved.fields {p : Fin 24} {target : Option PanelState} {s t : State} (h : Moved p target s t) :
    (t.panel p).state = target.getD (s.panel p).state ∧
    (t.panel p).missed = (if target = some .joining then 0 else (s.panel p).missed) ∧
    (t.panel p).bit = (if target = some .joining then false else (s.panel p).bit) := by
  obtain ⟨hstate, hmissed, hbit, -⟩ := fields_of_still h.panel
  cases target with
  | none => exact ⟨hstate, hmissed, hbit⟩
  | some st =>
    obtain ⟨tstate, tmissed, tbit⟩ := turned_fields (s.panel p) st
    simp only [Option.some.injEq]
    exact ⟨hstate.trans tstate, hmissed.trans tmissed, hbit.trans tbit⟩

/-- The link's next message leaves every field of a record but the probe that was due. -/
theorem serveLink_fields (link : Fin 4) (s : State) (o : Fin 24) :
    ((serveLink link s).panel o).state = (s.panel o).state ∧ ((serveLink link s).panel o).missed = (s.panel o).missed ∧
    ((serveLink link s).panel o).bit = (s.panel o).bit ∧ ((serveLink link s).panel o).full = (s.panel o).full ∧
    ((serveLink link s).panel o).held = (s.panel o).held ∧ ((serveLink link s).panel o).selection = (s.panel o).selection ∧
    ((serveLink link s).panel o).image = (s.panel o).image ∧ ((serveLink link s).panel o).lampSet = (s.panel o).lampSet := by
  obtain ⟨due, h⟩ := serveLink_panel link s o
  rw [h]
  exact ⟨rfl, rfl, rfl, rfl, rfl, rfl, rfl, rfl⟩

/-- What a poll or probe that ends leaves, with the panel that it moved. -/
theorem served_moved {link : Fin 4} {p : Fin 24} {target : Option PanelState} {s m : State} (h : Moved p target s m) :
    ((serveLink link m).panel p).state = target.getD (s.panel p).state ∧
    ((serveLink link m).panel p).missed = (if target = some .joining then 0 else (s.panel p).missed) ∧
    ((serveLink link m).panel p).bit = (if target = some .joining then false else (s.panel p).bit) ∧
    journal (serveLink link m) = journal (target.elim s fun st => report (.panel p st) s.rtu.frame s.rtu.label s) ∧
    (∀ o, o ≠ p → ((serveLink link m).panel o).state = (s.panel o).state ∧ ((serveLink link m).panel o).missed = (s.panel o).missed ∧
      ((serveLink link m).panel o).bit = (s.panel o).bit) ∧
    (serveLink link m).xpe = s.xpe ∧ (serveLink link m).tly = s.tly ∧ (serveLink link m).rtu = s.rtu ∧ (serveLink link m).runState = s.runState := by
  obtain ⟨sstate, smissed, sbit, -⟩ := serveLink_fields link m p
  obtain ⟨mstate, mmissed, mbit⟩ := h.fields
  refine ⟨sstate.trans mstate, smissed.trans mmissed, sbit.trans mbit, ?_, fun o ho => ?_, by simp [h.rest]⟩
  · exact (journal_of (by simp) (by simp)).trans h.told
  · obtain ⟨ostate, omissed, obit, -⟩ := serveLink_fields link m o
    obtain ⟨kstate, kmissed, kbit, -⟩ := fields_of_still (h.other o ho)
    exact ⟨ostate.trans kstate, omissed.trans kmissed, obit.trans kbit⟩

/-- A report told of a state with one message ended is one told of the state. -/
theorem endMessage_told (link : Fin 4) (p : Fin 24) (target : Option PanelState) (s : State) :
    journal (target.elim (endMessage link s) fun st => report (.panel p st) s.rtu.frame s.rtu.label (endMessage link s)) =
      journal (target.elim s fun st => report (.panel p st) s.rtu.frame s.rtu.label s) := by
  have h : journal (endMessage link s) = journal s := journal_of (by simp) (by simp)
  cases target with
  | none => exact h
  | some st => exact report_journal h _ _ _

section
variable {s : State} {p : Fin 24} {code : BitVec 16}

theorem probeTarget_unheard (h : ¬ ((s.panel p).enabled = true ∧ s.runState ≠ .halted)) : probeTarget s p code = none := if_neg h

theorem probeTarget_here (h : (s.panel p).state = .joining ∨ (s.panel p).state = .online) : probeTarget s p code = none := by
  unfold probeTarget
  rcases h with h | h <;> simp [h]

variable (hc : (s.panel p).enabled = true ∧ s.runState ≠ .halted)
include hc

theorem probeTarget_found (h : (s.panel p).state = .absent ∨ (s.panel p).state = .lost) : probeTarget s p code = some .joining := by
  rw [probeTarget, if_pos hc]
  rcases h with h | h <;> rw [h]

theorem probeTarget_judged (h : (s.panel p).state = .wrongModel) :
    probeTarget s p code = if code = (s.panel p).model then some .online else none := by
  rw [probeTarget, if_pos hc, h]

end

/-- A move that does not leave ONLINE leaves the TKE. -/
theorem moved_tke {p : Fin 24} {target : Option PanelState} {s : State} (h : (s.panel p).state = .online → target = none) :
    (moved p target s).tke = s.tke := by
  cases target with
  | none => rfl
  | some st => exact changePanel_tke fun ho => nomatch h ho

/-- An answered probe, clause by clause. -/
theorem probeAnswer_clauses {s : State} {link : Fin 4} {p : Fin 24} {ident : Bool} (hout : s.pnc.links[link].out = some (.probe p ident))
    (code : BitVec 16) : ∃ t, exec (.probeAnswer link (addressOf p) code) s = .next t ∧
        ((s.panel p).enabled = true → s.runState ≠ .halted → (s.panel p).state = .absent ∨ (s.panel p).state = .lost →
          (t.panel p).state = .joining ∧ (t.panel p).missed = 0 ∧ (t.panel p).bit = false) ∧
        ((s.panel p).enabled = true → s.runState ≠ .halted → (s.panel p).state = .wrongModel →
          (t.panel p).state = if code = (s.panel p).model then .online else .wrongModel) ∧
        (let told := (s.panel p).enabled = true ∧ s.runState ≠ .halted
          let made := if told ∧ ((s.panel p).state = .absent ∨ (s.panel p).state = .lost) then report (.panel p .joining) s.rtu.frame s.rtu.label s
            else if told ∧ (s.panel p).state = .wrongModel ∧ code = (s.panel p).model then report (.panel p .online) s.rtu.frame s.rtu.label s else s;
          t.csi = made.csi ∧ t.store = made.store) ∧
        (s.runState = .halted → ∀ o : Fin 24, (t.panel o).state = (s.panel o).state) ∧
        (∀ o : Fin 24, o ≠ p → (t.panel o).state = (s.panel o).state ∧ (t.panel o).missed = (s.panel o).missed) ∧
        t.tke = s.tke ∧ t.xpe = s.xpe ∧ t.tly = s.tly ∧ t.rtu = s.rtu ∧ t.runState = s.runState := by
  have hm := moved_moves (s := endMessage link s) (probeTarget_new s p code)
  have htke : (moved p (probeTarget s p code) (endMessage link s)).tke = s.tke := by
    have hmoved := moved_tke (s := endMessage link s) (target := probeTarget s p code) (p := p) fun ho => probeTarget_here (.inr ho)
    exact hmoved.trans (by simp)
  have hexec := probeAnswer_moved hout code
  generalize moved p (probeTarget s p code) (endMessage link s) = m at hm htke hexec
  obtain ⟨hstate, hmissed, hbit, htold, hothers, hrest⟩ := served_moved (link := link) hm
  refine ⟨_, hexec, fun he hr hs => ?_, fun he hr hs => ?_, ?_, fun hr o => ?_, fun o ho => ⟨(hothers o ho).1, (hothers o ho).2.1⟩, ?_⟩
  · have htarget := probeTarget_found (code := code) ⟨he, hr⟩ hs
    exact ⟨hstate.trans (by rw [htarget]; rfl), hmissed.trans (if_pos htarget), hbit.trans (if_pos htarget)⟩
  · rw [hstate, probeTarget_judged ⟨he, hr⟩ hs]
    split
    · rfl
    · exact hs
  · intro told made
    have hmade : journal (serveLink link m) = journal made := by
      refine htold.trans ((endMessage_told link p _ s).trans ?_)
      by_cases hc : told
      · by_cases hfound : (s.panel p).state = .absent ∨ (s.panel p).state = .lost
        · rw [show made = report (.panel p .joining) s.rtu.frame s.rtu.label s from if_pos ⟨hc, hfound⟩, probeTarget_found hc hfound]
          rfl
        · rw [show made = if told ∧ (s.panel p).state = .wrongModel ∧ code = (s.panel p).model
            then report (.panel p .online) s.rtu.frame s.rtu.label s else s from if_neg fun h => hfound h.2]
          by_cases hwrong : (s.panel p).state = .wrongModel
          · rw [probeTarget_judged hc hwrong]
            by_cases hcode : code = (s.panel p).model
            · rw [if_pos hcode, if_pos ⟨hc, hwrong, hcode⟩]
              rfl
            · rw [if_neg hcode, if_neg fun h => hcode h.2.2]
              rfl
          · have hhere : (s.panel p).state = .joining ∨ (s.panel p).state = .online := by
              cases h : (s.panel p).state <;> simp_all
            rw [probeTarget_here hhere, if_neg fun h => hwrong h.2.1]
            rfl
      · rw [show made = s from (if_neg fun h => hc h.1).trans (if_neg fun h => hc h.1), probeTarget_unheard hc]
        rfl
    exact journal_eq hmade
  · by_cases ho : o = p
    · subst ho
      rw [hstate, probeTarget_unheard fun h => h.2 hr]
      rfl
    · exact (hothers o ho).1
  · exact ⟨by simpa using htke, hrest.1, hrest.2.1, hrest.2.2.1, hrest.2.2.2⟩

/-- A panel's count of missed replies set to 3 changes no other field of any record, and nothing else. -/
theorem setMissed_panel (p o : Fin 24) (n : Nat) (s : State) :
    (setMissed p n s).panel o = if p = o then { s.panel p with missed := n } else s.panel o := setPanel_panel _ _ _ _

/-- A panel that is lost, from the state with its poll or probe ended. -/
theorem lost_moved {p : Fin 24} {s : State} (h : (s.panel p).state ≠ .lost) (link : Fin 4) :
    let t := serveLink link (changePanel p .lost (setMissed p 3 s))
    (t.panel p).state = .lost ∧ (t.panel p).missed = 3 ∧
    journal t = journal (report (.panel p .lost) s.rtu.frame s.rtu.label s) ∧
    (∀ o, o ≠ p → (t.panel o).state = (s.panel o).state ∧ (t.panel o).missed = (s.panel o).missed ∧ (t.panel o).bit = (s.panel o).bit) ∧
    t.xpe = s.xpe ∧ t.tly = s.tly ∧ t.rtu = s.rtu ∧ t.runState = s.runState := by
  intro t
  have hself : (setMissed p 3 s).panel p = { s.panel p with missed := 3 } := by rw [setMissed_panel, if_pos rfl]
  have hm := moved_moves (p := p) (target := some .lost) (s := setMissed p 3 s) (by
    rw [hself]
    exact fun he => h (Option.some.inj he).symm)
  obtain ⟨hstate, hmissed, -, htold, hothers, hxpe, htly, hrtu, hrun⟩ := served_moved (link := link) hm
  refine ⟨hstate, hmissed.trans ?_, htold.trans ?_, fun o ho => ?_, hxpe.trans (by simp), htly.trans (by simp), hrtu.trans (by simp), hrun.trans (by simp)⟩
  · rw [if_neg (by simp), hself]
  · exact report_journal (journal_of (by simp) (by simp)) _ _ _
  · have hsame : (setMissed p 3 s).panel o = s.panel o := by rw [setMissed_panel, if_neg (Ne.symm ho)]
    rw [← hsame]
    exact hothers o ho

/-- A probe that is not answered, clause by clause. -/
theorem probeTimeout_clauses {s : State} {link : Fin 4} {p : Fin 24} {ident : Bool} (hout : s.pnc.links[link].out = some (.probe p ident)) :
    ∃ t, exec (.probeTimeout link) s = .next t ∧
        (t.panel p).state = (if (s.panel p).state = .wrongModel ∧ (s.panel p).enabled = true ∧ s.runState ≠ .halted then .lost else (s.panel p).state) ∧
        ((s.panel p).state = .wrongModel → (s.panel p).enabled = true → s.runState ≠ .halted → (t.panel p).missed = 3) ∧
        (let made := if (s.panel p).state = .wrongModel ∧ (s.panel p).enabled = true ∧ s.runState ≠ .halted then report (.panel p .lost) s.rtu.frame s.rtu.label s else s;
          t.csi = made.csi ∧ t.store = made.store) ∧
        (∀ o : Fin 24, o ≠ p → (t.panel o).state = (s.panel o).state ∧ (t.panel o).missed = (s.panel o).missed) ∧
        t.tke = s.tke ∧ t.xpe = s.xpe ∧ t.tly = s.tly ∧ t.rtu = s.rtu ∧ t.runState = s.runState := by
  have hended : journal (endMessage link s) = journal s := journal_of (by simp) (by simp)
  have hexec : exec (.probeTimeout link) s = .next (serveLink link
      (if (s.panel p).state = .wrongModel ∧ (s.panel p).enabled = true ∧ s.runState ≠ .halted then changePanel p .lost (setMissed p 3 (endMessage link s))
        else endMessage link s)) := by
    change Host.Outcome.next (closeProbe link s) = _
    unfold closeProbe
    rw [hout]
  by_cases hc : (s.panel p).state = .wrongModel ∧ (s.panel p).enabled = true ∧ s.runState ≠ .halted
  · rw [if_pos hc] at hexec
    obtain ⟨hstate, hmissed, htold, hothers, hxpe, htly, hrtu, hrun⟩ := lost_moved (p := p) (s := endMessage link s)
      (by rw [endMessage_panel, hc.1]; nofun) link
    refine ⟨_, hexec, by rw [if_pos hc]; exact hstate, fun _ _ _ => hmissed, ?_, fun o ho => ⟨(hothers o ho).1, (hothers o ho).2.1⟩, ?_,
      hxpe.trans (by simp), htly.trans (by simp), hrtu.trans (by simp), hrun.trans (by simp)⟩
    · intro made
      rw [show made = report (.panel p .lost) s.rtu.frame s.rtu.label s from if_pos hc]
      exact journal_eq (htold.trans (report_journal hended _ _ _))
    · have htke := changePanel_tke (p := p) (st := .lost) (s := setMissed p 3 (endMessage link s)) fun ho => by
        rw [setMissed_panel, if_pos rfl, endMessage_panel] at ho
        exact nomatch hc.1.symm.trans ho
      simpa using htke
  · rw [if_neg hc] at hexec
    obtain ⟨hstate, -⟩ := serveLink_fields link (endMessage link s) p
    refine ⟨_, hexec, by rw [if_neg hc]; exact hstate, fun h1 h2 h3 => absurd ⟨h1, h2, h3⟩ hc, ?_, fun o _ => ?_, by simp, by simp, by simp, by simp, by simp⟩
    · intro made
      rw [show made = s from if_neg hc]
      simp
    · obtain ⟨ostate, omissed, -⟩ := serveLink_fields link (endMessage link s) o
      exact ⟨ostate, omissed⟩

/-! ### What a free link sends (R124, R128, R129) -/

/-- The first number of a range that passes a test. -/
theorem find_first {n : Nat} {f : Fin n → Bool} {i : Fin n} (hi : f i = true) (hfirst : ∀ j, j < i → f j = false) :
    (List.finRange n).find? f = some i := by
  refine List.find?_eq_some_iff_getElem.mpr ⟨hi, i.1, by simp, by simp, fun j hj => ?_⟩
  have hlt : j < n := hj.trans i.isLt
  simpa using hfirst ⟨j, hlt⟩ hj

theorem find_none {n : Nat} {f : Fin n → Bool} (h : ∀ i, f i = false) : (List.finRange n).find? f = none :=
  List.find?_eq_none.mpr fun i _ => by simp [h i]

section
variable {u : State} {link : Fin 4}

/-- A panel of the link that is due for a probe. -/
def dueAt (u : State) (link : Fin 4) (i : Fin 6) : Bool := (u.panel (panelAt link i)).probeDue && (u.panel (panelAt link i)).probed

theorem dueAt_iff (i : Fin 6) : dueAt u link i = true ↔ (u.panel (panelAt link i)).probeDue = true ∧ (u.panel (panelAt link i)).enabled = true ∧
    ((u.panel (panelAt link i)).state = .absent ∨ (u.panel (panelAt link i)).state = .lost ∨ (u.panel (panelAt link i)).state = .wrongModel) := by
  simp [dueAt, Panel.probed, or_assoc]

theorem polled_iff (x : Panel) : x.polled = true ↔ x.enabled = true ∧ (x.state = .joining ∨ x.state = .online) := by
  simp [Panel.polled]

theorem dueProbe_find : u.dueProbe link = if u.serving = true then ((List.finRange 6).find? (dueAt u link)).map (panelAt link) else none := by
  simp only [State.dueProbe, List.find?_map]
  rfl

theorem nextPoll_find : u.nextPoll link =
    ((List.finRange 6).find? fun n => (u.panel (panelAt link (u.pnc.links[link].round + n))).polled).map (u.pnc.links[link].round + ·) := by
  simp only [State.nextPoll, roundFrom, List.find?_map]
  rfl

/-- A link with a message outstanding, and any link in HALTED, sends nothing. -/
theorem serveLink_busy (h : u.pnc.links[link].out ≠ none ∨ u.runState = .halted) : serveLink link u = u :=
  if_neg fun hc => h.elim (fun hn => hn hc.1) hc.2

variable (hfree : u.pnc.links[link].out = none) (hrun : u.runState ≠ .halted)
include hfree hrun

/-- The probe that is due at the lowest address goes first. -/
theorem serveLink_probes {p : Fin 24} (h : u.dueProbe link = some p) : serveLink link u =
    (u.setPanel p { u.panel p with probeDue := false }).setLink link
      { u.pnc.links[link] with out := some (.probe p (decide ((u.panel p).state = .wrongModel))) } := by
  unfold serveLink
  rw [if_pos ⟨hfree, hrun⟩, h]

/-- With no probe due the round goes on. -/
theorem serveLink_polls (h : u.dueProbe link = none) {i : Fin 6} (hi : u.nextPoll link = some i) : serveLink link u =
    u.setLink link { out := some (.poll (panelAt link i) (decide ((u.panel (panelAt link i)).state = .joining)) (u.panel (panelAt link i)).bit
      (u.panel (panelAt link i)).sendsImage (u.panel (panelAt link i)).carries), round := i + 1 } := by
  unfold serveLink
  rw [if_pos ⟨hfree, hrun⟩, h, hi]

/-- With nobody to poll the link stays free. -/
theorem serveLink_rests (h : u.dueProbe link = none) (hi : u.nextPoll link = none) : serveLink link u = u := by
  unfold serveLink
  rw [if_pos ⟨hfree, hrun⟩, h, hi]

end

/-- The lamp states that a poll carries, key by key. -/
theorem carries_keys (x : Panel) : x.carries =
    (if ((!x.held) || Config.heldLampsSent) = false then [] else if x.full = true then List.finRange 48 else x.lampSet.take 16).map fun k => (k, x.image[k]) := by
  unfold Panel.carries Panel.sendsLamps
  cases (!x.held) || Config.heldLampsSent
  · rfl
  · cases x.full <;> rfl

/-- Settles O55: the answer and the silence by the panel's state, and the next message by the probes that are due and the round. -/
theorem probesFindPanels : Obligations.ProbesFindPanels := by
  unfold Obligations.ProbesFindPanels
  refine ⟨fun s link p ident hout => ⟨probeAnswer_clauses hout, fun a code ha => ?_, probeTimeout_clauses hout⟩, fun u link => ?_⟩
  · change Host.Outcome.next (receiveProbeAnswer link a code s) = _
    unfold receiveProbeAnswer
    rw [hout]
    exact congrArg Host.Outcome.next (if_neg ha)
  · intro x due polled
    refine ⟨serveLink_busy, fun hfree hrun => ⟨fun i hi hfirst => ?_, fun hnone => ?_⟩⟩
    · have hserving : u.serving = true := (serving_iff u).mpr hi.1
      refine serveLink_probes hfree hrun ?_
      rw [dueProbe_find, if_pos hserving, find_first (i := i) ((dueAt_iff i).mpr hi.2) fun j hj => Bool.eq_false_iff.mpr fun ht =>
        hfirst j hj ⟨hi.1, (dueAt_iff j).mp ht⟩]
      rfl
    · have hquiet : u.dueProbe link = none := by
        rw [dueProbe_find]
        split
        · rename_i hserving
          rw [find_none fun i => Bool.eq_false_iff.mpr fun ht => hnone i ⟨(serving_iff u).mp hserving, (dueAt_iff i).mp ht⟩]
          rfl
        · rfl
      refine ⟨fun n hn hfirst => ?_, fun hnobody => ?_⟩
      · intro i sends keys
        have hnext : u.nextPoll link = some i := by
          rw [nextPoll_find, find_first (i := n) ((polled_iff _).mpr hn) fun m hm => Bool.eq_false_iff.mpr fun ht => hfirst m hm ((polled_iff _).mp ht)]
          rfl
        rw [serveLink_polls hfree hrun hquiet hnext, carries_keys]
        rfl
      · refine serveLink_rests hfree hrun hquiet ?_
        rw [nextPoll_find, find_none fun n => Bool.eq_false_iff.mpr fun ht => hnobody _ ((polled_iff _).mp ht)]
        rfl

end Sys2Proof.Proofs.Panels
end

