-- ==== Sys2Proof/Proofs/Polls.lean ====
section
/-! Replies and polls that are not answered (O54). -/

namespace Sys2Proof.Proofs.Panels

open Sys2Proof Sys2Proof.Machine
open Sys2Proof.Proofs.Journal (journal journal_eq journal_of report_journal)
open Sys2Proof.Proofs.TalkKeyMoves (pollOver pollOver_takesAs)

/-! ### The events of a reply -/

/-- Events of keys 0..47 are the reply's. -/
theorem eventKeys_some {events : List KeyEvent} (h : ∀ e ∈ events, e.key.toNat < 48) :
    ∃ ev, eventKeys events = some ev ∧ ∀ x ∈ ev, ∃ e ∈ events, e.key.toNat = x.1.1 := by
  induction events with
  | nil => exact ⟨[], rfl, by simp⟩
  | cons e es ih =>
    obtain ⟨ev, hev, hkeys⟩ := ih fun x hx => h x (by simp [hx])
    have hlt := h e (by simp)
    refine ⟨(⟨e.key.toNat, hlt⟩, e.press) :: ev, ?_, fun x hx => ?_⟩
    · rw [eventKeys, finOf_eq ⟨e.key.toNat, hlt⟩ rfl, hev]
    · rcases List.mem_cons.mp hx with rfl | hx
      · exact ⟨e, by simp, rfl⟩
      · obtain ⟨y, hy, hk⟩ := hkeys x hx
        exact ⟨y, by simp [hy], hk⟩

/-- One key above 47 spoils the reply. -/
theorem eventKeys_none {events : List KeyEvent} (h : ∃ e ∈ events, 48 ≤ e.key.toNat) : eventKeys events = none := by
  induction events with
  | nil => simp at h
  | cons e es ih =>
    obtain ⟨x, hx, hk⟩ := h
    rw [eventKeys]
    rcases List.mem_cons.mp hx with rfl | hx
    · rw [finOf_ge hk]
    · rw [ih ⟨x, hx, hk⟩]
      cases finOf 48 e.key.toNat <;> rfl

section
variable {s : State} {link : Fin 4} {p : Fin 24} {ident b full : Bool} {carried : List (Fin 48 × Lamp)}
  (hout : s.pnc.links[link].out = some (.poll p ident b full carried))
include hout

/-- A reply to the poll outstanding, with its events. -/
theorem answeredPoll_taken {m : PanelReply} {ev : List (Fin 48 × Bool)} (haddress : m.address = addressOf p) (hecho : m.echo = b)
    (hcode : m.code.isSome = ident) (hlen : m.events.length ≤ 8) (hev : eventKeys m.events = some ev) :
    exec (.reply link m) s = .next (takeReply m.ahead link p ident full carried ev m.code s) := by
  change Host.Outcome.next (receiveReply link m s) = _
  have hanswers : s.answeredPoll link m = some (p, ident, full, carried, ev) := by
    unfold State.answeredPoll
    rw [hout]
    dsimp only
    rw [if_pos ⟨haddress, hecho, hcode, hlen⟩, hev]
    rfl
  unfold receiveReply
  rw [hanswers]

/-- A reply from another address, with another echo, too long, or with a key above 47 is not the poll's. -/
theorem reply_ignored {m : PanelReply} (h : m.address ≠ addressOf p ∨ m.echo ≠ b ∨ 8 < m.events.length ∨ ∃ e ∈ m.events, 48 ≤ e.key.toNat) :
    exec (.reply link m) s = .next s := by
  change Host.Outcome.next (receiveReply link m s) = _
  have hnone : s.answeredPoll link m = none := by
    unfold State.answeredPoll
    rw [hout]
    dsimp only
    split
    · rename_i hc
      obtain ⟨haddress, hecho, -, hlen⟩ := hc
      rcases h with h | h | h | h
      · exact absurd haddress h
      · exact absurd hecho h
      · exact absurd hlen (by omega)
      · rw [eventKeys_none h]
        rfl
    · rfl
  unfold receiveReply
  rw [hnone]

end

/-- The judgement of an identifying poll's reply moves a JOINING panel, outside HALTED. -/
def replyTarget (s : State) (p : Fin 24) (c : BitVec 16) : Option PanelState :=
  if (s.panel p).state = .joining ∧ s.runState ≠ .halted then some (if c = (s.panel p).model then .online else .wrongModel) else none

theorem takeReply_polled (ahead : Bool) (link : Fin 4) (p : Fin 24) (full : Bool) (carried : List (Fin 48 × Lamp)) (s : State) :
    takeReply ahead link p false full carried [] none s = serveLink link (pollOver link p full carried s) := rfl

theorem pollOver_self (link : Fin 4) (p : Fin 24) (full : Bool) (carried : List (Fin 48 × Lamp)) (s : State) :
    (pollOver link p full carried s).panel p = (s.panel p).confirmed full carried := setPanel_same _ _ _

theorem pollOver_other {p o : Fin 24} (h : o ≠ p) (link : Fin 4) (full : Bool) (carried : List (Fin 48 × Lamp)) (s : State) :
    (pollOver link p full carried s).panel o = s.panel o := (setPanel_panel _ _ _ _).trans (if_neg (Ne.symm h))

/-- An identifying poll's reply is judged, and its events are ignored. -/
theorem takeReply_judged (ahead : Bool) (link : Fin 4) (p : Fin 24) (full : Bool) (carried : List (Fin 48 × Lamp)) (ev : List (Fin 48 × Bool))
    (c : BitVec 16) (s : State) : takeReply ahead link p true full carried ev (some c) s =
      serveLink link (moved p (replyTarget s p c) (pollOver link p full carried s)) := by
  have hstate : ((pollOver link p full carried s).panel p).state = (s.panel p).state := by rw [pollOver_self]; rfl
  have hmodel : ((pollOver link p full carried s).panel p).model = (s.panel p).model := by rw [pollOver_self]; rfl
  have hrun : (pollOver link p full carried s).runState = s.runState := (pollOver_takesAs link p full carried s).runState
  change serveLink link (if ((pollOver link p full carried s).panel p).state = .joining ∧ (pollOver link p full carried s).runState ≠ .halted
    then judge p c (pollOver link p full carried s) else pollOver link p full carried s) = _
  rw [hstate, hrun]
  unfold replyTarget
  by_cases hc : (s.panel p).state = .joining ∧ s.runState ≠ .halted
  · rw [if_pos hc, if_pos hc, judge, hmodel, hstate]
    by_cases hcode : c = (s.panel p).model
    · rw [if_pos hcode, if_pos hcode]
      rfl
    · rw [if_neg hcode, if_neg hcode, if_neg (by rw [hc.1]; nofun)]
      rfl
  · rw [if_neg hc, if_neg hc]
    rfl

/-! ### Events that are ignored (R131) -/

theorem action_none {e : KeyEntry} (h : e.fn = .none) : e.action = .none := by
  simp [KeyEntry.action, KeyEntry.meaning, h]

/-- An event is ignored off ONLINE, outside SWEEP and RUNNING, and at a key without a function. -/
theorem keyEvent_ignored {p : Fin 24} {k : Fin 48} {s : State}
    (h : (s.panel p).state ≠ .online ∨ s.runState = .halting ∨ s.runState = .halted ∨ (s.panel p).map[k].fn = .none) (ahead press : Bool) :
    keyEvent ahead p k press s = s := by
  unfold keyEvent
  split
  · rename_i hc
    obtain ⟨hon, hserving⟩ := hc
    have hrun := (serving_iff s).mp hserving
    have hfn : (s.panel p).map[k].fn = .none := by
      rcases h with h | h | h | h
      · exact absurd hon h
      · simp [h] at hrun
      · simp [h] at hrun
      · exact h
    have haction : s.keyAction p k = .none := action_none hfn
    cases press
    · simp [keyRelease, haction]
    · simp [keyPress, haction]
  · rfl

theorem keyEvents_ignored {p : Fin 24} {s : State} {ev : List (Fin 48 × Bool)}
    (h : ∀ x ∈ ev, (s.panel p).state ≠ .online ∨ s.runState = .halting ∨ s.runState = .halted ∨ (s.panel p).map[x.1].fn = .none) (ahead : Bool) :
    ev.foldl (fun s e => keyEvent ahead p e.1 e.2 s) s = s := by
  induction ev with
  | nil => rfl
  | cons x ev ih =>
    rw [List.foldl_cons, keyEvent_ignored (h x (by simp))]
    exact ih fun y hy => h y (by simp [hy])

theorem takeReply_ignored {link : Fin 4} {p : Fin 24} {ident : Bool} {ev : List (Fin 48 × Bool)} {s : State}
    (h : ident = true ∨ ∀ x ∈ ev, (s.panel p).state ≠ .online ∨ s.runState = .halting ∨ s.runState = .halted ∨ (s.panel p).map[x.1].fn = .none)
    (ahead full : Bool) (carried : List (Fin 48 × Lamp)) (code : Option (BitVec 16)) :
    takeReply ahead link p ident full carried ev code s = takeReply ahead link p ident full carried [] code s := by
  cases ident with
  | true => rfl
  | false =>
    have hq := pollOver_takesAs link p full carried s
    have hall : ∀ x ∈ ev, ((pollOver link p full carried s).panel p).state ≠ .online ∨ (pollOver link p full carried s).runState = .halting ∨
        (pollOver link p full carried s).runState = .halted ∨ ((pollOver link p full carried s).panel p).map[x.1].fn = .none := by
      rw [hq.state, hq.runState, hq.map]
      exact h.resolve_left nofun
    exact congrArg (serveLink link) (keyEvents_ignored hall ahead)

/-! ### A reply without events -/

/-- The links of a state with one message ended. -/
theorem pollOver_links (link : Fin 4) (p : Fin 24) (full : Bool) (carried : List (Fin 48 × Lamp)) (s : State) :
    (pollOver link p full carried s).pnc.links = upd s.pnc.links link { s.pnc.links[link] with out := none } := rfl

theorem pollOver_rest (link : Fin 4) (p : Fin 24) (full : Bool) (carried : List (Fin 48 × Lamp)) (s : State) :
    journal (pollOver link p full carried s) = journal s ∧ (pollOver link p full carried s).xpe = s.xpe ∧
    (pollOver link p full carried s).tly = s.tly ∧ (pollOver link p full carried s).tke = s.tke ∧
    (pollOver link p full carried s).rtu = s.rtu ∧ (pollOver link p full carried s).runState = s.runState :=
  ⟨rfl, rfl, rfl, rfl, rfl, rfl⟩

theorem replyTarget_new (s : State) (p : Fin 24) (c : BitVec 16) : replyTarget s p c ≠ some (s.panel p).state := by
  unfold replyTarget
  split
  · rename_i h
    rw [h.1]
    split <;> nofun
  · nofun

/-- A confirmed key leaves the lamp set. -/
theorem mem_confirmed (x : Panel) (full : Bool) (carried : List (Fin 48 × Lamp)) (k : Fin 48) :
    k ∈ (x.confirmed full carried).lampSet ↔ k ∈ x.lampSet ∧ (k, x.image[k]) ∉ carried := by
  have hany : (carried.any fun c => decide (c.1 = k) && decide (c.2 = x.image[k])) = true ↔ (k, x.image[k]) ∈ carried := by
    simp only [List.any_eq_true, Bool.and_eq_true, decide_eq_true_eq]
    exact ⟨fun ⟨c, hc, h1, h2⟩ => by rwa [← h1, ← h2] at *, fun h => ⟨_, h, rfl, rfl⟩⟩
  simp only [Panel.confirmed, List.mem_filter, Bool.not_eq_true']
  rw [← Bool.not_eq_true, hany]

section
variable {s : State} {link : Fin 4} {p : Fin 24} {b full : Bool} {carried : List (Fin 48 × Lamp)}

/-- What every taken reply leaves of the panels and the other blocks, whatever its judgement. -/
theorem replied_moved {target : Option PanelState} (hnew : target ≠ some (s.panel p).state) (hjoin : target ≠ some .joining)
    (htke : (s.panel p).state = .online → target = none) :
    let t := serveLink link (moved p target (pollOver link p full carried s))
    (∃ u, t = serveLink link u ∧ u.pnc.links = upd s.pnc.links link { s.pnc.links[link] with out := none }) ∧
    (t.panel p).missed = 0 ∧ (t.panel p).bit = (!(s.panel p).bit) ∧ (t.panel p).state = target.getD (s.panel p).state ∧
    journal t = journal (target.elim s fun st => report (.panel p st) s.rtu.frame s.rtu.label s) ∧
    (∀ o : Fin 24, o ≠ p → (t.panel o).state = (s.panel o).state ∧ (t.panel o).missed = (s.panel o).missed ∧ (t.panel o).bit = (s.panel o).bit) ∧
    t.tke = s.tke ∧ t.xpe = s.xpe ∧ t.tly = s.tly ∧ t.rtu = s.rtu ∧ t.runState = s.runState := by
  intro t
  have hself := pollOver_self link p full carried s
  have hm := moved_moves (p := p) (target := target) (s := pollOver link p full carried s) (by rw [hself]; exact hnew)
  obtain ⟨hstate, hmissed, hbit, htold, hothers, hxpe, htly, hrtu, hrun⟩ := served_moved (link := link) hm
  obtain ⟨qjournal, qxpe, qtly, qtke, qrtu, qrun⟩ := pollOver_rest link p full carried s
  rw [if_neg hjoin, hself] at hmissed hbit
  refine ⟨⟨_, rfl, ?_⟩, hmissed, hbit, by rw [hstate, hself]; rfl, htold.trans ?_, fun o ho => ?_, ?_, hxpe.trans qxpe, htly.trans qtly,
    hrtu.trans qrtu, hrun.trans qrun⟩
  · exact (congrArg Prod.fst hm.wiring).trans (pollOver_links link p full carried s)
  · cases target with
    | none => exact qjournal
    | some st => exact report_journal qjournal _ _ _
  · rw [← pollOver_other ho link full carried s]
    exact hothers o ho
  · have hmoved := moved_tke (p := p) (target := target) (s := pollOver link p full carried s) (by rw [hself]; exact htke)
    exact ((serveLink_frame link _).2.2.2.2.2.1).trans (hmoved.trans qtke)

end

/-- A panel that becomes ONLINE is to be sent its whole image, and holds its lamps back no longer. -/
theorem changePanel_online (p : Fin 24) (s : State) :
    ((changePanel p .online s).panel p).full = true ∧ ((changePanel p .online s).panel p).held = false := by
  have hstill := (changePanel_still p p .online s).trans (if_pos rfl)
  rw [turned, if_neg fun h => h.2 rfl] at hstill
  obtain ⟨-, -, -, hfull, hheld, -⟩ := fields_of_still hstill
  exact ⟨hfull, hheld⟩

/-- A reply without events, clause by clause. -/
theorem reply_clauses {s : State} {link : Fin 4} {p : Fin 24} {ident b full : Bool} {carried : List (Fin 48 × Lamp)}
    (hout : s.pnc.links[link].out = some (.poll p ident b full carried)) (m : PanelReply) (haddress : m.address = addressOf p) (hecho : m.echo = b)
    (hcode : m.code.isSome = ident) (hevents : m.events = []) :
      ∃ t, exec (.reply link m) s = .next t ∧ (∃ u, t = serveLink link u ∧ u.pnc.links = upd s.pnc.links link { s.pnc.links[link] with out := none }) ∧
        (t.panel p).missed = 0 ∧ (t.panel p).bit = (!(s.panel p).bit) ∧
        (ident = false → t.csi = s.csi ∧ t.store = s.store ∧ (t.panel p).state = (s.panel p).state ∧ (t.panel p).full = ((s.panel p).full && !full) ∧
          (t.panel p).image = (s.panel p).image ∧ (t.panel p).selection = (s.panel p).selection ∧
          ∀ k : Fin 48, k ∈ (t.panel p).lampSet ↔ k ∈ (s.panel p).lampSet ∧ (k, (s.panel p).image[k]) ∉ carried) ∧
        (∀ c, m.code = some c → (t.panel p).state =
          (if (s.panel p).state = .joining ∧ s.runState ≠ .halted then (if c = (s.panel p).model then .online else .wrongModel)
            else (s.panel p).state) ∧
          (let made := if (s.panel p).state = .joining ∧ s.runState ≠ .halted
              then report (.panel p (if c = (s.panel p).model then .online else .wrongModel)) s.rtu.frame s.rtu.label s else s;
            t.csi = made.csi ∧ t.store = made.store) ∧
          ((s.panel p).state = .joining → s.runState ≠ .halted → c = (s.panel p).model → (t.panel p).full = true ∧ (t.panel p).held = false)) ∧
        (∀ o : Fin 24, o ≠ p → (t.panel o).state = (s.panel o).state ∧ (t.panel o).missed = (s.panel o).missed ∧
          (t.panel o).bit = (s.panel o).bit) ∧
        t.tke = s.tke ∧ t.xpe = s.xpe ∧ t.tly = s.tly ∧ t.rtu = s.rtu ∧ t.runState = s.runState := by
  have hexec := answeredPoll_taken hout (ev := []) haddress hecho hcode (by simp [hevents]) (by rw [hevents]; rfl)
  cases hm : m.code with
  | none =>
    rw [hm] at hexec hcode
    obtain rfl : ident = false := by simpa using hcode.symm
    rw [takeReply_polled] at hexec
    obtain ⟨hlinks, hmissed, hbit, hstate, htold, hothers, hrest⟩ := replied_moved (s := s) (link := link) (p := p) (full := full) (carried := carried)
      (target := none) nofun nofun fun _ => rfl
    obtain ⟨-, -, -, hfull, -, hselection, himage, hset⟩ := serveLink_fields link (pollOver link p full carried s) p
    rw [pollOver_self] at hfull hselection himage hset
    refine ⟨_, hexec, hlinks, hmissed, hbit, fun _ => ?_, nofun, hothers, hrest⟩
    obtain ⟨hcsi, hstore⟩ := journal_eq htold
    exact ⟨hcsi, hstore, hstate, hfull, himage, hselection, fun k => by rw [hset]; exact mem_confirmed _ full carried k⟩
  | some c =>
    rw [hm] at hexec hcode
    obtain rfl : ident = true := by simpa using hcode.symm
    rw [takeReply_judged] at hexec
    obtain ⟨hlinks, hmissed, hbit, hstate, htold, hothers, hrest⟩ := replied_moved (s := s) (link := link) (p := p) (full := full) (carried := carried)
      (replyTarget_new s p c) (by unfold replyTarget; split <;> [split; skip] <;> nofun) fun ho => if_neg fun h => by
        rw [h.1] at ho
        cases ho
    refine ⟨_, hexec, hlinks, hmissed, hbit, nofun, fun c' hc' => ?_, hothers, hrest⟩
    obtain rfl : c = c' := Option.some.inj hc'
    refine ⟨?_, ?_, fun hj hr hc => ?_⟩
    · rw [hstate, replyTarget]
      split <;> rfl
    · intro made
      have hmade : journal made = journal ((replyTarget s p c).elim s fun st => report (.panel p st) s.rtu.frame s.rtu.label s) := by
        unfold replyTarget
        by_cases hcond : (s.panel p).state = .joining ∧ s.runState ≠ .halted
        · rw [if_pos hcond, show made = _ from if_pos hcond]
          rfl
        · rw [if_neg hcond, show made = _ from if_neg hcond]
          rfl
      exact journal_eq (htold.trans hmade.symm)
    · have htarget : replyTarget s p c = some .online := by rw [replyTarget, if_pos ⟨hj, hr⟩, if_pos hc]
      obtain ⟨-, -, -, hfull, hheld, -⟩ := serveLink_fields link (moved p (replyTarget s p c) (pollOver link p full carried s)) p
      rw [htarget] at hfull hheld ⊢
      obtain ⟨ofull, oheld⟩ := changePanel_online p (pollOver link p full carried s)
      exact ⟨hfull.trans ofull, hheld.trans oheld⟩

/-! ### A poll without a reply -/

section
variable {s : State} {link : Fin 4} {p : Fin 24} {ident b full : Bool} {carried : List (Fin 48 × Lamp)}

/-- The state after a closed window, before the link's next message. -/
def windowClosed (link : Fin 4) (p : Fin 24) (s : State) : State :=
  if s.runState = .halted then endMessage link s
  else if (s.panel p).missed < 2 then setMissed p ((s.panel p).missed + 1) (endMessage link s)
  else changePanel p .lost (setMissed p 3 (endMessage link s))

theorem pollWindowClose_closed (hout : s.pnc.links[link].out = some (.poll p ident b full carried)) (hpolled : (s.panel p).polled = true) :
    exec (.pollWindowClose link) s = .next (serveLink link (windowClosed link p s)) := by
  change Host.Outcome.next (closePoll link s) = _
  unfold closePoll windowClosed
  rw [hout]
  dsimp only
  by_cases hh : s.runState = .halted
  · rw [if_neg fun h => h.2 hh, if_pos hh]
  · rw [if_pos ⟨hpolled, hh⟩, if_neg hh]
    by_cases hn : (s.panel p).missed < 2
    · rw [if_pos hn, if_pos (by omega)]
    · rw [if_neg hn, if_neg (by omega)]

theorem windowClosed_leaves (link : Fin 4) (p : Fin 24) (s : State) :
    (windowClosed link p s).pnc.links = upd s.pnc.links link { s.pnc.links[link] with out := none } ∧ (windowClosed link p s).xpe = s.xpe ∧
    (windowClosed link p s).tly = s.tly ∧ (windowClosed link p s).rtu = s.rtu ∧ (windowClosed link p s).runState = s.runState := by
  unfold windowClosed
  split
  · exact ⟨rfl, rfl, rfl, rfl, rfl⟩
  · split
    · exact ⟨rfl, rfl, rfl, rfl, rfl⟩
    · exact ⟨congrArg Prod.fst (changePanel_wiring p .lost (setMissed p 3 (endMessage link s))), by simp, by simp, by simp, by simp⟩

/-- A panel that was ONLINE and is lost. -/
theorem lost_offline (h : (s.panel p).state = .online) (link : Fin 4) :
    let t := serveLink link (changePanel p .lost (setMissed p 3 s))
    (∀ k : Fin 48, t.keyState p k = .idle) ∧ (t.panel p).held = true ∧
      (t.panel p).selection = { (s.panel p).selection with preset := none, guard := false, walk := none } := by
  intro t
  have hself : (setMissed p 3 s).panel p = { s.panel p with missed := 3 } := by rw [setMissed_panel, if_pos rfl]
  have hon : ((setMissed p 3 s).panel p).state = .online := by rw [hself]; exact h
  have hstill := (changePanel_still p p .lost (setMissed p 3 s)).trans (if_pos rfl)
  rw [turned, if_pos ⟨hon, nofun⟩, hself] at hstill
  obtain ⟨-, -, -, -, hheld, hselection, -⟩ := fields_of_still hstill
  obtain ⟨-, -, -, -, theld, tselection, -⟩ := serveLink_fields link (changePanel p .lost (setMissed p 3 s)) p
  refine ⟨fun k => ?_, theld.trans hheld, tselection.trans hselection⟩
  rw [keyState_of_keys (congrArg Tke.keys (serveLink_frame link _).2.2.2.2.2.1)]
  exact changePanel_idle (st := .lost) hon nofun k

end

/-- Settles O54: the reply by what the poll asked for, and the closed window by the count of misses. -/
theorem pollsAndReplies : Obligations.PollsAndReplies := by
  unfold Obligations.PollsAndReplies
  refine fun s link p ident b full carried hout => ⟨reply_clauses hout, fun m haddress hecho hcode hlen hkeys hignored => ?_,
    fun m h => reply_ignored hout h, fun henabled hstate => ?_⟩
  · obtain ⟨ev, hev, hfrom⟩ := eventKeys_some hkeys
    rw [answeredPoll_taken hout haddress hecho hcode hlen hev,
      answeredPoll_taken (m := { m with events := [] }) hout (ev := []) haddress hecho hcode (by simp) rfl]
    refine congrArg Host.Outcome.next (takeReply_ignored ?_ m.ahead full carried m.code)
    refine hignored.imp_right fun h x hx => ?_
    obtain ⟨e, he, hk⟩ := hfrom x hx
    rcases h with h | h | h | h
    · exact .inl h
    · exact .inr (.inl h)
    · exact .inr (.inr (.inl h))
    · exact .inr (.inr (.inr (h e he x.1 hk)))
  · have hexec := pollWindowClose_closed hout ((polled_iff _).mpr ⟨henabled, hstate⟩)
    obtain ⟨hlinks, hxpe, htly, hrtu, hrun⟩ := windowClosed_leaves link p s
    refine ⟨_, hexec, ⟨_, rfl, hlinks⟩, fun hr hn => ?_, fun hr hn => ?_, fun hr => ?_, by simp [hxpe], by simp [htly], by simp [hrtu], by simp [hrun]⟩
    · have hclosed : windowClosed link p s = setMissed p ((s.panel p).missed + 1) (endMessage link s) := by
        rw [windowClosed, if_neg hr, if_pos hn]
      obtain ⟨tstate, tmissed, -⟩ := serveLink_fields link (windowClosed link p s) p
      rw [hclosed, setMissed_panel, if_pos rfl] at tstate tmissed
      rw [hclosed]
      exact ⟨tmissed, tstate, by simp, by simp, by simp⟩
    · have hclosed : windowClosed link p s = changePanel p .lost (setMissed p 3 (endMessage link s)) := by
        rw [windowClosed, if_neg hr, if_neg (by omega)]
      have hnotlost : ((endMessage link s).panel p).state ≠ .lost := by
        rw [endMessage_panel]
        rcases hstate with h | h <;> rw [h] <;> nofun
      obtain ⟨lstate, lmissed, ltold, -⟩ := lost_moved hnotlost link
      have htold : journal (endMessage link s) = journal s := journal_of (by simp) (by simp)
      rw [hclosed]
      refine ⟨lmissed, lstate, journal_eq (ltold.trans (report_journal htold _ _ _)) |>.1, journal_eq (ltold.trans (report_journal htold _ _ _)) |>.2,
        fun hon => lost_offline (s := endMessage link s) hon link⟩
    · have hclosed : windowClosed link p s = endMessage link s := if_pos hr
      rw [hclosed, serveLink_busy (.inr (by simpa using hr))]
      rfl

end Sys2Proof.Proofs.Panels
end

