-- ==== Sys2Proof/Proofs/TalkOrders.lean ====
section
/-! PORT_SET, GROUP_SET, IFB_SET and TALK_FORCE (O48). -/

namespace Sys2Proof.Proofs.Orders

open Sys2Proof Sys2Proof.Machine
open Sys2Proof.Proofs.TalkKeyMoves (setKey_keyState setKey_derived)

/-! ### Talk tables -/

/-- A force-off leaves the tables that orders write. -/
theorem forceOff_talk (w : Fin 24 → Fin 48 → Bool) (s : State) : (forceOff w s).tke.ports = s.tke.ports ∧
    (forceOff w s).tke.groups = s.tke.groups ∧ (forceOff w s).tke.ifbs = s.tke.ifbs := by
  unfold forceOff
  split
  · simp [idleKeys]
  · exact ⟨rfl, rfl, rfl⟩

/-- A clamped number is the nearest in the range. -/
theorem clampInt_eq {lo hi : Int} (h : lo ≤ hi) (x : Int) : clampInt lo hi x = max lo (min hi x) := by
  unfold clampInt
  split
  · omega
  · split <;> omega

/-- No number is clamped just in the range. -/
theorem clampedCount_eq {lo hi : Int} (h : lo ≤ hi) (x : Int) : clampedCount lo hi x = if lo ≤ x ∧ x ≤ hi then 0 else 1 := by
  unfold clampedCount
  rw [clampInt_eq h]
  by_cases hx : lo ≤ x ∧ x ≤ hi
  · rw [if_pos hx, if_pos (by omega)]
  · rw [if_neg hx, if_neg (by omega)]

/-- A defined record other than the excepted ones names a port. -/
theorem namedByIfb_iff (s : State) (p : Fin 32) (other : Fin 8 → Bool) :
    s.namedByIfb p other = true ↔ ∃ i, other i = true ∧ s.tke.ifbs[i].port = some p := by
  simp [State.namedByIfb]

/-! ### PORT_SET -/

section
variable {s : State} {r : Running} {rec : OrderRecord} {q : Requester}

/-- PORT_SET's new ports, and the force-off that a port which becomes an IFB port brings. -/
def portChanged (p : Fin 32) (x : Port) (s : State) : State :=
  let s1 := { s with tke := { s.tke with ports := upd s.tke.ports p x } }
  if x.kind = .ifb then forceOff (fun q _ => decide ((s.panel q).station = some p)) s1 else s1

theorem portSet_checked {p : Fin 32} {x : Port} {n : Nat} (h : portSetArgs rec = some (p, x, n)) :
    portSet q rec s = if x.kind ≠ .ifb ∧ s.namedByIfb p (fun _ => true) = true then refused .refusedArg s
      else doneClamped n (derivation (portChanged p x s)) := by
  rw [portSet, h]
  rfl

/-- What PORT_SET leaves: its port, the other tables, and every key but those of the panels stationed on a new IFB port. -/
theorem portChanged_leaves (p : Fin 32) (x : Port) (s : State) : let t := derivation (portChanged p x s)
    t.tke.ports = upd s.tke.ports p x ∧ t.tke.groups = s.tke.groups ∧ t.tke.ifbs = s.tke.ifbs ∧
    (∀ (o : Fin 24) (k : Fin 48), t.keyState o k = if x.kind = .ifb ∧ (s.panel o).station = some p then .idle else s.keyState o k) ∧
    t.rtu = s.rtu ∧ t.xpe = s.xpe ∧ t.tly = s.tly ∧ t.csi = s.csi := by
  intro t
  generalize hs : ({ s with tke := { s.tke with ports := upd s.tke.ports p x } } : State) = s1
  have htke : s1.tke = { s.tke with ports := upd s.tke.ports p x } := by rw [← hs]
  have hrest : s1.rtu = s.rtu ∧ s1.xpe = s.xpe ∧ s1.tly = s.tly ∧ s1.csi = s.csi := by rw [← hs]; exact ⟨rfl, rfl, rfl, rfl⟩
  have hkeys : ∀ o k, s1.keyState o k = s.keyState o k := keyState_of_keys (by rw [htke])
  have ht : t = derivation (if x.kind = .ifb then forceOff (fun q _ => decide ((s.panel q).station = some p)) s1 else s1) := by
    rw [← hs]
    rfl
  rw [ht]
  by_cases hk : x.kind = .ifb
  · rw [if_pos hk]
    obtain ⟨hports, hgroups, hifbs⟩ := forceOff_talk (fun q _ => decide ((s.panel q).station = some p)) s1
    refine ⟨by simp [hports, htke], by simp [hgroups, htke], by simp [hifbs, htke], fun o k => ?_, by simp [hrest]⟩
    rw [derivation_keyState, forceOff_keyState, hkeys]
    simp [hk]
  · rw [if_neg hk]
    refine ⟨by simp [htke], by simp [htke], by simp [htke], fun o k => ?_, by simp [hrest]⟩
    rw [derivation_keyState, hkeys, if_neg fun h => hk h.1]

/-! ### IFB_SET -/

/-- The selector that the map gives a record. -/
theorem selectorOf_iff (s : State) (i : Ifb) : (s.selectsD2 i → s.selectorOf i = .d2) ∧ (¬ s.selectsD2 i → s.selectorOf i = .d1) := by
  have hgives : ∀ (e : MapEntry) (own : Fin 128), e.gives = some (.input own) ↔ e.state ≠ .unknown ∧ e.source = .input own := by
    intro e own
    unfold MapEntry.gives
    split <;> simp_all
  unfold State.selectsD2 State.selectorOf Ifb.dest1 Ifb.dest2 Ifb.ownSource
  by_cases h1 : i.d1.toNat < 64
  · by_cases h2 : i.d2.toNat < 64
    · by_cases ho : i.own.toNat < 128
      · rw [finOf_eq ⟨i.d1.toNat, h1⟩ rfl, finOf_eq ⟨i.d2.toNat, h2⟩ rfl, finOf_eq ⟨i.own.toNat, ho⟩ rfl]
        have hiff : (i.d2.toNat < 64 ∧ ∃ (d : Fin 64) (own : Fin 128), i.d1.toNat = d.1 ∧ i.own.toNat = own.1 ∧ (s.dest d).present.getLsbD 1 = true ∧
            (s.dest d).entryA.state ≠ .unknown ∧ (s.dest d).entryA.source = .input own) ↔
            hasLevel s.xpe.dests[(⟨_, h1⟩ : Fin 64)].present .a = true ∧ s.xpe.dests[(⟨_, h1⟩ : Fin 64)].entryA.gives = some (.input ⟨_, ho⟩) := by
          rw [hgives]
          constructor
          · rintro ⟨-, d, own, hd, hown, hpresent, hstate, hsource⟩
            obtain rfl : d = ⟨_, h1⟩ := Fin.ext hd.symm
            obtain rfl : own = ⟨_, ho⟩ := Fin.ext hown.symm
            exact ⟨hpresent, hstate, hsource⟩
          · rintro ⟨hpresent, hstate, hsource⟩
            exact ⟨h2, _, _, rfl, rfl, hpresent, hstate, hsource⟩
        rw [hiff]
        exact ⟨fun h => if_pos h, fun h => if_neg h⟩
      · rw [finOf_eq ⟨i.d1.toNat, h1⟩ rfl, finOf_eq ⟨i.d2.toNat, h2⟩ rfl, finOf_ge (Nat.not_lt.mp ho)]
        exact ⟨fun ⟨_, _, own, _, hown, _⟩ => absurd (by rw [hown]; exact own.isLt) ho, fun _ => rfl⟩
    · rw [finOf_eq ⟨i.d1.toNat, h1⟩ rfl, finOf_ge (Nat.not_lt.mp h2)]
      exact ⟨fun h => absurd h.1 h2, fun _ => rfl⟩
  · rw [finOf_ge (Nat.not_lt.mp h1)]
    exact ⟨fun ⟨_, d, _, hd, _⟩ => absurd (hd ▸ d.isLt) h1, fun _ => rfl⟩

/-- IFB_SET's new record and the derivation that follows. -/
theorem setIfb_leaves {i : Fin 8} {x : Ifb} {s t : State} (ht : t = derivation (s.setIfb i x)) :
    t.tke.ifbs[i] = x ∧ (∀ j : Fin 8, j ≠ i → t.tke.ifbs[j] = s.tke.ifbs[j]) ∧ t.tke.keys = s.tke.keys ∧ t.tke.ports = s.tke.ports ∧
    t.rtu = s.rtu ∧ t.xpe = s.xpe ∧ t.tly = s.tly ∧ t.csi = s.csi := by
  obtain ⟨hports, -, hifbs, hkeys, -⟩ := derivation_talk (s.setIfb i x)
  have hset : (s.setIfb i x).tke.ifbs = upd s.tke.ifbs i x ∧ (s.setIfb i x).tke.ports = s.tke.ports ∧ (s.setIfb i x).tke.keys = s.tke.keys :=
    ⟨rfl, rfl, rfl⟩
  have hrest : t.rtu = s.rtu ∧ t.xpe = s.xpe ∧ t.tly = s.tly ∧ t.csi = s.csi := by simp [ht, State.setIfb]
  rw [← ht, hset.1] at hifbs
  rw [← ht] at hports hkeys
  refine ⟨?_, fun j hj => ?_, hkeys.trans hset.2.2, hports.trans hset.2.1, hrest⟩
  · rw [hifbs]
    simp
  · rw [hifbs]
    exact upd_other _ _ (Ne.symm hj)

/-- The fields of a defining IFB_SET whose numbers are in their ranges, and the port that its checks let through. -/
theorem ifbPort_given {i : Fin 8} {p : Fin 32} (h5 : ob rec 5 = p.1) (h6 : ob rec 6 < 64) (h7 : ob rec 7 = 254 ∨ ob rec 7 < 64)
    (h8 : ob rec 8 = 254 ∨ ob rec 8 < 128) : s.ifbPort i rec =
      if s.tke.ports[p].kind = .ifb ∧ s.namedByIfb p (fun j => decide (j ≠ i)) = false then some p else none := by
  have e7 : ∃ y, optionalOf 64 (ob rec 7) = some y := Option.ne_none_iff_exists'.mp fun hn => by
    obtain ⟨ha, hb⟩ := optionalOf_none.mp hn
    omega
  have e8 : ∃ y, optionalOf 128 (ob rec 8) = some y := Option.ne_none_iff_exists'.mp fun hn => by
    obtain ⟨ha, hb⟩ := optionalOf_none.mp hn
    omega
  obtain ⟨y7, e7⟩ := e7
  obtain ⟨y8, e8⟩ := e8
  simp only [State.ifbPort, finOf_eq p h5, finOf_eq ⟨ob rec 6, h6⟩ rfl, e7, e8, Option.bind_eq_bind, Option.bind_some]

/-- A number out of its range lets no port through. -/
theorem ifbPort_none {i : Fin 8} (h : 32 ≤ ob rec 5 ∨ 64 ≤ ob rec 6 ∨ (64 ≤ ob rec 7 ∧ ob rec 7 ≠ 254) ∨ (128 ≤ ob rec 8 ∧ ob rec 8 ≠ 254)) :
    s.ifbPort i rec = none := by
  unfold State.ifbPort
  rcases h5 : finOf 32 (ob rec 5) with _ | p
  · rfl
  rcases h6 : finOf 64 (ob rec 6) with _ | d
  · rfl
  rcases h7 : optionalOf 64 (ob rec 7) with _ | y
  · rfl
  rcases h8 : optionalOf 128 (ob rec 8) with _ | z
  · rfl
  have n5 : ¬ 32 ≤ ob rec 5 := by rw [← finOf_none, h5]; simp
  have n6 : ¬ 64 ≤ ob rec 6 := by rw [← finOf_none, h6]; simp
  have n7 : ¬ (64 ≤ ob rec 7 ∧ ob rec 7 ≠ 254) := by rw [← optionalOf_none, h7]; simp
  have n8 : ¬ (128 ≤ ob rec 8 ∧ ob rec 8 ≠ 254) := by rw [← optionalOf_none, h8]; simp
  tauto

/-- The stored level of an IFB record is the given one, clamped. -/
theorem ifbLevel_terms (p : Fin 32) (rec : OrderRecord) : (ifbFields p rec).level.toInt = max (-60) (min 0 (rec.getD 9 0).toInt) := by
  have hclamp : clampInt (-60) 0 (signedAt rec 9) = max (-60) (min 0 (rec.getD 9 0).toInt) := clampInt_eq (by decide) _
  rw [← hclamp]
  change (BitVec.ofInt 8 (clampInt (-60) 0 (signedAt rec 9))).toInt = _
  rw [BitVec.toInt_ofInt, hclamp]
  apply Int.bmod_eq_of_le <;> omega

/-- The stored interrupt depth is FULL or the given one, clamped. -/
theorem ifbDepth_terms (p : Fin 32) (rec : OrderRecord) :
    (ifbFields p rec).depth.toNat = if ob rec 10 = 255 then 255 else min 120 (ob rec 10) := by
  change (storedDepth (rec.getD 10 0)).toNat = if (rec.getD 10 0).toNat = 255 then 255 else min 120 (rec.getD 10 0).toNat
  generalize rec.getD 10 0 = x
  have hfull : x = 0xFF ↔ x.toNat = 255 := by rw [← BitVec.toNat_inj]; rfl
  unfold storedDepth
  by_cases h : x.toNat = 255
  · rw [if_pos (.inl (hfull.mpr h)), if_pos h, h]
  · by_cases hx : x.toNat ≤ 120
    · rw [if_pos (.inr hx), if_neg h]
      omega
    · rw [if_neg (by tauto), if_neg h]
      change 120 = _
      omega

/-- The number of clamped fields of an IFB_SET. -/
theorem ifbClamps_terms (rec : OrderRecord) : ifbClamps rec =
    (if -60 ≤ (rec.getD 9 0).toInt ∧ (rec.getD 9 0).toInt ≤ 0 then 0 else 1) + (if ob rec 10 ≤ 120 ∨ ob rec 10 = 255 then 0 else 1) := by
  have hdepth : ∀ x : Byte, storedDepth x = x ↔ x.toNat ≤ 120 ∨ x.toNat = 255 := by
    intro x
    have hfull : x = 0xFF ↔ x.toNat = 255 := by rw [← BitVec.toNat_inj]; rfl
    unfold storedDepth
    by_cases h : x = 0xFF ∨ x.toNat ≤ 120
    · rw [if_pos h]
      simp only [true_iff]
      tauto
    · rw [if_neg h, ← hfull, ← BitVec.toNat_inj]
      constructor
      · intro he
        exact absurd (.inr (by rw [← he]; decide)) h
      · tauto
  unfold ifbClamps
  rw [clampedCount_eq (by decide)]
  congr 1
  simp only [hdepth]
  rfl

/-! ### TALK_FORCE -/

/-- A force-off of one key: nothing where it is IDLE, else its derivation. -/
theorem forceOff_one (p : Fin 24) (k : Fin 48) (s : State) :
    (s.keyState p k = .idle → forceOff (oneKey p k) s = s) ∧ (s.keyState p k ≠ .idle → (forceOff (oneKey p k) s).talkDerived) := by
  have hbusy : anyBusy (oneKey p k) s = true ↔ s.keyState p k ≠ .idle := by
    simp only [anyBusy, oneKey, List.any_eq_true, List.mem_finRange, true_and, Bool.and_eq_true, decide_eq_true_eq]
    exact ⟨fun ⟨_, _, ⟨rfl, rfl⟩, h⟩ => h, fun h => ⟨p, k, ⟨rfl, rfl⟩, h⟩⟩
  refine ⟨fun h => ?_, fun h => ?_⟩
  · rw [forceOff, if_neg (by rw [hbusy]; exact not_not.mpr h)]
  · rw [forceOff, if_pos (hbusy.mpr h)]
    exact derivation_derived _

theorem setKey_same {p : Fin 24} {k : Fin 48} {st : KeyState} {s : State} (h : s.keyState p k = st) : setKey p k st s = s := if_pos h

theorem usableStation_iff (s : State) (p : Fin 24) :
    s.usableStation p = true ↔ ∃ a, (s.panel p).station = some a ∧ s.tke.ports[a].kind ≠ .ifb := by
  unfold State.usableStation
  cases (s.panel p).station <;> simp

/-- The arguments of a TALK_FORCE. -/
theorem talkForceArgs_given {p : Fin 24} {k : Fin 48} (h4 : ob rec 4 = p.1) (h5 : ob rec 5 = k.1) (h6 : ob rec 6 ≤ 1) :
    talkForceArgs rec = some (p, k, decide (ob rec 6 = 1)) := by
  have hflag : flagOf (ob rec 6) = some (decide (ob rec 6 = 1)) := by
    rcases (by omega : ob rec 6 = 0 ∨ ob rec 6 = 1) with h | h <;> simp [flagOf, h]
  rw [talkForceArgs, finOf_eq p h4, finOf_eq k h5, hflag]

theorem talkForceArgs_none (h : 24 ≤ ob rec 4 ∨ 48 ≤ ob rec 5 ∨ 2 ≤ ob rec 6) : talkForceArgs rec = none := by
  unfold talkForceArgs
  rcases h with h | h | h
  · rw [finOf_ge h]
  · rw [finOf_ge h]
    cases finOf 24 (ob rec 4) <;> rfl
  · have hflag : flagOf (ob rec 6) = none := by simp [flagOf, show ob rec 6 ≠ 0 by omega, show ob rec 6 ≠ 1 by omega]
    rw [hflag]
    cases finOf 24 (ob rec 4) <;> cases finOf 48 (ob rec 5) <;> rfl

/-- What a force leaves, ON or OFF. -/
theorem talkForced_clauses (p : Fin 24) (k : Fin 48) (on : Bool) (s : State) :
    let t := if on then setKey p k .latched s else forceOff (oneKey p k) s
    t.keyState p k = (if on then .latched else .idle) ∧
      (∀ (o : Fin 24) (j : Fin 48), (o, j) ≠ (p, k) → t.keyState o j = s.keyState o j) ∧
      (t.keyState p k ≠ s.keyState p k → t.talkDerived) ∧ (t.keyState p k = s.keyState p k → t = s) ∧
      t.rtu = s.rtu ∧ t.xpe = s.xpe ∧ t.tly = s.tly ∧ t.csi = s.csi := by
  cases on with
  | true =>
    intro t
    have hkey : ∀ o j, t.keyState o j = if (o, j) = (p, k) then .latched else s.keyState o j := fun o j => setKey_keyState p o k j .latched s
    refine ⟨(hkey p k).trans (if_pos rfl), fun o j h => (hkey o j).trans (if_neg h), fun h => ?_, fun h => ?_, by simp [t]⟩
    · rw [(hkey p k).trans (if_pos rfl)] at h
      exact setKey_derived (Ne.symm h)
    · rw [(hkey p k).trans (if_pos rfl)] at h
      exact setKey_same h.symm
  | false =>
    intro t
    have hkey : ∀ o j, t.keyState o j = if (o, j) = (p, k) then .idle else s.keyState o j := by
      intro o j
      refine (forceOff_keyState (oneKey p k) s o j).trans ?_
      simp [oneKey, Prod.ext_iff]
    obtain ⟨hidle, hbusy⟩ := forceOff_one p k s
    refine ⟨(hkey p k).trans (if_pos rfl), fun o j h => (hkey o j).trans (if_neg h), fun h => ?_, fun h => ?_, by simp [t]⟩
    · rw [(hkey p k).trans (if_pos rfl)] at h
      exact hbusy (Ne.symm h)
    · rw [(hkey p k).trans (if_pos rfl)] at h
      exact hidle h.symm

end

section
variable {s : State} {r : Running} {rec : OrderRecord} {q : Requester}

/-- IFB_SET with an undefining port byte. -/
theorem ifbSet_undefines (h : s.working 17 r rec q) {i : Fin 8} (h4 : ob rec 4 = i.1) (h5 : ob rec 5 = 254) :
    ∃ t, exec .ifbSet s = .next (examineHalting (finishOrder r .done 0 s.rtu.frame t)) ∧
        t.tke.ifbs[i] = { s.tke.ifbs[i] with port := none, d1 := rec.getD 6 0, d2 := rec.getD 7 0, own := rec.getD 8 0, level := rec.getD 9 0, depth := rec.getD 10 0 } ∧
        (∀ j : Fin 8, j ≠ i → t.tke.ifbs[j] = s.tke.ifbs[j]) ∧ t.tke.feeds[i] = ⟨none, 0, .d1⟩ ∧ t.talkDerived ∧ t.tke.keys = s.tke.keys ∧
        t.tke.ports = s.tke.ports ∧ t.rtu = s.rtu ∧ t.xpe = s.xpe ∧ t.tly = s.tly ∧ t.csi = s.csi := by
  generalize hx : ({ s.tke.ifbs[i] with port := none, d1 := rec.getD 6 0, d2 := rec.getD 7 0, own := rec.getD 8 0, level := rec.getD 9 0, depth := rec.getD 10 0 } : Ifb) = x
  have hport : x.port = none := by rw [← hx]
  have hblock : ifbSet q rec s = done (derivation (s.setIfb i x)) := by
    rw [ifbSet, finOf_eq i h4]
    dsimp only
    rw [if_pos h5, hx]
  have hderived := derivation_derived (s.setIfb i x)
  generalize ht : derivation (s.setIfb i x) = t at hblock hderived
  obtain ⟨hifb, hothers, hkeys, hports, hrtu, hrest⟩ := setIfb_leaves ht.symm
  have hfeed : t.tke.feeds[i] = ⟨none, 0, .d1⟩ := by
    obtain ⟨-, -, -, -, hfeeds⟩ := hderived
    exact (hfeeds i).1 (by rw [hifb]; exact hport)
  exact ⟨t, order_outcome h rfl hblock (by rw [hrtu]), hifb, hothers, hfeed, hderived, hkeys, hports, hrtu, hrest⟩

/-- IFB_SET with a port that its checks let through. -/
theorem ifbSet_defines (h : s.working 17 r rec q) {i : Fin 8} (h4 : ob rec 4 = i.1) {p : Fin 32} (h5 : ob rec 5 = p.1)
    (hport : s.ifbPort i rec = some p) :
    let n := (if -60 ≤ (rec.getD 9 0).toInt ∧ (rec.getD 9 0).toInt ≤ 0 then 0 else 1) + (if ob rec 10 ≤ 120 ∨ ob rec 10 = 255 then 0 else 1)
    ∃ t, exec .ifbSet s = .next (examineHalting (finishOrder r (if n = 0 then .done else .doneClamped) n s.rtu.frame t)) ∧
            t.tke.ifbs[i].port = some p ∧ t.tke.ifbs[i].d1.toNat = ob rec 6 ∧ t.tke.ifbs[i].d2.toNat = ob rec 7 ∧
            t.tke.ifbs[i].own.toNat = ob rec 8 ∧ t.tke.ifbs[i].level.toInt = max (-60) (min 0 (rec.getD 9 0).toInt) ∧
            t.tke.ifbs[i].depth.toNat = (if ob rec 10 = 255 then 255 else min 120 (ob rec 10)) ∧
            (s.selectsD2 t.tke.ifbs[i] → t.tke.ifbs[i].selector = .d2) ∧ (¬ s.selectsD2 t.tke.ifbs[i] → t.tke.ifbs[i].selector = .d1) ∧
            (∀ j : Fin 8, j ≠ i → t.tke.ifbs[j] = s.tke.ifbs[j]) ∧ t.talkDerived ∧ t.tke.keys = s.tke.keys ∧
            t.tke.ports = s.tke.ports ∧ t.rtu = s.rtu ∧ t.xpe = s.xpe ∧ t.tly = s.tly ∧ t.csi = s.csi := by
  intro n
  have hblock : ifbSet q rec s =
      doneClamped n (derivation (s.setIfb i { ifbFields p rec with selector := s.selectorOf (ifbFields p rec) })) := by
    rw [ifbSet, finOf_eq i h4]
    dsimp only
    rw [if_neg (by omega), hport, ifbClamps_terms]
  have hderived := derivation_derived (s.setIfb i { ifbFields p rec with selector := s.selectorOf (ifbFields p rec) })
  generalize ht : derivation (s.setIfb i { ifbFields p rec with selector := s.selectorOf (ifbFields p rec) }) = t at hblock hderived
  obtain ⟨hifb, hothers, hkeys, hports, hrtu, hrest⟩ := setIfb_leaves ht.symm
  refine ⟨t, order_outcome h rfl hblock (by rw [hrtu]), ?_⟩
  rw [hifb]
  exact ⟨rfl, rfl, rfl, rfl, ifbLevel_terms p rec, ifbDepth_terms p rec, (selectorOf_iff s (ifbFields p rec)).1, (selectorOf_iff s (ifbFields p rec)).2,
    hothers, hderived, hkeys, hports, hrtu, hrest⟩

end

/-- Settles O48: each order's arguments, its refusals, and the derivation that follows its write. -/
theorem talkOrders : Obligations.TalkOrders := by
  unfold Obligations.TalkOrders
  intro s r rec q
  refine ⟨fun h hr => order_refused h rfl (by rw [portSet, (portSetArgs_terms rec).2 hr]), fun h p x h4 h5 h9 h6 h7 h8 he hi => ?_,
    fun h h4 => order_refused h rfl (by rw [groupSet, finOf_ge h4]), fun h g h4 => ?_, fun h hr => ?_, fun h i h4 => ⟨ifbSet_undefines h h4, ?_⟩,
    fun h hr => order_refused h rfl (by rw [talkForce, talkForceArgs_none hr]), fun h p k h4 h5 => ?_⟩
  · intro n
    have hargs : portSetArgs rec = some (p, x, n) := (portSetArgs_terms rec).1 p x h4 h5 h9 h6 h7 h8 he hi
    have hchecked := portSet_checked (s := s) (q := q) hargs
    refine ⟨fun hk hnamed => ?_, fun hok => ?_⟩
    · obtain ⟨i, hi⟩ := hnamed
      rw [if_pos ⟨hk, (namedByIfb_iff s p _).mpr ⟨i, rfl, hi⟩⟩] at hchecked
      exact order_refused h rfl hchecked
    · rw [if_neg (by
        rintro ⟨hk, hnamed⟩
        obtain ⟨i, -, hi⟩ := (namedByIfb_iff s p _).mp hnamed
        rcases hok with hok | hok
        · exact hk hok
        · exact hok i hi)] at hchecked
      obtain ⟨hports, hgroups, hifbs, hkeys, hrtu, hrest⟩ := portChanged_leaves p x s
      exact ⟨_, order_outcome h rfl hchecked (by rw [hrtu]), hports, hgroups, hifbs, derivation_derived _, hkeys, hrtu, hrest⟩
  · obtain ⟨hports, hgroups, hifbs, hkeys, -⟩ :=
      derivation_talk { s with tke := { s.tke with groups := upd s.tke.groups g (BitVec.ofNat 32 (ob32 rec 8)) } }
    refine ⟨_, order_outcome h rfl (by rw [groupSet, finOf_eq g h4]; rfl) (by simp), hgroups, hports, hifbs, hkeys, derivation_derived _, ?_⟩
    simp
  · refine order_refused h rfl ?_
    rw [ifbSet]
    rcases hr with h4 | ⟨h5, hr⟩
    · rw [finOf_ge h4]
    · cases finOf 8 (ob rec 4) with
      | none => rfl
      | some i =>
        dsimp only
        rw [if_neg h5, ifbPort_none hr]
  · intro p h5 h6 h7 h8
    have hport := ifbPort_given (s := s) (i := i) h5 h6 h7 h8
    refine ⟨fun hbad => order_refused h rfl ?_, fun hk hfree => ifbSet_defines h h4 h5 ?_⟩
    · rw [if_neg (by
        rintro ⟨hk, hfree⟩
        rcases hbad with hbad | ⟨j, hj, hn⟩
        · exact hbad hk
        · exact Bool.eq_false_iff.mp hfree ((namedByIfb_iff s p _).mpr ⟨j, by simpa using hj, hn⟩))] at hport
      rw [ifbSet, finOf_eq i h4]
      dsimp only
      rw [if_neg (by omega), hport]
    · have hunnamed : s.namedByIfb p (fun j => decide (j ≠ i)) = false := Bool.eq_false_iff.mpr fun hn => by
        obtain ⟨j, hj, hn⟩ := (namedByIfb_iff s p _).mp hn
        exact hfree j (by simpa using hj) hn
      rw [hport, if_pos ⟨hk, hunnamed⟩]
  · intro allowed
    have hallowed : allowed ↔ (s.panel p).state = .online ∧ s.usableStation p = true ∧ s.runState ≠ .halting := by
      rw [usableStation_iff]
    refine ⟨fun hbad h6 => order_refused h rfl ?_, fun hfn hon => ?_⟩
    · rw [talkForce, talkForceArgs_given h4 h5 h6]
      dsimp only
      by_cases hfn : (s.panel p).map[k].fn = .talk
      · obtain ⟨hone, hnot⟩ := hbad.resolve_left (not_not.mpr hfn)
        rw [if_neg (not_not.mpr hfn), if_neg (by simp [hone]), if_neg (mt hallowed.mpr hnot)]
      · rw [if_pos hfn]
    · have h6 : ob rec 6 ≤ 1 := by omega
      have hblock : talkForce q rec s = done (if decide (ob rec 6 = 1) = true then setKey p k .latched s else forceOff (oneKey p k) s) := by
        rw [talkForce, talkForceArgs_given h4 h5 h6]
        dsimp only
        rw [if_neg (not_not.mpr hfn)]
        rcases hon with hz | ⟨hone, ha⟩
        · simp [hz]
        · rw [if_neg (by simp [hone]), if_pos (hallowed.mp ha), if_pos (by simp [hone])]
      obtain ⟨hkey, hothers, hderived, hsame, hrtu, hrest⟩ := talkForced_clauses p k (decide (ob rec 6 = 1)) s
      refine ⟨_, order_outcome h rfl hblock (by rw [hrtu]), hkey.trans ?_, hothers, hderived, hsame, hrtu, hrest⟩
      rcases (by omega : ob rec 6 = 0 ∨ ob rec 6 = 1) with hz | hz <;> simp [hz]

end Sys2Proof.Proofs.Orders
end

