-- ==== Sys2Proof/Proofs/KeyMaps.lean ====
section
/-! KEYMAP_READ_DONE: the map that was read, its refusal and its load (O47). -/

namespace Sys2Proof.Proofs.Orders

open Sys2Proof Sys2Proof.Machine
open Sys2Proof.Proofs.Panels (wiring setPanel_wiring relight_wiring forceOff_wiring fields_of_still)

/-! ### The entries of a map -/

/-- A map with a refused entry is refused. -/
theorem mapEntries_none {noTalk : Bool} : ∀ {l : List (List Byte)} {i : Nat}, i < l.length → keyEntryOf noTalk (l.getD i []) = none →
    mapEntries noTalk l = none
  | b :: bs, 0, _, h => by
    rw [mapEntries, show keyEntryOf noTalk b = none from h]
  | b :: bs, i + 1, hi, h => by
    have ih : mapEntries noTalk bs = none := mapEntries_none (Nat.lt_of_succ_lt_succ hi) h
    rw [mapEntries, ih]
    cases keyEntryOf noTalk b <;> rfl

/-- A map whose entries are all taken is the list of its entries. -/
theorem mapEntries_some {noTalk : Bool} : ∀ {l : List (List Byte)},
    (∀ i, i < l.length → ∃ e, keyEntryOf noTalk (l.getD i []) = some e ∧ keyEntryFrom (l.getD i []) e) →
    ∃ es, mapEntries noTalk l = some es ∧ es.length = l.length ∧ ∀ i, i < l.length → keyEntryFrom (l.getD i []) (es.getD i KeyEntry.reset)
  | [], _ => ⟨[], rfl, rfl, fun i h => absurd h (Nat.not_lt_zero i)⟩
  | b :: bs, h => by
    obtain ⟨e, he, hfrom⟩ := h 0 (Nat.succ_pos _)
    obtain ⟨es, hes, hlen, hall⟩ := mapEntries_some fun i hi => h (i + 1) (Nat.succ_lt_succ hi)
    refine ⟨e :: es, by rw [mapEntries, show keyEntryOf noTalk b = some e from he, hes], congrArg Nat.succ hlen, fun i hi => ?_⟩
    cases i with
    | zero => exact hfrom
    | succ i => exact hall i (Nat.lt_of_succ_lt_succ hi)

theorem stationIsIfb_iff (s : State) (p : Fin 24) :
    s.stationIsIfb p = true ↔ ∃ a, (s.panel p).station = some a ∧ s.tke.ports[a].kind = .ifb := by
  unfold State.stationIsIfb
  cases (s.panel p).station <;> simp

/-! ### Clamped gains -/

theorem gainClamped_eq (b : List Byte) :
    gainClamped b = if ob b 0 = 8 ∧ ((b.getD 5 0).toInt < -40 ∨ 0 < (b.getD 5 0).toInt) then 1 else 0 := by
  have htalk : keyFunctionOf (ob b 0) = some .talk ↔ ob b 0 = 8 := by
    rw [keyFunctionOf_eq]
    rcases ob b 0 with _ | _ | _ | _ | _ | _ | _ | _ | _ | x <;> simp
  unfold gainClamped
  rw [clampedCount_eq (by decide)]
  change (if keyFunctionOf (ob b 0) = some .talk then if -40 ≤ (b.getD 5 0).toInt ∧ (b.getD 5 0).toInt ≤ 0 then 0 else 1 else 0) = _
  by_cases h8 : ob b 0 = 8
  · rw [if_pos (htalk.mpr h8)]
    by_cases hin : -40 ≤ (b.getD 5 0).toInt ∧ (b.getD 5 0).toInt ≤ 0
    · rw [if_pos hin, if_neg (by omega)]
    · rw [if_neg hin, if_pos (by omega)]
  · rw [if_neg (mt htalk.mp h8), if_neg fun h => h8 h.1]

/-- The clamps of a map are its entries with a gain out of range. -/
theorem mapClamps_eq (l : List (List Byte)) :
    mapClamps l = (l.filter fun b => decide (ob b 0 = 8 ∧ ((b.getD 5 0).toInt < -40 ∨ 0 < (b.getD 5 0).toInt))).length := by
  induction l with
  | nil => rfl
  | cons b bs ih =>
    rw [mapClamps, List.map_cons, List.sum_cons, ← mapClamps, ih, gainClamped_eq, List.filter_cons]
    simp only [decide_eq_true_eq]
    split
    · rw [List.length_cons, Nat.add_comm]
    · rw [Nat.zero_add]

/-! ### The load -/

/-- What a loaded map leaves: the panel's own record, and no key of any other panel touched. -/
theorem loadMap_leaves (p : Fin 24) (es : List KeyEntry) {s t : State} (ht : t = loadMap p es s) :
    wiring t = wiring s ∧ (∀ k, t.keyState p k = .idle) ∧
    ((t.panel p).map = mapOf es ∧ (t.panel p).timers = Vector.replicate 48 0 ∧ (t.panel p).selection = ⟨none, none, false, none⟩ ∧
      (t.panel p).full = true ∧ (t.panel p).held = ((s.panel p).held || decide ((s.panel p).state ≠ .online)) ∧
      (t.panel p).state = (s.panel p).state) ∧
    (∀ o : Fin 24, o ≠ p → (t.panel o).map = (s.panel o).map ∧ (t.panel o).selection = (s.panel o).selection ∧
      ∀ k : Fin 48, t.keyState o k = s.keyState o k) ∧
    t.rtu = s.rtu ∧ t.xpe = s.xpe ∧ t.tly = s.tly ∧ t.csi = s.csi := by
  rw [loadMap] at ht
  have hstill : ∀ o, ((forceOff (ofPanel p) s).panel o).still = (s.panel o).still := fun o => forceOff_still _ o s
  have hkeys : ∀ o k, (forceOff (ofPanel p) s).keyState o k = if o = p then .idle else s.keyState o k := by
    intro o k
    rw [forceOff_keyState]
    simp [ofPanel]
  have hwire := forceOff_wiring (ofPanel p) s
  have hframe := forceOff_frame (ofPanel p) s
  generalize forceOff (ofPanel p) s = u at ht hstill hkeys hwire hframe
  obtain ⟨hstate, -, -, -, hheld, -⟩ := fields_of_still (hstill p)
  generalize hx : ({ u.panel p with
      map := mapOf es, selection := Selection.cleared, timers := Vector.replicate 48 0, full := true,
      held := (u.panel p).held || decide ((u.panel p).state ≠ .online) } : Panel) = x at ht
  have hother : ∀ o, o ≠ p → (t.panel o).still = (s.panel o).still := by
    intro o ho
    rw [ht, relight_still, setPanel_panel, if_neg (Ne.symm ho), hstill]
  have hown : (t.panel p).still = x.still := by rw [ht, relight_still, setPanel_same]
  have hkey : ∀ o k, t.keyState o k = u.keyState o k := keyState_of_keys (by rw [ht]; simp)
  have hmapx : (t.panel p).map = x.map := (congrArg Panel.map hown : (t.panel p).still.map = x.still.map)
  obtain ⟨hst, -, -, hfull, hh, hsel, htim, -⟩ := fields_of_still hown
  refine ⟨by rw [ht, relight_wiring, setPanel_wiring, hwire], fun k => (hkey p k).trans ((hkeys p k).trans (if_pos rfl)), ⟨?_, ?_, ?_, ?_, ?_, ?_⟩,
    fun o ho => ⟨?_, ?_, fun k => (hkey o k).trans ((hkeys o k).trans (if_neg ho))⟩, ?_⟩
  · rw [hmapx, ← hx]
  · rw [htim, ← hx]
  · rw [hsel, ← hx]; rfl
  · rw [hfull, ← hx]
  · rw [hh, ← hx, hheld, hstate]
  · rw [hst, ← hx, hstate]
  · exact (congrArg Panel.map (hother o ho) : (t.panel o).still.map = (s.panel o).still.map)
  · exact (congrArg Panel.selection (hother o ho) : (t.panel o).still.selection = (s.panel o).still.selection)
  · rw [ht]
    simp [hframe]

/-- A map read that is over. -/
def mapIdle (rest : List MapRead) (s : State) : State := { s with pnc := { s.pnc with mapReads := rest } }.readOver

theorem finishMapRead_eq {s : State} {x : MapRead} {rest : List MapRead} {r : Running} {f : FrameIndex} (hx : s.pnc.mapReads = x :: rest)
    (hfor : x.forOrder = true) (hr : s.csi.running = some r) (hw : r.waiting = some f) :
    (mapEntries (s.stationIsIfb x.panel) (s.mapBytes x) = none →
      exec .keymapReadDone s = .next (examineHalting (finishOrder r .refusedArg 0 f (mapIdle rest s)))) ∧
    (∀ es, mapEntries (s.stationIsIfb x.panel) (s.mapBytes x) = some es →
      exec .keymapReadDone s = .next (examineHalting (finishOrder r (doneCode (mapClamps (s.mapBytes x))) (mapClamps (s.mapBytes x)) f
        (loadMap x.panel es (mapIdle rest s))))) := by
  have hexec : exec .keymapReadDone s = .next (examinedAfter (!s.pnc.mapReads.isEmpty) finishMapRead s) := rfl
  have hout : ∀ (c : Code) (n : Nat) (u : State), u.csi = s.csi → mapOutcome x c n u = finishOrder r c n f u := by
    intro c n u hu
    simp only [mapOutcome, hfor, if_true, hu, hr, hw, Option.getD_some]
  rw [hexec, hx, examinedAfter, if_pos (by rfl)]
  refine ⟨fun h => ?_, fun es h => ?_⟩
  · have hfin : finishMapRead s = mapOutcome x .refusedArg 0 (mapIdle rest s) := by
      simp only [finishMapRead, hx, h, mapIdle]
    rw [hfin, hout _ _ (mapIdle rest s) rfl]
  · have hfin : finishMapRead s = mapOutcome x (doneCode (mapClamps (s.mapBytes x))) (mapClamps (s.mapBytes x)) (loadMap x.panel es (mapIdle rest s)) := by
      simp only [finishMapRead, hx, h, mapIdle]
    obtain ⟨-, -, -, -, -, -, -, hcsi⟩ := loadMap_leaves x.panel es (s := mapIdle rest s) rfl
    rw [hfin, hout _ _ _ hcsi]

/-- The bytes of a map are what the read found at each address. -/
theorem mapBytes_get (s : State) (x : MapRead) {k i : Nat} (hk : k < 48) (hi : i < 16) :
    ((s.mapBytes x).getD k []).getD i 0 = s.readByte x.mark (x.address + 16 * k + i) := by
  have hentry : (s.mapBytes x).getD k [] = s.readRun x.mark (x.address + 16 * k) 16 := by
    rw [State.mapBytes, List.getD_eq_getElem?_getD, List.getElem?_map, List.getElem?_range hk]
    rfl
  rw [hentry, State.readRun, List.getD_eq_getElem?_getD, List.getElem?_map, List.getElem?_range hi]
  rfl

/-- Settles O47: the map is refused at its first bad entry, or replaced whole. -/
theorem keymapReadLoadsWhole : Obligations.KeymapReadLoadsWhole := by
  unfold Obligations.KeymapReadLoadsWhole
  refine ⟨fun s h => ?_, fun s x rest r f hx hfor hr hw => ?_⟩
  · have hexec : exec .keymapReadDone s = .next (examinedAfter (!s.pnc.mapReads.isEmpty) finishMapRead s) := rfl
    rw [hexec, h, examinedAfter, if_neg (by simp), finishMapRead, h]
  have hlen : (s.mapBytes x).length = 48 := by simp [State.mapBytes]
  have hifb := stationIsIfb_iff s x.panel
  obtain ⟨hbadly, hwell⟩ := finishMapRead_eq hx hfor hr hw
  refine ⟨fun hkept => ?_, fun k i hk hi => ?_, ⟨hlen, fun b hb => ?_⟩, fun ⟨k, hk, hbad⟩ => ?_, fun hgood => ?_⟩
  · refine List.map_congr_left fun k hk => readRun_kept fun i hi => ?_
    have hk := List.mem_range.mp hk
    rw [Nat.add_assoc]
    exact hkept _ (by omega)
  · rw [mapBytes_get s x hk hi]
    exact readByte_mem s x.mark _
  · obtain ⟨k, -, rfl⟩ := List.mem_map.mp hb
    simp [State.readRun]
  · refine hbadly (mapEntries_none (hlen ▸ hk) ((keyEntryOf_terms _ _).1 ?_))
    rw [hifb]
    exact hbad
  · have hsome : ∀ i, i < (s.mapBytes x).length → ∃ e, keyEntryOf (s.stationIsIfb x.panel) ((s.mapBytes x).getD i []) = some e ∧
        keyEntryFrom ((s.mapBytes x).getD i []) e := by
      intro i hi
      refine (keyEntryOf_terms _ _).2 ?_
      rw [hifb]
      exact hgood i (hlen ▸ hi)
    obtain ⟨es, hes, -, hfrom⟩ := mapEntries_some hsome
    obtain ⟨hwire, hidle, ⟨hmap, htim, hsel, hfull, hheld, hstate⟩, hrest⟩ := loadMap_leaves x.panel es (s := mapIdle rest s) rfl
    have hexec := hwell es hes
    rw [mapClamps_eq] at hexec
    refine ⟨loadMap x.panel es (mapIdle rest s), hexec, congrArg (fun w => w.2.1) hwire, fun k => ⟨?_, hidle k, ?_⟩, hsel, hfull, hheld, hstate, hrest⟩
    · rw [hmap]
      simpa [mapOf] using hfrom k.1 (by rw [hlen]; exact k.2)
    · rw [htim]
      simp

end Sys2Proof.Proofs.Orders
end

