-- ==== Sys2Proof/Proofs/PanelOrders.lean ====
section
/-! PANEL_SET, LAMP_SET and KEYMAP_LOAD (O46). -/

namespace Sys2Proof.Proofs.Orders

open Sys2Proof Sys2Proof.Machine
open Sys2Proof.Proofs.Journal (journal journal_eq journal_of report_journal)
open Sys2Proof.Proofs.Panels (fields_of_still changePanel_still changePanel_journal changePanel_tke_of_entered entered turned turned_fields)

/-! ### Demotion -/

/-- What a demotion leaves of a destination's protect. -/
def demoted (p : Fin 24) (old new : Fin 4) : Option Protect → Option Protect
  | none => none
  | some x => if x.owner = .panel p ∧ old < new ∧ x.level < new then none else some x

/-- The report of one destination's demotion. -/
def toldDemoted (p : Fin 24) (old new : Fin 4) (s v : State) (d : Fin 64) : State :=
  match (s.dest d).protect with
  | none => v
  | some x => if x.owner = .panel p ∧ old < new ∧ x.level < new then report (.protect d x .demoted) s.rtu.frame s.rtu.label v else v

theorem demoteDest_leaves {p : Fin 24} {old new : Fin 4} (hlt : old < new) {d : Fin 64} {s u v : State} (hj : journal u = journal v)
    (hr : u.rtu = s.rtu) (hd : (u.dest d).protect = (s.dest d).protect) :
    journal (demoteDest p new d u) = journal (toldDemoted p old new s v d) ∧
    (∀ e, ((demoteDest p new d u).dest e).protect = if e = d then demoted p old new (s.dest d).protect else (u.dest e).protect) ∧
    (demoteDest p new d u).xpe.queue = u.xpe.queue ∧ (demoteDest p new d u).xpe.armed = u.xpe.armed := by
  have hsame : ∀ y, (s.dest d).protect = y → demoted p old new y = y →
      ∀ e, (u.dest e).protect = if e = d then demoted p old new (s.dest d).protect else (u.dest e).protect := by
    intro y hy hsame e
    split
    · next h => rw [h, hd, hy, hsame]
    · rfl
  cases hx : (s.dest d).protect with
  | none =>
    have hid : demoteDest p new d u = u := by rw [demoteDest, hd, hx]
    have htold : toldDemoted p old new s v d = v := by rw [toldDemoted, hx]
    rw [hid, htold]
    exact ⟨hj, hx ▸ hsame none hx rfl, rfl, rfl⟩
  | some x =>
    by_cases hc : x.owner = .panel p ∧ x.level < new
    · have hc' : x.owner = .panel p ∧ old < new ∧ x.level < new := ⟨hc.1, hlt, hc.2⟩
      have hdo : demoteDest p new d u = reportNow (.protect d x .demoted) (u.setDest d { u.dest d with protect := none }) := by
        rw [demoteDest, hd, hx]
        exact if_pos hc
      have htold : toldDemoted p old new s v d = report (.protect d x .demoted) s.rtu.frame s.rtu.label v := by
        rw [toldDemoted, hx]
        exact if_pos hc'
      have hxpe : (demoteDest p new d u).xpe = (u.setDest d { u.dest d with protect := none }).xpe := by rw [hdo]; simp
      refine ⟨?_, fun e => ?_, by rw [hxpe]; simp, by rw [hxpe]; simp⟩
      · rw [hdo, htold, reportNow, show (u.setDest d { u.dest d with protect := none }).rtu = s.rtu from hr]
        refine report_journal ?_ _ _ _
        exact hj
      · rw [Links.dest_of_xpe hxpe, setDest_dest]
        by_cases he : e = d
        · rw [if_pos he.symm, if_pos he, demoted, if_pos hc']
        · rw [if_neg (Ne.symm he), if_neg he]
    · have hc' : ¬ (x.owner = .panel p ∧ old < new ∧ x.level < new) := fun h => hc ⟨h.1, h.2.2⟩
      have hid : demoteDest p new d u = u := by
        rw [demoteDest, hd, hx]
        exact if_neg hc
      have htold : toldDemoted p old new s v d = v := by
        rw [toldDemoted, hx]
        exact if_neg hc'
      rw [hid, htold]
      exact ⟨hj, hx ▸ hsame (some x) hx (by rw [demoted, if_neg hc']), rfl, rfl⟩

/-- The demotions of a run of destinations. -/
theorem demote_run {p : Fin 24} {old new : Fin 4} (hlt : old < new) {s : State} : ∀ {l : List (Fin 64)}, l.Nodup → ∀ {u v : State},
    journal u = journal v → u.rtu = s.rtu → (∀ d ∈ l, (u.dest d).protect = (s.dest d).protect) →
    let w := l.foldl (fun x d => demoteDest p new d x) u
    journal w = journal (l.foldl (toldDemoted p old new s) v) ∧
    (∀ e, (w.dest e).protect = if e ∈ l then demoted p old new (s.dest e).protect else (u.dest e).protect) ∧
    w.xpe.queue = u.xpe.queue ∧ w.xpe.armed = u.xpe.armed
  | [], _, u, v, hj, _, _ => ⟨hj, fun e => (if_neg List.not_mem_nil).symm, rfl, rfl⟩
  | d :: l, hn, u, v, hj, hr, hd => by
    obtain ⟨hnew, hrest⟩ := List.nodup_cons.mp hn
    obtain ⟨h1, h2, h3, h4⟩ := demoteDest_leaves hlt (p := p) hj hr (hd d List.mem_cons_self)
    have hne : ∀ e ∈ l, e ≠ d := fun e he h => hnew (h ▸ he)
    have ih := demote_run hlt (p := p) (s := s) hrest h1 (by rw [← hr]; simp)
      fun e he => by rw [h2, if_neg (hne e he), hd e (List.mem_cons_of_mem _ he)]
    obtain ⟨i1, i2, i3, i4⟩ := ih
    refine ⟨i1, fun e => ?_, i3.trans h3, i4.trans h4⟩
    rw [List.foldl_cons, i2, h2]
    by_cases he : e = d
    · rw [if_neg (he ▸ hnew), if_pos he, if_pos (by simp [he]), he]
    · by_cases hl : e ∈ l
      · rw [if_pos hl, if_pos (List.mem_cons_of_mem _ hl)]
      · rw [if_neg hl, if_neg he, if_neg (by simp [he, hl])]

/-- PANEL_SET's demotion: its reports, the protects left, and no entry of a queue touched. -/
theorem panelDemotion_leaves (p : Fin 24) (old new : Fin 4) {s u : State} (hj : journal u = journal s) (hr : u.rtu = s.rtu) (hx : u.xpe = s.xpe) :
    journal (panelDemotion p old new u) = journal ((List.finRange 64).foldl (toldDemoted p old new s) s) ∧
    (∀ e, ((panelDemotion p old new u).dest e).protect = demoted p old new (s.dest e).protect) ∧
    (panelDemotion p old new u).xpe.queue = s.xpe.queue ∧ (panelDemotion p old new u).xpe.armed = s.xpe.armed := by
  have hdest : ∀ d, u.dest d = s.dest d := Links.dest_of_xpe hx
  unfold panelDemotion
  by_cases hlt : old < new
  · rw [if_pos hlt, ← hx]
    have hrun := demote_run hlt (p := p) (s := s) (List.nodup_finRange 64) hj hr fun d _ => by rw [hdest]
    rw [demote]
    obtain ⟨h1, h2, h3⟩ := hrun
    exact ⟨h1, fun e => (h2 e).trans (if_pos (List.mem_finRange e)), h3⟩
  · have hnone : ∀ v d, toldDemoted p old new s v d = v := by
      intro v d
      unfold toldDemoted
      split
      · rfl
      · rw [if_neg fun h => hlt h.2.1]
    have hfold : ∀ l : List (Fin 64), l.foldl (toldDemoted p old new s) s = s := by
      intro l
      induction l with
      | nil => rfl
      | cons d l ih => rw [List.foldl_cons, hnone, ih]
    rw [if_neg hlt, hfold, ← hx]
    refine ⟨hj, fun e => ?_, rfl, rfl⟩
    rw [hdest]
    cases (s.dest e).protect with
    | none => rfl
    | some x => rw [demoted, if_neg fun h => hlt h.2.1]

/-! ### PANEL_SET -/

/-- The state of a key after its panel, or another, changes its state. -/
theorem changePanel_keyState (p o : Fin 24) (st : PanelState) (s : State) (k : Fin 48) :
    (changePanel p st s).keyState o k = if o = p ∧ (s.panel p).state = .online ∧ st ≠ .online then .idle else s.keyState o k := by
  rw [keyState_of_keys (congrArg Tke.keys (changePanel_tke_of_entered p st s)), entered]
  by_cases hc : (s.panel p).state = .online ∧ st ≠ .online
  · rw [if_pos hc, leaveOnline]
    rw [keyState_of_keys (congrArg Tke.keys (setPanel_frame _ _ _).2.2.2.2.2.1), forceOff_keyState,
      keyState_of_keys (congrArg Tke.keys (setPanel_frame _ _ _).2.2.2.2.2.1)]
    simp [ofPanel, hc]
  · rw [if_neg hc, if_neg fun h => hc h.2]
    exact keyState_of_keys (by simp) o k

/-- The derived sets and the target table stand as long as the TKE, the maps and the station ports do. -/
theorem talkDerived_congr {t s : State} (hmap : ∀ q, (t.panel q).map = (s.panel q).map) (hstation : ∀ q, (t.panel q).station = (s.panel q).station)
    (htke : t.tke = s.tke) (hs : s.talkDerived) : t.talkDerived := by
  have htalks : ∀ p k a, t.keyTalks p k a ↔ s.keyTalks p k a := fun p k a => by
    simp only [State.keyTalks, hstation, keyState_of_keys (congrArg Tke.keys htke)]
  have hreaches : ∀ p k b, t.keyReaches p k b ↔ s.keyReaches p k b := fun p k b => by
    simp only [State.keyReaches, hmap, htke]
  have hstands : ∀ a b, t.pathStands a b ↔ s.pathStands a b := fun a b => by
    simp only [State.pathStands, htalks, hreaches, htke]
  simpa only [State.talkDerived, htalks, hreaches, hstands, htke, hmap] using hs

/-- A panel whose keys are all IDLE changes its state without any change of the TKE. -/
theorem changePanel_quiet {p : Fin 24} {s : State} (st : PanelState) (h : ∀ k, s.keyState p k = .idle) : (changePanel p st s).tke = s.tke := by
  rw [changePanel_tke_of_entered, entered]
  split
  · have hoff : forceOff (ofPanel p) (s.setPanel p ((s.panel p).enter st)) = s.setPanel p ((s.panel p).enter st) := by
      refine if_neg ?_
      simp only [anyBusy, ofPanel, List.any_eq_true, List.mem_finRange, true_and, Bool.and_eq_true, decide_eq_true_eq]
      rintro ⟨q, k, rfl, hk⟩
      exact hk ((keyState_of_keys (by simp) q k).trans (h k))
    rw [leaveOnline, hoff]
    simp
  · simp

section
variable {s : State} {p : Fin 24} {c : PanelConfig}

/-- PANEL_SET up to its change of the panel's state. -/
def configuredPanel (p : Fin 24) (c : PanelConfig) (s : State) : State :=
  panelMode p (decide ((s.panel p).mode ≠ c.mode)) (panelStation p (decide ((s.panel p).station ≠ c.station))
    (panelDemotion p (s.panel p).level c.level (s.setPanel p ((s.panel p).configured c))))

/-- The panel's record then, its lamps apart. -/
def reconfigured (x : Panel) (c : PanelConfig) : Panel :=
  { x.configured c with selection := if x.mode ≠ c.mode then x.selection.noPreset else x.selection }

/-- What PANEL_SET leaves before the panel's state follows. -/
structure Configured (p : Fin 24) (c : PanelConfig) (s u : State) : Prop where
  panel   : ∃ due, (u.panel p).still = { (reconfigured (s.panel p) c).still with probeDue := due }
  others  : ∀ o, o ≠ p → (u.panel o).still = (s.panel o).still
  keys    : ∀ o k, u.keyState o k = if o = p ∧ (s.panel p).station ≠ c.station then .idle else s.keyState o k
  derived : (s.panel p).station ≠ c.station → u.talkDerived
  told    : journal u = journal ((List.finRange 64).foldl (toldDemoted p (s.panel p).level c.level s) s)
  protect : ∀ d, (u.dest d).protect = demoted p (s.panel p).level c.level (s.dest d).protect
  queue   : u.xpe.queue = s.xpe.queue
  armed   : u.xpe.armed = s.xpe.armed
  rest    : u.rtu = s.rtu ∧ u.tly = s.tly ∧ u.runState = s.runState

theorem panelStation_leaves {p : Fin 24} {b : Bool} {s t : State} (ht : t = panelStation p b s) :
    (∀ o, (t.panel o).still = (s.panel o).still) ∧ (∀ o k, t.keyState o k = if o = p ∧ b = true then .idle else s.keyState o k) ∧
    (b = true → t.talkDerived) ∧ journal t = journal s ∧ t.xpe = s.xpe ∧ t.rtu = s.rtu ∧ t.tly = s.tly ∧ t.runState = s.runState := by
  cases b with
  | false =>
    subst ht
    exact ⟨fun _ => rfl, fun o k => (if_neg fun h => Bool.false_ne_true h.2).symm, fun h => absurd h Bool.false_ne_true,
      rfl, rfl, rfl, rfl, rfl⟩
  | true =>
    have ht : t = derivation (idleKeys (ofPanel p) s) := ht.trans (if_pos rfl)
    rw [ht]
    have hpnc : (idleKeys (ofPanel p) s).pnc = s.pnc := by simp
    refine ⟨fun o => by rw [derivation_still, panel_of_pnc hpnc], fun o k => ?_, fun _ => derivation_derived _, journal_of (by simp) (by simp), by simp⟩
    rw [derivation_keyState, idleKeys_keyState]
    simp [ofPanel]

theorem panelMode_leaves {p : Fin 24} {b : Bool} {s t : State} (ht : t = panelMode p b s) :
    (∀ o, (t.panel o).still = if p = o ∧ b = true then { (s.panel p).still with selection := (s.panel p).selection.noPreset }
      else (s.panel o).still) ∧
    t.tke = s.tke ∧ journal t = journal s ∧ t.xpe = s.xpe ∧ t.rtu = s.rtu ∧ t.tly = s.tly ∧ t.runState = s.runState := by
  cases b with
  | false =>
    subst ht
    exact ⟨fun _ => (if_neg fun h => Bool.false_ne_true h.2).symm, rfl, rfl, rfl, rfl, rfl, rfl⟩
  | true =>
    have ht : t = reselect p Selection.noPreset s := ht.trans (if_pos rfl)
    rw [ht]
    refine ⟨fun o => ?_, by simp, journal_of (by simp) (by simp), by simp⟩
    rw [reselect_still]
    simp

theorem configured_leaves (p : Fin 24) (c : PanelConfig) (s : State) : Configured p c s (configuredPanel p c s) := by
  obtain ⟨hj, hprot, hqueue, harmed⟩ := panelDemotion_leaves p (s.panel p).level c.level
    (s := s) (u := s.setPanel p ((s.panel p).configured c)) rfl rfl rfl
  have hpnc : (panelDemotion p (s.panel p).level c.level (s.setPanel p ((s.panel p).configured c))).pnc =
      (s.setPanel p ((s.panel p).configured c)).pnc := by unfold panelDemotion; split <;> simp
  have htke : (panelDemotion p (s.panel p).level c.level (s.setPanel p ((s.panel p).configured c))).tke = s.tke := by
    unfold panelDemotion; split <;> simp
  have hrest : (panelDemotion p (s.panel p).level c.level (s.setPanel p ((s.panel p).configured c))).rtu = s.rtu ∧
      (panelDemotion p (s.panel p).level c.level (s.setPanel p ((s.panel p).configured c))).tly = s.tly ∧
      (panelDemotion p (s.panel p).level c.level (s.setPanel p ((s.panel p).configured c))).runState = s.runState := by
    unfold panelDemotion; split <;> simp
  unfold configuredPanel
  have hpanel := panel_of_pnc hpnc
  generalize panelDemotion p (s.panel p).level c.level (s.setPanel p ((s.panel p).configured c)) = u1 at *
  generalize h2 : panelStation p (decide ((s.panel p).station ≠ c.station)) u1 = u2
  obtain ⟨spanel, skeys, sderived, sj, sxpe, srest⟩ := panelStation_leaves h2.symm
  generalize h3 : panelMode p (decide ((s.panel p).mode ≠ c.mode)) u2 = u3
  obtain ⟨mpanel, mtke, mj, mxpe, mrest⟩ := panelMode_leaves h3.symm
  have howns : (u2.panel p).still = ((s.panel p).configured c).still := by rw [spanel, hpanel, setPanel_same]
  have hothers : ∀ o, o ≠ p → (u3.panel o).still = (s.panel o).still := by
    intro o ho
    rw [mpanel, if_neg fun h => ho h.1.symm, spanel, hpanel, setPanel_panel, if_neg (Ne.symm ho)]
  have hsel : (u2.panel p).selection = (s.panel p).selection :=
    (congrArg Panel.selection howns : (u2.panel p).still.selection = ((s.panel p).configured c).still.selection)
  have hown : (u3.panel p).still = (reconfigured (s.panel p) c).still := by
    rw [mpanel, howns, hsel]
    by_cases hm : (s.panel p).mode = c.mode
    · simp only [hm, reconfigured, ne_eq, not_true_eq_false, decide_false, Bool.false_eq_true, and_false, if_false]
      rfl
    · simp only [hm, reconfigured, ne_eq, not_false_eq_true, decide_true, and_true, if_true]
      rfl
  refine ⟨⟨_, hown⟩, hothers, fun o k => ?_, fun h => ?_, mj.trans (sj.trans hj), fun d => ?_, by rw [mxpe, sxpe, hqueue], by rw [mxpe, sxpe, harmed], ?_⟩
  · rw [keyState_of_keys (congrArg Tke.keys mtke), skeys, keyState_of_keys (congrArg Tke.keys htke)]
    simp only [decide_eq_true_eq]
  · have hstill : ∀ q, (u3.panel q).map = (u2.panel q).map ∧ (u3.panel q).station = (u2.panel q).station := by
      intro q
      by_cases hq : p = q ∧ decide ((s.panel p).mode ≠ c.mode) = true
      · have := mpanel q
        rw [if_pos hq] at this
        obtain ⟨rfl, -⟩ := hq
        exact ⟨(congrArg Panel.map this :), (congrArg Panel.station this :)⟩
      · have := mpanel q
        rw [if_neg hq] at this
        exact ⟨map_of_still this, station_of_still this⟩
    exact talkDerived_congr (fun q => (hstill q).1) (fun q => (hstill q).2) mtke (sderived (decide_eq_true h))
  · rw [Links.dest_of_xpe mxpe, Links.dest_of_xpe sxpe, hprot]
  · obtain ⟨s1, s2, s3⟩ := srest
    obtain ⟨m1, m2, m3⟩ := mrest
    obtain ⟨r1, r2, r3⟩ := hrest
    exact ⟨m1.trans (s1.trans r1), m2.trans (s2.trans r2), m3.trans (s3.trans r3)⟩

/-- A panel taken off its probing. -/
theorem Configured.unprobed {u : State} (h : Configured p c s u) : Configured p c s (u.setPanel p { u.panel p with probeDue := false }) := by
  have hother : ∀ o, o ≠ p → (u.setPanel p { u.panel p with probeDue := false }).panel o = u.panel o :=
    fun o ho => (setPanel_panel _ _ _ _).trans (if_neg (Ne.symm ho))
  have hkeep : ∀ q, ((u.setPanel p { u.panel p with probeDue := false }).panel q).map = (u.panel q).map ∧
      ((u.setPanel p { u.panel p with probeDue := false }).panel q).station = (u.panel q).station := by
    intro q
    rw [setPanel_panel]
    split
    · next hq => exact hq ▸ ⟨rfl, rfl⟩
    · exact ⟨rfl, rfl⟩
  obtain ⟨due, hdue⟩ := h.panel
  refine ⟨⟨false, ?_⟩, fun o ho => by rw [hother o ho, h.others o ho], h.keys, fun hs => ?_, h.told, h.protect, h.queue, h.armed, h.rest⟩
  · rw [setPanel_same]
    exact (congrArg (fun x : Panel => { x with probeDue := false }) hdue :)
  · exact talkDerived_congr (fun q => (hkeep q).1) (fun q => (hkeep q).2) rfl (h.derived hs)

/-- What PANEL_SET leaves when its panel's state is `st` after it. -/
structure PanelSet (p : Fin 24) (c : PanelConfig) (st : PanelState) (s t : State) : Prop where
  fields  : (t.panel p).enabled = c.enabled ∧ (t.panel p).model = c.model ∧ (t.panel p).level = c.level ∧ (t.panel p).station = c.station ∧
    (t.panel p).mode = c.mode ∧ (t.panel p).threshold = max 4 (min 50 c.threshold) ∧ (t.panel p).map = (s.panel p).map
  state   : (t.panel p).state = st
  leaves  : (s.panel p).state = .online → st ≠ .online → (∀ k : Fin 48, t.keyState p k = .idle ∧ (t.panel p).timers[k] = 0) ∧
    (t.panel p).selection = { (s.panel p).selection with preset := none, guard := false, walk := none }
  told    : let demotions := (List.finRange 64).foldl (toldDemoted p (s.panel p).level c.level s) s
    journal t = journal (if st = (s.panel p).state then demotions else report (.panel p st) s.rtu.frame s.rtu.label demotions)
  station : (s.panel p).station ≠ c.station → t.talkDerived ∧ ∀ k : Fin 48, t.keyState p k = .idle
  mode    : (s.panel p).mode ≠ c.mode → (t.panel p).selection.preset = none ∧ (t.panel p).selection.guard = false
  protect : ∀ d, (t.dest d).protect = demoted p (s.panel p).level c.level (s.dest d).protect
  others  : ∀ o : Fin 24, o ≠ p → (t.panel o).state = (s.panel o).state ∧ (t.panel o).selection = (s.panel o).selection ∧
    ∀ k : Fin 48, t.keyState o k = s.keyState o k
  rest    : t.rtu = s.rtu ∧ t.tly = s.tly ∧ t.runState = s.runState ∧ t.xpe.queue = s.xpe.queue ∧ t.xpe.armed = s.xpe.armed

/-- The six fields that PANEL_SET writes, and the map that it leaves. -/
theorem written_fields {x y : Panel} (h : ∃ z : Panel, x.still = z.still ∧ z.enabled = c.enabled ∧ z.model = c.model ∧ z.level = c.level ∧
    z.station = c.station ∧ z.mode = c.mode ∧ z.threshold = (y.configured c).threshold ∧ z.map = y.map) :
    x.enabled = c.enabled ∧ x.model = c.model ∧ x.level = c.level ∧ x.station = c.station ∧ x.mode = c.mode ∧
    x.threshold = max 4 (min 50 c.threshold) ∧ x.map = y.map := by
  obtain ⟨z, hz, henabled, hmodel, hlevel, hstation, hmode, hthreshold, hmap⟩ := h
  obtain ⟨-, -, -, -, -, -, -, xenabled, xmodel⟩ := fields_of_still hz
  refine ⟨xenabled.trans henabled, xmodel.trans hmodel, (congrArg Panel.level hz : x.still.level = z.still.level).trans hlevel,
    (station_of_still hz).trans hstation, (congrArg Panel.mode hz : x.still.mode = z.still.mode).trans hmode,
    ((congrArg Panel.threshold hz : x.still.threshold = z.still.threshold).trans hthreshold).trans ?_, (map_of_still hz).trans hmap⟩
  change (clampInt 4 50 c.threshold).toNat = _
  rw [clampInt_eq (by decide)]
  omega

theorem Configured.other_fields {u : State} (h : Configured p c s u) {o : Fin 24} (ho : o ≠ p) :
    (u.panel o).state = (s.panel o).state ∧ (u.panel o).selection = (s.panel o).selection ∧ ∀ k : Fin 48, u.keyState o k = s.keyState o k := by
  obtain ⟨hstate, -, -, -, -, hsel, -⟩ := fields_of_still (h.others o ho)
  exact ⟨hstate, hsel, fun k => (h.keys o k).trans (if_neg fun hc => ho hc.1)⟩

/-- PANEL_SET of a panel whose state stays. -/
theorem Configured.stays {u : State} (h : Configured p c s u) : PanelSet p c (s.panel p).state s u := by
  obtain ⟨due, hp⟩ := h.panel
  have hz : (u.panel p).still = ({ reconfigured (s.panel p) c with probeDue := due } : Panel).still := hp
  obtain ⟨hstate, -, -, -, -, hsel, -⟩ := fields_of_still hz
  obtain ⟨hrtu, htly, hrun⟩ := h.rest
  refine ⟨written_fields ⟨_, hz, rfl, rfl, rfl, rfl, rfl, rfl, rfl⟩, hstate, fun ho hno => absurd ho hno, ?_,
    fun hs => ⟨h.derived hs, fun k => (h.keys p k).trans (if_pos ⟨rfl, hs⟩)⟩, fun hm => ?_, h.protect, fun o ho => h.other_fields ho,
    hrtu, htly, hrun, h.queue, h.armed⟩
  · intro demotions
    rw [if_pos rfl]
    exact h.told
  · have hnew : (u.panel p).selection = (s.panel p).selection.noPreset := hsel.trans (if_pos hm)
    rw [hnew]
    exact ⟨rfl, rfl⟩

theorem turned_configured (x : Panel) (st : PanelState) : (turned x st).enabled = x.enabled ∧ (turned x st).model = x.model ∧
    (turned x st).level = x.level ∧ (turned x st).station = x.station ∧ (turned x st).mode = x.mode ∧
    (turned x st).threshold = x.threshold ∧ (turned x st).map = x.map := by
  unfold turned
  split <;> cases st <;> exact ⟨rfl, rfl, rfl, rfl, rfl, rfl, rfl⟩

/-- A change of state keeps the selection, or drops its preset, guard and walk. -/
theorem turned_selection (x : Panel) (st : PanelState) : (turned x st).selection =
    if x.state = .online ∧ st ≠ .online then { x.selection with preset := none, guard := false, walk := none } else x.selection := by
  unfold turned
  split <;> cases st <;> rfl

theorem turned_timers {x : Panel} {st : PanelState} (h : x.state = .online ∧ st ≠ .online) : (turned x st).timers = Vector.replicate 48 0 := by
  rw [turned, if_pos h]
  rfl

/-- PANEL_SET of a panel whose state changes, or that enters its state again. -/
theorem Configured.changes {u : State} (h : Configured p c s u) (st : PanelState) :
    PanelSet p c st s (changePanel p st u) ∧
    (st = .joining → ((changePanel p st u).panel p).missed = 0 ∧ ((changePanel p st u).panel p).bit = false) := by
  obtain ⟨due, hp⟩ := h.panel
  have hz : (u.panel p).still = ({ reconfigured (s.panel p) c with probeDue := due } : Panel).still := hp
  obtain ⟨hstate, -, -, -, -, hsel, -, henabled, hmodel⟩ := fields_of_still hz
  obtain ⟨hrtu, htly, hrun⟩ := h.rest
  have hown : ((changePanel p st u).panel p).still = (turned (u.panel p) st).still := (changePanel_still p p st u).trans (if_pos rfl)
  have hother : ∀ o, o ≠ p → ((changePanel p st u).panel o).still = (u.panel o).still :=
    fun o ho => (changePanel_still p o st u).trans (if_neg (Ne.symm ho))
  have hkeep : ∀ q, ((changePanel p st u).panel q).map = (u.panel q).map ∧ ((changePanel p st u).panel q).station = (u.panel q).station := by
    intro q
    by_cases hq : q = p
    · obtain ⟨-, -, -, tstation, -, -, tmap⟩ := turned_configured (u.panel p) st
      rw [hq]
      exact ⟨(map_of_still hown).trans tmap, (station_of_still hown).trans tstation⟩
    · exact ⟨map_of_still (hother q hq), station_of_still (hother q hq)⟩
  have hkey := fun o k => changePanel_keyState p o st u k
  have hjournal := changePanel_journal p st u
  have hframe := changePanel_frame p st u
  have hquiet : (∀ k, u.keyState p k = .idle) → (changePanel p st u).tke = u.tke := changePanel_quiet st
  generalize changePanel p st u = t at *
  obtain ⟨tstate, tmissed, tbit, -, -, tsel, ttimers, -⟩ := fields_of_still hown
  obtain ⟨ustate, umissed, ubit⟩ := turned_fields (u.panel p) st
  obtain ⟨-, frun, frtu, fxpe, ftly, -⟩ := hframe
  have honline : (u.panel p).state = (s.panel p).state := hstate
  refine ⟨⟨?_, tstate.trans ustate, fun ho hno => ⟨fun k => ⟨?_, ?_⟩, ?_⟩, ?_, fun hs => ⟨?_, fun k => ?_⟩, fun hm => ?_, fun d => ?_, fun o ho => ?_,
    frtu.trans hrtu, ftly.trans htly, frun.trans hrun, by rw [fxpe, h.queue], by rw [fxpe, h.armed]⟩, fun hj => ⟨?_, ?_⟩⟩
  · obtain ⟨f1, f2, f3, f4, f5, f6, f7⟩ := turned_configured (u.panel p) st
    exact written_fields ⟨_, hown, f1.trans henabled, f2.trans hmodel,
      f3.trans (congrArg Panel.level hz : (u.panel p).still.level = (({ reconfigured (s.panel p) c with probeDue := due } : Panel).still).level),
      f4.trans (station_of_still hz),
      f5.trans (congrArg Panel.mode hz : (u.panel p).still.mode = (({ reconfigured (s.panel p) c with probeDue := due } : Panel).still).mode),
      f6.trans (congrArg Panel.threshold hz : (u.panel p).still.threshold = (({ reconfigured (s.panel p) c with probeDue := due } : Panel).still).threshold),
      f7.trans (map_of_still hz :)⟩
  · rw [hkey, if_pos ⟨rfl, honline.trans ho, hno⟩]
  · rw [ttimers, turned_timers ⟨honline.trans ho, hno⟩]
    simp
  · rw [tsel, turned_selection, if_pos ⟨honline.trans ho, hno⟩, hsel]
    unfold reconfigured
    split <;> rfl
  · intro demotions
    rw [hjournal, honline, hrtu]
    split
    · exact h.told
    · exact report_journal h.told _ _ _
  · exact talkDerived_congr (fun q => (hkeep q).1) (fun q => (hkeep q).2) (hquiet fun k => (h.keys p k).trans (if_pos ⟨rfl, hs⟩)) (h.derived hs)
  · rw [hkey, h.keys]
    split
    · rfl
    · exact if_pos ⟨rfl, hs⟩
  · have hnew : (u.panel p).selection = (s.panel p).selection.noPreset := hsel.trans (if_pos hm)
    rw [tsel, turned_selection, hnew]
    split <;> exact ⟨rfl, rfl⟩
  · rw [Links.dest_of_xpe fxpe, h.protect]
  · obtain ⟨ostate, -, -, -, -, osel, -⟩ := fields_of_still (hother o ho)
    obtain ⟨ustate', usel, ukeys⟩ := h.other_fields ho
    exact ⟨ostate.trans ustate', osel.trans usel, fun k => ((hkey o k).trans (if_neg fun hc => ho hc.1)).trans (ukeys k)⟩
  · rw [tmissed, umissed, if_pos hj]
  · rw [tbit, ubit, if_pos hj]

/-- The state of a panel after PANEL_SET. -/
def newState (x : Panel) (c : PanelConfig) : PanelState :=
  if x.enabled = true ∧ c.enabled = false then .absent
  else if x.enabled = true ∧ x.model ≠ c.model ∧ (x.state = .joining ∨ x.state = .online) then .joining else x.state

theorem panelSet_leaves {u t : State} (h : Configured p c s u) (ht : t = panelState p (s.panel p) c u) :
    PanelSet p c (newState (s.panel p) c) s t ∧
    (c.enabled = true → (s.panel p).enabled = true → (s.panel p).model ≠ c.model → (s.panel p).state = .joining ∨ (s.panel p).state = .online →
      (t.panel p).missed = 0 ∧ (t.panel p).bit = false) := by
  subst ht
  unfold panelState newState
  by_cases hoff : (s.panel p).enabled = true ∧ c.enabled = false
  · rw [if_pos hoff, if_pos hoff]
    exact ⟨(h.unprobed.changes .absent).1, fun hon => absurd (hon.symm.trans hoff.2) (by decide)⟩
  · rw [if_neg hoff, if_neg hoff]
    by_cases hjoin : (s.panel p).enabled = true ∧ (s.panel p).model ≠ c.model ∧ ((s.panel p).state = .joining ∨ (s.panel p).state = .online)
    · have hon : c.enabled = true := Bool.not_eq_false _ ▸ fun hc => hoff ⟨hjoin.1, hc⟩
      rw [if_pos hjoin, if_pos ⟨hjoin.1, hon, hjoin.2⟩]
      exact ⟨(h.changes .joining).1, fun _ _ _ _ => (h.changes .joining).2 rfl⟩
    · rw [if_neg hjoin, if_neg fun hc => hjoin ⟨hc.1, hc.2.2⟩]
      exact ⟨h.stays, fun _ h1 h2 h3 => absurd ⟨h1, h2, h3⟩ hjoin⟩

/-- PANEL_SET's fields in range: the record is written, and its clamped threshold counted. -/
theorem panelSet_accepted {r : Running} {rec : OrderRecord} {q : Requester} (h : s.working 12 r rec q) (hargs : panelSetArgs rec = some (p, c)) :
    ∃ t, exec .panelSet s = .next (examineHalting (if 4 ≤ c.threshold ∧ c.threshold ≤ 50 then finishOrder r .done 0 s.rtu.frame t
        else finishOrder r .doneClamped 1 s.rtu.frame t)) ∧
      PanelSet p c (newState (s.panel p) c) s t ∧
      (c.enabled = true → (s.panel p).enabled = true → (s.panel p).model ≠ c.model → (s.panel p).state = .joining ∨ (s.panel p).state = .online →
        (t.panel p).missed = 0 ∧ (t.panel p).bit = false) := by
  have hblock : panelSet q rec s = doneClamped (clampedCount 4 50 c.threshold) (panelState p (s.panel p) c (configuredPanel p c s)) := by
    rw [panelSet, hargs]
    rfl
  have hleaves := panelSet_leaves (configured_leaves p c s) rfl
  generalize panelState p (s.panel p) c (configuredPanel p c s) = t at hblock hleaves
  refine ⟨t, ?_, hleaves⟩
  obtain ⟨hrtu, -⟩ := hleaves.1.rest
  rw [order_outcome h rfl hblock (by rw [hrtu]), clampedCount_eq (by decide)]
  by_cases hin : 4 ≤ c.threshold ∧ c.threshold ≤ 50
  · rw [if_pos hin, if_pos (by omega)]
    rfl
  · rw [if_neg hin, if_neg (by omega)]
    rfl

end

/-! ### LAMP_SET -/

theorem lampSet_accepted (s : State) (p : Fin 24) (k : Fin 48) (b : Byte) {l : Lamp} (hl : lampOfByte b.toNat = some l)
    (hfn : (s.panel p).map[k].fn = .report) {t : State} (ht : t = derivePanel p (s.setPanel p ((s.panel p).withLamp k b))) :
    (t.panel p).map = upd (s.panel p).map k { (s.panel p).map[k] with lamp := b } ∧
    ((s.panel p).state = .online → (s.panel p).timers[k] = 0 → (t.panel p).image[k] = l) ∧
    ((s.panel p).state ≠ .online → (t.panel p).image = (s.panel p).image) ∧
    (∀ o : Fin 24, o ≠ p → t.panel o = s.panel o) ∧ t.rtu = s.rtu ∧ t.xpe = s.xpe ∧ t.tly = s.tly ∧ t.tke = s.tke ∧ t.csi = s.csi := by
  generalize hu : s.setPanel p ((s.panel p).withLamp k b) = u at ht
  have hown : u.panel p = (s.panel p).withLamp k b := by rw [← hu, setPanel_same]
  have hother : ∀ o, o ≠ p → u.panel o = s.panel o := fun o ho => by rw [← hu, setPanel_panel, if_neg (Ne.symm ho)]
  have hentry : (u.panel p).map[k] = { (s.panel p).map[k] with lamp := b } := by
    rw [hown]
    exact upd_same _ _ _
  have hpanel : ∀ o, t.panel o = if o = p ∧ (s.panel p).state = .online then (u.panel p).withImage (u.relit p fun _ => true) else u.panel o := by
    intro o
    rw [ht, derivePanel, show (u.panel p).state = (s.panel p).state by rw [hown]; rfl]
    by_cases hon : (s.panel p).state = .online
    · rw [if_pos hon, relight_panel]
      by_cases ho : o = p
      · rw [if_pos ho.symm, if_pos ⟨ho, hon⟩]
      · rw [if_neg (Ne.symm ho), if_neg fun h => ho h.1]
    · rw [if_neg hon, if_neg fun h => hon h.2]
  have hmap : (t.panel p).map = (u.panel p).map := map_of_still (ht ▸ derivePanel_still p p u)
  refine ⟨by rw [hmap, hown]; rfl, fun hon htimer => ?_, fun hoff => ?_, fun o ho => ?_, ?_⟩
  · have haction : u.keyAction p k = .report l := by
      simp only [State.keyAction, KeyEntry.action, KeyEntry.meaning, hentry, hfn, hl, Option.map_some, Option.getD_some]
    have htim : (u.panel p).timers[k] = 0 := by rw [hown]; exact htimer
    rw [hpanel, if_pos ⟨rfl, hon⟩]
    simp only [Panel.withImage, State.relit, tabulate_get, Fin.getElem_fin, if_true, State.lampOf, State.functionLamp, haction]
    exact if_neg (Nat.not_lt.mpr (Nat.le_of_eq htim))
  · rw [hpanel, if_neg fun h => hoff h.2, hown]
    rfl
  · rw [hpanel, if_neg fun h => ho h.1, hother o ho]
  · rw [ht, ← hu]
    simp

theorem lampOfByte_eq (x : Nat) : lampOfByte x = [Lamp.off, .on, .flash, .alt][x]? := by
  unfold lampOfByte
  rcases x with _ | _ | _ | _ | x <;> simp

theorem lampSet_refused {q : Requester} {rec : OrderRecord} {s : State}
    (h : 24 ≤ ob rec 4 ∨ 48 ≤ ob rec 5 ∨ 4 ≤ ob rec 6) : lampSet q rec s = refused .refusedArg s := by
  unfold lampSet
  rcases h with h | h | h
  · rw [finOf_none.mpr h]
  · rw [finOf_none.mpr h]
    cases finOf 24 (ob rec 4) <;> rfl
  · have hlamp : lampOfByte (ob rec 6) = none := by rw [lampOfByte_eq]; exact List.getElem?_eq_none (by simpa using h)
    rw [hlamp]
    cases finOf 24 (ob rec 4) <;> cases finOf 48 (ob rec 5) <;> rfl

/-! ### KEYMAP_LOAD -/

/-- KEYMAP_LOAD of a map inside the order window: the read joins the map reads, and the order waits. -/
theorem keymapLoad_clauses {s : State} {r : Running} {rec : OrderRecord} {q : Requester} (h : s.working 13 r rec q) {p : Fin 24}
    (h4 : ob rec 4 = p.1) {c : AnchorCopy} (hc : s.csi.copy = some c) :
    let fits := ob32 rec 8 % 16 = 0 ∧ c.orders.base ≤ ob32 rec 8 ∧ ob32 rec 8 + 768 ≤ c.orders.base + c.orders.size
    (¬ fits → exec .keymapLoad s = .next (examineHalting (finishOrder r .refusedAddress 0 s.rtu.frame s))) ∧
    (fits → exec .keymapLoad s = .next { s with
      csi := { s.csi with running := some { r with waiting := some s.rtu.frame } }
      pnc := { s.pnc with mapReads := s.pnc.mapReads ++ [{ panel := p, address := ob32 rec 8, forOrder := true, mark := s.replaced.length }] } }) := by
  have hin := inOrderWindow_iff hc (ob32 rec 8) 768
  refine ⟨fun hout => order_refused h rfl ?_, fun hfits => ?_⟩
  · rw [keymapLoad, finOf_eq p h4]
    exact if_neg fun hf => hout ⟨hf.1, hin.mp hf.2⟩
  · have hexec : exec .keymapLoad s = .next (runOrder 13 keymapLoad s) := rfl
    have hblock : keymapLoad q rec s = ({ waitsFrom r s with
        pnc := { s.pnc with mapReads := s.pnc.mapReads ++ [{ panel := p, address := ob32 rec 8, forOrder := true, mark := s.replaced.length }] } }, .later) := by
      rw [keymapLoad, finOf_eq p h4]
      dsimp only
      rw [if_pos ⟨hfits.1, hin.mpr hfits.2⟩, markWaiting_running (currentOrder_running h.1).1]
      rfl
    rw [hexec, runOrder_working h, takeAnswer, hblock]
    exact congrArg _ (examineHalting_running (r := { r with waiting := some s.rtu.frame }) rfl)

/-- Settles O46: PANEL_SET step by step, LAMP_SET's lamp, and the read that KEYMAP_LOAD begins. -/
theorem panelOrders : Obligations.PanelOrders := by
  unfold Obligations.PanelOrders
  intro s r rec q
  refine ⟨fun h hbad => order_refused h rfl (by rw [panelSet, (panelSetArgs_terms rec).2 hbad]),
    fun h p c h4 h5 h6 h6' h7 h8 hm ht hmodel => ?_, fun h p k l h4 h5 h6 => ⟨fun hfn => ?_, fun hfn => ?_⟩,
    fun h hbad => order_refused h rfl (lampSet_refused hbad),
    fun h h4 => order_refused h rfl (by rw [keymapLoad, finOf_none.mpr h4]), fun h p c h4 hc => keymapLoad_clauses h h4 hc⟩
  · obtain ⟨t, hexec, ⟨hfields, hstate, hleaves, htold, hstation, hmode, hprotect, hothers, hrest⟩, hjoins⟩ :=
      panelSet_accepted h ((panelSetArgs_terms rec).1 p c h4 h5 h6 h6' h7 h8 hm ht hmodel)
    obtain ⟨hrtu, htly, hrun, hqueue, harmed⟩ := hrest
    refine ⟨t, hexec, hfields, hstate, hjoins, fun ho hno => hleaves ho (hstate ▸ hno), ?_, hstation, hmode, fun d => ?_, hothers,
      hrtu, htly, hrun, hqueue, harmed⟩
    · rw [hstate]
      have hpair := journal_eq htold
      exact hpair
    · rw [hprotect]
      cases (s.dest d).protect <;> rfl
  · refine order_refused h rfl ?_
    rw [lampSet, finOf_eq p h4, finOf_eq k h5, lampOfByte_eq, h6]
    exact if_neg hfn
  · have hblock : lampSet q rec s = done (derivePanel p (s.setPanel p ((s.panel p).withLamp k (rec.getD 6 0)))) := by
      rw [lampSet, finOf_eq p h4, finOf_eq k h5, lampOfByte_eq, h6]
      exact if_pos hfn
    have hleaves := lampSet_accepted s p k (rec.getD 6 0) (l := l) (by rw [lampOfByte_eq]; exact h6) hfn rfl
    generalize derivePanel p (s.setPanel p ((s.panel p).withLamp k (rec.getD 6 0))) = t at hblock hleaves
    obtain ⟨hmap, hon, hoff, hothers, hrtu, hrest⟩ := hleaves
    exact ⟨t, order_outcome h rfl hblock (by rw [hrtu]), hmap, hon, hoff, hothers, hrtu, hrest⟩

end Sys2Proof.Proofs.Orders
end

