-- ==== Sys2Proof/Proofs/RouterKeys.lean ====
section
/-! The router keys and the REPORT key of an ONLINE panel (O57). -/

namespace Sys2Proof.Proofs.Panels

open Sys2Proof Sys2Proof.Machine
open Sys2Proof.Proofs.Journal (journal journal_eq journal_of report_journal)
open Sys2Proof.Proofs.TalkKeyMoves (pollOver pollOver_takesAs refuseKey_flashes serveLink_panel)
open Sys2Proof.Proofs.Orders (Admitted admitUnit_admitted requestTake_admitted requestTake_full requestTake_barred takeEntries_dest superseded_journal
  refuseKey_journal)

/-! ### Presses beside the other blocks -/

/-- `u` is `s` but for panel records, link states and lamps. -/
structure Beside (s u : State) : Prop where
  told     : journal u = journal s
  xpe      : u.xpe = s.xpe
  tke      : u.tke = s.tke
  rtu      : u.rtu = s.rtu
  tly      : u.tly = s.tly
  runState : u.runState = s.runState

theorem Beside.trans {s t u : State} (h : Beside s t) (g : Beside t u) : Beside s u :=
  ⟨g.told.trans h.told, g.xpe.trans h.xpe, g.tke.trans h.tke, g.rtu.trans h.rtu, g.tly.trans h.tly, g.runState.trans h.runState⟩

theorem reselect_beside (p : Fin 24) (f : Selection → Selection) (s : State) : Beside s (reselect p f s) :=
  ⟨journal_of (by simp) (by simp), by simp, by simp, by simp, by simp, by simp⟩

theorem serveLink_beside (link : Fin 4) (s : State) : Beside s (serveLink link s) :=
  ⟨journal_of (by simp) (by simp), by simp, by simp, by simp, by simp, by simp⟩

theorem pollOver_beside (link : Fin 4) (p : Fin 24) (full : Bool) (carried : List (Fin 48 × Lamp)) (s : State) :
    Beside s (pollOver link p full carried s) := by
  obtain ⟨hj, hxpe, htly, htke, hrtu, hrun⟩ := pollOver_rest link p full carried s
  exact ⟨hj, hxpe, htke, hrtu, htly, hrun⟩

theorem reselect_selection (p : Fin 24) (f : Selection → Selection) (s : State) :
    ((reselect p f s).panel p).selection = f (s.panel p).selection := by
  have h := (reselect_still p p f s).trans (if_pos rfl)
  exact (congrArg Panel.selection h : ((reselect p f s).panel p).still.selection = _)

theorem reselect_other {p o : Fin 24} (h : o ≠ p) (f : Selection → Selection) (s : State) :
    ((reselect p f s).panel o).still = (s.panel o).still := (reselect_still p o f s).trans (if_neg (Ne.symm h))

theorem reselect_level (p : Fin 24) (f : Selection → Selection) (s : State) : ((reselect p f s).panel p).level = (s.panel p).level := by
  have h := (reselect_still p p f s).trans (if_pos rfl)
  exact (congrArg Panel.level h : ((reselect p f s).panel p).still.level = _)

/-! ### Refusals -/

section
variable {p : Fin 24} {k : Fin 48} {code : Byte} {after : Selection} {s t u : State}

/-- Key `k` of panel `p` has been refused with a code, and only that. -/
structure Flashed (p : Fin 24) (k : Fin 48) (code : Byte) (after : Selection) (s t : State) : Prop where
  timer     : (t.panel p).timers[k] = 16
  lamp      : (t.panel p).image[k] = .flash
  told      : journal t = journal (report (.key p k code) s.rtu.frame s.rtu.label s)
  selection : (t.panel p).selection = after
  xpe       : t.xpe = s.xpe
  still     : t.tke = s.tke ∧ t.rtu = s.rtu ∧ t.tly = s.tly ∧ t.runState = s.runState

theorem withImage_selection (x : Panel) (image : Vector Lamp 48) : (x.withImage image).selection = x.selection := rfl

theorem refuseKey_flashed (h : Beside s u) (hsel : (u.panel p).selection = after) (k : Fin 48) (c : Code) :
    Flashed p k c.byte after s (refuseKey p k c u) := by
  obtain ⟨htimer, hlamp⟩ := refuseKey_flashes p k c u
  refine ⟨htimer, hlamp, ?_, ?_, by simp [h.xpe], by simp [h.tke], by simp [h.rtu], by simp [h.tly], by simp [h.runState]⟩
  · rw [refuseKey_journal, h.rtu]
    exact report_journal h.told _ _ _
  · rw [refuseKey_panel, if_pos rfl, withImage_selection, hsel]

theorem Flashed.served (h : Flashed p k code after s t) (link : Fin 4) : Flashed p k code after s (serveLink link t) := by
  have hb := serveLink_beside link t
  obtain ⟨due, hp⟩ := serveLink_panel link t p
  obtain ⟨htke, hrtu, htly, hrun⟩ := h.still
  refine ⟨?_, ?_, hb.told.trans h.told, ?_, hb.xpe.trans h.xpe, hb.tke.trans htke, hb.rtu.trans hrtu, hb.tly.trans htly, hb.runState.trans hrun⟩
  · rw [hp]; exact h.timer
  · rw [hp]; exact h.lamp
  · rw [hp]; exact h.selection

end

/-! ### Takes -/

section
variable {p : Fin 24} {d : Fin 64} {m : LevelMask} {x : Source} {cause : Cause} {after : Selection} {s t u : State}

/-- The unit that a panel's request for a take gives. -/
def panelUnit (s : State) (p : Fin 24) (d : Fin 64) (m : LevelMask) (x : Source) (cause : Cause) : TakeUnit :=
  { due := none, requester := ⟨.panel p, (s.panel p).level⟩, cause := cause, salvo := none, entries := takeEntries s.xpe.dests d m x }

/-- A take notice of panel `p` on destination `d` breaks the guard of a panel's record. -/
def Breaks (d : Fin 64) (x : Panel) : Prop :=
  x.mode = .preset ∧ x.selection.guard = true ∧ x.selection.preset ≠ none ∧ x.selection.dest.map Prod.fst = some d

/-- A request of panel `p` has been queued. -/
structure Taken (p : Fin 24) (d : Fin 64) (unit : TakeUnit) (after : Selection) (s t : State) : Prop where
  xpe       : t.xpe = { s.xpe with queue := s.queueWith unit }
  selection : (t.panel p).selection = after
  still     : t.tke = s.tke ∧ t.rtu = s.rtu ∧ t.tly = s.tly ∧ t.runState = s.runState
  told      : journal t = journal (s.tellSuperseded unit.entries)
  others    : ∀ o : Fin 24, o ≠ p →
    (Breaks d (s.panel o) → (t.panel o).selection = { (s.panel o).selection with guard := false } ∧ (t.panel o).noticed = true) ∧
    (¬ Breaks d (s.panel o) → (t.panel o).selection = (s.panel o).selection ∧ (t.panel o).noticed = (s.panel o).noticed)

theorem Taken.served {unit : TakeUnit} (h : Taken p d unit after s t) (link : Fin 4) : Taken p d unit after s (serveLink link t) := by
  have hb := serveLink_beside link t
  obtain ⟨htke, hrtu, htly, hrun⟩ := h.still
  refine ⟨hb.xpe.trans h.xpe, ?_, ⟨hb.tke.trans htke, hb.rtu.trans hrtu, hb.tly.trans htly, hb.runState.trans hrun⟩, hb.told.trans h.told, fun o ho => ?_⟩
  · obtain ⟨due, hp⟩ := serveLink_panel link t p
    rw [hp]
    exact h.selection
  · obtain ⟨due, hp⟩ := serveLink_panel link t o
    rw [hp]
    exact h.others o ho

/-- Selections, modes and marks of take notices, by the records without their lamps. -/
theorem noticed_of_still {x y : Panel} (h : x.still = y.still) : x.noticed = y.noticed ∧ x.mode = y.mode ∧ x.selection = y.selection :=
  ⟨(congrArg Panel.noticed h : x.still.noticed = y.still.noticed), (congrArg Panel.mode h : x.still.mode = y.still.mode),
    (congrArg Panel.selection h : x.still.selection = y.still.selection)⟩

/-- A request of panel `p`, in a state in which only that panel's record has changed: queued, or refused with that state left. -/
structure Asks (p : Fin 24) (s u : State) : Prop where
  beside : Beside s u
  others : ∀ o, o ≠ p → (u.panel o).still = (s.panel o).still
  level  : (u.panel p).level = (s.panel p).level

theorem Asks.reselect (h : Asks p s u) (f : Selection → Selection) : Asks p s (reselect p f u) :=
  ⟨h.beside.trans (reselect_beside p f u), fun o ho => (reselect_other ho f u).trans (h.others o ho), (reselect_level p f u).trans h.level⟩

theorem Asks.requester (h : Asks p s u) : u.panelRequester p = ⟨.panel p, (s.panel p).level⟩ := by
  rw [State.panelRequester, h.level]

theorem Asks.unit (h : Asks p s u) (d : Fin 64) (m : LevelMask) (x : Source) (cause : Cause) : panelUnit u p d m x cause = panelUnit s p d m x cause := by
  rw [panelUnit, panelUnit, h.beside.xpe, h.level]

theorem queueWith_congr (h : u.xpe = s.xpe) (unit : TakeUnit) : u.queueWith unit = s.queueWith unit := by
  rw [State.queueWith, State.queueWith, h]

theorem Asks.lets (h : Asks p s u) (d : Fin 64) (q : Requester) : u.lets d q ↔ s.lets d q := by
  rw [State.lets, State.lets, Links.dest_of_xpe h.beside.xpe]

theorem dueFrame_now (r : Rate) (f : FrameIndex) (l : Label) : dueFrame r f l (some .now) = .ok none := rfl

theorem Asks.full (h : Asks p s u) (hm : m &&& (s.dest d).present ≠ 0) (hl : s.lets d ⟨.panel p, (s.panel p).level⟩)
    (hf : 64 < entriesIn (s.queueWith (panelUnit s p d m x cause))) :
    requestTake d m x (some .now) (u.panelRequester p) cause u = (u, .refusedFull, 0) := by
  have hd := Links.dest_of_xpe h.beside.xpe d
  rw [← h.unit, ← queueWith_congr h.beside.xpe] at hf
  refine requestTake_full (by rw [hd]; exact hm) (dueFrame_now _ _ _) ?_ hf
  rw [h.lets, h.requester]
  exact hl

theorem Asks.barred (h : Asks p s u) (hm : m &&& (s.dest d).present ≠ 0) (hl : ¬ s.lets d ⟨.panel p, (s.panel p).level⟩) :
    requestTake d m x (some .now) (u.panelRequester p) cause u = (u, .refusedProtected, 0) := by
  have hd := Links.dest_of_xpe h.beside.xpe d
  refine requestTake_barred (by rw [hd]; exact hm) (dueFrame_now _ _ _) ?_
  rw [h.lets, h.requester]
  exact hl

theorem Asks.admitted (h : Asks p s u) (hm : m &&& (s.dest d).present ≠ 0) (hl : s.lets d ⟨.panel p, (s.panel p).level⟩)
    (hf : entriesIn (s.queueWith (panelUnit s p d m x cause)) ≤ 64) :
    ∃ v, requestTake d m x (some .now) (u.panelRequester p) cause u = (v, .queued, (takeEntries s.xpe.dests d m x).length) ∧
      ∀ f, Taken p d (panelUnit s p d m x cause) (f (u.panel p).selection) s (Machine.reselect p f v) := by
  have hd := Links.dest_of_xpe h.beside.xpe d
  have hm' : m &&& (u.dest d).present ≠ 0 := by rw [hd]; exact hm
  rw [← h.unit, ← queueWith_congr h.beside.xpe] at hf
  have hreq := requestTake_admitted (form := some .now) (q := u.panelRequester p) (c := cause) hm' (dueFrame_now _ _ _)
    (by rw [h.lets, h.requester]; exact hl) hf
  have hdone := admitUnit_admitted hf
  rw [show takeEntries s.xpe.dests d m x = takeEntries u.xpe.dests d m x by rw [h.beside.xpe]]
  refine ⟨_, hreq, fun f => ?_⟩
  change Taken _ _ _ _ _ (Machine.reselect p f (admitUnit (panelUnit u p d m x cause) u).1)
  generalize (admitUnit (panelUnit u p d m x cause) u).1 = v at hdone
  obtain ⟨hxpe, htold, hguards, hrest⟩ := hdone
  simp only [Prod.mk.injEq] at hrest
  obtain ⟨-, hrun, hrtu, htly, htke⟩ := hrest
  have hb := reselect_beside p f v
  have hown : (v.panel p).selection = (u.panel p).selection := by
    have := (hguards p).2 fun hc => hc.2.1 rfl
    rw [this]
  refine ⟨?_, ?_, ⟨hb.tke.trans (htke.trans h.beside.tke), hb.rtu.trans (hrtu.trans h.beside.rtu), hb.tly.trans (htly.trans h.beside.tly),
    hb.runState.trans (hrun.trans h.beside.runState)⟩, ?_, fun o ho => ?_⟩
  · rw [hb.xpe, hxpe, queueWith_congr h.beside.xpe, h.unit, h.beside.xpe]
  · rw [reselect_selection, hown]
  · rw [hb.told, htold, h.unit, tellSuperseded_eq, tellSuperseded_eq, h.beside.xpe]
    exact superseded_journal h.beside.told h.beside.rtu _
  · obtain ⟨hnoticed, hmode, hsel⟩ := noticed_of_still (h.others o ho)
    obtain ⟨rnoticed, -, rsel⟩ := noticed_of_still (reselect_other ho f v)
    obtain ⟨hbreaks, hkeeps⟩ := hguards o
    have hiff : (u.panel o).mode = .preset ∧ (panelUnit u p d m x cause).requester.owner ≠ .panel o ∧ (u.panel o).selection.guard = true ∧
        (u.panel o).selection.preset ≠ none ∧
        (∃ e n, (u.panel o).selection.dest = some (e, n) ∧ ∃ y ∈ (panelUnit u p d m x cause).entries, y.dest = e) ↔ Breaks d (s.panel o) := by
      have howner : (panelUnit u p d m x cause).requester.owner ≠ .panel o := fun hc => ho (Owner.panel.inj hc).symm
      have hdest : (∃ e n, (u.panel o).selection.dest = some (e, n) ∧ ∃ y ∈ (panelUnit u p d m x cause).entries, y.dest = e) ↔
          (s.panel o).selection.dest.map Prod.fst = some d := by
        rw [hsel, Option.map_eq_some_iff]
        constructor
        · rintro ⟨e, n, he, hy⟩
          exact ⟨(e, n), he, (takeEntries_dest hm' e).mp hy⟩
        · rintro ⟨⟨e, n⟩, he, rfl⟩
          exact ⟨e, n, he, (takeEntries_dest hm' e).mpr rfl⟩
      rw [hmode, hdest, hsel, Breaks]
      exact ⟨fun ⟨h1, _, h2⟩ => ⟨h1, h2⟩, fun ⟨h1, h2⟩ => ⟨h1, howner, h2⟩⟩
    rw [rsel, rnoticed]
    refine ⟨fun hc => ?_, fun hc => ?_⟩
    · obtain ⟨hnew, -⟩ := hbreaks (hiff.mpr hc)
      rw [hnew, ← hsel]
      exact ⟨rfl, rfl⟩
    · rw [hkeeps fun h => hc (hiff.mp h)]
      exact ⟨hsel, hnoticed⟩

end

/-! ### Presses -/

/-- The state in which an event of an ONLINE panel's key is dealt with, against the state at the reply. -/
structure Pressed (p : Fin 24) (k : Fin 48) (s u : State) : Prop extends Asks p s u where
  selection : (u.panel p).selection = (s.panel p).selection
  mode      : (u.panel p).mode = (s.panel p).mode
  noticed   : (u.panel p).noticed = (s.panel p).noticed
  action    : u.keyAction p k = s.keyAction p k
  replaced  : u.replaced = s.replaced

theorem pollOver_pressed (link : Fin 4) (p : Fin 24) (k : Fin 48) (full : Bool) (carried : List (Fin 48 × Lamp)) (s : State) :
    Pressed p k s (pollOver link p full carried s) := by
  have hself := pollOver_self link p full carried s
  exact ⟨⟨pollOver_beside link p full carried s, fun o ho => by rw [pollOver_other ho], by rw [hself]; rfl⟩, by rw [hself]; rfl, by rw [hself]; rfl,
    by rw [hself]; rfl, (pollOver_takesAs link p full carried s).keyAction p k, rfl⟩

/-- A reply with one event of an ONLINE panel, in SWEEP or RUNNING. -/
theorem exec_event {s : State} {link : Fin 4} {p : Fin 24} {k : Fin 48} {b full ahead : Bool} {carried : List (Fin 48 × Lamp)}
    (hout : s.pnc.links[link].out = some (.poll p false b full carried)) (hon : (s.panel p).state = .online)
    (hrun : s.runState = .sweep ∨ s.runState = .running) (down : Bool) :
    exec (.reply link { address := addressOf p, echo := b, code := none, events := [{ key := BitVec.ofNat 8 k.1, press := down }], ahead := ahead }) s =
      .next (serveLink link (if down then keyPress ahead p k (pollOver link p full carried s) else keyRelease p k (pollOver link p full carried s))) := by
  have hq := pollOver_takesAs link p full carried s
  have hevent : keyEvent ahead p k down (pollOver link p full carried s) =
      if down then keyPress ahead p k (pollOver link p full carried s) else keyRelease p k (pollOver link p full carried s) :=
    if_pos ⟨(hq.state p).trans hon, (serving_iff _).mpr (by rw [hq.runState]; exact hrun)⟩
  rw [answeredPoll_taken hout (ev := [(k, down)]) rfl rfl rfl (by simp) (TalkKeyMoves.eventKeys_one k [down]), ← hevent]
  rfl

section
variable {p : Fin 24} {k : Fin 48} {d : Fin 64} {m : LevelMask} {x : Source} {after : Selection} {s u : State}

/-- A request with its answer: a take, a full queue, or a protect in the way. -/
structure Answered (p : Fin 24) (k : Fin 48) (d : Fin 64) (m : LevelMask) (x : Source) (cause : Cause) (done refused : Selection) (s t : State) : Prop where
  free   : m &&& (s.dest d).present ≠ 0 → s.lets d ⟨.panel p, (s.panel p).level⟩ → entriesIn (s.queueWith (panelUnit s p d m x cause)) ≤ 64 →
    Taken p d (panelUnit s p d m x cause) done s t
  full   : m &&& (s.dest d).present ≠ 0 → s.lets d ⟨.panel p, (s.panel p).level⟩ → 64 < entriesIn (s.queueWith (panelUnit s p d m x cause)) →
    Flashed p k 0x15 refused s t
  barred : m &&& (s.dest d).present ≠ 0 → ¬ s.lets d ⟨.panel p, (s.panel p).level⟩ → Flashed p k 0x13 refused s t

theorem Answered.served {cause : Cause} {done refused : Selection} {t : State} (h : Answered p k d m x cause done refused s t) (link : Fin 4) :
    Answered p k d m x cause done refused s (serveLink link t) :=
  ⟨fun hm hl hf => (h.free hm hl hf).served link, fun hm hl hf => (h.full hm hl hf).served link, fun hm hl => (h.barred hm hl).served link⟩

/-- A request answered by `f` on the selection where it is queued, and by a refusal's flash. -/
theorem Asks.answered (h : Asks p s u) (k : Fin 48) (d : Fin 64) (m : LevelMask) (x : Source) (cause : Cause) (f : Selection → Selection) :
    let y := requestTake d m x (some .now) (u.panelRequester p) cause u
    Answered p k d m x cause (f (u.panel p).selection) (u.panel p).selection s
      (if y.2.1 = .queued then Machine.reselect p f y.1 else refuseKey p k y.2.1 y.1) := by
  intro y
  refine ⟨fun hm hl hf => ?_, fun hm hl hf => ?_, fun hm hl => ?_⟩
  · obtain ⟨v, hv, htaken⟩ := h.admitted (x := x) (cause := cause) hm hl hf
    rw [show y = (v, .queued, _) from hv, if_pos rfl]
    exact htaken f
  · rw [show y = (u, .refusedFull, 0) from h.full hm hl hf, if_neg (show ¬ ((u, Code.refusedFull, 0) : State × Code × Nat).2.1 = .queued from nofun)]
    exact refuseKey_flashed h.beside rfl k .refusedFull
  · rw [show y = (u, .refusedProtected, 0) from h.barred hm hl,
      if_neg (show ¬ ((u, Code.refusedProtected, 0) : State × Code × Nat).2.1 = .queued from nofun)]
    exact refuseKey_flashed h.beside rfl k .refusedProtected

/-- A SOURCE key in DIRECT mode asks for a take. -/
theorem Pressed.source (h : Pressed p k s u) (hdest : (s.panel p).selection.dest = some (d, m)) (hmode : (s.panel p).mode = .direct) :
    Answered p k d m x .take { (s.panel p).selection with walk := none } (s.panel p).selection s (sourcePress p k x u) := by
  have hpress : sourcePress p k x u = afterTake p k (requestTake d m x (some .now) (u.panelRequester p) .take u) := by
    rw [sourcePress, h.selection, hdest]
    dsimp only
    rw [h.mode, hmode]
  rw [hpress, ← h.selection]
  exact h.toAsks.answered k d m x .take Selection.noWalk

/-- A SOURCE key in PRESET mode holds a preset. -/
theorem Pressed.preset (h : Pressed p k s u) (hdest : (s.panel p).selection.dest = some (d, m)) (hmode : (s.panel p).mode = .preset) :
    sourcePress p k x u = Machine.reselect p (fun y => { y with preset := some x, guard := true }) u := by
  rw [sourcePress, h.selection, hdest]
  dsimp only
  rw [h.mode, hmode]

theorem valid_iff (h : Pressed p k s u) (ahead : Bool) : ((s.panel p).selection.guard || (ahead && (u.panel p).noticed)) = true ↔
    (s.panel p).selection.guard = true ∨ (ahead = true ∧ (s.panel p).noticed = true) := by
  rw [h.noticed]
  simp

/-- A TAKE key takes the preset of a VALID guard. -/
theorem Pressed.take (h : Pressed p k s u) {ahead : Bool} (hpreset : (s.panel p).selection.preset = some x)
    (hvalid : (s.panel p).selection.guard = true ∨ (ahead = true ∧ (s.panel p).noticed = true)) (hdest : (s.panel p).selection.dest = some (d, m)) :
    Answered p k d m x .take { (s.panel p).selection with preset := none, guard := false, walk := none }
      { (s.panel p).selection with preset := none, guard := false } s (takePress ahead p k u) := by
  have hpress : takePress ahead p k u = afterTake p k (requestTake d m x (some .now) ((Machine.reselect p Selection.noPreset u).panelRequester p) .take
      (Machine.reselect p Selection.noPreset u)) := by
    rw [takePress, h.selection, hpreset]
    dsimp only
    rw [if_pos ((valid_iff h ahead).mpr hvalid), hdest]
  have hsel : ((Machine.reselect p Selection.noPreset u).panel p).selection = { (s.panel p).selection with preset := none, guard := false } := by
    rw [reselect_selection, h.selection]
    rfl
  have hanswered := (h.toAsks.reselect Selection.noPreset).answered k d m x .take Selection.noWalk
  rw [hsel] at hanswered
  rw [hpress]
  exact hanswered

/-- A TAKE key without a preset, or with its guard broken, is stale. -/
theorem Pressed.stale (h : Pressed p k s u) {ahead : Bool}
    (hstale : ¬ ((s.panel p).selection.guard = true ∨ (ahead = true ∧ (s.panel p).noticed = true)) ∨ (s.panel p).selection.preset = none) :
    Flashed p k 0x19 { (s.panel p).selection with preset := none, guard := false } s (takePress ahead p k u) := by
  have hpress : takePress ahead p k u = refuseKey p k .refusedStale (Machine.reselect p Selection.noPreset u) := by
    rw [takePress, h.selection]
    cases hpreset : (s.panel p).selection.preset with
    | none => rfl
    | some y =>
      have hno := hstale.resolve_right (by rw [hpreset]; nofun)
      dsimp only
      rw [if_neg fun hc => hno ((valid_iff h ahead).mp hc)]
  rw [hpress]
  refine refuseKey_flashed (h.beside.trans (reselect_beside _ _ _)) ?_ k .refusedStale
  rw [reselect_selection, h.selection]
  rfl

/-! ### STEP -/

/-- Position `i` of group `g` holds the V source of a destination. -/
def HoldsSource (s : State) (g : Fin 8) (d : Fin 64) (i : Fin 4) : Prop :=
  (s.dest d).present.getLsbD 0 = true ∧ (s.dest d).entryV.state ≠ .unknown ∧ s.xpe.steps[g].sources[i] = (s.dest d).entryV.source

theorem holdsSource_iff (s : State) (g : Fin 8) (d : Fin 64) (hv : hasLevel (s.dest d).present .v = true) (hk : (s.dest d).entryV.state ≠ .unknown)
    (i : Fin 4) : decide (s.xpe.steps[g].sources[i] = (s.dest d).entryV.source) = true ↔ HoldsSource s g d i := by
  rw [decide_eq_true_iff]
  exact ⟨fun h => ⟨hv, hk, h⟩, fun h => h.2.2⟩

/-- The origin of a walk is the lowest position that holds the source, if one does. -/
theorem walkOrigin_first {g : Fin 8} {i : Fin 4} (h : HoldsSource s g d i) (hfirst : ∀ j, j < i → ¬ HoldsSource s g d j) :
    s.walkOrigin g d = some i := by
  have hiff := holdsSource_iff s g d h.1 h.2.1
  rw [State.walkOrigin, if_pos (show hasLevel (s.dest d).present .v = true from h.1), MapEntry.gives, if_neg h.2.1]
  exact find_first ((hiff i).mpr h) fun j hj => Bool.eq_false_iff.mpr fun hc => hfirst j hj ((hiff j).mp hc)

theorem walkOrigin_none {g : Fin 8} (h : ∀ j, ¬ HoldsSource s g d j) : s.walkOrigin g d = none := by
  rw [State.walkOrigin]
  split
  · rename_i hv
    by_cases hk : (s.dest d).entryV.state = .unknown
    · rw [MapEntry.gives, if_pos hk]
    · rw [MapEntry.gives, if_neg hk]
      exact find_none fun j => Bool.eq_false_iff.mpr fun hc => h j ((holdsSource_iff s g d hv hk j).mp hc)
  · rfl

/-- The walk that a STEP press works on. -/
theorem walkFor_eq {g : Fin 8} {w : Walk} (h : ((s.panel p).selection.walk = some w ∧ w.group = g) ∨
    ((∀ v, (s.panel p).selection.walk = some v → v.group ≠ g) ∧ w.group = g ∧
      ((HoldsSource s g d w.origin ∧ (∀ j, j < w.origin → ¬ HoldsSource s g d j) ∧ w.count = 0) ∨
        ((∀ j, ¬ HoldsSource s g d j) ∧ w.origin = 0 ∧ w.count = 3)))) : s.walkFor p g d = w := by
  rcases h with ⟨hw, hg⟩ | ⟨hother, hg, hnew⟩
  · rw [State.walkFor, hw]
    exact if_pos hg
  · have hset : (match s.walkOrigin g d with
        | some o => ({ group := g, origin := o, count := 0 } : Walk)
        | none => { group := g, origin := 0, count := 3 }) = w := by
      rcases hnew with ⟨hi, hfirst, hc⟩ | ⟨hno, ho, hc⟩
      · rw [walkOrigin_first hi hfirst, ← hg, ← hc]
      · rw [walkOrigin_none hno, ← hg, ← hc, ← ho]
    rw [← hset, State.walkFor]
    cases hv : (s.panel p).selection.walk with
    | none => rfl
    | some v => exact if_neg (hother v hv)

theorem stepPosition_eq {o : StepOrder} {w : Walk} {i : Fin 4} (hl : o = .linear → i.1 = (w.origin.1 + w.count.1 + 1) % 4)
    (hi : o = .interleaved → i.1 = w.origin.1 ^^^ ((w.count.1 + 1) % 4)) : stepPosition o w.origin (w.count.1 + 1) = i := by
  cases o with
  | linear =>
    refine Fin.ext ?_
    rw [hl rfl, Nat.add_assoc]
    rfl
  | interleaved =>
    refine Fin.ext ?_
    rw [hi rfl]
    exact Nat.mod_eq_of_lt (Nat.xor_lt_two_pow (n := 2) w.origin.2 (Nat.mod_lt _ (by decide)))

theorem walkFor_congr (h : Pressed p k s u) (g : Fin 8) (d : Fin 64) : u.walkFor p g d = s.walkFor p g d := by
  have horigin : u.walkOrigin g d = s.walkOrigin g d := by
    rw [State.walkOrigin, State.walkOrigin, Links.dest_of_xpe h.beside.xpe, h.beside.xpe]
  rw [State.walkFor, State.walkFor, h.selection, horigin]

/-- A STEP key asks for the take of its walk's next position. -/
theorem Pressed.step (h : Pressed p k s u) {g : Fin 8} {w : Walk} {i : Fin 4} (hdest : (s.panel p).selection.dest = some (d, m))
    (hw : s.walkFor p g d = w) (hi : stepPosition s.xpe.steps[g].order w.origin (w.count.1 + 1) = i) :
    Answered p k d m s.xpe.steps[g].sources[i] .step { (s.panel p).selection with walk := some { w with count := w.count + 1 } }
      { (s.panel p).selection with walk := some w } s (stepPress p k g u) := by
  have hanswered := (h.toAsks.reselect fun y => { y with walk := some w }).answered k d m s.xpe.steps[g].sources[i] .step
    fun y => { y with walk := some { w with count := w.count + 1 } }
  have hsel : ((Machine.reselect p (fun y => { y with walk := some w }) u).panel p).selection = { (s.panel p).selection with walk := some w } := by
    rw [reselect_selection, h.selection]
  rw [hsel] at hanswered
  rw [stepPress, h.selection, hdest]
  dsimp only
  simp only [walkFor_congr h, hw, h.beside.xpe, hi]
  exact hanswered

/-! ### SALVO and PROTECT -/

/-- A SALVO key's request. -/
def keyRequest (s : State) (p : Fin 24) (k : Fin 48) (n : Fin 16) : FireRequest :=
  { salvo := n, due := none, requester := ⟨.panel p, (s.panel p).level⟩, cause := .salvo, origin := .key p k }

theorem Pressed.salvo (h : Pressed p k s u) (n : Fin 16) : salvoPress p k n u = fire (keyRequest s p k n) u := by
  rw [salvoPress, h.requester]
  rfl

theorem Pressed.salvoIdle (h : Pressed p k s u) (n : Fin 16) (hr : s.xpe.reading = none) (hf : s.xpe.fires = []) :
    salvoPress p k n u = beginReads [keyRequest s p k n] u := by
  rw [h.salvo, fire, h.beside.xpe, hr, hf]
  rfl

theorem Pressed.salvoUndefined (h : Pressed p k s u) {n : Fin 16} (hr : s.xpe.reading = none) (hf : s.xpe.fires = []) (hn : s.xpe.salvos[n] = none) :
    Flashed p k 0x18 (s.panel p).selection s (salvoPress p k n u) := by
  have hfires : u.xpe.fires = [] := by rw [h.beside.xpe, hf]
  have hnone : u.xpe.salvos[n] = none := by rw [h.beside.xpe]; exact hn
  have hrefused : salvoPress p k n u = beginReads [] (refuseKey p k .refusedSalvo u) := by
    rw [h.salvoIdle n hr hf, Orders.beginReads_refused (y := keyRequest s p k n) [] fun v hv => nomatch hnone.symm.trans hv]
    rfl
  rw [hrefused, beginReads, Orders.fires_same (by simpa using hfires)]
  exact refuseKey_flashed h.beside h.selection k .refusedSalvo

theorem Pressed.salvoBegun (h : Pressed p k s u) {n : Fin 16} (hr : s.xpe.reading = none) (hf : s.xpe.fires = []) {v : SalvoRecord}
    (hv : s.xpe.salvos[n] = some v) (hin : s.inOrderWindow v.address (16 * v.count) = true) :
    salvoPress p k n u = { u with xpe := { s.xpe with
      reading := some { request := keyRequest s p k n, address := v.address, count := v.count, mark := s.replaced.length } } } := by
  have hsome : u.xpe.salvos[n] = some v := by rw [h.beside.xpe]; exact hv
  have hin' : u.inOrderWindow v.address (16 * v.count) = true := by
    rw [State.inOrderWindow, (journal_eq h.beside.told).1]
    exact hin
  rw [h.salvoIdle n hr hf, Orders.beginReads_begun (y := keyRequest s p k n) [] hsome hin', h.beside.xpe, h.replaced]
  simp only [hf]

/-- What a press leaves that touches neither the talk tables, the times nor the tallies. -/
def Still (s t : State) : Prop := t.tke = s.tke ∧ t.rtu = s.rtu ∧ t.tly = s.tly ∧ t.runState = s.runState

theorem Beside.still {t : State} (h : Beside s t) : Still s t := ⟨h.tke, h.rtu, h.tly, h.runState⟩

/-- A PROTECT key's request, by the standing protect. -/
def protectRequest (p : Fin 24) (d : Fin 64) (u : State) : State × Code :=
  if ((u.dest d).protect.map fun y => y.owner) = some (.panel p) then requestRelease d (u.panelRequester p) u
  else requestProtect d (u.panelRequester p) u

theorem Pressed.protectPress_done (h : Pressed p k s u) (hdest : (s.panel p).selection.dest = some (d, m)) {v : State}
    (hv : protectRequest p d u = (v, .done)) : protectPress p k u = v := by
  refine (Orders.protectPress_eq (s := u) (k := k) (p := p) (d := d) (m := m) (by rw [h.selection]; exact hdest)).trans ?_
  change (if (protectRequest p d u).2 = .done then (protectRequest p d u).1 else refuseKey p k (protectRequest p d u).2 (protectRequest p d u).1) = v
  rw [hv]
  exact if_pos rfl

theorem Pressed.protectPress_refused (h : Pressed p k s u) (hdest : (s.panel p).selection.dest = some (d, m))
    (hv : protectRequest p d u = (u, .refusedProtected)) : protectPress p k u = refuseKey p k .refusedProtected u := by
  refine (Orders.protectPress_eq (s := u) (k := k) (p := p) (d := d) (m := m) (by rw [h.selection]; exact hdest)).trans ?_
  change (if (protectRequest p d u).2 = .done then (protectRequest p d u).1 else refuseKey p k (protectRequest p d u).2 (protectRequest p d u).1) = _
  rw [hv]
  exact if_neg nofun

/-- A PROTECT key releases its panel's own protect. -/
theorem Pressed.release (h : Pressed p k s u) (hdest : (s.panel p).selection.dest = some (d, m)) {y : Protect} (hy : (s.dest d).protect = some y)
    (ho : y.owner = .panel p) : (protectPress p k u).xpe = { s.xpe with dests := upd s.xpe.dests d { s.dest d with protect := none } } ∧
      Still s (protectPress p k u) := by
  have hd := Links.dest_of_xpe h.beside.xpe d
  have hrel := Orders.requestRelease_allowed (s := u) (q := u.panelRequester p) (p := y) (by rw [hd]; exact hy) (.inl ho)
  rw [h.protectPress_done hdest ((if_pos (by rw [hd, hy]; exact congrArg some ho)).trans hrel), Still]
  simp [h.beside.xpe, h.beside.tke, h.beside.rtu, h.beside.tly, h.beside.runState, hd]

/-- A PROTECT key protects a destination that is free of others' protects, or that it beats. -/
theorem Pressed.protect (h : Pressed p k s u) (hdest : (s.panel p).selection.dest = some (d, m))
    (hl : (s.dest d).protect = none ∨ ∃ y, (s.dest d).protect = some y ∧ y.owner ≠ .panel p ∧ (s.panel p).level < y.level) :
    (protectPress p k u).xpe = { s.xpe with dests := upd s.xpe.dests d { s.dest d with protect := some ⟨(s.panel p).level, .panel p⟩ } } ∧
      Still s (protectPress p k u) := by
  have hd := Links.dest_of_xpe h.beside.xpe d
  have hown : ¬ ((u.dest d).protect.map fun y => y.owner) = some (.panel p) := by
    rw [hd]
    rcases hl with hn | ⟨y, hy, ho, -⟩
    · rw [hn]; nofun
    · rw [hy]; exact fun hc => ho (Option.some.inj hc)
  have hpro := Orders.requestProtect_allowed (s := u) (d := d) (q := u.panelRequester p) (by
    rw [h.lets, h.requester]
    exact hl.imp_right fun ⟨y, hy, _, hlt⟩ => ⟨y, hy, .inr hlt⟩)
  rw [h.requester] at hpro
  rw [h.protectPress_done hdest ((if_neg hown).trans (h.requester ▸ hpro)), Still]
  simp [h.beside.xpe, h.beside.tke, h.beside.rtu, h.beside.tly, h.beside.runState, h.requester, hd]

/-- Another's protect that the panel does not beat stops it. -/
theorem Pressed.protectBarred (h : Pressed p k s u) (hdest : (s.panel p).selection.dest = some (d, m)) {y : Protect}
    (hy : (s.dest d).protect = some y) (ho : y.owner ≠ .panel p) (hle : y.level ≤ (s.panel p).level) :
    Flashed p k 0x13 (s.panel p).selection s (protectPress p k u) := by
  have hd := Links.dest_of_xpe h.beside.xpe d
  have hown : ¬ ((u.dest d).protect.map fun y => y.owner) = some (.panel p) := by
    rw [hd, hy]
    exact fun hc => ho (Option.some.inj hc)
  have hpro := Orders.requestProtect_barred (s := u) (d := d) (q := u.panelRequester p) (by
    rw [h.lets, h.requester]
    rintro (hn | ⟨z, hz, hc⟩)
    · rw [hn] at hy; cases hy
    · rw [hy] at hz
      cases hz
      rcases hc with hc | hc
      · exact ho hc
      · exact absurd hle (Fin.not_le.mpr hc))
  rw [h.protectPress_refused hdest ((if_neg hown).trans hpro)]
  exact refuseKey_flashed h.beside h.selection k .refusedProtected

/-- Without a selected destination SOURCE, STEP and PROTECT are refused. -/
theorem Pressed.unselected (h : Pressed p k s u) (hnone : (s.panel p).selection.dest = none) (ahead : Bool)
    (hk : (∃ x, s.keyAction p k = .source x) ∨ (∃ g, s.keyAction p k = .step g) ∨ s.keyAction p k = .protect) :
    Flashed p k 0x11 (s.panel p).selection s (keyPress ahead p k u) := by
  have hpress : keyPress ahead p k u = refuseKey p k .refusedArg u := by
    rw [keyPress, h.action]
    rcases hk with ⟨x, hk⟩ | ⟨g, hk⟩ | hk
    · rw [hk]
      change sourcePress p k x u = _
      rw [sourcePress, h.selection, hnone]
    · rw [hk]
      change stepPress p k g u = _
      rw [stepPress, h.selection, hnone]
    · rw [hk]
      change protectPress p k u = _
      rw [protectPress, h.selection, hnone]
  rw [hpress]
  exact refuseKey_flashed h.beside h.selection k .refusedArg

end

/-- The link's next message after an event leaves its selection and every block but the PNC. -/
theorem served_beside {p : Fin 24} {s t : State} (link : Fin 4) : ((serveLink link t).panel p).selection = (t.panel p).selection ∧
    (serveLink link t).xpe = t.xpe ∧ (serveLink link t).csi = t.csi ∧ (serveLink link t).store = t.store ∧ (Still s t → Still s (serveLink link t)) := by
  have hb := serveLink_beside link t
  obtain ⟨due, hp⟩ := serveLink_panel link t p
  exact ⟨by rw [hp], hb.xpe, (journal_eq hb.told).1, (journal_eq hb.told).2, fun ⟨htke, hrtu, htly, hrun⟩ =>
    ⟨hb.tke.trans htke, hb.rtu.trans hrtu, hb.tly.trans htly, hb.runState.trans hrun⟩⟩

/-- Settles O57: each key's press, between the poll's end and the link's next message. -/
theorem routerKeysPressed : Obligations.RouterKeysPressed := by
  unfold Obligations.RouterKeysPressed
  intro s link p k b full ahead carried hout hon hrun event sel me keyReport still refusedAs unit takes may held free fullQueue barred
  have hq := pollOver_pressed link p k full carried s
  have hexec := exec_event (k := k) (ahead := ahead) hout hon hrun
  generalize pollOver link p full carried s = u at hq hexec
  have hpress : exec (event true) s = .next (serveLink link (keyPress ahead p k u)) := hexec true
  have hrefused : ∀ {code after}, Flashed p k code after s (keyPress ahead p k u) → refusedAs code after := by
    intro code after h
    obtain ⟨htimer, hlamp, htold, hsel, hxpe, hstill⟩ := h.served link
    exact ⟨_, hpress, htimer, hlamp, journal_eq htold, hsel, hxpe, hstill⟩
  have htaken : ∀ {d m x cause after}, Taken p d (panelUnit s p d m x cause) after s (keyPress ahead p k u) → takes d m x cause after := by
    intro d m x cause after h
    obtain ⟨hxpe, hsel, hstill, htold, hothers⟩ := h.served link
    exact ⟨_, hpress, hxpe, hsel, hstill, journal_eq htold, hothers⟩
  have hanswered : ∀ {d m x cause done refused}, (∀ x, held d m x = entriesIn (s.queueWith (unit d m x cause))) →
      Answered p k d m x cause done refused s (keyPress ahead p k u) →
      (free d m x → takes d m x cause done) ∧ (fullQueue d m x → refusedAs 0x15 refused) ∧ (barred d m → refusedAs 0x13 refused) := by
    intro d m x cause done refused hsame h
    exact ⟨fun ⟨⟨hm, hl⟩, hf⟩ => htaken (h.free hm hl (hsame x ▸ hf)), fun ⟨⟨hm, hl⟩, hf⟩ => hrefused (h.full hm hl (hsame x ▸ hf)),
      fun ⟨hm, hl⟩ => hrefused (h.barred hm hl)⟩
  have hheld : ∀ {cause} d m x, held d m x = entriesIn (s.queueWith (unit d m x cause)) := by
    intro cause d m x
    simp only [held, State.queueWith, entriesIn, List.map_append, List.map_cons, List.map_nil, unit]
  have hpressed : ∀ {a}, s.keyAction p k = a → u.keyAction p k = a := fun h => hq.action.trans h
  refine ⟨fun d m hk => ?_, fun hnone hk => hrefused (hq.unselected hnone ahead hk), fun x d m hk hdest => ⟨fun hmode => ?_, ?_⟩, fun hk => ?_,
    fun g d m w hk hdest => ?_, fun n hk => ?_, fun d m hk hdest => ?_, fun lamp down hk => ?_⟩
  · have hkey : keyPress ahead p k u = reselect p (fun _ => { dest := some (d, m), preset := none, guard := false, walk := none }) u := by
      rw [keyPress, hpressed hk]
    have hb := hq.beside.trans (reselect_beside p (fun _ => { dest := some (d, m), preset := none, guard := false, walk := none }) u)
    have hsel := reselect_selection p (fun _ => { dest := some (d, m), preset := none, guard := false, walk := none }) u
    rw [← hkey] at hb hsel
    obtain ⟨tsel, txpe, tcsi, -, tstill⟩ := served_beside (p := p) (s := s) (t := keyPress ahead p k u) link
    exact ⟨_, hpress, tsel.trans hsel, txpe.trans hb.xpe, tcsi.trans (journal_eq hb.told).1, tstill hb.still⟩
  · have hkey : keyPress ahead p k u = reselect p (fun y => { y with preset := some x, guard := true }) u := by
      rw [keyPress, hpressed hk]
      exact hq.preset hdest hmode
    have hb := hq.beside.trans (reselect_beside p (fun y => { y with preset := some x, guard := true }) u)
    have hsel := reselect_selection p (fun y => { y with preset := some x, guard := true }) u
    rw [← hkey, hq.selection] at hsel
    rw [← hkey] at hb
    obtain ⟨tsel, txpe, tcsi, -, tstill⟩ := served_beside (p := p) (s := s) (t := keyPress ahead p k u) link
    exact ⟨_, hpress, tsel.trans hsel, txpe.trans hb.xpe, tcsi.trans (journal_eq hb.told).1, tstill hb.still⟩
  · have hkey : keyPress ahead p k u = sourcePress p k x u := by rw [keyPress, hpressed hk]
    have hall : (s.panel p).mode = .direct → _ := fun hmode => hanswered (hheld d m) (hkey ▸ hq.source (x := x) hdest hmode)
    exact ⟨fun hmode => (hall hmode).1, fun hmode => (hall hmode).2.1, fun hmode => (hall hmode).2.2⟩
  · have hkey : keyPress ahead p k u = takePress ahead p k u := by rw [keyPress, hpressed hk]
    refine ⟨fun hstale => hrefused (hkey ▸ hq.stale hstale), fun x d m hpreset hvalid hdest => ?_⟩
    exact hanswered (hheld d m) (hkey ▸ hq.take hpreset hvalid hdest)
  · intro holds hwalk i hlinear hinter
    have hkey : keyPress ahead p k u = stepPress p k g u := by rw [keyPress, hpressed hk]
    obtain ⟨hfree, hfull, hbarred⟩ := hanswered (hheld d m) (hkey ▸ hq.step hdest (walkFor_eq hwalk) (stepPosition_eq hlinear hinter))
    exact ⟨hfull, hfree, hbarred⟩
  · intro request
    have hkey : keyPress ahead p k u = salvoPress p k n u := by rw [keyPress, hpressed hk]
    obtain ⟨-, txpe, tcsi, -, tstill⟩ := served_beside (p := p) (s := s) (t := keyPress ahead p k u) link
    refine ⟨fun hreading => ?_, fun hreading hfires => ⟨fun hnone => hrefused (hkey ▸ hq.salvoUndefined hreading hfires hnone),
      fun v c hv hc hlow hhigh => ?_⟩⟩
    · obtain ⟨y, hy⟩ := Option.ne_none_iff_exists'.mp hreading
      have hfire : keyPress ahead p k u = { u with xpe := { s.xpe with fires := s.xpe.fires ++ [request] } } := by
        rw [hkey, hq.salvo, fire, hq.beside.xpe, hy]
        rfl
      refine ⟨_, hpress, txpe.trans (by rw [hfire]), tcsi.trans ?_, tstill ?_⟩
      · rw [hfire]
        exact (journal_eq hq.beside.told).1
      · rw [hfire]
        exact hq.beside.still
    · have hbegun := hq.salvoBegun hreading hfires hv ((Orders.inOrderWindow_iff hc _ _).mpr ⟨hlow, hhigh⟩)
      rw [← hkey] at hbegun
      refine ⟨_, hpress, tcsi.trans ?_, tstill ?_, txpe.trans (by rw [hbegun]; rfl)⟩
      · rw [hbegun]
        exact (journal_eq hq.beside.told).1
      · rw [hbegun]
        exact hq.beside.still
  · have hkey : keyPress ahead p k u = protectPress p k u := by rw [keyPress, hpressed hk]
    obtain ⟨-, txpe, -, -, tstill⟩ := served_beside (p := p) (s := s) (t := keyPress ahead p k u) link
    rw [hkey] at txpe tstill hpress
    refine ⟨fun y hy ho => ?_, fun hl => ?_, fun y hy ho hle => hrefused (hkey ▸ hq.protectBarred hdest hy ho hle)⟩
    · obtain ⟨hxpe, hstill⟩ := hq.release hdest hy ho
      exact ⟨_, hpress, txpe.trans hxpe, tstill hstill⟩
    · obtain ⟨hxpe, hstill⟩ := hq.protect hdest hl
      exact ⟨_, hpress, tstill hstill, txpe.trans hxpe⟩
  · have hevent : (if down = true then keyPress ahead p k u else keyRelease p k u) = reportNow (.key p k (if down = true then 0 else 1)) u := by
      cases down
      · rw [keyRelease, hpressed hk]
        rfl
      · rw [keyPress, hpressed hk]
        rfl
    have hdown := hexec down
    rw [hevent] at hdown
    obtain ⟨tsel, txpe, tcsi, tstore, tstill⟩ := served_beside (p := p) (s := s) (t := reportNow (.key p k (if down = true then 0 else 1)) u) link
    have htold : journal (reportNow (.key p k (if down = true then 0 else 1)) u) =
        journal (report (.key p k (if down = true then 0 else 1)) s.rtu.frame s.rtu.label s) := by
      rw [reportNow, hq.beside.rtu]
      exact report_journal hq.beside.told _ _ _
    have hframe := reportNow_frame (.key p k (if down = true then 0 else 1)) u
    obtain ⟨-, frun, frtu, fxpe, ftly, ftke, fpnc, -⟩ := hframe
    have hpanel : (reportNow (.key p k (if down = true then 0 else 1)) u).panel p = u.panel p := panel_of_pnc fpnc p
    exact ⟨_, hdown, ⟨tcsi.trans (journal_eq htold).1, tstore.trans (journal_eq htold).2⟩, tsel.trans ((congrArg Panel.selection hpanel).trans hq.selection),
      txpe.trans (fxpe.trans hq.beside.xpe), tstill ⟨ftke.trans hq.beside.tke, frtu.trans hq.beside.rtu, ftly.trans hq.beside.tly, frun.trans hq.beside.runState⟩⟩

end Sys2Proof.Proofs.Panels
end

