-- ==== Sys2Proof/Proofs/Boundaries.lean ====
section
/-! What a frame boundary brings to the cues, the inputs and the fabric link (O18, O19). -/

namespace Sys2Proof.Proofs.Boundaries

open Sys2Proof Sys2Proof.Machine
open Sys2Proof.Proofs.Journal (journal journal_eq journal_of report_journal)
open Sys2Proof.Proofs.FrameTime (clock cueMatch_clock scalerBoundary_rtu)
open Sys2Proof.Proofs.Links (SameRouter declareSettled_router)
open Sys2Proof.Proofs.Panels (wiring wiring_of derivePanel_wiring)

/-! ### The new frame -/

/-- The new frame, before its cues are compared. -/
def opened (s : State) : State :=
  nextFrame (endFlashes (examineKeys (s.setRtu { s.rtu with now := s.rtu.now + (s.rtu.rate.period - s.rtu.count), count := 0 })))

/-- The boundary behind the cues. -/
def closed (gpi : BitVec 16) (s : State) : State := probeDue (tickTimers (tkeBoundary (sampleInputs gpi s)))

theorem scalerBoundary_stages (gpi : BitVec 16) (s : State) : scalerBoundary gpi s = xpeBoundary (closed gpi (compareCues (opened s))) := rfl

theorem examineKeys_tke (s : State) : (examineKeys s).tke = { s.tke with latchDue := none, keys := (examineKeys s).tke.keys } := by
  unfold examineKeys
  split
  · next h =>
    rw [← h]
  · rfl

theorem endFlashes_replaced (s : State) : (endFlashes s).replaced = s.replaced :=
  foldl_keeps (fun s : State => s.replaced) (fun s (x : Fin 24 × Fin 48) => endFlash x.1 x.2 s) (fun _ _ => rfl) _ _

theorem endFlash_still (p q : Fin 24) (k : Fin 48) (s : State) : ((endFlash p k s).panel q).still = (s.panel q).still := relight_still p q _ s

theorem endFlashes_still (q : Fin 24) (s : State) : ((endFlashes s).panel q).still = (s.panel q).still :=
  foldl_keeps (fun s : State => (s.panel q).still) (fun s (x : Fin 24 × Fin 48) => endFlash x.1 x.2 s) (fun s x => endFlash_still x.1 q x.2 s) _ _

/-- What the opening of a frame leaves. -/
structure Opened (s u : State) : Prop where
  frame    : u.rtu.frame = s.rtu.frame + 1
  label    : u.rtu.label = s.rtu.nextLabel
  rate     : u.rtu.rate = s.rtu.rate
  cues     : u.rtu.cues = s.rtu.cues
  runState : u.runState = s.runState
  xpe      : u.xpe = s.xpe
  tly      : u.tly = s.tly
  incoming : u.tke.incoming = s.tke.incoming
  told     : journal u = journal s
  replaced : u.replaced = s.replaced
  panel    : ∀ p, (u.panel p).still = (s.panel p).still

theorem opened_leaves (s : State) : Opened s (opened s) := by
  unfold opened
  generalize hv : s.setRtu { s.rtu with now := s.rtu.now + (s.rtu.rate.period - s.rtu.count), count := 0 } = v
  have hrtu : v.rtu = { s.rtu with now := s.rtu.now + (s.rtu.rate.period - s.rtu.count), count := 0 } := by rw [← hv]; rfl
  have hrest : v.runState = s.runState ∧ v.xpe = s.xpe ∧ v.tly = s.tly ∧ v.tke = s.tke ∧ v.pnc = s.pnc ∧ journal v = journal s ∧
      v.replaced = s.replaced := by
    rw [← hv]
    exact ⟨rfl, rfl, rfl, rfl, rfl, rfl, rfl⟩
  obtain ⟨hrun, hxpe, htly, htke, hpnc, htold, hreplaced⟩ := hrest
  have hexamined : (examineKeys v).replaced = v.replaced := by
    unfold examineKeys
    split <;> rfl
  refine ⟨by simp [nextFrame, hrtu], by simp [nextFrame, hrtu, Rtu.nextLabel], by simp [nextFrame, hrtu], by simp [nextFrame, hrtu],
    by simp [hrun], by simp [hxpe], by simp [htly], ?_, ?_, ?_, fun p => ?_⟩
  · rw [(nextFrame_frame _).2.2.2.2.1, (endFlashes_frame _).2.2.2.2.2.1, examineKeys_tke, htke]
  · exact (journal_of (by simp) (by simp)).trans htold
  · exact (endFlashes_replaced _).trans (hexamined.trans hreplaced)
  · rw [panel_of_pnc (nextFrame_frame _).2.2.2.2.2.1, endFlashes_still, panel_of_pnc (examineKeys_frame _).2.2.2.2.2.1, panel_of_pnc hpnc]

/-! ### The cues -/

/-- A cue matches when it is ARMED and its enabled fields are the look-ahead label's. -/
def answers (ahead : Label) (c : Cue) : Bool := decide (c.state = .armed) && c.fits ahead

/-- A cue after it was compared. -/
def compared (ahead : Label) (c : Cue) : Cue := if answers ahead c = true then c.matched else c

/-- The fire request of cue `n` for salvo `x`, due two frames after frame `f`. -/
def cueRequest (f : FrameIndex) (l : Label) (n : Fin 16) (c : Cue) (x : Fin 16) : FireRequest :=
  { salvo := x, due := some (f + 2), requester := c.requester, cause := .cue, origin := .cue n f l }

/-- The fire request that a cue's match sends, in frame `f` with label `l`. -/
def sends (ahead : Label) (f : FrameIndex) (l : Label) (n : Fin 16) (c : Cue) : Option FireRequest :=
  if answers ahead c = true then
    match c.action with
    | .report => none
    | .fire x => some (cueRequest f l n c x)
  else none

section
variable {ahead : Label} {n : Fin 16} {s : State}

theorem cueMatch_eq (ahead : Label) (n : Fin 16) (s : State) : cueMatch ahead n s =
    if answers ahead s.rtu.cues[n] = true then
      match s.rtu.cues[n].action with
      | .report => reportNow (.cue n 0) (s.setCue n s.rtu.cues[n].matched)
      | .fire x => fire (cueRequest s.rtu.frame s.rtu.label n s.rtu.cues[n] x) (s.setCue n s.rtu.cues[n].matched)
    else s := by
  by_cases h : s.rtu.cues[n].state = .armed ∧ s.rtu.cues[n].fits ahead = true
  · rw [if_pos (by simpa [answers] using h)]
    exact if_pos h
  · rw [if_neg (by simpa [answers] using h)]
    exact if_neg h

theorem cueMatch_missed (h : answers ahead s.rtu.cues[n] = false) : cueMatch ahead n s = s := by
  rw [cueMatch_eq, h]
  exact if_neg Bool.false_ne_true

theorem cueMatch_reports (h : answers ahead s.rtu.cues[n] = true) (ha : s.rtu.cues[n].action = .report) :
    cueMatch ahead n s = reportNow (.cue n 0) (s.setCue n s.rtu.cues[n].matched) := by
  rw [cueMatch_eq, if_pos h, ha]

theorem cueMatch_fires (h : answers ahead s.rtu.cues[n] = true) {x : Fin 16} (ha : s.rtu.cues[n].action = .fire x) :
    cueMatch ahead n s = fire (cueRequest s.rtu.frame s.rtu.label n s.rtu.cues[n] x) (s.setCue n s.rtu.cues[n].matched) := by
  rw [cueMatch_eq, if_pos h, ha]

/-- A comparison changes its own cue alone. -/
theorem cueMatch_cues (ahead : Label) (n : Fin 16) (s : State) (m : Fin 16) :
    (cueMatch ahead n s).rtu.cues[m] = if n = m then compared ahead s.rtu.cues[n] else s.rtu.cues[m] := by
  have hset : ∀ c : Cue, (upd s.rtu.cues n c)[m] = if n = m then c else s.rtu.cues[m] := fun c => upd_get s.rtu.cues n m c
  unfold compared
  cases h : answers ahead s.rtu.cues[n] with
  | false =>
    rw [cueMatch_missed h]
    split
    · next hm => rw [hm]; rfl
    · rfl
  | true =>
    have hcues : (cueMatch ahead n s).rtu.cues = upd s.rtu.cues n s.rtu.cues[n].matched := by
      cases ha : s.rtu.cues[n].action with
      | report =>
        rw [cueMatch_reports h ha]
        simp
      | fire x =>
        rw [cueMatch_fires h ha]
        simp
    rw [hcues, hset]
    rfl

/-- Behind a read in progress a match's request waits in turn. -/
theorem cueMatch_waits (hr : s.xpe.reading ≠ none) : (cueMatch ahead n s).xpe.reading = s.xpe.reading ∧
    (cueMatch ahead n s).xpe.fires = s.xpe.fires ++ (sends ahead s.rtu.frame s.rtu.label n s.rtu.cues[n]).toList := by
  unfold sends
  cases h : answers ahead s.rtu.cues[n] with
  | false =>
    rw [cueMatch_missed h]
    simp
  | true =>
    cases ha : s.rtu.cues[n].action with
    | report =>
      rw [cueMatch_reports h ha]
      simp
    | fire x =>
      obtain ⟨y, hy⟩ := Option.ne_none_iff_exists'.mp hr
      rw [cueMatch_fires h ha, fire]
      simp [hy]

/-- The cues, compared one after the other. -/
theorem compare_run (ahead : Label) : ∀ (l : List (Fin 16)), l.Nodup → ∀ s : State,
    let w := l.foldl (fun x n => cueMatch ahead n x) s
    (∀ m : Fin 16, w.rtu.cues[m] = if m ∈ l then compared ahead s.rtu.cues[m] else s.rtu.cues[m]) ∧
    (s.xpe.reading ≠ none → w.xpe.reading = s.xpe.reading ∧
      w.xpe.fires = s.xpe.fires ++ l.filterMap fun n => sends ahead s.rtu.frame s.rtu.label n s.rtu.cues[n])
  | [], _, s => ⟨fun m => (if_neg List.not_mem_nil).symm, fun _ => ⟨rfl, (List.append_nil _).symm⟩⟩
  | n :: l, hn, s => by
    obtain ⟨hnew, hrest⟩ := List.nodup_cons.mp hn
    have hclock := cueMatch_clock ahead n s
    have hframe : (cueMatch ahead n s).rtu.frame = s.rtu.frame := (congrArg Rtu.frame hclock :)
    have hlabel : (cueMatch ahead n s).rtu.label = s.rtu.label := (congrArg Rtu.label hclock :)
    have hcues := cueMatch_cues ahead n s
    obtain ⟨ihcues, ihfires⟩ := compare_run ahead l hrest (cueMatch ahead n s)
    refine ⟨fun m => ?_, fun hr => ?_⟩
    · rw [List.foldl_cons, ihcues, hcues]
      by_cases hm : m = n
      · subst hm
        rw [if_neg hnew, if_pos rfl, if_pos List.mem_cons_self]
      · rw [if_neg (Ne.symm hm)]
        simp [hm]
    · obtain ⟨hreading, hfires⟩ := cueMatch_waits (ahead := ahead) (n := n) hr
      obtain ⟨wreading, wfires⟩ := ihfires (by rw [hreading]; exact hr)
      have hsame : ∀ m ∈ l, sends ahead (cueMatch ahead n s).rtu.frame (cueMatch ahead n s).rtu.label m (cueMatch ahead n s).rtu.cues[m] =
          sends ahead s.rtu.frame s.rtu.label m s.rtu.cues[m] := by
        intro m hm
        rw [hframe, hlabel, hcues, if_neg fun he : n = m => hnew (he ▸ hm)]
      refine ⟨wreading.trans hreading, wfires.trans ?_⟩
      rw [List.filterMap_congr hsame, hfires, List.append_assoc]
      congr 1
      rw [List.filterMap_cons]
      cases sends ahead s.rtu.frame s.rtu.label n s.rtu.cues[n] <;> rfl

theorem answers_unarmed {c : Cue} (h : c.state ≠ .armed) : answers ahead c = false := by simp [answers, h]

/-- Cues that are not ARMED are passed over. -/
theorem compare_none : ∀ (l : List (Fin 16)) (s : State), (∀ m ∈ l, s.rtu.cues[m].state ≠ .armed) →
    l.foldl (fun x n => cueMatch ahead n x) s = s
  | [], _, _ => rfl
  | n :: l, s, h => by
    rw [List.foldl_cons, cueMatch_missed (answers_unarmed (h n List.mem_cons_self))]
    exact compare_none l s fun m hm => h m (List.mem_cons_of_mem _ hm)

/-- With one cue ARMED at most, its comparison is all there is. -/
theorem compare_one (n : Fin 16) (s : State) (h : ∀ m, m ≠ n → s.rtu.cues[m].state ≠ .armed) :
    (List.finRange 16).foldl (fun x n => cueMatch ahead n x) s = cueMatch ahead n s := by
  obtain ⟨pre, post, hl⟩ := List.append_of_mem (List.mem_finRange n)
  have hnodup := List.nodup_finRange 16
  rw [hl, List.nodup_append] at hnodup
  obtain ⟨-, hpost, hapart⟩ := hnodup
  have hbefore : ∀ m ∈ pre, m ≠ n := fun m hm => hapart m hm n List.mem_cons_self
  have hafter : ∀ m ∈ post, m ≠ n := fun m hm he => (List.nodup_cons.mp hpost).1 (he ▸ hm)
  rw [hl, List.foldl_append, List.foldl_cons, compare_none pre s fun m hm => h m (hbefore m hm)]
  refine compare_none post _ fun m hm => ?_
  rw [cueMatch_cues, if_neg (Ne.symm (hafter m hm))]
  exact h m (hafter m hm)

/-- A request moves nothing of the router but its salvo reader. -/
theorem beginReads_router : ∀ (qs : List FireRequest) (s : State), (beginReads qs s).xpe =
    { s.xpe with reading := (beginReads qs s).xpe.reading, fires := (beginReads qs s).xpe.fires }
  | [], _ => rfl
  | q :: qs, s => by
    have hrefused : (beginReads qs (fireOutcome q .refusedSalvo 0 s)).xpe = { s.xpe with
        reading := (beginReads qs (fireOutcome q .refusedSalvo 0 s)).xpe.reading
        fires := (beginReads qs (fireOutcome q .refusedSalvo 0 s)).xpe.fires } := by
      have h := beginReads_router qs (fireOutcome q .refusedSalvo 0 s)
      rwa [show (fireOutcome q .refusedSalvo 0 s).xpe = s.xpe by simp] at h
    unfold beginReads
    split
    · exact hrefused
    · split
      · rfl
      · exact hrefused

theorem fire_router (q : FireRequest) (s : State) : (fire q s).xpe = { s.xpe with reading := (fire q s).xpe.reading, fires := (fire q s).xpe.fires } := by
  unfold fire
  split
  · rfl
  · exact beginReads_router _ s

/-- A comparison moves nothing of the router but its salvo reader. -/
theorem cueMatch_router (ahead : Label) (n : Fin 16) (s : State) : (cueMatch ahead n s).xpe =
    { s.xpe with reading := (cueMatch ahead n s).xpe.reading, fires := (cueMatch ahead n s).xpe.fires } := by
  cases h : answers ahead s.rtu.cues[n] with
  | false => rw [cueMatch_missed h]
  | true =>
    cases ha : s.rtu.cues[n].action with
    | report =>
      rw [cueMatch_reports h ha]
      simp
    | fire x =>
      rw [cueMatch_fires h ha]
      exact fire_router _ (s.setCue n s.rtu.cues[n].matched)

theorem compareCues_router (s : State) : (compareCues s).xpe =
    { s.xpe with reading := (compareCues s).xpe.reading, fires := (compareCues s).xpe.fires } := by
  have hrun : ∀ (l : List (Fin 16)) (a : Label) (u : State), (l.foldl (fun x n => cueMatch a n x) u).xpe = { u.xpe with
      reading := (l.foldl (fun x n => cueMatch a n x) u).xpe.reading
      fires := (l.foldl (fun x n => cueMatch a n x) u).xpe.fires } := by
    intro l a
    induction l with
    | nil => exact fun _ => rfl
    | cons n l ih =>
      intro u
      rw [List.foldl_cons]
      have h := ih (cueMatch a n u)
      rwa [cueMatch_router] at h
  unfold compareCues
  split
  · exact hrun _ _ s
  · rfl

end

/-! ### The inputs -/

/-- One input's sample: its record, and its report where it changed and is reported. -/
theorem sampleGpi_leaves (gpi : BitVec 16) (i : Fin 16) (s : State) :
    (∀ j : Fin 16, (sampleGpi gpi i s).tly.gpi[j] = if i = j then { s.tly.gpi[i] with asserted := gpi.getLsbD i.1 } else s.tly.gpi[j]) ∧
    journal (sampleGpi gpi i s) = journal (if s.tly.gpi[i].reports = true ∧ gpi.getLsbD i.1 ≠ s.tly.gpi[i].asserted
      then report (.gpi i (gpi.getLsbD i.1)) s.rtu.frame s.rtu.label s else s) := by
  have hset : ∀ (x : Gpi) (j : Fin 16), (upd s.tly.gpi i x)[j] = if i = j then x else s.tly.gpi[j] := fun x j => upd_get s.tly.gpi i j x
  unfold sampleGpi asserted
  by_cases h : s.tly.gpi[i].asserted = gpi.getLsbD i.1
  · rw [if_pos h, if_neg fun hc => hc.2 h.symm]
    refine ⟨fun j => ?_, rfl⟩
    split
    · next hj => rw [← h, hj]
    · rfl
  · rw [if_neg h]
    cases hr : s.tly.gpi[i].reports with
    | true =>
      rw [if_pos (by rfl), if_pos ⟨rfl, Ne.symm h⟩]
      exact ⟨fun j => by rw [(reportNow_frame _ _).2.2.2.2.1]; exact hset _ j, report_journal (by rfl) _ _ _⟩
    | false =>
      rw [if_neg Bool.false_ne_true, if_neg fun hc => Bool.false_ne_true hc.1]
      exact ⟨hset _, rfl⟩

/-- The report of one input's sample. -/
def toldGpi (gpi : BitVec 16) (old : Vector Gpi 16) (f : FrameIndex) (l : Label) (v : State) (i : Fin 16) : State :=
  if old[i].reports = true ∧ gpi.getLsbD i.1 ≠ old[i].asserted then report (.gpi i (gpi.getLsbD i.1)) f l v else v

/-- The inputs' samples, one after the other. -/
theorem sample_run (gpi : BitVec 16) (old : Vector Gpi 16) (f : FrameIndex) (lab : Label) : ∀ (l : List (Fin 16)), l.Nodup → ∀ u v : State,
    journal u = journal v → u.rtu.frame = f → u.rtu.label = lab → (∀ i ∈ l, u.tly.gpi[i] = old[i]) →
    let w := l.foldl (fun x i => sampleGpi gpi i x) u
    (∀ j : Fin 16, w.tly.gpi[j] = if j ∈ l then { old[j] with asserted := gpi.getLsbD j.1 } else u.tly.gpi[j]) ∧
    journal w = journal (l.foldl (toldGpi gpi old f lab) v)
  | [], _, _, _, hj, _, _, _ => ⟨fun j => (if_neg List.not_mem_nil).symm, hj⟩
  | i :: l, hn, u, v, hj, hf, hlab, hold => by
    obtain ⟨hnew, hrest⟩ := List.nodup_cons.mp hn
    obtain ⟨hgpi, htold⟩ := sampleGpi_leaves gpi i u
    have hi := hold i List.mem_cons_self
    have hrtu : (sampleGpi gpi i u).rtu = u.rtu := by simp
    have hstep : journal (sampleGpi gpi i u) = journal (toldGpi gpi old f lab v i) := by
      rw [htold, toldGpi, hi, hf, hlab]
      split
      · exact report_journal hj _ _ _
      · exact hj
    obtain ⟨ihgpi, ihtold⟩ := sample_run gpi old f lab l hrest (sampleGpi gpi i u) (toldGpi gpi old f lab v i) hstep (by rw [hrtu, hf]) (by rw [hrtu, hlab])
      fun j hm => by rw [hgpi, if_neg fun he : i = j => hnew (he ▸ hm), hold j (List.mem_cons_of_mem _ hm)]
    refine ⟨fun j => ?_, ihtold⟩
    rw [List.foldl_cons, ihgpi, hgpi]
    by_cases hji : j = i
    · subst hji
      rw [if_neg hnew, if_pos rfl, if_pos List.mem_cons_self, hi]
    · rw [if_neg (Ne.symm hji)]
      simp [hji]

theorem samples_keep (gpi : BitVec 16) (l : List (Fin 16)) (s : State) :
    (l.foldl (fun x i => sampleGpi gpi i x) s).rtu = s.rtu ∧ (l.foldl (fun x i => sampleGpi gpi i x) s).tke = s.tke :=
  ⟨foldl_keeps (fun x : State => x.rtu) (fun x i => sampleGpi gpi i x) (fun x i => by simp) l s,
    foldl_keeps (fun x : State => x.tke) (fun x i => sampleGpi gpi i x) (fun x i => by simp) l s⟩

/-- The sample of a boundary, its reports, and the frame inputs that it gives. -/
theorem sampleInputs_leaves (gpi : BitVec 16) (s : State) :
    (∀ j : Fin 16, (sampleInputs gpi s).tly.gpi[j] = { s.tly.gpi[j] with asserted := gpi.getLsbD j.1 }) ∧
    (sampleInputs gpi s).tly.inputs = some { frame := s.rtu.frame, sample := gpi, snapshot := s.tke.incoming } ∧
    journal (sampleInputs gpi s) = journal ((List.finRange 16).foldl (toldGpi gpi s.tly.gpi s.rtu.frame s.rtu.label) s) := by
  have hall := List.mem_finRange (n := 16)
  have hnodup := List.nodup_finRange 16
  unfold sampleInputs
  generalize List.finRange 16 = l at hall hnodup
  obtain ⟨hgpi, htold⟩ := sample_run gpi s.tly.gpi s.rtu.frame s.rtu.label l hnodup s s rfl rfl rfl fun _ _ => rfl
  obtain ⟨hrtu, htke⟩ := samples_keep gpi l s
  generalize l.foldl (fun x i => sampleGpi gpi i x) s = u at hgpi htold hrtu htke
  exact ⟨fun j => (hgpi j).trans (if_pos (hall j)), by rw [← hrtu, ← htke], htold⟩

/-! ### A settled map -/

/-- What a settled map leaves of the inputs, the examination, the flashes and the panels. -/
def kept (s : State) : Vector Gpi 16 × Option FrameInputs × Option (Vector Nat 24) × List (Fin 24 × Fin 48) × (Fin 24 → Panel) :=
  (s.tly.gpi, s.tly.inputs, s.tke.latchDue, s.pnc.flashEnds, fun p => (s.panel p).still)

theorem kept_of {s t : State} (hl : t.tly.gpi = s.tly.gpi ∧ t.tly.inputs = s.tly.inputs) (hk : t.tke = s.tke) (hp : t.pnc = s.pnc) : kept t = kept s := by
  have hpanel := panel_of_pnc hp
  simp only [kept, hl, hk, hp, hpanel]

theorem deriveLamps_kept (s : State) : kept (deriveLamps s) = kept s := by
  have hwire : wiring (deriveLamps s) = wiring s := forPanels_keeps wiring _ derivePanel_wiring s
  have hends : (deriveLamps s).pnc.flashEnds = s.pnc.flashEnds := (Prod.mk.inj (Prod.mk.inj hwire).2).2
  simp only [kept, hends, deriveLamps_still, (deriveLamps_frame s).2.2.2.2.1, (deriveLamps_frame s).2.2.2.2.2.1]

theorem evaluateSelectors_kept (s : State) : kept (evaluateSelectors s) = kept s := by
  have hdue : (evaluateSelectors s).tke.latchDue = s.tke.latchDue := by simp [evaluateSelectors, talkSend_tables, enterFeeds]
  have hpnc : (evaluateSelectors s).pnc = s.pnc := by simp
  have hpanel := panel_of_pnc hpnc
  simp only [kept, hdue, hpnc, hpanel, (evaluateSelectors_frame s).2.2.2.2.1]

theorem writeResolution_kept (fs : List Found) (s : State) : kept (writeResolution fs s) = kept s := by
  simp only [writeResolution]
  rw [foldl_keeps kept _ (fun x d => kept_of (by simp) (by simp) (by simp))]
  exact kept_of ⟨rfl, rfl⟩ rfl rfl

theorem driveLamps_kept (snapshot : PortSet) (k : FrameIndex) (s : State) : kept (driveLamps snapshot k s) = kept s :=
  kept_of (by simp only [driveLamps, and_self]) (by simp) (by simp)

theorem resolve_kept (i : FrameInputs) (s : State) : kept (resolve i s) = kept s := by
  rw [resolve, deriveLamps_kept, driveLamps_kept, writeResolution_kept]

theorem runResolution_kept (k : FrameIndex) (s : State) : kept (runResolution k s) = kept s := by
  unfold runResolution
  split
  · rfl
  · split
    · exact resolve_kept _ s
    · rfl

theorem declareSettled_kept (k : FrameIndex) (s : State) : kept (declareSettled k s) = kept s := by
  have htold : kept (declareSettled k s) = kept (handOverMap k s) := by
    rw [declareSettled]
    exact kept_of (by simp) (by simp) (by simp)
  rw [htold, handOverMap, runResolution_kept, deriveLamps_kept, evaluateSelectors_kept]

/-- The XPE's part of a boundary. -/
theorem xpeBoundary_leaves (s : State) : kept (xpeBoundary s) = kept s ∧
    (s.xpe.link = .up → (xpeBoundary s).xpe = { s.xpe with reportWait := if s.runState = .halted then s.xpe.reportWait else some s.rtu.frame }) ∧
    (s.xpe.link = .down → SameRouter (xpeBoundary s).xpe { s.xpe with pingWait := true }) ∧
    (s.xpe.link = .up ∨ s.runState = .halted → journal (xpeBoundary s) = journal s) := by
  unfold xpeBoundary
  cases hl : s.xpe.link with
  | up =>
    dsimp only
    split
    · exact ⟨rfl, fun _ => rfl, nofun, fun _ => rfl⟩
    · exact ⟨rfl, fun _ => rfl, nofun, fun _ => rfl⟩
  | down =>
    dsimp only
    split
    · exact ⟨rfl, nofun, fun _ => .refl _, fun _ => rfl⟩
    · next hr =>
      exact ⟨(declareSettled_kept _ _).trans rfl, nofun, fun _ => declareSettled_router _ _, fun hc => absurd (hc.resolve_left nofun) hr⟩

/-! ### Behind the cues -/

theorem probeDue_panel (s : State) (p : Fin 24) : ∃ due, (probeDue s).panel p = { s.panel p with probeDue := due } := by
  unfold probeDue
  split
  · exact ⟨_, rfl⟩
  · rename_i o _
    split
    · obtain ⟨due, hp⟩ := TalkKeyMoves.serveLink_panel (linkOf o) (s.setPanel o { s.panel o with probeDue := true }) p
      rw [hp, setPanel_panel]
      split
      · next h => exact ⟨due, by rw [h]⟩
      · exact ⟨due, rfl⟩
    · exact ⟨_, rfl⟩

theorem serveLink_flashEnds (link : Fin 4) (s : State) : (serveLink link s).pnc.flashEnds = s.pnc.flashEnds := by
  unfold serveLink
  split
  · split
    · rfl
    · split <;> rfl
  · rfl

theorem probeDue_flashEnds (s : State) : (probeDue s).pnc.flashEnds = s.pnc.flashEnds := by
  unfold probeDue
  split
  · rfl
  · split
    · exact serveLink_flashEnds _ _
    · rfl

theorem tickTimers_panel (s : State) (p : Fin 24) :
    (tickTimers s).panel p = { s.panel p with timers := tabulate fun k => (s.panel p).timers[k] - 1, noticed := false } := by
  unfold tickTimers
  generalize hf : (fun p => ({ s.panel p with timers := tabulate fun k => (s.panel p).timers[k] - 1, noticed := false } : Panel)) = f
  exact (tabulate_get f p).trans (by rw [← hf])

theorem tickTimers_ends (s : State) (p : Fin 24) (k : Fin 48) : (p, k) ∈ (tickTimers s).pnc.flashEnds ↔ (s.panel p).timers[k] = 1 := by
  unfold tickTimers
  simp only [Panel.endingFlashes, List.mem_flatMap, List.mem_finRange, true_and, List.mem_map, List.mem_filter, decide_eq_true_eq, Prod.mk.injEq]
  exact ⟨fun ⟨_, _, hk, hp, he⟩ => hp ▸ he ▸ hk, fun hk => ⟨p, k, hk, rfl, rfl⟩⟩

/-- What a boundary leaves behind its cues, before the fabric link. -/
structure Closed (gpi : BitVec 16) (s t : State) : Prop where
  xpe      : t.xpe = s.xpe
  rtu      : t.rtu = s.rtu
  runState : t.runState = s.runState
  samples  : ∀ j : Fin 16, t.tly.gpi[j] = { s.tly.gpi[j] with asserted := gpi.getLsbD j.1 }
  inputs   : t.tly.inputs = some { frame := s.rtu.frame, sample := gpi, snapshot := s.tke.incoming }
  told     : journal t = journal ((List.finRange 16).foldl (toldGpi gpi s.tly.gpi s.rtu.frame s.rtu.label) s)
  panel    : ∀ p, (t.panel p).noticed = false ∧ ∀ k : Fin 48, (t.panel p).timers[k] = (s.panel p).timers[k] - 1
  ends     : ∀ (p : Fin 24) (k : Fin 48), (p, k) ∈ t.pnc.flashEnds ↔ (s.panel p).timers[k] = 1
  due      : t.tke.latchDue = some (tabulate fun p => (s.panel p).threshold)

theorem closed_leaves (gpi : BitVec 16) (s : State) : Closed gpi s (closed gpi s) := by
  obtain ⟨hgpi, hinputs, htold⟩ := sampleInputs_leaves gpi s
  have hpnc : (tkeBoundary (sampleInputs gpi s)).pnc = s.pnc := by simp
  have hpanel := panel_of_pnc hpnc
  have htly : (closed gpi s).tly = (sampleInputs gpi s).tly := by simp [closed]
  have hdue : (tkeBoundary (sampleInputs gpi s)).tke.latchDue = some (tabulate fun p => ((sampleInputs gpi s).panel p).threshold) := by
    unfold tkeBoundary talkRetry
    split <;> rfl
  refine ⟨by simp [closed], by simp [closed], by simp [closed], fun j => by rw [htly, hgpi], by rw [htly, hinputs],
    (journal_of (by simp [closed]) (by simp [closed])).trans htold, fun p => ?_, fun p k => ?_, ?_⟩
  · obtain ⟨due, hp⟩ := probeDue_panel (tickTimers (tkeBoundary (sampleInputs gpi s))) p
    rw [closed, hp, tickTimers_panel, hpanel]
    exact ⟨rfl, fun k => tabulate_get _ k⟩
  · rw [closed, probeDue_flashEnds, tickTimers_ends, hpanel]
  · have hsame : ∀ p, (sampleInputs gpi s).panel p = s.panel p := panel_of_pnc (by simp)
    rw [closed, (probeDue_frame _).2.2.2.2.2.1, (tickTimers_frame _).2.2.2.2.2.1, hdue]
    simp only [hsame]

/-! ### The whole boundary -/

section
variable {gpi : BitVec 16} {s : State}

/-- A frame boundary, by what its stages leave; its cues left `v`. -/
structure Bounded (gpi : BitVec 16) (s v t : State) : Prop where
  run      : exec (.frameBoundary gpi) s = .next t
  rtu      : t.rtu = v.rtu
  inputs   : t.tly.inputs = some { frame := s.rtu.frame + 1, sample := gpi, snapshot := s.tke.incoming }
  samples  : ∀ i : Fin 16, t.tly.gpi[i] = { s.tly.gpi[i] with asserted := gpi.getLsbD i.1 }
  up       : s.xpe.link = .up → t.xpe = { v.xpe with
    reportWait := if s.runState = .halted then s.xpe.reportWait else some (s.rtu.frame + 1) }
  down     : s.xpe.link = .down → SameRouter t.xpe { v.xpe with pingWait := true }
  noticed  : ∀ p : Fin 24, (t.panel p).noticed = false
  timers   : ∀ (p : Fin 24) (k : Fin 48), (t.panel p).timers[k] = (v.panel p).timers[k] - 1
  ends     : ∀ (p : Fin 24) (k : Fin 48), (p, k) ∈ t.pnc.flashEnds ↔ (v.panel p).timers[k] = 1
  due      : t.tke.latchDue = some (tabulate fun p => (v.panel p).threshold)
  told     : s.xpe.link = .up ∨ s.runState = .halted → journal t = journal ((List.finRange 16).foldl
    (toldGpi gpi s.tly.gpi (s.rtu.frame + 1) s.rtu.nextLabel) v)

theorem scalerBoundary_bounded (gpi : BitVec 16) (s : State) : Bounded gpi s (compareCues (opened s)) (scalerBoundary gpi s) := by
  have ho := opened_leaves s
  have hexec : exec (.frameBoundary gpi) s = .next (scalerBoundary gpi s) := rfl
  rw [scalerBoundary_stages] at hexec ⊢
  generalize opened s = u at *
  have hclock := FrameTime.compareCues_clock u
  have hframe : (compareCues u).rtu.frame = s.rtu.frame + 1 := (congrArg Rtu.frame hclock :).trans ho.frame
  have hlabel : (compareCues u).rtu.label = s.rtu.nextLabel := (congrArg Rtu.label hclock :).trans ho.label
  have htly : (compareCues u).tly = s.tly := by rw [(compareCues_frame u).2.2.1, ho.tly]
  have hincoming : (compareCues u).tke.incoming = s.tke.incoming := by rw [(compareCues_frame u).2.2.2.1, ho.incoming]
  have hrun : (compareCues u).runState = s.runState := by rw [(compareCues_frame u).2.1, ho.runState]
  have hrouter : (compareCues u).xpe.link = s.xpe.link ∧ (compareCues u).xpe.reportWait = s.xpe.reportWait := by
    rw [compareCues_router, ho.xpe]
    exact ⟨rfl, rfl⟩
  generalize compareCues u = v at *
  obtain ⟨hlink, hwait⟩ := hrouter
  have hc := closed_leaves gpi v
  generalize closed gpi v = w at *
  obtain ⟨hkept, hup, hdown, htold⟩ := xpeBoundary_leaves w
  have hrtu : (xpeBoundary w).rtu = w.rtu := by simp
  generalize xpeBoundary w = t at *
  simp only [kept, Prod.mk.injEq] at hkept
  obtain ⟨kgpi, kinputs, kdue, kends, kpanel⟩ := hkept
  rw [hc.xpe, hlink] at hup hdown htold
  rw [hc.runState, hrun] at hup htold
  have hpanel : ∀ p, (t.panel p).still = (w.panel p).still := congrFun kpanel
  refine ⟨hexec, hrtu.trans hc.rtu, by rw [kinputs, hc.inputs, hframe, hincoming], fun i => by rw [kgpi, hc.samples, htly], fun h => ?_, hdown,
    fun p => (Panels.noticed_of_still (hpanel p)).1.trans (hc.panel p).1, fun p k => ?_, fun p k => by rw [kends, hc.ends], kdue.trans hc.due,
    fun h => ?_⟩
  · rw [hup h, hc.rtu, hframe, hwait]
  · obtain ⟨-, -, -, -, -, -, htimers, -⟩ := Panels.fields_of_still (hpanel p)
    rw [htimers]
    exact (hc.panel p).2 k
  · rw [htold h, hc.told, htly, hframe, hlabel]

/-- Inputs that are not reported make no report. -/
theorem toldGpi_none {old : Vector Gpi 16} (h : ∀ i : Fin 16, old[i].reports = false) (f : FrameIndex) (l : Label) (v : State) :
    (List.finRange 16).foldl (toldGpi gpi old f l) v = v :=
  foldl_keeps (fun x : State => x) (toldGpi gpi old f l) (fun _ i => if_neg fun hc => Bool.false_ne_true ((h i).symm.trans hc.1)) _ v

/-- Where no cue is ARMED that would be compared, none is. -/
theorem compareCues_none {u : State} (h : u.runState = .running → ∀ n : Fin 16, u.rtu.cues[n].state ≠ .armed) : compareCues u = u := by
  unfold compareCues
  split
  · next hr => exact compare_none _ u fun m _ => h hr m
  · rfl

end

/-- Settles O18: the boundary's stages, with no cue's comparison between them where the reports are counted. -/
theorem boundarySamplesAndServes : Obligations.BoundarySamplesAndServes := by
  unfold Obligations.BoundarySamplesAndServes
  intro gpi s
  have hb := scalerBoundary_bounded gpi s
  have ho := opened_leaves s
  generalize scalerBoundary gpi s = t at hb
  have hrouter := compareCues_router (opened s)
  rw [ho.xpe] at hrouter
  have hparts : t.xpe.link = s.xpe.link ∧ t.xpe.armed = s.xpe.armed ∧ t.xpe.sweep = s.xpe.sweep ∧ t.xpe.queue = s.xpe.queue := by
    cases hl : s.xpe.link with
    | up =>
      rw [hb.up hl, hrouter]
      exact ⟨hl, rfl, rfl, rfl⟩
    | down =>
      obtain ⟨hqueue, harmed, -, -, hsweep, -, hlink, -⟩ := (hb.down hl).others
      rw [hqueue, harmed, hsweep, hlink, hrouter]
      exact ⟨hl, rfl, rfl, rfl⟩
  obtain ⟨hlink, harmed, hsweep, hqueue⟩ := hparts
  refine ⟨t, hb.run, hb.inputs, fun i => by rw [hb.samples]; exact ⟨rfl, rfl⟩, hlink, harmed, hsweep, hqueue, fun hup => ?_, fun hdown => ?_,
    hb.noticed, fun hquiet hcues => ?_⟩
  · rw [hb.up hup, hrouter]
    exact ⟨rfl, rfl⟩
  · obtain ⟨-, -, hwait, -, -, hping, -⟩ := (hb.down hdown).others
    rw [hwait, hping, hrouter]
    exact ⟨rfl, rfl⟩
  · intro now told
    have htold := hb.told hquiet
    rw [compareCues_none fun hr n => by rw [ho.cues]; exact hcues (ho.runState ▸ hr) n] at htold
    refine journal_eq (htold.trans ?_)
    exact Journal.foldl_journal ho.told (fun x y i hxy => by
      unfold toldGpi
      split
      · exact report_journal hxy _ _ _
      · exact hxy) _

end Sys2Proof.Proofs.Boundaries
end

