-- ==== Sys2Proof/Proofs/CueComparisons.lean ====
section
/-! The cues that a boundary compares, and what a match sends or reports (O19). -/

namespace Sys2Proof.Proofs.Boundaries

open Sys2Proof Sys2Proof.Machine
open Sys2Proof.Proofs.Journal (journal journal_eq journal_of report_journal)

/-- Every enabled field of a cue is the label's. -/
def FitsLabel (c : Cue) (l : Label) : Prop :=
  (c.enables.getLsbD 0 = true → c.label.hh = l.hh) ∧ (c.enables.getLsbD 1 = true → c.label.mm = l.mm) ∧
  (c.enables.getLsbD 2 = true → c.label.ss = l.ss) ∧ (c.enables.getLsbD 3 = true → c.label.ff = l.ff)

theorem fits_iff (c : Cue) (l : Label) : c.fits l = true ↔ FitsLabel c l := by
  have hfield : ∀ (b : Bool) (x y : Nat), (!b || decide (x = y)) = true ↔ (b = true → x = y) := by
    intro b x y
    cases b <;> simp
  simp only [Cue.fits, Bool.and_eq_true, hfield, FitsLabel, and_assoc]

theorem answers_iff (ahead : Label) (c : Cue) : answers ahead c = true ↔ c.state = .armed ∧ FitsLabel c ahead := by
  rw [answers, Bool.and_eq_true, decide_eq_true_eq, fits_iff]

section
variable {gpi : BitVec 16} {s u : State}

/-- The look-ahead label of the frame that a boundary opens. -/
def aheadOf (s : State) : Label := successor s.rtu.rate (successor s.rtu.rate s.rtu.nextLabel)

theorem Opened.lookAhead (h : Opened s u) : u.lookAhead = aheadOf s := by
  rw [State.lookAhead, h.rate, h.label]
  rfl

/-- A cue after a boundary. -/
theorem Opened.after (h : Opened s u) (n : Fin 16) : (compareCues u).rtu.cues[n] =
    if s.runState = .running ∧ answers (aheadOf s) s.rtu.cues[n] = true then s.rtu.cues[n].matched else s.rtu.cues[n] := by
  unfold compareCues
  by_cases hr : s.runState = .running
  · rw [if_pos (h.runState.trans hr), (compare_run u.lookAhead _ (List.nodup_finRange 16) u).1, if_pos (List.mem_finRange n), h.lookAhead, h.cues]
    unfold compared
    by_cases ha : answers (aheadOf s) s.rtu.cues[n] = true
    · rw [if_pos ha, if_pos ⟨hr, ha⟩]
    · rw [if_neg ha, if_neg fun hc => ha hc.2]
  · rw [if_neg (h.runState ▸ hr), if_neg fun hc => hr hc.1, h.cues]

/-- The requests that a boundary's matches send. -/
def sentAt (s : State) : List FireRequest :=
  if s.runState = .running then
    (List.finRange 16).filterMap fun n => sends (aheadOf s) (s.rtu.frame + 1) s.rtu.nextLabel n s.rtu.cues[n]
  else []

theorem Opened.sent (h : Opened s u) (hr : s.xpe.reading ≠ none) :
    (compareCues u).xpe.reading = s.xpe.reading ∧ (compareCues u).xpe.fires = s.xpe.fires ++ sentAt s := by
  unfold compareCues sentAt
  by_cases hrun : s.runState = .running
  · obtain ⟨hreading, hfires⟩ := (compare_run u.lookAhead _ (List.nodup_finRange 16) u).2 (by rw [h.xpe]; exact hr)
    rw [if_pos (h.runState.trans hrun), if_pos hrun, hreading, hfires, h.xpe, h.lookAhead, h.frame, h.label, h.cues]
    exact ⟨rfl, rfl⟩
  · rw [if_neg (h.runState ▸ hrun), if_neg hrun, h.xpe]
    exact ⟨rfl, (List.append_nil _).symm⟩

theorem sends_iff {ahead : Label} {f : FrameIndex} {l : Label} {n : Fin 16} {c : Cue} {q : FireRequest} :
    sends ahead f l n c = some q ↔ answers ahead c = true ∧ ∃ x, c.action = .fire x ∧ q = cueRequest f l n c x := by
  unfold sends
  by_cases h : answers ahead c = true
  · rw [if_pos h]
    cases c.action with
    | report => simp
    | fire x => simp [h, eq_comm]
  · rw [if_neg h]
    simp [h]

theorem mem_sentAt {q : FireRequest} : q ∈ sentAt s ↔ ∃ n x, (s.runState = .running ∧ answers (aheadOf s) s.rtu.cues[n] = true) ∧
    s.rtu.cues[n].action = .fire x ∧ q = cueRequest (s.rtu.frame + 1) s.rtu.nextLabel n s.rtu.cues[n] x := by
  unfold sentAt
  by_cases hrun : s.runState = .running
  · rw [if_pos hrun]
    simp only [List.mem_filterMap, List.mem_finRange, true_and, sends_iff, hrun]
    exact ⟨fun ⟨n, ha, x, hx⟩ => ⟨n, x, ha, hx⟩, fun ⟨n, x, ha, hx⟩ => ⟨n, ha, x, hx⟩⟩
  · rw [if_neg hrun]
    simp [hrun]

/-- The requests are sent in the order of the cues. -/
theorem sentAt_ordered (s : State) : (sentAt s).Pairwise fun a b => ∃ i j : Fin 16, i < j ∧ a.origin = .cue i (s.rtu.frame + 1) s.rtu.nextLabel ∧
    b.origin = .cue j (s.rtu.frame + 1) s.rtu.nextLabel := by
  unfold sentAt
  split
  · rw [List.pairwise_filterMap]
    refine (List.pairwise_lt_finRange 16).imp fun {i j} hij a ha b hb => ⟨i, j, hij, ?_, ?_⟩
    · obtain ⟨-, x, -, rfl⟩ := sends_iff.mp ha
      rfl
    · obtain ⟨-, x, -, rfl⟩ := sends_iff.mp hb
      rfl
  · exact .nil

/-- One ARMED cue alone that matches, with the requests of no other beside it. -/
theorem Opened.one (h : Opened s u) {n : Fin 16} (hr : s.runState = .running) (hone : ∀ m : Fin 16, m ≠ n → s.rtu.cues[m].state ≠ .armed) :
    compareCues u = cueMatch (aheadOf s) n u := by
  rw [compareCues, if_pos (h.runState.trans hr), h.lookAhead]
  exact compare_one n u fun m hm => by rw [h.cues]; exact hone m hm

/-- A matching REPORT cue makes its report. -/
theorem Opened.reports (h : Opened s u) {n : Fin 16} (ha : answers (aheadOf s) s.rtu.cues[n] = true) (haction : s.rtu.cues[n].action = .report) :
    journal (cueMatch (aheadOf s) n u) = journal (report (.cue n 0) (s.rtu.frame + 1) s.rtu.nextLabel s) ∧
    (cueMatch (aheadOf s) n u).xpe = s.xpe := by
  rw [← h.cues] at ha haction
  rw [cueMatch_reports ha haction, reportNow, (report_frame _ _ _ _).2.2.2.1]
  generalize hv : u.setCue n u.rtu.cues[n].matched = v
  have hleaves : v.rtu.frame = u.rtu.frame ∧ v.rtu.label = u.rtu.label ∧ v.xpe = u.xpe ∧ journal v = journal u := by
    rw [← hv]
    exact ⟨rfl, rfl, rfl, rfl⟩
  obtain ⟨hframe, hlabel, hxpe, htold⟩ := hleaves
  rw [hframe, hlabel, hxpe, h.frame, h.label, h.xpe]
  exact ⟨report_journal (htold.trans h.told) _ _ _, rfl⟩

/-- A matching FIRE cue, with the reader idle, begins its read, or is refused. -/
theorem Opened.fires_idle (h : Opened s u) {n x : Fin 16} (ha : answers (aheadOf s) s.rtu.cues[n] = true) (haction : s.rtu.cues[n].action = .fire x)
    (hr : s.xpe.reading = none) (hf : s.xpe.fires = []) :
    ∃ v, cueMatch (aheadOf s) n u = beginReads [cueRequest (s.rtu.frame + 1) s.rtu.nextLabel n s.rtu.cues[n] x] v ∧ v.xpe = s.xpe ∧
      journal v = journal s ∧ v.replaced = s.replaced := by
  rw [← h.cues] at ha haction
  have hreading : (u.setCue n u.rtu.cues[n].matched).xpe.reading = none := by simp [h.xpe, hr]
  have hfires : (u.setCue n u.rtu.cues[n].matched).xpe.fires = [] := by simp [h.xpe, hf]
  refine ⟨u.setCue n u.rtu.cues[n].matched, ?_, by simp [h.xpe], (journal_of (by simp) (by simp)).trans h.told, h.replaced⟩
  rw [cueMatch_fires ha haction, fire, hreading, hfires, h.frame, h.label, h.cues]
  rfl

theorem Opened.undefined (h : Opened s u) {n x : Fin 16} (ha : answers (aheadOf s) s.rtu.cues[n] = true) (haction : s.rtu.cues[n].action = .fire x)
    (hr : s.xpe.reading = none) (hf : s.xpe.fires = []) (hx : s.xpe.salvos[x] = none) :
    journal (cueMatch (aheadOf s) n u) = journal (report (.cue n 0x18) (s.rtu.frame + 1) s.rtu.nextLabel s) ∧
    (cueMatch (aheadOf s) n u).xpe = s.xpe := by
  obtain ⟨v, hv, hxpe, htold, -⟩ := h.fires_idle ha haction hr hf
  have hnone : v.xpe.salvos[x] = none := by rw [hxpe]; exact hx
  have hfires : v.xpe.fires = [] := by rw [hxpe, hf]
  have hrefused : cueMatch (aheadOf s) n u = report (.cue n 0x18) (s.rtu.frame + 1) s.rtu.nextLabel v := by
    rw [hv, Orders.beginReads_refused (y := cueRequest (s.rtu.frame + 1) s.rtu.nextLabel n s.rtu.cues[n] x) [] fun y hy =>
      absurd (hnone.symm.trans hy) (Option.some_ne_none y).symm]
    exact Orders.fires_same (by simpa [fireOutcome, cueRequest] using hfires)
  rw [hrefused, (report_frame _ _ _ _).2.2.2.1, hxpe]
  exact ⟨report_journal htold _ _ _, rfl⟩

theorem Opened.begun (h : Opened s u) {n x : Fin 16} (ha : answers (aheadOf s) s.rtu.cues[n] = true) (haction : s.rtu.cues[n].action = .fire x)
    (hr : s.xpe.reading = none) (hf : s.xpe.fires = []) {y : SalvoRecord} (hy : s.xpe.salvos[x] = some y)
    (hin : s.inOrderWindow y.address (16 * y.count) = true) :
    journal (cueMatch (aheadOf s) n u) = journal s ∧ (cueMatch (aheadOf s) n u).xpe = { s.xpe with
      reading := some { request := cueRequest (s.rtu.frame + 1) s.rtu.nextLabel n s.rtu.cues[n] x, address := y.address, count := y.count, mark := s.replaced.length }
      fires := [] } := by
  obtain ⟨v, hv, hxpe, htold, hreplaced⟩ := h.fires_idle ha haction hr hf
  have hsome : v.xpe.salvos[x] = some y := by rw [hxpe]; exact hy
  have hin' : v.inOrderWindow y.address (16 * y.count) = true := by
    rw [State.inOrderWindow, (journal_eq htold).1]
    exact hin
  rw [hv, Orders.beginReads_begun (y := cueRequest (s.rtu.frame + 1) s.rtu.nextLabel n s.rtu.cues[n] x) [] hsome hin', hreplaced, ← hxpe]
  exact ⟨htold, rfl⟩

theorem nextFrame_due (f : FrameIndex) : f + 1 + 2 = f + 3 := by
  rw [BitVec.add_assoc]
  rfl

end

/-- A cue that matched. -/
theorem matched_cases (c : Cue) : (c.repeats = .once → c.matched = { c with state := .spent }) ∧ (c.repeats = .every → c.matched = c) := by
  unfold Cue.matched
  cases c.repeats <;> simp

/-- Settles O19: each cue by its own comparison, the requests in their order, and one match alone by what it makes. -/
theorem boundaryComparesCues : Obligations.BoundaryComparesCues := by
  unfold Obligations.BoundaryComparesCues
  intro gpi s
  have hb := scalerBoundary_bounded gpi s
  have ho := opened_leaves s
  generalize opened s = u at hb ho
  generalize scalerBoundary gpi s = t at hb
  have hcues := ho.after
  have hsent := ho.sent
  refine ⟨t, hb.run, ?_⟩
  intro now ahead fits matching request
  have hmatching : ∀ n, matching n ↔ s.runState = .running ∧ answers (aheadOf s) s.rtu.cues[n] = true := by
    intro n
    rw [answers_iff]
    exact Iff.rfl
  have hrequest : ∀ n x, cueRequest (s.rtu.frame + 1) s.rtu.nextLabel n s.rtu.cues[n] x = request n x := by
    intro n x
    rw [cueRequest, nextFrame_due]
    rfl
  have hxpe : t.xpe.reading = (compareCues u).xpe.reading ∧ t.xpe.fires = (compareCues u).xpe.fires := by
    cases hl : s.xpe.link with
    | up =>
      rw [hb.up hl]
      exact ⟨rfl, rfl⟩
    | down =>
      rw [(hb.down hl).rest]
      exact ⟨rfl, rfl⟩
  refine ⟨fun n => ?_, fun hr => ?_, fun n hm hone hup hquiet => ?_⟩
  · have hcue : t.rtu.cues[n] = if matching n then s.rtu.cues[n].matched else s.rtu.cues[n] := by
      rw [hb.rtu, hcues]
      by_cases hm : matching n
      · rw [if_pos hm, if_pos ((hmatching n).mp hm)]
      · rw [if_neg hm, if_neg fun hc => hm ((hmatching n).mpr hc)]
    obtain ⟨honce, hevery⟩ := matched_cases s.rtu.cues[n]
    refine ⟨fun ⟨hm, hc⟩ => ?_, fun ⟨hm, hc⟩ => ?_, fun hm => ?_⟩
    · rw [hcue, if_pos hm, honce hc]
    · rw [hcue, if_pos hm, hevery hc]
      exact ⟨rfl, hm.2.1⟩
    · rw [hcue, if_neg hm]
  · obtain ⟨hreading, hfires⟩ := hsent hr
    refine ⟨sentAt s, hxpe.2.trans hfires, hxpe.1.trans hreading, fun q => ?_, sentAt_ordered s⟩
    rw [mem_sentAt]
    simp only [← hmatching, hrequest]
  · obtain ⟨hrun, ha⟩ := (hmatching n).mp hm
    have hv := ho.one hrun hone
    have htold : journal t = journal (compareCues u) := by
      rw [hb.told (.inl hup), toldGpi_none hquiet]
    rw [hv] at hxpe htold
    intro made
    refine ⟨fun haction => ?_, fun x haction hr hf => ⟨fun hx => ?_, fun y c hy hc hlow hhigh => ?_⟩⟩
    · obtain ⟨hj, hx⟩ := ho.reports ha haction
      rw [hx] at hxpe
      exact ⟨(journal_eq (htold.trans hj)).1, (journal_eq (htold.trans hj)).2, hxpe.2, hxpe.1⟩
    · obtain ⟨hj, hx'⟩ := ho.undefined ha haction hr hf hx
      rw [hx', hr, hf] at hxpe
      exact ⟨(journal_eq (htold.trans hj)).1, (journal_eq (htold.trans hj)).2, hxpe.1, hxpe.2⟩
    · obtain ⟨hj, hx'⟩ := ho.begun ha haction hr hf hy ((Orders.inOrderWindow_iff hc _ _).mpr ⟨hlow, hhigh⟩)
      rw [hx'] at hxpe
      refine ⟨hxpe.1.trans ?_, hxpe.2, (journal_eq (htold.trans hj)).1, (journal_eq (htold.trans hj)).2⟩
      rw [← hrequest]

end Sys2Proof.Proofs.Boundaries
end

