-- ==== Sys2Proof/Proofs/Flashes.lean ====
section
/-! The examination of PENDING keys, refusal flashes, and the lamp of every key function (O25). -/

namespace Sys2Proof.Proofs.Flashes

open Sys2Proof Sys2Proof.Machine
open Sys2Proof.Proofs.Journal (journal journal_eq)
open Sys2Proof.Proofs.Boundaries
open Sys2Proof.Proofs.Panels (fields_of_still)

/-! ### The examination -/

theorem examineKeys_due {s : State} {ts : Vector Nat 24} (h : s.tke.latchDue = some ts) (p : Fin 24) (k : Fin 48) :
    (examineKeys s).keyState p k = (s.keyState p k).examined s.rtu.frame ts[p] := by
  rw [examineKeys, h, State.keyState]
  exact (congrArg (fun v : Vector KeyState 48 => v[k]) (tabulate_get _ p)).trans (tabulate_get _ k)

theorem examined_pending (f k : FrameIndex) (n : Nat) : (KeyState.pending f).examined k n = if (n : Int) ≤ (k - f).toInt then .held else .pending f := rfl

theorem examined_other {x : KeyState} (h : ∀ f, x ≠ .pending f) (k : FrameIndex) (n : Nat) : x.examined k n = x := by
  cases x with
  | pending f => exact absurd rfl (h f)
  | idle => rfl
  | held => rfl
  | latched => rfl
  | closing => rfl

/-! ### The cues of a boundary touch no panel -/

/-- The reader's requests wait only behind a read. -/
def Idles (s : State) : Prop := s.xpe.reading = none → s.xpe.fires = []

theorem cueMatch_idles {ahead : Label} {n : Fin 16} {s : State} (h : Idles s) :
    (cueMatch ahead n s).pnc = s.pnc ∧ Idles (cueMatch ahead n s) := by
  cases ha : answers ahead s.rtu.cues[n] with
  | false =>
    rw [cueMatch_missed ha]
    exact ⟨rfl, h⟩
  | true =>
    cases haction : s.rtu.cues[n].action with
    | report =>
      rw [cueMatch_reports ha haction]
      exact ⟨by simp, by simpa [Idles] using h⟩
    | fire x =>
      rw [cueMatch_fires ha haction]
      generalize hv : s.setCue n s.rtu.cues[n].matched = v
      have hxpe : v.xpe = s.xpe := by rw [← hv]; rfl
      have hpnc : v.pnc = s.pnc := by rw [← hv]; rfl
      unfold fire
      cases hr : v.xpe.reading with
      | some y =>
        exact ⟨hpnc, fun hnone => absurd (hr.symm.trans hnone) (Option.some_ne_none y)⟩
      | none =>
        have hfires : v.xpe.fires = [] := by rw [hxpe] at hr ⊢; exact h hr
        rw [hfires]
        dsimp only [List.nil_append]
        by_cases hin : ∃ y, v.xpe.salvos[x] = some y ∧ v.inOrderWindow y.address (16 * y.count) = true
        · obtain ⟨y, hy, hw⟩ := hin
          rw [Orders.beginReads_begun (y := cueRequest s.rtu.frame s.rtu.label n s.rtu.cues[n] x) [] hy hw]
          exact ⟨hpnc, nofun⟩
        · rw [Orders.beginReads_refused (y := cueRequest s.rtu.frame s.rtu.label n s.rtu.cues[n] x) [] fun y hy =>
            Bool.eq_false_iff.mpr fun hw => hin ⟨y, hy, hw⟩]
          exact ⟨by simpa [beginReads, fireOutcome, cueRequest] using hpnc, fun _ => rfl⟩

theorem compareCues_pnc {s : State} (h : Idles s) : (compareCues s).pnc = s.pnc := by
  have hrun : ∀ (l : List (Fin 16)) (u : State), Idles u → (l.foldl (fun x n => cueMatch s.lookAhead n x) u).pnc = u.pnc := by
    intro l
    induction l with
    | nil => exact fun _ _ => rfl
    | cons n l ih =>
      intro u hu
      obtain ⟨hpnc, hidles⟩ := cueMatch_idles (ahead := s.lookAhead) (n := n) hu
      exact (ih _ hidles).trans hpnc
  unfold compareCues
  split
  · exact hrun _ s h
  · rfl

/-! ### The end of flashes -/

/-- The lamp of key `k` of panel `p` is derived when the flashes `l` end. -/
def Ended (s : State) (l : List (Fin 24 × Fin 48)) (p : Fin 24) (k : Fin 48) : Prop :=
  ((s.panel p).state = .online ∧ ∃ j, (p, j) ∈ l) ∨ (p, k) ∈ l

/-- What the ends of the flashes `l` leave. -/
structure Relit (s : State) (l : List (Fin 24 × Fin 48)) (v : State) : Prop where
  blocks : v.xpe = s.xpe ∧ v.tly = s.tly ∧ v.tke = s.tke
  still  : ∀ p, (v.panel p).still = (s.panel p).still
  lit    : ∀ (p : Fin 24) (k : Fin 48), Ended s l p k → (v.panel p).image[k] = s.lampOf p k
  unlit  : ∀ (p : Fin 24) (k : Fin 48), ¬ Ended s l p k → (v.panel p).image[k] = (s.panel p).image[k]
  set    : ∀ (p : Fin 24) (k : Fin 48), k ∈ (v.panel p).lampSet ↔ k ∈ (s.panel p).lampSet ∨ (Ended s l p k ∧ s.lampOf p k ≠ (s.panel p).image[k])
  others : ∀ p, (∀ k, (p, k) ∉ l) → v.panel p = s.panel p

theorem not_ended {s : State} {l : List (Fin 24 × Fin 48)} {p : Fin 24} (h : ∀ k, (p, k) ∉ l) (k : Fin 48) : ¬ Ended s l p k := by
  rintro (⟨-, j, hj⟩ | hk)
  · exact h j hj
  · exact h k hk

/-- One more flash that ends. -/
theorem ended_append (s : State) (l : List (Fin 24 × Fin 48)) (p : Fin 24) (k j : Fin 48) :
    Ended s (l ++ [(p, k)]) p j ↔ Ended s l p j ∨ (s.panel p).state = .online ∨ j = k := by
  simp only [Ended, List.mem_append, List.mem_singleton, Prod.mk.injEq, true_and]
  constructor
  · rintro (⟨hon, -⟩ | hj | hj)
    · exact .inr (.inl hon)
    · exact .inl (.inr hj)
    · exact .inr (.inr hj)
  · rintro ((⟨hon, i, hi⟩ | hj) | hon | hj)
    · exact .inl ⟨hon, i, .inl hi⟩
    · exact .inr (.inl hj)
    · exact .inl ⟨hon, k, .inr rfl⟩
    · exact .inr (.inr hj)

theorem ended_other (s : State) (l : List (Fin 24 × Fin 48)) {p q : Fin 24} (h : q ≠ p) (k j : Fin 48) :
    Ended s (l ++ [(p, k)]) q j ↔ Ended s l q j := by
  simp [Ended, h]

theorem Relit.step {s v : State} {l : List (Fin 24 × Fin 48)} (h : Relit s l v) (p : Fin 24) (k : Fin 48) :
    Relit s (l ++ [(p, k)]) (endFlash p k v) := by
  obtain ⟨hxpe, htly, htke⟩ := h.blocks
  have hstate : (v.panel p).state = (s.panel p).state := (fields_of_still (h.still p)).1
  have hlamp : ∀ j, v.lampOf p j = s.lampOf p j := lampOf_congr (h.still p) hxpe htly htke
  have hown : (endFlash p k v).panel p = (v.panel p).withImage (v.relit p fun j => decide ((v.panel p).state = .online ∨ j = k)) :=
    (endFlash_panel p p k v).trans (if_pos rfl)
  have hother : ∀ q, q ≠ p → (endFlash p k v).panel q = v.panel q := fun q hq => (endFlash_panel p q k v).trans (if_neg (Ne.symm hq))
  have himage : ∀ j : Fin 48, ((endFlash p k v).panel p).image[j] =
      if (s.panel p).state = .online ∨ j = k then s.lampOf p j else (v.panel p).image[j] := by
    intro j
    rw [hown]
    refine (tabulate_get _ j).trans ?_
    rw [hstate, hlamp]
    simp only [decide_eq_true_eq]
  refine ⟨by simp [hxpe, htly, htke], fun q => (endFlash_still p q k v).trans (h.still q), fun q j hj => ?_, fun q j hj => ?_, fun q j => ?_,
    fun q hq => ?_⟩
  · by_cases hq : q = p
    · subst hq
      rw [himage]
      split
      · rfl
      · next hnot => exact h.lit q j (((ended_append s l q k j).mp hj).resolve_right hnot)
    · rw [hother q hq]
      exact h.lit q j ((ended_other s l hq k j).mp hj)
  · by_cases hq : q = p
    · subst hq
      rw [ended_append, not_or] at hj
      rw [himage, if_neg hj.2]
      exact h.unlit q j hj.1
    · rw [hother q hq]
      exact h.unlit q j fun hc => hj ((ended_other s l hq k j).mpr hc)
  · by_cases hq : q = p
    · subst hq
      have hnew : ∀ x : Fin 48, (v.relit q fun j => decide ((v.panel q).state = .online ∨ j = k))[x] = ((endFlash q k v).panel q).image[x] := by
        intro x
        rw [hown]
        rfl
      rw [ended_append, show (endFlash q k v).panel q = _ from hown, mem_withImage, hnew, himage, h.set]
      by_cases hc : (s.panel q).state = .online ∨ j = k
      · rw [if_pos hc]
        by_cases he : Ended s l q j
        · rw [h.lit q j he]
          tauto
        · rw [h.unlit q j he]
          tauto
      · rw [if_neg hc]
        tauto
    · rw [hother q hq, ended_other s l hq]
      exact h.set q j
  · have hne : q ≠ p := fun he => hq k (by simp [he])
    rw [hother q hne]
    exact h.others q fun j hj => hq j (by simp [hj])

theorem Relit.run {s : State} : ∀ (rest l : List (Fin 24 × Fin 48)) (v : State), Relit s l v →
    Relit s (l ++ rest) (rest.foldl (fun u x => endFlash x.1 x.2 u) v)
  | [], l, v, h => by rw [List.append_nil]; exact h
  | (p, k) :: rest, l, v, h => by
    have ih := Relit.run rest (l ++ [(p, k)]) (endFlash p k v) (h.step p k)
    rwa [List.append_assoc] at ih

theorem endFlashes_relit (s : State) : Relit s s.pnc.flashEnds (endFlashes s) := by
  have hstart : Relit s [] { s with pnc := { s.pnc with flashEnds := [] } } :=
    ⟨⟨rfl, rfl, rfl⟩, fun _ => rfl, fun p k h => absurd h (not_ended (by simp) k), fun _ _ _ => rfl,
      fun p k => ⟨.inl, fun h => h.resolve_right fun hc => not_ended (by simp) k hc.1⟩, fun _ _ => rfl⟩
  exact hstart.run s.pnc.flashEnds [] _

/-- A state with other panel records. -/
def withPanels (x : Vector Panel 24) (s : State) : State := { s with pnc := { s.pnc with panels := x } }

theorem endFlashes_panels (s : State) : endFlashes s = { s with pnc := { s.pnc with panels := (endFlashes s).pnc.panels, flashEnds := [] } } := by
  have hkeep : withPanels s.pnc.panels (endFlashes s) = withPanels s.pnc.panels { s with pnc := { s.pnc with flashEnds := [] } } :=
    foldl_keeps (withPanels s.pnc.panels) (fun u (x : Fin 24 × Fin 48) => endFlash x.1 x.2 u) (fun _ _ => rfl) _ _
  exact congrArg (withPanels (endFlashes s).pnc.panels) hkeep

/-! ### A refusal -/

/-- The one key of a panel that fits, where it does. -/
theorem filter_one {n : Nat} (k : Fin n) (f : Fin n → Bool) (h : ∀ j, j ≠ k → f j = false) :
    (List.finRange n).filter f = if f k = true then [k] else [] := by
  have hfew : ∀ l : List (Fin n), l.Nodup → l.filter f = if k ∈ l ∧ f k = true then [k] else [] := by
    intro l
    induction l with
    | nil => exact fun _ => (if_neg fun hc => List.not_mem_nil hc.1).symm
    | cons j l ih =>
      intro hn
      obtain ⟨hnew, hrest⟩ := List.nodup_cons.mp hn
      rw [List.filter_cons, ih hrest]
      by_cases hj : j = k
      · subst hj
        by_cases hf : f j = true
        · rw [if_pos hf, if_neg fun hc => hnew hc.1, if_pos ⟨List.mem_cons_self, hf⟩]
        · rw [if_neg hf, if_neg fun hc => hf hc.2, if_neg fun hc => hf hc.2]
      · rw [if_neg (by rw [h j hj]; exact Bool.false_ne_true)]
        simp [Ne.symm hj]
  rw [hfew _ (List.nodup_finRange n)]
  simp

/-- The image of a refused key's panel: the key's lamp flashes. -/
theorem refused_image (s : State) (p : Fin 24) (k : Fin 48) {x : Panel} (hx : x = { s.panel p with timers := upd (s.panel p).timers k 16 }) :
    (s.setPanel p x).relit p (fun j => decide (j = k)) = upd (s.panel p).image k .flash := by
  refine Vector.ext fun j hj => ?_
  have hpanel : (s.setPanel p x).panel p = x := setPanel_same _ _ _
  have hflash : (s.setPanel p x).lampOf p k = .flash := by
    refine if_pos ?_
    rw [hpanel, hx]
    simp
  refine (tabulate_get _ ⟨j, hj⟩).trans ((?_ : _ = _).trans (upd_get _ k ⟨j, hj⟩ _).symm)
  by_cases hk : k = ⟨j, hj⟩
  · rw [if_pos hk, ← hk, hflash]
    simp
  · rw [if_neg hk, hpanel, hx]
    simp [Ne.symm hk]

theorem refuseKey_record (s : State) (p : Fin 24) (k : Fin 48) (c : Code) :
    ((refuseKey p k c s).panel p).timers = upd (s.panel p).timers k 16 ∧ ((refuseKey p k c s).panel p).image = upd (s.panel p).image k .flash ∧
    ((refuseKey p k c s).panel p).lampSet = (if (s.panel p).image[k] = .flash ∨ k ∈ (s.panel p).lampSet then (s.panel p).lampSet
      else (s.panel p).lampSet ++ [k]) ∧
    ((refuseKey p k c s).panel p).state = (s.panel p).state ∧ ((refuseKey p k c s).panel p).selection = (s.panel p).selection ∧
    ∀ o : Fin 24, o ≠ p → (refuseKey p k c s).panel o = s.panel o := by
  have hself := refuseKey_panel p p k c s
  have hother : ∀ o, o ≠ p → (refuseKey p k c s).panel o = s.panel o := fun o ho => (refuseKey_panel p o k c s).trans (if_neg (Ne.symm ho))
  dsimp only at hself
  rw [if_pos rfl, refused_image s p k rfl] at hself
  have hset : newlyChanged { s.panel p with timers := upd (s.panel p).timers k 16 } (upd (s.panel p).image k .flash) =
      if (s.panel p).image[k] = .flash ∨ k ∈ (s.panel p).lampSet then [] else [k] := by
    have hsame : (upd (s.panel p).image k .flash)[k] = Lamp.flash := upd_same _ _ _
    unfold newlyChanged
    rw [filter_one k _ fun j hj => ?_]
    · rw [hsame]
      by_cases h1 : (s.panel p).image[k] = .flash
      · simp [h1]
      · by_cases h2 : k ∈ (s.panel p).lampSet
        · simp [h2]
        · have h1' : ¬ Lamp.flash = (s.panel p).image[k.1] := fun h => h1 h.symm
          have h1'' : ¬ (s.panel p).image[k.1] = Lamp.flash := h1
          simp [h1', h1'', h2]
    · have hkeep : (upd (s.panel p).image k .flash)[j] = (s.panel p).image[j] := upd_other _ _ (Ne.symm hj)
      rw [hkeep]
      simp
  rw [hself]
  refine ⟨rfl, rfl, ?_, rfl, rfl, hother⟩
  rw [Panel.withImage, hset]
  split
  · exact List.append_nil _
  · rfl

/-! ### The lamps -/

section
variable {s : State} {p : Fin 24} {k : Fin 48}

/-- The current source of a selection is the one that it shows. -/
theorem currentSource_iff (s : State) (sel : Selection) (x : Source) : s.currentSource sel = some x ↔ s.showsSource sel x := by
  unfold State.currentSource State.showsSource
  cases hd : sel.dest with
  | none => simp
  | some y =>
    obtain ⟨d, m⟩ := y
    have hlevel : ∀ l : Level, (hasLevel m l && hasLevel (s.dest d).present l) = (m &&& (s.dest d).present).getLsbD l.num := by
      intro l
      rw [BitVec.getLsbD_and]
      rfl
    have hfirst : ∀ l, firstLevel m (s.dest d).present = some l ↔ (m &&& (s.dest d).present).getLsbD l.num = true ∧
        ∀ j, j < l.num → (m &&& (s.dest d).present).getLsbD j = false := by
      intro l
      simp only [firstLevel, levels, hlevel]
      generalize m &&& (s.dest d).present = b
      have hnone : ∀ j, j < Level.v.num → b.getLsbD j = false := nofun
      have hone : (∀ j, j < Level.a.num → b.getLsbD j = false) ↔ b.getLsbD 0 = false := by
        simp only [Level.num, Nat.lt_one_iff, forall_eq]
      have htwo : (∀ j, j < Level.b.num → b.getLsbD j = false) ↔ b.getLsbD 0 = false ∧ b.getLsbD 1 = false :=
        Nat.forall_lt_succ_right.trans (and_congr_left' hone)
      cases l
      · rw [and_iff_left hnone]
        simp only [List.find?, Level.num]
        cases b.getLsbD 0 <;> cases b.getLsbD 1 <;> cases b.getLsbD 2 <;> decide
      · rw [hone]
        simp only [List.find?, Level.num]
        cases b.getLsbD 0 <;> cases b.getLsbD 1 <;> cases b.getLsbD 2 <;> decide
      · rw [htwo]
        simp only [List.find?, Level.num]
        cases b.getLsbD 0 <;> cases b.getLsbD 1 <;> cases b.getLsbD 2 <;> decide
    have hgives : ∀ e : MapEntry, e.gives = some x ↔ e.state ≠ .unknown ∧ e.source = x := by
      intro e
      unfold MapEntry.gives
      split
      · next h => simp [h]
      · next h => simp [h]
    change (match firstLevel m (s.dest d).present with
      | none => none
      | some l => ((s.dest d).entry l).gives) = some x ↔ _
    cases hl : firstLevel m (s.dest d).present with
    | none =>
      refine ⟨nofun, fun ⟨d', m', l, hd', hb, hlow, _⟩ => ?_⟩
      cases hd'
      exact absurd (hl.symm.trans ((hfirst l).mpr ⟨hb, hlow⟩)) nofun
    | some l =>
      obtain ⟨hb, hlow⟩ := (hfirst l).mp hl
      refine (hgives _).trans ⟨fun ⟨h1, h2⟩ => ⟨d, m, l, rfl, hb, hlow, h1, h2⟩, fun ⟨d', m', l', hd', hb', hlow', h1, h2⟩ => ?_⟩
      cases hd'
      have hsame : l = l' := Option.some.inj (hl.symm.trans ((hfirst l').mpr ⟨hb', hlow'⟩))
      rw [hsame]
      exact ⟨h1, h2⟩

theorem sourceRed_iff (s : State) (x : Source) : s.sourceRed x = true ↔ ∃ n : Fin 128, x = .input n ∧ s.tly.tally[n].getLsbD 0 = true := by
  cases x with
  | park => simp [State.sourceRed]
  | input n => simp [State.sourceRed]

theorem salvoActive_iff (s : State) (n : Fin 16) :
    s.salvoActive n = true ↔ (∃ u ∈ s.xpe.queue, u.salvo = some n ∧ u.entries ≠ []) ∨ ∃ a ∈ s.xpe.armed, a.salvo = some n := by
  simp [State.salvoActive]

theorem calledBy_iff (s : State) (p : Fin 24) (target : TalkTarget) :
    s.calledBy p target = true ↔ ∃ x ∈ s.tke.paths, (s.panel p).station = some x.listener ∧ (s.targetSet target).getLsbD x.talker.1 = true := by
  unfold State.calledBy
  cases (s.panel p).station with
  | none => simp
  | some a => simp only [List.any_eq_true, Bool.and_eq_true, decide_eq_true_eq, hasPort, Option.some.injEq, @eq_comm _ a]

/-- The lamp law of R142, function by function. -/
theorem lamp_law (s : State) (p : Fin 24) (k : Fin 48) (htimer : (s.panel p).timers[k] = 0) : let lamp := s.lampOf p k
    let sel := (s.panel p).selection
    let red := fun x : Source => ∃ n : Fin 128, x = .input n ∧ s.tly.tally[n].getLsbD 0 = true
    (s.keyAction p k = .none → lamp = .off) ∧ (∀ l, s.keyAction p k = .report l → lamp = l) ∧
    (∀ d m, s.keyAction p k = .select d m → lamp = if sel.dest = some (d, m) then .on else .off) ∧
    (∀ x, s.keyAction p k = .source x → (sel.preset = some x → lamp = .flash) ∧
      (sel.preset ≠ some x → s.showsSource sel x → (red x → lamp = .alt) ∧ (¬ red x → lamp = .on)) ∧
      (sel.preset ≠ some x → ¬ s.showsSource sel x → lamp = .off)) ∧
    (s.keyAction p k = .take → lamp = if sel.preset = none then .off else .flash) ∧
    (∀ g, s.keyAction p k = .step g → ((∃ w, sel.walk = some w ∧ w.group = g) → lamp = .on) ∧
      ((∀ w, sel.walk = some w → w.group ≠ g) → lamp = .off)) ∧
    (∀ n, s.keyAction p k = .salvo n → let active := (∃ u ∈ s.xpe.queue, u.salvo = some n ∧ u.entries ≠ []) ∨ ∃ a ∈ s.xpe.armed, a.salvo = some n
      (active → lamp = .on) ∧ (¬ active → lamp = .off)) ∧
    (s.keyAction p k = .protect → (sel.dest = none → lamp = .off) ∧ ∀ d m, sel.dest = some (d, m) →
      ((s.dest d).protect = none → lamp = .off) ∧
      ∀ y, (s.dest d).protect = some y → lamp = if y.owner = .panel p then .on else .flash) ∧
    ∀ target mode gain, s.keyAction p k = .talk target mode gain →
      let calls := s.usableStation p = true ∧ ∃ x ∈ s.tke.paths, (s.panel p).station = some x.listener ∧ (s.targetSet target).getLsbD x.talker.1 = true
      ((s.keyState p k).active = true → lamp = .on) ∧ ((s.keyState p k).active = false → (calls → lamp = .flash) ∧ (¬ calls → lamp = .off)) := by
  intro lamp sel red
  have hlamp : lamp = s.functionLamp p k := if_neg (by rw [show (s.panel p).timers[k] = 0 from htimer]; exact Nat.lt_irrefl 0)
  rw [hlamp]
  refine ⟨fun hk => ?_, fun l hk => ?_, fun d m hk => ?_, fun x hk => ?_, fun hk => ?_, fun g hk => ?_, fun n hk => ?_, fun hk => ?_,
    fun target mode gain hk => ?_⟩
  · rw [State.functionLamp, hk]
  · rw [State.functionLamp, hk]
  · rw [State.functionLamp, hk]
  · have hsource : s.functionLamp p k = s.sourceLamp p x := by rw [State.functionLamp, hk]
    rw [hsource, State.sourceLamp]
    refine ⟨fun h => if_pos h, fun h hshows => ⟨fun hred => ?_, fun hred => ?_⟩, fun h hshows => ?_⟩
    · rw [if_neg h, if_pos ((currentSource_iff s _ x).mpr hshows), if_pos ((sourceRed_iff s x).mpr hred)]
    · rw [if_neg h, if_pos ((currentSource_iff s _ x).mpr hshows), if_neg fun hc => hred ((sourceRed_iff s x).mp hc)]
    · rw [if_neg h, if_neg fun hc => hshows ((currentSource_iff s _ x).mp hc)]
  · have htake : s.functionLamp p k = if (s.panel p).selection.preset.isSome = true then .flash else .off := by rw [State.functionLamp, hk]
    rw [htake]
    cases h : (s.panel p).selection.preset with
    | none => exact (if_pos rfl).symm
    | some x => exact (if_neg (Option.some_ne_none x)).symm
  · have hstep : s.functionLamp p k = if (s.panel p).selection.walk.map Walk.group = some g then .on else .off := by rw [State.functionLamp, hk]
    rw [hstep]
    exact ⟨fun ⟨w, hw, hg⟩ => if_pos (by rw [hw]; exact congrArg some hg), fun h => if_neg fun hc => by
      obtain ⟨w, hw, hg⟩ := Option.map_eq_some_iff.mp hc
      exact h w hw hg⟩
  · have hsalvo : s.functionLamp p k = if s.salvoActive n = true then .on else .off := by rw [State.functionLamp, hk]
    rw [hsalvo]
    exact ⟨fun h => if_pos ((salvoActive_iff s n).mpr h), fun h => if_neg fun hc => h ((salvoActive_iff s n).mp hc)⟩
  · have hprotect : s.functionLamp p k = s.protectLamp p := by rw [State.functionLamp, hk]
    rw [hprotect, State.protectLamp]
    refine ⟨fun h => by rw [h], fun d m h => ?_⟩
    rw [h]
    refine ⟨fun hn => ?_, fun y hy => ?_⟩
    · rw [State.dest] at hn
      dsimp only
      rw [hn]
    · rw [State.dest] at hy
      dsimp only
      rw [hy]
  · have htalk : s.functionLamp p k = s.talkLamp p k target := by rw [State.functionLamp, hk]
    intro calls
    have hcalls : s.usableStation p = true ∧ s.calledBy p target = true ↔ calls := by rw [calledBy_iff]
    rw [htalk, State.talkLamp]
    refine ⟨fun h => if_pos h, fun h => ?_⟩
    rw [if_neg (by rw [h]; exact Bool.false_ne_true)]
    exact ⟨fun hc => if_pos (hcalls.mpr hc), fun hc => if_neg fun hx => hc (hcalls.mp hx)⟩

end

/-- Settles O25: the examination, the boundary's timers, the ends of flashes, a refusal's record, and the lamp law. -/
theorem thresholdsAndFlashes : Obligations.ThresholdsAndFlashes := by
  unfold Obligations.ThresholdsAndFlashes
  refine ⟨fun s ts hts => ?_, fun s hnone => ?_, fun gpi s hidles => ?_, fun s => ?_, fun s p k c => ?_, fun s p k => ?_⟩
  · refine ⟨examineKeys s, rfl, ?_, fun p k => ⟨fun f hf => ?_, fun hno => ?_⟩⟩
    · rw [examineKeys, hts]
    · rw [examineKeys_due hts, hf, examined_pending]
    · rw [examineKeys_due hts, examined_other hno]
  · have hexec : exec .autoLatchThreshold s = .next (examineKeys s) := rfl
    rw [hexec, examineKeys, hnone]
  · have hb := scalerBoundary_bounded gpi s
    have ho := opened_leaves s
    generalize scalerBoundary gpi s = t at hb
    have hpnc := compareCues_pnc (s := opened s) (by rw [Idles, ho.xpe]; exact hidles)
    have hpanel : ∀ p, ((compareCues (opened s)).panel p).still = (s.panel p).still := fun p => by rw [panel_of_pnc hpnc]; exact ho.panel p
    have htimers : ∀ p, ((compareCues (opened s)).panel p).timers = (s.panel p).timers := fun p => by
      obtain ⟨-, -, -, -, -, -, h, -⟩ := fields_of_still (hpanel p)
      exact h
    have hthreshold : ∀ p, ((compareCues (opened s)).panel p).threshold = (s.panel p).threshold := fun p =>
      (congrArg Panel.threshold (hpanel p) : ((compareCues (opened s)).panel p).still.threshold = (s.panel p).still.threshold)
    refine ⟨t, hb.run, ⟨_, hb.due, fun p => (tabulate_get _ p).trans (hthreshold p)⟩, fun p k => ⟨?_, ?_⟩⟩
    · rw [hb.timers, htimers]
    · rw [hb.ends, htimers]
  · have hr := endFlashes_relit s
    refine ⟨endFlashes s, rfl, endFlashes_panels s, fun p => ?_⟩
    generalize endFlashes s = t at hr
    obtain ⟨hstate, -, -, -, -, hsel, htimers, -⟩ := fields_of_still (hr.still p)
    refine ⟨htimers, hstate, hsel, fun hany hon k => ?_, fun hoff k => ?_, hr.others p⟩
    · have he : Ended s s.pnc.flashEnds p k := .inl ⟨hon, hany⟩
      refine ⟨hr.lit p k he, ?_⟩
      rw [hr.set]
      exact or_congr_right ⟨fun h => h.2, fun h => ⟨he, h⟩⟩
    · have he : Ended s s.pnc.flashEnds p k ↔ (p, k) ∈ s.pnc.flashEnds := ⟨fun h => h.resolve_left fun hc => hoff hc.1, .inr⟩
      exact ⟨fun hk => hr.lit p k (he.mpr hk), fun hk => hr.unlit p k fun hc => hk (he.mp hc), by rw [hr.set, he]⟩
  · intro t
    obtain ⟨htimers, himage, hset, hstate, hsel, hothers⟩ := refuseKey_record s p k c
    obtain ⟨hcsi, hstore⟩ := journal_eq (Orders.refuseKey_journal p k c s)
    exact ⟨htimers, himage, hset, hstate, hsel, hothers, hcsi, hstore, by simp [t], by simp [t], by simp [t], by simp [t], by simp [t]⟩
  · intro lamp sel red
    exact ⟨fun h => if_pos h, lamp_law s p k⟩

end Sys2Proof.Proofs.Flashes
end

