-- ==== Sys2Proof/Proofs/Starts.lean ====
section
/-! START on a sound block, with its start actions (O30). -/

namespace Sys2Proof.Proofs.Starts

open Sys2Proof Sys2Proof.Machine
open Sys2Proof.Proofs.Journal (journal journal_eq journal_of report_journal)
open Sys2Proof.Proofs.Twins (RunsAlike Twin report_twin)
open Sys2Proof.Proofs.FrameTime (changeRef_rtu changeRef_journal)
open Sys2Proof.Proofs.Links (refreshed fullRefresh_eq mem_refreshed)
open Sys2Proof.Proofs.Panels (turned changePanel_still changePanel_journal fields_of_still)

/-! ### The panels -/

/-- A panel's part in polling: its state, the replies missed and the sequence bit. -/
def standing (s : State) (p : Fin 24) : PanelState × Nat × Bool := ((s.panel p).state, (s.panel p).missed, (s.panel p).bit)

theorem standing_of_still {s t : State} {p : Fin 24} (h : (t.panel p).still = (s.panel p).still) : standing t p = standing s p := by
  obtain ⟨hstate, hmissed, hbit, -⟩ := fields_of_still h
  simp only [standing, hstate, hmissed, hbit]

theorem standing_of_pnc {s t : State} (h : t.pnc = s.pnc) (p : Fin 24) : standing t p = standing s p := by
  simp only [standing, panel_of_pnc h]

/-- A panel that a start takes back to JOINING. -/
def rejoins (x : Panel) : Bool := decide (x.enabled = true ∧ (x.state = .online ∨ x.state = .joining ∨ x.state = .wrongModel))

theorem rejoins_iff (x : Panel) : rejoins x = true ↔ x.enabled = true ∧ (x.state = .online ∨ x.state = .joining ∨ x.state = .wrongModel) :=
  decide_eq_true_iff

/-- The standing of a panel after a start. -/
def restood (x : Panel) : PanelState × Nat × Bool := if rejoins x = true then (.joining, 0, false) else (x.state, x.missed, x.bit)

/-- The PANEL report of a start. -/
def toldJoining (old : Fin 24 → Panel) (f : FrameIndex) (l : Label) (v : State) (p : Fin 24) : State :=
  if (old p).enabled = true ∧ ((old p).state = .online ∨ (old p).state = .wrongModel) then report (.panel p .joining) f l v else v

theorem toldJoining_congr {old new : Fin 24 → Panel} {p : Fin 24} (h : (new p).still = (old p).still) (f : FrameIndex) (l : Label) (v : State) :
    toldJoining new f l v p = toldJoining old f l v p := by
  obtain ⟨hstate, -, -, -, -, -, -, henabled, -⟩ := fields_of_still h
  simp only [toldJoining, hstate, henabled]

theorem restood_congr {x y : Panel} (h : x.still = y.still) : restood x = restood y := by
  obtain ⟨hstate, hmissed, hbit, -, -, -, -, henabled, -⟩ := fields_of_still h
  have hrejoins : rejoins x = rejoins y := by simp only [rejoins, hstate, henabled]
  simp only [restood, hrejoins, hstate, hmissed, hbit]

/-- A rejoin moves its own panel alone, and reports a change of its state. -/
theorem rejoin_leaves (p : Fin 24) (s : State) :
    (∀ o, o ≠ p → ((rejoin p s).panel o).still = (s.panel o).still) ∧ standing (rejoin p s) p = restood (s.panel p) ∧
    journal (rejoin p s) = journal (toldJoining s.panel s.rtu.frame s.rtu.label s p) := by
  generalize hx : s.setPanel p { s.panel p with probeDue := false } = x
  have hself : x.panel p = { s.panel p with probeDue := false } := by rw [← hx, setPanel_panel, if_pos rfl]
  have hother : ∀ o, o ≠ p → x.panel o = s.panel o := fun o ho => by rw [← hx, setPanel_panel, if_neg (Ne.symm ho)]
  have hrtu : x.rtu = s.rtu := by rw [← hx]; rfl
  have htold : journal x = journal s := by rw [← hx]; rfl
  have hstate : (x.panel p).state = (s.panel p).state := by rw [hself]
  have hrejoin : rejoin p s = if (s.panel p).enabled = true ∧ ((s.panel p).state = .online ∨ (s.panel p).state = .joining ∨ (s.panel p).state = .wrongModel)
      then changePanel p .joining x else x := by rw [← hx]; rfl
  rw [hrejoin, restood, toldJoining]
  by_cases h : (s.panel p).enabled = true ∧ ((s.panel p).state = .online ∨ (s.panel p).state = .joining ∨ (s.panel p).state = .wrongModel)
  · rw [if_pos h, if_pos ((rejoins_iff _).mpr h)]
    refine ⟨fun o ho => ?_, ?_, ?_⟩
    · rw [changePanel_still, if_neg (Ne.symm ho), hother o ho]
    · have hstill := changePanel_still p p .joining x
      rw [if_pos rfl] at hstill
      obtain ⟨hstate, hmissed, hbit, -⟩ := fields_of_still hstill
      simp only [standing, hstate, hmissed, hbit, turned]
      split <;> rfl
    · rw [changePanel_journal, hstate, hrtu]
      by_cases hj : .joining = (s.panel p).state
      · rw [if_pos hj, if_neg fun hc => by rcases hc.2 with hc | hc <;> exact absurd (hj.trans hc) nofun]
        exact htold
      · rw [if_neg hj, if_pos ⟨h.1, h.2.imp_right fun hc => hc.resolve_left fun hc => hj hc.symm⟩]
        exact report_journal htold _ _ _
  · rw [if_neg h, if_neg fun hc => h ((rejoins_iff _).mp hc), if_neg fun hc => h ⟨hc.1, hc.2.imp_right .inr⟩]
    exact ⟨fun o ho => by rw [hother o ho], by simp only [standing, hself], htold⟩

/-- The panels' part of a start, panel by panel. -/
theorem rejoin_run (old : Fin 24 → Panel) (f : FrameIndex) (lab : Label) : ∀ (l : List (Fin 24)), l.Nodup → ∀ u v : State, journal u = journal v →
    u.rtu.frame = f → u.rtu.label = lab → (∀ p ∈ l, (u.panel p).still = (old p).still) →
    let w := l.foldl (fun s p => rejoin p s) u
    (∀ p ∈ l, standing w p = restood (old p)) ∧ (∀ p ∉ l, standing w p = standing u p) ∧ journal w = journal (l.foldl (toldJoining old f lab) v)
  | [], _, _, _, hj, _, _, _ => ⟨fun _ h => absurd h List.not_mem_nil, fun _ _ => rfl, hj⟩
  | p :: l, hn, u, v, hj, hf, hlab, hold => by
    obtain ⟨hnew, hrest⟩ := List.nodup_cons.mp hn
    obtain ⟨hothers, hself, htold⟩ := rejoin_leaves p u
    have hp := hold p List.mem_cons_self
    have hrtu : (rejoin p u).rtu = u.rtu := by simp
    have hstep : journal (rejoin p u) = journal (toldJoining old f lab v p) := by
      rw [htold, hf, hlab, toldJoining_congr hp]
      unfold toldJoining
      split
      · exact report_journal hj _ _ _
      · exact hj
    obtain ⟨ihin, ihout, ihtold⟩ := rejoin_run old f lab l hrest (rejoin p u) (toldJoining old f lab v p) hstep (by rw [hrtu, hf]) (by rw [hrtu, hlab])
      fun o ho => (hothers o fun he => hnew (he ▸ ho)).trans (hold o (List.mem_cons_of_mem _ ho))
    refine ⟨fun o ho => ?_, fun o ho => ?_, ihtold⟩
    · rcases List.mem_cons.mp ho with rfl | ho
      · exact (ihout o hnew).trans (hself.trans (restood_congr hp))
      · exact ihin o ho
    · exact (ihout o fun hm => ho (List.mem_cons_of_mem _ hm)).trans
        (standing_of_still (hothers o fun he => ho (he ▸ List.mem_cons_self)))

theorem rejoinAll_leaves (s : State) : (∀ p, standing (forPanels rejoin s) p = restood (s.panel p)) ∧
    journal (forPanels rejoin s) = journal ((List.finRange 24).foldl (toldJoining s.panel s.rtu.frame s.rtu.label) s) := by
  have hall := List.mem_finRange (n := 24)
  have hnodup := List.nodup_finRange 24
  unfold forPanels
  generalize List.finRange 24 = l at hall hnodup
  obtain ⟨hin, -, htold⟩ := rejoin_run s.panel s.rtu.frame s.rtu.label l hnodup s s rfl rfl rfl fun _ _ => rfl
  exact ⟨fun p => hin p (hall p), htold⟩

/-! ### The rate -/

/-- The label as a rate change rewrites it (R2), in the statement's terms. -/
def rewritten (r : Rate) (l : Label) : Label :=
  let f := min l.ff (r.base - 1)
  if l.ss = 0 ∧ f < r.drop ∧ l.mm % 10 ≠ 0 then { l with ff := r.drop } else { l with ff := f }

theorem rewriteLabel_eq (r : Rate) (l : Label) : rewriteLabel r l = rewritten r l := by
  have hbase : 0 < r.base := by cases r <;> decide
  have hmin : (if l.ff < r.base then l.ff else r.base - 1) = min l.ff (r.base - 1) := by
    split <;> omega
  simp only [rewriteLabel, rewritten, Label.skipped, hmin, Bool.and_eq_true, decide_eq_true_eq, and_assoc]

/-- The RTU as a rate change leaves it. -/
def retimed (r : Rate) (x : Rtu) : Rtu :=
  { x with rate := r, ref := .free, expected := none, good := 0, missing := 0, label := rewritten r x.label, jam := x.jam.map (rewritten r) }

theorem changeRate_leaves (r : Rate) (s : State) : (changeRate r s).rtu = retimed r s.rtu ∧
    journal (changeRate r s) = journal (if s.rtu.ref = .free then s else report (.ref .free) s.rtu.frame (rewritten r s.rtu.label) s) := by
  have hjam : s.rtu.jam.map (rewriteLabel r) = s.rtu.jam.map (rewritten r) := congrArg (s.rtu.jam.map ·) (funext (rewriteLabel_eq r))
  unfold changeRate
  rw [hjam, rewriteLabel_eq]
  refine ⟨changeRef_rtu _ _, ?_⟩
  split
  · next h => rw [changeRef, if_pos (by exact h)]; rfl
  · next h => exact (changeRef_journal (by exact h)).trans (report_journal (by rfl) _ _ _)

/-- The state at the rate that a start names. -/
def rated (r : Rate) (s : State) : State := if r = s.rtu.rate then s else changeRate r s

theorem rated_leaves (r : Rate) (s : State) : (rated r s).rtu = (if r = s.rtu.rate then s.rtu else retimed r s.rtu) ∧
    journal (rated r s) = journal (if r ≠ s.rtu.rate ∧ s.rtu.ref ≠ .free then report (.ref .free) s.rtu.frame (rewritten r s.rtu.label) s else s) ∧
    (rated r s).pnc = s.pnc ∧ (rated r s).xpe = s.xpe := by
  unfold rated
  by_cases h : r = s.rtu.rate
  · rw [if_pos h, if_pos h, if_neg fun hc => hc.1 h]
    exact ⟨rfl, rfl, rfl, rfl⟩
  · obtain ⟨hrtu, htold⟩ := changeRate_leaves r s
    rw [if_neg h, if_neg h]
    refine ⟨hrtu, htold.trans ?_, by simp, by simp⟩
    by_cases hf : s.rtu.ref = .free
    · rw [if_pos hf, if_neg fun hc => hc.2 hf]
    · rw [if_neg hf, if_pos ⟨h, hf⟩]

/-! ### SWEEP -/

theorem serveLinks_leaves (s : State) : ((List.finRange 4).foldl (fun s l => serveLink l s) s).tke = s.tke ∧
    ((List.finRange 4).foldl (fun s l => serveLink l s) s).xpe = s.xpe ∧
    ∀ p, standing ((List.finRange 4).foldl (fun s l => serveLink l s) s) p = standing s p := by
  refine ⟨foldl_keeps (fun s : State => s.tke) (fun s l => serveLink l s) (fun s l => by simp) _ s,
    foldl_keeps (fun s : State => s.xpe) (fun s l => serveLink l s) (fun s l => by simp) _ s,
    fun p => foldl_keeps (fun s : State => standing s p) (fun s l => serveLink l s) (fun s l => ?_) _ s⟩
  obtain ⟨due, hp⟩ := TalkKeyMoves.serveLink_panel l s p
  simp only [standing, hp]

/-- What SWEEP brings: the sweep of an UP fabric link, and the next write of the talk link. -/
theorem enterSweep_leaves (s : State) : (enterSweep s).xpe = { s.xpe with sweep := if s.xpe.link = .up then some (0, .v) else s.xpe.sweep } ∧
    (enterSweep s).tke.queue = s.tke.queue ∧ (enterSweep s).tke.target = s.tke.target ∧ (enterSweep s).tke.feeds = s.tke.feeds ∧
    ∀ p, standing (enterSweep s) p = standing s p := by
  have hx : ∀ x : State, x = (if s.xpe.link = .up then startSweep { s with runState := .sweep } else { s with runState := .sweep }) →
      x.xpe = { s.xpe with sweep := if s.xpe.link = .up then some (0, .v) else s.xpe.sweep } ∧ x.tke = s.tke ∧ x.pnc = s.pnc := by
    rintro x rfl
    split <;> exact ⟨rfl, rfl, rfl⟩
  obtain ⟨hxpe, htke, hpnc⟩ := hx _ rfl
  unfold enterSweep
  dsimp only
  generalize (if s.xpe.link = .up then startSweep { s with runState := .sweep } else { s with runState := .sweep } : State) = x at hxpe htke hpnc
  obtain ⟨ltke, lxpe, lstanding⟩ := serveLinks_leaves (talkSend x)
  rw [ltke, lxpe]
  refine ⟨by rw [(talkSend_frame x).2.2.2.1, hxpe], by rw [talkSend_tables x |>.2.2.2.2.2.2.2.2.2.1, htke], ?_, ?_, fun p => ?_⟩
  · rw [(talkSend_tables x).2.2.2.2.2.2.2.1, htke]
  · rw [(talkSend_tables x).2.2.2.2.2.2.2.2.1, htke]
  · rw [lstanding, standing_of_pnc (s := x) (by simp), standing_of_pnc hpnc]

/-! ### The start actions -/

/-- A full refresh puts every crosspoint and feed into the queue with its target value. -/
theorem fullRefresh_enters (s : State) : ∃ q, fullRefresh s = { s with tke := { s.tke with queue := q } } ∧
    (∀ a b : Fin 32, { key := .xpt a b, value := .coeff s.tke.target[a][b] } ∈ q) ∧ ∀ i : Fin 8, { key := .feed i, value := .feed s.tke.feeds[i] } ∈ q :=
  ⟨refreshed s, fullRefresh_eq s, mem_refreshed s⟩

/-- What the start actions leave, with the state `x` at the new rate and with the anchor copy taken. -/
structure Started (x v : State) : Prop where
  panels   : ∀ p, standing v p = restood (x.panel p)
  xpe      : v.xpe = { x.xpe with sweep := if x.xpe.link = .up then some (0, .v) else x.xpe.sweep }
  xpts     : ∀ a b : Fin 32, { key := .xpt a b, value := .coeff v.tke.target[a][b] } ∈ v.tke.queue
  feeds    : ∀ i : Fin 8, { key := .feed i, value := .feed v.tke.feeds[i] } ∈ v.tke.queue
  rtu      : v.rtu = x.rtu
  tly      : v.tly = x.tly
  control  : v.control = x.control
  csi      : ∃ y : State, journal y = journal ((List.finRange 24).foldl (toldJoining x.panel x.rtu.frame x.rtu.label) x) ∧
    v.csi = { y.csi with mirror := { y.csi.mirror with complete := true } } ∧ v.store = y.store ∧ y.csi.mirror = x.csi.mirror ∧
    y.csi.copy = x.csi.copy ∧ y.csi.posts = x.csi.posts

theorem started_of (x : State) : Started x (enterSweep (nextComplete (fullRefresh (forPanels rejoin x)))) := by
  obtain ⟨hpanels, htold⟩ := rejoinAll_leaves x
  have hkeep : (forPanels rejoin x).xpe = x.xpe ∧ (forPanels rejoin x).rtu = x.rtu ∧ (forPanels rejoin x).tly = x.tly ∧
      (forPanels rejoin x).control = x.control ∧ (forPanels rejoin x).csi.mirror = x.csi.mirror ∧
      (forPanels rejoin x).csi.copy = x.csi.copy ∧ (forPanels rejoin x).csi.posts = x.csi.posts :=
    ⟨forPanels_keeps (fun s : State => s.xpe) rejoin (by intros; simp) x, forPanels_keeps (fun s : State => s.rtu) rejoin (by intros; simp) x,
      forPanels_keeps (fun s : State => s.tly) rejoin (by intros; simp) x, forPanels_keeps (fun s : State => s.control) rejoin (by intros; simp) x,
      forPanels_keeps (fun s : State => s.csi.mirror) rejoin (by intros; simp) x, forPanels_keeps (fun s : State => s.csi.copy) rejoin (by intros; simp) x,
      forPanels_keeps (fun s : State => s.csi.posts) rejoin (by intros; simp) x⟩
  generalize forPanels rejoin x = y at hpanels htold hkeep
  obtain ⟨hxpe, hrtu, htly, hcontrol, hmirror, hcopy, hposts⟩ := hkeep
  obtain ⟨q, hrefresh, hxpts, hfeeds⟩ := fullRefresh_enters y
  rw [hrefresh]
  generalize hz : nextComplete { y with tke := { y.tke with queue := q } } = z
  have hzy : z.xpe = y.xpe ∧ z.rtu = y.rtu ∧ z.tly = y.tly ∧ z.control = y.control ∧ z.pnc = y.pnc ∧ z.tke = { y.tke with queue := q } ∧
      z.csi = { y.csi with mirror := { y.csi.mirror with complete := true } } ∧ z.store = y.store := by
    rw [← hz]
    exact ⟨rfl, rfl, rfl, rfl, rfl, rfl, rfl, rfl⟩
  obtain ⟨zxpe, zrtu, ztly, zcontrol, zpnc, ztke, zcsi, zstore⟩ := hzy
  obtain ⟨exte, equeue, etarget, efeeds, estanding⟩ := enterSweep_leaves z
  obtain ⟨econtrol, ertu, etly, ecsi, estore, -⟩ := enterSweep_frame z
  generalize enterSweep z = v at *
  refine ⟨fun p => ?_, ?_, fun a b => ?_, fun i => ?_, ertu.trans (zrtu.trans hrtu), etly.trans (ztly.trans htly),
    econtrol.trans (zcontrol.trans hcontrol), y, htold, ecsi.trans zcsi, estore.trans zstore, hmirror, hcopy, hposts⟩
  · rw [estanding, standing_of_pnc zpnc, hpanels]
  · rw [exte, zxpe, hxpe]
  · rw [equeue, etarget, ztke]
    exact hxpts a b
  · rw [equeue, efeeds, ztke]
    exact hfeeds i

theorem startActions_started (r : Rate) (c : AnchorCopy) (s : State) : Started (rated r (takeCopy c s)) (startActions r c s) := started_of _

/-! ### An overdue boundary -/

theorem refuseKey_standing (p o : Fin 24) (k : Fin 48) (c : Code) (s : State) : standing (refuseKey p k c s) o = standing s o := by
  have h := refuseKey_panel p o k c s
  dsimp only at h
  by_cases hp : p = o
  · subst hp
    rw [if_pos rfl] at h
    simp only [standing, h, Panel.withImage]
  · rw [if_neg hp] at h
    simp only [standing, h]

theorem fireOutcome_standing (q : FireRequest) (c : Code) (n : Nat) (o : Fin 24) (s : State) : standing (fireOutcome q c n s) o = standing s o := by
  unfold fireOutcome
  split
  · split
    · rfl
    · exact standing_of_pnc (by simp) o
  · split
    · exact refuseKey_standing _ _ _ _ _
    · rfl
  · exact standing_of_pnc (by simp) o
  · rfl

theorem beginReads_standing (o : Fin 24) : ∀ (qs : List FireRequest) (s : State), standing (beginReads qs s) o = standing s o
  | [], _ => rfl
  | q :: qs, s => by
    have hrefused := (beginReads_standing o qs (fireOutcome q .refusedSalvo 0 s)).trans (fireOutcome_standing ..)
    unfold beginReads
    split
    · exact hrefused
    · split
      · rfl
      · exact hrefused

theorem cueMatch_standing (ahead : Label) (n : Fin 16) (o : Fin 24) (s : State) : standing (cueMatch ahead n s) o = standing s o := by
  simp only [cueMatch]
  split
  · split
    · exact standing_of_pnc (by simp) o
    · unfold fire
      split
      · rfl
      · exact beginReads_standing o _ _
  · rfl

theorem compareCues_standing (o : Fin 24) (s : State) : standing (compareCues s) o = standing s o := by
  unfold compareCues
  split
  · exact foldl_keeps (fun s : State => standing s o) _ (fun s n => cueMatch_standing _ n o s) _ s
  · rfl

/-- A boundary leaves the panels' part in polling. -/
theorem makeBoundary_standing (gpi : BitVec 16) (o : Fin 24) (s : State) : standing (makeBoundary gpi s) o = standing s o := by
  have hfabric : ∀ x, standing (xpeBoundary x) o = standing x o := fun x => standing_of_still (congrFun (congrArg (fun k => k.2.2.2.2)
    (Boundaries.xpeBoundary_leaves x).1) o)
  have hprobe : ∀ x, standing (probeDue x) o = standing x o := fun x => by
    obtain ⟨due, hp⟩ := Boundaries.probeDue_panel x o
    simp only [standing, hp]
  have htick : ∀ x, standing (tickTimers x) o = standing x o := fun x => by simp only [standing, Boundaries.tickTimers_panel]
  have hopen : standing (nextFrame (endFlashes (examineKeys s))) o = standing s o := by
    rw [standing_of_pnc (nextFrame_frame _).2.2.2.2.2.1, standing_of_still (Boundaries.endFlashes_still o _),
      standing_of_pnc (examineKeys_frame _).2.2.2.2.2.1]
  rw [makeBoundary, hfabric, hprobe, htick, standing_of_pnc (s := compareCues (nextFrame (endFlashes (examineKeys s)))) (by simp),
    compareCues_standing, hopen]

/-- A boundary that comes at once is the scaler's at a full count. -/
theorem restarted_boundary (gpi : BitVec 16) (s : State) :
    makeBoundary gpi (restartCount s) = scalerBoundary gpi (s.setRtu { s.rtu with count := s.rtu.rate.period }) := by
  have hnow : s.rtu.now + (s.rtu.rate.period - s.rtu.rate.period) = s.rtu.now := by omega
  unfold scalerBoundary
  refine congrArg (makeBoundary gpi) ?_
  simp only [restartCount, State.setRtu, hnow]

theorem declareSettled_incoming (k : FrameIndex) (s : State) : (declareSettled k s).tke.incoming = s.tke.incoming := by
  have hselectors : (evaluateSelectors s).tke.incoming = s.tke.incoming := by simp [evaluateSelectors, talkSend_tables, enterFeeds]
  rw [← hselectors]
  simp [declareSettled, handOverMap]

/-- A boundary derives no talk set. -/
theorem scalerBoundary_incoming (gpi : BitVec 16) (s : State) : (scalerBoundary gpi s).tke.incoming = s.tke.incoming := by
  have hfabric : ∀ x, (xpeBoundary x).tke.incoming = x.tke.incoming := by
    intro x
    unfold xpeBoundary
    split
    · split <;> rfl
    · split
      · rfl
      · rw [declareSettled_incoming]
  have hretry : ∀ x, (tkeBoundary x).tke.incoming = x.tke.incoming := by
    intro x
    unfold tkeBoundary talkRetry
    split <;> rfl
  rw [Boundaries.scalerBoundary_stages, hfabric, Boundaries.closed, (probeDue_frame _).2.2.2.2.2.1, (tickTimers_frame _).2.2.2.2.2.1, hretry,
    (sampleInputs_frame gpi _).2.2.2.2.1, (compareCues_frame _).2.2.2.1, (Boundaries.opened_leaves s).incoming]

/-- What an overdue boundary of an engine in SWEEP brings. -/
structure Overdue (gpi : BitVec 16) (s t : State) : Prop where
  frame  : t.rtu.frame = s.rtu.frame + 1
  label  : t.rtu.label = s.rtu.nextLabel
  jam    : t.rtu.jam = none
  count  : t.rtu.count = 0
  cues   : t.rtu.cues = s.rtu.cues
  inputs : t.tly.inputs = some { frame := s.rtu.frame + 1, sample := gpi, snapshot := t.tke.incoming }
  fabric : s.xpe.link = .up → t.xpe.sweep = s.xpe.sweep ∧ t.xpe.reportWait = some (s.rtu.frame + 1)
  clock  : t.rtu.rate = s.rtu.rate ∧ t.rtu.ref = s.rtu.ref ∧ t.rtu.expected = s.rtu.expected ∧ t.rtu.good = s.rtu.good ∧
    t.rtu.missing = s.rtu.missing ∧ t.rtu.now = s.rtu.now

theorem overdue_boundary (gpi : BitVec 16) {s : State} (hrun : s.runState = .sweep) : Overdue gpi s (makeBoundary gpi (restartCount s)) := by
  have hrtu := FrameTime.makeBoundary_rtu gpi (restartCount s)
  have hclock : (restartCount s).rtu = { s.rtu with count := 0 } := rfl
  rw [hclock] at hrtu
  have hlabel : ({ s.rtu with count := 0 } : Rtu).nextLabel = s.rtu.nextLabel := rfl
  rw [hlabel] at hrtu
  have heq := restarted_boundary gpi s
  generalize hu : s.setRtu { s.rtu with count := s.rtu.rate.period } = u at heq
  have hframe : u.rtu.frame = s.rtu.frame ∧ u.xpe = s.xpe ∧ u.runState = .sweep ∧ u.rtu.cues = s.rtu.cues := by
    rw [← hu]
    exact ⟨rfl, rfl, hrun, rfl⟩
  obtain ⟨uframe, uxpe, urun, ucues⟩ := hframe
  have hcues : (compareCues (Boundaries.opened u)).rtu.cues = s.rtu.cues := by
    rw [compareCues, if_neg (by rw [(Boundaries.opened_leaves u).runState, urun]; nofun), (Boundaries.opened_leaves u).cues, ucues]
  have hb := Boundaries.scalerBoundary_bounded gpi u
  have hrouter := Boundaries.compareCues_router (Boundaries.opened u)
  have hincoming := scalerBoundary_incoming gpi u
  rw [(Boundaries.opened_leaves u).xpe] at hrouter
  rw [← heq] at hb hincoming
  generalize makeBoundary gpi (restartCount s) = t at *
  have hinputs := hb.inputs
  have hup := hb.up
  rw [uframe, ← hincoming] at hinputs
  rw [hrouter, uxpe, urun, uframe, if_neg nofun] at hup
  refine ⟨by rw [hrtu], by rw [hrtu], by rw [hrtu], by rw [hrtu], by rw [hb.rtu, hcues], hinputs, fun hlink => ?_, by rw [hrtu]; exact ⟨rfl, rfl, rfl, rfl, rfl, rfl⟩⟩
  rw [hup hlink]
  exact ⟨rfl, rfl⟩

/-! ### The whole start -/

/-- What START's RUN bit finds, with the bit set. -/
def running (elapsed : Nat) (freeze : Bool) (mask : BitVec 5) (s : State) : State :=
  { Registers.beforeRun elapsed freeze mask s with control := { (Registers.beforeRun elapsed freeze mask s).control with run := true } }

theorem start_sound {pre : HostWrites} {s : State} {r : Rate} (hpre : writesInside pre = true) (elapsed : Nat) (gpi : BitVec 16) (freeze : Bool)
    (mask : BitVec 5) (hs : s.runState = .halted) (hrun : s.control.run = false)
    (hsound : anchorChecks s.csi.anchor.toNat (anchorBlockAt (hostWrite s.store pre) s.csi.anchor.toNat) = true)
    (hrate : rateOf (anchorBlockAt (hostWrite s.store pre) s.csi.anchor.toNat).rateCode = some r) :
    exec (.start pre elapsed gpi freeze mask) s = .next (overdueBoundary r s.rtu.rate gpi (startActions r
      ((anchorBlockAt (hostWrite s.store pre) s.csi.anchor.toNat).copy s.csi.anchor.toNat) (running elapsed freeze mask (s.withWrites pre)))) := by
  have hx : (Registers.beforeRun elapsed freeze mask (s.withWrites pre)).control = { run := false, freeze := freeze, mask := mask } := by
    simp only [Registers.beforeRun_control, withWrites_frame, hrun]
  have hw : (running elapsed freeze mask (s.withWrites pre)).store = hostWrite s.store pre ∧
      (running elapsed freeze mask (s.withWrites pre)).csi.anchor = s.csi.anchor ∧
      (running elapsed freeze mask (s.withWrites pre)).rtu.rate = s.rtu.rate := by
    simp [running, Registers.beforeRun, advance, Rtu.advance]
  rw [Registers.start_next hpre, Registers.setRun_halted gpi (by simpa [Registers.beforeRun] using hs) (by rw [hx])]
  refine Registers.next_congr ?_
  change tryStart gpi (running elapsed freeze mask (s.withWrites pre)) = _
  generalize running elapsed freeze mask (s.withWrites pre) = w at hw
  obtain ⟨hstore, hanchor, hold⟩ := hw
  unfold tryStart
  dsimp only
  rw [hstore, hanchor, hrate]
  dsimp only
  rw [if_pos hsound, hold]

/-- What the RUN bit finds of the state: the FREEZE write's state, with the time gone on. -/
theorem running_leaves {elapsed : Nat} {freeze : Bool} {mask : BitVec 5} {s u w : State} (hu : setFreezeBit freeze (setMask mask s) = u)
    (hw : running elapsed freeze mask s = w) : w.csi = u.csi ∧ w.store = u.store ∧ w.rtu = s.rtu.advance elapsed ∧ w.xpe = s.xpe ∧ w.tly = s.tly ∧
      w.pnc = s.pnc ∧ w.control = { s.control with run := true, freeze := freeze, mask := mask } ∧ u.csi.copy = s.csi.copy ∧ u.csi.posts = s.csi.posts := by
  have hcontrol := Registers.beforeRun_control elapsed freeze mask s
  have hx : u.xpe = s.xpe ∧ u.tly = s.tly ∧ u.pnc = s.pnc ∧ u.csi.copy = s.csi.copy ∧ u.csi.posts = s.csi.posts := by
    rw [← hu]
    simp
  obtain ⟨uxpe, utly, upnc, ucopy, uposts⟩ := hx
  rw [← hw, running, hcontrol, Registers.beforeRun_eq, hu]
  exact ⟨rfl, rfl, rfl, uxpe, utly, upnc, rfl, ucopy, uposts⟩

/-- Equal stores take the same reports. -/
theorem eq_runsAlike (c : AnchorCopy) : RunsAlike c (fun m m' => m' = m) where
  index h := by rw [h]
  record _ _ _ _ h := by rw [h]
  write _ h := by rw [h]
  count _ h := by rw [h]

theorem toldJoining_twin {c : AnchorCopy} {posts : List Posted} (old : Fin 24 → Panel) (f : FrameIndex) (l : Label) (ps : List (Fin 24)) {s t : State}
    (h : Twin c (fun m m' => m' = m) posts s t) :
    Twin c (fun m m' => m' = m) posts (ps.foldl (toldJoining old f l) s) (ps.foldl (toldJoining old f l) t) := by
  induction ps generalizing s t with
  | nil => exact h
  | cons p ps ih =>
    refine ih ?_
    unfold toldJoining
    split
    · exact report_twin (eq_runsAlike c) h _ f l
    · exact h

theorem twin_of_journal {c : AnchorCopy} {posts : List Posted} {s t u : State} (h : Twin c (fun m m' => m' = m) posts s t) (hu : journal u = journal t) :
    Twin c (fun m m' => m' = m) posts s u := by
  obtain ⟨hcsi, hstore⟩ := journal_eq hu
  exact ⟨h.copy, hcsi.trans h.csi, hstore.trans h.store⟩

/-- The reports of a start, made from the FREEZE write's state with the new copy. -/
def startReports (r : Rate) (s taken : State) : State :=
  let label := if r = s.rtu.rate then s.rtu.label else rewritten r s.rtu.label
  let changed := if r ≠ s.rtu.rate ∧ s.rtu.ref ≠ .free then report (.ref .free) s.rtu.frame label taken else taken
  (List.finRange 24).foldl (toldJoining s.panel s.rtu.frame label) changed

/-- The start actions make just these reports. -/
theorem startActions_told {r : Rate} {c : AnchorCopy} {s u w : State} {elapsed : Nat} (hcsi : w.csi = u.csi) (hstore : w.store = u.store)
    (hrtu : w.rtu = s.rtu.advance elapsed) (hpnc : w.pnc = s.pnc) :
    let x := rated r (takeCopy c w)
    Twin c (fun m m' => m' = m) (takeCopy c w).csi.posts (startReports r s { u with csi := { u.csi with copy := some c } })
      ((List.finRange 24).foldl (toldJoining x.panel x.rtu.frame x.rtu.label) x) := by
  intro x
  obtain ⟨xrtu, xtold, xpnc, -⟩ := rated_leaves r (takeCopy c w)
  change x.rtu = _ at xrtu
  change journal x = _ at xtold
  change x.pnc = _ at xpnc
  generalize x = x at *
  have hpanel : x.panel = s.panel := funext (panel_of_pnc (xpnc.trans hpnc))
  have hwrtu : (takeCopy c w).rtu = s.rtu.advance elapsed := hrtu
  rw [hwrtu] at xrtu xtold
  have hframe : x.rtu.frame = s.rtu.frame := by
    rw [xrtu]
    split <;> rfl
  have hlabel : x.rtu.label = if r = s.rtu.rate then s.rtu.label else rewritten r s.rtu.label := by
    rw [xrtu]
    by_cases h : r = s.rtu.rate
    · rw [if_pos (by exact h), if_pos h]
      rfl
    · rw [if_neg (by exact h), if_neg h]
      rfl
  have htaken : Twin c (fun m m' => m' = m) (takeCopy c w).csi.posts { u with csi := { u.csi with copy := some c } } (takeCopy c w) :=
    ⟨rfl, by rw [takeCopy, hcsi], hstore⟩
  unfold startReports
  rw [hpanel, hframe, hlabel]
  refine toldJoining_twin _ _ _ _ (twin_of_journal (t := if r ≠ s.rtu.rate ∧ s.rtu.ref ≠ .free
    then report (.ref .free) s.rtu.frame (rewritten r s.rtu.label) (takeCopy c w) else takeCopy c w) ?_ xtold)
  by_cases h : r ≠ s.rtu.rate ∧ s.rtu.ref ≠ .free
  · rw [if_pos h, if_pos h, if_neg h.1]
    exact report_twin (eq_runsAlike c) htaken _ _ _
  · rw [if_neg h, if_neg h]
    exact htaken

theorem copyMoved_iff (o c : AnchorCopy) : copyMoved (some o) c = true ↔ o.address ≠ c.address ∨ o.orders ≠ c.orders ∨ o.reports ≠ c.reports := by
  simp [copyMoved, or_assoc]

/-- The start actions of a state `w` whose time has gone on, in the terms of the state `s` before START and the FREEZE write's state `u`. -/
structure Entered (r : Rate) (c : AnchorCopy) (elapsed : Nat) (s u v : State) : Prop where
  runState : v.runState = .sweep
  copy     : v.csi.copy = some c
  posts    : v.csi.posts = if copyMoved s.csi.copy c then [] else s.csi.posts
  panels   : ∀ p, standing v p = restood (s.panel p)
  xpe      : v.xpe = { s.xpe with sweep := if s.xpe.link = .up then some (0, .v) else s.xpe.sweep }
  xpts     : ∀ a b : Fin 32, { key := .xpt a b, value := .coeff v.tke.target[a][b] } ∈ v.tke.queue
  feeds    : ∀ i : Fin 8, { key := .feed i, value := .feed v.tke.feeds[i] } ∈ v.tke.queue
  rtu      : v.rtu = if r = s.rtu.rate then s.rtu.advance elapsed else retimed r (s.rtu.advance elapsed)
  tly      : v.tly = s.tly
  mirror   : v.csi.mirror = { u.csi.mirror with complete := true }
  told     : let made := startReports r s { u with csi := { u.csi with copy := some c } }
    v.store = made.store ∧ v.csi.writeIndex = made.csi.writeIndex ∧ v.csi.gap = made.csi.gap ∧ v.csi.saturated = made.csi.saturated ∧
    v.csi.notice = made.csi.notice

theorem startActions_entered {r : Rate} {c : AnchorCopy} {elapsed : Nat} {s u w : State} (hcsi : w.csi = u.csi) (hstore : w.store = u.store)
    (hrtu : w.rtu = s.rtu.advance elapsed) (hxpe : w.xpe = s.xpe) (htly : w.tly = s.tly) (hpnc : w.pnc = s.pnc)
    (hcopy : u.csi.copy = s.csi.copy) (hposts : u.csi.posts = s.csi.posts) : Entered r c elapsed s u (startActions r c w) := by
  have htold := startActions_told (r := r) (c := c) hcsi hstore hrtu hpnc
  have hstarted := startActions_started r c w
  have hrun := Registers.startActions_runState r c w
  obtain ⟨xrtu, -, xpnc, xxpe⟩ := rated_leaves r (takeCopy c w)
  have hx : (rated r (takeCopy c w)).tly = w.tly ∧ (rated r (takeCopy c w)).csi.mirror = w.csi.mirror ∧
      (rated r (takeCopy c w)).csi.copy = some c ∧ (rated r (takeCopy c w)).csi.posts = (takeCopy c w).csi.posts := by
    unfold rated
    split
    · exact ⟨rfl, rfl, rfl, rfl⟩
    · simp [takeCopy]
  dsimp only at htold
  generalize rated r (takeCopy c w) = x at *
  generalize startActions r c w = v at *
  obtain ⟨xtly, xmirror, xcopy, xposts⟩ := hx
  obtain ⟨hpanels, hsxpe, hxpts, hfeeds, hsrtu, hstly, -, y, hy, hycsi, hystore, hymirror, hycopy, hyposts⟩ := hstarted
  have hwrtu : (takeCopy c w).rtu = s.rtu.advance elapsed := hrtu
  have hwxpe : (takeCopy c w).xpe = s.xpe := hxpe
  have hwposts : (takeCopy c w).csi.posts = if copyMoved s.csi.copy c then [] else s.csi.posts := by rw [takeCopy, hcsi, hcopy, hposts]
  rw [hwrtu] at xrtu
  rw [hwxpe] at xxpe
  have hpanel : x.panel = s.panel := funext (panel_of_pnc (xpnc.trans hpnc))
  obtain ⟨-, tcsi, tstore⟩ := twin_of_journal htold hy
  refine ⟨hrun, by rw [hycsi]; exact hycopy.trans xcopy, by rw [hycsi]; exact (hyposts.trans xposts).trans hwposts, fun p => by rw [hpanels, hpanel],
    by rw [hsxpe, xxpe], hxpts, hfeeds, hsrtu.trans xrtu, (hstly.trans xtly).trans htly, by rw [hycsi, hymirror, xmirror, hcsi], ?_⟩
  rw [hycsi, hystore, tcsi]
  exact ⟨tstore, rfl, rfl, rfl, rfl⟩

theorem overdueBoundary_standing (r old : Rate) (gpi : BitVec 16) (v : State) (p : Fin 24) : standing (overdueBoundary r old gpi v) p = standing v p := by
  unfold overdueBoundary
  split
  · exact (makeBoundary_standing gpi p _).trans rfl
  · rfl

/-- Settles O30: the start actions on the state that the RUN bit finds, and the boundary that is overdue at the new rate. -/
theorem startEntersSweep : Obligations.StartEntersSweep := by
  intro pre elapsed gpi freeze mask s r hpre hs hrun b overdue rewritten' hsound hrate
  refine ⟨_, Registers.freezeWrite_next hpre freeze mask s, _, start_sound hpre elapsed gpi freeze mask hs hrun hsound hrate, ?_⟩
  generalize hu : setFreezeBit freeze (setMask mask (s.withWrites pre)) = u
  generalize hw : running elapsed freeze mask (s.withWrites pre) = w
  obtain ⟨wcsi, wstore, wrtu, wxpe, wtly, wpnc, wcontrol, ucopy, uposts⟩ := running_leaves hu hw
  generalize hc : (anchorBlockAt (hostWrite s.store pre) s.csi.anchor.toNat).copy s.csi.anchor.toNat = c
  have he : Entered r c elapsed s u (startActions r c w) := startActions_entered wcsi wstore wrtu wxpe wtly wpnc ucopy uposts
  have hcontrol : (startActions r c w).control = { s.control with run := true, freeze := freeze, mask := mask } :=
    (startActions_frame r c w).1.trans wcontrol
  generalize startActions r c w = v at he hcontrol
  have hcount : v.rtu.count = s.rtu.count + elapsed := by
    rw [he.rtu]
    split <;> rfl
  have hover : overdueBoundary r s.rtu.rate gpi v = if overdue then makeBoundary gpi (restartCount v) else v := by
    unfold overdueBoundary
    rw [hcount]
  obtain ⟨tcontrol, trun, -, -, tcopy, tposts⟩ := overdueBoundary_frame r s.rtu.rate gpi v
  have tstanding := overdueBoundary_standing r s.rtu.rate gpi v
  have hlate : overdue → Overdue gpi v (overdueBoundary r s.rtu.rate gpi v) := fun ho => by
    rw [hover, if_pos ho]
    exact overdue_boundary gpi he.runState
  have hsoon : ¬ overdue → overdueBoundary r s.rtu.rate gpi v = v := fun ho => by rw [hover, if_neg ho]
  generalize overdueBoundary r s.rtu.rate gpi v = t at *
  have hposts : t.csi.posts = if copyMoved s.csi.copy c then [] else s.csi.posts := tposts.trans he.posts
  have hfields : c.address = s.csi.anchor.toNat ∧ c.orders = b.orders ∧ c.reports = b.reports := by
    rw [← hc]
    exact ⟨rfl, rfl, rfl⟩
  obtain ⟨caddress, corders, creports⟩ := hfields
  have hpanels : ∀ p, standing t p = restood (s.panel p) := fun p => (tstanding p).trans (he.panels p)
  refine ⟨trun.trans he.runState, tcontrol.trans hcontrol, tcopy.trans (he.copy.trans (congrArg some hc.symm)), fun o ho h1 h2 h3 => ?_, fun ho => ?_,
    fun o ho h => ?_, fun p hen hst => ?_, fun p h => ?_, fun ho => ?_, fun hr => ?_, fun hr => ?_, ?_⟩
  · rw [hposts, ho, if_neg]
    rw [copyMoved_iff, caddress, corders, creports]
    exact fun hm => hm.elim (· h1) fun hm => hm.elim (· h2) (· h3)
  · rw [hposts, ho]
    rfl
  · rw [hposts, ho, if_pos ((copyMoved_iff o c).mpr (by rw [caddress, corders, creports]; exact h))]
  · have hp := (hpanels p).trans (if_pos ((rejoins_iff _).mpr ⟨hen, hst⟩))
    simpa only [standing, Prod.mk.injEq] using hp
  · refine congrArg Prod.fst ((hpanels p).trans (if_neg fun hc => ?_))
    obtain ⟨hen, hst⟩ := (rejoins_iff _).mp hc
    rcases h with h | h | h
    · exact Bool.false_ne_true (h.symm.trans hen)
    · rw [h] at hst
      exact absurd hst (by decide)
    · rw [h] at hst
      exact absurd hst (by decide)
  · rw [hsoon ho]
    exact ⟨he.xpe, he.tly, he.xpts, he.feeds, he.mirror⟩
  · rw [hsoon fun ho => ho.1 hr, he.rtu, if_pos hr]
    rfl
  · have hrtu : v.rtu = retimed r (s.rtu.advance elapsed) := he.rtu.trans (if_neg hr)
    by_cases ho : overdue
    · have hl := hlate ho
      obtain ⟨hrate', href, hexpected, hgood, hmissing, hnow⟩ := hl.clock
      refine ⟨by rw [hrate', hrtu]; rfl, by rw [href, hrtu]; rfl, by rw [hexpected, hrtu]; rfl, by rw [hgood, hrtu]; rfl,
        by rw [hmissing, hrtu]; rfl, by rw [hnow, hrtu]; rfl, ?_, fun hn => absurd ho hn, fun _ => ⟨hl.count, ?_, hl.jam, ?_, ?_, fun hlink => ?_⟩⟩
      · rw [hl.cues, hrtu]; rfl
      · rw [hl.frame, hrtu]; rfl
      · rw [hl.label, hrtu]; rfl
      · rw [hl.inputs, hrtu]; rfl
      · obtain ⟨hsweep, hwait⟩ := hl.fabric (by rw [he.xpe]; exact hlink)
        rw [hsweep, hwait, he.xpe, if_pos hlink, hrtu]
        exact ⟨rfl, rfl⟩
    · rw [hsoon ho, hrtu]
      exact ⟨rfl, rfl, rfl, rfl, rfl, rfl, rfl, fun _ => ⟨rfl, rfl, rfl, rfl⟩, fun hn => absurd hn ho⟩
  · intro label taken changed made
    refine ⟨v, hover, ?_⟩
    have htaken : taken = { u with csi := { u.csi with copy := some c } } := by
      simp only [taken, tcopy, he.copy]
    have hmade : made = startReports r s { u with csi := { u.csi with copy := some c } } := by
      rw [← htaken]
      rfl
    rw [hmade]
    exact he.told

end Sys2Proof.Proofs.Starts
end

