-- ==== Sys2Proof/Proofs/Resolutions.lean ====
section
/-! The tally resolution and what it tells (O59). -/

namespace Sys2Proof.Proofs.Resolutions

open Sys2Proof Sys2Proof.Machine
open Sys2Proof.Proofs.Journal (journal journal_eq journal_of report_journal)
open Sys2Proof.Proofs.Links (writeResolution_xpe writeFlags_get)

/-! ### What is found -/

/-- A colour found, or a destination marked for DEPTH or for LOOP. -/
inductive Mark where
  | colour (i : Fin 3)
  | depth (d : Fin 64)
  | loop (d : Fin 64)

/-- A mark is among what was found. -/
def has (f : Found) : Mark → Bool
  | .colour i => f.colours.getLsbD i.1
  | .depth d => hasDest f.depth d
  | .loop d => hasDest f.loop d

theorem union_has (f g : Found) (m : Mark) : has (f.union g) m = (has f m || has g m) := by
  cases m <;> simp [has, Found.union, hasDest]

theorem nothing_has (m : Mark) : has Found.nothing m = false := by
  cases m <;> simp [has, Found.nothing, hasDest]

/-- A mark is found in a union just when it is found in one of its parts. -/
theorem unionAll_has (fs : List Found) (m : Mark) : has (unionAll fs) m = true ↔ ∃ f ∈ fs, has f m = true := by
  have hrun : ∀ (fs : List Found) (a : Found), has (fs.foldl Found.union a) m = true ↔ has a m = true ∨ ∃ f ∈ fs, has f m = true := by
    intro fs
    induction fs with
    | nil => simp
    | cons f fs ih =>
      intro a
      rw [List.foldl_cons, ih, union_has]
      simp [or_assoc]
  rw [unionAll, hrun, nothing_has]
  simp

theorem destBit_has (d e : Fin 64) : hasDest (destBit d) e = decide (e = d) := by
  simp [hasDest, destBit, e.2, Fin.ext_iff]

theorem empty_has (d : Fin 64) : hasDest 0#64 d = false := by simp [hasDest]

/-! ### The carriers -/

section
variable (s : State) (gpi : BitVec 16)

/-- A destination that leads on from the source that it carries. -/
def reenters (d : Fin 64) : Prop := (s.dest d).kind = .reentry ∧ (s.dest d).reentry ≠ none

theorem carried_iff (d : Fin 64) (x : Fin 128) : (s.dest d).carried = some x ↔ s.carriesSource d x := by
  unfold Destination.carried State.carriesSource MapEntry.gives hasLevel Level.num
  cases (s.dest d).present.getLsbD 0 with
  | false => simp
  | true =>
    by_cases hu : (s.dest d).entryV.state = .unknown
    · simp [hu]
    · cases hx : (s.dest d).entryV.source with
      | park => simp [hu]
      | input n => simp [hu]

theorem mem_carriers (c : Carrier) : c ∈ carriers gpi s.xpe.dests ↔ s.carriesSource c.dest c.source ∧ c.seed = (s.dest c.dest).seed gpi ∧
    c.reentry = if (s.dest c.dest).kind = .reentry then (s.dest c.dest).reentry else none := by
  have hcarrier : c ∈ carriers gpi s.xpe.dests ↔ ∃ d, carrierOf gpi d (s.dest d) = some c := by
    simp only [carriers, List.mem_filterMap, List.mem_finRange, true_and, State.dest]
  rw [hcarrier, ← carried_iff]
  constructor
  · rintro ⟨d, h⟩
    obtain ⟨x, hx, rfl⟩ := Option.map_eq_some_iff.mp h
    exact ⟨hx, rfl, rfl⟩
  · rintro ⟨hcarried, hseed, hreentry⟩
    refine ⟨c.dest, Option.map_eq_some_iff.mpr ⟨c.source, hcarried, ?_⟩⟩
    rw [← hseed, ← hreentry]

theorem gpiLit_iff (g : Option (Fin 16)) : gpiLit gpi g = true ↔ ∃ i : Fin 16, g = some i ∧ gpi.getLsbD i.1 = true := by
  cases g <;> simp [gpiLit, asserted]

/-- The bits of a seed are the colours that the destination's kind and contacts seed. -/
theorem seed_iff (d : Fin 64) (i : Fin 3) : ((s.dest d).seed gpi).getLsbD i.1 = true ↔ s.seeds gpi d i := by
  unfold State.seeds
  rw [← gpiLit_iff, ← gpiLit_iff]
  unfold Destination.seed
  cases (s.dest d).kind <;> cases gpiLit gpi (s.dest d).redGpi <;> cases gpiLit gpi (s.dest d).greenGpi <;> revert i <;> decide

/-! ### Following a chain -/

/-- How a chain that has visited some destinations, with so many hops left, ends at a source with a mark found. -/
def ends (visited : List (Fin 64)) (left : Nat) (y : Fin 128) : Mark → Prop
  | .colour i => ∃ e, s.carriesSource e y ∧ s.seeds gpi e i
  | .depth d => left = 0 ∧ d ∉ visited ∧ s.carriesSource d y ∧ reenters s d
  | .loop d => d ∈ visited ∧ s.carriesSource d y ∧ reenters s d

/-- What a carrier's re-entry source finds at the next hop. -/
def onward (cs : List Carrier) (visited : List (Fin 64)) (c : Carrier) : Nat → Option (Fin 128 → Found)
  | 0 => none
  | n + 1 => some (follow cs n (visited ++ [c.dest]))

theorem follow_has_iff (cs : List Carrier) (n : Nat) (visited : List (Fin 64)) (x : Fin 128) (m : Mark) :
    has (follow cs n visited x) m = true ↔ ∃ c ∈ cs, c.source = x ∧ has (contribution (onward cs visited c n) visited c) m = true := by
  cases n <;> simp [follow, unionAll_has, onward, and_assoc]

/-- What one carrier contributes: its seed, a LOOP, a DEPTH, or what its re-entry source finds. -/
theorem contribution_has (next : Option (Fin 128 → Found)) (visited : List (Fin 64)) (c : Carrier) (m : Mark) :
    has (contribution next visited c) m = true ↔ (c.reentry = none ∧ ∃ i, m = .colour i ∧ c.seed.getLsbD i.1 = true) ∨
      ∃ z, c.reentry = some z ∧ ((c.dest ∈ visited ∧ m = .loop c.dest) ∨ (c.dest ∉ visited ∧ next = none ∧ m = .depth c.dest) ∨
        (c.dest ∉ visited ∧ ∃ f, next = some f ∧ has (f z) m = true)) := by
  unfold contribution
  cases c.reentry with
  | none => cases m <;> simp [has, hasDest]
  | some z =>
    by_cases hv : c.dest ∈ visited
    · cases m <;> simp [has, hv, destBit_has, empty_has]
    · cases next with
      | none => cases m <;> simp [has, hv, destBit_has, empty_has]
      | some f => simp [hv]

/-- The carrier as which the resolution reads a destination that carries a source. -/
def carrier (d : Fin 64) (x : Fin 128) : Carrier :=
  { dest := d, source := x, seed := (s.dest d).seed gpi, reentry := if (s.dest d).kind = .reentry then (s.dest d).reentry else none }

theorem carrier_mem {d : Fin 64} {x : Fin 128} (h : s.carriesSource d x) : carrier s gpi d x ∈ carriers gpi s.xpe.dests :=
  (mem_carriers s gpi _).mpr ⟨h, rfl, rfl⟩

/-- Every carrier is a destination's. -/
theorem exists_carrier (x : Fin 128) (P : Carrier → Prop) :
    (∃ c ∈ carriers gpi s.xpe.dests, c.source = x ∧ P c) ↔ ∃ d, s.carriesSource d x ∧ P (carrier s gpi d x) := by
  constructor
  · rintro ⟨c, hc, rfl, hP⟩
    obtain ⟨hcarries, hseed, hreentry⟩ := (mem_carriers s gpi c).mp hc
    refine ⟨c.dest, hcarries, ?_⟩
    have hsame : carrier s gpi c.dest c.source = c := by rw [carrier, ← hseed, ← hreentry]
    rwa [hsame]
  · rintro ⟨d, hcarries, hP⟩
    exact ⟨_, carrier_mem s gpi hcarries, rfl, hP⟩

theorem carrier_reentry (d : Fin 64) (x : Fin 128) (z : Fin 128) :
    (carrier s gpi d x).reentry = some z ↔ (s.dest d).kind = .reentry ∧ (s.dest d).reentry = some z := by
  unfold carrier
  split <;> simp_all

theorem carrier_seeds (d : Fin 64) (x : Fin 128) (i : Fin 3) :
    ((carrier s gpi d x).reentry = none ∧ (carrier s gpi d x).seed.getLsbD i.1 = true) ↔ s.seeds gpi d i := by
  change _ ∧ ((s.dest d).seed gpi).getLsbD i.1 = true ↔ _
  rw [seed_iff]
  refine ⟨fun h => h.2, fun h => ⟨if_neg fun hk => ?_, h⟩⟩
  unfold State.seeds at h
  rw [hk] at h
  simp at h

/-- One hop. -/
theorem follow_step (n : Nat) (visited : List (Fin 64)) (x : Fin 128) (m : Mark) :
    has (follow (carriers gpi s.xpe.dests) n visited x) m = true ↔ ends s gpi visited n x m ∨ ∃ d z k, n = k + 1 ∧ s.carriesSource d x ∧
      (s.dest d).kind = .reentry ∧ (s.dest d).reentry = some z ∧ d ∉ visited ∧
      has (follow (carriers gpi s.xpe.dests) k (visited ++ [d]) z) m = true := by
  rw [follow_has_iff, exists_carrier]
  constructor
  · rintro ⟨d, hcarries, h⟩
    rcases (contribution_has _ _ _ _).mp h with ⟨hnone, i, rfl, hseed⟩ | ⟨z, hz, h⟩
    · exact .inl ⟨d, hcarries, (carrier_seeds s gpi d x i).mp ⟨hnone, hseed⟩⟩
    · obtain ⟨hkind, hreentry⟩ := (carrier_reentry s gpi d x z).mp hz
      have hre : reenters s d := ⟨hkind, by rw [hreentry]; exact Option.some_ne_none z⟩
      rcases h with ⟨hv, rfl⟩ | ⟨hv, hnext, rfl⟩ | ⟨hv, f, hf, hfound⟩
      · exact .inl ⟨hv, hcarries, hre⟩
      · cases n with
        | zero => exact .inl ⟨rfl, hv, hcarries, hre⟩
        | succ k => exact absurd hnext (Option.some_ne_none _)
      · cases n with
        | zero => exact absurd hf.symm (Option.some_ne_none _)
        | succ k =>
          obtain rfl := Option.some.inj hf
          exact .inr ⟨d, z, k, rfl, hcarries, hkind, hreentry, hv, hfound⟩
  · rintro (h | ⟨d, z, k, rfl, hcarries, hkind, hreentry, hv, hfound⟩)
    · cases m with
      | colour i =>
        obtain ⟨e, hcarries, hseeds⟩ := h
        obtain ⟨hnone, hseed⟩ := (carrier_seeds s gpi e x i).mpr hseeds
        exact ⟨e, hcarries, (contribution_has _ _ _ _).mpr (.inl ⟨hnone, i, rfl, hseed⟩)⟩
      | depth d =>
        obtain ⟨rfl, hv, hcarries, hkind, hsome⟩ := h
        obtain ⟨z, hz⟩ := Option.ne_none_iff_exists'.mp hsome
        exact ⟨d, hcarries, (contribution_has _ _ _ _).mpr (.inr ⟨z, (carrier_reentry s gpi d x z).mpr ⟨hkind, hz⟩, .inr (.inl ⟨hv, rfl, rfl⟩)⟩)⟩
      | loop d =>
        obtain ⟨hv, hcarries, hkind, hsome⟩ := h
        obtain ⟨z, hz⟩ := Option.ne_none_iff_exists'.mp hsome
        exact ⟨d, hcarries, (contribution_has _ _ _ _).mpr (.inr ⟨z, (carrier_reentry s gpi d x z).mpr ⟨hkind, hz⟩, .inl ⟨hv, rfl⟩⟩)⟩
    · exact ⟨d, hcarries, (contribution_has _ _ _ _).mpr (.inr ⟨z, (carrier_reentry s gpi d x z).mpr ⟨hkind, hreentry⟩,
        .inr (.inr ⟨hv, _, rfl, hfound⟩)⟩)⟩

/-- What is found at a source is what the chains of re-entries from it end at. -/
theorem follow_iff : ∀ (n : Nat) (visited : List (Fin 64)) (x : Fin 128) (m : Mark),
    has (follow (carriers gpi s.xpe.dests) n visited x) m = true ↔ ∃ (chain : List (Fin 64)) (y : Fin 128) (left : Nat), chain.length + left = n ∧
      chain.Nodup ∧ (∀ d ∈ chain, d ∉ visited) ∧ s.reentryChain chain x y ∧ ends s gpi (visited ++ chain) left y m := by
  intro n
  induction n with
  | zero =>
    intro visited x m
    rw [follow_step]
    constructor
    · rintro (h | ⟨_, _, k, hk, _⟩)
      · exact ⟨[], x, 0, rfl, List.nodup_nil, nofun, rfl, by rwa [List.append_nil]⟩
      · exact absurd hk (Nat.succ_ne_zero k).symm
    · rintro ⟨chain, y, left, hlen, -, -, hchain, hends⟩
      obtain ⟨hnil, rfl⟩ := Nat.add_eq_zero_iff.mp hlen
      obtain rfl := List.length_eq_zero_iff.mp hnil
      obtain rfl : x = y := hchain
      rw [List.append_nil] at hends
      exact .inl hends
  | succ n ih =>
    intro visited x m
    rw [follow_step]
    constructor
    · rintro (h | ⟨d, z, k, hk, hcarries, hkind, hreentry, hv, hfound⟩)
      · exact ⟨[], x, n + 1, Nat.zero_add _, List.nodup_nil, nofun, rfl, by rwa [List.append_nil]⟩
      · obtain rfl := Nat.succ.inj hk
        obtain ⟨chain, y, left, hlen, hnodup, hfresh, hchain, hends⟩ := (ih _ _ _).mp hfound
        refine ⟨d :: chain, y, left, by rw [List.length_cons]; omega, List.nodup_cons.mpr ⟨fun hd => hfresh d hd (by simp), hnodup⟩, fun e he => ?_,
          ⟨hcarries, hkind, z, hreentry, hchain⟩, by rwa [List.append_cons]⟩
        rcases List.mem_cons.mp he with rfl | he
        · exact hv
        · exact fun hm => hfresh e he (List.mem_append_left _ hm)
    · rintro ⟨chain, y, left, hlen, hnodup, hfresh, hchain, hends⟩
      cases chain with
      | nil =>
        obtain rfl : x = y := hchain
        rw [List.length_nil, Nat.zero_add] at hlen
        rw [hlen, List.append_nil] at hends
        exact .inl hends
      | cons d chain =>
        obtain ⟨hcarries, hkind, z, hreentry, hchain⟩ := hchain
        obtain ⟨hd, hnodup⟩ := List.nodup_cons.mp hnodup
        refine .inr ⟨d, z, n, rfl, hcarries, hkind, hreentry, hfresh d List.mem_cons_self, (ih _ _ _).mpr ⟨chain, y, left, ?_, hnodup, fun e he => ?_,
          hchain, by rwa [List.append_cons] at hends⟩⟩
        · rw [List.length_cons] at hlen
          omega
        · rw [List.mem_append, List.mem_singleton]
          rintro (hm | rfl)
          · exact hfresh e (List.mem_cons_of_mem _ he) hm
          · exact hd he

/-- What the resolution finds for a source, hop 0 with the empty chain and hop 4 the last. -/
theorem findSource_iff (x : Fin 128) (m : Mark) : has (findSource (carriers gpi s.xpe.dests) x) m = true ↔
    ∃ (chain : List (Fin 64)) (y : Fin 128) (left : Nat), chain.length + left = 4 ∧ chain.Nodup ∧ s.reentryChain chain x y ∧
      ends s gpi chain left y m := by
  rw [findSource, follow_iff]
  simp

theorem findAll_has (m : Mark) : has (unionAll (findAll (carriers gpi s.xpe.dests))) m = true ↔
    ∃ x, has (findSource (carriers gpi s.xpe.dests) x) m = true := by
  rw [unionAll_has, findAll]
  generalize carriers gpi s.xpe.dests = cs
  constructor
  · rintro ⟨f, hf, h⟩
    obtain ⟨x, -, rfl⟩ := List.mem_map.mp hf
    exact ⟨x, h⟩
  · rintro ⟨x, h⟩
    exact ⟨_, List.mem_map.mpr ⟨x, List.mem_finRange x, rfl⟩, h⟩

theorem tallyOf_findAll (cs : List Carrier) (x : Fin 128) : (tallyOf (findAll cs))[x] = (findSource cs x).colours := by
  have hget : ∀ f : Fin 128 → Found, ((List.finRange 128).map f).getD x.1 Found.nothing = f x := fun f => by
    rw [List.getD_eq_getElem?_getD, List.getElem?_map, List.getElem?_eq_getElem (by rw [List.length_finRange]; exact x.2)]
    simp
  exact (tabulate_get _ x).trans (congrArg Found.colours (hget _))

/-- A source has the colours that up to four re-entries lead it to. -/
theorem colour_iff (x : Fin 128) (i : Fin 3) : (tallyOf (findAll (carriers gpi s.xpe.dests)))[x].getLsbD i.1 = true ↔
    ∃ (chain : List (Fin 64)) (y : Fin 128) (e : Fin 64), chain.Nodup ∧ chain.length ≤ 4 ∧ s.reentryChain chain x y ∧ s.carriesSource e y ∧
      s.seeds gpi e i := by
  rw [tallyOf_findAll]
  refine (findSource_iff s gpi x (.colour i)).trans ⟨?_, ?_⟩
  · rintro ⟨chain, y, left, hlen, hnodup, hchain, e, hcarries, hseeds⟩
    exact ⟨chain, y, e, hnodup, by omega, hchain, hcarries, hseeds⟩
  · rintro ⟨chain, y, e, hnodup, hlen, hchain, hcarries, hseeds⟩
    exact ⟨chain, y, 4 - chain.length, by omega, hnodup, hchain, e, hcarries, hseeds⟩

/-- A chain of distinct re-entries that ends at a source which a REENTRY destination carries. -/
def meets (d : Fin 64) (chain : List (Fin 64)) : Prop :=
  chain.Nodup ∧ (∃ x y, s.reentryChain chain x y ∧ s.carriesSource d y) ∧ (s.dest d).kind = .reentry ∧ (s.dest d).reentry ≠ none

theorem depth_iff (d : Fin 64) : hasDest (unionAll (findAll (carriers gpi s.xpe.dests))).depth d = true ↔
    ∃ chain, meets s d chain ∧ chain.length = 4 ∧ d ∉ chain := by
  refine (findAll_has s gpi (.depth d)).trans ⟨?_, ?_⟩
  · rintro ⟨x, h⟩
    obtain ⟨chain, y, left, hlen, hnodup, hchain, rfl, hv, hcarries, hre⟩ := (findSource_iff s gpi x _).mp h
    exact ⟨chain, ⟨hnodup, ⟨x, y, hchain, hcarries⟩, hre⟩, hlen, hv⟩
  · rintro ⟨chain, ⟨hnodup, ⟨x, y, hchain, hcarries⟩, hre⟩, hlen, hv⟩
    exact ⟨x, (findSource_iff s gpi x _).mpr ⟨chain, y, 0, hlen, hnodup, hchain, rfl, hv, hcarries, hre⟩⟩

theorem loop_iff (d : Fin 64) : hasDest (unionAll (findAll (carriers gpi s.xpe.dests))).loop d = true ↔
    ∃ chain, meets s d chain ∧ chain.length ≤ 4 ∧ d ∈ chain := by
  refine (findAll_has s gpi (.loop d)).trans ⟨?_, ?_⟩
  · rintro ⟨x, h⟩
    obtain ⟨chain, y, left, hlen, hnodup, hchain, hv, hcarries, hre⟩ := (findSource_iff s gpi x _).mp h
    exact ⟨chain, ⟨hnodup, ⟨x, y, hchain, hcarries⟩, hre⟩, by omega, hv⟩
  · rintro ⟨chain, ⟨hnodup, ⟨x, y, hchain, hcarries⟩, hre⟩, hlen, hv⟩
    exact ⟨x, (findSource_iff s gpi x _).mpr ⟨chain, y, 4 - chain.length, by omega, hnodup, hchain, hv, hcarries, hre⟩⟩

end

/-! ### Without re-entries -/

section
variable {s : State} (hplain : ∀ d, (s.dest d).kind ≠ .reentry)
include hplain

theorem plain_chain {chain : List (Fin 64)} {x y : Fin 128} (h : s.reentryChain chain x y) : chain = [] ∧ x = y := by
  cases chain with
  | nil => exact ⟨rfl, h⟩
  | cons d chain => exact absurd h.2.1 (hplain d)

theorem plain_colour (gpi : BitVec 16) (x : Fin 128) (i : Fin 3) : (tallyOf (findAll (carriers gpi s.xpe.dests)))[x].getLsbD i.1 = true ↔
    ∃ e, s.carriesSource e x ∧ s.seeds gpi e i := by
  rw [colour_iff]
  constructor
  · rintro ⟨chain, y, e, -, -, hchain, h⟩
    obtain ⟨-, rfl⟩ := plain_chain hplain hchain
    exact ⟨e, h⟩
  · rintro ⟨e, h⟩
    exact ⟨[], x, e, List.nodup_nil, Nat.zero_le _, rfl, h⟩

theorem plain_unmarked (d : Fin 64) (chain : List (Fin 64)) : ¬ meets s d chain := fun h => hplain d h.2.2.1

end

/-! ### The channels -/

theorem lines_triple (tally : Vector ColourSet 128) (snapshot : PortSet) (k : FrameIndex) {c : Channel} (h : c.mode = .triple) :
    (∀ i : Fin 3, (c.lines tally snapshot k).getLsbD i.1 = (c.shown tally).getLsbD i.1) ∧
    ((c.lines tally snapshot k).getLsbD 3 = true ↔ c.calls snapshot k = true) := by
  have hbits : ∀ (v : ColourSet) (b : Bool), (∀ i : Fin 3, (BitVec.ofNat 4 (v.toNat + 8 * bit b)).getLsbD i.1 = v.getLsbD i.1) ∧
      ((BitVec.ofNat 4 (v.toNat + 8 * bit b)).getLsbD 3 = true ↔ b = true) := by decide
  simp only [Channel.lines, h]
  exact hbits _ _

theorem lines_single (tally : Vector ColourSet 128) (snapshot : PortSet) (k : FrameIndex) {c : Channel} (h : c.mode = .single) :
    (c.lines tally snapshot k = 1 ∨ c.lines tally snapshot k = 0) ∧
    (c.lines tally snapshot k = 1 ↔ c.shown tally ≠ 0 ∨ c.calls snapshot k = true) := by
  have hbits : ∀ b : Bool, (BitVec.ofNat 4 (bit b) = 1 ∨ BitVec.ofNat 4 (bit b) = 0) ∧ (BitVec.ofNat 4 (bit b) = 1 ↔ b = true) := by decide
  simp only [Channel.lines, h]
  refine ⟨(hbits _).1, (hbits _).2.trans ?_⟩
  rw [Bool.or_eq_true, decide_eq_true_iff]

theorem calls_iff (snapshot : PortSet) (k : FrameIndex) (c : Channel) :
    c.calls snapshot k = true ↔ ∃ p : Fin 32, c.call = some p ∧ snapshot.getLsbD p.1 = true ∧ k.toNat / 8 % 2 = 0 := by
  unfold Channel.calls
  cases c.call <;> simp [hasPort, flashPhase]

theorem channelOutputs_free {channels : Vector Channel 64} (tally : Vector ColourSet 128) (snapshot : PortSet) (k : FrameIndex) {c : Fin 64}
    (h : channels[c].master = none) : (channelOutputs channels tally snapshot k)[c] = channels[c].lines tally snapshot k := by
  refine (tabulate_get _ c).trans ?_
  rw [h]

theorem channelOutputs_follower {channels : Vector Channel 64} (tally : Vector ColourSet 128) (snapshot : PortSet) (k : FrameIndex) {c m : Fin 64}
    (h : channels[c].master = some m) : (channelOutputs channels tally snapshot k)[c] = channels[m].lines tally snapshot k := by
  refine (tabulate_get _ c).trans ?_
  rw [h]

theorem portImage_get (channels : Vector Channel 64) (outputs : Vector Lines 64) (c : Fin 64) :
    (portImage channels outputs)[c] = if channels[c].polarity = .upright then outputs[c] else ~~~outputs[c] := by
  refine (tabulate_get _ c).trans ?_
  cases channels[c].polarity <;> rfl

/-! ### A resolution -/

/-- What a resolution of frame inputs leaves: the tally table, the flags, the channels and the port. -/
structure Resolved (gpi : BitVec 16) (incoming : PortSet) (frame : FrameIndex) (s t : State) : Prop where
  frames  : t.tly.portFrames = s.tly.portFrames + 1
  tally   : t.tly.tally = tallyOf (findAll (carriers gpi s.xpe.dests))
  depth   : ∀ d : Fin 64, (t.dest d).depth = hasDest (unionAll (findAll (carriers gpi s.xpe.dests))).depth d
  loop    : ∀ d : Fin 64, (t.dest d).loop = hasDest (unionAll (findAll (carriers gpi s.xpe.dests))).loop d
  outputs : t.tly.outputs = channelOutputs s.tly.channels t.tly.tally incoming frame
  image   : t.tly.image = portImage s.tly.channels t.tly.outputs

theorem writeResolution_tly (fs : List Found) (s : State) : (writeResolution fs s).tly =
    { s.tly with tally := tallyOf fs, prevDepth := (unionAll fs).depth, prevLoop := (unionAll fs).loop } := by
  simp only [writeResolution]
  rw [foldl_keeps State.tly _ (fun x d => (reportFlags_frame _ _ _ _ d x).2.2.2.2.1)]

theorem driveLamps_tly (snapshot : PortSet) (k : FrameIndex) (s : State) : (driveLamps snapshot k s).tly = { s.tly with
    outputs := channelOutputs s.tly.channels s.tly.tally snapshot k
    image := portImage s.tly.channels (channelOutputs s.tly.channels s.tly.tally snapshot k)
    portFrames := s.tly.portFrames + 1 } := rfl

theorem resolve_tly (i : FrameInputs) (s : State) :
    (resolve i s).tly = (driveLamps i.snapshot i.frame (writeResolution (findAll (carriers i.sample s.xpe.dests)) s)).tly := by
  rw [resolve, (deriveLamps_frame _).2.2.2.2.1]

theorem resolve_dests (i : FrameInputs) (s : State) (d : Fin 64) : ((resolve i s).dest d) = { s.dest d with
    depth := hasDest (unionAll (findAll (carriers i.sample s.xpe.dests))).depth d
    loop := hasDest (unionAll (findAll (carriers i.sample s.xpe.dests))).loop d } := by
  rw [State.dest, resolve, (deriveLamps_frame _).2.2.2.1, (driveLamps_frame _ _ _).2.2.2.1, writeResolution_xpe, writeFlags_get]
  rfl

theorem resolve_resolved (i : FrameInputs) (s : State) : Resolved i.sample i.snapshot i.frame s (resolve i s) := by
  have htly := resolve_tly i s
  rw [driveLamps_tly, writeResolution_tly] at htly
  refine ⟨by rw [htly], by rw [htly], fun d => by rw [resolve_dests], fun d => by rw [resolve_dests], by rw [htly], by rw [htly]⟩

/-- What the statement says of a resolution. -/
theorem resolved_settles {gpi : BitVec 16} {incoming : PortSet} {frame : FrameIndex} {s t : State} (h : Resolved gpi incoming frame s t) :
    t.tly.portFrames = s.tly.portFrames + 1 ∧
    ((∀ d : Fin 64, (s.dest d).kind ≠ .reentry) →
      let carries := fun (d : Fin 64) (x : Fin 128) => (s.dest d).present.getLsbD 0 = true ∧ (s.dest d).entryV.state ≠ .unknown ∧
        (s.dest d).entryV.source = .input x
      (∀ x : Fin 128,
        (t.tly.tally[x].getLsbD 0 = true ↔ ∃ d : Fin 64, carries d x ∧ ((s.dest d).kind = .onair ∨
          ((s.dest d).kind = .keyed ∧ ∃ i : Fin 16, (s.dest d).redGpi = some i ∧ gpi.getLsbD i.1 = true))) ∧
        (t.tly.tally[x].getLsbD 1 = true ↔ ∃ d : Fin 64, carries d x ∧ ((s.dest d).kind = .preview ∨
          ((s.dest d).kind = .keyed ∧ ∃ i : Fin 16, (s.dest d).greenGpi = some i ∧ gpi.getLsbD i.1 = true))) ∧
        (t.tly.tally[x].getLsbD 2 = true ↔ ∃ d : Fin 64, carries d x ∧ (s.dest d).kind = .iso)) ∧
      ∀ d : Fin 64, (t.dest d).depth = false ∧ (t.dest d).loop = false) ∧
    (∀ (x : Fin 128) (i : Fin 3), t.tly.tally[x].getLsbD i.1 = true ↔ ∃ (chain : List (Fin 64)) (y : Fin 128) (e : Fin 64), chain.Nodup ∧
      chain.length ≤ 4 ∧ s.reentryChain chain x y ∧ s.carriesSource e y ∧ s.seeds gpi e i) ∧
    (∀ d : Fin 64, ((t.dest d).depth = true ↔ ∃ chain, meets s d chain ∧ chain.length = 4 ∧ d ∉ chain) ∧
      ((t.dest d).loop = true ↔ ∃ chain, meets s d chain ∧ chain.length ≤ 4 ∧ d ∈ chain)) := by
  have hdepth : ∀ d, (t.dest d).depth = true ↔ ∃ chain, meets s d chain ∧ chain.length = 4 ∧ d ∉ chain := fun d => by rw [h.depth, depth_iff]
  have hloop : ∀ d, (t.dest d).loop = true ↔ ∃ chain, meets s d chain ∧ chain.length ≤ 4 ∧ d ∈ chain := fun d => by rw [h.loop, loop_iff]
  refine ⟨h.frames, fun hplain => ⟨fun x => ?_, fun d => ⟨?_, ?_⟩⟩, fun x i => by rw [h.tally, colour_iff], fun d => ⟨hdepth d, hloop d⟩⟩
  · have hcolour := plain_colour hplain gpi x
    rw [h.tally]
    refine ⟨(hcolour 0).trans ?_, (hcolour 1).trans ?_, (hcolour 2).trans ?_⟩
    · simp [State.seeds, State.carriesSource]
    · simp [State.seeds, State.carriesSource]
    · simp [State.seeds, State.carriesSource]
  · exact Bool.eq_false_iff.mpr fun hd => ((hdepth d).mp hd).elim fun chain hc => plain_unmarked hplain d chain hc.1
  · exact Bool.eq_false_iff.mpr fun hd => ((hloop d).mp hd).elim fun chain hc => plain_unmarked hplain d chain hc.1

/-- What the statement says of the channels and the port. -/
theorem resolved_drives {gpi : BitVec 16} {incoming : PortSet} {frame : FrameIndex} {s t : State} (h : Resolved gpi incoming frame s t) :
    (∀ c : Fin 64, s.tly.channels[c].master = none →
      let calls := ∃ p : Fin 32, s.tly.channels[c].call = some p ∧ incoming.getLsbD p.1 = true ∧ frame.toNat / 8 % 2 = 0
      (s.tly.channels[c].mode = .triple → (∀ i : Fin 3, t.tly.outputs[c].getLsbD i.1 = (s.tly.channels[c].shown t.tly.tally).getLsbD i.1) ∧
        (t.tly.outputs[c].getLsbD 3 = true ↔ calls)) ∧
      (s.tly.channels[c].mode = .single → (t.tly.outputs[c] = 1 ∨ t.tly.outputs[c] = 0) ∧
        (t.tly.outputs[c] = 1 ↔ s.tly.channels[c].shown t.tly.tally ≠ 0 ∨ calls))) ∧
    (∀ c m : Fin 64, s.tly.channels[c].master = some m → s.tly.channels[m].master = none → t.tly.outputs[c] = t.tly.outputs[m]) ∧
    ∀ c : Fin 64, t.tly.image[c] = if s.tly.channels[c].polarity = .upright then t.tly.outputs[c] else ~~~t.tly.outputs[c] := by
  refine ⟨fun c hc => ⟨fun hm => ?_, fun hm => ?_⟩, fun c m hc hm => ?_, fun c => by rw [h.image, portImage_get]⟩
  · rw [h.outputs, channelOutputs_free _ _ _ hc, ← calls_iff]
    exact lines_triple _ _ _ hm
  · rw [h.outputs, channelOutputs_free _ _ _ hc, ← calls_iff]
    exact lines_single _ _ _ hm
  · rw [h.outputs, channelOutputs_follower _ _ _ hc, channelOutputs_free _ _ _ hm]

/-! ### What a resolution tells -/

/-- The reports of one destination's flags, DEPTH before LOOP. -/
def toldFlags (oldDepth oldLoop : BitVec 64) (depth loop : Fin 64 → Bool) (f : FrameIndex) (l : Label) (v : State) (d : Fin 64) : State :=
  let u := if depth d = oldDepth.getLsbD d.1 then v else report (.flag d false (depth d)) f l v
  if loop d = oldLoop.getLsbD d.1 then u else report (.flag d true (loop d)) f l u

theorem reportFlags_journal {u v : State} (hj : journal u = journal v) (a b c e : BitVec 64) (d : Fin 64) :
    journal (reportFlags a b c e d u) = journal (toldFlags a b (hasDest c) (hasDest e) u.rtu.frame u.rtu.label v d) := by
  have hdepth : journal (if hasDest c d = hasDest a d then u else reportNow (.flag d false (hasDest c d)) u) =
      journal (if hasDest c d = a.getLsbD d.1 then v else report (.flag d false (hasDest c d)) u.rtu.frame u.rtu.label v) := by
    by_cases h : hasDest c d = hasDest a d
    · rw [if_pos h, if_pos (by exact h)]
      exact hj
    · rw [if_neg h, if_neg (by exact h)]
      exact report_journal hj _ _ _
  have hrtu : (if hasDest c d = hasDest a d then u else reportNow (.flag d false (hasDest c d)) u).rtu = u.rtu := by
    split <;> simp
  unfold reportFlags toldFlags
  dsimp only
  generalize (if hasDest c d = hasDest a d then u else reportNow (.flag d false (hasDest c d)) u) = x at hdepth hrtu
  by_cases h : hasDest e d = hasDest b d
  · rw [if_pos h, if_pos (by exact h)]
    exact hdepth
  · rw [if_neg h, if_neg (by exact h), reportNow, hrtu]
    exact report_journal hdepth _ _ _

theorem flags_run (a b c e : BitVec 64) : ∀ (l : List (Fin 64)) (u v : State), journal u = journal v →
    journal (l.foldl (fun x d => reportFlags a b c e d x) u) = journal (l.foldl (toldFlags a b (hasDest c) (hasDest e) u.rtu.frame u.rtu.label) v)
  | [], _, _, h => h
  | d :: l, u, v, h => by
    have hrtu : (reportFlags a b c e d u).rtu = u.rtu := (reportFlags_frame a b c e d u).2.2.1
    have hrun := flags_run a b c e l (reportFlags a b c e d u) _ (reportFlags_journal h a b c e d)
    rwa [hrtu] at hrun

/-- The flags that a resolution changes are reported, destination by destination, and nothing else is. -/
theorem resolve_told (i : FrameInputs) (s : State) : journal (resolve i s) = journal ((List.finRange 64).foldl
    (toldFlags s.tly.prevDepth s.tly.prevLoop (fun d => ((resolve i s).dest d).depth) (fun d => ((resolve i s).dest d).loop) s.rtu.frame s.rtu.label) s) := by
  have hdepth : (fun d => ((resolve i s).dest d).depth) = hasDest (unionAll (findAll (carriers i.sample s.xpe.dests))).depth :=
    funext (resolve_resolved i s).depth
  have hloop : (fun d => ((resolve i s).dest d).loop) = hasDest (unionAll (findAll (carriers i.sample s.xpe.dests))).loop :=
    funext (resolve_resolved i s).loop
  have hwritten : journal (resolve i s) = journal (writeResolution (findAll (carriers i.sample s.xpe.dests)) s) :=
    journal_of (by simp [resolve]) (by simp [resolve])
  rw [hdepth, hloop, hwritten]
  generalize findAll (carriers i.sample s.xpe.dests) = fs
  unfold writeResolution
  dsimp only
  generalize List.finRange 64 = l
  generalize hu : ({ s with
    xpe := { s.xpe with dests := writeFlags (unionAll fs).depth (unionAll fs).loop s.xpe.dests }
    tly := { s.tly with tally := tallyOf fs, prevDepth := (unionAll fs).depth, prevLoop := (unionAll fs).loop } } : State) = u
  have hcsi : u.csi = s.csi := by rw [← hu]
  have hstore : u.store = s.store := by rw [← hu]
  have hrtu : u.rtu = s.rtu := by rw [← hu]
  clear hu
  have hrun := flags_run s.tly.prevDepth s.tly.prevLoop (unionAll fs).depth (unionAll fs).loop l u s (journal_of hcsi hstore)
  rw [hrtu] at hrun
  exact hrun

theorem toldFlags_journal {u v : State} (hj : journal u = journal v) (a b : BitVec 64) (depth loop : Fin 64 → Bool) (f : FrameIndex) (l : Label)
    (d : Fin 64) : journal (toldFlags a b depth loop f l u d) = journal (toldFlags a b depth loop f l v d) := by
  have hdepth : journal (if depth d = a.getLsbD d.1 then u else report (.flag d false (depth d)) f l u) =
      journal (if depth d = a.getLsbD d.1 then v else report (.flag d false (depth d)) f l v) := by
    split
    · exact hj
    · exact report_journal hj _ _ _
  unfold toldFlags
  dsimp only
  split
  · exact hdepth
  · exact report_journal hdepth _ _ _

/-! ### A map declared settled -/

/-- The state in which a settled map's resolution runs. -/
def ready (s : State) : State := deriveLamps (evaluateSelectors s)

theorem ready_leaves (s : State) : (ready s).tly = s.tly ∧ (ready s).xpe = s.xpe ∧ (ready s).csi = s.csi ∧ (ready s).store = s.store ∧ (ready s).rtu = s.rtu := by
  simp [ready]

theorem handOverMap_resolves {k : FrameIndex} {s : State} {i : FrameInputs} (hi : s.tly.inputs = some i) (hk : i.frame = k) :
    handOverMap k s = resolve i (ready s) := by
  obtain ⟨htly, -⟩ := ready_leaves s
  change runResolution k (ready s) = _
  unfold runResolution
  rw [htly, hi]
  exact if_pos hk

theorem resolve_inputs (i : FrameInputs) (s : State) : (resolve i s).tly.inputs = s.tly.inputs := by
  rw [resolve_tly, driveLamps_tly, writeResolution_tly]

theorem declareSettled_resolves {k : FrameIndex} {s : State} {i : FrameInputs} (hi : s.tly.inputs = some i) (hk : i.frame = k) :
    declareSettled k s = onResolution s.rtu.frame s.rtu.label (resolve i (ready s)) := by
  obtain ⟨htly, -, -, -, hrtu⟩ := ready_leaves s
  have hrest : (resolve i (ready s)).rtu = (ready s).rtu := by simp
  rw [declareSettled, handOverMap_resolves hi hk, tellResolution, resolve_inputs, htly, hi, hrest, hrtu]
  exact if_pos hk

/-- A frame without inputs brings no resolution. -/
theorem declareSettled_unresolved {k : FrameIndex} {s : State} (h : s.tly.inputs = none ∨ ∃ i, s.tly.inputs = some i ∧ i.frame ≠ k) :
    declareSettled k s = ready s := by
  obtain ⟨htly, -⟩ := ready_leaves s
  have hrun : handOverMap k s = ready s := by
    change runResolution k (ready s) = _
    unfold runResolution
    rcases h with h | ⟨i, hi, hk⟩
    · rw [htly, h]
    · rw [htly, hi]
      exact if_neg hk
  rw [declareSettled, hrun]
  unfold tellResolution
  rcases h with h | ⟨i, hi, hk⟩
  · rw [htly, h]
  · rw [htly, hi]
    exact if_neg hk

/-- A resolution told to the CSI writes nothing while the mirrors are held or a rewrite is in progress. -/
theorem onResolution_csi (f : FrameIndex) (l : Label) (s : State) : (onResolution f l s).csi.writeIndex = s.csi.writeIndex ∧
    (onResolution f l s).csi.gap = s.csi.gap ∧ (onResolution f l s).csi.saturated = s.csi.saturated ∧ (onResolution f l s).csi.notice = s.csi.notice ∧
    (s.csi.mirror.freeze ≠ .live ∨ s.csi.mirror.writing ≠ none → (onResolution f l s).store = s.store) ∧
    (onResolution f l s).tly = s.tly ∧ (onResolution f l s).xpe = s.xpe := by
  unfold onResolution
  split
  · exact ⟨rfl, rfl, rfl, rfl, fun _ => rfl, rfl, rfl⟩
  · split
    · next hlive =>
      split
      · next hw => exact ⟨rfl, rfl, rfl, rfl, fun h => absurd hw (h.resolve_left fun hn => hn hlive), rfl, rfl⟩
      · exact ⟨rfl, rfl, rfl, rfl, fun _ => rfl, rfl, rfl⟩
    · exact ⟨rfl, rfl, rfl, rfl, fun _ => rfl, rfl, rfl⟩

/-- What a boundary's sample leaves of the TLY. -/
def tallyRest (s : State) : Vector Channel 64 × BitVec 64 × BitVec 64 × Nat := (s.tly.channels, s.tly.prevDepth, s.tly.prevLoop, s.tly.portFrames)

theorem tallyRest_of {s t : State} (h : t.tly = s.tly) : tallyRest t = tallyRest s := by rw [tallyRest, h, tallyRest]

theorem tallyRest_eq {s t : State} (h : tallyRest t = tallyRest s) : t.tly.channels = s.tly.channels ∧ t.tly.prevDepth = s.tly.prevDepth ∧
    t.tly.prevLoop = s.tly.prevLoop ∧ t.tly.portFrames = s.tly.portFrames := by
  simpa only [tallyRest, Prod.mk.injEq] using h

theorem sampleGpi_tallyRest (gpi : BitVec 16) (i : Fin 16) (s : State) : tallyRest (sampleGpi gpi i s) = tallyRest s := by
  simp only [sampleGpi]
  split
  · rfl
  · split
    · rw [tallyRest, (reportNow_frame _ _).2.2.2.2.1]
      rfl
    · rfl

theorem sampleInputs_tallyRest (gpi : BitVec 16) (s : State) : tallyRest (sampleInputs gpi s) = tallyRest s := by
  have hfold : tallyRest ((List.finRange 16).foldl (fun x i => sampleGpi gpi i x) s) = tallyRest s :=
    foldl_keeps tallyRest _ (fun x i => sampleGpi_tallyRest gpi i x) _ s
  simpa only [sampleInputs, tallyRest] using hfold

/-- A boundary with a DOWN fabric link, outside HALTED, declares its frame settled. -/
theorem downBoundary_settles (gpi : BitVec 16) {s : State} (hlink : s.xpe.link = .down) (hrun : s.runState ≠ .halted) :
    ∃ u, scalerBoundary gpi s = declareSettled (s.rtu.frame + 1) u ∧
      u.tly.inputs = some { frame := s.rtu.frame + 1, sample := gpi, snapshot := s.tke.incoming } ∧ u.xpe.dests = s.xpe.dests ∧
      tallyRest u = tallyRest s ∧ u.rtu.frame = s.rtu.frame + 1 := by
  have ho := Boundaries.opened_leaves s
  rw [Boundaries.scalerBoundary_stages]
  generalize Boundaries.opened s = x at ho
  have hrouter := Boundaries.compareCues_router x
  have hclock := FrameTime.compareCues_clock x
  have hframe : (compareCues x).rtu.frame = s.rtu.frame + 1 := (congrArg Rtu.frame hclock :).trans ho.frame
  have htly : (compareCues x).tly = s.tly := by rw [(compareCues_frame x).2.2.1, ho.tly]
  have hincoming : (compareCues x).tke.incoming = s.tke.incoming := by rw [(compareCues_frame x).2.2.2.1, ho.incoming]
  have hstate : (compareCues x).runState = s.runState := by rw [(compareCues_frame x).2.1, ho.runState]
  rw [ho.xpe] at hrouter
  generalize compareCues x = v at *
  have hc := Boundaries.closed_leaves gpi v
  have hrest : tallyRest (Boundaries.closed gpi v) = tallyRest v := by
    rw [tallyRest_of (s := sampleInputs gpi v) (by simp [Boundaries.closed]), sampleInputs_tallyRest]
  generalize Boundaries.closed gpi v = w at *
  have hwxpe := hc.xpe
  rw [hrouter] at hwxpe
  have hwlink : w.xpe.link = .down := by rw [hwxpe]; exact hlink
  have hwrun : ¬ w.runState = .halted := by rw [hc.runState, hstate]; exact hrun
  have hwframe : w.rtu.frame = s.rtu.frame + 1 := by rw [hc.rtu, hframe]
  refine ⟨{ w with xpe := { w.xpe with pingWait := true } }, ?_, ?_, by rw [hwxpe], hrest.trans (tallyRest_of htly), hwframe⟩
  · unfold xpeBoundary
    rw [hwlink]
    dsimp only
    rw [if_neg hwrun, hwframe]
  · rw [hc.inputs, hframe, hincoming]

/-- Settles O59: the chains that the resolution follows are the statement's, and its flags are told before the mirrors. -/
theorem downBoundaryResolvesTallies : Obligations.DownBoundaryResolvesTallies := by
  unfold Obligations.DownBoundaryResolvesTallies
  intro settles
  have hsettles : ∀ {gpi incoming frame s t}, Resolved gpi incoming frame s t → settles gpi incoming frame s t := by
    intro gpi incoming frame s t h
    obtain ⟨hframes, hplain, hcolours, hflags⟩ := resolved_settles h
    obtain ⟨hfree, hfollow, himage⟩ := resolved_drives h
    have hshown : ∀ c : Fin 64, s.tly.channels[c].shown t.tly.tally = (match s.tly.channels[c].force, s.tly.channels[c].source with
        | some f, _ => f
        | none, none => 0
        | none, some x => t.tly.tally[x] &&& s.tly.channels[c].mask) := by
      intro c
      unfold Channel.shown
      cases s.tly.channels[c].force <;> cases s.tly.channels[c].source <;> rfl
    refine ⟨hframes, hplain, hcolours, hflags, fun c hc => ?_, hfollow, himage⟩
    have hthis := hfree c hc
    rw [hshown c] at hthis
    exact hthis
  have hdeclared : ∀ {k s i}, s.tly.inputs = some i → i.frame = k → Resolved i.sample i.snapshot k s (declareSettled k s) := by
    intro k s i hi hk
    obtain ⟨htly, hxpe, -⟩ := ready_leaves s
    have hr := resolve_resolved i (ready s)
    obtain ⟨-, -, -, -, -, ttly, txpe⟩ := onResolution_csi s.rtu.frame s.rtu.label (resolve i (ready s))
    rw [declareSettled_resolves hi hk]
    generalize onResolution s.rtu.frame s.rtu.label (resolve i (ready s)) = t at ttly txpe
    generalize resolve i (ready s) = v at *
    obtain ⟨hframes, htally, hdepth, hloop, houtputs, himage⟩ := hr
    have hdest : ∀ d, t.dest d = v.dest d := fun d => by rw [State.dest, txpe, State.dest]
    rw [htly] at hframes houtputs himage
    rw [hxpe] at htally hdepth hloop
    rw [hk] at houtputs
    exact ⟨by rw [ttly, hframes], by rw [ttly, htally], fun d => by rw [hdest, hdepth], fun d => by rw [hdest, hloop], by rw [ttly, houtputs],
      by rw [ttly, himage]⟩
  refine ⟨fun k s i hi hk => ?_, fun k s h => ?_, fun gpi s hlink hrun => ?_⟩
  · intro t
    have hres : Resolved i.sample i.snapshot k s t := hdeclared hi hk
    refine ⟨hsettles hres, ?_⟩
    intro told
    obtain ⟨htly, hxpe, hcsi, hstore, hrtu⟩ := ready_leaves s
    have ht : t = onResolution s.rtu.frame s.rtu.label (resolve i (ready s)) := declareSettled_resolves hi hk
    obtain ⟨hwrite, hgap, hsat, hnotice, hquiet, ttly, txpe⟩ := onResolution_csi s.rtu.frame s.rtu.label (resolve i (ready s))
    rw [← ht] at hwrite hgap hsat hnotice hquiet ttly txpe
    have hjournal := resolve_told i (ready s)
    have hmirror : (resolve i (ready s)).csi.mirror = s.csi.mirror := by rw [← hcsi]; simp
    have hprev := resolve_tly i (ready s)
    rw [driveLamps_tly, writeResolution_tly] at hprev
    have hflags := resolve_resolved i (ready s)
    generalize resolve i (ready s) = v at *
    have hdest : ∀ d, v.dest d = t.dest d := fun d => by rw [State.dest, State.dest, txpe]
    have htold : told = (List.finRange 64).foldl (toldFlags s.tly.prevDepth s.tly.prevLoop (fun d => (t.dest d).depth) (fun d => (t.dest d).loop)
      s.rtu.frame s.rtu.label) s := rfl
    have hv : journal v = journal told := by
      rw [hjournal, htold, htly, hrtu]
      simp only [hdest]
      generalize List.finRange 64 = l
      exact Journal.foldl_journal (journal_of hcsi hstore) (fun x y d h => toldFlags_journal h _ _ _ _ _ _ d) l
    clear_value t told
    obtain ⟨vcsi, vstore⟩ := journal_eq hv
    refine ⟨fun d => ?_, ⟨v, vcsi, vstore, ht⟩, fun h => (hquiet (by rw [hmirror]; exact h)).trans vstore, by rw [hwrite, vcsi], by rw [hgap, vcsi],
      by rw [hsat, vcsi], by rw [hnotice, vcsi]⟩
    rw [ttly, hprev, ← hdest, hflags.depth, hflags.loop]
    exact ⟨rfl, rfl⟩
  · obtain ⟨htly, hxpe, hcsi, hstore, -⟩ := ready_leaves s
    rw [declareSettled_unresolved h]
    exact ⟨htly, hxpe, hcsi, hstore⟩
  · obtain ⟨u, hu, hinputs, hdests, hrest, hframe⟩ := downBoundary_settles gpi hlink hrun
    obtain ⟨hchannels, hdepth, hloop, hframes⟩ := tallyRest_eq hrest
    obtain ⟨rframes, rtally, rdepth, rloop, routputs, rimage⟩ := hdeclared hinputs rfl
    rw [hframes] at rframes
    rw [hdests] at rtally rdepth rloop
    rw [hchannels] at routputs rimage
    have hexec : exec (.frameBoundary gpi) s = .next (declareSettled (s.rtu.frame + 1) u) := Registers.next_congr hu
    refine ⟨u, hexec, ?_, hinputs, hdests, hchannels, hdepth, hloop, hframe⟩
    generalize declareSettled (s.rtu.frame + 1) u = t at *
    exact hsettles ⟨rframes, rtally, rdepth, rloop, routputs, rimage⟩

end Sys2Proof.Proofs.Resolutions
end

