-- ==== Sys2Proof/Proofs/MirrorTables.lean ====
section
/-! The mirror tables as slots: where each entry stands, its bytes, and what writing some of the slots leaves (R166, Mirror tables). -/

namespace Sys2Proof.Proofs.MirrorTables

open Sys2Proof Sys2Proof.Machine
open Sys2Proof.Proofs.Strips (storeRead_writes_away)

/-! ### The slots -/

/-- An entry of a mirror table. -/
inductive Slot where
  | map (d : Fin 64)
  | flags (d : Fin 64)
  | tally (x : Fin 128)
  | channel (c : Fin 64)
  | port (p : Fin 32)
  | path (a : Fin 32)
  | key (p : Fin 24) (k : Fin 48)
  | panel (p : Fin 24)
  | occupancy

namespace Slot

/-- The number of the table that a slot stands in. -/
def table : Slot → Fin 9
  | map _ => 0
  | flags _ => 1
  | tally _ => 2
  | channel _ => 3
  | port _ => 4
  | path _ => 5
  | key _ _ => 6
  | panel _ => 7
  | occupancy => 8

/-- The offset of a slot from the mirror base. -/
def offset : Slot → Nat
  | map d => 0x20 + 16 * d.1
  | flags d => 0x420 + d.1
  | tally x => 0x460 + x.1
  | channel c => 0x4E0 + 2 * c.1
  | port p => 0x560 + 4 * p.1
  | path a => 0x5E0 + 4 * a.1
  | key p k => 0x660 + 48 * p.1 + k.1
  | panel p => 0xAE0 + 8 * p.1
  | occupancy => 0xBA0

/-- How many bytes a rewrite writes in a slot. -/
def size : Slot → Nat
  | map _ => 10
  | channel _ => 2
  | port _ => 2
  | path _ => 4
  | panel _ => 8
  | occupancy => 2
  | _ => 1

/-- How many bytes of the tables belong to a slot. -/
def span : Slot → Nat
  | map _ => 16
  | port _ => 4
  | occupancy => 4
  | i => i.size

/-- The bytes of a slot, as they stand in a state. -/
def bytes (free : Fin 64 → Byte) (s : State) : Slot → List Byte
  | map d => mapMirror (free d) (s.dest d)
  | flags d => [num8 (bit (s.dest d).depth + 2 * bit (s.dest d).loop)]
  | tally x => [num8 s.tly.tally[x].toNat]
  | channel c => [num8 s.tly.outputs[c].toNat, (s.tly.channels[c].force.map fun f => num8 f.toNat).getD 0xFF]
  | port p => s.portMirror p
  | path a => le32 (s.pathMask a).toNat
  | key p k => [num8 (s.keyState p k).num]
  | panel p => panelMirror (s.panel p)
  | occupancy => [num8 (entryCount s.xpe.queue), num8 s.xpe.armed.length]

/-- A slot as an entry of the mirror tables. -/
def entry (free : Fin 64 → Byte) (s : State) (i : Slot) : MirrorEntry := (i.offset, i.bytes free s)

theorem bytes_length (free : Fin 64 → Byte) (s : State) (i : Slot) : (i.bytes free s).length = i.size := by
  cases i <;> rfl

theorem size_le_span (i : Slot) : i.size ≤ i.span := by
  cases i <;> simp [size, span]

/-! ### Where the slots stand -/

/-- The offset at which a table begins. -/
def start : Fin 10 → Nat := ![0x20, 0x420, 0x460, 0x4E0, 0x560, 0x5E0, 0x660, 0xAE0, 0xBA0, 0xBA4]

theorem start_mono : ∀ t u : Fin 9, t < u → start t.succ ≤ start u.castSucc := by decide

theorem start_bounds : ∀ t : Fin 9, 0x20 ≤ start t.castSucc ∧ start t.succ ≤ 0xBA4 := by decide

theorem offset_bounds (i : Slot) : start i.table.castSucc ≤ i.offset ∧ i.offset + i.span ≤ start i.table.succ := by
  cases i <;> simp [start, table, offset, span, size] <;> omega

theorem inside (i : Slot) : 0x20 ≤ i.offset ∧ i.offset + i.span ≤ 0xBA4 := by
  have := i.offset_bounds
  have := start_bounds i.table
  omega

/-- Two slots have no byte in common. -/
theorem apart {i j : Slot} (h : i ≠ j) : i.offset + i.span ≤ j.offset ∨ j.offset + j.span ≤ i.offset := by
  have hi := i.offset_bounds
  have hj := j.offset_bounds
  rcases lt_trichotomy i.table j.table with ht | ht | ht
  · have := start_mono _ _ ht
    omega
  · cases i <;> cases j <;> simp [table] at ht <;> simp [Fin.ext_iff] at h <;> simp only [offset, span, size] <;> omega
  · have := start_mono _ _ ht
    omega

end Slot

/-- The slots in the order of the tables. -/
def slots : List Slot :=
  (List.finRange 64).map .map ++ (List.finRange 64).map .flags ++
  ((List.finRange 128).map .tally ++ (List.finRange 64).map .channel) ++
  ((List.finRange 32).map .port ++ (List.finRange 32).map .path ++
    (List.finRange 24).flatMap fun p => (List.finRange 48).map (.key p)) ++
  ((List.finRange 24).map .panel ++ [.occupancy])

theorem mem_slots (i : Slot) : i ∈ slots := by
  cases i <;> simp [slots]

theorem mirrorEntries_slots (free : Fin 64 → Byte) (s : State) : mirrorEntries free s = slots.map (Slot.entry free s) := by
  simp only [mirrorEntries, destMirrors, tallyMirrors, talkMirrors, panelMirrors, slots, List.map_append, List.map_map, List.map_flatMap,
    List.map_cons, List.map_nil]
  rfl

/-! ### What a rewrite writes -/

/-- The bytes of two states differ in a slot, however the free bytes of unprotected destinations stand. -/
def differs (s w : State) (i : Slot) : Bool := decide (i.bytes (fun _ => 0) s ≠ i.bytes (fun _ => 0) w)

theorem changedEntries_slots (free : Fin 64 → Byte) (s w : State) :
    changedEntries (mirrorEntries free s) (mirrorEntries (fun _ => 0) s) (mirrorEntries (fun _ => 0) w) =
      (slots.filter (differs s w)).map (Slot.entry free s) := by
  have hrun : ∀ l : List Slot, changedEntries (l.map (Slot.entry free s)) (l.map (Slot.entry (fun _ => 0) s)) (l.map (Slot.entry (fun _ => 0) w)) =
      (l.filter (differs s w)).map (Slot.entry free s) := by
    intro l
    induction l with
    | nil => rfl
    | cons i l ih =>
      simp only [List.map_cons, changedEntries, ih, List.filter_cons]
      by_cases hi : i.bytes (fun _ => 0) s = i.bytes (fun _ => 0) w
      · have hd : differs s w i = false := decide_eq_false (not_not.2 hi)
        have he : Slot.entry (fun _ => 0) s i = Slot.entry (fun _ => 0) w i := Prod.ext rfl hi
        rw [if_pos he, hd, if_neg Bool.false_ne_true]
      · have hd : differs s w i = true := decide_eq_true hi
        rw [if_neg fun h => hi (Prod.ext_iff.1 h).2, hd, if_pos rfl, List.map_cons]
  simp only [mirrorEntries_slots, hrun]

/-- A byte that belongs to none of the slots written is as it was. -/
theorem writeEntries_away (free : Fin 64 → Byte) (s : State) (base x : Nat) : ∀ (l : List Slot) (m : Memory),
    (∀ i ∈ l, x < base + i.offset ∨ base + i.offset + i.size ≤ x) → storeRead (writeEntries base (l.map (Slot.entry free s)) m) x = storeRead m x := by
  intro l
  induction l with
  | nil => exact fun _ _ => rfl
  | cons i l ih =>
    intro m h
    have hi := h i (List.mem_cons_self ..)
    have hm : storeRead (storeWrites m (base + i.offset) (i.bytes free s)) x = storeRead m x :=
      storeRead_writes_away _ _ _ (by rw [Slot.bytes_length]; exact hi)
    exact (ih _ fun j hj => h j (List.mem_cons_of_mem _ hj)).trans hm

/-- A byte outside the tables is as it was. -/
theorem writeEntries_outside {free : Fin 64 → Byte} {s : State} {base x : Nat} (l : List Slot) (m : Memory) (hx : x < base + 0x20 ∨ base + 0xBA4 ≤ x) :
    storeRead (writeEntries base (l.map (Slot.entry free s)) m) x = storeRead m x :=
  writeEntries_away free s base x l m fun i _ => by
    have := i.inside
    have := i.size_le_span
    omega

/-- The bytes of a slot that is not written are as they were. -/
theorem writeEntries_skipped {free : Fin 64 → Byte} {s : State} {base : Nat} {i : Slot} {l : List Slot} (m : Memory) (hi : i ∉ l) {j : Nat} (hj : j < i.span) :
    storeRead (writeEntries base (l.map (Slot.entry free s)) m) (base + i.offset + j) = storeRead m (base + i.offset + j) :=
  writeEntries_away free s base _ l m fun k hk => by
    have hne : i ≠ k := fun h => hi (h ▸ hk)
    have := Slot.apart hne
    have := k.size_le_span
    omega

/-- A slot that is written holds its bytes. -/
theorem writeEntries_written (free : Fin 64 → Byte) (s : State) {base : Nat} (hb : base + 3008 ≤ 4194304) {i : Slot} {j : Nat} (hj : j < i.size) :
    ∀ (l : List Slot) (m : Memory), m.wf = true → i ∈ l →
      storeRead (writeEntries base (l.map (Slot.entry free s)) m) (base + i.offset + j) = (i.bytes free s).getD j 0 := by
  intro l
  induction l with
  | nil => exact fun _ _ hi => absurd hi List.not_mem_nil
  | cons k l ih =>
    intro m hm hi
    have hwf : (storeWrites m (base + k.offset) (k.bytes free s)).wf = true := storeWrites_wf _ _ _ hm
    by_cases hil : i ∈ l
    · exact ih _ hwf hil
    · have hik : i = k := (List.mem_cons.1 hi).resolve_right hil
      subst hik
      have hlen := i.bytes_length free s
      have hin := i.inside
      have hsp := i.size_le_span
      refine (writeEntries_skipped _ hil (by omega)).trans ?_
      simp only [Slot.entry]
      rw [storeRead_writes_inside (i.bytes free s) m (base + i.offset) j hm (by show _ ≤ 4194304; omega) (by omega), List.getD_eq_getElem?_getD,
        List.getElem?_eq_getElem (by omega), Option.getD_some]

end Sys2Proof.Proofs.MirrorTables
end

