-- ==== Sys2Proof/Proofs/MirrorPictures.lean ====
section
/-! What the mirror tables show, slot by slot (R166, Mirror tables). -/

namespace Sys2Proof.Proofs.MirrorPictures

open Sys2Proof Sys2Proof.Machine
open Sys2Proof.Proofs.MirrorTables

/-- The bytes at a slot of a store show the bytes given: the level of an unprotected destination and the upper bits of a port's second byte mean nothing. -/
def Shown (m : Memory) (base : Nat) (i : Slot) (bs : List Byte) : Prop :=
  match i with
  | .map _ => (∀ j < 9, storeRead m (base + i.offset + j) = bs.getD j 0) ∧
      (bs.getD 8 0 ≠ 0xFE → storeRead m (base + i.offset + 9) = bs.getD 9 0)
  | .port _ => storeRead m (base + i.offset) = bs.getD 0 0 ∧
      ∀ j < 4, (storeRead m (base + i.offset + 1)).getLsbD j = (bs.getD 1 0).getLsbD j
  | i => ∀ j < i.size, storeRead m (base + i.offset + j) = bs.getD j 0

/-- A slot that a store shows in full it shows. -/
theorem Shown.of_reads {m : Memory} {base : Nat} {i : Slot} {bs : List Byte} (h : ∀ j < i.size, storeRead m (base + i.offset + j) = bs.getD j 0) :
    Shown m base i bs := by
  cases i with
  | map d => exact ⟨fun j hj => h j (by simp only [Slot.size]; omega), fun _ => h 9 (by simp [Slot.size])⟩
  | port p =>
    have h1 := h 1 (by simp [Slot.size])
    exact ⟨h 0 (by simp [Slot.size]), fun j _ => by rw [h1]⟩
  | _ => exact h

/-- What a store shows in a slot depends on the slot's bytes alone. -/
theorem Shown.congr {m n : Memory} {base : Nat} {i : Slot} {bs : List Byte}
    (h : ∀ j < i.span, storeRead n (base + i.offset + j) = storeRead m (base + i.offset + j)) (hs : Shown m base i bs) : Shown n base i bs := by
  cases i with
  | map d =>
    obtain ⟨hlow, hlevel⟩ := hs
    exact ⟨fun j hj => (h j (by simp only [Slot.span]; omega)).trans (hlow j hj), fun hp => (h 9 (by simp [Slot.span])).trans (hlevel hp)⟩
  | port p =>
    obtain ⟨hkind, hbits⟩ := hs
    have h1 := h 1 (by simp [Slot.span])
    exact ⟨(h 0 (by simp [Slot.span])).trans hkind, fun j hj => by rw [h1]; exact hbits j hj⟩
  | _ => exact fun j hj => (h j (by simpa [Slot.span, Slot.size] using lt_of_lt_of_le hj (Slot.size_le_span _))).trans (hs j hj)

/-- The free byte of an unprotected destination does not count. -/
theorem Shown.of_free {m : Memory} {base : Nat} {i : Slot} {s : State} {free : Fin 64 → Byte} (h : Shown m base i (i.bytes free s)) :
    Shown m base i (i.bytes (fun _ => 0) s) := by
  cases i with
  | map d =>
    obtain ⟨hlow, hlevel⟩ := h
    refine ⟨fun j hj => (hlow j hj).trans ?_, fun hp => (hlevel hp).trans ?_⟩
    · simp only [Slot.bytes, mapMirror, MapEntry.bytes, List.cons_append, List.nil_append]
      interval_cases j <;> rfl
    · simp only [Slot.bytes, mapMirror, MapEntry.bytes, List.cons_append, List.nil_append, List.getD_cons_succ, List.getD_cons_zero] at hp ⊢
      cases hprotect : (s.dest d).protect with
      | none => exact absurd (by rw [hprotect]; rfl) hp
      | some p => rfl
  | _ => exact h

/-! ### Bytes of a slot -/

theorem num8_toNat {n : Nat} (b : BitVec n) : num8 b.toNat = b.zeroExtend 8 := BitVec.ofNat_toNat 8 b

theorem ownerByte_ne (o : Owner) : o.byte ≠ 0xFE := by
  cases o with
  | panel n => revert n; decide
  | app n => revert n; decide

/-- The bits of a 32-bit word's bytes. -/
theorem le32_bit (w : BitVec 32) (b : Fin 32) : ((le32 w.toNat).getD (b.1 / 8) 0).getLsbD (b.1 % 8) = w.getLsbD b.1 := by
  have hword : ∀ k < 4, ∀ r < 8, ((le32 w.toNat).getD k 0).getLsbD r = w.getLsbD (8 * k + r) := by
    intro k hk r hr
    have hbyte : (le32 w.toNat).getD k 0 = BitVec.ofNat 8 (w.toNat / 2 ^ (8 * k)) := by
      interval_cases k <;> simp [le32]
    rw [hbyte, BitVec.getLsbD_ofNat, Nat.testBit_div_two_pow, BitVec.getLsbD, Nat.add_comm]
    simp [hr]
  rw [hword _ (by omega) _ (by omega), Nat.div_add_mod]

theorem pathMask_bit (s : State) (a b : Fin 32) : (s.pathMask a).getLsbD b.1 = true ↔ ∃ x ∈ s.tke.paths, x.talker = a ∧ x.listener = b := by
  simp [State.pathMask, portSetOf, BitVec.getLsbD_ofFnLE, -BitVec.getLsbD_eq_getElem]

/-! ### The pictures, slot by slot -/

/-- A store shows a slot of a state. -/
def Shows (m : Memory) (base : Nat) (s : State) (i : Slot) : Prop := Shown m base i (i.bytes (fun _ => 0) s)

section
variable {m : Memory} {base : Nat} {s : State}

theorem map_shown (d : Fin 64) : Shows m base s (.map d) ↔
    (∀ l : Level, storeRead m (base + 0x20 + 16 * d.1 + 2 * l.num) = ((s.dest d).entry l).source.byte ∧
      storeRead m (base + 0x20 + 16 * d.1 + 2 * l.num + 1) = num8 ((s.dest d).entry l).state.num) ∧
    storeRead m (base + 0x20 + 16 * d.1 + 6) = (s.dest d).present.zeroExtend 8 ∧
    storeRead m (base + 0x20 + 16 * d.1 + 7) = num8 (s.dest d).kind.num ∧
    ((s.dest d).protect = none → storeRead m (base + 0x20 + 16 * d.1 + 8) = 0xFE) ∧
    ∀ p, (s.dest d).protect = some p →
      storeRead m (base + 0x20 + 16 * d.1 + 8) = p.owner.byte ∧ storeRead m (base + 0x20 + 16 * d.1 + 9) = num8 p.level.1 := by
  rw [Shows, Shown, ← num8_toNat]
  simp only [Slot.offset, Slot.bytes, ← Nat.add_assoc]
  generalize base + 0x20 + 16 * d.1 = a
  constructor
  · rintro ⟨hlow, hlevel⟩
    refine ⟨fun l => ?_, hlow 6 (by omega), hlow 7 (by omega), fun hp => ?_, fun p hp => ?_⟩
    · cases l
      · exact ⟨hlow 0 (by omega), hlow 1 (by omega)⟩
      · exact ⟨hlow 2 (by omega), hlow 3 (by omega)⟩
      · exact ⟨hlow 4 (by omega), hlow 5 (by omega)⟩
    · rw [hlow 8 (by omega)]
      simp [mapMirror, MapEntry.bytes, hp]
    · have hbyte : (mapMirror 0 (s.dest d)).getD 8 0 = p.owner.byte := by simp [mapMirror, MapEntry.bytes, hp]
      refine ⟨(hlow 8 (by omega)).trans hbyte, (hlevel (hbyte ▸ ownerByte_ne p.owner)).trans ?_⟩
      simp [mapMirror, MapEntry.bytes, hp]
  · rintro ⟨hentries, hpresent, hkind, hnone, hsome⟩
    have hV := hentries .v
    have hA := hentries .a
    have hB := hentries .b
    cases hp : (s.dest d).protect with
    | none =>
      have h8 := hnone hp
      refine ⟨fun j hj => ?_, fun h => ?_⟩
      · interval_cases j
        exacts [hV.1, hV.2, hA.1, hA.2, hB.1, hB.2, hpresent, hkind, h8.trans (by simp [mapMirror, MapEntry.bytes, hp])]
      · exact absurd (by simp [mapMirror, MapEntry.bytes, hp]) h
    | some p =>
      obtain ⟨h8, h9⟩ := hsome p hp
      refine ⟨fun j hj => ?_, fun _ => h9.trans (by simp [mapMirror, MapEntry.bytes, hp])⟩
      interval_cases j
      exacts [hV.1, hV.2, hA.1, hA.2, hB.1, hB.2, hpresent, hkind, h8.trans (by simp [mapMirror, MapEntry.bytes, hp])]

theorem flags_shown (d : Fin 64) : Shows m base s (.flags d) ↔
    storeRead m (base + 0x420 + d.1) = num8 (bit (s.dest d).depth + 2 * bit (s.dest d).loop) := by
  simp [Shows, Shown, Slot.offset, Slot.bytes, Slot.size, ← Nat.add_assoc]

theorem tally_shown (x : Fin 128) : Shows m base s (.tally x) ↔ storeRead m (base + 0x460 + x.1) = s.tly.tally[x].zeroExtend 8 := by
  rw [← num8_toNat]
  simp [Shows, Shown, Slot.offset, Slot.bytes, Slot.size, ← Nat.add_assoc]

theorem forall_lt_two {p : Nat → Prop} : (∀ j < 2, p j) ↔ p 0 ∧ p 1 :=
  ⟨fun h => ⟨h 0 (by omega), h 1 (by omega)⟩, fun h j hj => by interval_cases j; exacts [h.1, h.2]⟩

theorem channel_shown (c : Fin 64) : Shows m base s (.channel c) ↔ storeRead m (base + 0x4E0 + 2 * c.1) = s.tly.outputs[c].zeroExtend 8 ∧
    storeRead m (base + 0x4E0 + 2 * c.1 + 1) = match s.tly.channels[c].force with
      | none => 0xFF
      | some f => f.zeroExtend 8 := by
  rw [Shows, Shown]
  · simp only [Slot.size, forall_lt_two, Slot.offset, Slot.bytes, ← Nat.add_assoc]
    cases hf : s.tly.channels[c].force <;> simp [num8_toNat]
  all_goals simp

theorem port_shown (p : Fin 32) : Shows m base s (.port p) ↔
    storeRead m (base + 0x560 + 4 * p.1) = num8 s.tke.ports[p].kind.num ∧
    (storeRead m (base + 0x560 + 4 * p.1 + 1)).getLsbD 0 = s.tke.ports[p].enable ∧
    (storeRead m (base + 0x560 + 4 * p.1 + 1)).getLsbD 1 = s.tke.ports[p].isolate ∧
    (storeRead m (base + 0x560 + 4 * p.1 + 1)).getLsbD 2 = s.tke.talking.getLsbD p.1 ∧
    (storeRead m (base + 0x560 + 4 * p.1 + 1)).getLsbD 3 = s.tke.incoming.getLsbD p.1 := by
  have hbits : ∀ e i t n : Bool, let b := num8 (bit e + 2 * bit i + 4 * bit t + 8 * bit n)
      b.getLsbD 0 = e ∧ b.getLsbD 1 = i ∧ b.getLsbD 2 = t ∧ b.getLsbD 3 = n := by decide
  obtain ⟨h0, h1, h2, h3⟩ := hbits s.tke.ports[p].enable s.tke.ports[p].isolate (hasPort s.tke.talking p) (hasPort s.tke.incoming p)
  rw [Shows, Shown]
  simp only [Slot.offset, Slot.bytes, ← Nat.add_assoc, State.portMirror, List.getD_cons_zero, List.getD_cons_succ]
  refine and_congr_right fun _ => ⟨fun h => ⟨(h 0 (by omega)).trans h0, (h 1 (by omega)).trans h1, (h 2 (by omega)).trans h2, (h 3 (by omega)).trans h3⟩,
    fun ⟨b0, b1, b2, b3⟩ j hj => ?_⟩
  interval_cases j
  exacts [b0.trans h0.symm, b1.trans h1.symm, b2.trans h2.symm, b3.trans h3.symm]

theorem path_shown (a : Fin 32) : Shows m base s (.path a) ↔
    ∀ b : Fin 32, (storeRead m (base + 0x5E0 + 4 * a.1 + b.1 / 8)).getLsbD (b.1 % 8) = true ↔ ∃ x ∈ s.tke.paths, x.talker = a ∧ x.listener = b := by
  rw [Shows, Shown]
  · simp only [Slot.size, Slot.offset, Slot.bytes, ← Nat.add_assoc]
    constructor
    · intro h b
      rw [h _ (by omega), le32_bit, pathMask_bit]
    · intro h j hj
      refine BitVec.eq_of_getLsbD_eq fun r hr => Bool.eq_iff_iff.2 ?_
      have hb := h ⟨8 * j + r, by omega⟩
      rw [← pathMask_bit, ← le32_bit] at hb
      have hdiv : (8 * j + r) / 8 = j := by omega
      have hmod : (8 * j + r) % 8 = r := by omega
      simpa only [hdiv, hmod] using hb
  all_goals simp

theorem key_shown (p : Fin 24) (k : Fin 48) : Shows m base s (.key p k) ↔ storeRead m (base + 0x660 + 48 * p.1 + k.1) = match s.keyState p k with
    | .idle => 0
    | .pending _ => 1
    | .held => 2
    | .latched => 3
    | .closing => 4 := by
  simp only [Shows, Shown, Slot.offset, Slot.bytes, Slot.size, ← Nat.add_assoc]
  cases s.keyState p k <;> simp [KeyState.num, num8]

theorem word_iff (a : Nat) (v : BitVec 16) :
    storeRead16 m a = v.toNat ↔ storeRead m a = (le16 v.toNat).getD 0 0 ∧ storeRead m (a + 1) = (le16 v.toNat).getD 1 0 := by
  have hv := v.isLt
  have hlow := (storeRead m a).isLt
  have hhigh := (storeRead m (a + 1)).isLt
  simp only [storeRead16, le16, List.getD_cons_zero, List.getD_cons_succ, ← BitVec.toNat_inj, BitVec.toNat_ofNat]
  omega

theorem panel_shown (p : Fin 24) : Shows m base s (.panel p) ↔
    storeRead m (base + 0xAE0 + 8 * p.1) = num8 (s.panel p).state.num ∧ storeRead m (base + 0xAE0 + 8 * p.1 + 1) = num8 (bit (s.panel p).enabled) ∧
    storeRead m (base + 0xAE0 + 8 * p.1 + 2) = num8 (s.panel p).level.1 ∧ storeRead m (base + 0xAE0 + 8 * p.1 + 3) = optByte (s.panel p).station ∧
    storeRead m (base + 0xAE0 + 8 * p.1 + 4) = (if (s.panel p).mode = .direct then 0 else 1) ∧
    storeRead m (base + 0xAE0 + 8 * p.1 + 5) = num8 (s.panel p).threshold ∧
    storeRead16 m (base + 0xAE0 + 8 * p.1 + 6) = (s.panel p).model.toNat := by
  rw [Shows, Shown]
  · simp only [Slot.size, Slot.offset, Slot.bytes, ← Nat.add_assoc, word_iff]
    generalize base + 0xAE0 + 8 * p.1 = a
    have hmode : (num8 (match (s.panel p).mode with | .direct => 0 | .preset => 1)) = if (s.panel p).mode = .direct then 0 else 1 := by
      cases (s.panel p).mode <;> rfl
    rw [← hmode]
    constructor
    · intro h
      exact ⟨h 0 (by omega), h 1 (by omega), h 2 (by omega), h 3 (by omega), h 4 (by omega), h 5 (by omega), h 6 (by omega), h 7 (by omega)⟩
    · rintro ⟨h0, h1, h2, h3, h4, h5, h6, h7⟩ j hj
      interval_cases j
      exacts [h0, h1, h2, h3, h4, h5, h6, h7]
  all_goals simp

theorem occupancy_shown : Shows m base s .occupancy ↔
    storeRead m (base + 0xBA0) = num8 (entriesIn s.xpe.queue) ∧ storeRead m (base + 0xBA1) = num8 s.xpe.armed.length := by
  rw [Shows, Shown]
  · simp only [Slot.size, forall_lt_two, Slot.offset, Slot.bytes, List.getD_cons_zero, List.getD_cons_succ, Nat.add_assoc, Nat.add_zero]
    rfl
  all_goals simp

theorem showsTallies_iff : s.mirrorsShowTallies m base ↔ (∀ d, Shows m base s (.map d)) ∧ (∀ d, Shows m base s (.flags d)) ∧
    (∀ x, Shows m base s (.tally x)) ∧ ∀ c, Shows m base s (.channel c) := by
  constructor
  · rintro ⟨hdest, htally, hchannel⟩
    refine ⟨fun d => (map_shown d).2 ?_, fun d => (flags_shown d).2 ?_, fun x => (tally_shown x).2 (htally x),
      fun c => (channel_shown c).2 (hchannel c)⟩
    · obtain ⟨hentries, hpresent, hkind, hnone, hsome, -⟩ := hdest d
      exact ⟨hentries, hpresent, hkind, hnone, hsome⟩
    · obtain ⟨-, -, -, -, -, hflags⟩ := hdest d
      exact hflags
  · rintro ⟨hmap, hflags, htally, hchannel⟩
    refine ⟨fun d => ?_, fun x => (tally_shown x).1 (htally x), fun c => (channel_shown c).1 (hchannel c)⟩
    obtain ⟨hentries, hpresent, hkind, hnone, hsome⟩ := (map_shown d).1 (hmap d)
    exact ⟨hentries, hpresent, hkind, hnone, hsome, (flags_shown d).1 (hflags d)⟩

theorem showsPanels_iff : s.mirrorsShowPanels m base ↔ (∀ p, Shows m base s (.port p)) ∧ (∀ a, Shows m base s (.path a)) ∧
    (∀ p k, Shows m base s (.key p k)) ∧ (∀ p, Shows m base s (.panel p)) ∧ Shows m base s .occupancy := by
  constructor
  · rintro ⟨hport, hpath, hkey, hpanel, hoccupancy⟩
    exact ⟨fun p => (port_shown p).2 (hport p), fun a => (path_shown a).2 (hpath a), fun p k => (key_shown p k).2 (hkey p k),
      fun p => (panel_shown p).2 (hpanel p), occupancy_shown.2 hoccupancy⟩
  · rintro ⟨hport, hpath, hkey, hpanel, hoccupancy⟩
    exact ⟨fun p => (port_shown p).1 (hport p), fun a => (path_shown a).1 (hpath a), fun p k => (key_shown p k).1 (hkey p k),
      fun p => (panel_shown p).1 (hpanel p), occupancy_shown.1 hoccupancy⟩

end

/-- A store that shows every slot shows both pictures. -/
theorem shows_all {m : Memory} {base : Nat} {s : State} (h : ∀ i, Shows m base s i) : s.mirrorsShowTallies m base ∧ s.mirrorsShowPanels m base :=
  ⟨showsTallies_iff.2 ⟨fun _ => h _, fun _ => h _, fun _ => h _, fun _ => h _⟩,
    showsPanels_iff.2 ⟨fun _ => h _, fun _ => h _, fun _ _ => h _, fun _ => h _, h _⟩⟩

/-- Two stores between which every slot goes over keep both pictures. -/
theorem shows_mono {m n : Memory} {base : Nat} {w s : State} (h : ∀ i, Shows m base w i → Shows n base s i) :
    (w.mirrorsShowTallies m base → s.mirrorsShowTallies n base) ∧ (w.mirrorsShowPanels m base → s.mirrorsShowPanels n base) := by
  refine ⟨fun hw => ?_, fun hw => ?_⟩
  · obtain ⟨hmap, hflags, htally, hchannel⟩ := showsTallies_iff.1 hw
    exact showsTallies_iff.2 ⟨fun _ => h _ (hmap _), fun _ => h _ (hflags _), fun _ => h _ (htally _), fun _ => h _ (hchannel _)⟩
  · obtain ⟨hport, hpath, hkey, hpanel, hoccupancy⟩ := showsPanels_iff.1 hw
    exact showsPanels_iff.2 ⟨fun _ => h _ (hport _), fun _ => h _ (hpath _), fun _ _ => h _ (hkey _ _), fun _ => h _ (hpanel _), h _ hoccupancy⟩

/-! ### Entries that two states have in common -/

theorem pathMask_congr {s w : State} {a : Fin 32}
    (h : ∀ b : Fin 32, (∃ x ∈ s.tke.paths, x.talker = a ∧ x.listener = b) ↔ ∃ x ∈ w.tke.paths, x.talker = a ∧ x.listener = b) :
    s.pathMask a = w.pathMask a := by
  refine BitVec.eq_of_getLsbD_eq fun r hr => Bool.eq_iff_iff.2 ?_
  rw [pathMask_bit s a ⟨r, hr⟩, h, pathMask_bit w a ⟨r, hr⟩]

/-- Where every slot that two states have in common is as it was, the entries they have in common are. -/
theorem leaves_of_slots {s w : State} {m n : Memory} {base : Nat}
    (h : ∀ i : Slot, i.bytes (fun _ => 0) s = i.bytes (fun _ => 0) w → ∀ j < i.span, storeRead n (base + i.offset + j) = storeRead m (base + i.offset + j)) :
    s.mirrorsLeave w m n base := by
  refine ⟨fun d hentry hpresent hkind hprotect => h (.map d) ?_, fun d hdepth hloop => h (.flags d) ?_, fun x htally => h (.tally x) ?_,
    fun c hout hforce => h (.channel c) ?_, fun p hkind henable hisolate htalking hincoming => h (.port p) ?_, fun a hpaths => h (.path a) ?_,
    fun p k hkey => h (.key p k) ?_, fun p hstate henabled hlevel hstation hmode hthreshold hmodel => h (.panel p) ?_, fun hqueue harmed => h .occupancy ?_⟩
  · have hV : (s.dest d).entryV = (w.dest d).entryV := hentry .v
    have hA : (s.dest d).entryA = (w.dest d).entryA := hentry .a
    have hB : (s.dest d).entryB = (w.dest d).entryB := hentry .b
    simp only [Slot.bytes, mapMirror, hV, hA, hB, hpresent, hkind, hprotect]
  · simp only [Slot.bytes, hdepth, hloop]
  · simp only [Slot.bytes, htally]
  · simp only [Slot.bytes, hout, hforce]
  · simp only [Slot.bytes, State.portMirror, hasPort, hkind, henable, hisolate, htalking, hincoming]
  · simp only [Slot.bytes, pathMask_congr hpaths]
  · simp only [Slot.bytes, hkey]
  · simp only [Slot.bytes, panelMirror, hstate, henabled, hlevel, hstation, hmode, hthreshold, hmodel]
  · have hcount : entryCount s.xpe.queue = entryCount w.xpe.queue := hqueue
    simp only [Slot.bytes, hcount, harmed]

end Sys2Proof.Proofs.MirrorPictures
end

