-- ==== Sys2Proof/Proofs/Rewrites.lean ====
section
/-! What a rewrite of the mirrors leaves in the store (R166). -/

namespace Sys2Proof.Proofs.Rewrites

open Sys2Proof Sys2Proof.Machine
open Sys2Proof.Proofs.Strips (storeRead_writes_away)
open Sys2Proof.Proofs.MirrorTables
open Sys2Proof.Proofs.MirrorPictures

/-! ### Pictures depend on four blocks -/

/-- Two states agree in every block that the mirrors show. -/
structure SamePicture (s u : State) : Prop where
  xpe : s.xpe = u.xpe
  tly : s.tly = u.tly
  tke : s.tke = u.tke
  pnc : s.pnc = u.pnc

namespace SamePicture

variable {s u : State}

theorem refl (s : State) : SamePicture s s := ⟨rfl, rfl, rfl, rfl⟩

theorem bytes (h : SamePicture s u) (free : Fin 64 → Byte) (i : Slot) : i.bytes free s = i.bytes free u := by
  obtain ⟨hxpe, htly, htke, hpnc⟩ := h
  cases i <;> simp only [Slot.bytes, State.dest, State.portMirror, State.pathMask, State.keyState, State.panel, hxpe, htly, htke, hpnc]

theorem shows (h : SamePicture s u) (m : Memory) (base : Nat) (i : Slot) : Shows m base s i ↔ Shows m base u i := by
  rw [Shows, Shows, h.bytes]

theorem entries (h : SamePicture s u) (free : Fin 64 → Byte) : mirrorEntries free s = mirrorEntries free u := by
  rw [mirrorEntries_slots, mirrorEntries_slots]
  exact List.map_congr_left fun i _ => by rw [Slot.entry, Slot.entry, h.bytes]

end SamePicture

/-! ### The entries a rewrite writes -/

theorem rewriteEntries_complete {s : State} (h : s.csi.mirror.complete = true) : s.rewriteEntries = slots.map (Slot.entry s.freeLevel s) := by
  rw [State.rewriteEntries, if_pos h, mirrorEntries_slots]

theorem rewriteEntries_incomplete {s w : State} (h : s.csi.mirror.complete = false) (hw : s.csi.mirror.written = mirrorEntries (fun _ => 0) w) :
    s.rewriteEntries = (slots.filter (differs s w)).map (Slot.entry s.freeLevel s) := by
  rw [State.rewriteEntries, h, hw, changedEntries_slots]
  rfl

theorem changedEntries_sublist : ∀ es ns os : List MirrorEntry, (changedEntries es ns os).Sublist es
  | e :: es, n :: ns, o :: os => by
    rw [changedEntries]
    split
    · exact (changedEntries_sublist es ns os).trans (List.sublist_cons_self ..)
    · exact (changedEntries_sublist es ns os).cons_cons e
  | [], _, _ :: _ => by simp [changedEntries]
  | _ :: _, [], _ :: _ => by simp [changedEntries]
  | es, ns, [] => by simp [changedEntries]

/-- A rewrite writes slots, whatever the previous one left. -/
theorem rewriteEntries_slots (s : State) : ∃ l : List Slot, s.rewriteEntries = l.map (Slot.entry s.freeLevel s) := by
  have hsub : s.rewriteEntries.Sublist (slots.map (Slot.entry s.freeLevel s)) := by
    rw [State.rewriteEntries, ← mirrorEntries_slots]
    split
    · exact List.Sublist.refl _
    · exact changedEntries_sublist _ _ _
  obtain ⟨l, -, hl⟩ := List.sublist_map_iff.1 hsub
  exact ⟨l, hl⟩

/-! ### What a rewrite leaves -/

section
variable (c : AnchorCopy) (f : FrameIndex) (l : Label) (s : State)

theorem startRewrite_store : (startRewrite c f l s).store =
    writeEntries c.mirror s.rewriteEntries (storeWrites s.store c.mirror (s.mirrorHeader (s.csi.mirror.count + 1) f l)) := rfl

theorem startRewrite_mirror : (startRewrite c f l s).csi = { s.csi with mirror := { s.csi.mirror with
    count := s.csi.mirror.count + 1, writing := some c.mirror, complete := false, written := mirrorEntries (fun _ => 0) s } } := rfl

theorem header_length (n : BitVec 32) : (s.mirrorHeader n f l).length = 15 := rfl

theorem header_away {x : Nat} (n : BitVec 32) (hx : x < c.mirror ∨ c.mirror + 15 ≤ x) :
    storeRead (storeWrites s.store c.mirror (s.mirrorHeader n f l)) x = storeRead s.store x :=
  storeRead_writes_away _ _ _ hx

/-- Nothing outside the tables is written. -/
theorem startRewrite_outside {x : Nat} (hx : x < c.mirror ∨ c.mirror + 0xBA4 ≤ x) :
    storeRead (startRewrite c f l s).store x = storeRead s.store x := by
  obtain ⟨k, hk⟩ := rewriteEntries_slots s
  rw [startRewrite_store, hk, writeEntries_outside k _ (by omega), header_away c f l s _ (by omega)]

variable {c f l s}

/-- The fifteen bytes of the header. -/
theorem startRewrite_header (hwf : s.store.wf = true) (hfits : c.mirror + 3008 ≤ 4194304) {j : Nat} (hj : j < 15) :
    storeRead (startRewrite c f l s).store (c.mirror + j) = (s.mirrorHeader (s.csi.mirror.count + 1) f l).getD j 0 := by
  obtain ⟨k, hk⟩ := rewriteEntries_slots s
  have hlen := header_length f l s (s.csi.mirror.count + 1)
  rw [startRewrite_store, hk, writeEntries_outside k _ (by omega),
    storeRead_writes_inside _ _ _ j hwf (by show _ ≤ 4194304; omega) (by omega), List.getD_eq_getElem?_getD, List.getElem?_eq_getElem (by omega),
    Option.getD_some]

theorem read32_le32 {m : Memory} {a : Nat} (w : BitVec 32) (h : ∀ j < 4, storeRead m (a + j) = (le32 w.toNat).getD j 0) : storeRead32 m a = w.toNat := by
  have h0 := h 0 (by omega)
  have h1 := h 1 (by omega)
  have h2 := h 2 (by omega)
  have h3 := h 3 (by omega)
  have hw := w.isLt
  rw [Nat.add_zero] at h0
  simp only [storeRead32, storeRead16, h0, h1, h2, h3, le32, Nat.add_assoc, List.getD_cons_zero, List.getD_cons_succ, BitVec.toNat_ofNat]
  omega

/-- The header says the opening count, the frame and label of the resolution, and the reference and link states. -/
theorem startRewrite_heads (hwf : s.store.wf = true) (hfits : c.mirror + 3008 ≤ 4194304) :
    storeRead32 (startRewrite c f l s).store c.mirror = (s.csi.mirror.count + 1).toNat ∧
    storeRead32 (startRewrite c f l s).store (c.mirror + 4) = f.toNat ∧
    (∀ i : Fin 4, storeRead (startRewrite c f l s).store (c.mirror + 8 + i.1) = l.bytes.getD i.1 0) ∧
    storeRead (startRewrite c f l s).store (c.mirror + 12) = num8 s.rtu.ref.num ∧
    storeRead (startRewrite c f l s).store (c.mirror + 13) = num8 s.xpe.link.num ∧
    storeRead (startRewrite c f l s).store (c.mirror + 14) = num8 s.tke.link.num := by
  have h : ∀ j < 15, _ := fun j hj => startRewrite_header (f := f) (l := l) hwf hfits hj
  refine ⟨read32_le32 _ fun j hj => ?_, read32_le32 _ fun j hj => ?_, fun i => ?_, h 12 (by omega), h 13 (by omega), h 14 (by omega)⟩
  · rw [h j (by omega)]
    interval_cases j <;> rfl
  · rw [Nat.add_assoc, h (4 + j) (by omega)]
    interval_cases j <;> rfl
  · rw [Nat.add_assoc, h (8 + i.1) (by omega)]
    fin_cases i <;> rfl

/-- A complete rewrite leaves both pictures. -/
theorem startRewrite_complete (hwf : s.store.wf = true) (hfits : c.mirror + 3008 ≤ 4194304) (hcomplete : s.csi.mirror.complete = true) {x : State}
    (hx : SamePicture x s) :
    x.mirrorsShowTallies (startRewrite c f l s).store c.mirror ∧ x.mirrorsShowPanels (startRewrite c f l s).store c.mirror := by
  refine shows_all fun i => (hx.shows _ _ i).2 (Shown.of_free (free := s.freeLevel) (Shown.of_reads fun j hj => ?_))
  rw [startRewrite_store, rewriteEntries_complete hcomplete]
  exact writeEntries_written _ _ hfits hj _ _ (storeWrites_wf _ _ _ hwf) (mem_slots i)

/-- A slot that the previous rewrite left as it stands is not written. -/
theorem startRewrite_same {w : State} (hcomplete : s.csi.mirror.complete = false) (hw : s.csi.mirror.written = mirrorEntries (fun _ => 0) w) {i : Slot}
    (hi : i.bytes (fun _ => 0) s = i.bytes (fun _ => 0) w) {j : Nat} (hj : j < i.span) :
    storeRead (startRewrite c f l s).store (c.mirror + i.offset + j) = storeRead s.store (c.mirror + i.offset + j) := by
  have hin := i.inside
  have hnot : i ∉ slots.filter (differs s w) := fun h => of_decide_eq_true (List.mem_filter.1 h).2 hi
  rw [startRewrite_store, rewriteEntries_incomplete hcomplete hw, writeEntries_skipped _ hnot hj, header_away _ _ _ _ _ (by omega)]

/-- An incomplete rewrite carries the picture that the previous one left over to the new one, and leaves what they have in common; `m` is a store that
has the same tables. -/
theorem startRewrite_incomplete (hwf : s.store.wf = true) (hfits : c.mirror + 3008 ≤ 4194304) {w : State} (hcomplete : s.csi.mirror.complete = false)
    (hw : s.csi.mirror.written = mirrorEntries (fun _ => 0) w) {x : State} (hx : SamePicture x s) {m : Memory}
    (hm : ∀ a, c.mirror ≤ a → a < c.mirror + 3008 → storeRead s.store a = storeRead m a) :
    (w.mirrorsShowTallies m c.mirror → x.mirrorsShowTallies (startRewrite c f l s).store c.mirror) ∧
    (w.mirrorsShowPanels m c.mirror → x.mirrorsShowPanels (startRewrite c f l s).store c.mirror) ∧
    x.mirrorsLeave w m (startRewrite c f l s).store c.mirror := by
  have hsame : ∀ i : Slot, i.bytes (fun _ => 0) s = i.bytes (fun _ => 0) w → ∀ j < i.span,
      storeRead (startRewrite c f l s).store (c.mirror + i.offset + j) = storeRead m (c.mirror + i.offset + j) := by
    intro i hi j hj
    have hin := i.inside
    exact (startRewrite_same hcomplete hw hi hj).trans (hm _ (by omega) (by omega))
  have hshows : ∀ i, Shows m c.mirror w i → Shows (startRewrite c f l s).store c.mirror x i := by
    intro i hi
    rw [hx.shows]
    by_cases hbytes : i.bytes (fun _ => 0) s = i.bytes (fun _ => 0) w
    · rw [Shows, hbytes]
      exact hi.congr (hsame i hbytes)
    · refine Shown.of_free (free := s.freeLevel) (Shown.of_reads fun j hj => ?_)
      rw [startRewrite_store, rewriteEntries_incomplete hcomplete hw]
      exact writeEntries_written _ _ hfits hj _ _ (storeWrites_wf _ _ _ hwf) (List.mem_filter.2 ⟨mem_slots i, decide_eq_true hbytes⟩)
  obtain ⟨htallies, hpanels⟩ := shows_mono hshows
  exact ⟨htallies, hpanels, leaves_of_slots fun i hi => hsame i ((hx.bytes _ i).symm.trans hi)⟩

/-- Where the previous rewrite left the very picture, only the header is written. -/
theorem startRewrite_unchanged (hcomplete : s.csi.mirror.complete = false) {w : State} (hw : s.csi.mirror.written = mirrorEntries (fun _ => 0) w)
    (hsame : SamePicture w s) {x : Nat}
    (hx : x < c.mirror ∨ c.mirror + 15 ≤ x) : storeRead (startRewrite c f l s).store x = storeRead s.store x := by
  have hnone : slots.filter (differs s w) = [] := List.filter_eq_nil_iff.2 fun i _ => by simp [differs, hsame.bytes]
  rw [startRewrite_store, rewriteEntries_incomplete hcomplete hw, hnone]
  exact header_away c f l s _ hx

end

end Sys2Proof.Proofs.Rewrites
end

