-- ==== Sys2Proof/Proofs/DownBoundaries.lean ====
section
/-! A boundary with the fabric link DOWN: what it leaves for the resolution's end, and where in the store its reports go. -/

namespace Sys2Proof.Proofs.DownBoundaries

open Sys2Proof Sys2Proof.Machine
open Sys2Proof.Proofs.Journal (record_length putRecord_store)
open Sys2Proof.Proofs.Strips (storeRead_write_away storeRead_writes_away)
open Sys2Proof.Proofs.Boundaries
open Sys2Proof.Proofs.Kept (Keeps rtu_kept examineKeys_kept endFlashes_kept nextFrame_kept compareCues_kept sampleInputs_kept tkeBoundary_kept
  tickTimers_kept probeDue_kept)
open Sys2Proof.Proofs.Resolutions (ready ready_leaves declareSettled_resolves)

/-! ### Where reports are written -/

/-- An address lies outside the journal and the anchor block. -/
def Away (c : AnchorCopy) (x : Nat) : Prop := (x < c.journal ∨ c.journal + 4096 ≤ x) ∧ (x < c.address ∨ c.address + 192 ≤ x)

/-- From `s` to `t` the store changes in the journal and the anchor block alone. -/
structure Journaled (s t : State) : Prop where
  copy  : t.csi.copy = s.csi.copy
  reads : ∀ c, s.csi.copy = some c → ∀ x, Away c x → storeRead t.store x = storeRead s.store x

namespace Journaled

variable {s t u : State}

theorem of_store (hcopy : t.csi.copy = s.csi.copy) (hstore : t.store = s.store) : Journaled s t :=
  ⟨hcopy, fun _ _ _ _ => by rw [hstore]⟩

theorem trans (h : Journaled s t) (h' : Journaled t u) : Journaled s u :=
  ⟨h'.copy.trans h.copy, fun c hc x hx => (h'.reads c (h.copy.trans hc) x hx).trans (h.reads c hc x hx)⟩

end Journaled

theorem putRecord_away {c : AnchorCopy} {x : Nat} (hx : Away c x) {rec : List Byte} (hl : rec.length = 16) (s : State) :
    storeRead (putRecord c rec s).store x = storeRead s.store x := by
  obtain ⟨hj, ha⟩ := hx
  have hw := s.csi.writeIndex.isLt
  rw [putRecord_store, storeRead_write_away _ _ (by omega), storeRead_writes_away _ _ _ (by omega)]

theorem setGap_away {c : AnchorCopy} {x : Nat} (hx : Away c x) (n : Nat) (sat : Bool) (s : State) :
    storeRead (setGap c n sat s).store x = storeRead s.store x :=
  storeRead_writes_away (le16 n) _ _ (by have ha := hx.2; show x < c.address + 0x20 ∨ c.address + 0x20 + 2 ≤ x; omega)

theorem report_journaled (r : Report) (f : FrameIndex) (l : Label) (s : State) : Journaled s (report r f l s) := by
  refine ⟨by simp, fun c hc x hx => ?_⟩
  have hlen := fun r : Report => record_length r f l
  unfold report
  rw [hc]
  dsimp only
  split
  · exact putRecord_away hx (hlen r) s
  · split
    · rw [putRecord_away hx (hlen r), setGap_away hx, putRecord_away hx (hlen _)]
    · split <;> exact setGap_away hx _ _ s

theorem reportNow_journaled (r : Report) (s : State) : Journaled s (reportNow r s) := report_journaled _ _ _ _

theorem foldl_journaled {α : Type} {f : State → α → State} (h : ∀ s a, Journaled s (f s a)) : ∀ (l : List α) (s : State), Journaled s (l.foldl f s)
  | [], _ => .of_store rfl rfl
  | a :: l, s => (h s a).trans (foldl_journaled h l (f s a))

/-! ### What reports in a boundary -/

/-- The reader's requests wait behind a read only. -/
def Orderly (s : State) : Prop := s.xpe.reading = none → s.xpe.fires = []

theorem cueMatch_journaled {s : State} (ahead : Label) (n : Fin 16) (h : Orderly s) :
    Journaled s (cueMatch ahead n s) ∧ Orderly (cueMatch ahead n s) := by
  cases ha : answers ahead s.rtu.cues[n] with
  | false =>
    rw [cueMatch_missed ha]
    exact ⟨.of_store rfl rfl, h⟩
  | true =>
    have hset : Journaled s (s.setCue n s.rtu.cues[n].matched) := .of_store rfl rfl
    cases haction : s.rtu.cues[n].action with
    | report =>
      rw [cueMatch_reports ha haction]
      exact ⟨hset.trans (report_journaled _ _ _ _), by simpa [Orderly] using h⟩
    | fire x =>
      rw [cueMatch_fires ha haction]
      generalize hq : cueRequest s.rtu.frame s.rtu.label n s.rtu.cues[n] x = q
      have horigin : q.origin = .cue n s.rtu.frame s.rtu.label := by rw [← hq]; rfl
      have hu : Orderly (s.setCue n s.rtu.cues[n].matched) := h
      generalize s.setCue n s.rtu.cues[n].matched = u at hset hu ⊢
      have hrefused : Journaled u (beginReads [] (fireOutcome q .refusedSalvo 0 u)) := by
        have hout : fireOutcome q .refusedSalvo 0 u = report (.cue n Code.refusedSalvo.byte) s.rtu.frame s.rtu.label u := by rw [fireOutcome, horigin]
        rw [hout]
        exact (report_journaled _ _ _ u).trans (.of_store rfl rfl)
      have hempty : Orderly (beginReads [] (fireOutcome q .refusedSalvo 0 u)) := fun _ => rfl
      unfold fire
      split
      · next hreading => exact ⟨hset.trans (.of_store rfl rfl), fun hn => absurd (hreading.symm.trans hn) nofun⟩
      · next hreading =>
        rw [hu hreading, List.nil_append, beginReads]
        split
        · exact ⟨hset.trans hrefused, hempty⟩
        · split
          · exact ⟨hset.trans (.of_store rfl rfl), fun hn => absurd hn nofun⟩
          · exact ⟨hset.trans hrefused, hempty⟩

theorem compareCues_journaled {s : State} (h : Orderly s) : Journaled s (compareCues s) := by
  have hrun : ∀ (ahead : Label) (l : List (Fin 16)) (x : State), Orderly x → Journaled x (l.foldl (fun x n => cueMatch ahead n x) x) := by
    intro ahead l
    induction l with
    | nil => exact fun x _ => .of_store rfl rfl
    | cons n l ih =>
      intro x hx
      obtain ⟨hj, ho⟩ := cueMatch_journaled ahead n hx
      exact hj.trans (ih _ ho)
  unfold compareCues
  split
  · exact hrun _ _ s h
  · exact .of_store rfl rfl

theorem sampleGpi_journaled (gpi : BitVec 16) (s : State) (i : Fin 16) : Journaled s (sampleGpi gpi i s) := by
  unfold sampleGpi
  split
  · exact .of_store rfl rfl
  · dsimp only
    split
    · refine .trans ?_ (reportNow_journaled _ _)
      exact .of_store rfl rfl
    · exact .of_store rfl rfl

theorem sampleInputs_journaled (gpi : BitVec 16) (s : State) : Journaled s (sampleInputs gpi s) := by
  unfold sampleInputs
  have hfold := foldl_journaled (sampleGpi_journaled gpi) (List.finRange 16) s
  generalize (List.finRange 16).foldl (fun x i => sampleGpi gpi i x) s = u at hfold ⊢
  exact hfold.trans (.of_store rfl rfl)

theorem reportFlags_journaled (a b c e : BitVec 64) (s : State) (d : Fin 64) : Journaled s (reportFlags a b c e d s) := by
  unfold reportFlags
  dsimp only
  split <;> split
  · exact .of_store rfl rfl
  · exact reportNow_journaled _ _
  · exact reportNow_journaled _ _
  · exact (reportNow_journaled _ _).trans (reportNow_journaled _ _)

theorem writeResolution_journaled (fs : List Found) (s : State) : Journaled s (writeResolution fs s) := by
  unfold writeResolution
  dsimp only
  generalize tallyOf fs = tally
  generalize unionAll fs = all
  generalize writeFlags all.depth all.loop s.xpe.dests = dests
  generalize List.finRange 64 = l
  refine .trans ?_ (foldl_journaled (fun x d => reportFlags_journaled s.tly.prevDepth s.tly.prevLoop all.depth all.loop x d) l _)
  exact .of_store rfl rfl

theorem resolve_journaled (i : FrameInputs) (s : State) : Journaled s (resolve i s) := by
  unfold resolve
  generalize findAll (carriers i.sample s.xpe.dests) = fs
  exact (writeResolution_journaled fs s).trans (.of_store (by simp) (by simp))

/-! ### The boundary -/

theorem opened_store (s : State) : (opened s).store = s.store := by simp [opened, State.setRtu]

theorem opened_ref (s : State) : (opened s).rtu.ref = s.rtu.ref := by simp [opened, State.setRtu, nextFrame]

theorem opened_csi (s : State) : (opened s).csi.copy = s.csi.copy ∧ (opened s).csi.mirror = s.csi.mirror := by simp [opened, State.setRtu]

/-- The state of the boundary that its settled map is declared in. -/
def settling (gpi : BitVec 16) (s : State) : State :=
  let w := closed gpi (compareCues (opened s))
  { w with xpe := { w.xpe with pingWait := true } }

theorem scalerBoundary_down (gpi : BitVec 16) {s : State} (hlink : s.xpe.link = .down) (hrun : s.runState ≠ .halted) :
    scalerBoundary gpi s = declareSettled (settling gpi s).rtu.frame (settling gpi s) := by
  have ho := opened_leaves s
  have hc := closed_leaves gpi (compareCues (opened s))
  have hdown : (closed gpi (compareCues (opened s))).xpe.link = .down := by
    rw [hc.xpe, compareCues_router, ho.xpe]
    exact hlink
  have hrunning : ¬ (closed gpi (compareCues (opened s))).runState = .halted := by
    rw [hc.runState, (compareCues_frame _).2.1, ho.runState]
    exact hrun
  rw [scalerBoundary_stages, settling]
  generalize closed gpi (compareCues (opened s)) = w at *
  unfold xpeBoundary
  rw [hdown]
  dsimp only
  rw [if_neg hrunning]

theorem talkSend_link (s : State) : (talkSend s).tke.link = s.tke.link := by
  unfold talkSend
  split
  · rfl
  · split <;> rfl

theorem evaluateSelectors_link (s : State) : (evaluateSelectors s).tke.link = s.tke.link := talkSend_link _

theorem tkeBoundary_link (s : State) : (tkeBoundary s).tke.link = s.tke.link := by
  unfold tkeBoundary talkRetry
  split <;> rfl

/-- What stands before a boundary's settled map is declared. -/
structure Settling (gpi : BitVec 16) (s u : State) : Prop where
  frame  : u.rtu.frame = s.rtu.frame + 1
  ref    : u.rtu.ref = s.rtu.ref
  inputs : u.tly.inputs = some { frame := s.rtu.frame + 1, sample := gpi, snapshot := s.tke.incoming }
  fabric : u.xpe.link = s.xpe.link
  talk   : u.tke.link = s.tke.link
  copy   : u.csi.copy = s.csi.copy
  mirror : u.csi.mirror = s.csi.mirror
  wf     : s.store.wf = true → u.store.wf = true
  told   : Orderly s → Journaled s u

theorem settling_settling (gpi : BitVec 16) (s : State) : Settling gpi s (settling gpi s) := by
  have ho := opened_leaves s
  have hopened : Keeps s (opened s) := (rtu_kept { s.rtu with now := _, count := 0 } rfl rfl rfl id).trans
    (((examineKeys_kept _).trans (endFlashes_kept _)).trans (nextFrame_kept _))
  have htalk : (opened s).tke.link = s.tke.link := by
    rw [opened, (nextFrame_frame _).2.2.2.2.1, (endFlashes_frame _).2.2.2.2.2.1, examineKeys_tke]
    rfl
  obtain ⟨hcopy, hmirror⟩ := opened_csi s
  have hstore := opened_store s
  have href := opened_ref s
  unfold settling
  dsimp only
  generalize opened s = x at *
  have horderly : Orderly s → Orderly x := by
    rw [Orderly, Orderly, ho.xpe]
    exact id
  have hclock := FrameTime.compareCues_clock x
  have hcompared := compareCues_kept x
  have hframe : (compareCues x).rtu.frame = s.rtu.frame + 1 := (congrArg Rtu.frame hclock :).trans ho.frame
  have href' : (compareCues x).rtu.ref = s.rtu.ref := (congrArg Rtu.ref hclock :).trans href
  have hfabric : (compareCues x).xpe.link = s.xpe.link := by rw [compareCues_router, ho.xpe]
  have htke : (compareCues x).tke = x.tke := (compareCues_frame x).2.2.2.1
  have hcsi : (compareCues x).csi.copy = s.csi.copy ∧ (compareCues x).csi.mirror = s.csi.mirror := by simp [hcopy, hmirror]
  have htold : Orderly s → Journaled s (compareCues x) := fun h => (Journaled.of_store hcopy hstore).trans (compareCues_journaled (horderly h))
  generalize compareCues x = v at *
  have hc := closed_leaves gpi v
  have hclosed : Keeps v (closed gpi v) :=
    (((sampleInputs_kept gpi v).trans (tkeBoundary_kept _)).trans (tickTimers_kept _)).trans (probeDue_kept _)
  have hlink : (closed gpi v).tke.link = v.tke.link := by
    rw [closed, (probeDue_frame _).2.2.2.2.2.1, (tickTimers_frame _).2.2.2.2.2.1, tkeBoundary_link, (sampleInputs_frame gpi v).2.2.2.2.1]
  have hrest : (closed gpi v).csi.copy = v.csi.copy ∧ (closed gpi v).csi.mirror = v.csi.mirror := by simp [closed]
  have hsampled : Journaled v (closed gpi v) := (sampleInputs_journaled gpi v).trans (.of_store (by simp [closed]) (by simp [closed]))
  generalize closed gpi v = w at *
  obtain ⟨hcopy', hmirror'⟩ := hcsi
  exact {
    frame := by rw [← hframe, ← hc.rtu]
    ref := by rw [← href', ← hc.rtu]
    inputs := by rw [← hframe, ← ho.incoming, ← htke, ← hc.inputs]
    fabric := by rw [← hfabric, ← hc.xpe]
    talk := by rw [← htalk, ← htke, ← hlink]
    copy := hrest.1.trans hcopy'
    mirror := hrest.2.trans hmirror'
    wf := fun h => hclosed.store (hcompared.store (hopened.store h))
    told := fun h => ((htold h).trans hsampled).trans (.of_store rfl rfl) }

/-- What stands when a boundary's resolution is complete. -/
structure Settled (s v : State) : Prop where
  ref    : v.rtu.ref = s.rtu.ref
  fabric : v.xpe.link = s.xpe.link
  talk   : v.tke.link = s.tke.link
  copy   : v.csi.copy = s.csi.copy
  mirror : v.csi.mirror = s.csi.mirror
  wf     : s.store.wf = true → v.store.wf = true
  told   : Orderly s → Journaled s v

theorem resolve_link (i : FrameInputs) (s : State) : (resolve i s).xpe.link = s.xpe.link := by
  unfold resolve
  rw [(deriveLamps_frame _).2.2.2.1, (driveLamps_frame _ _ _).2.2.2.1, Links.writeResolution_xpe]

/-- A boundary with a DOWN link outside HALTED ends by telling of its frame's resolution. -/
theorem downBoundary_resolution (gpi : BitVec 16) {s : State} (hlink : s.xpe.link = .down) (hrun : s.runState ≠ .halted) :
    ∃ v, exec (.frameBoundary gpi) s = .next (onResolution (s.rtu.frame + 1) v.rtu.label v) ∧ Settled s v := by
  have hexec : exec (.frameBoundary gpi) s = .next (scalerBoundary gpi s) := rfl
  have hu := settling_settling gpi s
  rw [hexec, scalerBoundary_down gpi hlink hrun]
  generalize settling gpi s = u at hu ⊢
  rw [declareSettled_resolves hu.inputs hu.frame.symm, hu.frame]
  obtain ⟨-, hxpe, hcsi, hstore, hrtu⟩ := ready_leaves u
  have htalk : (ready u).tke.link = u.tke.link := by rw [ready, (deriveLamps_frame _).2.2.2.2.2.1, evaluateSelectors_link]
  have hready : Keeps u (ready u) := (Kept.evaluateSelectors_kept u).trans (Kept.deriveLamps_kept _)
  generalize ready u = x at *
  generalize hi : ({ frame := s.rtu.frame + 1, sample := gpi, snapshot := s.tke.incoming } : FrameInputs) = i
  have hrest := resolve_frame i x
  have hlink' := resolve_link i x
  have hresolved := Kept.resolve_kept i x
  have htold := resolve_journaled i x
  generalize resolve i x = v at *
  obtain ⟨-, -, vrtu, vtke, -, -, -, vcopy, -, -, vmirror⟩ := hrest
  refine ⟨v, by rw [vrtu, hrtu], ?_⟩
  exact {
    ref := by rw [vrtu, hrtu, hu.ref]
    fabric := by rw [hlink', hxpe, hu.fabric]
    talk := by rw [vtke, htalk, hu.talk]
    copy := by rw [vcopy, hcsi, hu.copy]
    mirror := by rw [vmirror, hcsi, hu.mirror]
    wf := fun h => hresolved.store (hready.store (hu.wf h))
    told := fun h => ((hu.told h).trans (.of_store (by rw [hcsi]) hstore)).trans htold }

end Sys2Proof.Proofs.DownBoundaries
end

