-- ==== Sys2Proof/Proofs/Freezes.lean ====
section
/-! The freeze of the mirrors and the rewrites (O32). -/

namespace Sys2Proof.Proofs.Freezes

open Sys2Proof Sys2Proof.Machine
open Sys2Proof.Proofs.Registers (freezeWrite_next)
open Sys2Proof.Proofs.Strips (storeRead_writes_away)
open Sys2Proof.Proofs.Rewrites
open Sys2Proof.Proofs.DownBoundaries

/-! ### The FREEZE bit -/

section
variable {s : State} (freeze : Bool) (mask : BitVec 5)

theorem freezeBit_held (h : s.control.freeze = freeze) : setFreezeBit freeze (setMask mask s) = { s with control := { s.control with mask := mask } } :=
  if_pos h

theorem freezeBit_frozen (h : s.control.freeze = false) (hlive : s.csi.mirror.freeze = .live) (hwriting : s.csi.mirror.writing = none) :
    setFreezeBit true (setMask mask s) = { s with
      control := { s.control with freeze := true, mask := mask }
      csi := { s.csi with notice := s.csi.notice ||| 16, mirror := { s.csi.mirror with freeze := .frozen, waiting := none } } } := by
  simp [setFreezeBit, setMask, h, freezeMirrors, hlive, hwriting, becomeFrozen, raise, Notice.mask]

theorem freezeBit_freezing (h : s.control.freeze = false) (hlive : s.csi.mirror.freeze = .live) (hwriting : s.csi.mirror.writing ≠ none) :
    setFreezeBit true (setMask mask s) = { s with
      control := { s.control with freeze := true, mask := mask }
      csi := { s.csi with mirror := { s.csi.mirror with freeze := .freezing, waiting := none } } } := by
  simp [setFreezeBit, setMask, h, freezeMirrors, hlive, hwriting, becomeFreezing]

theorem freezeBit_thawed (h : s.control.freeze = true) : setFreezeBit false (setMask mask s) = { s with
      control := { s.control with freeze := false, mask := mask }
      csi := { s.csi with mirror := { s.csi.mirror with freeze := .live, complete := true } } } := by
  simp [setFreezeBit, setMask, h, thawMirrors]

end

/-! ### The end of a rewrite -/

theorem le32_count (n : BitVec 32) : le32 n.toNat = (List.range 4).map fun i => n.extractLsb' (8 * i) 8 := by
  rw [Journal.le32_frame]
  rfl

/-- The store behind the closing count of a rewrite at `base`. -/
def closedStore (base : Nat) (s : State) : Memory := storeWrites s.store (base + 0x1C) (le32 s.csi.mirror.count.toNat)

theorem closedStore_away {base x : Nat} (s : State) (hx : x < base + 28 ∨ base + 32 ≤ x) : storeRead (closedStore base s) x = storeRead s.store x :=
  storeRead_writes_away (le32 s.csi.mirror.count.toNat) _ _ hx

/-- No rewrite is in progress, and none waits. -/
def rested (base : Nat) (s : State) : State :=
  { s with store := closedStore base s, csi := { s.csi with mirror := { s.csi.mirror with writing := none, waiting := none } } }

section
variable {s : State} {base : Nat} (hw : s.csi.mirror.writing = some base)
include hw

theorem endRewrite_freezing (h : s.csi.mirror.freeze = .freezing) : endRewrite s = { s with
    store := closedStore base s
    csi := { s.csi with notice := s.csi.notice ||| 16, mirror := { s.csi.mirror with writing := none, freeze := .frozen, waiting := none } } } := by
  simp [endRewrite, hw, h, becomeFrozen, raise, Notice.mask, closedStore]

theorem endRewrite_quiet (h : s.csi.mirror.freeze = .frozen ∨ (s.csi.mirror.freeze = .live ∧ s.csi.mirror.waiting = none)) : endRewrite s = { s with
    store := closedStore base s
    csi := { s.csi with mirror := { s.csi.mirror with writing := none } } } := by
  rcases h with h | ⟨h, hwait⟩
  · simp [endRewrite, hw, h, closedStore]
  · simp only [endRewrite, hw, h, startWaiting, hwait, closedStore]
    cases s.csi.copy <;> rfl

theorem endRewrite_waiting {c : AnchorCopy} {f : FrameIndex} {l : Label} (h : s.csi.mirror.freeze = .live) (hwait : s.csi.mirror.waiting = some (f, l))
    (hcopy : s.csi.copy = some c) : endRewrite s = startRewrite c f l (rested base s) := by
  simp [endRewrite, hw, h, startWaiting, hwait, hcopy, rested, closedStore]

end

theorem rested_picture (base : Nat) (s : State) : SamePicture s (rested base s) := ⟨rfl, rfl, rfl, rfl⟩

theorem rewritten_picture (c : AnchorCopy) (f : FrameIndex) (l : Label) (s : State) : SamePicture (startRewrite c f l s) s := ⟨rfl, rfl, rfl, rfl⟩

/-- The end of a resolution, by the state of the mirrors. -/
theorem onResolution_idle {s : State} (f : FrameIndex) (l : Label) (h : s.csi.copy = none ∨ s.csi.mirror.freeze ≠ .live) : onResolution f l s = s := by
  unfold onResolution
  split
  · rfl
  · next c hc => exact if_neg (h.resolve_left fun hn => Option.some_ne_none c (hc.symm.trans hn))

theorem onResolution_waits {s : State} (f : FrameIndex) (l : Label) {c : AnchorCopy} {b : Nat} (hc : s.csi.copy = some c) (hlive : s.csi.mirror.freeze = .live)
    (hw : s.csi.mirror.writing = some b) :
    onResolution f l s = { s with csi := { s.csi with mirror := { s.csi.mirror with waiting := some (f, l) } } } := by
  simp [onResolution, hc, hlive, hw]

theorem onResolution_starts {s : State} (f : FrameIndex) (l : Label) {c : AnchorCopy} (hc : s.csi.copy = some c) (hlive : s.csi.mirror.freeze = .live)
    (hw : s.csi.mirror.writing = none) : onResolution f l s = startRewrite c f l s := by
  simp [onResolution, hc, hlive, hw]

/-- Settles O32: the FREEZE bit and the end of a rewrite by the state of the mirrors, and a rewrite by what it writes. -/
theorem freezeStopsMirrors : Obligations.FreezeStopsMirrors := by
  unfold Obligations.FreezeStopsMirrors
  refine ⟨fun pre mask s hpre => ⟨fun hbit hlive hw => ?_, fun hbit hlive hw => ?_, fun hbit => ?_, fun hbit => ?_, fun hbit => ?_⟩,
    fun s base hw => ?_, fun s hw => ?_, fun gpi s hlink hrun => ?_⟩
  · exact (freezeWrite_next hpre true mask s).trans (congrArg _ (freezeBit_frozen mask (s := s.withWrites pre) hbit hlive hw))
  · exact (freezeWrite_next hpre true mask s).trans (congrArg _ (freezeBit_freezing mask (s := s.withWrites pre) hbit hlive hw))
  · exact (freezeWrite_next hpre true mask s).trans (congrArg _ (freezeBit_held true mask (s := s.withWrites pre) hbit))
  · exact (freezeWrite_next hpre false mask s).trans (congrArg _ (freezeBit_thawed mask (s := s.withWrites pre) hbit))
  · exact (freezeWrite_next hpre false mask s).trans (congrArg _ (freezeBit_held false mask (s := s.withWrites pre) hbit))
  · intro m
    have hm : m = closedStore base s := by rw [closedStore, le32_count]
    have hexec : exec .mirrorRewriteEnd s = .next (endRewrite s) := rfl
    rw [hm, hexec]
    refine ⟨fun h => by rw [endRewrite_freezing hw h], fun h => by rw [endRewrite_quiet hw h], fun c f l hlive hwait hcopy => ?_⟩
    refine ⟨startRewrite c f l (rested base s), by rw [endRewrite_waiting hw hlive hwait hcopy], rfl, rfl, rfl, rfl, hlive,
      ((rested_picture base s).entries _).symm, rfl, rfl, rfl, rfl, rfl, rfl, fun hwf hbase hfits => ?_⟩
    have hwf' : (rested base s).store.wf = true := storeWrites_wf _ _ _ hwf
    have hp := rested_picture base s
    refine ⟨startRewrite_heads hwf' hfits, fun hcomplete => startRewrite_complete hwf' hfits hcomplete hp,
      fun w hcomplete hwritten => startRewrite_incomplete hwf' hfits hcomplete hwritten hp fun _ _ _ => rfl, fun hcomplete hwritten x hx hc => ?_,
      fun x hx hc => ?_⟩
    · exact (startRewrite_unchanged (s := rested base s) hcomplete hwritten hp hc).trans (closedStore_away s hx)
    · exact (startRewrite_outside c f l (rested base s) hc).trans (closedStore_away s hx)
  · have hexec : exec .mirrorRewriteEnd s = .next (endRewrite s) := rfl
    rw [hexec, endRewrite, hw]
  · obtain ⟨v, hexec, hv⟩ := downBoundary_resolution gpi hlink hrun
    refine ⟨_, hexec, fun h => ?_, fun c hc hlive => ?_⟩
    · rw [onResolution_idle _ _ (by rw [hv.copy, hv.mirror]; exact h), hv.mirror]
    · have hc' : v.csi.copy = some c := hv.copy.trans hc
      have hlive' : v.csi.mirror.freeze = .live := by rw [hv.mirror]; exact hlive
      refine ⟨fun b hb => ?_, fun hidle => ?_⟩
      · rw [onResolution_waits _ _ hc' hlive' (by rw [hv.mirror]; exact hb), hv.mirror]
      · rw [onResolution_starts _ _ hc' hlive' (by rw [hv.mirror]; exact hidle)]
        have hp := rewritten_picture c (s.rtu.frame + 1) v.rtu.label v
        refine ⟨rfl, by rw [← hv.mirror]; rfl, by rw [← hv.mirror]; rfl, rfl, hlive', (hp.entries _).symm, fun hwf hfits => ?_⟩
        have hwf' := hv.wf hwf
        obtain ⟨hcount, hframe, hlabel, href, hfabric, htalk⟩ := startRewrite_heads (f := s.rtu.frame + 1) (l := v.rtu.label) hwf' hfits
        rw [hv.mirror] at hcount
        rw [hv.ref] at href
        rw [hv.fabric, hlink] at hfabric
        rw [hv.talk] at htalk
        refine ⟨⟨hcount, hframe, hlabel, href, hfabric, htalk⟩, fun hcomplete => ?_, fun w hcomplete hwritten hcues hj ha => ?_⟩
        · exact startRewrite_complete hwf' hfits (by rw [hv.mirror]; exact hcomplete) hp
        · exact startRewrite_incomplete hwf' hfits (by rw [hv.mirror]; exact hcomplete) (by rw [hv.mirror]; exact hwritten) hp fun a hlow hhigh =>
            (hv.told hcues).reads c hc a ⟨by omega, by omega⟩

end Sys2Proof.Proofs.Freezes
end

