-- ==== Sys2Proof/Proofs/Loads.lean ====
section
/-! The load of the armed set: what the walk of the queue arms, keeps and removes (R53 to R55). -/

namespace Sys2Proof.Proofs.Loads

open Sys2Proof Sys2Proof.Machine
open Sys2Proof.Proofs.Journal (journal foldl_journal report_journal)
open Sys2Proof.Proofs.Orders (tellOwners tellOwners_eq)

/-! ### The walk -/

section
variable (allowed : TakeUnit → Bool) (k : FrameIndex)

/-- The units not due stay. -/
def staying (us : List TakeUnit) : List TakeUnit := us.filter fun u => !dueFor k u

/-- The due units that protection allows. -/
def passing (us : List TakeUnit) : List TakeUnit := us.filter fun u => dueFor k u && allowed u

/-- The due units that protection stops. -/
def stopping (us : List TakeUnit) : List TakeUnit := us.filter fun u => dueFor k u && !allowed u

/-- The entries that a walk arms where all fit. -/
def arming (us : List TakeUnit) : List ArmedEntry := (passing allowed k us).flatMap (armedEntries k)

/-- The entries of the units that pass are as many as the walk arms. -/
theorem arming_length (us : List TakeUnit) : (arming allowed k us).length = ((passing allowed k us).flatMap fun u => u.entries).length := by
  simp [arming, armedEntries]

variable {allowed k} {u : TakeUnit} (us : List TakeUnit)

theorem planLoad_early (h : dueFor k u = false) (used : Nat) : planLoad allowed k used (u :: us) =
    { planLoad allowed k used us with kept := u :: (planLoad allowed k used us).kept } := by
  rw [planLoad, if_pos h]

theorem planLoad_stopped (h : dueFor k u = true) (hp : allowed u = false) (used : Nat) : planLoad allowed k used (u :: us) =
    { planLoad allowed k used us with removed := u :: (planLoad allowed k used us).removed } := by
  rw [planLoad, if_neg (by simp [h]), if_pos hp]

theorem planLoad_fits (h : dueFor k u = true) (hp : allowed u = true) {used : Nat} (hfits : used + u.entries.length ≤ 48) :
    planLoad allowed k used (u :: us) = { planLoad allowed k (used + u.entries.length) us with
      armed := armedEntries k u ++ (planLoad allowed k (used + u.entries.length) us).armed } := by
  rw [planLoad, if_neg (by simp [h]), if_neg (by simp [hp]), if_pos hfits]

theorem planLoad_full (h : dueFor k u = true) (hp : allowed u = true) {used : Nat} (hfull : 48 < used + u.entries.length) :
    planLoad allowed k used (u :: us) = { kept := u :: us, armed := [], removed := [] } := by
  rw [planLoad, if_neg (by simp [h]), if_neg (by simp [hp]), if_neg (by omega)]

/-- The walk of a queue whose first part fits goes on behind it. -/
theorem planLoad_append (rest : List TakeUnit) : ∀ (before : List TakeUnit) (used : Nat), used + (arming allowed k before).length ≤ 48 →
    planLoad allowed k used (before ++ rest) =
      { kept := staying k before ++ (planLoad allowed k (used + (arming allowed k before).length) rest).kept
        armed := arming allowed k before ++ (planLoad allowed k (used + (arming allowed k before).length) rest).armed
        removed := stopping allowed k before ++ (planLoad allowed k (used + (arming allowed k before).length) rest).removed }
  | [], used, _ => rfl
  | u :: before, used, hfits => by
    rw [List.cons_append]
    cases hdue : dueFor k u with
    | false =>
      have harming : arming allowed k (u :: before) = arming allowed k before := by simp [arming, passing, hdue]
      rw [harming] at hfits ⊢
      rw [planLoad_early _ hdue, planLoad_append rest before used hfits]
      simp [staying, stopping, hdue]
    | true =>
      cases hp : allowed u with
      | false =>
        have harming : arming allowed k (u :: before) = arming allowed k before := by simp [arming, passing, hdue, hp]
        rw [harming] at hfits ⊢
        rw [planLoad_stopped _ hdue hp, planLoad_append rest before used hfits]
        simp [staying, stopping, hdue, hp]
      | true =>
        have harming : arming allowed k (u :: before) = armedEntries k u ++ arming allowed k before := by simp [arming, passing, hdue, hp]
        have hlen : (armedEntries k u).length = u.entries.length := by simp [armedEntries]
        rw [harming, List.length_append, hlen, ← Nat.add_assoc] at hfits ⊢
        rw [planLoad_fits _ hdue hp (by omega), planLoad_append rest before _ hfits]
        simp [staying, stopping, hdue, hp]

/-- Where all fit the walk takes the whole queue. -/
theorem planLoad_whole {us : List TakeUnit} (h : (arming allowed k us).length ≤ 48) :
    planLoad allowed k 0 us = { kept := staying k us, armed := arming allowed k us, removed := stopping allowed k us } := by
  have hwhole := planLoad_append (allowed := allowed) (k := k) [] us 0 (by omega)
  simpa [planLoad] using hwhole

/-- What stays is in the order of the queue. -/
theorem planLoad_kept : ∀ (us : List TakeUnit) (used : Nat), (planLoad allowed k used us).kept.Sublist us
  | [], _ => .slnil
  | u :: us, used => by
    rw [planLoad]
    split
    · exact (planLoad_kept us used).cons_cons u
    · split
      · exact (planLoad_kept us used).cons u
      · split
        · exact (planLoad_kept us _).cons u
        · exact .refl _

/-- What is armed is an entry of a due unit that protection allows. -/
theorem planLoad_armed {a : ArmedEntry} : ∀ (us : List TakeUnit) (used : Nat), a ∈ (planLoad allowed k used us).armed →
    ∃ u ∈ us, dueFor k u = true ∧ allowed u = true ∧ a ∈ armedEntries k u
  | [], _, h => absurd h List.not_mem_nil
  | u :: us, used, h => by
    have hrest : ∀ n, a ∈ (planLoad allowed k n us).armed → ∃ v ∈ u :: us, dueFor k v = true ∧ allowed v = true ∧ a ∈ armedEntries k v := by
      intro n hn
      obtain ⟨v, hv, hdue, hp, ha⟩ := planLoad_armed us n hn
      exact ⟨v, List.mem_cons_of_mem _ hv, hdue, hp, ha⟩
    rw [planLoad] at h
    split at h
    · exact hrest _ h
    · next hdue =>
      split at h
      · exact hrest _ h
      · next hp =>
        split at h
        · rcases List.mem_append.1 h with h | h
          · exact ⟨u, List.mem_cons_self .., by simpa using hdue, by simpa using hp, h⟩
          · exact hrest _ h
        · exact absurd h List.not_mem_nil

theorem mem_armedEntries {a : ArmedEntry} : a ∈ armedEntries k u ↔
    ∃ x ∈ u.entries, a = { xpt := x, requester := u.requester, cause := u.cause, salvo := u.salvo, late := lateCount k u } := by
  simp [armedEntries, eq_comm]

end

/-! ### What a load leaves -/

section
variable {k : FrameIndex} {s : State}

theorem load_idle (h : s.runState ≠ .running ∨ s.xpe.sweep ≠ none) : load k s = s := by
  rw [load, if_neg]
  rintro ⟨hrun, -, hsweep, -⟩
  exact h.elim (fun hn => hn hrun) fun hn => hn hsweep

/-- The plan of a load. -/
def plan (k : FrameIndex) (s : State) : LoadPlan := planLoad s.unitAllowed k 0 s.xpe.queue

theorem load_xpe (hrun : s.runState = .running) (hlink : s.xpe.link = .up) (hsweep : s.xpe.sweep = none) (harmed : s.xpe.armed = []) :
    (load k s).xpe = { s.xpe with
      queue := (plan k s).kept, armed := (plan k s).armed, ackWait := s.xpe.ackWait || !(plan k s).armed.isEmpty } := by
  rw [load, if_pos ⟨hrun, hlink, hsweep, harmed⟩]
  exact foldl_keeps State.xpe (fun s u => unitDone .protectFailed u s) (fun s u => by simp) _ _

/-- The entries of units, each with its requester's owner. -/
def owned (us : List TakeUnit) : List (Owner × Crosspoint) := us.flatMap fun u => u.entries.map fun x => (u.requester.owner, x)

theorem unitDone_tells (o : TakeOutcome) (u : TakeUnit) (s : State) :
    unitDone o u s = tellOwners o s.rtu.frame s.rtu.label (u.entries.map fun x => (u.requester.owner, x)) s := by
  have hmap := tellOwners_eq o (u.entries.map fun x => (u, x)) s
  rw [List.foldl_map, List.map_map] at hmap
  exact hmap

theorem unitsDone_tell (o : TakeOutcome) (us : List TakeUnit) (s : State) :
    us.foldl (fun s u => unitDone o u s) s = tellOwners o s.rtu.frame s.rtu.label (owned us) s := by
  induction us generalizing s with
  | nil => rfl
  | cons u us ih =>
    have hcons : owned (u :: us) = (u.entries.map fun x => (u.requester.owner, x)) ++ owned us := List.flatMap_cons
    rw [List.foldl_cons, ih, (unitDone_frame o u s).2.2.1, unitDone_tells, hcons]
    exact List.foldl_append.symm

theorem tellOwners_journal (o : TakeOutcome) (f : FrameIndex) (l : Label) (out : List (Owner × Crosspoint)) {u v : State} (h : journal u = journal v) :
    journal (tellOwners o f l out u) = journal (tellOwners o f l out v) := by
  refine foldl_journal h (fun x y e hxy => ?_) out
  cases e.1 with
  | panel p => exact hxy
  | app tag => exact report_journal hxy _ _ _

/-- A load reports the units that protection stops. -/
theorem load_journal (hrun : s.runState = .running) (hlink : s.xpe.link = .up) (hsweep : s.xpe.sweep = none) (harmed : s.xpe.armed = []) :
    journal (load k s) = journal (tellOwners .protectFailed s.rtu.frame s.rtu.label (owned (plan k s).removed) s) := by
  rw [load, if_pos ⟨hrun, hlink, hsweep, harmed⟩]
  dsimp only
  rw [unitsDone_tell]
  exact tellOwners_journal _ _ _ _ rfl

end

end Sys2Proof.Proofs.Loads
end

