-- ==== Sys2Proof/Proofs/SwitchReports.lean ====
section
/-! A switch report: the armed takes it settles, and the load behind it (O50). -/

namespace Sys2Proof.Proofs.SwitchReports

open Sys2Proof Sys2Proof.Machine
open Sys2Proof.Proofs.Journal (journal report_journal)
open Sys2Proof.Proofs.Links (setMapEntry_xpe setMapEntry_journal dest_of_xpe tellArmed takeDone_armed)

/-! ### One armed entry -/

/-- The first line of a report for a crosspoint. -/
def lineOf (lines : List ReportLine) (x : Crosspoint) : Option ReportLine :=
  lines.find? fun y => decide (y.dest.toNat = x.dest.1 ∧ y.level.toNat = x.level.num)

theorem lineFor_lineOf (lines : List ReportLine) (x : Crosspoint) : lineFor lines x.dest x.level = lineOf lines x := by
  simp only [lineFor, lineOf, Bool.decide_and]

/-- The map entry that a report leaves for an armed entry. -/
def settledEntry (lines : List ReportLine) (a : ArmedEntry) (old : MapEntry) : MapEntry :=
  match lineOf lines a.xpt with
  | none => old
  | some ln =>
    if ln.fault = true then old
    else if sourceOf ln.number.toNat = some a.xpt.source then ⟨a.xpt.source, .known⟩
    else ⟨(sourceOf ln.number.toNat).getD old.source, .mismatch⟩

/-- The reports of one armed entry, made into `v`, by the source `old` that its map entry had. -/
def dealt (lines : List ReportLine) (f : FrameIndex) (l : Label) (old : Source) (a : ArmedEntry) (v : State) : State :=
  let switched := fun (x : Source) => if x = old then v else report (.xpt a.xpt.dest a.xpt.level old x a.cause) f l v
  match lineOf lines a.xpt with
  | none => tellArmed .fabricFault f l v a
  | some ln =>
    if ln.fault = true then tellArmed .fabricFault f l v a
    else if sourceOf ln.number.toNat = some a.xpt.source then tellArmed .applied f l (switched a.xpt.source) a
    else tellArmed .mismatch f l (report (.mismatch a.xpt.dest a.xpt.level (some a.xpt.source) ln.number) f l
      (switched ((sourceOf ln.number.toNat).getD old))) a

theorem setEntry_self (d : Destination) (l : Level) : d.setEntry l (d.entry l) = d := by cases l <;> rfl

theorem setDest_self (s : State) (d : Fin 64) : (s.setDest d (s.dest d)).xpe = s.xpe := by
  have hdests : upd s.xpe.dests d (s.dest d) = s.xpe.dests := by simp [upd, State.dest]
  simp only [State.setDest, hdests]

/-- An armed entry that is dealt with changes its own map entry alone. -/
theorem settleArmed_xpe (lines : List ReportLine) (a : ArmedEntry) (s : State) : (settleArmed lines a s).xpe =
    (s.setDest a.xpt.dest ((s.dest a.xpt.dest).setEntry a.xpt.level (settledEntry lines a ((s.dest a.xpt.dest).entry a.xpt.level)))).xpe := by
  unfold settleArmed settledEntry
  rw [lineFor_lineOf]
  cases lineOf lines a.xpt with
  | none => simp only [setEntry_self, setDest_self, takeDone_frame]
  | some ln =>
    dsimp only
    by_cases hfault : ln.fault = true
    · simp only [if_pos hfault, setEntry_self, setDest_self, takeDone_frame]
    · rw [if_neg hfault, if_neg hfault]
      split
      · simp [setMapEntry_xpe]
      · simp [mapMismatch, setMapEntry_xpe]

theorem tellArmed_journal (o : TakeOutcome) (f : FrameIndex) (l : Label) (a : ArmedEntry) {u v : State} (h : journal u = journal v) :
    journal (tellArmed o f l u a) = journal (tellArmed o f l v a) := by
  unfold tellArmed
  cases a.requester.owner with
  | panel p => exact h
  | app tag => exact report_journal h _ _ _

/-- An armed entry makes its reports. -/
theorem settleArmed_journal (lines : List ReportLine) (a : ArmedEntry) (s : State) : journal (settleArmed lines a s) =
    journal (dealt lines s.rtu.frame s.rtu.label ((s.dest a.xpt.dest).entry a.xpt.level).source a s) := by
  unfold settleArmed dealt
  rw [lineFor_lineOf]
  cases lineOf lines a.xpt with
  | none => rw [takeDone_armed]
  | some ln =>
    dsimp only
    by_cases hfault : ln.fault = true
    · rw [if_pos hfault, if_pos hfault, takeDone_armed]
    · rw [if_neg hfault, if_neg hfault]
      split
      · rw [takeDone_armed, (setMapEntry_frame _ _ _ _ _).2.2.1]
        exact tellArmed_journal _ _ _ _ (setMapEntry_journal _ _ _ _ s)
      · rw [takeDone_armed, (mapMismatch_frame _ _ _ _ _ _).2.2.1, mapMismatch, reportNow, (setMapEntry_frame _ _ _ _ _).2.2.1]
        exact tellArmed_journal _ _ _ _ (report_journal (setMapEntry_journal _ _ _ _ s) _ _ _)

theorem dealt_journal (lines : List ReportLine) (f : FrameIndex) (l : Label) (old : Source) (a : ArmedEntry) {u v : State} (h : journal u = journal v) :
    journal (dealt lines f l old a u) = journal (dealt lines f l old a v) := by
  have hswitched : ∀ x : Source, journal (if x = old then u else report (.xpt a.xpt.dest a.xpt.level old x a.cause) f l u) =
      journal (if x = old then v else report (.xpt a.xpt.dest a.xpt.level old x a.cause) f l v) := by
    intro x
    split
    · exact h
    · exact report_journal h _ _ _
  unfold dealt
  dsimp only
  cases lineOf lines a.xpt with
  | none => exact tellArmed_journal _ _ _ _ h
  | some ln =>
    dsimp only
    split
    · exact tellArmed_journal _ _ _ _ h
    · split
      · exact tellArmed_journal _ _ _ _ (hswitched _)
      · exact tellArmed_journal _ _ _ _ (report_journal (hswitched _) _ _ _)

/-! ### The armed set -/

section
variable {lines : List ReportLine} {s : State}

theorem settleArmed_dest (lines : List ReportLine) (a : ArmedEntry) (s : State) (d : Fin 64) : (settleArmed lines a s).dest d =
    if a.xpt.dest = d then (s.dest d).setEntry a.xpt.level (settledEntry lines a ((s.dest d).entry a.xpt.level)) else s.dest d := by
  rw [dest_of_xpe (settleArmed_xpe lines a s), setDest_dest]
  split
  · next h => rw [h]
  · rfl

theorem settleArmed_entry (a : ArmedEntry) (s : State) (d : Fin 64) (m : Level) : ((settleArmed lines a s).dest d).entry m =
    if a.xpt.dest = d ∧ a.xpt.level = m then settledEntry lines a ((s.dest d).entry m) else (s.dest d).entry m := by
  rw [settleArmed_dest]
  by_cases hd : a.xpt.dest = d
  · rw [if_pos hd, setEntry_entry]
    by_cases hm : a.xpt.level = m
    · subst hm
      rw [if_pos rfl, if_pos ⟨hd, rfl⟩]
    · rw [if_neg hm, if_neg fun h => hm h.2]
  · rw [if_neg hd, if_neg fun h => hd h.1]

/-- The armed entries of a list are dealt with in its order. -/
def settleRun (lines : List ReportLine) (l : List ArmedEntry) (s : State) : State := l.foldl (fun s a => settleArmed lines a s) s

theorem settleRun_rest (l : List ArmedEntry) (s : State) : (settleRun lines l s).xpe = { s.xpe with dests := (settleRun lines l s).xpe.dests } := by
  have hrun : ({ (settleRun lines l s).xpe with dests := s.xpe.dests } : Xpe) = { s.xpe with dests := s.xpe.dests } :=
    foldl_keeps (fun x : State => ({ x.xpe with dests := s.xpe.dests } : Xpe)) _ (fun x a => by rw [settleArmed_xpe]; rfl) l s
  exact congrArg (fun y : Xpe => { y with dests := (settleRun lines l s).xpe.dests }) hrun

theorem settleRun_still (l : List ArmedEntry) (s : State) (d : Fin 64) :
    ((settleRun lines l s).dest d).protect = (s.dest d).protect ∧ ((settleRun lines l s).dest d).present = (s.dest d).present := by
  have hrun := foldl_keeps (fun x : State => ((x.dest d).protect, (x.dest d).present)) (fun s a => settleArmed lines a s) (fun x a => by
    rw [settleArmed_dest]
    split
    · cases a.xpt.level <;> rfl
    · rfl) l s
  exact Prod.mk.inj hrun

theorem settleRun_cons (a : ArmedEntry) (l : List ArmedEntry) (s : State) : settleRun lines (a :: l) s = settleRun lines l (settleArmed lines a s) := rfl

theorem settleRun_other {d : Fin 64} {m : Level} (l : List ArmedEntry) (s : State) (h : ∀ a ∈ l, a.xpt.dest ≠ d ∨ a.xpt.level ≠ m) :
    ((settleRun lines l s).dest d).entry m = (s.dest d).entry m := by
  induction l generalizing s with
  | nil => rfl
  | cons a l ih =>
    have ha : ¬ (a.xpt.dest = d ∧ a.xpt.level = m) := fun hx => (h a (List.mem_cons_self ..)).elim (fun hn => hn hx.1) fun hn => hn hx.2
    rw [settleRun_cons, ih _ fun b hb => h b (List.mem_cons_of_mem _ hb), settleArmed_entry, if_neg ha]

/-- No two entries of a list are for one destination level. -/
def Distinct (l : List ArmedEntry) : Prop := l.Pairwise fun a b => a.xpt.dest ≠ b.xpt.dest ∨ a.xpt.level ≠ b.xpt.level

theorem settleRun_entry {a : ArmedEntry} (l : List ArmedEntry) (s : State) (hd : Distinct l) (ha : a ∈ l) :
    ((settleRun lines l s).dest a.xpt.dest).entry a.xpt.level = settledEntry lines a ((s.dest a.xpt.dest).entry a.xpt.level) := by
  induction l generalizing s with
  | nil => exact absurd ha List.not_mem_nil
  | cons b l ih =>
    obtain ⟨hb, hl⟩ := List.pairwise_cons.1 hd
    rw [settleRun_cons]
    rcases List.mem_cons.1 ha with rfl | ha
    · rw [settleRun_other l _ fun c hc => (hb c hc).imp Ne.symm Ne.symm, settleArmed_entry, if_pos ⟨rfl, rfl⟩]
    · rw [ih _ hl ha, settleArmed_entry, if_neg fun hx => (hb a ha).elim (fun hn => hn hx.1) fun hn => hn hx.2]

/-- The reports of an armed set, by the map as it stood before the first of them. -/
theorem settleRun_journal (s : State) (l : List ArmedEntry) (u v : State) (hd : Distinct l) (hj : journal u = journal v) (hrtu : u.rtu = s.rtu)
    (hentry : ∀ a ∈ l, (u.dest a.xpt.dest).entry a.xpt.level = (s.dest a.xpt.dest).entry a.xpt.level) : journal (settleRun lines l u) =
      journal (l.foldl (fun v a => dealt lines s.rtu.frame s.rtu.label ((s.dest a.xpt.dest).entry a.xpt.level).source a v) v) := by
  induction l generalizing u v with
  | nil => exact hj
  | cons b l ih =>
    obtain ⟨hb, hl⟩ := List.pairwise_cons.1 hd
    have hold := hentry b (List.mem_cons_self ..)
    have hone := settleArmed_journal lines b u
    rw [hrtu, hold] at hone
    rw [settleRun_cons, List.foldl_cons]
    refine ih _ _ hl (hone.trans (dealt_journal _ _ _ _ _ hj)) (by rw [← hrtu]; simp) fun a ha => ?_
    rw [settleArmed_entry, if_neg fun hx => (hb a ha).elim (fun hn => hn hx.1) fun hn => hn hx.2]
    exact hentry a (List.mem_cons_of_mem _ ha)

end

end Sys2Proof.Proofs.SwitchReports
end

