-- ==== Sys2Proof/Proofs/SwitchStages.lean ====
section
/-! The stages of an awaited switch report, and what each leaves (O50). -/

namespace Sys2Proof.Proofs.SwitchReports

open Sys2Proof Sys2Proof.Machine
open Sys2Proof.Proofs.Journal (journal)
open Sys2Proof.Proofs.Kept (Keeps)
open Sys2Proof.Proofs.Links (SameRouter handOverMap_router)
open Sys2Proof.Proofs.Loads

/-! ### The armed set is dealt with -/

/-- What stands when every armed entry of an awaited report is dealt with. -/
def reported (lines : List ReportLine) (s : State) : State :=
  let w := settleRun lines s.xpe.armed s
  { w with xpe := { w.xpe with armed := [], reportWait := none } }

/-- The stages of an awaited report. -/
theorem receiveReport_stages {lines : List ReportLine} {s : State} {k : FrameIndex} (hwait : s.xpe.reportWait = some k) (hlink : s.xpe.link = .up)
    (hlen : lines.length ≤ 48) :
    receiveReport lines s = tellResolution k (load (k + 1) (handOverMap k (reported lines s))) := by
  have hawaited : s.awaitsReport lines = true := by simp [State.awaitsReport, hwait, hlink, hlen]
  unfold receiveReport
  rw [hwait]
  exact if_pos hawaited

/-- What the report's lines leave, before the map is handed over. -/
structure Reported (lines : List ReportLine) (s u : State) : Prop where
  control  : u.control = s.control
  runState : u.runState = s.runState
  rtu      : u.rtu = s.rtu
  tly      : u.tly = s.tly
  tke      : u.tke = s.tke
  pnc      : u.pnc = s.pnc
  xpe      : u.xpe = { s.xpe with dests := u.xpe.dests, armed := [], reportWait := none }
  copy     : u.csi.copy = s.csi.copy
  mirror   : u.csi.mirror = s.csi.mirror
  still    : ∀ d, (u.dest d).protect = (s.dest d).protect ∧ (u.dest d).present = (s.dest d).present
  other    : ∀ (d : Fin 64) (l : Level), (∀ a ∈ s.xpe.armed, a.xpt.dest ≠ d ∨ a.xpt.level ≠ l) → (u.dest d).entry l = (s.dest d).entry l
  entry    : Distinct s.xpe.armed → ∀ a ∈ s.xpe.armed,
    (u.dest a.xpt.dest).entry a.xpt.level = settledEntry lines a ((s.dest a.xpt.dest).entry a.xpt.level)
  told     : Distinct s.xpe.armed → journal u = journal (s.xpe.armed.foldl (fun v a =>
    dealt lines s.rtu.frame s.rtu.label ((s.dest a.xpt.dest).entry a.xpt.level).source a v) s)
  wf       : s.store.wf = true → u.store.wf = true

theorem settleRun_frame (lines : List ReportLine) (l : List ArmedEntry) (s : State) :
    (settleRun lines l s).control = s.control ∧ (settleRun lines l s).runState = s.runState ∧ (settleRun lines l s).rtu = s.rtu ∧
    (settleRun lines l s).tly = s.tly ∧ (settleRun lines l s).tke = s.tke ∧ (settleRun lines l s).pnc = s.pnc ∧
    (settleRun lines l s).csi.copy = s.csi.copy ∧ (settleRun lines l s).csi.mirror = s.csi.mirror := by
  have hrun := foldl_keeps (fun x : State => (x.control, x.runState, x.rtu, x.tly, x.tke, x.pnc, x.csi.copy, x.csi.mirror))
    (fun x a => settleArmed lines a x) (fun x a => by simp) l s
  simp only [Prod.mk.injEq] at hrun
  exact hrun

theorem reported_reported (lines : List ReportLine) (s : State) : Reported lines s (reported lines s) := by
  obtain ⟨hcontrol, hrun, hrtu, htly, htke, hpnc, hcopy, hmirror⟩ := settleRun_frame lines s.xpe.armed s
  have hrest := settleRun_rest (lines := lines) s.xpe.armed s
  have hstill := settleRun_still (lines := lines) s.xpe.armed s
  have hother : ∀ (d : Fin 64) (l : Level), _ := fun d l => settleRun_other (lines := lines) (d := d) (m := l) s.xpe.armed s
  have hentry : Distinct s.xpe.armed → ∀ a ∈ s.xpe.armed, _ := fun hd a ha => settleRun_entry (lines := lines) s.xpe.armed s hd ha
  have htold := fun hd => settleRun_journal (lines := lines) s s.xpe.armed s s hd rfl rfl fun _ _ => rfl
  have hkept : Keeps s (settleRun lines s.xpe.armed s) := Kept.foldl_keeps_invariants (fun x a => Kept.settleArmed_kept lines a x) _ s
  unfold reported
  dsimp only
  generalize settleRun lines s.xpe.armed s = w at *
  exact {
    control := hcontrol, runState := hrun, rtu := hrtu, tly := htly, tke := htke, pnc := hpnc, copy := hcopy, mirror := hmirror
    xpe := by rw [hrest]
    still := hstill, other := hother, entry := hentry, told := htold
    wf := fun h => hkept.store h }

/-! ### The settled map is handed over -/

/-- What handing the settled map over leaves. -/
structure Handed (k : FrameIndex) (u h : State) : Prop where
  control  : h.control = u.control
  runState : h.runState = u.runState
  rtu      : h.rtu = u.rtu
  inputs   : h.tly.inputs = u.tly.inputs
  level    : ∀ p, (h.panel p).level = (u.panel p).level
  router   : SameRouter h.xpe u.xpe
  ifbs     : ∀ i : Fin 8, h.tke.ifbs[i] = if u.tke.ifbs[i].port.isSome then { u.tke.ifbs[i] with selector := u.selectorOf u.tke.ifbs[i] } else u.tke.ifbs[i]
  copy     : h.csi.copy = u.csi.copy
  mirror   : ∀ i, u.tly.inputs = some i → i.frame = k → h.csi.mirror = u.csi.mirror
  wf       : u.store.wf = true → h.store.wf = true

theorem talkSend_ifbs (s : State) : (talkSend s).tke.ifbs = s.tke.ifbs := by
  unfold talkSend
  split
  · rfl
  · split <;> rfl

theorem evaluateSelectors_ifbs (s : State) (i : Fin 8) : (evaluateSelectors s).tke.ifbs[i] =
    if s.tke.ifbs[i].port.isSome then { s.tke.ifbs[i] with selector := s.selectorOf s.tke.ifbs[i] } else s.tke.ifbs[i] := by
  rw [evaluateSelectors, talkSend_ifbs]
  exact tabulate_get _ i

theorem handOverMap_handed (k : FrameIndex) (u : State) : Handed k u (handOverMap k u) := by
  have hkept : Boundaries.kept (handOverMap k u) = Boundaries.kept u := by
    rw [handOverMap, Boundaries.runResolution_kept, Boundaries.deriveLamps_kept, Boundaries.evaluateSelectors_kept]
  simp only [Boundaries.kept, Prod.mk.injEq] at hkept
  obtain ⟨-, hinputs, -, -, hstill⟩ := hkept
  have htke : (handOverMap k u).tke = (evaluateSelectors u).tke := by
    rw [handOverMap, (runResolution_frame _ _).2.2.2.1, (deriveLamps_frame _).2.2.2.2.2.1]
  have hwf : Keeps u (handOverMap k u) := Kept.handOverMap_kept k u
  have hmirror : ∀ i, u.tly.inputs = some i → i.frame = k → (handOverMap k u).csi.mirror = u.csi.mirror := by
    intro i hi hk
    rw [Resolutions.handOverMap_resolves hi hk, (resolve_frame _ _).2.2.2.2.2.2.2.2.2.2, (Resolutions.ready_leaves u).2.2.1]
  have hframe := handOverMap_frame k u
  have hrouter := handOverMap_router k u
  generalize handOverMap k u = h at *
  obtain ⟨hcontrol, hrun, hrtu, -, -, hcopy, -⟩ := hframe
  exact {
    control := hcontrol, runState := hrun, rtu := hrtu, inputs := hinputs, router := hrouter, copy := hcopy, mirror := hmirror
    level := fun p => (congrArg Panel.level (congrFun hstill p) : (h.panel p).still.level = (u.panel p).still.level)
    ifbs := fun i => by rw [htke]; exact evaluateSelectors_ifbs u i
    wf := hwf.store }

end Sys2Proof.Proofs.SwitchReports
end

