-- ==== Sys2Proof/Proofs/SwitchLoads.lean ====
section
/-! The load behind a switch report, and the settlement of O50. -/

namespace Sys2Proof.Proofs.SwitchReports

open Sys2Proof Sys2Proof.Machine
open Sys2Proof.Proofs.Journal (journal journal_eq)
open Sys2Proof.Proofs.Orders (tellOwners)
open Sys2Proof.Proofs.Loads
open Sys2Proof.Proofs.Rewrites

/-! ### From the report to the load -/

/-- The load of a queue, by protection as it stands in `s`. -/
def queuePlan (k : FrameIndex) (s : State) : LoadPlan := planLoad s.unitAllowed (k + 1) 0 s.xpe.queue

/-- What the load finds: the settled map handed over, with the queue, the waits and the protects of `s`. -/
structure Ready (k : FrameIndex) (s h : State) : Prop where
  control  : h.control = s.control
  runState : h.runState = s.runState
  rtu      : h.rtu = s.rtu
  inputs   : h.tly.inputs = s.tly.inputs
  queue    : h.xpe.queue = s.xpe.queue
  armed    : h.xpe.armed = []
  wait     : h.xpe.reportWait = none
  link     : h.xpe.link = s.xpe.link
  sweep    : h.xpe.sweep = s.xpe.sweep
  ack      : h.xpe.ackWait = s.xpe.ackWait
  still    : ∀ d, (h.dest d).protect = (s.dest d).protect ∧ (h.dest d).present = (s.dest d).present
  allowed  : h.unitAllowed = s.unitAllowed
  copy     : h.csi.copy = s.csi.copy
  mirror   : ∀ i, s.tly.inputs = some i → i.frame = k → h.csi.mirror = s.csi.mirror
  wf       : s.store.wf = true → h.store.wf = true

theorem ready_of {lines : List ReportLine} {k : FrameIndex} {s u h : State} (hu : Reported lines s u) (hh : Handed k u h) : Ready k s h := by
  obtain ⟨hqueue, harmed, hwait, hack, hsweep, -, hlink, -, -⟩ := hh.router.others
  have hxpe := hu.xpe
  have hstill : ∀ d, (h.dest d).protect = (s.dest d).protect ∧ (h.dest d).present = (s.dest d).present := by
    intro d
    have hdest : h.dest d = { u.dest d with depth := (h.dest d).depth, loop := (h.dest d).loop } := hh.router.dest d
    obtain ⟨hprotect, hpresent⟩ := hu.still d
    rw [hdest]
    exact ⟨hprotect, hpresent⟩
  have hlevel : ∀ r, h.levelNow r = s.levelNow r := by
    intro r
    unfold State.levelNow
    cases r.owner with
    | panel p => exact (hh.level p).trans (congrArg Panel.level (panel_of_pnc hu.pnc p))
    | app tag => rfl
  rw [hxpe] at hqueue harmed hwait hack hsweep hlink
  exact {
    control := hh.control.trans hu.control
    runState := hh.runState.trans hu.runState
    rtu := hh.rtu.trans hu.rtu
    inputs := by rw [hh.inputs, hu.tly]
    queue := hqueue, armed := harmed, wait := hwait, link := hlink, sweep := hsweep, ack := hack
    still := hstill
    allowed := by
      funext q
      simp only [State.unitAllowed, hlevel, hstill]
    copy := hh.copy.trans hu.copy
    mirror := fun i hi hk => (hh.mirror i (by rw [hu.tly]; exact hi) hk).trans hu.mirror
    wf := fun hw => hh.wf (hu.wf hw) }

section
variable {k : FrameIndex} {s h : State} (hr : Ready k s h)
include hr

theorem Ready.plan : plan (k + 1) h = queuePlan k s := by
  rw [Loads.plan, hr.allowed, hr.queue, queuePlan]

/-- In RUNNING with no sweep the load takes its plan. -/
theorem Ready.loads (hlink : s.xpe.link = .up) (hrun : s.runState = .running) (hsweep : s.xpe.sweep = none) : (load (k + 1) h).xpe = { h.xpe with
    queue := (queuePlan k s).kept, armed := (queuePlan k s).armed, ackWait := s.xpe.ackWait || !(queuePlan k s).armed.isEmpty } := by
  rw [load_xpe (hr.runState.trans hrun) (hr.link.trans hlink) (hr.sweep.trans hsweep) hr.armed, hr.plan, hr.ack]

theorem Ready.idles (hidle : s.runState ≠ .running ∨ s.xpe.sweep ≠ none) : load (k + 1) h = h :=
  load_idle (hidle.imp (by rw [hr.runState]; exact id) (by rw [hr.sweep]; exact id))

/-- The load changes the queue, the armed set and the wait for its acknowledgement alone. -/
theorem Ready.load_rest (hlink : s.xpe.link = .up) : (load (k + 1) h).xpe.dests = h.xpe.dests ∧ (load (k + 1) h).xpe.reportWait = none ∧
    (load (k + 1) h).xpe.link = .up ∧ (load (k + 1) h).xpe.sweep = s.xpe.sweep := by
  by_cases hidle : s.runState ≠ .running ∨ s.xpe.sweep ≠ none
  · rw [hr.idles hidle]
    exact ⟨rfl, hr.wait, hr.link.trans hlink, hr.sweep⟩
  · obtain ⟨hrun, hsweep⟩ := not_or.1 hidle
    rw [hr.loads hlink (not_not.1 hrun) (not_not.1 hsweep)]
    exact ⟨rfl, hr.wait, hr.link.trans hlink, hr.sweep⟩

/-- The load reports the units that protection stops, where all that pass fit. -/
theorem Ready.tells (hlink : s.xpe.link = .up) (hrun : s.runState = .running) (hsweep : s.xpe.sweep = none)
    (hfits : (arming s.unitAllowed (k + 1) s.xpe.queue).length ≤ 48) : journal (load (k + 1) h) =
      journal (tellOwners .protectFailed s.rtu.frame s.rtu.label (owned (stopping s.unitAllowed (k + 1) s.xpe.queue)) h) := by
  rw [load_journal (hr.runState.trans hrun) (hr.link.trans hlink) (hr.sweep.trans hsweep) hr.armed, hr.plan, queuePlan, planLoad_whole hfits, hr.rtu]

end

/-! ### The settlement -/

/-- A report that is not awaited, or of too many lines, is ignored. -/
theorem takeReport_ignored {lines : List ReportLine} {s : State} (h : s.xpe.reportWait = none ∨ s.xpe.link = .down ∨ 48 < lines.length) :
    takeReport lines s = s := by
  have hawaits : s.awaitsReport lines = false := by
    rcases h with h | h | h
    · simp [State.awaitsReport, h]
    · simp [State.awaitsReport, h]
    · simp only [State.awaitsReport, decide_eq_false (Nat.not_le.2 h), Bool.and_false]
  have hreceive : receiveReport lines s = s := by
    unfold receiveReport
    split
    · rfl
    · rw [hawaits]
      exact if_neg Bool.false_ne_true
  rw [takeReport, examinedAfter, hawaits, hreceive]
  exact if_neg Bool.false_ne_true

theorem tellResolution_tells {k : FrameIndex} {v : State} {i : FrameInputs} (hi : v.tly.inputs = some i) (hk : i.frame = k) :
    tellResolution k v = onResolution v.rtu.frame v.rtu.label v := by
  unfold tellResolution
  rw [hi]
  exact if_pos hk

/-- What a selector reads of the map. -/
theorem selectsD2_congr {s t : State} (h : ∀ d, (t.dest d).present = (s.dest d).present ∧ (t.dest d).entryA = (s.dest d).entryA) (i : Ifb) :
    t.selectsD2 i ↔ s.selectsD2 i := by
  simp only [State.selectsD2, h]

/-- The selectors as the settled map gives them. -/
theorem Handed.selectors {k : FrameIndex} {u h t : State} (hh : Handed k u h) (hifbs : t.tke.ifbs = h.tke.ifbs)
    (hdest : ∀ d, (t.dest d).present = (u.dest d).present ∧ (t.dest d).entryA = (u.dest d).entryA) (i : Fin 8) :
    (u.tke.ifbs[i].port = none → t.tke.ifbs[i] = u.tke.ifbs[i]) ∧ (u.tke.ifbs[i].port ≠ none →
      (t.selectsD2 u.tke.ifbs[i] → t.tke.ifbs[i] = { u.tke.ifbs[i] with selector := .d2 }) ∧
      (¬ t.selectsD2 u.tke.ifbs[i] → t.tke.ifbs[i] = { u.tke.ifbs[i] with selector := .d1 })) := by
  obtain ⟨hd2, hd1⟩ := Orders.selectorOf_iff u u.tke.ifbs[i]
  have hifb := hh.ifbs i
  rw [hifbs, selectsD2_congr hdest]
  refine ⟨fun hp => by rw [hifb, hp]; rfl, fun hp => ?_⟩
  rw [if_pos (Option.isSome_iff_ne_none.2 hp)] at hifb
  exact ⟨fun hs => by rw [hifb, hd2 hs], fun hs => by rw [hifb, hd1 hs]⟩

/-- An entry that a load arms is one of a due unit that protection allows, with its late count. -/
theorem queuePlan_armed {k : FrameIndex} {s : State} {a : ArmedEntry} (h : a ∈ (queuePlan k s).armed) :
    ∃ q ∈ s.xpe.queue, a.xpt ∈ q.entries ∧ (∀ f, q.due = some f → 0 ≤ (k + 1 - f).toInt ∧ a.late = (k + 1 - f).toInt) ∧
      (q.due = none → a.late = 0) ∧
      protectAllows (s.dest a.xpt.dest).protect q.requester.owner (s.levelNow q.requester) = true := by
  obtain ⟨q, hq, hdue, hallowed, ha⟩ := planLoad_armed _ _ h
  obtain ⟨x, hx, rfl⟩ := mem_armedEntries.1 ha
  refine ⟨q, hq, hx, fun f hf => ?_, fun hf => ?_, List.all_eq_true.1 hallowed x hx⟩
  · have hsince : 0 ≤ (k + 1 - f).toInt := by
      rw [dueFor, hf] at hdue
      exact of_decide_eq_true hdue
    refine ⟨hsince, ?_⟩
    have hlate : lateCount (k + 1) q = (k + 1 - f).toInt.toNat := by rw [lateCount, hf]; rfl
    simp only [hlate, Int.toNat_of_nonneg hsince]
  · simp only [lateCount, hf]

/-- The plan of a queue, by the statement's three cases. -/
theorem queuePlan_cases (k : FrameIndex) (s : State) :
    ((arming s.unitAllowed (k + 1) s.xpe.queue).length ≤ 48 →
      (queuePlan k s).armed = arming s.unitAllowed (k + 1) s.xpe.queue ∧ (queuePlan k s).kept = staying (k + 1) s.xpe.queue) ∧
    (∀ before u after, s.xpe.queue = before ++ u :: after → dueFor (k + 1) u = true → s.unitAllowed u = true →
      (arming s.unitAllowed (k + 1) before).length + u.entries.length ≤ 48 →
      (∃ more, (queuePlan k s).armed = arming s.unitAllowed (k + 1) before ++ armedEntries (k + 1) u ++ more) ∧
        ∃ rest, (queuePlan k s).kept = staying (k + 1) before ++ rest ∧ rest.Sublist after) ∧
    (∀ before u after, s.xpe.queue = before ++ u :: after → dueFor (k + 1) u = true → s.unitAllowed u = true →
      (arming s.unitAllowed (k + 1) before).length ≤ 48 → 48 < (arming s.unitAllowed (k + 1) before).length + u.entries.length →
      (queuePlan k s).armed = arming s.unitAllowed (k + 1) before ∧ (queuePlan k s).kept = staying (k + 1) before ++ u :: after) := by
  unfold queuePlan
  refine ⟨fun hfits => ?_, fun before u after hq hdue hp hfits => ?_, fun before u after hq hdue hp hbefore hfull => ?_⟩
  · rw [planLoad_whole hfits]
    exact ⟨rfl, rfl⟩
  · rw [hq, planLoad_append _ before 0 (by omega), Nat.zero_add, planLoad_fits after hdue hp hfits]
    exact ⟨⟨_, (List.append_assoc ..).symm⟩, _, rfl, planLoad_kept after _⟩
  · rw [hq, planLoad_append _ before 0 (by omega), Nat.zero_add, planLoad_full after hdue hp hfull]
    exact ⟨List.append_nil _, rfl⟩

/-- What the end of a report leaves behind its load. -/
structure Loaded (k : FrameIndex) (s h t : State) : Prop where
  control  : t.control = s.control
  runState : t.runState = s.runState
  rtu      : t.rtu = s.rtu
  ifbs     : t.tke.ifbs = h.tke.ifbs
  dests    : t.xpe.dests = h.xpe.dests
  wait     : t.xpe.reportWait = none
  link     : t.xpe.link = .up
  sweep    : t.xpe.sweep = s.xpe.sweep
  quiet    : s.runState ≠ .running ∨ s.xpe.sweep ≠ none → t.xpe.armed = [] ∧ t.xpe.queue = s.xpe.queue ∧ t.xpe.ackWait = s.xpe.ackWait
  loaded   : s.runState = .running → s.xpe.sweep = none → t.xpe.armed = (queuePlan k s).armed ∧ t.xpe.queue = (queuePlan k s).kept ∧
    t.xpe.ackWait = (s.xpe.ackWait || !(queuePlan k s).armed.isEmpty)

theorem Ready.loaded {k : FrameIndex} {s h : State} (hr : Ready k s h) (hlink : s.xpe.link = .up) :
    Loaded k s h (tellResolution k (load (k + 1) h)) := by
  obtain ⟨hdests, hwait, hlink', hsweep⟩ := hr.load_rest hlink
  obtain ⟨vcontrol, vrun, vrtu, -, vtke, -⟩ := load_frame (k + 1) h
  have hidles := hr.idles
  have hloads := hr.loads hlink
  generalize load (k + 1) h = v at *
  obtain ⟨tcontrol, trun, trtu, txpe, -, ttke, -⟩ := tellResolution_frame k v
  generalize tellResolution k v = t at *
  exact {
    control := by rw [tcontrol, vcontrol, hr.control]
    runState := by rw [trun, vrun, hr.runState]
    rtu := by rw [trtu, vrtu, hr.rtu]
    ifbs := by rw [ttke, vtke]
    dests := by rw [txpe, hdests]
    wait := by rw [txpe, hwait]
    link := by rw [txpe, hlink']
    sweep := by rw [txpe, hsweep]
    quiet := fun hn => by rw [txpe, hidles hn]; exact ⟨hr.armed, hr.queue, hr.ack⟩
    loaded := fun hrun hn => by rw [txpe, hloads hrun hn]; exact ⟨rfl, rfl, rfl⟩ }

section
variable {k : FrameIndex} {s h t : State} (hl : Loaded k s h t)
include hl

/-- A load was made, or none. -/
theorem Loaded.cases : (t.xpe.armed = [] ∧ t.xpe.ackWait = s.xpe.ackWait) ∨
    (t.xpe.armed = (queuePlan k s).armed ∧ t.xpe.ackWait = (s.xpe.ackWait || !(queuePlan k s).armed.isEmpty)) := by
  by_cases hrun : s.runState = .running
  · by_cases hsweep : s.xpe.sweep = none
    · obtain ⟨harmed, -, hack⟩ := hl.loaded hrun hsweep
      exact .inr ⟨harmed, hack⟩
    · obtain ⟨harmed, -, hack⟩ := hl.quiet (.inr hsweep)
      exact .inl ⟨harmed, hack⟩
  · obtain ⟨harmed, -, hack⟩ := hl.quiet (.inl hrun)
    exact .inl ⟨harmed, hack⟩

theorem Loaded.armed_bound : t.xpe.armed.length ≤ 48 := by
  rcases hl.cases with ⟨harmed, -⟩ | ⟨harmed, -⟩
  · simp [harmed]
  · obtain ⟨-, -, hlength⟩ := Kept.planLoad_sound s.unitAllowed (k + 1) s.xpe.queue 0 (by omega)
    rw [Nat.zero_add] at hlength
    rw [harmed]
    exact hlength

/-- The acknowledgement is awaited from a load that arms on, and no empty load changes the wait. -/
theorem Loaded.ack : (t.xpe.armed ≠ [] → t.xpe.ackWait = true) ∧ (t.xpe.armed = [] → t.xpe.ackWait = s.xpe.ackWait) := by
  rcases hl.cases with ⟨harmed, hack⟩ | ⟨harmed, hack⟩
  · exact ⟨fun hn => absurd harmed hn, fun _ => hack⟩
  · rw [harmed, hack]
    exact ⟨fun hn => by simp [hn], fun hn => by simp [hn]⟩

end

/-- What an awaited report leaves of the mirrors, where the map's resolution ran in LIVE. -/
theorem Ready.tellsMirrors {k : FrameIndex} {s h : State} (hr : Ready k s h) {i : FrameInputs} {c : AnchorCopy} (hi : s.tly.inputs = some i) (hk : i.frame = k)
    (hc : s.csi.copy = some c) (hlive : s.csi.mirror.freeze = .live) :
    (∀ b, s.csi.mirror.writing = some b → tellResolution k (load (k + 1) h) = { load (k + 1) h with csi := { (load (k + 1) h).csi with mirror :=
      { s.csi.mirror with waiting := some (s.rtu.frame, s.rtu.label) } } }) ∧
    (s.csi.mirror.writing = none → tellResolution k (load (k + 1) h) = startRewrite c s.rtu.frame s.rtu.label (load (k + 1) h) ∧
      (s.csi.mirror.complete = true → s.store.wf = true → c.mirror + 3008 ≤ 4194304 →
        (tellResolution k (load (k + 1) h)).mirrorsShowTallies (tellResolution k (load (k + 1) h)).store c.mirror ∧
        (tellResolution k (load (k + 1) h)).mirrorsShowPanels (tellResolution k (load (k + 1) h)).store c.mirror)) := by
  obtain ⟨-, -, vrtu, vtly, -, -, -, -, -, vcopy, -, -, vmirror⟩ := load_frame (k + 1) h
  have vwf := (Kept.load_kept (k + 1) h).store
  generalize load (k + 1) h = v at *
  have hmirror : v.csi.mirror = s.csi.mirror := vmirror.trans (hr.mirror i hi hk)
  have hcopy : v.csi.copy = some c := by rw [vcopy, hr.copy, hc]
  have hlive' : v.csi.mirror.freeze = .live := by rw [hmirror, hlive]
  rw [tellResolution_tells (by rw [vtly, hr.inputs, hi]) hk, vrtu.trans hr.rtu]
  refine ⟨fun b hb => ?_, fun hidle => ?_⟩
  · rw [Freezes.onResolution_waits _ _ hcopy hlive' (by rw [hmirror]; exact hb), hmirror]
  · rw [Freezes.onResolution_starts _ _ hcopy hlive' (by rw [hmirror]; exact hidle)]
    exact ⟨rfl, fun hcomplete hwf hfits => startRewrite_complete (vwf (hr.wf hwf)) hfits (by rw [hmirror]; exact hcomplete)
      (Freezes.rewritten_picture _ _ _ v)⟩

/-- Settles O50: an awaited report deals with the armed set, hands the map over, loads and tells of the resolution. -/
theorem switchReportSettlesTakes : Obligations.SwitchReportSettlesTakes := by
  unfold Obligations.SwitchReportSettlesTakes
  refine ⟨fun lines s h => congrArg _ (takeReport_ignored h), fun lines s k hwait hlink hlen harmed => ?_⟩
  have hexec : exec (.switchReport lines) s = .next (examineHalting (receiveReport lines s)) := by
    have hawaits : s.awaitsReport lines = true := by simp [State.awaitsReport, hwait, hlink, hlen]
    change Host.Outcome.next (takeReport lines s) = _
    rw [takeReport, examinedAfter, hawaits]
    exact congrArg _ (if_pos rfl)
  rw [hexec, receiveReport_stages hwait hlink hlen]
  have hu := reported_reported lines s
  generalize reported lines s = u at hu ⊢
  have hh := handOverMap_handed k u
  have hr := ready_of hu hh
  have hl := hr.loaded hlink
  have hmirrors := fun i c => hr.tellsMirrors (i := i) (c := c)
  have htells := hr.tells hlink
  have hidles := hr.idles
  have hd : Distinct s.xpe.armed := List.pairwise_map.1 harmed.2
  generalize hhu : handOverMap k u = h at *
  generalize hv : load (k + 1) h = v at *
  generalize ht : tellResolution k v = t at *
  have hdest : ∀ d, t.dest d = { u.dest d with depth := (h.dest d).depth, loop := (h.dest d).loop } := fun d => by
    rw [State.dest, hl.dests]
    exact hh.router.dest d
  have hentry : ∀ d l, (t.dest d).entry l = (u.dest d).entry l := fun d l => by
    rw [hdest]
    cases l <;> rfl
  refine ⟨t, rfl, fun hn => examineHalting_other (by rw [hl.runState]; exact hn), hl.wait, hl.link, hl.sweep, ?_, fun i => ?_, fun a ha => ?_,
    fun d l hn => ?_, fun d => ?_, fun hn => ?_, ⟨hl.armed_bound, fun a ha => ?_⟩, ?_, hl.ack.1, hl.ack.2, hl.rtu, hl.runState, hl.control⟩
  · intro done dealt made
    obtain ⟨ucsi, ustore⟩ := journal_eq (hu.told hd)
    refine ⟨u, v, ucsi, ustore, hu.rtu, hu.tly, by rw [hhu, hv], ht.symm, fun hn => by rw [hhu]; exact hidles hn, hmirrors, ?_⟩
    intro stopped passed told hrun hsweep hfits
    rw [← hhu] at htells
    exact journal_eq (htells hrun hsweep (by rw [arming_length]; exact hfits))
  · have hmap : ∀ d, (t.dest d).present = (u.dest d).present ∧ (t.dest d).entryA = (u.dest d).entryA := fun d => by
      rw [hdest]
      exact ⟨rfl, rfl⟩
    have hsel := hh.selectors hl.ifbs hmap i
    rw [hu.tke] at hsel
    exact hsel
  · rw [hentry, hu.entry hd a ha]
    rfl
  · rw [hentry, hu.other d l hn]
  · obtain ⟨hprotect, hpresent⟩ := hu.still d
    rw [hdest]
    exact ⟨hprotect, hpresent⟩
  · obtain ⟨tarmed, tqueue, -⟩ := hl.quiet hn
    exact ⟨tarmed, tqueue⟩
  · rcases hl.cases with ⟨tarmed, -⟩ | ⟨tarmed, -⟩ <;> rw [tarmed] at ha
    · exact absurd ha List.not_mem_nil
    · exact queuePlan_armed ha
  · intro due allowed arms armed stays hrun hsweep
    obtain ⟨tarmed, tqueue, -⟩ := hl.loaded hrun hsweep
    rw [tarmed, tqueue]
    exact queuePlan_cases k s

end Sys2Proof.Proofs.SwitchReports
end

