-- ==== Sys2Proof/Proofs/Silence.lean ====
section
/-! Without an anchor copy, a running strip and a rewrite in progress no operation writes to the common store. -/

namespace Sys2Proof.Proofs.Silence

open Sys2Proof Sys2Proof.Machine

/-! ### Operations that report, with no anchor copy -/

/-- A fold of steps that keep the copy and, without one, write nothing. -/
theorem foldl_mute {α : Type} {f : State → α → State} (hcopy : ∀ s a, (f s a).csi.copy = s.csi.copy)
    (hstore : ∀ s a, s.csi.copy = none → (f s a).store = s.store) (l : List α) (s : State) (hc : s.csi.copy = none) :
    (l.foldl f s).store = s.store := by
  induction l generalizing s with
  | nil => rfl
  | cons a l ih => rw [List.foldl_cons, ih _ ((hcopy s a).trans hc), hstore s a hc]

section
variable {s : State}

@[simp] theorem report_mute (r : Report) (f : FrameIndex) (l : Label) (hc : s.csi.copy = none) : (report r f l s).store = s.store := by
  rw [report, hc]

@[simp] theorem reportNow_mute (r : Report) (hc : s.csi.copy = none) : (reportNow r s).store = s.store := by simp [reportNow, hc]

@[simp] theorem talkLinkUp_mute (hc : s.csi.copy = none) : (talkLinkUp s).store = s.store := by simp [talkLinkUp, hc]

@[simp] theorem talkAcknowledged_mute (hc : s.csi.copy = none) : (talkAcknowledged s).store = s.store := by
  unfold talkAcknowledged
  repeat' split
  all_goals simp [hc]

@[simp] theorem talkFailed_mute (hc : s.csi.copy = none) : (talkFailed s).store = s.store := by
  unfold talkFailed
  repeat' split
  all_goals simp [hc]

@[simp] theorem refuseKey_mute (p : Fin 24) (k : Fin 48) (c : Code) (hc : s.csi.copy = none) : (refuseKey p k c s).store = s.store := by
  simp [refuseKey, hc]

@[simp] theorem requestProtect_mute (d : Fin 64) (r : Requester) (hc : s.csi.copy = none) : (requestProtect d r s).1.store = s.store := by
  unfold requestProtect
  repeat' split
  all_goals simp [hc]

@[simp] theorem requestRelease_mute (d : Fin 64) (r : Requester) (hc : s.csi.copy = none) : (requestRelease d r s).1.store = s.store := by
  unfold requestRelease
  repeat' split
  all_goals simp [hc]

@[simp] theorem takeDone_mute (r : Requester) (x : Crosspoint) (o : TakeOutcome) (n : Nat) (hc : s.csi.copy = none) :
    (takeDone r x o n s).store = s.store := by
  unfold takeDone
  repeat' split
  all_goals simp [hc]

theorem superseded_mute (l : List (TakeUnit × Crosspoint)) (hc : s.csi.copy = none) :
    (l.foldl (fun s e => takeDone e.1.requester e.2 .superseded 0 s) s).store = s.store :=
  foldl_mute (fun s _ => by simp) (fun s _ h => by simp [h]) l s hc

theorem noticed_mute (o : Owner) (l : List (Fin 64)) (s : State) : (l.foldl (fun s d => takeNotice o d s) s).store = s.store :=
  foldl_keeps State.store _ (fun s _ => by simp) l s

@[simp] theorem admitUnit_mute (u : TakeUnit) (hc : s.csi.copy = none) : (admitUnit u s).1.store = s.store := by
  unfold admitUnit
  split
  · rfl
  · exact (noticed_mute _ _ _).trans (superseded_mute (s := { s with xpe := { s.xpe with queue := admittedQueue s.xpe.queue u } }) _ hc)

@[simp] theorem requestTake_mute (d : Fin 64) (m : LevelMask) (x : Source) (fm : Option DueForm) (r : Requester) (c : Cause)
    (hc : s.csi.copy = none) : (requestTake d m x fm r c s).1.store = s.store := by
  simp only [requestTake, withCount]
  repeat' split
  all_goals simp [hc]

@[simp] theorem decideSalvo_mute (es : List Crosspoint) (due : Option FrameIndex) (r : Requester) (c : Cause) (n : Option (Fin 16))
    (hc : s.csi.copy = none) : (decideSalvo es due r c n s).1.store = s.store := by
  simp only [decideSalvo, withCount]
  repeat' split
  all_goals simp [hc]

@[simp] theorem unitDone_mute (o : TakeOutcome) (u : TakeUnit) (hc : s.csi.copy = none) : (unitDone o u s).store = s.store :=
  foldl_mute (fun s _ => by simp) (fun s _ h => by simp [h]) u.entries s hc

@[simp] theorem load_mute (k : FrameIndex) (hc : s.csi.copy = none) : (load k s).store = s.store := by
  have hdone : ∀ (l : List TakeUnit) (b : State), b.csi.copy = none → (l.foldl (fun s u => unitDone .protectFailed u s) b).store = b.store :=
    foldl_mute (fun s _ => by simp) fun s _ h => by simp [h]
  simp only [load]
  split
  · simp [hc, hdone]
  · rfl

@[simp] theorem setMapEntry_mute (d : Fin 64) (l : Level) (e : MapEntry) (c : Cause) (hc : s.csi.copy = none) :
    (setMapEntry d l e c s).store = s.store := by
  simp only [setMapEntry]
  split <;> simp [hc]

@[simp] theorem mapMismatch_mute (d : Fin 64) (l : Level) (a : Option Source) (x : Byte) (c : Cause) (hc : s.csi.copy = none) :
    (mapMismatch d l a x c s).store = s.store := by simp [mapMismatch, hc]

@[simp] theorem settleArmed_mute (ls : List ReportLine) (a : ArmedEntry) (hc : s.csi.copy = none) : (settleArmed ls a s).store = s.store := by
  unfold settleArmed
  repeat' split
  all_goals simp [hc]

@[simp] theorem changePanel_mute (p : Fin 24) (st : PanelState) (hc : s.csi.copy = none) : (changePanel p st s).store = s.store := by
  simp only [changePanel]
  repeat' split
  all_goals simp [hc]

@[simp] theorem talkEvent_mute (p : Fin 24) (k : Fin 48) (m : TalkMode) (b : Bool) (hc : s.csi.copy = none) :
    (talkEvent p k m b s).store = s.store := by
  unfold talkEvent
  repeat' split
  all_goals simp [hc]

@[simp] theorem sourcePress_mute (p : Fin 24) (k : Fin 48) (x : Source) (hc : s.csi.copy = none) : (sourcePress p k x s).store = s.store := by
  simp only [sourcePress, afterTake]
  repeat' split
  all_goals simp [hc]

@[simp] theorem takePress_mute (ahead : Bool) (p : Fin 24) (k : Fin 48) (hc : s.csi.copy = none) : (takePress ahead p k s).store = s.store := by
  simp only [takePress, afterTake]
  repeat' split
  all_goals simp [hc]

@[simp] theorem stepPress_mute (p : Fin 24) (k : Fin 48) (g : Fin 8) (hc : s.csi.copy = none) : (stepPress p k g s).store = s.store := by
  simp only [stepPress]
  repeat' split
  all_goals simp [hc]

@[simp] theorem protectPress_mute (p : Fin 24) (k : Fin 48) (hc : s.csi.copy = none) : (protectPress p k s).store = s.store := by
  simp only [protectPress]
  repeat' split
  all_goals simp [hc]

@[simp] theorem judge_mute (p : Fin 24) (c : BitVec 16) (hc : s.csi.copy = none) : (judge p c s).store = s.store := by
  unfold judge
  repeat' split
  all_goals simp [hc]

@[simp] theorem receiveProbeAnswer_mute (l : Fin 4) (a : Byte) (c : BitVec 16) (hc : s.csi.copy = none) :
    (receiveProbeAnswer l a c s).store = s.store := by
  simp only [receiveProbeAnswer]
  repeat' split
  all_goals simp [hc]

@[simp] theorem closePoll_mute (l : Fin 4) (hc : s.csi.copy = none) : (closePoll l s).store = s.store := by
  simp only [closePoll]
  repeat' split
  all_goals simp [hc]

@[simp] theorem closeProbe_mute (l : Fin 4) (hc : s.csi.copy = none) : (closeProbe l s).store = s.store := by
  simp only [closeProbe]
  repeat' split
  all_goals simp [hc]

@[simp] theorem sampleGpi_mute (x : BitVec 16) (i : Fin 16) (hc : s.csi.copy = none) : (sampleGpi x i s).store = s.store := by
  simp only [sampleGpi]
  repeat' split
  all_goals simp [hc]

@[simp] theorem sampleInputs_mute (x : BitVec 16) (hc : s.csi.copy = none) : (sampleInputs x s).store = s.store := by
  simp only [sampleInputs]
  exact foldl_mute (fun s _ => by simp) (fun s _ h => by simp [h]) _ s hc

@[simp] theorem reportFlags_mute (a b c e : BitVec 64) (d : Fin 64) (hc : s.csi.copy = none) : (reportFlags a b c e d s).store = s.store := by
  simp only [reportFlags]
  repeat' split
  all_goals simp [hc]

@[simp] theorem writeResolution_mute (fs : List Found) (hc : s.csi.copy = none) : (writeResolution fs s).store = s.store := by
  have hflags : ∀ (a b c e : BitVec 64) (l : List (Fin 64)) (z : State), z.csi.copy = none →
      (l.foldl (fun s d => reportFlags a b c e d s) z).store = z.store := fun a b c e =>
    foldl_mute (fun s _ => by simp) fun s _ h => by simp [h]
  simp [writeResolution, hflags, hc]

@[simp] theorem resolve_mute (i : FrameInputs) (hc : s.csi.copy = none) : (resolve i s).store = s.store := by simp [resolve, hc]

@[simp] theorem onResolution_mute (f : FrameIndex) (l : Label) (hc : s.csi.copy = none) : onResolution f l s = s := by
  rw [onResolution, hc]

@[simp] theorem runResolution_mute (k : FrameIndex) (hc : s.csi.copy = none) : (runResolution k s).store = s.store := by
  unfold runResolution
  repeat' split
  all_goals simp [hc]

@[simp] theorem tellResolution_mute (k : FrameIndex) (hc : s.csi.copy = none) : (tellResolution k s).store = s.store := by
  unfold tellResolution
  repeat' split
  all_goals simp [hc]

@[simp] theorem handOverMap_mute (k : FrameIndex) (hc : s.csi.copy = none) : (handOverMap k s).store = s.store := by simp [handOverMap, hc]

@[simp] theorem declareSettled_mute (k : FrameIndex) (hc : s.csi.copy = none) : (declareSettled k s).store = s.store := by
  simp [declareSettled, hc]

@[simp] theorem armedDone_mute (o : TakeOutcome) (es : List ArmedEntry) (hc : s.csi.copy = none) : (armedDone o es s).store = s.store :=
  foldl_mute (fun s _ => by simp) (fun s _ h => by simp [h]) es s hc

@[simp] theorem linkLost_mute (w : FabricWait) (hc : s.csi.copy = none) : (linkLost w s).store = s.store := by
  simp only [linkLost]
  repeat' split
  all_goals simp [hc]

@[simp] theorem receiveReport_mute (ls : List ReportLine) (hc : s.csi.copy = none) : (receiveReport ls s).store = s.store := by
  have hsettle : ∀ (l : List ArmedEntry) (b : State), (l.foldl (fun s a => settleArmed ls a s) b).csi.copy = b.csi.copy :=
    foldl_keeps (fun s : State => s.csi.copy) _ fun s _ => by simp
  have hmute : ∀ (l : List ArmedEntry) (b : State), b.csi.copy = none → (l.foldl (fun s a => settleArmed ls a s) b).store = b.store :=
    foldl_mute (fun s _ => by simp) fun s _ h => by simp [h]
  simp only [receiveReport]
  repeat' split
  all_goals simp [hc, hsettle, hmute]

@[simp] theorem reportTimeout_mute (hc : s.csi.copy = none) : (reportTimeout s).store = s.store := by
  unfold reportTimeout
  repeat' split
  all_goals simp [hc]

@[simp] theorem armTimeout_mute (hc : s.csi.copy = none) : (armTimeout s).store = s.store := by
  unfold armTimeout
  repeat' split
  all_goals simp [hc]

@[simp] theorem readTimeout_mute (hc : s.csi.copy = none) : (readTimeout s).store = s.store := by
  unfold readTimeout
  repeat' split
  all_goals simp [hc]

@[simp] theorem readBack_mute (d : Fin 64) (l : Level) (x : Byte) (hc : s.csi.copy = none) : (readBack d l x s).store = s.store := by
  unfold readBack
  repeat' split
  all_goals simp [hc]

@[simp] theorem receiveRead_mute (d l x : Byte) (hc : s.csi.copy = none) : (receiveRead d l x s).store = s.store := by
  unfold receiveRead
  repeat' split
  all_goals simp [hc]

@[simp] theorem receivePing_mute (hc : s.csi.copy = none) : (receivePing s).store = s.store := by
  simp only [receivePing]
  repeat' split
  all_goals simp [hc]

@[simp] theorem xpeBoundary_mute (hc : s.csi.copy = none) : (xpeBoundary s).store = s.store := by
  simp only [xpeBoundary]
  repeat' split
  all_goals simp [hc]

@[simp] theorem changeRef_mute (x : RefState) (hc : s.csi.copy = none) : (changeRef x s).store = s.store := by
  unfold changeRef
  repeat' split
  all_goals simp [hc]

@[simp] theorem windowClose_mute (hc : s.csi.copy = none) : (windowClose s).store = s.store := by
  simp only [windowClose]
  repeat' split
  all_goals simp [hc]

@[simp] theorem resetJournal_mute (hc : s.csi.copy = none) : (resetJournal s).store = s.store := by
  rw [resetJournal, hc]

@[simp] theorem resetXpe_mute (hc : s.csi.copy = none) : (resetXpe s).store = s.store := by
  have hdone : ∀ (l : List TakeUnit) (b : State), b.csi.copy = none → (l.foldl (fun s u => unitDone .dropped u s) b).store = b.store :=
    foldl_mute (fun s _ => by simp) fun s _ h => by simp [h]
  simp [resetXpe, hdone, hc]

@[simp] theorem resetEngine_mute (hc : s.csi.copy = none) : (resetEngine s).store = s.store := by
  simp [resetEngine, resetCsi, hc]

@[simp] theorem restartInterface_mute (hc : s.csi.copy = none) : (restartInterface s).store = s.store := by
  simp [restartInterface, hc]

end

/-! ### Operations that can answer an order, with no strip running -/

section
variable {s : State}

@[simp] theorem fireOutcome_hushed (q : FireRequest) (c : Code) (n : Nat) (hc : s.csi.copy = none) (hr : s.csi.running = none) :
    (fireOutcome q c n s).store = s.store ∧ (fireOutcome q c n s).csi.running = none := by
  unfold fireOutcome
  rw [hr]
  split
  · exact ⟨rfl, hr⟩
  · split <;> simp [hc, hr]
  · simp [hc, hr]
  · exact ⟨rfl, hr⟩

@[simp] theorem beginReads_hushed (qs : List FireRequest) (hc : s.csi.copy = none) (hr : s.csi.running = none) :
    (beginReads qs s).store = s.store ∧ (beginReads qs s).csi.running = none := by
  induction qs generalizing s with
  | nil => exact ⟨rfl, hr⟩
  | cons q qs ih =>
    unfold beginReads
    repeat' split
    all_goals simp [ih, hc, hr]

@[simp] theorem fire_hushed (q : FireRequest) (hc : s.csi.copy = none) (hr : s.csi.running = none) :
    (fire q s).store = s.store ∧ (fire q s).csi.running = none := by
  unfold fire
  split
  · exact ⟨rfl, hr⟩
  · exact beginReads_hushed _ hc hr

@[simp] theorem decideRead_mute (x : SalvoRead) (l : List RawTake) (hc : s.csi.copy = none) : (decideRead x l s).1.store = s.store := by
  unfold decideRead
  split <;> simp [hc]

@[simp] theorem finishRead_hushed (hc : s.csi.copy = none) (hr : s.csi.running = none) :
    (finishRead s).store = s.store ∧ (finishRead s).csi.running = none := by
  simp only [finishRead]
  split
  · exact ⟨rfl, hr⟩
  · simp [hc, hr]

@[simp] theorem keyPress_hushed (ahead : Bool) (p : Fin 24) (k : Fin 48) (hc : s.csi.copy = none) (hr : s.csi.running = none) :
    (keyPress ahead p k s).store = s.store ∧ (keyPress ahead p k s).csi.running = none := by
  unfold keyPress
  repeat' split
  all_goals simp [hc, hr, salvoPress]

@[simp] theorem keyRelease_hushed (p : Fin 24) (k : Fin 48) (hc : s.csi.copy = none) (hr : s.csi.running = none) :
    (keyRelease p k s).store = s.store ∧ (keyRelease p k s).csi.running = none := by
  unfold keyRelease
  repeat' split
  all_goals simp [hc, hr]

@[simp] theorem keyEvent_hushed (ahead : Bool) (p : Fin 24) (k : Fin 48) (b : Bool) (hc : s.csi.copy = none) (hr : s.csi.running = none) :
    (keyEvent ahead p k b s).store = s.store ∧ (keyEvent ahead p k b s).csi.running = none := by
  unfold keyEvent
  repeat' split
  all_goals simp [hc, hr]

theorem keyEvents_hushed (ahead : Bool) (p : Fin 24) (es : List (Fin 48 × Bool)) (hc : s.csi.copy = none) (hr : s.csi.running = none) :
    (es.foldl (fun s e => keyEvent ahead p e.1 e.2 s) s).store = s.store ∧
      (es.foldl (fun s e => keyEvent ahead p e.1 e.2 s) s).csi.copy = none ∧
      (es.foldl (fun s e => keyEvent ahead p e.1 e.2 s) s).csi.running = none := by
  induction es generalizing s with
  | nil => exact ⟨rfl, hc, hr⟩
  | cons e es ih =>
    obtain ⟨hstore, hrun⟩ := keyEvent_hushed ahead p e.1 e.2 hc hr
    obtain ⟨h1, h2, h3⟩ := ih (s := keyEvent ahead p e.1 e.2 s) (by simp [hc]) hrun
    exact ⟨h1.trans hstore, h2, h3⟩

@[simp] theorem takeReply_hushed (ahead : Bool) (l : Fin 4) (p : Fin 24) (i f : Bool) (ca : List (Fin 48 × Lamp)) (ev : List (Fin 48 × Bool))
    (co : Option (BitVec 16)) (hc : s.csi.copy = none) (hr : s.csi.running = none) :
    (takeReply ahead l p i f ca ev co s).store = s.store ∧ (takeReply ahead l p i f ca ev co s).csi.running = none := by
  simp only [takeReply]
  repeat' split
  all_goals simp [hc, hr, keyEvents_hushed]

@[simp] theorem receiveReply_hushed (l : Fin 4) (m : PanelReply) (hc : s.csi.copy = none) (hr : s.csi.running = none) :
    (receiveReply l m s).store = s.store ∧ (receiveReply l m s).csi.running = none := by
  unfold receiveReply
  repeat' split
  all_goals simp [hc, hr]

@[simp] theorem finishMapRead_mute (hr : s.csi.running = none) : (finishMapRead s).store = s.store := by
  simp only [finishMapRead, mapOutcome]
  repeat' split
  all_goals simp_all

@[simp] theorem cueMatch_hushed (a : Label) (n : Fin 16) (hc : s.csi.copy = none) (hr : s.csi.running = none) :
    (cueMatch a n s).store = s.store ∧ (cueMatch a n s).csi.running = none := by
  simp only [cueMatch]
  repeat' split
  all_goals simp [hc, hr]

@[simp] theorem compareCues_hushed (hc : s.csi.copy = none) (hr : s.csi.running = none) :
    (compareCues s).store = s.store ∧ (compareCues s).csi.running = none := by
  unfold compareCues
  split
  · generalize List.finRange 16 = l
    generalize s.lookAhead = a
    suffices h : ∀ b : State, b.csi.copy = none → b.csi.running = none → (l.foldl (fun x n => cueMatch a n x) b).store = b.store ∧
        (l.foldl (fun x n => cueMatch a n x) b).csi.running = none from h s hc hr
    induction l with
    | nil => exact fun b _ hb => ⟨rfl, hb⟩
    | cons n l ih =>
      intro b hbc hbr
      obtain ⟨hstore, hrun⟩ := cueMatch_hushed a n hbc hbr
      obtain ⟨h1, h2⟩ := ih (cueMatch a n b) (by simp [hbc]) hrun
      exact ⟨h1.trans hstore, h2⟩
  · exact ⟨rfl, hr⟩

@[simp] theorem makeBoundary_mute (g : BitVec 16) (hc : s.csi.copy = none) (hr : s.csi.running = none) :
    (makeBoundary g s).store = s.store := by simp [makeBoundary, hc, hr]

@[simp] theorem scalerBoundary_mute (g : BitVec 16) (hc : s.csi.copy = none) (hr : s.csi.running = none) :
    (scalerBoundary g s).store = s.store := by simp [scalerBoundary, hc, hr]

@[simp] theorem referencePulse_mute (e : Nat) (g : BitVec 16) (hc : s.csi.copy = none) (hr : s.csi.running = none) :
    (referencePulse e g s).store = s.store := by
  simp only [referencePulse]
  repeat' split
  all_goals simp [hc, hr]

end

/-! ### Starts and the examination of HALTING -/

section
variable {s : State}

theorem startActions_copy (r : Rate) (c : AnchorCopy) (s : State) : (startActions r c s).csi.copy = some c := by
  have hrejoin : ∀ b : State, (forPanels rejoin b).csi.copy = b.csi.copy := forPanels_keeps (fun x : State => x.csi.copy) rejoin (by intros; simp)
  simp only [startActions]
  split <;> simp [hrejoin, takeCopy]

/-- A start that leaves no anchor copy is a failed one. -/
theorem tryStart_mute (gpi : BitVec 16) (h : (tryStart gpi s).csi.copy = none) : (tryStart gpi s).store = s.store := by
  simp only [tryStart] at h ⊢
  split
  · simp
  · next hr =>
    rw [hr] at h
    dsimp only at h
    split
    · next hsound =>
      rw [if_pos hsound, (overdueBoundary_frame ..).2.2.2.2.1, startActions_copy] at h
      exact absurd h (Option.some_ne_none _)
    · simp

theorem enterHalted_mute (elapsed : Nat) (gpi : BitVec 16) (h : (enterHalted elapsed gpi s).csi.copy = none) :
    (enterHalted elapsed gpi s).store = s.store := by
  unfold enterHalted at h ⊢
  split
  · next hq =>
    rw [if_pos hq] at h
    split
    · next hrun =>
      rw [if_pos hrun] at h
      exact (tryStart_mute gpi h).trans (by simp)
    · rfl
  · rfl

theorem examineHalting_mute (h : (examineHalting s).csi.copy = none) : (examineHalting s).store = s.store := by
  unfold examineHalting at h ⊢
  split
  · next hrun =>
    rw [if_pos hrun] at h
    split
    · next hq =>
      rw [if_pos hq] at h
      exact enterHalted_mute _ _ h
    · rfl
  · next hrun =>
    rw [if_neg hrun] at h
    exact enterHalted_mute _ _ h

theorem setRun_mute (gpi : BitVec 16) (h : (setRun gpi s).csi.copy = none) : (setRun gpi s).store = s.store := by
  simp only [setRun] at h ⊢
  split
  · next hq =>
    rw [if_pos hq] at h
    exact tryStart_mute gpi h
  · rfl

end

/-! ### Every command -/

/-- Before the first start: no anchor copy, no strip in the engine's hands and no rewrite in progress. -/
structure Fresh (s : State) : Prop where
  copy : s.csi.copy = none
  posts : s.csi.posts = []
  running : s.csi.running = none
  writing : s.csi.mirror.writing = none

/-- From a fresh state, an operation that takes no copy writes nothing. -/
def Silent (s t : State) : Prop := Fresh s → t.csi.copy = none → t.store = s.store

section
variable {s t : State}

theorem Silent.of_store (h : s.csi.copy = none → s.csi.running = none → t.store = s.store) : Silent s t := fun hf _ => h hf.copy hf.running

theorem Silent.refl (s : State) : Silent s s := fun _ _ => rfl

theorem Silent.examined (h : s.csi.copy = none → s.csi.running = none → t.store = s.store) : Silent s (examineHalting t) :=
  fun hf hc => (examineHalting_mute hc).trans (h hf.copy hf.running)

theorem Silent.examinedAfter (taken : Bool) {event : State → State}
    (h : s.csi.copy = none → s.csi.running = none → (event s).store = s.store) : Silent s (Machine.examinedAfter taken event s) := by
  unfold Machine.examinedAfter
  split
  · exact .examined h
  · exact .of_store h

/-- With no strip running an order's command is none of the strip's steps. -/
theorem runOrder_silent (kind : Nat) (block : Requester → OrderRecord → State → State × Answer) (s : State) : Silent s (runOrder kind block s) :=
  .examinedAfter _ fun _ hr => by simp [workOrder, State.currentOrder, hr]

theorem takeAck_silent (s : State) : Silent s (takeAck s) := .examinedAfter _ fun hc _ => by simp [hc]

theorem takeFailure_silent (s : State) : Silent s (takeFailure s) := .examinedAfter _ fun hc _ => by simp [hc]

theorem receiveFabric_silent (m : FabricMessage) (s : State) : Silent s (receiveFabric m s) := by
  cases m with
  | armAck => exact .of_store fun _ _ => rfl
  | switchReport lines => exact .examinedAfter _ fun hc _ => by simp [hc]
  | readAnswer d l x => exact .of_store fun hc _ => by simp [receiveFabric, hc]
  | pingAnswer => exact .of_store fun hc _ => by simp [receiveFabric, hc]

/-- A register access after the control computer's writes. -/
theorem landed_silent {pre : HostWrites} {access : State → State} (h : ∀ s, Silent s (access s)) (ht : landed pre s access = .next t)
    (hf : Fresh s) (hc : t.csi.copy = none) : t.store = hostWrite s.store pre := by
  unfold landed at ht
  split at ht
  · exact absurd ht nofun
  · cases ht
    exact h (s.withWrites pre) ⟨hf.copy, hf.posts, hf.running, hf.writing⟩ hc

end

theorem ofNext {s t u : State} (h : Silent s t) (ht : (.next t : Host.Outcome State Fault Refusal) = .next u) : Silent s u := by
  cases ht
  exact h

theorem postSlot_silent (slot : Fin 8) (s : State) : Silent s (postSlot slot s) := fun hf _ => by
  unfold postSlot
  rw [hf.copy]
  split <;> simp

theorem withdrawSlot_silent (slot : Fin 8) (s : State) : Silent s (withdrawSlot slot s) := fun hf _ => by
  simp [withdrawSlot, hf.posts, hf.running]

theorem startStrip_silent (s : State) : Silent s (startStrip s) := fun hf _ => by simp [startStrip, hf.posts]

theorem endRewrite_silent (s : State) : Silent s (endRewrite s) := fun hf _ => by simp [endRewrite, hf.writing]

theorem refuseKind_silent (s : State) : Silent s (examinedAfter s.csi.running.isSome refuseKind s) :=
  .examinedAfter _ fun _ hr => by simp [refuseKind, State.currentOrder, hr]

theorem receiveReply_silent (link : Fin 4) (m : PanelReply) (s : State) : Silent s (receiveReply link m s) :=
  .of_store fun hc hr => (receiveReply_hushed link m hc hr).1

theorem receiveProbeAnswer_silent (link : Fin 4) (a : Byte) (code : BitVec 16) (s : State) : Silent s (receiveProbeAnswer link a code s) :=
  .of_store fun hc _ => by simp [hc]

theorem clearCauses_silent (causes : BitVec 5) (s : State) : Silent s (clearCauses causes s) := .of_store fun _ _ => rfl

theorem writeAnchor_silent (value : BitVec 32) (s : State) : Silent s (writeAnchor value s) := .of_store fun _ _ => by
  unfold writeAnchor
  split <;> rfl

theorem resetThen_silent (restart : Bool) (mask : BitVec 5) (s : State) :
    Silent s (setMask mask (if restart then restartInterface (resetEngine s) else resetEngine s)) := .of_store fun hc _ => by
  cases restart <;> simp [hc]

theorem start_silent (elapsed : Nat) (gpi : BitVec 16) (freeze : Bool) (mask : BitVec 5) (s : State) :
    Silent s (setRun gpi (setFreezeBit freeze (setMask mask (advance elapsed s)))) := fun _ hc => (setRun_mute gpi hc).trans (by simp)

/-- From a fresh state every command that takes no anchor copy makes its own writes alone. -/
theorem exec_silent {c : Instr} {s t : State} (h : exec c s = .next t) (hf : Fresh s) (hc : t.csi.copy = none) :
    t.store = hostWrite s.store c.pre := by
  cases c with
  | anchorWrite pre value => exact landed_silent (writeAnchor_silent value) h hf hc
  | post pre slot => exact landed_silent (postSlot_silent slot) h hf hc
  | withdraw pre slot => exact landed_silent (withdrawSlot_silent slot) h hf hc
  | start pre elapsed gpi freeze mask => exact landed_silent (start_silent elapsed gpi freeze mask) h hf hc
  | runClear pre freeze mask =>
    exact landed_silent (access := fun s => runCleared (setFreezeBit freeze (setMask mask s))) (fun s => .of_store fun _ _ => by simp) h hf hc
  | freezeSet pre mask =>
    exact landed_silent (access := fun s => setFreezeBit true (setMask mask s)) (fun s => .of_store fun _ _ => by simp) h hf hc
  | freezeClear pre mask =>
    exact landed_silent (access := fun s => setFreezeBit false (setMask mask s)) (fun s => .of_store fun _ _ => by simp) h hf hc
  | engineReset pre restart mask => exact landed_silent (resetThen_silent restart mask) h hf hc
  | interfaceRestart pre mask =>
    exact landed_silent (access := fun s => examineHalting (setMask mask (restartInterface s)))
      (fun s => .examined fun hc _ => by simp [hc]) h hf hc
  | noticeEnableWrite pre mask => exact landed_silent (access := setMask mask) (fun s => .of_store fun _ _ => rfl) h hf hc
  | noticeClear pre causes => exact landed_silent (clearCauses_silent causes) h hf hc
  | statusWrite pre value => exact landed_silent Silent.refl h hf hc
  | powerOnReset => exact ofNext (t := powerOn s) (.of_store fun _ _ => rfl) h hf hc
  | frameBoundary gpi => exact ofNext (t := scalerBoundary gpi s) (.of_store fun hc hr => by simp [hc, hr]) h hf hc
  | referencePulse elapsed gpi => exact ofNext (t := referencePulse elapsed gpi s) (.of_store fun hc hr => by simp [hc, hr]) h hf hc
  | referenceWindowClose => exact ofNext (t := windowClose s) (.of_store fun hc _ => by simp [hc]) h hf hc
  | enterHalted elapsed gpi => exact ofNext (fun _ hc => enterHalted_mute elapsed gpi hc) h hf hc
  | stripStart => exact ofNext (startStrip_silent s) h hf hc
  | orderOfUnknownKind => exact ofNext (refuseKind_silent s) h hf hc
  | timeSet => exact ofNext (runOrder_silent 1 timeSet s) h hf hc
  | cueSet => exact ofNext (runOrder_silent 2 cueSet s) h hf hc
  | cueClear => exact ofNext (runOrder_silent 3 cueClear s) h hf hc
  | destSet => exact ofNext (runOrder_silent 4 destSet s) h hf hc
  | salvoSet => exact ofNext (runOrder_silent 5 salvoSet s) h hf hc
  | stepSet => exact ofNext (runOrder_silent 6 stepSet s) h hf hc
  | take => exact ofNext (runOrder_silent 7 take s) h hf hc
  | cancel => exact ofNext (runOrder_silent 8 cancel s) h hf hc
  | protect => exact ofNext (runOrder_silent 9 protect s) h hf hc
  | release => exact ofNext (runOrder_silent 10 release s) h hf hc
  | salvoFire => exact ofNext (runOrder_silent 11 salvoFire s) h hf hc
  | panelSet => exact ofNext (runOrder_silent 12 panelSet s) h hf hc
  | keymapLoad => exact ofNext (runOrder_silent 13 keymapLoad s) h hf hc
  | lampSet => exact ofNext (runOrder_silent 14 lampSet s) h hf hc
  | portSet => exact ofNext (runOrder_silent 15 portSet s) h hf hc
  | groupSet => exact ofNext (runOrder_silent 16 groupSet s) h hf hc
  | ifbSet => exact ofNext (runOrder_silent 17 ifbSet s) h hf hc
  | talkForce => exact ofNext (runOrder_silent 18 talkForce s) h hf hc
  | tallySet => exact ofNext (runOrder_silent 19 tallySet s) h hf hc
  | tallyForce => exact ofNext (runOrder_silent 20 tallyForce s) h hf hc
  | gpiSet => exact ofNext (runOrder_silent 21 gpiSet s) h hf hc
  | salvoReadDone => exact ofNext (.examinedAfter _ (event := finishRead) fun hc hr => (finishRead_hushed hc hr).1) h hf hc
  | keymapReadDone => exact ofNext (.examinedAfter _ (event := finishMapRead) fun _ hr => by simp [hr]) h hf hc
  | armAck => exact ofNext (receiveFabric_silent .armAck s) h hf hc
  | armAckTimeout => exact ofNext (.examinedAfter _ (event := armTimeout) fun hc _ => by simp [hc]) h hf hc
  | switchReport lines => exact ofNext (receiveFabric_silent (.switchReport lines) s) h hf hc
  | switchReportTimeout => exact ofNext (.examinedAfter _ (event := reportTimeout) fun hc _ => by simp [hc]) h hf hc
  | mirrorRewriteEnd => exact ofNext (endRewrite_silent s) h hf hc
  | readAnswer dest level number => exact ofNext (receiveFabric_silent (.readAnswer dest level number) s) h hf hc
  | readTimeout => exact ofNext (.examinedAfter _ (event := readTimeout) fun hc _ => by simp [hc]) h hf hc
  | pingAnswer => exact ofNext (receiveFabric_silent .pingAnswer s) h hf hc
  | pingTimeout => exact ofNext (t := pingTimeout s) (.of_store fun _ _ => rfl) h hf hc
  | fabricMessageIgnored message =>
    replace h : execFabricMessageIgnored message s = .next t := h
    unfold execFabricMessageIgnored at h
    split at h
    · exact ofNext (.refl s) h hf hc
    · split at h
      · exact ofNext (.refl s) h hf hc
      · exact ofNext (receiveFabric_silent _ s) h hf hc
  | reply link message => exact ofNext (receiveReply_silent link message s) h hf hc
  | pollWindowClose link => exact ofNext (t := closePoll link s) (.of_store fun hc _ => by simp [hc]) h hf hc
  | probeAnswer link address code => exact ofNext (receiveProbeAnswer_silent link address code s) h hf hc
  | probeTimeout link => exact ofNext (t := closeProbe link s) (.of_store fun hc _ => by simp [hc]) h hf hc
  | autoLatchThreshold => exact ofNext (t := examineKeys s) (.of_store fun _ _ => by simp) h hf hc
  | refusalFlashEnd => exact ofNext (t := endFlashes s) (.of_store fun _ _ => by simp) h hf hc
  | ack => exact ofNext (takeAck_silent s) h hf hc
  | refuse => exact ofNext (takeFailure_silent s) h hf hc
  | talkWriteTimeout => exact ofNext (takeFailure_silent s) h hf hc
  | talkMessageIgnored message =>
    replace h : execTalkMessageIgnored message s = .next t := h
    unfold execTalkMessageIgnored at h
    split at h
    · exact ofNext (.refl s) h hf hc
    · split at h
      · exact ofNext (.refl s) h hf hc
      · exact ofNext (takeAck_silent s) h hf hc
      · exact ofNext (takeFailure_silent s) h hf hc
  | panelMessageIgnored link message =>
    replace h : execPanelMessageIgnored link message s = .next t := h
    unfold execPanelMessageIgnored at h
    split at h
    · exact ofNext (.refl s) h hf hc
    · split at h
      · exact ofNext (.refl s) h hf hc
      · exact ofNext (receiveProbeAnswer_silent link _ _ s) h hf hc
      · exact ofNext (receiveReply_silent link _ s) h hf hc

/-- Settles O15: without an anchor copy reports are dropped, no mirror is rewritten and no slot is written. -/
theorem nothingWrittenBeforeFirstStart : Obligations.NothingWrittenBeforeFirstStart :=
  fun _ _ _ h hcopy hposts hrunning hwriting hc => exec_silent h ⟨hcopy, hposts, hrunning, hwriting⟩ hc

end Sys2Proof.Proofs.Silence
end
